-- ==== Sys2Proof/Word.lean ====
section
/-!
DEFINITION. The word types of the KN-8 and their plainest arithmetic (spec/10 R188, spec/12 R223).
-/
namespace Sys2Proof

/-- A byte of memory, the smallest addressable unit. -/
abbrev Byte := BitVec 8

/-- A 32-bit value: a vector register of one lane, a lane mask, a special register. -/
abbrev W32 := BitVec 32

/-- A 64-bit value: a scalar register, an instruction word, an address. -/
abbrev W64 := BitVec 64

end Sys2Proof
end

