-- ==== Sys2Proof/Syntax.lean ====
section
/-!
DEFINITION. The steps of the KN-8: one constructor of `Instr` for each row of spec/opcode_table.json.
The 145 instruction words of spec/12 carry their guard and lookahead (`Head`), their modifiers and their
operands; a LIT operand carries the literal word it takes (R232). Every other row carries what the step is
about: an owner, a command, a core, a packet.
-/
namespace Sys2Proof

/-! ### Operands and modifiers of instruction words -/

/-- An operand of an instruction word (R230). `lit v` is the LIT operand together with the literal it takes. -/
inductive Operand where
  | v (n : BitVec 8)
  | o (n : BitVec 3)
  | l
  | s (n : BitVec 6)
  | prev (slot : BitVec 2)
  | q (n : BitVec 2)
  | p (n : BitVec 3)
  | zero
  | lit (value : W64)
  | special (n : BitVec 5)
  | acc (n : BitVec 6)
  | imm (n : BitVec 6)
  deriving DecidableEq, Repr

/-- Guard predicate, guard negation and lookahead window (R228). -/
structure Head where
  gp : BitVec 3
  gn : Bool
  la : BitVec 4
  deriving DecidableEq, Repr

/-- Integer type codes IT (R236). -/
inductive IntTy where
  | s32 | u32 | s64 | u64
  deriving DecidableEq, Repr

/-- Float type codes FT (R236). -/
inductive FloatTy where
  | f32 | f64 | f16 | bf16
  deriving DecidableEq, Repr

/-- Rounding modes RM (R195, R236). -/
inductive Rounding where
  | rne | rz | ru | rd
  deriving DecidableEq, Repr

/-- Conditions of ICMP (R266). -/
inductive IntCond where
  | eq | ne | lt | le | gt | ge
  deriving DecidableEq, Repr

/-- Conditions of FCMP (R236, R292). -/
inductive FloatCond where
  | eq | ne | lt | le | gt | ge | un | or
  deriving DecidableEq, Repr

/-- Modes of SHFL (R272). -/
inductive ShuffleMode where
  | lane | rot | xor | rev
  deriving DecidableEq, Repr

/-- Operators of PLOP (R275). -/
inductive PredOp where
  | and | or | xor | andn
  deriving DecidableEq, Repr

/-- Spaces of LD and ST (R144, R244). -/
inductive Space where
  | global | scratch | peer
  deriving DecidableEq, Repr

/-- Access sizes (R244). -/
inductive Size where
  | b8 | b16 | b32 | b64 | b128
  deriving DecidableEq, Repr

/-- Operations of ATOM and RED (R244, R306). -/
inductive AtomOp where
  | addU32 | addU64 | minS32 | maxS32 | minU32 | maxU32 | and | or | xor
  | exchB32 | exchB64 | incwU32 | faddF32 | faddF64 | fminF32 | fmaxF32
  deriving DecidableEq, Repr

/-- Scopes of atomics (R158). -/
inductive Scope where
  | team | cluster | device | system
  deriving DecidableEq, Repr

/-- Operations of LDF (R311). -/
inductive FoldOp where
  | add | min | max | and | or | xor
  deriving DecidableEq, Repr

/-- Element types of LDF (R311). -/
inductive FoldTy where
  | s32 | u32 | f32 | f64 | f16 | bf16 | s64
  deriving DecidableEq, Repr

/-- Types of MMA (R340). -/
inductive MmaTy where
  | f64 | f32 | bf16 | f16
  deriving DecidableEq, Repr

/-- Formats of ACCST and ACCLD (R247). -/
inductive AccFmt where
  | f32 | f64 | bf16 | f16 | e4m3 | e5m2 | s32
  deriving DecidableEq, Repr

/-- Targets of POST and SPAWN (R356). -/
inductive PostTarget where
  | own | die | neighbour | core
  deriving DecidableEq, Repr

/-- Resume modes of RTU (R215). -/
inductive ResumeMode where
  | retry | remove | next | term
  deriving DecidableEq, Repr

/-! ### What the device steps carry -/

/-- Port speeds (R25). -/
inductive PortSpeed where
  | g100 | g200 | g400 | g800 | g1600
  deriving DecidableEq, Repr

/-- The electrical lanes of a port that a speed uses, of eight (R25). -/
def PortSpeed.lanes : PortSpeed → Nat
  | .g100 | .g200 => 1
  | .g400 => 2
  | .g800 => 4
  | .g1600 => 8

/-- The signalling of a lane in Gb/s (R25). -/
def PortSpeed.signalling : PortSpeed → Nat
  | .g100 => 100
  | .g200 | .g400 | .g800 | .g1600 => 200

/-- How a packet or message travels (R27, R28, R30). -/
inductive Flow where
  | uetTss (rod : Bool)   -- UET in a secure domain, ordered (ROD) or not (RUD, RUDI)
  | uetPlain (rod : Bool) -- unprotected UET
  | uetUud                -- unreliable unordered, not supported
  | roce                  -- RoCEv2 RC
  deriving DecidableEq, Repr

/-- What a RoCEv2 connection request asks for (R28). -/
inductive RoceRequest where
  | rc | ud | uc | atomics
  deriving DecidableEq, Repr

/-- An arriving packet that ends a message: its port, the length of its longest Ethernet frame, its flow, endpoint index,
nonce, whether the secure domain's tag verifies, and the message bytes. -/
structure Packet where
  port : Nat
  frame : Nat
  flow : Flow
  endpoint : Nat
  nonce : Nat
  authentic : Bool
  bytes : List Byte
  deriving DecidableEq, Repr

/-- How a message between packages arrives (R30): the owner whose secure domain carries it, where the message itself names none,
its port, the length of its longest frame, its nonce, and whether the secure domain's tag verifies. -/
structure Envelope where
  owner : Nat
  port : Nat
  frame : Nat
  nonce : Nat
  authentic : Bool
  deriving DecidableEq, Repr

/-- How a package's part of a span has ended (R38, R76; log entry 115): its status, and how many of its teams were placed. -/
structure PartEnd where
  status : Nat
  placed : Nat
  deriving DecidableEq, Repr

/-- The inputs of start-up (R15, R20): whether it follows a power cycle, the record slots that each port die does not read
right, and whether the boundaries and stacks, and then the ports, come up. -/
structure StartInputs where
  powerCycle : Bool
  misread0 : List Nat
  misread1 : List Nat
  trained : Bool
  portsUp : Bool
  deriving DecidableEq, Repr

/-- A die's ageing estimate in one recomputation (R22, R23). -/
structure DieReading where
  central : Nat
  low : Nat
  high : Nat
  limiting : Nat
  deriving DecidableEq, Repr

/-- The keys a CTX_OPEN unwraps (R45): AES-256-XTS key pair and AES-GCM-256 key. -/
structure OwnerKeys where
  memoryKey : BitVec 512
  domainKey : BitVec 256
  deriving DecidableEq, Repr

/-- An action on a byte ring (R81, R322). -/
inductive RingOp where
  | reserve (len type core : Nat)
  | commit (record : Nat)
  | take (core : Nat) (quiet : Bool)   -- quiet: the taker has a malformed record to report already (R321)
  | release (record : Nat)
  | skip (record : Nat)     -- an open reservation becomes a committed skip record
  | revert (record : Nat)   -- a held record is given back
  deriving DecidableEq, Repr

/-- A remote operation arriving at its home package (R33). -/
inductive RemoteOp where
  | load (bytes : Nat)
  | fetch                -- of a clause word (R147)
  | store (data : List Byte)
  | atomic (op : AtomOp) (operand : W64)
  | compareSwap (w64 : Bool) (compare new : W64)
  | decrement            -- of a join object's count (R86, R360)
  | initJoin (object : List Byte)   -- of a join object whose count is zero (R359)
  | ring (op : RingOp)   -- on the ring of a control block (R319)
  deriving DecidableEq, Repr

/-- Where an SPDM request came from: the bootstrap endpoint, or a dispatched ATTEST command of an owner. -/
inductive SpdmVia where
  | bootstrap
  | command (owner cmd : Nat)
  deriving DecidableEq, Repr

/-- What a host asks the debug agent to print (R386, R388). -/
inductive PrintWhat where
  | vector (wave reg : Nat)
  | scalar (wave reg : Nat)
  | predicate (wave reg : Nat)
  | special (wave reg : Nat)
  | memory (owner address count : Nat)
  | scratch (team offset rows pitch size count guard : Nat)
  deriving DecidableEq, Repr

/-! ### The steps -/

/-- One constructor for each row of the table, in the table's order. -/
inductive Instr where
  -- the module, its boundaries, memory, power and life (spec/01)
  | moduleStart (inp : StartInputs)
  | flitReceive (boundary : Nat) (dir : Bool) (tag : BitVec 16) (crcOk : Bool) (payload : W64)
  | boundaryRetrain (boundary : Nat) (success : Bool)
  | boundaryDown (boundary : Nat)
  | patrolStep (stack sector : Nat)
  | thermalThrottle (die temperature : Nat)
  | thermalRelease (die temperature : Nat)
  | thermalTrip (die temperature : Nat)
  | lifeRecompute (dies : List DieReading) (trends : List W32)
  -- ports and command arrival (spec/02)
  | portSpeedChange (port : Nat) (speed : PortSpeed)
  | uetPacketReceive (packet : Packet)
  | roceConnectionSetup (port owner : Nat) (request : RoceRequest)
  | commandAppend (owner : Nat)
  | commandRingRoom (owner : Nat)
  | commandDispatch (owner : Nat)
  | commandCompletion (owner cmd : Nat)
  | completionRingRoom (owner : Nat)
  -- host commands (spec/03)
  | bootstrapCtxOpen
  | ctxOpen (owner cmd : Nat)
  | ctxClose (owner cmd : Nat)
  | map (owner cmd : Nat)
  | unmap (owner cmd : Nat)
  | shadow (owner cmd : Nat)
  | copyIn (owner cmd : Nat)
  | copyOut (owner cmd : Nat)
  | launch (owner cmd : Nat)
  | post (owner cmd : Nat)
  | signal (owner cmd : Nat)
  | waitev (owner cmd : Nat)
  | waitevSatisfied (owner cmd : Nat)
  | waitevTimeout (owner cmd : Nat)
  | preempt (owner cmd : Nat)
  | resume (owner cmd : Nat)
  | queryStatus (owner cmd : Nat)
  | queryLife (owner cmd : Nat)
  | querySetTimeBase (owner cmd : Nat)
  | queryClearCounters (owner cmd : Nat)
  | fwloadConfigurationRecord (owner cmd : Nat)
  | fwloadTalazFirmware (owner cmd : Nat)
  | fwloadSecurityFirmware (owner cmd : Nat)
  | getVersion (via : SpdmVia)
  | getCapabilities (via : SpdmVia)
  | negotiateAlgorithms (via : SpdmVia)
  | getDigests (via : SpdmVia)
  | getCertificate (via : SpdmVia)
  | challenge (via : SpdmVia)
  | getMeasurements (via : SpdmVia)
  | spdmUnsupportedRequest (via : SpdmVia)
  -- spans and remote memory (spec/02)
  | spanOffer (env : Envelope) (owner lead : Nat) (generation : W32) (record : List Byte)
  | spanAck (env : Envelope) (launch peer : Nat) (generation : W32)
  | spanNak (env : Envelope) (launch peer : Nat) (generation : W32)
  | spanGo (env : Envelope) (owner : Nat) (generation : W32)
  | spanAbort (env : Envelope) (owner : Nat) (generation : W32)
  | spanDone (env : Envelope) (launch peer : Nat) (generation : W32) (status : PartEnd) (cause : Nat)
  | spanTimeout (launch : Nat)
  | remoteAccess (env : Envelope) (owner requester : Nat) (address : W64) (op : RemoteOp) (posted : Bool)
  | remoteAcknowledgement (env : Envelope) (request : Nat) (ok : Bool) (data : List Byte)
  -- scheduling (spec/04 to spec/09)
  | teamPlacement (launch : Nat) (cores : List Nat)
  | bell (launch : Nat)
  | gather (owner core : Nat)
  | steal (owner core : Nat)
  | holdRevert (owner queue : Nat)
  | queueCommitRoom (owner queue : Nat)
  | deadlockBreak (core : Nat)
  | claimGrant (core : Nat)
  | issueGuarantee (wave : Nat)
  | sleepExpiry (wave : Nat)
  | clauseFetch (wave split : Nat)
  | priorityPreemption (launch team : Nat)
  | preemptionTrap (wave : Nat)
  | forcedSave (team : Nat)
  | launchCompletion (launch : Nat)
  | copyCompletion (engine : Nat)
  | matrixCompletion (engine : Nat)
  | hrunCompletion (engine : Nat)
  | pubSwap (engine : Nat)
  | rqresWaitRetry (wave : Nat)
  | rqtakeWaitRetry (wave : Nat)
  | jinitPoolWait (wave : Nat)
  -- group 0, integer (R238)
  | nop (h : Head)
  | mov (h : Head) (w64 first : Bool) (d a : Operand)
  | iadd (h : Head) (t : IntTy) (d a b : Operand)
  | isub (h : Head) (t : IntTy) (d a b : Operand)
  | imul (h : Head) (t : IntTy) (d a b : Operand)
  | imulh (h : Head) (t : IntTy) (d a b : Operand)
  | imad (h : Head) (t : IntTy) (d a b c : Operand)
  | imin (h : Head) (t : IntTy) (d a b : Operand)
  | imax (h : Head) (t : IntTy) (d a b : Operand)
  | iabs (h : Head) (w64 : Bool) (d a : Operand)
  | ineg (h : Head) (w64 : Bool) (d a : Operand)
  | lea (h : Head) (sh : BitVec 3) (zx : Bool) (d a b : Operand)
  | icmp (h : Head) (t : IntTy) (cond : IntCond) (d a b : Operand)
  | isel (h : Head) (w64 : Bool) (d a b c : Operand)
  | iclamp (h : Head) (t : IntTy) (d a b c : Operand)
  | iadds (h : Head) (t : IntTy) (d a b : Operand)
  | idot4 (h : Head) (sa sb : Bool) (d a b c : Operand)
  -- group 1, logic and bits (R239)
  | land (h : Head) (w64 : Bool) (d a b : Operand)
  | lor (h : Head) (w64 : Bool) (d a b : Operand)
  | lxor (h : Head) (w64 : Bool) (d a b : Operand)
  | andn (h : Head) (w64 : Bool) (d a b : Operand)
  | lnot (h : Head) (w64 : Bool) (d a : Operand)
  | shl (h : Head) (w64 : Bool) (d a b : Operand)
  | shr (h : Head) (w64 : Bool) (d a b : Operand)
  | sar (h : Head) (w64 : Bool) (d a b : Operand)
  | rol (h : Head) (w64 : Bool) (d a b : Operand)
  | bfx (h : Head) (w64 sx : Bool) (d a c : Operand)
  | bfi (h : Head) (w64 : Bool) (d a b c : Operand)
  | popc (h : Head) (w64 : Bool) (d a : Operand)
  | clz (h : Head) (w64 : Bool) (d a : Operand)
  | ctz (h : Head) (w64 : Bool) (d a : Operand)
  | brev (h : Head) (w64 : Bool) (d a : Operand)
  | prmb (h : Head) (w64 : Bool) (d a b c : Operand)
  -- group 2, float (R240)
  | fadd (h : Head) (t : FloatTy) (rm : Rounding) (d a b : Operand)
  | fsub (h : Head) (t : FloatTy) (rm : Rounding) (d a b : Operand)
  | fmul (h : Head) (t : FloatTy) (rm : Rounding) (d a b : Operand)
  | ffma (h : Head) (t : FloatTy) (rm : Rounding) (d a b c : Operand)
  | fmin (h : Head) (t : FloatTy) (d a b : Operand)
  | fmax (h : Head) (t : FloatTy) (d a b : Operand)
  | fabs (h : Head) (t : FloatTy) (d a : Operand)
  | fneg (h : Head) (t : FloatTy) (d a : Operand)
  | fcmp (h : Head) (t : FloatTy) (cond : FloatCond) (d a b : Operand)
  | frcp (h : Head) (f64 : Bool) (d a : Operand)
  | frsq (h : Head) (f64 : Bool) (d a : Operand)
  | fsqrt (h : Head) (f64 : Bool) (d a : Operand)
  | fexp2 (h : Head) (d a : Operand)
  | flog2 (h : Head) (d a : Operand)
  | fsinp (h : Head) (d a : Operand)
  | fcosp (h : Head) (d a : Operand)
  | fclass (h : Head) (t : FloatTy) (d a : Operand)
  | frcpv (h : Head) (f64 : Bool) (d a b c : Operand)
  | fsmx (h : Head) (d a b : Operand)
  | fscale (h : Head) (t : FloatTy) (d a b : Operand)
  -- group 3, conversion (R241)
  | cvtif (h : Head) (it : IntTy) (ft : FloatTy) (rm : Rounding) (d a : Operand)
  | cvtfi (h : Head) (it : IntTy) (ft : FloatTy) (rm : Rounding) (d a : Operand)
  | cvtff (h : Head) (dst src : FloatTy) (rm : Rounding) (d a : Operand)
  | frnd (h : Head) (t : FloatTy) (rm : Rounding) (d a : Operand)
  | packq (h : Head) (e5m2 : Bool) (d a b c : Operand)
  | unpkq (h : Head) (e5m2 : Bool) (d a b : Operand)
  | bpext (h : Head) (d a b : Operand)
  | bpins (h : Head) (d a b c : Operand)
  -- group 4, lanes, predicates and chains (R242)
  | shfl (h : Head) (mode : ShuffleMode) (w64 : Bool) (d a b : Operand)
  | voteQuorum (h : Head) (d a b : Operand)
  | voteCount (h : Head) (d a : Operand)
  | voteMask (h : Head) (d a : Operand)
  | voteSame (h : Head) (w64 : Bool) (d a : Operand)
  | matchLanes (h : Head) (w64 : Bool) (d a : Operand)
  | plop (h : Head) (op1 op2 : PredOp) (neg : Bool) (d a b c : Operand)
  | pmov (h : Head) (fromPred : Bool) (d a : Operand)
  | chseed (h : Head) (slot : BitVec 2) (a : Operand)
  | chlink (h : Head) (slot : BitVec 2) (ring : Bool) (a : Operand)
  | chout (h : Head) (slot : BitVec 2) (d : Operand)
  | elect (h : Head) (d : Operand)
  -- group 5, control (R243)
  | bra (h : Head) (off : BitVec 20)
  | brd (h : Head) (off : BitVec 20) (a : Operand)
  | join (h : Head)
  | brx (h : Head) (a : Operand)
  | call (h : Head) (off : BitVec 20) (d : Operand)
  | ret (h : Head) (a : Operand)
  | exit (h : Head)
  | yield (h : Head)
  | sleep (h : Head) (a : Operand)
  | trap (h : Head) (a : Operand)
  | bkpt (h : Head)
  | dbnz (h : Head) (off : BitVec 20) (d : Operand)
  | waitt (h : Head) (a : Operand)
  -- group 6, memory (R244)
  | ld (h : Head) (sp : Space) (sz : Size) (sx : Bool) (d a c : Operand)
  | st (h : Head) (sp : Space) (sz : Size) (a b c : Operand)
  | stp (h : Head) (sz : Size) (a b c : Operand)
  | ldf (h : Head) (op : FoldOp) (ty : FoldTy) (d a c : Operand)
  | atom (h : Head) (op : AtomOp) (scope : Scope) (d a b c : Operand)
  | atomc (h : Head) (w64 : Bool) (scope : Scope) (d a b c : Operand)
  | red (h : Head) (op : AtomOp) (scope : Scope) (a b c : Operand)
  | pref (h : Head) (l1 : Bool) (a c : Operand)
  | fenceR (h : Head)
  | fenceH (h : Head)
  | fenceE (h : Head)
  | fdef (h : Head) (a b c : Operand)
  | ldu (h : Head) (sp : Space) (sz : Size) (sx : Bool) (d a c : Operand)
  | stu (h : Head) (sp : Space) (sz : Size) (a b c : Operand)
  -- group 7, barriers and rings (R245)
  | bari (h : Head) (wave : Bool) (a b c : Operand)
  | barv (h : Head) (peer : Bool) (d a : Operand)
  | barw (h : Head) (a b : Operand)
  | bara (h : Head) (peer : Bool) (a b : Operand)
  | bart (h : Head) (d a b : Operand)
  | barx (h : Head) (a b : Operand)
  | rqres (h : Head) (wait : Bool) (d a b c : Operand)
  | rqcmt (h : Head) (a : Operand)
  | rqtake (h : Head) (wait : Bool) (d a : Operand)
  | rqrel (h : Head) (a : Operand)
  | rend (h : Head)
  -- group 8, copy (R246)
  | cpin (h : Head) (tok : BitVec 3) (ch : BitVec 2) (a b c : Operand)
  | cpout (h : Head) (tok : BitVec 3) (ch : BitVec 2) (d a b c : Operand)
  | cppeer (h : Head) (tok : BitVec 3) (ch : BitVec 2) (d a b c : Operand)
  | cpgath (h : Head) (tok : BitVec 3) (ch : BitVec 2) (d a b c : Operand)
  | cpsh (h : Head) (tok : BitVec 3) (ch : BitVec 2) (a b c : Operand)
  | pub (h : Head) (tok : BitVec 3) (a : Operand)
  | cpwp (h : Head) (ch : BitVec 2) (d : Operand)
  | cpcan (h : Head) (ch : BitVec 2)
  -- group 9, matrix and accumulators (R247)
  | mma (h : Head) (ty : MmaTy) (accum : Bool) (d a b c : Operand)
  | mmax (h : Head) (fa fb accum : Bool) (d a b c : Operand)
  | mmap (h : Head) (planes : BitVec 3) (accum centre bsigned : Bool) (d a b : Operand)
  | accz (h : Head) (pair : Bool) (d : Operand)
  | accrd (h : Head) (pair : Bool) (d a b : Operand)
  | accwr (h : Head) (pair : Bool) (d a b : Operand)
  | accst (h : Head) (fmt : AccFmt) (d a b c : Operand)
  | accld (h : Head) (fmt : AccFmt) (d a : Operand)
  -- group A, hurdle (R248)
  | hcfg (h : Head) (a : Operand)
  | hld (h : Head) (a b c : Operand)
  | hrun (h : Head) (tok : BitVec 3) (a b c : Operand)
  | hgath (h : Head) (d a b : Operand)
  | hexit (h : Head) (d a b : Operand)
  | hclr (h : Head) (a b : Operand)
  -- group B, tasks and resources (R249)
  | postInstruction (h : Head) (target : PostTarget) (d a c : Operand)
  | spawn (h : Head) (target : PostTarget) (d a c : Operand)
  | tend (h : Head) (a : Operand)
  | jinit (h : Head) (a b c : Operand)
  | launchInstruction (h : Head) (d a : Operand)
  | claim (h : Head) (wait tiles : Bool) (d a : Operand)
  | give (h : Head) (tiles : Bool) (a : Operand)
  | dpush (h : Head) (q : BitVec 2) (a : Operand)
  | dclose (h : Head) (q : BitVec 2)
  -- group C, system (R250)
  | srd (h : Head) (d a : Operand)
  | swr (h : Head) (a b : Operand)
  | rtu (h : Head) (mode : ResumeMode)
  | pack (h : Head) (a b : Operand)
  | stksv (h : Head) (split : BitVec 2) (a : Operand)
  | stkld (h : Head) (split : BitVec 2) (a : Operand)
  | rts (h : Head)
  | tlbinv (h : Head) (a b : Operand)
  -- the debugger (spec/20 to spec/24)
  | ivgilBreak (owner : Nat) (clause : W64)
  | ivgilRun (owner : Nat)
  | ivgilStep (wave : Nat)
  | ivgilTiming (wave : Nat)
  | ivgilPrint (what : PrintWhat)
  | ivgilLanes (wave : Nat)
  | ivgilChain (wave slot : Nat)
  | ivgilTokens (wave : Nat)
  | ivgilBarrier (team bar : Nat)
  | ivgilCatch (owner cause : Nat)
  | ivgilTrap (wave : Nat)
  | ivgilPrintPool (owner : Nat)
  -- three more device events (R93, R34, R13)
  | coreResetOrPowerGating (core : Nat)
  | transportRetryLimitExhausted (request : Nat)
  | powerLimitWithholding (withhold : Bool)
  deriving DecidableEq, Repr

end Sys2Proof
end

