-- ==== Sys2Proof/Machine/Roles.lean ====
section
/-!
DEFINITION. Which operand may stand in which role (R103, R104, R230, R231 and the role columns of R238–R250),
the registers an operand names (R100, R234), and the classes of instructions the rules speak of (R112, R225, R235).
-/
namespace Sys2Proof

/-- What an operand field is to its instruction. The number is how many 32-bit registers a V or O operand
covers: 1, 2 or 4 (R100). -/
inductive Role where
  | dst (n : Nat)        -- destination of groups 0 and 1: V, O or S
  | dstVO (n : Nat)      -- destination V or O
  | dstVOS (n : Nat)     -- destination V or O, or S written once
  | dstSV                -- SRD's destination: S or V
  | dstS                 -- destination S
  | dstP                 -- predicate destination
  | dstP06               -- predicate destination P0–P6
  | dstP06Zero           -- P0–P6, or ZERO for none
  | link                 -- CALL's link: S, or ZERO in a drover
  | counter              -- DBNZ's counter: S, read and written
  | src (n : Nat)        -- any per-lane or uniform source
  | uni                  -- uniform source (R104)
  | uniCopy              -- uniform source of a copy (R246)
  | copyOrQueue          -- CPGATH's index source
  | sOrZero
  | sOnly
  | sEven
  | voSrc (n : Nat)      -- V or O source
  | joinSrc              -- TEND's address: a V or O pair, S or LIT (R360)
  | predSrc
  | litOnly
  | zeroOnly
  | tile
  | tilePair
  deriving DecidableEq, Repr

/-- The role is written, not read. DBNZ's counter is both. -/
def Role.isDest : Role → Bool
  | .dst _ | .dstVO _ | .dstVOS _ | .dstSV | .dstS | .dstP | .dstP06 | .dstP06Zero | .link | .counter => true
  | _ => false

/-- A special register with one value per lane (R102): %lane, %widlo, %widhi, %fabs. -/
def specialPerLane (n : BitVec 5) : Bool := n == 0 || n == 7 || n == 8 || n == 22

/-- A special register of 64 bits (R102): %team, %wp, %chout, %round, %clk, %utvec, %traparea. -/
def special64 (n : BitVec 5) : Bool :=
  n == 2 || (12 ≤ n.toNat && n.toNat ≤ 19) || n == 23 || n == 25 || n == 26 || n == 27

/-- The uniform sources (R104). -/
def Operand.uniform : Operand → Bool
  | .s _ | .q _ | .zero | .lit _ | .imm _ => true
  | .special n => !(specialPerLane n) && n.toNat < 28
  | _ => false

/-- A V or O operand that covers `n` registers names a register aligned to `n` (R100). -/
def Operand.aligned (n : Nat) : Operand → Bool
  | .v r => r.toNat % n == 0
  | .o r => r.toNat % n == 0 && decide (r.toNat + n ≤ 8)
  | _ => true

/-- The operand may stand in the role (R103, R230). -/
def Role.allows (r : Role) (x : Operand) : Bool :=
  match r, x with
  | .dst n, .v _ | .dst n, .o _ | .dstVO n, .v _ | .dstVO n, .o _ | .dstVOS n, .v _ | .dstVOS n, .o _ => x.aligned n
  | .dst _, .s _ | .dstVOS _, .s _ | .dstS, .s _ | .link, .s _ | .link, .zero | .counter, .s _ => true
  | .dstSV, .s _ | .dstSV, .v _ => true
  | .dstP, .p _ => true
  | .dstP06, .p n => n != 7
  | .dstP06Zero, .p n => n != 7
  | .dstP06Zero, .zero => true
  | .src n, .v _ | .src n, .o _ => x.aligned n
  | .src n, .l | .src n, .prev _ | .src n, .s _ | .src n, .q _ | .src n, .zero | .src n, .lit _ | .src n, .imm _ =>
    decide (n ≤ 2)
  | .src n, .special k => decide (n ≤ 2) && k.toNat < 28
  | .uni, y => y.uniform
  | .uniCopy, .s _ | .uniCopy, .zero | .uniCopy, .lit _ | .uniCopy, .imm _ => true
  | .copyOrQueue, .s _ | .copyOrQueue, .zero | .copyOrQueue, .lit _ | .copyOrQueue, .imm _
  | .copyOrQueue, .q _ => true
  | .sOrZero, .s _ | .sOrZero, .zero | .sOnly, .s _ => true
  | .sEven, .s n => n.toNat % 2 == 0
  | .voSrc n, .v _ | .voSrc n, .o _ => x.aligned n
  | .joinSrc, .v _ | .joinSrc, .o _ => x.aligned 2
  | .joinSrc, .s _ | .joinSrc, .lit _ => true
  | .predSrc, .p _ => true
  | .litOnly, .lit _ => true
  | .zeroOnly, .zero => true
  | .tile, .acc _ => true
  | .tilePair, .acc n => n.toNat % 2 == 0
  | _, _ => false

/-- How many registers a value of an integer type covers (R236). -/
def IntTy.regs : IntTy → Nat
  | .s32 | .u32 => 1
  | .s64 | .u64 => 2

/-- How many registers a value of a float type covers (R231, R236). -/
def FloatTy.regs : FloatTy → Nat
  | .f64 => 2
  | _ => 1

/-- Registers of a 32-bit or a 64-bit operand. -/
def regsOf (w64 : Bool) : Nat := if w64 then 2 else 1

/-- Registers of an operand of an access size (R303, R304). -/
def Size.regs : Size → Nat
  | .b64 => 2
  | .b128 => 4
  | _ => 1

/-- Bytes of an access size. -/
def Size.bytes : Size → Nat
  | .b8 => 1
  | .b16 => 2
  | .b32 => 4
  | .b64 => 8
  | .b128 => 16

/-- The width of an atomic operation is 64 bits (R306). -/
def AtomOp.wide : AtomOp → Bool
  | .addU64 | .exchB64 | .faddF64 => true
  | _ => false

/-- Bytes of an LDF element (R311). -/
def FoldTy.bytes : FoldTy → Nat
  | .f16 | .bf16 => 2
  | .s32 | .u32 | .f32 => 4
  | .f64 | .s64 => 8

/-- Registers of an address in a space (R244). -/
def Space.addrRegs : Space → Nat
  | .global => 2
  | _ => 1

/-- Registers of an atomic's address: a scratchpad offset at team scope, a global address otherwise (R307). -/
def Scope.addrRegs : Scope → Nat
  | .team => 1
  | _ => 2

/-- The role of POST's and SPAWN's C field (R356). -/
def PostTarget.role : PostTarget → Role
  | .core => .uni
  | _ => .zeroOnly

/-- The store data role: a quad for b128, else any source (R304). -/
def Size.dataRole : Size → Role
  | .b128 => .voSrc 4
  | s => .src s.regs

/-- The pair or single tile role. -/
def tileRole (pair : Bool) : Role := if pair then .tilePair else .tile

/-- ACCST's scale and sidecar roles (R344). -/
def AccFmt.scaleRole : AccFmt → Role
  | .e4m3 | .e5m2 => .sOnly
  | _ => .zeroOnly

/-- The operands of an instruction word with their roles, in the order D, A, B, C (R238–R250). Steps that are
no instruction words have none. -/
def Instr.operands : Instr → List (Role × Operand)
  | .mov _ w64 first d a => [(if first then .dstS else .dst (regsOf w64), d), (.src (regsOf w64), a)]
  | .iadd _ t d a b | .isub _ t d a b | .imul _ t d a b | .imulh _ t d a b | .imin _ t d a b | .imax _ t d a b
  | .iadds _ t d a b => [(.dst t.regs, d), (.src t.regs, a), (.src t.regs, b)]
  | .imad _ t d a b c | .iclamp _ t d a b c =>
    [(.dst t.regs, d), (.src t.regs, a), (.src t.regs, b), (.src t.regs, c)]
  | .iabs _ w64 d a | .ineg _ w64 d a | .lnot _ w64 d a | .brev _ w64 d a =>
    [(.dst (regsOf w64), d), (.src (regsOf w64), a)]
  | .lea _ _ _ d a b => [(.dst 2, d), (.src 2, a), (.src 1, b)]
  | .icmp _ t _ d a b => [(.dstP, d), (.src t.regs, a), (.src t.regs, b)]
  | .isel _ w64 d a b c => [(.dst (regsOf w64), d), (.src (regsOf w64), a), (.src (regsOf w64), b), (.predSrc, c)]
  | .idot4 _ _ _ d a b c => [(.dst 1, d), (.src 1, a), (.src 1, b), (.src 1, c)]
  | .land _ w64 d a b | .lor _ w64 d a b | .lxor _ w64 d a b | .andn _ w64 d a b =>
    [(.dst (regsOf w64), d), (.src (regsOf w64), a), (.src (regsOf w64), b)]
  | .shl _ w64 d a b | .shr _ w64 d a b | .sar _ w64 d a b | .rol _ w64 d a b =>
    [(.dst (regsOf w64), d), (.src (regsOf w64), a), (.src 1, b)]
  | .bfx _ w64 _ d a c => [(.dst (regsOf w64), d), (.src (regsOf w64), a), (.src 1, c)]
  | .bfi _ w64 d a b c | .prmb _ w64 d a b c =>
    [(.dst (regsOf w64), d), (.src (regsOf w64), a), (.src (regsOf w64), b), (.src 1, c)]
  | .popc _ w64 d a | .clz _ w64 d a | .ctz _ w64 d a => [(.dst 1, d), (.src (regsOf w64), a)]
  | .fadd _ t _ d a b | .fsub _ t _ d a b | .fmul _ t _ d a b | .fmin _ t d a b | .fmax _ t d a b =>
    [(.dstVO t.regs, d), (.src t.regs, a), (.src t.regs, b)]
  | .ffma _ t _ d a b c => [(.dstVO t.regs, d), (.src t.regs, a), (.src t.regs, b), (.src t.regs, c)]
  | .fabs _ t d a | .fneg _ t d a | .frnd _ t _ d a => [(.dstVO t.regs, d), (.src t.regs, a)]
  | .fcmp _ t _ d a b => [(.dstP, d), (.src t.regs, a), (.src t.regs, b)]
  | .frcp _ f64 d a | .frsq _ f64 d a | .fsqrt _ f64 d a => [(.dstVO (regsOf f64), d), (.src (regsOf f64), a)]
  | .fexp2 _ d a | .flog2 _ d a | .fsinp _ d a | .fcosp _ d a => [(.dstVO 1, d), (.src 1, a)]
  | .fclass _ t d a => [(.dstVO 1, d), (.src t.regs, a)]
  | .frcpv _ f64 d a b c => [(.dstVO (regsOf f64), d), (.src (regsOf f64), a), (.sOnly, b), (.dstP06, c)]
  | .fsmx _ d a b => [(.dstVO 2, d), (.src 2, a), (.src 1, b)]
  | .fscale _ t d a b => [(.dstVO t.regs, d), (.src t.regs, a), (.src 1, b)]
  | .cvtif _ it ft _ d a => [(.dstVO ft.regs, d), (.src it.regs, a)]
  | .cvtfi _ it ft _ d a => [(.dstVO it.regs, d), (.src ft.regs, a)]
  | .cvtff _ dty sty _ d a => [(.dstVO dty.regs, d), (.src sty.regs, a)]
  | .packq _ _ d a b c => [(.dstVO 1, d), (.src 1, a), (.src 1, b), (.src 1, c)]
  | .unpkq _ _ d a b | .bpext _ d a b => [(.dstVO 1, d), (.src 1, a), (.src 1, b)]
  | .bpins _ d a b c => [(.dstVO 1, d), (.src 1, a), (.src 1, b), (.src 1, c)]
  | .shfl _ _ w64 d a b => [(.dstVO (regsOf w64), d), (.src (regsOf w64), a), (.src 1, b)]
  | .voteQuorum _ d a b => [(.dstP, d), (.predSrc, a), (.uni, b)]
  | .voteCount _ d a | .voteMask _ d a => [(.dstVOS 1, d), (.predSrc, a)]
  | .voteSame _ w64 d a => [(.dstP, d), (.voSrc (regsOf w64), a)]
  | .matchLanes _ w64 d a => [(.dstVO 1, d), (.src (regsOf w64), a)]
  | .plop _ _ _ _ d a b c => [(.dstP, d), (.predSrc, a), (.predSrc, b), (.predSrc, c)]
  | .pmov _ fromP d a => if fromP then [(.dstVO 1, d), (.predSrc, a)] else [(.dstP, d), (.src 1, a)]
  | .chseed _ _ a => [(.uni, a)]
  | .chlink _ _ ring a => [(if ring then .zeroOnly else .uni, a)]
  | .chout _ _ d => [(.dstVOS 2, d)]
  | .elect _ d => [(.dstP, d)]
  | .brd _ _ a => [(.litOnly, a)]
  | .brx _ a | .ret _ a | .sleep _ a | .trap _ a | .waitt _ a => [(.uni, a)]
  | .call _ _ d => [(.link, d)]
  | .dbnz _ _ d => [(.counter, d)]
  | .ld _ sp sz _ d a c => [(.dstVO sz.regs, d), (.src sp.addrRegs, a), (.src 1, c)]
  | .st _ sp sz a b c => [(.src sp.addrRegs, a), (sz.dataRole, b), (.src 1, c)]
  | .stp _ sz a b c => [(.src 2, a), (sz.dataRole, b), (.src 1, c)]
  | .ldf _ _ ty d a c => [(.dstVO (regsOf (ty.bytes == 8)), d), (.src 1, a), (.dstP06Zero, c)]
  | .atom _ op sc d a b c =>
    [(.dstVO (regsOf op.wide), d), (.src sc.addrRegs, a), (.src (regsOf op.wide), b), (.src 1, c)]
  | .atomc _ w64 sc d a b c =>
    [(.dstVO (regsOf w64), d), (.src sc.addrRegs, a), (.src (regsOf w64), b), (.src (regsOf w64), c)]
  | .red _ op sc a b c => [(.src sc.addrRegs, a), (.src (regsOf op.wide), b), (.src 1, c)]
  | .pref _ _ a c => [(.src 2, a), (.src 1, c)]
  | .fdef _ a b c => [(.uni, a), (.uni, b), (.uni, c)]
  | .ldu _ _ _ _ d a c => [(.dstS, d), (.uni, a), (.uni, c)]
  | .stu _ _ _ a b c => [(.uni, a), (.uni, b), (.uni, c)]
  | .bari _ _ a b c => [(.uni, a), (.uni, b), (.uni, c)]
  | .barv _ _ d a => [(.dstP, d), (.uni, a)]
  | .barw _ a b => [(.uni, a), (.predSrc, b)]
  | .bara _ _ a b | .barx _ a b => [(.uni, a), (.uni, b)]
  | .bart _ d a b => [(.dstP, d), (.uni, a), (.predSrc, b)]
  | .rqres _ _ d a b c => [(.dstS, d), (.uni, a), (.uni, b), (.uni, c)]
  | .rqcmt _ a | .rqrel _ a => [(.uni, a)]
  | .rqtake _ _ d a => [(.dstS, d), (.uni, a)]
  | .cpin _ _ _ a b c | .cpsh _ _ _ a b c => [(.uniCopy, a), (.uniCopy, b), (.uniCopy, c)]
  | .cpout _ _ _ d a b c => [(.sOrZero, d), (.uniCopy, a), (.uniCopy, b), (.uniCopy, c)]
  | .cppeer _ _ _ d a b c => [(.uniCopy, d), (.uniCopy, a), (.uniCopy, b), (.uniCopy, c)]
  | .cpgath _ _ _ d a b c => [(.copyOrQueue, d), (.uniCopy, a), (.uniCopy, b), (.uniCopy, c)]
  | .pub _ _ a => [(.uniCopy, a)]
  | .cpwp _ _ d => [(.dstVOS 2, d)]
  | .mma _ ty _ d a b c =>
    [(tileRole (ty == .f64), d), (.sOnly, a), (.sOnly, b),
     (match ty with | .f64 | .f32 => .zeroOnly | _ => .sOnly, c)]
  | .mmax _ _ _ _ d a b c => [(.tile, d), (.sOnly, a), (.sOnly, b), (.sEven, c)]
  | .mmap _ _ _ _ _ d a b => [(.tile, d), (.sOnly, a), (.sOnly, b)]
  | .accz _ pair d => [(tileRole pair, d)]
  | .accrd _ pair d a b => [(.dstVO (regsOf pair), d), (tileRole pair, a), (.uni, b)]
  | .accwr _ pair d a b => [(tileRole pair, d), (.src (regsOf pair), a), (.uni, b)]
  | .accst _ fmt d a b c => [(fmt.scaleRole, d), (tileRole (fmt == .f64), a), (.uni, b), (fmt.scaleRole, c)]
  | .accld _ fmt d a => [(tileRole (fmt == .f64), d), (.uni, a)]
  | .hcfg _ a => [(.sOnly, a)]
  | .hld _ a b c | .hrun _ _ a b c => [(.uni, a), (.uni, b), (.uni, c)]
  | .hgath _ d a b | .hexit _ d a b => [(.dstVO 1, d), (.uni, a), (.uni, b)]
  | .hclr _ a b => [(.uni, a), (.uni, b)]
  | .postInstruction _ tg d a c => [(.dstP, d), (.uni, a), (tg.role, c)]
  | .spawn _ tg d a c => [(.dstP, d), (.voSrc 2, a), (tg.role, c)]
  | .tend _ a => [(.joinSrc, a)]
  | .jinit _ a b c => [(.uni, a), (.uni, b), (.uni, c)]
  | .launchInstruction _ d a => [(.dstP, d), (.uni, a)]
  | .claim _ _ _ d a => [(.dstP, d), (.uni, a)]
  | .give _ _ a | .dpush _ _ a => [(.uni, a)]
  | .srd _ d a => [(.dstSV, d), (.uni, a)]
  | .swr _ a b | .pack _ a b | .tlbinv _ a b => [(.uni, a), (.uni, b)]
  | .stksv _ _ a | .stkld _ _ a => [(.uni, a)]
  | _ => []

/-- The group of an instruction word (R225); none for a step that is no instruction word. -/
def Instr.group : Instr → Option Nat
  | .nop .. | .mov .. | .iadd .. | .isub .. | .imul .. | .imulh .. | .imad .. | .imin .. | .imax .. | .iabs ..
  | .ineg .. | .lea .. | .icmp .. | .isel .. | .iclamp .. | .iadds .. | .idot4 .. => some 0
  | .land .. | .lor .. | .lxor .. | .andn .. | .lnot .. | .shl .. | .shr .. | .sar .. | .rol .. | .bfx .. | .bfi ..
  | .popc .. | .clz .. | .ctz .. | .brev .. | .prmb .. => some 1
  | .fadd .. | .fsub .. | .fmul .. | .ffma .. | .fmin .. | .fmax .. | .fabs .. | .fneg .. | .fcmp .. | .frcp ..
  | .frsq .. | .fsqrt .. | .fexp2 .. | .flog2 .. | .fsinp .. | .fcosp .. | .fclass .. | .frcpv .. | .fsmx ..
  | .fscale .. => some 2
  | .cvtif .. | .cvtfi .. | .cvtff .. | .frnd .. | .packq .. | .unpkq .. | .bpext .. | .bpins .. => some 3
  | .shfl .. | .voteQuorum .. | .voteCount .. | .voteMask .. | .voteSame .. | .matchLanes .. | .plop .. | .pmov ..
  | .chseed .. | .chlink .. | .chout .. | .elect .. => some 4
  | .bra .. | .brd .. | .join .. | .brx .. | .call .. | .ret .. | .exit .. | .yield .. | .sleep .. | .trap ..
  | .bkpt .. | .dbnz .. | .waitt .. => some 5
  | .ld .. | .st .. | .stp .. | .ldf .. | .atom .. | .atomc .. | .red .. | .pref .. | .fenceR .. | .fenceH ..
  | .fenceE .. | .fdef .. | .ldu .. | .stu .. => some 6
  | .bari .. | .barv .. | .barw .. | .bara .. | .bart .. | .barx .. | .rqres .. | .rqcmt .. | .rqtake ..
  | .rqrel .. | .rend .. => some 7
  | .cpin .. | .cpout .. | .cppeer .. | .cpgath .. | .cpsh .. | .pub .. | .cpwp .. | .cpcan .. => some 8
  | .mma .. | .mmax .. | .mmap .. | .accz .. | .accrd .. | .accwr .. | .accst .. | .accld .. => some 9
  | .hcfg .. | .hld .. | .hrun .. | .hgath .. | .hexit .. | .hclr .. => some 10
  | .postInstruction .. | .spawn .. | .tend .. | .jinit .. | .launchInstruction .. | .claim .. | .give ..
  | .dpush .. | .dclose .. => some 11
  | .srd .. | .swr .. | .rtu .. | .pack .. | .stksv .. | .stkld .. | .rts .. | .tlbinv .. => some 12
  | _ => none

/-- The operand names a drover queue. -/
def Operand.isQueue : Operand → Bool
  | .q _ => true
  | _ => false

/-- The queues among some operands, each once (R113). -/
def queuesIn (xs : List (Role × Operand)) : List Nat :=
  xs.foldl (fun acc x => match x.2 with
    | .q n => if acc.contains n.toNat then acc else acc ++ [n.toNat]
    | _ => acc) []

/-- The queues an instruction names (R113, R116). -/
def Instr.queueNames (i : Instr) : List Nat := queuesIn i.operands

/-- The queues an instruction pops when it executes; a gather's engine pops its index queue row by row (R113, R329). -/
def Instr.queues (i : Instr) : List Nat := queuesIn (i.operands.filter fun x => x.1 != .copyOrQueue)

/-- The long-latency class (R235). -/
def Instr.longLatency (i : Instr) : Bool :=
  match i with
  | .ld .. | .ldu .. | .atom .. | .atomc .. | .ldf .. | .accrd .. | .hgath .. | .hexit .. | .frcp .. | .frsq ..
  | .fsqrt .. | .fexp2 .. | .flog2 .. | .fsinp .. | .fcosp .. | .frcpv .. | .fsmx .. | .idot4 .. => true
  | _ => !i.queueNames.isEmpty

/-- The destination operand, where the instruction has one. -/
def Instr.dest (i : Instr) : Option Operand :=
  match i.operands with
  | (r, x) :: _ => if r.isDest then some x else none
  | [] => none

/-- The sources whose values can make an instruction an illegal operand when it reads them (R211, R217). -/
def Instr.judged : Instr → List Operand
  | .frcpv _ _ _ _ b _ => [b]
  | .swr _ a _ => [a]
  | .accwr _ _ _ _ b => [b]
  | i => (i.operands.filter fun x => !x.1.isDest).map (·.2)

/-- No popped value is among those that can make the instruction an illegal operand. -/
def Instr.judgedUnpopped (i : Instr) : Bool := i.judged.all fun x => match x with
  | .q _ => false
  | _ => true

/-- Values a popped operand may take that decide for all values whether an instruction of `judgedByTrial` is illegal: its small
numbers and the largest. -/
def trialValues : List W64 := (List.range 1024).map (BitVec.ofNat 64) ++ [BitVec.allOnes 64]

/-- Some value that is not popped yet is judged, and where it has a legal value `trialValues` holds one: names and counts of
barriers, rings, votes, links and budgets, register numbers, and a branch whose guard alone is judged (log entry 149). -/
def Instr.judgedByTrial : Instr → Bool
  | .bari .. | .barv .. | .barw .. | .bara .. | .bart .. | .barx .. | .rqres .. | .rqcmt .. | .rqtake .. | .rqrel .. | .claim .. | .give ..
  | .chlink .. | .voteQuorum .. | .srd .. | .waitt .. | .brx .. | .pack .. | .postInstruction .. | .spawn .. => true
  | _ => false

/-- The values under which an instruction whose pops are not there yet is judged, by queue: none where they would not decide. -/
def Instr.trials (i : Instr) : List (List (Nat × W64)) :=
  if i.judgedUnpopped then [[]]
  else if !i.judgedByTrial then []
  else match i.queues, i with
    | [q], _ => trialValues.map fun v => [(q, v)]
    | qs, .bari .. | qs, .rqres .. => qs.foldl (fun acc q => acc.flatMap fun l => [0, 1, 8].map fun v => l ++ [(q, v)]) [[]]
    | _, _ => []

/-- The instruction ends its round after it (R183). -/
def Instr.endsRound : Instr → Bool
  | .atom .. | .atomc .. | .red .. | .fenceR .. | .fenceH .. | .fenceE .. | .rend .. | .claim .. | .give .. | .barv .. | .rqres ..
  | .rqcmt .. | .rqtake .. | .rqrel .. | .postInstruction .. | .spawn .. | .tend .. | .jinit .. | .launchInstruction .. => true
  | _ => false

/-- The chain slots an instruction names, one for each prev operand (R122). -/
def Instr.prevs (i : Instr) : List (BitVec 2) :=
  i.operands.filterMap (fun x => match x.2 with | .prev s => some s | _ => none)

/-- The chain slot of a chained instruction (R122). -/
def Instr.chainSlot (i : Instr) : Option (BitVec 2) := i.prevs.head?

/-- A prev operand stands only in an instruction of groups 0–3 with a V destination, once (R122). -/
def Instr.prevOk (i : Instr) : Bool :=
  match i.prevs, i.dest, i.group with
  | [], _, _ => true
  | [_], some (.v _), some g => decide (g ≤ 3)
  | _, _, _ => false

/-- The instruction is a scalar instruction: group 0 or 1 with an S destination (R104). -/
def Instr.scalar (i : Instr) : Bool :=
  match i.group, i.dest with
  | some 0, some (.s _) | some 1, some (.s _) => true
  | _, _ => false

/-- The sources of a scalar instruction are uniform, but for MOV.first; ISEL's predicate is P7 (R104, R266). -/
def Instr.scalarOk (i : Instr) : Bool :=
  if i.scalar then
    match i with
    | .mov _ _ true _ _ => true
    | _ => i.operands.all fun x => x.1.isDest || x.2.uniform || (x.1 == .predSrc && x.2 == .p 7)
  else true

/-- The instruction executes in the lowest active lane alone: a scalar one, MOV.first and DBNZ (R104, R263, R283). -/
def Instr.firstOnly (i : Instr) : Bool := i.scalar || (match i with
  | .mov _ _ first _ _ => first
  | .dbnz .. => true
  | _ => false)

/-- At most two LIT operands stand in one instruction (R232). -/
def Instr.litOk (i : Instr) : Bool :=
  decide ((i.operands.filter (fun x => match x.2 with | .lit _ => true | _ => false)).length ≤ 2)

/-- The operand with register 0 of its file, whose place in a pair, quad or tile pair is right. -/
def Operand.base : Operand → Operand
  | .v _ => .v 0
  | .o _ => .o 0
  | .s _ => .s 0
  | .acc _ => .acc 0
  | x => x

/-- No operand names a level or index that R103 or its role forbids, whatever its place in a pair or quad (R217). -/
def Instr.levelsOk (i : Instr) : Bool :=
  i.operands.all (fun x => x.1.allows x.2.base) && i.prevOk && i.scalarOk && i.litOk

/-- Every operand may stand where it does: no illegal operand is found when the word is decoded (R237). -/
def Instr.rolesOk (i : Instr) : Bool :=
  i.operands.all (fun x => x.1.allows x.2) && i.prevOk && i.scalarOk && i.litOk

/-- The instructions a drover may execute (R112). -/
def Instr.droverOk : Instr → Bool
  | .ldu .. | .stu .. | .bra .. | .dbnz .. | .call .. | .ret .. | .exit .. | .cpin .. | .cpout .. | .cppeer ..
  | .cpgath .. | .cpsh .. | .pub .. | .cpwp .. | .cpcan .. | .barv .. | .dpush .. | .dclose .. => true
  | i => i.group == some 0 || i.group == some 1

/-- The operand levels a drover instruction may name (R112). -/
def Operand.droverOk : Operand → Bool
  | .s _ | .p _ | .zero | .lit _ | .imm _ => true
  | _ => false

/-- The register number of SRD and SWR (R365). -/
def Instr.number : Instr → Option Operand
  | .srd _ _ a | .swr _ a _ => some a
  | _ => none

/-- Privileged instructions (R209). -/
def Instr.privileged : Instr → Bool
  | .stksv .. | .stkld .. | .rts .. | .tlbinv .. => true
  | _ => false

/-- The instruction ends its clause (R226 condition 5). -/
def Instr.endsClause : Instr → Bool
  | .bra .. | .brd .. | .brx .. | .call .. | .ret .. | .exit .. | .dbnz .. => true
  | _ => false

/-- The guard and lookahead of an instruction word. -/
def Instr.head? : Instr → Option Head
  | .nop h | .mov h .. | .iadd h .. | .isub h .. | .imul h .. | .imulh h .. | .imad h .. | .imin h .. | .imax h ..
  | .iabs h .. | .ineg h .. | .lea h .. | .icmp h .. | .isel h .. | .iclamp h .. | .iadds h .. | .idot4 h ..
  | .land h .. | .lor h .. | .lxor h .. | .andn h .. | .lnot h .. | .shl h .. | .shr h .. | .sar h .. | .rol h ..
  | .bfx h .. | .bfi h .. | .popc h .. | .clz h .. | .ctz h .. | .brev h .. | .prmb h ..
  | .fadd h .. | .fsub h .. | .fmul h .. | .ffma h .. | .fmin h .. | .fmax h .. | .fabs h .. | .fneg h ..
  | .fcmp h .. | .frcp h .. | .frsq h .. | .fsqrt h .. | .fexp2 h .. | .flog2 h .. | .fsinp h .. | .fcosp h ..
  | .fclass h .. | .frcpv h .. | .fsmx h .. | .fscale h ..
  | .cvtif h .. | .cvtfi h .. | .cvtff h .. | .frnd h .. | .packq h .. | .unpkq h .. | .bpext h .. | .bpins h ..
  | .shfl h .. | .voteQuorum h .. | .voteCount h .. | .voteMask h .. | .voteSame h .. | .matchLanes h ..
  | .plop h .. | .pmov h .. | .chseed h .. | .chlink h .. | .chout h .. | .elect h ..
  | .bra h .. | .brd h .. | .join h | .brx h .. | .call h .. | .ret h .. | .exit h | .yield h | .sleep h ..
  | .trap h .. | .bkpt h | .dbnz h .. | .waitt h ..
  | .ld h .. | .st h .. | .stp h .. | .ldf h .. | .atom h .. | .atomc h .. | .red h .. | .pref h .. | .fenceR h
  | .fenceH h | .fenceE h | .fdef h .. | .ldu h .. | .stu h ..
  | .bari h .. | .barv h .. | .barw h .. | .bara h .. | .bart h .. | .barx h .. | .rqres h .. | .rqcmt h ..
  | .rqtake h .. | .rqrel h .. | .rend h
  | .cpin h .. | .cpout h .. | .cppeer h .. | .cpgath h .. | .cpsh h .. | .pub h .. | .cpwp h .. | .cpcan h ..
  | .mma h .. | .mmax h .. | .mmap h .. | .accz h .. | .accrd h .. | .accwr h .. | .accst h .. | .accld h ..
  | .hcfg h .. | .hld h .. | .hrun h .. | .hgath h .. | .hexit h .. | .hclr h ..
  | .postInstruction h .. | .spawn h .. | .tend h .. | .jinit h .. | .launchInstruction h .. | .claim h ..
  | .give h .. | .dpush h .. | .dclose h ..
  | .srd h .. | .swr h .. | .rtu h .. | .pack h .. | .stksv h .. | .stkld h .. | .rts h | .tlbinv h .. => some h
  | _ => none

end Sys2Proof
end

