-- ==== Sys2Proof/WellFormed.lean ====
section
/-!
DEFINITION. Which terms of `Instr` are steps the KN-8 has: an instruction word that the checks of R230–R250
pass, or a device step that speaks of a part the module has.
-/
namespace Sys2Proof

/-- The lookahead field is zero outside the long-latency class (R228, R235). -/
def Instr.laOk (i : Instr) : Bool :=
  match i.head? with
  | some h => i.longLatency || h.la == 0
  | none => true

/-- LDF's operation takes the type: and, or and xor take no float type (R163). -/
def FoldOp.takes : FoldOp → FoldTy → Bool
  | .and, t | .or, t | .xor, t => match t with
    | .f32 | .f64 | .f16 | .bf16 => false
    | _ => true
  | _, _ => true

/-- The modifier values an instruction allows (R236–R250). -/
def Instr.modOk : Instr → Bool
  | .cvtff _ dty sty _ _ _ => dty != sty
  | .ldf _ op ty _ _ _ => op.takes ty
  | .ld _ _ sz sx _ _ _ => !sx || sz == .b8 || sz == .b16
  | .ldu _ sp sz sx _ _ _ => sp != .peer && sz != .b128 && (!sx || sz == .b8 || sz == .b16)
  | .stu _ sp sz _ _ _ => sp != .peer && sz != .b128
  | .accld _ f _ _ => f != .e4m3 && f != .e5m2
  | .join h => h.gp == 7 && !h.gn
  | .nop _ => true
  | _ => true

/-- The lookahead and modifier fields hold no reserved value. -/
def Instr.codesOk (i : Instr) : Bool := i.laOk && i.modOk

/-- A device step speaks of parts the module has (R4, R5, R9, R25, R39, R71). -/
def Instr.partsOk : Instr → Bool
  | .flitReceive b .. | .boundaryRetrain b _ | .boundaryDown b => decide (b < 14)
  | .patrolStep stack sector => decide (stack < 16) && decide (sector < 2 ^ 30)
  | .thermalThrottle d t => decide (d < 8) && decide (95 ≤ t)
  | .thermalRelease d t => decide (d < 8) && decide (t ≤ 92)
  | .thermalTrip d t => decide (d < 8) && decide (110 ≤ t)
  | .lifeRecompute dies trends => dies.length == 8 && trends.length == 16
  | .portSpeedChange p _ => decide (p < 16)
  | .uetPacketReceive k => decide (k.port < 16) && decide (k.endpoint ≤ 1024)
  | .roceConnectionSetup p o _ => decide (p < 16) && decide (o ≤ 1024)
  | .coreResetOrPowerGating c | .deadlockBreak c | .claimGrant c => decide (c < 512)
  | .gather o c | .steal o c => decide (o < 1024) && decide (c < 512)
  | .holdRevert o q | .queueCommitRoom o q => decide (o < 1024) && decide (q < 520)
  | .clauseFetch _ k => decide (k < 4)
  | .ivgilChain _ k => decide (k < 4)
  | .ivgilBarrier _ b => decide (b < 1024)
  | _ => true

/-- The step is well formed. -/
def Instr.wellFormed (i : Instr) : Bool := i.laOk && i.modOk && i.rolesOk && i.partsOk

end Sys2Proof
end

