-- ==== Sys2Proof/Decode.lean ====
section
/-!
DEFINITION. From 64-bit words to instructions and back: the fields of R228, the operands of R230, the opcode map
of R238–R250, literals (R232), and the checks of R226 on a whole clause.
-/
namespace Sys2Proof

/-- Why a word is no instruction (R217, R237). -/
inductive DecodeError where
  | illegalInstruction
  | illegalOperand   -- a reserved level or index, or an operand use that R103 or the role forbids
  | unaligned        -- an operand that R100 forbids, which R217 does not count
  deriving DecidableEq, Repr

/-! ### Fields -/

/-- The fields of an instruction word (R228). -/
structure Fields where
  opc : BitVec 10
  gp : BitVec 3
  gn : BitVec 1
  la : BitVec 4
  d : BitVec 10
  a : BitVec 10
  b : BitVec 10
  c : BitVec 10
  md : BitVec 6
  deriving DecidableEq, Repr

/-- The fields of a word. -/
def fieldsOf (w : W64) : Fields :=
  { opc := w.extractLsb' 54 10, gp := w.extractLsb' 51 3, gn := w.extractLsb' 50 1, la := w.extractLsb' 46 4,
    d := w.extractLsb' 36 10, a := w.extractLsb' 26 10, b := w.extractLsb' 16 10, c := w.extractLsb' 6 10,
    md := w.extractLsb' 0 6 }

/-- The word with given fields. -/
def Fields.word (f : Fields) : W64 :=
  (f.opc ++ f.gp ++ f.gn ++ f.la ++ f.d ++ f.a ++ f.b ++ f.c ++ f.md : BitVec 64)

/-- An operand field that names LIT (R230). -/
def litField : BitVec 10 := 0x351#10

/-- The operand of a field, LIT taking the literal `v`; none for a reserved level or index (R230). -/
def operandOf (f : BitVec 10) (v : W64) : Option Operand :=
  let x := f.toNat % 256
  match f.toNat / 256 with
  | 0 => some (.v (BitVec.ofNat 8 x))
  | 1 => if x < 8 then some (.o (BitVec.ofNat 3 x)) else none
  | 2 => if x = 0 then some .l else none
  | _ =>
    if x < 0x40 then some (.s (BitVec.ofNat 6 x))
    else if x < 0x44 then some (.prev (BitVec.ofNat 2 (x - 0x40)))
    else if x < 0x48 then some (.q (BitVec.ofNat 2 (x - 0x44)))
    else if x < 0x50 then some (.p (BitVec.ofNat 3 (x - 0x48)))
    else if x = 0x50 then some .zero
    else if x = 0x51 then some (.lit v)
    else if x < 0x60 then none
    else if x < 0x7C then some (.special (BitVec.ofNat 5 (x - 0x60)))
    else if x < 0x80 then none
    else if x < 0xC0 then some (.acc (BitVec.ofNat 6 (x - 0x80)))
    else some (.imm (BitVec.ofNat 6 (x - 0xC0)))

/-- The field of an operand (R230). -/
def Operand.field : Operand → BitVec 10
  | .v n => BitVec.ofNat 10 n.toNat
  | .o n => BitVec.ofNat 10 (256 + n.toNat)
  | .l => 0x200#10
  | .s n => BitVec.ofNat 10 (0x300 + n.toNat)
  | .prev n => BitVec.ofNat 10 (0x340 + n.toNat)
  | .q n => BitVec.ofNat 10 (0x344 + n.toNat)
  | .p n => BitVec.ofNat 10 (0x348 + n.toNat)
  | .zero => 0x350#10
  | .lit _ => litField
  | .special n => BitVec.ofNat 10 (0x360 + n.toNat)
  | .acc n => BitVec.ofNat 10 (0x380 + n.toNat)
  | .imm n => BitVec.ofNat 10 (0x3C0 + n.toNat)

/-- The value of an inline constant, index − 0xE0, from −32 to 31 (R230). -/
def immValue (n : BitVec 6) : Int := (n.toNat : Int) - 32

/-! ### Codes (R236, R244, R247, R249) -/

/-- IT codes. -/
def intTyOf : BitVec 3 → Option IntTy
  | 0 => some .s32 | 1 => some .u32 | 2 => some .s64 | 3 => some .u64 | _ => none

/-- The code of an integer type. -/
def IntTy.code : IntTy → BitVec 3
  | .s32 => 0 | .u32 => 1 | .s64 => 2 | .u64 => 3

/-- FT codes. -/
def floatTyOf : BitVec 3 → Option FloatTy
  | 0 => some .f32 | 1 => some .f64 | 2 => some .f16 | 3 => some .bf16 | _ => none

/-- The code of a float type. -/
def FloatTy.code : FloatTy → BitVec 3
  | .f32 => 0 | .f64 => 1 | .f16 => 2 | .bf16 => 3

/-- Two-bit integer type codes. -/
def intTy2 : BitVec 2 → IntTy
  | 0 => .s32 | 1 => .u32 | 2 => .s64 | _ => .u64

/-- Two-bit float type codes. -/
def floatTy2 : BitVec 2 → FloatTy
  | 0 => .f32 | 1 => .f64 | 2 => .f16 | _ => .bf16

/-- RM codes. -/
def roundingOf : BitVec 2 → Rounding
  | 0 => .rne | 1 => .rz | 2 => .ru | _ => .rd

/-- The code of a rounding mode. -/
def Rounding.code : Rounding → BitVec 2
  | .rne => 0 | .rz => 1 | .ru => 2 | .rd => 3

/-- Integer condition codes. -/
def intCondOf : BitVec 3 → Option IntCond
  | 0 => some .eq | 1 => some .ne | 2 => some .lt | 3 => some .le | 4 => some .gt | 5 => some .ge | _ => none

/-- The code of an integer condition. -/
def IntCond.code : IntCond → BitVec 3
  | .eq => 0 | .ne => 1 | .lt => 2 | .le => 3 | .gt => 4 | .ge => 5

/-- Float condition codes. -/
def floatCondOf : BitVec 3 → FloatCond
  | 0 => .eq | 1 => .ne | 2 => .lt | 3 => .le | 4 => .gt | 5 => .ge | 6 => .un | _ => .or

/-- The code of a float condition. -/
def FloatCond.code : FloatCond → BitVec 3
  | .eq => 0 | .ne => 1 | .lt => 2 | .le => 3 | .gt => 4 | .ge => 5 | .un => 6 | .or => 7

/-- SHFL modes. -/
def shuffleOf : BitVec 2 → ShuffleMode
  | 0 => .lane | 1 => .rot | 2 => .xor | _ => .rev

/-- The code of a SHFL mode. -/
def ShuffleMode.code : ShuffleMode → BitVec 2
  | .lane => 0 | .rot => 1 | .xor => 2 | .rev => 3

/-- PLOP operators. -/
def predOpOf : BitVec 2 → PredOp
  | 0 => .and | 1 => .or | 2 => .xor | _ => .andn

/-- The code of a PLOP operator. -/
def PredOp.code : PredOp → BitVec 2
  | .and => 0 | .or => 1 | .xor => 2 | .andn => 3

/-- Space codes. -/
def spaceOf : BitVec 2 → Option Space
  | 0 => some .global | 1 => some .scratch | 2 => some .peer | _ => none

/-- The code of a space. -/
def Space.code : Space → BitVec 2
  | .global => 0 | .scratch => 1 | .peer => 2

/-- Size codes. -/
def sizeOf' : BitVec 3 → Option Size
  | 0 => some .b8 | 1 => some .b16 | 2 => some .b32 | 3 => some .b64 | 4 => some .b128 | _ => none

/-- The code of a size. -/
def Size.code : Size → BitVec 3
  | .b8 => 0 | .b16 => 1 | .b32 => 2 | .b64 => 3 | .b128 => 4

/-- Atomic operation codes. -/
def atomOpOf : BitVec 4 → AtomOp
  | 0 => .addU32 | 1 => .addU64 | 2 => .minS32 | 3 => .maxS32 | 4 => .minU32 | 5 => .maxU32 | 6 => .and
  | 7 => .or | 8 => .xor | 9 => .exchB32 | 10 => .exchB64 | 11 => .incwU32 | 12 => .faddF32 | 13 => .faddF64
  | 14 => .fminF32 | _ => .fmaxF32

/-- The code of an atomic operation. -/
def AtomOp.code : AtomOp → BitVec 4
  | .addU32 => 0 | .addU64 => 1 | .minS32 => 2 | .maxS32 => 3 | .minU32 => 4 | .maxU32 => 5 | .and => 6
  | .or => 7 | .xor => 8 | .exchB32 => 9 | .exchB64 => 10 | .incwU32 => 11 | .faddF32 => 12 | .faddF64 => 13
  | .fminF32 => 14 | .fmaxF32 => 15

/-- Scope codes. -/
def scopeOf : BitVec 2 → Scope
  | 0 => .team | 1 => .cluster | 2 => .device | _ => .system

/-- The code of a scope. -/
def Scope.code : Scope → BitVec 2
  | .team => 0 | .cluster => 1 | .device => 2 | .system => 3

/-- LDF operation codes. -/
def foldOpOf : BitVec 3 → Option FoldOp
  | 0 => some .add | 1 => some .min | 2 => some .max | 3 => some .and | 4 => some .or | 5 => some .xor | _ => none

/-- The code of an LDF operation. -/
def FoldOp.code : FoldOp → BitVec 3
  | .add => 0 | .min => 1 | .max => 2 | .and => 3 | .or => 4 | .xor => 5

/-- LDF type codes. -/
def foldTyOf : BitVec 3 → Option FoldTy
  | 0 => some .s32 | 1 => some .u32 | 2 => some .f32 | 3 => some .f64 | 4 => some .f16 | 5 => some .bf16
  | 6 => some .s64 | _ => none

/-- The code of an LDF type. -/
def FoldTy.code : FoldTy → BitVec 3
  | .s32 => 0 | .u32 => 1 | .f32 => 2 | .f64 => 3 | .f16 => 4 | .bf16 => 5 | .s64 => 6

/-- MMA type codes. -/
def mmaTyOf : BitVec 3 → Option MmaTy
  | 0 => some .f64 | 1 => some .f32 | 2 => some .bf16 | 3 => some .f16 | _ => none

/-- The code of an MMA type. -/
def MmaTy.code : MmaTy → BitVec 3
  | .f64 => 0 | .f32 => 1 | .bf16 => 2 | .f16 => 3

/-- ACCST and ACCLD format codes. -/
def accFmtOf : BitVec 3 → Option AccFmt
  | 0 => some .f32 | 1 => some .f64 | 2 => some .bf16 | 3 => some .f16 | 4 => some .e4m3 | 5 => some .e5m2
  | 6 => some .s32 | _ => none

/-- The code of an accumulator format. -/
def AccFmt.code : AccFmt → BitVec 3
  | .f32 => 0 | .f64 => 1 | .bf16 => 2 | .f16 => 3 | .e4m3 => 4 | .e5m2 => 5 | .s32 => 6

/-- POST target codes. -/
def targetOf : BitVec 2 → PostTarget
  | 0 => .own | 1 => .die | 2 => .neighbour | _ => .core

/-- The code of a POST target. -/
def PostTarget.code : PostTarget → BitVec 2
  | .own => 0 | .die => 1 | .neighbour => 2 | .core => 3

/-- RTU mode codes. -/
def resumeOf : BitVec 2 → ResumeMode
  | 0 => .retry | 1 => .remove | 2 => .next | _ => .term

/-- The code of an RTU mode. -/
def ResumeMode.code : ResumeMode → BitVec 2
  | .retry => 0 | .remove => 1 | .next => 2 | .term => 3

/-! ### The opcode map -/

/-- How a row reads its four operand fields. -/
inductive FieldUse where
  | unused     -- must be zero
  | operand    -- an operand that takes a literal when it names LIT
  | dest       -- a destination: takes no literal
  | offset     -- half a branch offset
  deriving DecidableEq, Repr

/-- A row of the opcode map: how it uses D, A, B and C, and the instruction it makes of its operands. -/
structure Row where
  d : FieldUse
  a : FieldUse
  b : FieldUse
  c : FieldUse
  make : Head → BitVec 20 → Operand → Operand → Operand → Operand → Instr

/-- A row of the shape D, A. -/
def rowDA (f : Head → Operand → Operand → Instr) : Row :=
  ⟨.dest, .operand, .unused, .unused, fun h _ d a _ _ => f h d a⟩
/-- A row of the shape D, A, B. -/
def rowDAB (f : Head → Operand → Operand → Operand → Instr) : Row :=
  ⟨.dest, .operand, .operand, .unused, fun h _ d a b _ => f h d a b⟩
/-- A row of the shape D, A, C. -/
def rowDAC (f : Head → Operand → Operand → Operand → Instr) : Row :=
  ⟨.dest, .operand, .unused, .operand, fun h _ d a _ c => f h d a c⟩
/-- A row of the shape D, A, B, C. -/
def rowDABC (f : Head → Operand → Operand → Operand → Operand → Instr) : Row :=
  ⟨.dest, .operand, .operand, .operand, fun h _ d a b c => f h d a b c⟩
/-- A row whose D is a source that may take a literal. -/
def rowSABC (f : Head → Operand → Operand → Operand → Operand → Instr) : Row :=
  ⟨.operand, .operand, .operand, .operand, fun h _ d a b c => f h d a b c⟩
/-- A row of the shape A, B, C. -/
def rowABC (f : Head → Operand → Operand → Operand → Instr) : Row :=
  ⟨.unused, .operand, .operand, .operand, fun h _ _ a b c => f h a b c⟩
/-- A row of the shape A, B. -/
def rowAB (f : Head → Operand → Operand → Instr) : Row :=
  ⟨.unused, .operand, .operand, .unused, fun h _ _ a b _ => f h a b⟩
/-- A row of the shape A, C. -/
def rowAC (f : Head → Operand → Operand → Instr) : Row :=
  ⟨.unused, .operand, .unused, .operand, fun h _ _ a _ c => f h a c⟩
/-- A row of the shape A. -/
def rowA (f : Head → Operand → Instr) : Row :=
  ⟨.unused, .operand, .unused, .unused, fun h _ _ a _ _ => f h a⟩
/-- A row of the shape D. -/
def rowD (f : Head → Operand → Instr) : Row :=
  ⟨.dest, .unused, .unused, .unused, fun h _ d _ _ _ => f h d⟩
/-- A row without operands. -/
def row0 (f : Head → Instr) : Row :=
  ⟨.unused, .unused, .unused, .unused, fun h _ _ _ _ _ => f h⟩

/-- Bit `n` of a modifier field. -/
def mbit (m : BitVec 6) (n : Nat) : Bool := m.getLsbD n

/-- The bits of a modifier field from `n` upward are zero. -/
def mzero (m : BitVec 6) (n : Nat) : Bool := m.toNat / 2 ^ n == 0

/-- A row that is there when a condition on its modifiers holds (R236: a reserved code or bit is illegal). -/
def Row.when (c : Bool) (r : Row) : Option Row := if c then some r else none

/-- A row whose modifiers are an IT and nothing else. -/
def rowIT (m : BitVec 6) (f : IntTy → Row) : Option Row :=
  if mzero m 3 then (intTyOf (m.extractLsb' 0 3)).map f else none

/-- A row whose modifiers are a signed IT: s32 or s64. -/
def rowITs (m : BitVec 6) (f : Bool → Row) : Option Row :=
  if m = 0 then some (f false) else if m = 2 then some (f true) else none

/-- A row whose modifiers are the 64-bit flag alone. -/
def rowW (m : BitVec 6) (f : Bool → Row) : Option Row := (f (mbit m 0)).when (mzero m 1)

/-- A row whose modifiers are an FT and nothing else. -/
def rowFT (m : BitVec 6) (f : FloatTy → Row) : Option Row :=
  if mzero m 3 then (floatTyOf (m.extractLsb' 0 3)).map f else none

/-- A row whose modifiers are FT f32 or f64. -/
def rowFTd (m : BitVec 6) (f : Bool → Row) : Option Row := (f (mbit m 0)).when (mzero m 1)

/-- A row whose modifiers are an FT and an RM. -/
def rowFTRM (m : BitVec 6) (f : FloatTy → Rounding → Row) : Option Row :=
  if mzero m 5 then (floatTyOf (m.extractLsb' 0 3)).map (fun t => f t (roundingOf (m.extractLsb' 3 2))) else none

/-- A row whose modifiers are a channel and a token (R246). -/
def rowCopy (m : BitVec 6) (f : BitVec 3 → BitVec 2 → Row) : Option Row :=
  (f (m.extractLsb' 3 3) (m.extractLsb' 0 2)).when (!(mbit m 2))

/-- The opcode map: the row of an opcode under given modifiers; none for a reserved opcode, code or bit. -/
def rowOf (opc : Nat) (m : BitVec 6) : Option Row :=
  match opc with
  -- group 0 (R238)
  | 0x000 => (row0 .nop).when (m = 0)
  | 0x001 => (rowDA fun h => .mov h (mbit m 0) (mbit m 1)).when (mzero m 2)
  | 0x002 => rowIT m fun t => rowDAB fun h => .iadd h t
  | 0x003 => rowIT m fun t => rowDAB fun h => .isub h t
  | 0x004 => rowIT m fun t => rowDAB fun h => .imul h t
  | 0x005 => rowIT m fun t => rowDAB fun h => .imulh h t
  | 0x006 => rowIT m fun t => rowDABC fun h => .imad h t
  | 0x007 => rowIT m fun t => rowDAB fun h => .imin h t
  | 0x008 => rowIT m fun t => rowDAB fun h => .imax h t
  | 0x009 => rowITs m fun w => rowDA fun h => .iabs h w
  | 0x00A => rowITs m fun w => rowDA fun h => .ineg h w
  | 0x00B => (rowDAB fun h => .lea h (m.extractLsb' 0 3) (mbit m 3)).when (mzero m 4)
  | 0x00C => (intTyOf (m.extractLsb' 0 3)).bind fun t => (intCondOf (m.extractLsb' 3 3)).map fun k =>
      rowDAB fun h => .icmp h t k
  | 0x00D => rowW m fun w => rowDABC fun h => .isel h w
  | 0x00E => rowIT m fun t => rowDABC fun h => .iclamp h t
  | 0x00F => rowIT m fun t => rowDAB fun h => .iadds h t
  | 0x010 => (rowDABC fun h => .idot4 h (mbit m 0) (mbit m 1)).when (mzero m 2)
  -- group 1 (R239)
  | 0x040 => rowW m fun w => rowDAB fun h => .land h w
  | 0x041 => rowW m fun w => rowDAB fun h => .lor h w
  | 0x042 => rowW m fun w => rowDAB fun h => .lxor h w
  | 0x043 => rowW m fun w => rowDAB fun h => .andn h w
  | 0x044 => rowW m fun w => rowDA fun h => .lnot h w
  | 0x045 => rowW m fun w => rowDAB fun h => .shl h w
  | 0x046 => rowW m fun w => rowDAB fun h => .shr h w
  | 0x047 => rowW m fun w => rowDAB fun h => .sar h w
  | 0x048 => rowW m fun w => rowDAB fun h => .rol h w
  | 0x049 => (rowDAC fun h => .bfx h (mbit m 0) (mbit m 1)).when (mzero m 2)
  | 0x04A => rowW m fun w => rowDABC fun h => .bfi h w
  | 0x04B => rowW m fun w => rowDA fun h => .popc h w
  | 0x04C => rowW m fun w => rowDA fun h => .clz h w
  | 0x04D => rowW m fun w => rowDA fun h => .ctz h w
  | 0x04E => rowW m fun w => rowDA fun h => .brev h w
  | 0x04F => rowW m fun w => rowDABC fun h => .prmb h w
  -- group 2 (R240)
  | 0x080 => rowFTRM m fun t r => rowDAB fun h => .fadd h t r
  | 0x081 => rowFTRM m fun t r => rowDAB fun h => .fsub h t r
  | 0x082 => rowFTRM m fun t r => rowDAB fun h => .fmul h t r
  | 0x083 => rowFTRM m fun t r => rowDABC fun h => .ffma h t r
  | 0x084 => rowFT m fun t => rowDAB fun h => .fmin h t
  | 0x085 => rowFT m fun t => rowDAB fun h => .fmax h t
  | 0x086 => rowFT m fun t => rowDA fun h => .fabs h t
  | 0x087 => rowFT m fun t => rowDA fun h => .fneg h t
  | 0x088 => (floatTyOf (m.extractLsb' 0 3)).map fun t => rowDAB fun h => .fcmp h t (floatCondOf (m.extractLsb' 3 3))
  | 0x089 => rowFTd m fun f => rowDA fun h => .frcp h f
  | 0x08A => rowFTd m fun f => rowDA fun h => .frsq h f
  | 0x08B => rowFTd m fun f => rowDA fun h => .fsqrt h f
  | 0x08C => (rowDA .fexp2).when (m = 0)
  | 0x08D => (rowDA .flog2).when (m = 0)
  | 0x08E => (rowDA .fsinp).when (m = 0)
  | 0x08F => (rowDA .fcosp).when (m = 0)
  | 0x090 => rowFT m fun t => rowDA fun h => .fclass h t
  | 0x091 => rowFTd m fun f => rowDABC fun h => .frcpv h f
  | 0x092 => (rowDAB .fsmx).when (m = 0)
  | 0x093 => rowFT m fun t => rowDAB fun h => .fscale h t
  -- group 3 (R241)
  | 0x0C0 => some (rowDA fun h =>
      .cvtif h (intTy2 (m.extractLsb' 0 2)) (floatTy2 (m.extractLsb' 2 2)) (roundingOf (m.extractLsb' 4 2)))
  | 0x0C1 => some (rowDA fun h =>
      .cvtfi h (intTy2 (m.extractLsb' 0 2)) (floatTy2 (m.extractLsb' 2 2)) (roundingOf (m.extractLsb' 4 2)))
  | 0x0C2 => (rowDA fun h =>
      .cvtff h (floatTy2 (m.extractLsb' 0 2)) (floatTy2 (m.extractLsb' 2 2)) (roundingOf (m.extractLsb' 4 2))).when
      (m.extractLsb' 0 2 != m.extractLsb' 2 2)
  | 0x0C3 => rowFTRM m fun t r => rowDA fun h => .frnd h t r
  | 0x0C4 => rowW m fun e => rowDABC fun h => .packq h e
  | 0x0C5 => rowW m fun e => rowDAB fun h => .unpkq h e
  | 0x0C6 => (rowDAB .bpext).when (m = 0)
  | 0x0C7 => (rowDABC .bpins).when (m = 0)
  -- group 4 (R242)
  | 0x100 => (rowDAB fun h => .shfl h (shuffleOf (m.extractLsb' 0 2)) (mbit m 2)).when (mzero m 3)
  | 0x101 => match m.toNat with
      | 0 => some (rowDAB .voteQuorum)
      | 1 => some (rowDA .voteCount)
      | 2 => some (rowDA .voteMask)
      | 3 => some (rowDA fun h => .voteSame h false)
      | 7 => some (rowDA fun h => .voteSame h true)
      | _ => none
  | 0x102 => rowW m fun w => rowDA fun h => .matchLanes h w
  | 0x103 => (rowDABC fun h => .plop h (predOpOf (m.extractLsb' 0 2)) (predOpOf (m.extractLsb' 2 2)) (mbit m 4)).when
      (mzero m 5)
  | 0x104 => rowW m fun f => rowDA fun h => .pmov h f
  | 0x105 => (rowA fun h => .chseed h (m.extractLsb' 0 2)).when (mzero m 2)
  | 0x106 => (rowA fun h => .chlink h (m.extractLsb' 0 2) (mbit m 2)).when (mzero m 3)
  | 0x107 => (rowD fun h => .chout h (m.extractLsb' 0 2)).when (mzero m 2)
  | 0x108 => (rowD .elect).when (m = 0)
  -- group 5 (R243)
  | 0x140 => Row.when (m = 0) ⟨.unused, .unused, .offset, .offset, fun h f _ _ _ _ => .bra h f⟩
  | 0x141 => Row.when (m = 0) ⟨.unused, .operand, .offset, .offset, fun h f _ a _ _ => .brd h f a⟩
  | 0x142 => (row0 .join).when (m = 0)
  | 0x143 => (rowA .brx).when (m = 0)
  | 0x144 => Row.when (m = 0) ⟨.dest, .unused, .offset, .offset, fun h f d _ _ _ => .call h f d⟩
  | 0x145 => (rowA .ret).when (m = 0)
  | 0x146 => (row0 .exit).when (m = 0)
  | 0x147 => (row0 .yield).when (m = 0)
  | 0x148 => (rowA .sleep).when (m = 0)
  | 0x149 => (rowA .trap).when (m = 0)
  | 0x14A => (row0 .bkpt).when (m = 0)
  | 0x14B => Row.when (m = 0) ⟨.dest, .unused, .offset, .offset, fun h f d _ _ _ => .dbnz h f d⟩
  | 0x14C => (rowA .waitt).when (m = 0)
  -- group 6 (R244, R178)
  | 0x180 => (spaceOf (m.extractLsb' 0 2)).bind fun sp => (sizeOf' (m.extractLsb' 2 3)).bind fun sz =>
      (rowDAC fun h => .ld h sp sz (mbit m 5)).when (!(mbit m 5) || sz == .b8 || sz == .b16)
  | 0x181 => (spaceOf (m.extractLsb' 0 2)).bind fun sp => (sizeOf' (m.extractLsb' 2 3)).bind fun sz =>
      (rowABC fun h => .st h sp sz).when (!(mbit m 5))
  | 0x182 => (sizeOf' (m.extractLsb' 2 3)).bind fun sz =>
      (rowABC fun h => .stp h sz).when (m.extractLsb' 0 2 == 0 && !(mbit m 5))
  | 0x183 => (foldOpOf (m.extractLsb' 0 3)).bind fun op => (foldTyOf (m.extractLsb' 3 3)).bind fun ty =>
      (rowDAC fun h => .ldf h op ty).when (op.takes ty)
  | 0x184 => some (rowDABC fun h => .atom h (atomOpOf (m.extractLsb' 0 4)) (scopeOf (m.extractLsb' 4 2)))
  | 0x185 => (rowDABC fun h => .atomc h (mbit m 0) (scopeOf (m.extractLsb' 4 2))).when (m.extractLsb' 1 3 == 0)
  | 0x186 => some (rowABC fun h => .red h (atomOpOf (m.extractLsb' 0 4)) (scopeOf (m.extractLsb' 4 2)))
  | 0x187 => rowW m fun l => rowAC fun h => .pref h l
  | 0x188 => match m.toNat with
      | 0 => some (row0 .fenceR)
      | 1 => some (row0 .fenceH)
      | 2 => some (row0 .fenceE)
      | _ => none
  | 0x189 => (rowABC .fdef).when (m = 0)
  | 0x18A => (spaceOf (m.extractLsb' 0 2)).bind fun sp => (sizeOf' (m.extractLsb' 2 3)).bind fun sz =>
      (rowDAC fun h => .ldu h sp sz (mbit m 5)).when
        (sp != .peer && sz != .b128 && (!(mbit m 5) || sz == .b8 || sz == .b16))
  | 0x18B => (spaceOf (m.extractLsb' 0 2)).bind fun sp => (sizeOf' (m.extractLsb' 2 3)).bind fun sz =>
      (rowABC fun h => .stu h sp sz).when (sp != .peer && sz != .b128 && !(mbit m 5))
  -- group 7 (R245, R186)
  | 0x1C0 => rowW m fun w => rowABC fun h => .bari h w
  | 0x1C1 => (rowDA fun h => .barv h (mbit m 1)).when (!(mbit m 0) && mzero m 2)
  | 0x1C2 => (rowAB .barw).when (m = 0)
  | 0x1C3 => (rowAB fun h => .bara h (mbit m 1)).when (!(mbit m 0) && mzero m 2)
  | 0x1C4 => (rowDAB .bart).when (m = 0)
  | 0x1C5 => (rowAB .barx).when (m = 0)
  | 0x1C6 => rowW m fun w => rowDABC fun h => .rqres h w
  | 0x1C7 => (rowA .rqcmt).when (m = 0)
  | 0x1C8 => rowW m fun w => rowDA fun h => .rqtake h w
  | 0x1C9 => (rowA .rqrel).when (m = 0)
  | 0x1CA => (row0 .rend).when (m = 0)
  -- group 8 (R246)
  | 0x200 => rowCopy m fun t c => rowABC fun h => .cpin h t c
  | 0x201 => rowCopy m fun t c => rowDABC fun h => .cpout h t c
  | 0x202 => rowCopy m fun t c => rowSABC fun h => .cppeer h t c
  | 0x203 => rowCopy m fun t c => rowSABC fun h => .cpgath h t c
  | 0x204 => rowCopy m fun t c => rowABC fun h => .cpsh h t c
  | 0x205 => (rowA fun h => .pub h (m.extractLsb' 3 3)).when (m.extractLsb' 0 3 == 0)
  | 0x206 => (rowD fun h => .cpwp h (m.extractLsb' 0 2)).when (mzero m 2)
  | 0x207 => (row0 fun h => .cpcan h (m.extractLsb' 0 2)).when (mzero m 2)
  -- group 9 (R247)
  | 0x240 => (mmaTyOf (m.extractLsb' 0 3)).bind fun t => (rowDABC fun h => .mma h t (mbit m 3)).when (mzero m 4)
  | 0x241 => (rowDABC fun h => .mmax h (mbit m 0) (mbit m 1) (mbit m 3)).when (!(mbit m 2) && mzero m 4)
  | 0x242 => some (rowDAB fun h => .mmap h (m.extractLsb' 0 3) (mbit m 3) (mbit m 4) (mbit m 5))
  | 0x243 => rowW m fun p => rowD fun h => .accz h p
  | 0x244 => rowW m fun p => rowDAB fun h => .accrd h p
  | 0x245 => rowW m fun p => rowDAB fun h => .accwr h p
  | 0x246 => if mzero m 3 then (accFmtOf (m.extractLsb' 0 3)).map fun f => rowDABC fun h => .accst h f else none
  | 0x247 => if mzero m 3 then (accFmtOf (m.extractLsb' 0 3)).bind fun f =>
      (rowDA fun h => .accld h f).when (f != .e4m3 && f != .e5m2) else none
  -- group A (R248)
  | 0x280 => (rowA .hcfg).when (m = 0)
  | 0x281 => (rowABC .hld).when (m = 0)
  | 0x282 => (rowABC fun h => .hrun h (m.extractLsb' 3 3)).when (m.extractLsb' 0 3 == 0)
  | 0x283 => (rowDAB .hgath).when (m = 0)
  | 0x284 => (rowDAB .hexit).when (m = 0)
  | 0x285 => (rowAB .hclr).when (m = 0)
  -- group B (R249)
  | 0x2C0 => (rowDAC fun h => .postInstruction h (targetOf (m.extractLsb' 0 2))).when (mzero m 2)
  | 0x2C1 => (rowDAC fun h => .spawn h (targetOf (m.extractLsb' 0 2))).when (mzero m 2)
  | 0x2C2 => (rowA .tend).when (m = 0)
  | 0x2C3 => (rowABC .jinit).when (m = 0)
  | 0x2C4 => (rowDA .launchInstruction).when (m = 0)
  | 0x2C5 => (rowDA fun h => .claim h (mbit m 0) (mbit m 1)).when (mzero m 2)
  | 0x2C6 => (rowA fun h => .give h (mbit m 1)).when (!(mbit m 0) && mzero m 2)
  | 0x2C7 => (rowA fun h => .dpush h (m.extractLsb' 0 2)).when (mzero m 2)
  | 0x2C8 => (row0 fun h => .dclose h (m.extractLsb' 0 2)).when (mzero m 2)
  -- group C (R250)
  | 0x300 => (rowDA .srd).when (m = 0)
  | 0x301 => (rowAB .swr).when (m = 0)
  | 0x302 => (row0 fun h => .rtu h (resumeOf (m.extractLsb' 0 2))).when (mzero m 2)
  | 0x303 => (rowAB .pack).when (m = 0)
  | 0x304 => (rowA fun h => .stksv h (m.extractLsb' 0 2)).when (mzero m 2)
  | 0x305 => (rowA fun h => .stkld h (m.extractLsb' 0 2)).when (mzero m 2)
  | 0x306 => (row0 .rts).when (m = 0)
  | 0x307 => (rowAB .tlbinv).when (m = 0)
  | _ => none

/-! ### Decoding a word -/

/-- One operand field under its use: the operand and the literals left, or none for a reserved level or index,
a destination that names LIT, or a LIT without a literal. -/
def readField (u : FieldUse) (f : BitVec 10) (lits : List W64) : Option (Operand × List W64) :=
  match u with
  | .operand =>
    if f = litField then
      match lits with
      | v :: r => some (.lit v, r)
      | [] => none
    else (operandOf f 0).map fun x => (x, lits)
  | .dest => if f = litField then none else (operandOf f 0).map fun x => (x, lits)
  | _ => some (.zero, lits)

/-- The field is not unused, or it is zero (R230). -/
def unusedOk (u : FieldUse) (f : BitVec 10) : Bool := u != .unused || f == 0

/-- The guard and lookahead of a word. -/
def Fields.head (f : Fields) : Head := { gp := f.gp, gn := f.gn == 1, la := f.la }

/-- The branch offset of a word: bits 19..10 in B, 9..0 in C (R233). -/
def Fields.offset (f : Fields) : BitVec 20 := f.b ++ f.c

/-- The instruction a word would be were its literals and its unreadable operands zero: the checks that stand before those
of its operands are made on it (R211). -/
def Row.bare (r : Row) (f : Fields) : Instr :=
  let x (u : BitVec 10) : Operand := (operandOf u 0).getD .zero
  r.make f.head f.offset (x f.d) (x f.a) (x f.b) (x f.c)

/-- The instruction of a word that stands in an instruction position, with the literals its LIT operands take
in the order D, A, B, C (R232). The illegal-instruction checks come before the operand checks (R211, R237). -/
def decodeWord (w : W64) (lits : List W64) : Except DecodeError Instr :=
  let f := fieldsOf w
  match rowOf f.opc.toNat f.md with
  | none => .error .illegalInstruction
  | some r =>
    if !(unusedOk r.d f.d && unusedOk r.a f.a && unusedOk r.b f.b && unusedOk r.c f.c) then
      .error .illegalInstruction
    else if !(r.bare f).codesOk then .error .illegalInstruction
    else
      match readField r.d f.d lits with
      | none => .error .illegalOperand
      | some (d, l1) =>
        match readField r.a f.a l1 with
        | none => .error .illegalOperand
        | some (a, l2) =>
          match readField r.b f.b l2 with
          | none => .error .illegalOperand
          | some (b, l3) =>
            match readField r.c f.c l3 with
            | none => .error .illegalOperand
            | some (c, _) =>
              let i := r.make f.head f.offset d a b c
              if !i.levelsOk then .error .illegalOperand
              else if !i.rolesOk then .error .unaligned
              else .ok i

/-- One operand field of a word whose operands are at fault: an unreadable operand counts as ZERO. -/
def readAny (u : FieldUse) (f : BitVec 10) (lits : List W64) : Operand × List W64 :=
  (readField u f lits).getD ((operandOf f 0).getD .zero, lits)

/-- The instruction of a word before its operands are checked, an unreadable one counting as ZERO: the checks that stand before
those of operands are made on it (R211). -/
def uncheckedInstr (w : W64) (lits : List W64) : Option Instr :=
  let f := fieldsOf w
  (rowOf f.opc.toNat f.md).map fun r =>
    let (d, l1) := readAny r.d f.d lits
    let (a, l2) := readAny r.a f.a l1
    let (b, l3) := readAny r.b f.b l2
    let (c, _) := readAny r.c f.c l3
    r.make f.head f.offset d a b c

/-! ### Clauses -/

/-- The fields of a clause header (R224). -/
structure Header where
  sig : BitVec 4
  count : BitVec 4
  cls : BitVec 4
  twait : BitVec 8
  reservedHigh : BitVec 4
  litmask : BitVec 16
  yld : BitVec 1
  reservedLow : BitVec 23
  deriving DecidableEq, Repr

/-- The header of a word. -/
def headerOf (w : W64) : Header :=
  { sig := w.extractLsb' 60 4, count := w.extractLsb' 56 4, cls := w.extractLsb' 52 4, twait := w.extractLsb' 44 8,
    reservedHigh := w.extractLsb' 40 4, litmask := w.extractLsb' 24 16, yld := w.extractLsb' 23 1,
    reservedLow := w.extractLsb' 0 23 }

/-- Words of a clause after its header. -/
def Header.words (h : Header) : Nat := h.count.toNat + 1

/-- The header satisfies R224: signature, class, reserved fields, literal mask within the clause. -/
def Header.ok (h : Header) : Bool :=
  h.sig == 0b1101#4 && decide (h.cls.toNat ≤ 4) && h.reservedHigh == 0 && h.reservedLow == 0 &&
  h.litmask.toNat / 2 ^ h.words == 0

/-- The groups a clause class allows (R225). -/
def classAllows (cls group : Nat) : Bool :=
  decide (group ≤ 4) ||
  match cls with
  | 1 => group == 6 || group == 7
  | 2 => group == 8 || group == 9 || group == 10
  | 3 => group == 5 || group == 11
  | 4 => group == 12
  | _ => false

/-- Word `i` of the clause is a literal. -/
def Header.isLit (h : Header) (i : Nat) : Bool := h.litmask.getLsbD i

/-- The row whose field uses an opcode has where its modifiers are reserved. The field uses depend on the modifiers for VOTE
alone, on their bits 1..0 (R242, R273). -/
def anyRow (opc : Nat) (md : BitVec 6) : Option Row :=
  (rowOf opc (md &&& 3)).orElse fun _ => (List.range 64).findSome? fun k => rowOf opc (BitVec.ofNat 6 k)

/-- How many LIT operands a word has that take a literal (R232). -/
def litCount (w : W64) : Nat :=
  let f := fieldsOf w
  match (rowOf f.opc.toNat f.md).orElse (fun _ => anyRow f.opc.toNat f.md) with
  | none => 0
  | some r =>
    let n (u : FieldUse) (x : BitVec 10) : Nat := if u = .operand ∧ x = litField then 1 else 0
    n r.d f.d + n r.a f.a + n r.b f.b + n r.c f.c

/-- The first literal word after position `i` that no operand has taken, among `n` words. -/
def nextLit (h : Header) (taken : List Nat) (n i : Nat) : Nat → Option Nat
  | 0 => none
  | fuel + 1 =>
    if i ≥ n then none
    else if h.isLit i && !taken.contains i then some i
    else nextLit h taken n (i + 1) fuel

/-- The literal positions that `k` LIT operands of word `i` take. -/
def takeLits (h : Header) (n i : Nat) : Nat → List Nat → Option (List Nat)
  | 0, _ => some []
  | k + 1, taken =>
    match nextLit h taken n (i + 1) n with
    | none => none
    | some j => (takeLits h n i k (taken ++ [j])).map (j :: ·)

/-- The literal positions of each instruction word, in word order (R232); a word that finds no literal is told
apart by `none`. -/
def assignFrom (h : Header) (n : Nat) : List W64 → Nat → List Nat → List (Option (List Nat))
  | [], _, _ => []
  | w :: r, i, taken =>
    if h.isLit i then some [] :: assignFrom h n r (i + 1) taken
    else
      match takeLits h n i (litCount w) taken with
      | none => none :: assignFrom h n r (i + 1) taken
      | some js => some js :: assignFrom h n r (i + 1) (taken ++ js)

/-- The literal positions taken by the words of a clause. -/
def assignLits (h : Header) (ws : List W64) : List (Option (List Nat)) := assignFrom h ws.length ws 0 []

/-- How many instruction words follow position `i`. -/
def wordsAfter (h : Header) (n i : Nat) : Nat :=
  ((List.range n).filter fun j => decide (i < j) && !h.isLit j).length

/-- Some instruction word before position `i` transfers control (R226 condition 5). -/
def transferBefore (h : Header) (ws : List W64) (i : Nat) : Bool :=
  (List.range i).any fun j => !h.isLit j &&
    (match ws[j]? with
     | some w => [0x140, 0x141, 0x143, 0x144, 0x145, 0x146, 0x14B].contains (fieldsOf w).opc.toNat
     | none => false)

/-- Word `i` breaks a condition of R226. -/
def wordBreaks (h : Header) (ws : List W64) (assigned : List (Option (List Nat))) (i : Nat) : Bool :=
  match ws[i]? with
  | none => false
  | some w =>
    if h.isLit i then
      !(assigned.any fun x => match x with | some js => js.contains i | none => false)
    else
      let f := fieldsOf w
      let g := f.opc.toNat / 64
      g == 13 || !classAllows h.cls.toNat g ||
      (match assigned[i]? with | some none => true | _ => false) ||
      transferBefore h ws i ||
      (f.opc == 0x142#10 && i != 0) ||
      decide (wordsAfter h ws.length i < f.la.toNat)

/-- The check of a clause whole (R226): the index of the first offending word, header faults counting as word 0;
none when the clause passes. -/
def clauseFault (header : W64) (ws : List W64) : Option Nat :=
  let h := headerOf header
  if !h.ok then some 0
  else if (List.range ws.length).all h.isLit then some 0
  else
    let assigned := assignLits h ws
    (List.range ws.length).find? (wordBreaks h ws assigned)

/-- The literals that word `i` of a clause takes. -/
def literalsOf (header : W64) (ws : List W64) (i : Nat) : List W64 :=
  match (assignLits (headerOf header) ws)[i]? with
  | some (some js) => js.map fun j => ws.getD j 0
  | _ => []

/-- The next position from `i` that holds an instruction word. -/
def nextWord (h : Header) (n i : Nat) : Nat → Option Nat
  | 0 => none
  | fuel + 1 => if i ≥ n then none else if h.isLit i then nextWord h n (i + 1) fuel else some i

/-- The instruction the decoder reads from an instruction of `nbits` bits `w`, the bits above zero: one word in
bits 63..0 and the literals its LIT operands take above it. -/
def decodeTableWord (nbits w : Nat) : Option Instr :=
  let x := w % 2 ^ nbits
  let word (k : Nat) : W64 := BitVec.ofNat 64 (x / 2 ^ (64 * k))
  match decodeWord (word 0) [word 1, word 2] with
  | .ok i => some i
  | .error _ => none

/-! ### Encoding -/

/-- The bits of a modifier field, bit 0 last. -/
def mods (b5 b4 b3 b2 b1 b0 : Bool) : BitVec 6 :=
  BitVec.ofBool b5 ++ BitVec.ofBool b4 ++ BitVec.ofBool b3 ++ BitVec.ofBool b2 ++ BitVec.ofBool b1 ++ BitVec.ofBool b0

/-- A modifier field of one flag in bit 0. -/
def modW (b : Bool) : BitVec 6 := mods false false false false false b

/-- The modifier field of IABS and INEG: s32 or s64. -/
def modITs (w64 : Bool) : BitVec 6 := if w64 then 2 else 0

/-- The modifier field of an FT and an RM. -/
def modFTRM (t : FloatTy) (r : Rounding) : BitVec 6 := (0#1 ++ r.code ++ t.code : BitVec 6)

/-- The modifier field of a conversion: two two-bit types and an RM (R241). -/
def modCvt (low high : BitVec 3) (r : Rounding) : BitVec 6 :=
  (r.code ++ high.extractLsb' 0 2 ++ low.extractLsb' 0 2 : BitVec 6)

/-- The modifier field of a load or store (R244). -/
def modMem (sp : Space) (sz : Size) (sx : Bool) : BitVec 6 := (BitVec.ofBool sx ++ sz.code ++ sp.code : BitVec 6)

/-- The modifier field of a copy (R246). -/
def modCopy (tok : BitVec 3) (ch : BitVec 2) : BitVec 6 := (tok ++ 0#1 ++ ch : BitVec 6)

/-- The opcode, modifiers and D, A, B, C of an instruction word (R228, R238–R250). -/
structure Parts where
  opc : BitVec 10
  md : BitVec 6
  d : BitVec 10
  a : BitVec 10
  b : BitVec 10
  c : BitVec 10
  deriving DecidableEq, Repr

/-- Parts of D, A, B, C. -/
def pDABC (opc : BitVec 10) (md : BitVec 6) (d a b c : Operand) : Option Parts :=
  some ⟨opc, md, d.field, a.field, b.field, c.field⟩
/-- Parts of D, A, B. -/
def pDAB (opc : BitVec 10) (md : BitVec 6) (d a b : Operand) : Option Parts :=
  some ⟨opc, md, d.field, a.field, b.field, 0⟩
/-- Parts of D, A. -/
def pDA (opc : BitVec 10) (md : BitVec 6) (d a : Operand) : Option Parts := some ⟨opc, md, d.field, a.field, 0, 0⟩
/-- Parts of D, A, C. -/
def pDAC (opc : BitVec 10) (md : BitVec 6) (d a c : Operand) : Option Parts :=
  some ⟨opc, md, d.field, a.field, 0, c.field⟩
/-- Parts of A, B, C. -/
def pABC (opc : BitVec 10) (md : BitVec 6) (a b c : Operand) : Option Parts :=
  some ⟨opc, md, 0, a.field, b.field, c.field⟩
/-- Parts of A, B. -/
def pAB (opc : BitVec 10) (md : BitVec 6) (a b : Operand) : Option Parts := some ⟨opc, md, 0, a.field, b.field, 0⟩
/-- Parts of A. -/
def pA (opc : BitVec 10) (md : BitVec 6) (a : Operand) : Option Parts := some ⟨opc, md, 0, a.field, 0, 0⟩
/-- Parts of D. -/
def pD (opc : BitVec 10) (md : BitVec 6) (d : Operand) : Option Parts := some ⟨opc, md, d.field, 0, 0, 0⟩
/-- Parts without operands. -/
def p0 (opc : BitVec 10) (md : BitVec 6) : Option Parts := some ⟨opc, md, 0, 0, 0, 0⟩
/-- Parts with a branch offset in B and C (R233). -/
def pOff (opc : BitVec 10) (d a : BitVec 10) (off : BitVec 20) : Option Parts :=
  some ⟨opc, 0, d, a, off.extractLsb' 10 10, off.extractLsb' 0 10⟩

/-- The parts of an instruction word; none for a step that is no instruction word. -/
def Instr.parts : Instr → Option Parts
  | .nop _ => p0 0x000 0
  | .mov _ w f d a => pDA 0x001 (mods false false false false f w) d a
  | .iadd _ t d a b => pDAB 0x002 (0#3 ++ t.code) d a b
  | .isub _ t d a b => pDAB 0x003 (0#3 ++ t.code) d a b
  | .imul _ t d a b => pDAB 0x004 (0#3 ++ t.code) d a b
  | .imulh _ t d a b => pDAB 0x005 (0#3 ++ t.code) d a b
  | .imad _ t d a b c => pDABC 0x006 (0#3 ++ t.code) d a b c
  | .imin _ t d a b => pDAB 0x007 (0#3 ++ t.code) d a b
  | .imax _ t d a b => pDAB 0x008 (0#3 ++ t.code) d a b
  | .iabs _ w d a => pDA 0x009 (modITs w) d a
  | .ineg _ w d a => pDA 0x00A (modITs w) d a
  | .lea _ sh zx d a b => pDAB 0x00B (0#2 ++ BitVec.ofBool zx ++ sh) d a b
  | .icmp _ t k d a b => pDAB 0x00C (k.code ++ t.code) d a b
  | .isel _ w d a b c => pDABC 0x00D (modW w) d a b c
  | .iclamp _ t d a b c => pDABC 0x00E (0#3 ++ t.code) d a b c
  | .iadds _ t d a b => pDAB 0x00F (0#3 ++ t.code) d a b
  | .idot4 _ sa sb d a b c => pDABC 0x010 (mods false false false false sb sa) d a b c
  | .land _ w d a b => pDAB 0x040 (modW w) d a b
  | .lor _ w d a b => pDAB 0x041 (modW w) d a b
  | .lxor _ w d a b => pDAB 0x042 (modW w) d a b
  | .andn _ w d a b => pDAB 0x043 (modW w) d a b
  | .lnot _ w d a => pDA 0x044 (modW w) d a
  | .shl _ w d a b => pDAB 0x045 (modW w) d a b
  | .shr _ w d a b => pDAB 0x046 (modW w) d a b
  | .sar _ w d a b => pDAB 0x047 (modW w) d a b
  | .rol _ w d a b => pDAB 0x048 (modW w) d a b
  | .bfx _ w sx d a c => pDAC 0x049 (mods false false false false sx w) d a c
  | .bfi _ w d a b c => pDABC 0x04A (modW w) d a b c
  | .popc _ w d a => pDA 0x04B (modW w) d a
  | .clz _ w d a => pDA 0x04C (modW w) d a
  | .ctz _ w d a => pDA 0x04D (modW w) d a
  | .brev _ w d a => pDA 0x04E (modW w) d a
  | .prmb _ w d a b c => pDABC 0x04F (modW w) d a b c
  | .fadd _ t r d a b => pDAB 0x080 (modFTRM t r) d a b
  | .fsub _ t r d a b => pDAB 0x081 (modFTRM t r) d a b
  | .fmul _ t r d a b => pDAB 0x082 (modFTRM t r) d a b
  | .ffma _ t r d a b c => pDABC 0x083 (modFTRM t r) d a b c
  | .fmin _ t d a b => pDAB 0x084 (0#3 ++ t.code) d a b
  | .fmax _ t d a b => pDAB 0x085 (0#3 ++ t.code) d a b
  | .fabs _ t d a => pDA 0x086 (0#3 ++ t.code) d a
  | .fneg _ t d a => pDA 0x087 (0#3 ++ t.code) d a
  | .fcmp _ t k d a b => pDAB 0x088 (k.code ++ t.code) d a b
  | .frcp _ f d a => pDA 0x089 (modW f) d a
  | .frsq _ f d a => pDA 0x08A (modW f) d a
  | .fsqrt _ f d a => pDA 0x08B (modW f) d a
  | .fexp2 _ d a => pDA 0x08C 0 d a
  | .flog2 _ d a => pDA 0x08D 0 d a
  | .fsinp _ d a => pDA 0x08E 0 d a
  | .fcosp _ d a => pDA 0x08F 0 d a
  | .fclass _ t d a => pDA 0x090 (0#3 ++ t.code) d a
  | .frcpv _ f d a b c => pDABC 0x091 (modW f) d a b c
  | .fsmx _ d a b => pDAB 0x092 0 d a b
  | .fscale _ t d a b => pDAB 0x093 (0#3 ++ t.code) d a b
  | .cvtif _ it ft r d a => pDA 0x0C0 (modCvt it.code ft.code r) d a
  | .cvtfi _ it ft r d a => pDA 0x0C1 (modCvt it.code ft.code r) d a
  | .cvtff _ dty sty r d a => pDA 0x0C2 (modCvt dty.code sty.code r) d a
  | .frnd _ t r d a => pDA 0x0C3 (modFTRM t r) d a
  | .packq _ e d a b c => pDABC 0x0C4 (modW e) d a b c
  | .unpkq _ e d a b => pDAB 0x0C5 (modW e) d a b
  | .bpext _ d a b => pDAB 0x0C6 0 d a b
  | .bpins _ d a b c => pDABC 0x0C7 0 d a b c
  | .shfl _ m w d a b => pDAB 0x100 (0#3 ++ BitVec.ofBool w ++ m.code) d a b
  | .voteQuorum _ d a b => pDAB 0x101 0 d a b
  | .voteCount _ d a => pDA 0x101 1 d a
  | .voteMask _ d a => pDA 0x101 2 d a
  | .voteSame _ w d a => pDA 0x101 (mods false false false w true true) d a
  | .matchLanes _ w d a => pDA 0x102 (modW w) d a
  | .plop _ o1 o2 n d a b c => pDABC 0x103 (0#1 ++ BitVec.ofBool n ++ o2.code ++ o1.code) d a b c
  | .pmov _ f d a => pDA 0x104 (modW f) d a
  | .chseed _ s a => pA 0x105 (0#4 ++ s) a
  | .chlink _ s r a => pA 0x106 (0#3 ++ BitVec.ofBool r ++ s) a
  | .chout _ s d => pD 0x107 (0#4 ++ s) d
  | .elect _ d => pD 0x108 0 d
  | .bra _ off => pOff 0x140 0 0 off
  | .brd _ off a => pOff 0x141 0 a.field off
  | .join _ => p0 0x142 0
  | .brx _ a => pA 0x143 0 a
  | .call _ off d => pOff 0x144 d.field 0 off
  | .ret _ a => pA 0x145 0 a
  | .exit _ => p0 0x146 0
  | .yield _ => p0 0x147 0
  | .sleep _ a => pA 0x148 0 a
  | .trap _ a => pA 0x149 0 a
  | .bkpt _ => p0 0x14A 0
  | .dbnz _ off d => pOff 0x14B d.field 0 off
  | .waitt _ a => pA 0x14C 0 a
  | .ld _ sp sz sx d a c => pDAC 0x180 (modMem sp sz sx) d a c
  | .st _ sp sz a b c => pABC 0x181 (modMem sp sz false) a b c
  | .stp _ sz a b c => pABC 0x182 (modMem .global sz false) a b c
  | .ldf _ op ty d a c => pDAC 0x183 (ty.code ++ op.code) d a c
  | .atom _ op sc d a b c => pDABC 0x184 (sc.code ++ op.code) d a b c
  | .atomc _ w sc d a b c => pDABC 0x185 (sc.code ++ 0#3 ++ BitVec.ofBool w) d a b c
  | .red _ op sc a b c => pABC 0x186 (sc.code ++ op.code) a b c
  | .pref _ l1 a c => some ⟨0x187, modW l1, 0, a.field, 0, c.field⟩
  | .fenceR _ => p0 0x188 0
  | .fenceH _ => p0 0x188 1
  | .fenceE _ => p0 0x188 2
  | .fdef _ a b c => pABC 0x189 0 a b c
  | .ldu _ sp sz sx d a c => pDAC 0x18A (modMem sp sz sx) d a c
  | .stu _ sp sz a b c => pABC 0x18B (modMem sp sz false) a b c
  | .bari _ w a b c => pABC 0x1C0 (modW w) a b c
  | .barv _ p d a => pDA 0x1C1 (mods false false false false p false) d a
  | .barw _ a b => pAB 0x1C2 0 a b
  | .bara _ p a b => pAB 0x1C3 (mods false false false false p false) a b
  | .bart _ d a b => pDAB 0x1C4 0 d a b
  | .barx _ a b => pAB 0x1C5 0 a b
  | .rqres _ w d a b c => pDABC 0x1C6 (modW w) d a b c
  | .rqcmt _ a => pA 0x1C7 0 a
  | .rqtake _ w d a => pDA 0x1C8 (modW w) d a
  | .rqrel _ a => pA 0x1C9 0 a
  | .rend _ => p0 0x1CA 0
  | .cpin _ t c' a b c => pABC 0x200 (modCopy t c') a b c
  | .cpout _ t c' d a b c => pDABC 0x201 (modCopy t c') d a b c
  | .cppeer _ t c' d a b c => pDABC 0x202 (modCopy t c') d a b c
  | .cpgath _ t c' d a b c => pDABC 0x203 (modCopy t c') d a b c
  | .cpsh _ t c' a b c => pABC 0x204 (modCopy t c') a b c
  | .pub _ t a => pA 0x205 (t ++ 0#3) a
  | .cpwp _ c' d => pD 0x206 (0#4 ++ c') d
  | .cpcan _ c' => p0 0x207 (0#4 ++ c')
  | .mma _ ty ac d a b c => pDABC 0x240 (0#2 ++ BitVec.ofBool ac ++ ty.code) d a b c
  | .mmax _ fa fb ac d a b c => pDABC 0x241 (mods false false ac false fb fa) d a b c
  | .mmap _ pl ac ce bs d a b =>
    pDAB 0x242 (BitVec.ofBool bs ++ BitVec.ofBool ce ++ BitVec.ofBool ac ++ pl) d a b
  | .accz _ p d => pD 0x243 (modW p) d
  | .accrd _ p d a b => pDAB 0x244 (modW p) d a b
  | .accwr _ p d a b => pDAB 0x245 (modW p) d a b
  | .accst _ f d a b c => pDABC 0x246 (0#3 ++ f.code) d a b c
  | .accld _ f d a => pDA 0x247 (0#3 ++ f.code) d a
  | .hcfg _ a => pA 0x280 0 a
  | .hld _ a b c => pABC 0x281 0 a b c
  | .hrun _ t a b c => pABC 0x282 (t ++ 0#3) a b c
  | .hgath _ d a b => pDAB 0x283 0 d a b
  | .hexit _ d a b => pDAB 0x284 0 d a b
  | .hclr _ a b => pAB 0x285 0 a b
  | .postInstruction _ tg d a c => pDAC 0x2C0 (0#4 ++ tg.code) d a c
  | .spawn _ tg d a c => pDAC 0x2C1 (0#4 ++ tg.code) d a c
  | .tend _ a => pA 0x2C2 0 a
  | .jinit _ a b c => pABC 0x2C3 0 a b c
  | .launchInstruction _ d a => pDA 0x2C4 0 d a
  | .claim _ w t d a => pDA 0x2C5 (mods false false false false t w) d a
  | .give _ t a => pA 0x2C6 (mods false false false false t false) a
  | .dpush _ q a => pA 0x2C7 (0#4 ++ q) a
  | .dclose _ q => p0 0x2C8 (0#4 ++ q)
  | .srd _ d a => pDA 0x300 0 d a
  | .swr _ a b => pAB 0x301 0 a b
  | .rtu _ m => p0 0x302 (0#4 ++ m.code)
  | .pack _ a b => pAB 0x303 0 a b
  | .stksv _ k a => pA 0x304 (0#4 ++ k) a
  | .stkld _ k a => pA 0x305 (0#4 ++ k) a
  | .rts _ => p0 0x306 0
  | .tlbinv _ a b => pAB 0x307 0 a b
  | _ => none

/-- The literals of an instruction's LIT operands, in the order D, A, B, C (R232). -/
def Instr.literals (i : Instr) : List W64 :=
  i.operands.filterMap fun x => match x.2 with | .lit v => some v | _ => none

/-- The instruction word of an instruction and the literals it takes; none for a step that is no word. -/
def encode (i : Instr) : Option (W64 × List W64) :=
  match i.parts, i.head? with
  | some p, some h =>
    some (Fields.word { opc := p.opc, gp := h.gp, gn := BitVec.ofBool h.gn, la := h.la, d := p.d, a := p.a, b := p.b,
                        c := p.c, md := p.md }, i.literals)
  | _, _ => none

end Sys2Proof
end

