-- ==== Sys2Proof/Machine/Bytes.lean ====
section
/-!
DEFINITION. Bytes, lanes and bits: little-endian integers (R61, R83, R213), lane masks and their order (R121).
-/
namespace Sys2Proof.Machine

/-- The `n` low bytes of a number, least significant first. -/
def leBytes : Nat → Nat → List Byte
  | 0, _ => []
  | n + 1, v => BitVec.ofNat 8 v :: leBytes n (v / 256)

/-- The number whose bytes are given, least significant first. -/
def ofLe : List Byte → Nat
  | [] => 0
  | b :: r => b.toNat + 256 * ofLe r

/-- The number whose bytes are given, most significant first. -/
def ofBe (l : List Byte) : Nat := ofLe l.reverse

/-- The `n` low bytes of a number, most significant first. -/
def beBytes (n v : Nat) : List Byte := (leBytes n v).reverse

/-- `n` bytes of a list from position `i`; bytes past its end are zero. -/
def slice (l : List Byte) (i n : Nat) : List Byte := (List.range n).map fun k => l.getD (i + k) 0

/-- The little-endian number in `n` bytes of a list from position `i`. -/
def leAt (l : List Byte) (i n : Nat) : Nat := ofLe (slice l i n)

/-- Every byte of the list is zero. -/
def allZero (l : List Byte) : Bool := l.all (· == 0)

/-- The list cut into pieces of `k` (at most `fuel` pieces). -/
def chunks {α : Type} (k : Nat) : Nat → List α → List (List α)
  | 0, _ => []
  | _, [] => []
  | fuel + 1, l => l.take k :: chunks k fuel (l.drop k)

/-- The lanes of a mask in lane order (R121). -/
def lanesOf (m : W32) : List Nat := (List.range 32).filter fun l => m.getLsbD l

/-- The mask of one lane. -/
def laneBit (l : Nat) : W32 := (1 : W32) <<< l

/-- The mask of a list of lanes. -/
def maskOf (ls : List Nat) : W32 := ls.foldl (fun m l => m ||| laneBit l) 0

/-- The lanes of a mask at and above `f`. -/
def fromLane (m : W32) (f : Nat) : W32 := m &&& (BitVec.allOnes 32 <<< f)

/-- How many bits of a mask are set. -/
def popc (m : W32) : Nat := (lanesOf m).length

/-- The lowest lane of a mask. -/
def lowest (m : W32) : Option Nat := (lanesOf m).head?

/-- `v` rounded up to a multiple of `n`. -/
def alignUp (v n : Nat) : Nat := (v + n - 1) / n * n

/-- The least power of two from `p` that is at least `n`, doubling at most `fuel` times. -/
def powAtLeast (n : Nat) : Nat → Nat → Nat
  | p, 0 => p
  | p, fuel + 1 => if p ≥ n then p else powAtLeast n (2 * p) fuel

/-- The list with `f` applied to its element at position `i`. -/
def modifyAt {α : Type} (f : α → α) : Nat → List α → List α
  | _, [] => []
  | 0, x :: r => f x :: r
  | n + 1, x :: r => x :: modifyAt f n r

/-- The bits of a value of `n` bits, from the value as a number. -/
def bitsOf (n v : Nat) : List Bool := (List.range n).map fun i => v.testBit i

/-- The lists' elements in ascending order of a key, keeping the order of equal keys. -/
def insertBy {α : Type} (k : α → Nat) (x : α) : List α → List α
  | [] => [x]
  | y :: r => if k x < k y then x :: y :: r else y :: insertBy k x r

/-- A list in ascending order of a key. -/
def sortBy {α : Type} (k : α → Nat) (l : List α) : List α := l.foldl (fun acc x => insertBy k x acc) []

end Sys2Proof.Machine
end

