-- ==== Sys2Proof/Config.lean ====
section
/-!
DEFINITION. What the manual leaves open: free values and constants of one implementation.
A constant here has no body, so nothing can be proved of the value it gives.
-/
namespace Sys2Proof.Config

/-- The free values: `freeValue w n` is the `n`-th value of width `w` that the manual leaves
unspecified (log entry 2). -/
opaque freeValue (w : Nat) : Nat → BitVec w

/-- A byte the manual leaves unspecified: the contents of storage that no write of the current owner
has reached (R55, R148, R218), by the epoch of the storage and the place (log entry 3). -/
opaque freeByte (epoch place : Nat) : BitVec 8

/-- A word of an accumulator row or a hurdle cell that holds no defined value (R67, R347), by epoch and
place (log entry 4). -/
opaque freeRow (epoch place : Nat) : BitVec 32

/-- The address, size, kind and space that a lane record holds for an uncorrectable error in a register or in an accumulator
row, which no access reads (R214; log entry 110). -/
opaque freeRecord (n : Nat) : BitVec 74

/-- The chain carry that a trap record holds where the instruction has no chain input (R213; log entry 111). -/
opaque freeCarry (n : Nat) : BitVec 64

/-- The value of %clk in ordinary mode, a figure of the implementation's timing (R102, R2; log entry 5). -/
opaque freeClock (n : Nat) : BitVec 64

/-- The mask ROM of the port dies: its contents (R17, R60; log entry 6). -/
opaque maskRom : List (BitVec 8)

/-- The hash of the Garboesk root public key that the mask ROM holds (R17; log entry 6). -/
opaque rootHash : BitVec 256

/-- The bytes of an SPDM message or signature whose value the manual does not give (R59; log entry 7). -/
opaque freeSpdm (request place : Nat) : BitVec 8

/-- Which cores an owner's placement set holds (R72): the rank of a core for the `n`-th owner opened. The set is made of
the cores of the lowest ranks (log entry 8). -/
opaque freeSet (n core : Nat) : Nat

/-- The bytes of the life report before the first recomputation that no rule defines (R23; log entry 18). -/
opaque freeReport (n : Nat) : BitVec 8

/-- A byte of QUERY's status report, from the figures it tells: no rule gives its layout (R46; log entry 18). -/
opaque statusByte (figures : List Nat) (n place : Nat) : BitVec 8

/-- The length of the status report of QUERY (R46; log entry 18). -/
opaque statusLength (figures : List Nat) (n : Nat) : Nat

/-- The port that carries an owner's traffic with a package of its peer table (R26; log entry 117). -/
opaque freePort (owner package : Nat) : Nat

/-- What a port die's unclonable function gives at every start, from which its identity key pair is derived (R18; log
entry 118). -/
opaque unclonable (die : Nat) : Nat

/-- A number drawn for an ECDSA signature (R59; log entry 7). -/
opaque freeNonce (n : Nat) : Nat

end Sys2Proof.Config
end

