-- ==== Sys2Proof/Machine/Tab.lean ====
section
/-!
DEFINITION. Tables: sparse data by a numeric key, a list of pairs with strictly rising keys. Registers, memory
and the device's records are held in tables; a table with a default lists no entry equal to the default.
-/
namespace Sys2Proof.Machine

/-- A table from numbers to `β`. -/
abbrev Tab (β : Type) := List (Nat × β)

/-- The entry at key `k`. -/
def Tab.find {β : Type} : Tab β → Nat → Option β
  | [], _ => none
  | (j, v) :: r, k => if j = k then some v else Tab.find r k

/-- The entry at key `k`, or `d` where none is listed. -/
def Tab.getD {β : Type} (t : Tab β) (k : Nat) (d : β) : β := (Tab.find t k).getD d

/-- The table with `v` at key `k`. -/
def Tab.put {β : Type} : Tab β → Nat → β → Tab β
  | [], k, v => [(k, v)]
  | (j, u) :: r, k, v =>
    if k < j then (k, v) :: (j, u) :: r
    else if k = j then (k, v) :: r
    else (j, u) :: Tab.put r k v

/-- The table without key `k`. -/
def Tab.drop {β : Type} : Tab β → Nat → Tab β
  | [], _ => []
  | (j, v) :: r, k => if j = k then Tab.drop r k else (j, v) :: Tab.drop r k

/-- The table with `v` at key `k`, where an unlisted key reads as `d`: a value equal to `d` is not listed. -/
def Tab.setD {β : Type} [DecidableEq β] (t : Tab β) (d : β) (k : Nat) (v : β) : Tab β :=
  if v = d then Tab.drop t k else Tab.put t k v

/-- The entries whose key passes a test. -/
def Tab.keep {β : Type} (f : Nat → Bool) : Tab β → Tab β
  | [] => []
  | (j, v) :: r => if f j then (j, v) :: Tab.keep f r else Tab.keep f r

/-- Every entry changed by a function of its key and value. -/
def Tab.mapVal {β γ : Type} (f : Nat → β → γ) : Tab β → Tab γ
  | [] => []
  | (j, v) :: r => (j, f j v) :: Tab.mapVal f r

/-- The values of a list as entries at consecutive keys. -/
def Tab.run {β : Type} (k : Nat) : List β → Tab β
  | [] => []
  | v :: r => (k, v) :: Tab.run (k + 1) r

/-- The table with the values of a list at consecutive keys from `k`. -/
def Tab.splice {β : Type} (t : Tab β) (k : Nat) (vs : List β) : Tab β :=
  Tab.keep (fun j => decide (j < k)) t ++ Tab.run k vs ++ Tab.keep (fun j => decide (k + vs.length ≤ j)) t

/-- The values, in rising order of their keys. -/
def Tab.vals {β : Type} : Tab β → List β
  | [] => []
  | (_, v) :: r => v :: Tab.vals r

/-- Every key of the table lies above `k`, and the keys rise strictly. -/
def Tab.above {β : Type} (k : Nat) : Tab β → Bool
  | [] => true
  | (j, _) :: r => decide (k < j) && Tab.above j r

/-- The canonical form: the keys rise strictly. -/
def Tab.wf {β : Type} : Tab β → Bool
  | [] => true
  | (j, _) :: r => Tab.above j r

/-- The least number from `k` upward that is no key of the table, looking at `n` candidates. -/
def Tab.fresh {β : Type} (t : Tab β) (k : Nat) : Nat → Nat
  | 0 => k
  | n + 1 => if (Tab.find t k).isSome then Tab.fresh t (k + 1) n else k

end Sys2Proof.Machine
end

