-- ==== Sys2Proof/Machine/State.lean ====
section
/-!
DEFINITION. The state of the KN-8, as plain data: the device (spec/01, spec/02), its owners (spec/03), their
launches, teams and queues (spec/04, spec/05), the waves and drovers (spec/06, spec/07), the cores' storage
(spec/08, spec/17) and the engines (spec/16, spec/17). `State.reset` is the module right after reset, before
start-up (R20) has run.
-/
namespace Sys2Proof.Machine

/-- Why the machine stops. -/
inductive Fault where
  /-- Raised by the meaning of an instruction word when no wave or drover is selected to execute it. Safe: the
  hardware issues a word only for an agent. -/
  | noAgent
  deriving DecidableEq, Repr

/-- Why an instruction has no meaning here. -/
inductive Refusal where
  /-- Raised by `exec` for an instruction the model does not give a meaning yet. Safe. -/
  | notModelled (mnemonic : String)
  deriving DecidableEq, Repr

/-! ### Memory -/

/-- Device memory: a byte for each written storage location, keyed by stack × 2^36 + offset (R9, R10).
A location that is not listed holds no written value; it reads as a free byte (R55). -/
abbrev Memory := List Host.Cell

/-- The canonical form of memory: addresses rise strictly. No listed entry equals what an unlisted
address reads as, because an unlisted address has no value. -/
def Memory.wf (m : Memory) : Bool := Tab.wf m

/-- What an unlisted address holds: no written value. -/
def Memory.unlisted : Option Byte := none

/-- An error in an ECC unit (R11, R218). -/
inductive EccError where
  | correctable
  | uncorrectable
  deriving DecidableEq, Repr

/-! ### Owners: translation, commands, queues -/

/-- One page of an owner (R146). `frame` is the device physical address of its first byte; `epoch` numbers the
mapping for its unspecified contents (R55). -/
structure Page where
  va : Nat
  log2 : Nat
  r : Bool
  w : Bool
  x : Bool
  homeDie : Option Nat
  remote : Option Nat
  onDemand : Bool
  frame : Option Nat
  epoch : Nat
  set : Option Nat
  deriving DecidableEq, Repr

/-- A shadow set (R46, R175): its range and the frames of the side that is hidden now. -/
structure ShadowSet where
  va : Nat
  pages : Nat
  shadow : List (Nat × Nat)   -- frame and epoch of each shadow page
  deriving DecidableEq, Repr

/-- A completion record (R51). -/
structure Completion where
  tag : W64
  status : Nat
  code : Nat
  version : Nat
  r0 : W64
  r1 : W64
  r2 : W64
  deriving DecidableEq, Repr

/-- How far a command has come (R47). -/
inductive CmdPhase where
  | received      -- committed in the command ring
  | dispatched    -- taken by the owner's firmware, its effect not yet begun
  | running       -- its effect begun, events outstanding
  | performed     -- every event performed, completion record not yet committed
  deriving DecidableEq, Repr

/-- A command of an owner, from its commit in the ring to its completion. -/
structure Cmd where
  bytes : List Byte
  port : Nat
  flow : Flow
  phase : CmdPhase
  status : Nat
  r0 : W64
  r1 : W64
  r2 : W64
  progress : Nat          -- bytes or pages already performed
  pageWait : Option Nat   -- the page a fault of the command waits for (R52)
  launch : Option Nat     -- the launch a LAUNCH started
  shadowsDone : Bool
  got : List Byte         -- what it has read so far of an image
  asked : Option Nat      -- its outstanding remote request (R33)
  answer : Option (Bool × List Byte)
  deriving DecidableEq, Repr

/-- The four counters of a byte ring (R78), for a ring the device keeps. -/
structure RingCtl where
  log2 : Nat
  reserve : Nat
  commit : Nat
  take : Nat
  release : Nat
  deriving DecidableEq, Repr

/-- A task record (R83). -/
structure TaskRec where
  control : W64
  arg : W64
  join : W64
  depth : W32
  ownerTag : W32
  deriving DecidableEq, Repr

/-- A record of a task queue (R79, R80), with what the device knows of the task. `parked` names the saved
team of a resume card (R97). `passed` counts the leads chosen ahead of it (R89). -/
structure QueueRec where
  pos : Nat
  len : Nat
  type : Nat
  committed : Bool
  held : Bool
  released : Bool
  ptag : Nat
  card : TaskRec
  index : W64
  launch : Option Nat
  version : Nat
  parked : Option Nat
  passed : Nat
  deriving DecidableEq, Repr

/-- A task queue: core queue or die queue (R87). -/
structure TaskQueue where
  ctl : RingCtl
  recs : List QueueRec
  deriving DecidableEq, Repr

/-- A commit that waits for room in its queue (R87). -/
structure WaitingCommit where
  queue : Nat
  card : TaskRec
  launch : Option Nat
  ptag : Nat
  version : Nat
  parked : Option Nat
  cmd : Option Nat         -- the host POST that waits with it
  wave : Option Nat        -- the wave whose POST or SPAWN waits with it
  deriving DecidableEq, Repr

/-- An initialised join object that holds a pool entry (R88, R359). -/
structure JoinEntry where
  address : Nat
  launch : Option Nat
  deriving DecidableEq, Repr

/-- The host completion ring as the device knows it (R51). -/
structure HostRing where
  control : Nat
  base : Nat
  log2 : Nat
  reserve : Nat
  commit : Nat
  deriving DecidableEq, Repr

/-- An owner (R39). -/
structure Owner where
  protectedOnly : Bool
  poolQuota : Nat
  nesting : Nat
  ceiling : Nat
  frameQuota : Nat
  framesUsed : Nat
  deadlineUs : Nat
  spanUs : Nat
  fabric : BitVec 128
  rmaKey : W32
  keys : OwnerKeys
  peers : List (BitVec 128 × W32)
  ownPackage : Nat
  placement : List Nat          -- global core numbers, ascending (R72)
  cmdRing : RingCtl
  cmds : Tab Cmd
  nextCmd : Nat
  nonces : List Nat
  hostRing : HostRing
  completions : List Completion -- records not yet written for lack of room, oldest first
  pages : List Page
  sets : Tab ShadowSet
  queues : Tab TaskQueue        -- core queues by global core number; the die queue of die d at 512 + d
  commits : List WaitingCommit
  pool : Nat
  joins : List JoinEntry
  deadJoins : List Nat          -- join objects whose launch completed first: their continuations are never posted (R359)
  launchSeq : Nat
  taskCounter : W64
  lastGeneration : W32
  lastOffer : Option (Nat × List Byte)   -- the lead and the record of the last SPAN_OFFER accepted (R37)
  illegalCount : Nat
  malformedCount : Nat          -- of records that the device meets in its own queues (R321; log entry 131)
  closing : Bool
  deriving DecidableEq, Repr

/-! ### Launches and teams -/

/-- The decoded launch record (R61, R62). -/
structure LaunchRec where
  entry : W64
  arg : W64
  widths : List Nat
  extents : List Nat
  team : Nat
  cluster : Nat
  roles : List Nat
  units : Nat
  tiles : Nat
  barriers : Nat
  scratch : Nat
  priority : Nat
  round : Bool
  fused : Bool
  spanned : Bool
  hurdle : Bool
  roundLen : Nat
  spanCount : Nat
  droverEntry : W64
  seed : W64
  join : W64
  generation : W32
  utvec : W64
  trapArea : W64
  deriving DecidableEq, Repr

/-- The state of a spanned launch at one package (R35–R38). -/
structure Span where
  lead : Bool
  generation : W32
  barrier : Option W32          -- the start barrier, until the package's part completes (R36)
  before : List Nat             -- commands in a peer's ring before SPAN_OFFER that its start waits for (R35)
  acked : List Nat
  done : List (Nat × PartEnd × Nat) -- peer, how its part ended, and the trap cause
  reserved : List (Nat × Nat)   -- each team not yet placed, by index, and the core reserved for it (R35)
  aborted : Bool
  ownDone : Bool
  deriving DecidableEq, Repr

/-- How far the decrement of a launch's join object has come (R76): not begun, waiting for a page, asked of its home package,
answered. -/
inductive JoinStep where
  | toDo
  | page (va : Nat)
  | asked (request : Nat)
  | answered (ok : Bool) (data : List Byte)
  deriving DecidableEq, Repr

/-- A launch accepted for an owner (R69). -/
structure Launch where
  owner : Nat
  seq : Nat
  lr : LaunchRec
  depth : W32
  parent : Option Nat           -- the launch it belongs to (R50, R361); none for a host launch, or under a host-posted task
  cmd : Option Nat              -- the LAUNCH command, for a host launch
  charged : Bool                -- it holds a pool entry until its last team is placed (R88)
  next : Nat                    -- the next team index to place
  heldTeams : List Nat          -- not placed teams a PREEMPT named (R77)
  late : List Nat               -- held teams that were passed over and that a RESUME named since (R77)
  started : Bool                -- round mode: the placement at its start has happened (R75)
  parked : List Nat             -- pre-empted teams of the launch, by saved-team number
  placed : Nat                  -- teams placed so far (R76)
  status : Nat
  cause : Nat
  round : Bool
  snapshot : Memory             -- memory as the last bell left it (R181)
  pages : List Page             -- the owner's pages as the last bell left them
  resources : List (List Nat)   -- what the teams on the owner's cores held at the last bell (R180)
  taskCounter : W64             -- round-mode task index (R90)
  fresh : Bool                  -- something happened since the last bell (R180)
  ringing : List Nat            -- agents a bell held by a page request has still to perform (R185)
  dirty : List (Nat × Nat)      -- die and sector of each line written and not yet written back (R50)
  span : Option Span
  joining : JoinStep            -- at its completion (R76)
  complete : Bool
  deriving DecidableEq, Repr

/-- A named barrier of a team (R313). `observedFailed` is the failed mark of the phase completed last. -/
structure Barrier where
  init : Bool
  waveUnits : Bool
  ea : Nat
  eb : Nat
  arrivals : Nat
  bytes : Nat
  phase : Bool
  failed : Bool
  observedFailed : Bool
  deriving DecidableEq, Repr

/-- A drover queue (R113). -/
structure PopQueue where
  entries : List W64
  closed : Bool
  deriving DecidableEq, Repr

/-- A pending pre-emption request of a team (R95). -/
structure Preempt where
  byPolicy : Bool
  waiting : Option (Nat × Nat)  -- the launch and the unit's first index that the policy makes room for
  back : Bool                   -- the team returns by itself: the policy's victim, or one that a RESUME has named since (R77)
  effective : Bool              -- in round mode it takes effect at the next bell
  drained : Bool                -- a wave without a handler has taken its pre-emption trap (R98)
  charged : Nat                 -- frames of the context area (R397)
  deriving DecidableEq, Repr

/-- A team resident on a core (R71). -/
structure Team where
  owner : Nat
  launch : Option Nat           -- none for a host-posted task wave
  index : Nat                   -- team index, or task index of lane 0 for a task wave
  group : Nat
  core : Nat                    -- global core number
  task : Bool
  priority : Nat
  waves : List Nat              -- wave numbers in ascending wave index
  drover : Option Nat
  slot : Nat                    -- the wave slot of a task wave (R91)
  windowBase : Nat              -- place of the window in the core's scratchpad, in bytes
  windowUnits : Nat
  barCount : Nat
  bars : Tab Barrier
  tiles : List Nat              -- physical tiles, A0 first
  spareUnits : Nat
  spareTiles : List Nat
  hurdle : Bool
  queues : Tab PopQueue
  preempt : Option Preempt
  version : Nat                 -- protocol version of the host POST of a task wave
  arg : W64                     -- lane 0's argument pointer of a task wave
  others : List Nat             -- further launches whose records a task wave runs (R50, R89)
  deriving DecidableEq, Repr

/-! ### Waves and drovers -/

/-- An entry of a split stack (R135). -/
structure StackEntry where
  join : W64
  mask : W32
  fall : W64
  returned : Bool
  deriving DecidableEq, Repr

/-- A register as the lookahead check names it (R234). -/
inductive RegName where
  | v (n : Nat)
  | o (n : Nat)
  | l
  | s (n : Nat)
  | p (n : Nat)
  deriving DecidableEq, Repr

/-- A lookahead window still open: how many instruction words are left in it, and what is pending. -/
structure Window where
  left : Nat
  regs : List RegName
  deriving DecidableEq, Repr

/-- The answer of a remote access for one lane (R33, R34). -/
structure RemoteReply where
  lane : Nat
  ok : Bool
  data : List Byte
  deriving DecidableEq, Repr

/-- The fault of one lane (R214): its access's address, size, kind and space, as a lane record codes them. -/
structure LaneFault where
  lane : Nat
  cause : Nat
  address : W64
  size : Nat
  kind : Nat
  space : Nat
  deriving DecidableEq, Repr

/-- State that belongs to no lane and may hold an uncorrectable error (R218). -/
inductive Part where
  | stack (wave split : Nat)
  | context (wave : Nat)
  | chain (wave slot : Nat)
  | barrier (team bar : Nat)
  | cell (core cell : Nat)
  deriving DecidableEq, Repr

/-- A storage location that the system handler logs (R218). -/
inductive ErrorPlace where
  | sector (k : Nat)
  | granule (core g : Nat)
  | register (wave : Nat) (r : RegName) (lane : Nat)
  | rowElement (core i : Nat)
  | part (p : Part)
  deriving DecidableEq, Repr

/-- A trap as it is raised (R210–R214). `kind` as in `TrapCtx`. -/
structure Trap where
  cause : Nat
  kind : Nat
  split : Nat
  header : W64             -- address of the clause header
  index : Nat              -- word index within the clause
  word : W64               -- the instruction word
  active : W32
  fault : W32
  exec : W32
  resume : Nat
  deferred : W32
  carry : W64
  slot : Option Nat        -- the chain slot of a chained instruction
  pops : Tab W64
  lanes : List LaneFault
  argument : W64
  sourceKind : Nat         -- R213 byte 62 for 0x21
  source : Nat
  failed : Nat
  counted : Bool           -- found when a clause was checked or a word decoded (R217)
  late : Bool              -- met at a bell by an action that its agent has gone on past (R184)
  errs : List ErrorPlace   -- the storage of a machine check that its lane records do not name (R218)
  fatal : Bool             -- an error in state that belongs to no lane terminates the team (R218)
  sent : Bool              -- its record is on its way to a remote trap area (R68)
  deriving DecidableEq, Repr

/-- An instruction that continues at some of its lanes: after a resuming fault (R133), a suppressing fault
retried (R134, R215), or a lane that waits for a remote answer (R33). -/
structure Retry where
  lanes : W32
  skip : Bool              -- mode 10: its lanes are treated as guarded off (R132, R215)
  counted : Bool           -- it has retired already, with a suppressing fault (R134)
  carry : W64
  repop : Bool             -- it executes anew and pops its queues again (R113, R215)
  pops : Tab W64           -- pop-retry values (R113)
  replies : List RemoteReply
  execMask : W32           -- the executing mask of the instruction as it began
  owed : Option Trap       -- the trap it takes once what it waits for has come
  deriving DecidableEq, Repr

/-- What an agent waits for. -/
inductive Wait where
  | none
  | tokens (mask : BitVec 8)
  | barrier (bar : Nat) (phase : Bool)
  | peerBarrier
  | pop (queue : Nat)
  | pushFull (queue : Nat)
  | chainEmpty (slot : Nat)
  | chainFull (slot : Nat) (taken : Bool)   -- the input is consumed already (R132)
  | seedFull (slot : Nat)
  | claim
  | tile
  | engines
  | remote
  | posted
  | ringSpace
  | ringTake
  | poolMax
  | commitRoom
  | member
  | page (va : Nat)
  deriving DecidableEq, Repr

/-- A split (R135). `clause` holds the clause being issued as it was fetched, header first; it is empty between
clauses. `spill` holds the stack entries moved to the spill area (R140), newest first. -/
structure Split where
  pc : W64
  clause : List W64
  word : Nat
  mask : W32
  context : List W64
  stack : List StackEntry
  spill : List StackEntry
  arrived : Option W64
  windows : List Window
  retry : Option Retry
  skipBreak : Bool         -- BKPT resumed from its own trap retires (R286)
  tokensMet : Bool         -- the clause's token waits are satisfied (R227)
  waiting : Wait           -- what its next word or clause waits for
  fetched : List (Nat × Option W64)   -- clause words that a home package has given; none where it failed (R33)
  fetchAt : Option Nat     -- the address of the clause word that a home package is asked for
  readySince : Option Nat  -- since when its next clause can issue (R118)
  deriving DecidableEq, Repr

/-- A chain slot of a wave (R125–R127). `link` is the predecessor's wave index. -/
structure ChainSlot where
  seed : W64
  link : Option Nat
  queue : List W64
  out : W64
  produced : Bool
  deriving DecidableEq, Repr

/-- An entry of a wave's reservation or hold table (R319). -/
structure RingEntry where
  record : Nat
  control : Nat
  deriving DecidableEq, Repr

/-- Handler modes, as %hmode reads them (R365). -/
inductive HMode where
  | none | user | system
  deriving DecidableEq, Repr

/-- The trap context of a wave (R212), with what the record says and RTU needs (R215). -/
structure TrapCtx where
  cause : Nat
  kind : Nat               -- 0 precise, 1 suppressing, 2 resuming, 3 after, 4 boundary, 5 at a clause header
  split : Nat
  resumeLane : Nat
  faultMask : W32
  execMask : W32
  deferred : W32
  carry : W64
  splits : Tab Split
  latch : Tab W64
  pops : Tab W64
  slot : Option Nat        -- the chain slot of a chained instruction
  lanes : List LaneFault   -- the lane records its trap record holds
  late : Bool              -- as in `Trap`
  turn : Nat               -- the split whose turn it was
  begun : Option Nat       -- the split whose clause was being issued
  deriving DecidableEq, Repr

/-- What a system handler holds (R208, R212): its cause and where the wave goes after RTS (R368). -/
structure SystemCtx where
  cause : Nat
  toUser : Option TrapCtx
  deriving DecidableEq, Repr

/-- Whether a wave still runs. -/
inductive Life where
  | running | exited | packed
  deriving DecidableEq, Repr

/-- How the debug agent holds a wave (R384, R390): it has stopped at a breakpoint in a split, was caught before a split's retry, or
is held after a step; or it may issue one word, of a given split or of any, or completes the word that a step issued and that
waited. -/
inductive Stopped where
  | no
  | breakpoint (split : Nat)
  | caught (split : Nat)
  | held
  | stepping (split : Option Nat)
  | waits (split : Nat) (pc : W64) (word : Nat)
  deriving DecidableEq, Repr

/-- Where a buffered store goes (R181, R182). -/
inductive Place where
  | global (owner va : Nat)
  | scratch (core address : Nat)
  deriving DecidableEq, Repr

/-! ### Engines (R170–R174) -/

/-- Which copy instruction a copy comes from. -/
inductive CopyKind where
  | cpin | cpout | cppeer | cpgath | cpsh
  deriving DecidableEq, Repr

/-- A copy format descriptor (R324). -/
structure CopyDesc where
  format : Nat
  qmode : Nat
  barrier : Option Nat
  rows : Nat
  rowb : Nat
  growb : Nat
  gstride : Nat
  scoff : W64
  deriving DecidableEq, Repr

/-- Where a gather takes its row indices from (R329). -/
inductive IndexSource where
  | list (va : Nat)
  | queue (q : Nat)
  deriving DecidableEq, Repr

/-- One destination write of a copy: its place, the team whose window it lies in, the shadow set it goes to the shadow
side of, and the bytes. -/
structure CopyWrite where
  place : Place
  team : Option Nat
  set : Option Nat
  data : List Byte
  deriving DecidableEq, Repr

/-- A copy under way (R170, R171): its operands, the source pieces it has still to read, what it has read, the writes it has
still to perform, and how many destination bytes it has written. -/
structure CopyOp where
  kind : CopyKind
  desc : CopyDesc
  g : Nat
  s : Nat
  dest : Nat               -- peer destination offset
  peers : List (Nat × Nat) -- destination team and window place of each peer position, ascending
  scale : W32
  index : IndexSource
  set : Nat                -- the shadow set of a CPSH
  phase : Nat              -- 0 not begun, or a gather between rows; 1 reading; 2 writing
  reads : List (Nat × Nat) -- address and length
  got : List Byte
  writes : List CopyWrite
  written : Nat
  row : Nat                -- rows a gather has taken
  cancelled : Bool         -- CPCAN has cancelled it while a write is under way at its home package (R170)
  asked : Option Nat       -- the outstanding remote request
  answer : Option (Bool × List Byte)
  deriving DecidableEq, Repr

/-- A matrix multiply under way, with its operands as read at issue (R337). -/
inductive MatOp where
  | mma (ty : MmaTy) (accum : Bool) (scale : W32)
  | mmax (fa fb accum : Bool) (sa sb : W32)
  | mmap (planes : Nat) (accum centre bsigned : Bool)
  deriving DecidableEq, Repr

/-- What an engine operation does. -/
inductive EngineOp where
  | copy (c : CopyOp)
  | hrun (base stride exits : Nat) (mask : W32)
  | matrix (m : MatOp) (tiles : List Nat) (mask : W32) (a b sideA sideB : List Byte)
  | publish (set : Nat)
  deriving DecidableEq, Repr

/-- An engine operation issued and not completed. -/
structure Engine where
  wave : Nat
  team : Nat
  token : Option Nat
  channel : Option Nat
  op : EngineOp
  pageWait : Option Nat
  deriving DecidableEq, Repr

/-- One lane's buffered store: its access, its place and its bytes. -/
structure LaneStore where
  access : LaneFault
  place : Place
  data : List Byte
  deriving DecidableEq, Repr

/-- What a round-mode agent has buffered for the bell (R182, R184, R185). -/
inductive Act where
  | store (place : Place) (data : List Byte)
  | stores (tag : Nat) (t : Trap) (lanes : List LaneStore)   -- an instruction's lane stores, with the trap that reports a fault
  | awaits (request : Nat) (reply : Option Bool) (failure rest : Act)   -- a remote store: what follows its answer (R33)
  | lost                     -- the store of a trap record has failed: its team terminates (R68)
  | nothing
  | engine (e : Engine)
  | running (engine : Nat)   -- an engine operation a bell has begun and not completed
  | bari (bar : Nat) (waveUnits : Bool) (ea eb : Nat) (t : Trap)   -- with the trap that reports a refusal (R184)
  | bara (peer : Option Nat) (bar bytes : Nat) (t : Trap)   -- of the own team or of a peer position
  | barx (bar n : Nat) (t : Trap)
  | hcfg (word : W64)
  | cells (first : Nat) (images : List (BitVec 128))
  | word (split : Nat) (p : Split)   -- the lanes of an instruction whose other lanes faulted at issue (R184)
  | late (t : Trap) (again : Act)   -- a fault that a bell has met in an action: it is delivered when no handler runs, and mode 00
                                    -- performs the action again (R184, R215)
  | raised (t : Trap)        -- the trap of the instruction that a bell performed, taken when the next round starts (R184)
  deriving DecidableEq, Repr

/-- A wave or a drover (R99, R112). A drover has lane 0 only, one split, and no V, O, L or chain state. -/
structure Wave where
  owner : Nat
  launch : Option Nat
  team : Nat
  index : Nat
  role : Nat
  task : Bool
  drover : Bool
  emask : W32
  widBase : W64                 -- WID bits of lane 0 of a launch wave
  taskIndex : Tab W64           -- task index of each lane of a task wave
  depths : Tab W32              -- nesting depth by lane, where it is not `depth`
  depth : W32
  units : Nat
  v : Tab W32                   -- V register n of lane l at 32 × n + l; unlisted 0
  o : Tab W32                   -- O register n of lane l at 32 × n + l; unlisted 0
  latch : Tab W64               -- L by lane; unlisted 0
  s : Tab W64                   -- S registers; unlisted 0
  p : Tab W32                   -- P0–P6 as lane masks; unlisted 0
  busy : BitVec 8               -- tokens that are busy
  tokenErrors : BitVec 8        -- tokens with an engine error not yet delivered (R219)
  chains : Tab ChainSlot
  splits : Tab Split
  fstat : W32
  hstat : W32
  fabs : Tab W32
  utvec : W64
  trapArea : W64
  trapCtx : Option TrapCtx
  sysCtx : Option SystemCtx
  hmode : HMode
  wp : Tab W64
  failedStp : Nat
  reserved : List RingEntry
  holds : List RingEntry
  rstack : List W64             -- a drover's return stack
  round : W64
  lt : Nat
  retired : W64
  roundEnded : Bool
  buffer : List Act
  redo : Option Act             -- the action of the late trap being handled
  laneStores : Nat
  bellSplit : Option Nat        -- the split whose instruction is performed at the bell
  sleep : Nat
  life : Life
  resumeAt : Option (W64 × W64) -- save area and resume entry that PACK named
  stopped : Stopped
  pending : Option Trap         -- a trap whose record waits to be written (R68)
  spillFrame : Option Nat       -- the owner's spill frame that holds the wave's spill area (R140)
  saveDue : Bool                -- without a handler, it has taken its pre-emption trap and waits for the device's save (R98)
  yielded : Bool
  nextSplit : Nat               -- the split whose turn it is (R120, R141)
  begun : Option Nat            -- the split whose clause has begun and goes on (R118, R120)
  missed : Nat                  -- issue opportunities missed while ready (R119)
  bad : List (RegName × Nat)    -- register elements with an uncorrectable error, with their lane (R218)
  deriving DecidableEq, Repr

/-- A pre-empted team: what the device holds of it (R96–R98). `id` is the team's number while it was resident. -/
structure Saved where
  id : Nat
  team : Team
  waves : Tab Wave
  forced : Bool
  window : List Byte            -- the window as a forced save wrote it
  tileRows : List (List Nat)    -- the rows of its tiles, 32 to a tile
  cells : List (BitVec 128)     -- the hurdle cells
  config : Option W64
  frames : Nat
  ready : Bool                  -- a RESUME or the policy lets it be placed (R77)
  sinceBell : Bool              -- saved by the device since its launch's last bell (R185)
  request : Option Preempt      -- a request that some wave has still to answer by PACK or exit (R222)
  deriving DecidableEq, Repr

/-! ### Cores -/

/-- The storage of a core (R56, R71). Tags name the owner that last wrote an element; storage that is not listed
under the reader's own tag holds no defined value. -/
structure Core where
  off : Bool                          -- reset or power-gated (R93)
  spad : Tab Byte
  spadTag : Tab Nat                   -- by 64-byte granule
  acc : Tab W32                       -- element (i, j) of physical tile t at (32 t + i) × 32 + j
  accTag : Tab Nat                    -- by row, 32 t + i
  cells : Tab (BitVec 128)
  cellTag : Tab Nat
  config : Option W64                 -- the hurdle configuration, while defined (R347)
  badSpad : List Nat                  -- granules with an uncorrectable error (R218)
  badAcc : List Nat                   -- accumulator elements with an uncorrectable error
  spadLost : Bool                     -- a machine check has taken the scratchpad (R164)
  claims : List Nat                   -- waves with a waiting CLAIM, in the order in which they began to wait
  hold : Option (Nat × Nat × Nat)     -- owner, queue and position of a record held and not yet released
  epoch : Nat
  deriving DecidableEq, Repr

/-- A free core: nothing written, nothing held. -/
def Core.empty : Core :=
  { off := false, spad := [], spadTag := [], acc := [], accTag := [], cells := [], cellTag := [],
    config := none, badSpad := [], badAcc := [], spadLost := false, claims := [], hold := none, epoch := 0 }

/-! ### The device -/

/-- One direction of a boundary (R7, R8). -/
structure BoundaryDir where
  expected : BitVec 16
  crcRun : Nat
  delivered : List W64
  deriving DecidableEq, Repr

/-- A UCIe boundary (R5, R8). -/
structure Boundary where
  forth : BoundaryDir
  back : BoundaryDir
  failedRetrains : Nat
  down : Bool
  deriving DecidableEq, Repr

/-- An Ethernet port (R25). -/
structure Port where
  speed : PortSpeed
  up : Bool
  powered : Nat            -- electrical lanes powered, of eight
  deriving DecidableEq, Repr

/-- What the counters of QUERY hold (R27, R28, R30, R40). -/
structure Counters where
  authFailed : Nat
  replayed : Nat
  unsupported : Nat
  bootstrapDropped : Nat
  refusedConnections : Nat
  deriving DecidableEq, Repr

/-- A received message that waits to be appended to its command ring (R31, R32). Owner 1024 stands for the bootstrap endpoint
(R40). -/
structure RxMessage where
  owner : Nat
  port : Nat
  flow : Flow
  bytes : List Byte
  held : Bool
  deriving DecidableEq, Repr

/-- What the device sends through its ports. -/
inductive TxMessage where
  | reply (flow : Flow) (port : Nat) (bytes : List Byte)
  | spanOffer (owner peer : Nat) (generation : W32) (record : List Byte)
  | spanAck (owner peer : Nat) (generation : W32)
  | spanNak (owner peer : Nat) (generation : W32)
  | spanGo (owner peer : Nat) (generation : W32)
  | spanAbort (owner peer : Nat) (generation : W32)
  | spanDone (owner peer : Nat) (generation : W32) (status : PartEnd) (cause : Nat)
  | remote (request package : Nat) (address : W64) (op : RemoteOp)
  | remoteAnswer (package : Nat) (ok : Bool) (data : List Byte)
  deriving DecidableEq, Repr

/-- Who waits for an action on a ring whose records lie in another package than its control block. -/
inductive RingAsker where
  | lane (wave split : Nat) (handler : Bool)
  | package (requester : Nat) (posted : Bool)
  | nobody                      -- a disposal (R322)
  deriving DecidableEq, Repr

/-- An action on a ring whose records lie in another package than its control block (R33, R81): it reads the headers it needs
there one by one, acts, and writes the headers it has changed. `got` holds the headers read, `asked` the address of the one being
read; `answer` is what the action answers once it has acted. -/
structure RingJob where
  owner : Nat
  control : Nat
  op : RingOp
  die : Option Nat              -- the die its accesses come from
  launch : Option (Nat × Nat)   -- the launch it belongs to, and that die
  asker : RingAsker
  got : List (Nat × Nat)
  asked : Option Nat
  answer : Option (Bool × List Byte)
  deriving DecidableEq, Repr

/-- A remote access this package has sent and that is not yet acknowledged (R33). -/
structure RemoteReq where
  owner : Nat           -- whose secure domain carries it
  engine : Option Nat   -- the copy it belongs to; none for an instruction's lane
  wave : Nat
  split : Nat
  lane : Nat
  posted : Bool
  handler : Bool        -- the wave's trap handler has sent it
  launch : Option Nat   -- whose completion a posted access holds back (R50)
  others : List Nat     -- and those of the further launches whose records a task wave runs (R50, R89)
  deriving DecidableEq, Repr

/-- Where the module stands (R20, R21, R15). -/
inductive Phase where
  | off | up | recovery | tripped
  deriving DecidableEq, Repr

/-- Non-volatile storage and what start-up chose from it (R16–R20, R57, R58). -/
structure Flash where
  config0 : List Byte
  config1 : List Byte
  talaz0 : List Byte
  talaz1 : List Byte
  security0 : List Byte
  security1 : List Byte
  configUsed : Option Nat
  talazUsed : Option Nat
  securityUsed : Option Nat
  deriving DecidableEq, Repr

/-- The messages of a run of SPDM requests that later signatures cover, requests and responses as sent (R59; log entry 19). -/
structure SpdmLog where
  opening : List Byte           -- version, capabilities and algorithms
  certs : List Byte             -- digests and certificates since the last signature
  measured : List Byte          -- measurements since the last signed ones
  deriving DecidableEq, Repr

/-- A key pair of P-256: the secret number and the public point, X then Y (R19). -/
structure KeyPair where
  secret : Nat
  point : List Byte
  deriving DecidableEq, Repr

/-- The life estimates of the latest complete recomputation (R22–R24). -/
structure LifeState where
  seq : W32
  dies : List DieReading
  trends : List W32
  uncorrectable : List Nat
  timeBase : Option W64
  deriving DecidableEq, Repr

/-- What the debug agent reports to a host (R384–R392). -/
structure Debug where
  breaks : List (Nat × W64)     -- owner and clause address
  catching : List (Nat × Nat)   -- owner and cause armed for its next launch
  caught : List (Nat × Nat)     -- launch and cause armed
  report : List W64
  deriving DecidableEq, Repr

/-- A choice of what moves next when no input event is due. -/
inductive Slot where
  | wave (n split : Nat)
  | step (n : Nat)              -- the next word of a wave, as the debug agent asks (R384)
  | engine (n : Nat)
  deriving DecidableEq, Repr

/-- The whole machine. -/
structure State where
  -- the module (spec/01)
  phase : Phase
  flash : Flash
  repair : List (List Nat)      -- enabled physical cores of each die, in ascending order (R18)
  serial : W64
  alarmHours : Nat
  trim : List W64               -- the voltage-frequency trim applied to each die (R16, R20)
  identity : List KeyPair       -- the key pairs of port dies 0 and 1 of this start (R19)
  sidebandKey : List Byte       -- port die 1's public key as port die 0 has learned it (R19)
  measurements : List (BitVec 256)
  spdm : Tab SpdmLog            -- by owner, and by 1024 for the bootstrap endpoint
  boundaries : Tab Boundary
  ecc : Tab EccError            -- by storage sector
  corrected : Nat
  throttled : List Nat          -- dies in the 95 °C band
  powerWithheld : Bool
  life : LifeState
  errorLog : List ErrorPlace    -- the storage locations the system handler has logged (R218)
  badParts : List Part          -- uncorrectable errors in state that belongs to no lane (R218)
  -- ports (spec/02)
  ports : List Port
  connections : List (Nat × Nat)
  counters : Counters
  bootNonces : List Nat
  rx : List RxMessage
  tx : List TxMessage
  remote : Tab RemoteReq
  nextRequest : Nat
  ringJobs : Tab RingJob        -- ring actions that wait for another package, by number; those of one ring in order
  -- memory
  mem : Memory
  hostMem : Tab Byte            -- host memory as RMA reaches it
  nextFrame : Nat               -- first interleaved frame never allocated
  nextLocal : List Nat          -- first die-local frame never allocated, by die
  freeFrames : List (Nat × Nat) -- returned runs: device physical address and 64 KiB frames
  epoch : Nat                   -- numbers mappings and placements for their unspecified contents
  savedStacks : Tab (List StackEntry × List Byte)  -- stacks STKSV wrote and their bytes, by storage address
  -- owners and their work
  owners : Tab Owner
  launches : Tab Launch
  teams : Tab Team
  waves : Tab Wave
  engines : Tab Engine
  saved : Tab Saved
  cores : Tab Core
  nextId : Nat                  -- numbers launches, teams, waves, engines and saved teams
  -- what moves next, and time
  inputs : List Instr           -- events due, oldest first
  sched : List Slot             -- choices for the next issue opportunities
  cur : Option (Nat × Nat)      -- the wave and split whose word is being executed
  atBell : Bool                 -- the bell is performing an agent's instruction (R184)
  clock : Nat
  free : Nat                    -- counts the free values taken
  ivgil : Debug
  deriving DecidableEq, Repr

/-- A boundary as it trains: tags start at 0, nothing down. -/
def Boundary.fresh : Boundary :=
  { forth := { expected := 0, crcRun := 0, delivered := [] },
    back := { expected := 0, crcRun := 0, delivered := [] }, failedRetrains := 0, down := false }

/-- The module right after reset, before start-up: no owner is open and no wave runs (R20, R21); nothing is
listed in memory. The flash slots are empty and every count is zero (log entry 9). -/
def State.reset : State :=
  { phase := .off
    flash := { config0 := [], config1 := [], talaz0 := [], talaz1 := [], security0 := [], security1 := [],
               configUsed := none, talazUsed := none, securityUsed := none }
    repair := [], serial := 0, alarmHours := 0, trim := [], identity := [], sidebandKey := [], measurements := [], spdm := []
    boundaries := [], ecc := [], corrected := 0, throttled := [], powerWithheld := false
    life := { seq := 0, dies := [], trends := [], uncorrectable := [], timeBase := none }
    errorLog := [], badParts := []
    ports := [], connections := []
    counters := { authFailed := 0, replayed := 0, unsupported := 0, bootstrapDropped := 0,
                  refusedConnections := 0 }
    bootNonces := [], rx := [], tx := [], remote := [], nextRequest := 0, ringJobs := []
    mem := [], hostMem := [], nextFrame := 0, nextLocal := [], freeFrames := [], epoch := 0
    savedStacks := []
    owners := [], launches := [], teams := [], waves := [], engines := [], saved := [], cores := []
    nextId := 1
    inputs := [], sched := [], cur := none, atBell := false, clock := 0, free := 0
    ivgil := { breaks := [], catching := [], caught := [], report := [] } }

end Sys2Proof.Machine
end

