-- ==== Sys2Proof/Machine/Access.lean ====
section
/-!
DEFINITION. Reading and changing one record of the device: owners, launches, teams, waves, splits, cores, engines.
-/
namespace Sys2Proof.Machine

/-- Change the record at a key, where there is one. -/
def Tab.upd {β : Type} (t : Tab β) (k : Nat) (f : β → β) : Tab β :=
  match Tab.find t k with
  | some v => Tab.put t k (f v)
  | none => t

/-- The owner with an id. -/
def State.owner? (s : State) (o : Nat) : Option Owner := Tab.find s.owners o
/-- The launch with a number. -/
def State.launch? (s : State) (l : Nat) : Option Launch := Tab.find s.launches l
/-- The team with a number. -/
def State.team? (s : State) (t : Nat) : Option Team := Tab.find s.teams t
/-- The wave or drover with a number. -/
def State.wave? (s : State) (n : Nat) : Option Wave := Tab.find s.waves n
/-- The engine operation with a number. -/
def State.engine? (s : State) (e : Nat) : Option Engine := Tab.find s.engines e
/-- The storage of a core, by global core number. -/
def State.core (s : State) (c : Nat) : Core := Tab.getD s.cores c Core.empty

/-- Change an owner. -/
def State.updOwner (s : State) (o : Nat) (f : Owner → Owner) : State := { s with owners := Tab.upd s.owners o f }
/-- Change a launch. -/
def State.updLaunch (s : State) (l : Nat) (f : Launch → Launch) : State :=
  { s with launches := Tab.upd s.launches l f }
/-- Change a team. -/
def State.updTeam (s : State) (t : Nat) (f : Team → Team) : State := { s with teams := Tab.upd s.teams t f }
/-- Change a wave. -/
def State.updWave (s : State) (n : Nat) (f : Wave → Wave) : State := { s with waves := Tab.upd s.waves n f }
/-- Put a wave. -/
def State.setWave (s : State) (n : Nat) (w : Wave) : State := { s with waves := Tab.put s.waves n w }
/-- Change an engine operation. -/
def State.updEngine (s : State) (e : Nat) (f : Engine → Engine) : State := { s with engines := Tab.upd s.engines e f }
/-- Change a core. -/
def State.updCore (s : State) (c : Nat) (f : Core → Core) : State := { s with cores := Tab.put s.cores c (f (s.core c)) }

/-- Change a split of a wave. -/
def Wave.updSplit (w : Wave) (k : Nat) (f : Split → Split) : Wave := { w with splits := Tab.upd w.splits k f }
/-- Change a split of a wave in the state. -/
def State.updSplit (s : State) (n k : Nat) (f : Split → Split) : State := s.updWave n fun w => w.updSplit k f

/-- A split as it starts at a clause (R67, R212). -/
def Split.start (pc : W64) (mask : W32) : Split :=
  { pc := pc, clause := [], word := 0, mask := mask, context := [], stack := [], spill := [], arrived := none,
    windows := [], retry := none, skipBreak := false, tokensMet := false,
    waiting := .none, fetched := [], fetchAt := none, readySince := none }

/-- A fresh free value of width `w`, and the state that has taken it (log entry 2). -/
def State.freeVal (s : State) (w : Nat) : BitVec w × State := (Config.freeValue w s.free, { s with free := s.free + 1 })

/-- A fresh number for a launch, team, wave, engine operation or saved team. -/
def State.newId (s : State) : Nat × State := (s.nextId, { s with nextId := s.nextId + 1 })

/-- The lanes of a wave that have not exited: the union over its splits and their stacks (R135). -/
def Split.lanes (p : Split) : W32 := (p.stack ++ p.spill).foldl (fun m e => m ||| e.mask) p.mask

/-- The lanes of a wave that have not exited. -/
def Wave.liveLanes (w : Wave) : W32 := w.splits.foldl (fun m x => m ||| x.2.lanes) 0

/-- The wave runs in round mode (R180). -/
def State.isRound (s : State) (w : Wave) : Bool :=
  match w.launch with
  | none => false
  | some l => match s.launch? l with
    | some x => x.round
    | none => false

/-- The launch of a wave. -/
def State.launchOf (s : State) (w : Wave) : Option Launch := w.launch.bind s.launch?

/-- The team of a wave. -/
def State.teamOf (s : State) (w : Wave) : Option Team := s.team? w.team

/-- The global core a wave runs on. -/
def State.coreOf (s : State) (w : Wave) : Nat := match s.teamOf w with | some t => t.core | none => 0

/-- The die of a core: 64 cores to a die (R4, R72). -/
def dieOfCore (c : Nat) : Nat := c / 64

/-- The waves and the drover of a team. -/
def Team.agents (t : Team) : List Nat :=
  match t.drover with
  | some d => d :: t.waves
  | none => t.waves

/-- The wave of a team with a wave index. -/
def State.waveWithIndex (s : State) (t : Team) (i : Nat) : Option (Nat × Wave) :=
  t.waves.findSome? fun n => match s.wave? n with
    | some w => if w.index = i then some (n, w) else none
    | none => none

/-- The teams of a launch that are resident, in ascending team number. -/
def State.teamsOfLaunch (s : State) (l : Nat) : List (Nat × Team) :=
  s.teams.filter fun x => x.2.launch == some l

/-- The teams on a core. -/
def State.teamsOnCore (s : State) (c : Nat) : List (Nat × Team) := s.teams.filter fun x => x.2.core == c

/-- The resident team of a launch with a team index; a task wave is none. -/
def State.memberTeam (s : State) (l index : Nat) : Option (Nat × Team) :=
  s.teams.find? fun x => x.2.launch == some l && !x.2.task && x.2.index == index

/-- Record that something happened in a round-mode launch since its last bell (R180). -/
def State.stir (s : State) (l : Option Nat) : State :=
  match l with
  | some n => s.updLaunch n fun x => { x with fresh := true }
  | none => s

/-- Raise an owner's count of illegal encodings (R217). -/
def State.countIllegal (s : State) (o : Nat) : State :=
  s.updOwner o fun x => { x with illegalCount := x.illegalCount + 1 }

end Sys2Proof.Machine
end

