-- ==== Sys2Proof/Machine/Flags.lean ====
section
/-!
DEFINITION. The sticky arithmetic flags of %fstat (R206, R207) and integer results with their flag (R188, R265).
-/
namespace Sys2Proof.Machine

/-- Arithmetic flags, as bits of %fstat (R206). -/
abbrev Flags := W32

/-- Invalid. -/
def fNV : Flags := 1
/-- Divide by zero. -/
def fDZ : Flags := 2
/-- Overflow. -/
def fOF : Flags := 4
/-- Underflow. -/
def fUF : Flags := 8
/-- Inexact. -/
def fNX : Flags := 16
/-- Integer overflow. -/
def fIOV : Flags := 32

/-- A flag when a condition holds. -/
def flagIf (c : Bool) (f : Flags) : Flags := if c then f else 0

/-- OR flags into %fstat (R207). A drover's arithmetic raises no visible flag. -/
def Wave.orFlags (w : Wave) (f : Flags) : Wave := if w.drover then w else { w with fstat := w.fstat ||| f }

/-- An integer wrapped to a width, in 64 bits (R188). -/
def wrap (bits : Nat) (x : Int) : W64 := BitVec.ofNat 64 (x % (2 ^ bits : Int)).toNat

end Sys2Proof.Machine

namespace Sys2Proof

/-- The width of an integer type in bits. -/
def IntTy.bits : IntTy → Nat
  | .s32 | .u32 => 32
  | .s64 | .u64 => 64

/-- The integer type is signed. -/
def IntTy.signed : IntTy → Bool
  | .s32 | .s64 => true
  | .u32 | .u64 => false

/-- A 64-bit source as a value of an integer type (R188, R261). -/
def IntTy.value (t : IntTy) (x : W64) : Int :=
  let n := x.toNat % 2 ^ t.bits
  if t.signed && n ≥ 2 ^ (t.bits - 1) then (n : Int) - 2 ^ t.bits else n

/-- The least value of an integer type. -/
def IntTy.min (t : IntTy) : Int := if t.signed then -(2 ^ (t.bits - 1)) else 0

/-- The greatest value of an integer type. -/
def IntTy.max (t : IntTy) : Int := if t.signed then 2 ^ (t.bits - 1) - 1 else 2 ^ t.bits - 1

/-- An integer limited to the range of a type (R197, R265), and whether it was outside. -/
def IntTy.saturate (t : IntTy) (x : Int) : Int × Bool :=
  if x < t.min then (t.min, true) else if t.max < x then (t.max, true) else (x, false)

end Sys2Proof
end

