-- ==== Sys2Proof/Machine/Float.lean ====
section
/-!
DEFINITION. Floating-point values and their one rounding: formats (R189), zeros, subnormals and NaNs (R192, R193),
order (R194), rounding and overflow (R195, R196), conversions (R197), exact sums (R200), and arithmetic (R290–R294).
-/
namespace Sys2Proof.Machine

/-- A floating-point format (R189). `finiteTop` marks E4M3, whose top exponent is finite but for one pattern. -/
structure Fmt where
  ebits : Nat
  fbits : Nat
  finiteTop : Bool
  deriving DecidableEq, Repr

/-- FP64. -/
def fp64 : Fmt := ⟨11, 52, false⟩
/-- FP32. -/
def fp32 : Fmt := ⟨8, 23, false⟩
/-- FP16. -/
def fp16 : Fmt := ⟨5, 10, false⟩
/-- BF16. -/
def bf16 : Fmt := ⟨8, 7, false⟩
/-- E5M2. -/
def e5m2 : Fmt := ⟨5, 2, false⟩
/-- E4M3. -/
def e4m3 : Fmt := ⟨4, 3, true⟩

/-- The bits of a format. -/
def Fmt.bits (f : Fmt) : Nat := 1 + f.ebits + f.fbits

/-- The exponent bias. -/
def Fmt.bias (f : Fmt) : Int := 2 ^ (f.ebits - 1) - 1

/-- The exponent of the smallest normal. -/
def Fmt.emin (f : Fmt) : Int := 1 - f.bias

/-- The canonical NaN (R193). -/
def Fmt.nan (f : Fmt) : Nat :=
  if f.finiteTop then 2 ^ (f.ebits + f.fbits) - 1 else (2 ^ f.ebits - 1) * 2 ^ f.fbits + 2 ^ (f.fbits - 1)

/-- The sign bit in place. -/
def Fmt.signed (f : Fmt) (neg : Bool) (n : Nat) : Nat := if neg then 2 ^ (f.ebits + f.fbits) + n else n

/-- Infinity. -/
def Fmt.inf (f : Fmt) (neg : Bool) : Nat := f.signed neg ((2 ^ f.ebits - 1) * 2 ^ f.fbits)

/-- The encoding of the largest finite value. -/
def Fmt.maxCode (f : Fmt) : Nat :=
  if f.finiteTop then 2 ^ (f.ebits + f.fbits) - 2 else (2 ^ f.ebits - 1) * 2 ^ f.fbits - 1

/-- A value read from a format: a NaN, quiet or signalling; an infinity; or (−1)^neg × m × 2^e. -/
inductive Num where
  | nan (signalling : Bool)
  | inf (neg : Bool)
  | fin (neg : Bool) (m : Nat) (e : Int)
  deriving DecidableEq, Repr

/-- The value of an encoding (R189, R193). -/
def Fmt.read (f : Fmt) (x : Nat) : Num :=
  let neg := x / 2 ^ (f.ebits + f.fbits) % 2 == 1
  let ef := x / 2 ^ f.fbits % 2 ^ f.ebits
  let fr := x % 2 ^ f.fbits
  if f.finiteTop && ef == 2 ^ f.ebits - 1 && fr == 2 ^ f.fbits - 1 then .nan false
  else if !f.finiteTop && ef == 2 ^ f.ebits - 1 then
    if fr = 0 then .inf neg else .nan (fr < 2 ^ (f.fbits - 1))
  else if ef = 0 then .fin neg fr (f.emin - f.fbits)
  else .fin neg (2 ^ f.fbits + fr) ((ef : Int) - f.bias - f.fbits)

/-- NaN, quiet or signalling. -/
def Num.isNan : Num → Bool
  | .nan _ => true
  | _ => false

/-- A signalling NaN (R193). -/
def Num.isSnan : Num → Bool
  | .nan s => s
  | _ => false

/-- Zero of either sign. -/
def Num.isZero : Num → Bool
  | .fin _ m _ => m == 0
  | _ => false

/-- An infinity. -/
def Num.isInf : Num → Bool
  | .inf _ => true
  | _ => false

/-- The sign. -/
def Num.neg : Num → Bool
  | .nan _ => false
  | .inf n => n
  | .fin n _ _ => n

/-- The value with its sign inverted. -/
def Num.negate : Num → Num
  | .nan s => .nan s
  | .inf n => .inf (!n)
  | .fin n m e => .fin (!n) m e

/-- Whether a rounding goes up from the truncated magnitude, given the remainder over 2^shift. -/
def roundUp (rm : Rounding) (neg : Bool) (n rem half : Nat) : Bool :=
  match rm with
  | .rne => decide (rem > half) || (rem == half && n % 2 == 1)
  | .rz => false
  | .ru => !neg && rem != 0
  | .rd => neg && rem != 0

/-- The magnitude m × 2^e rounded to a multiple of 2^q, in units of 2^q, and whether it was exact. -/
def roundAt (rm : Rounding) (neg : Bool) (m : Nat) (e q : Int) : Nat × Bool :=
  if q ≤ e then (m * 2 ^ (e - q).toNat, true)
  else
    let k := (q - e).toNat
    let n := m / 2 ^ k
    let r := m % 2 ^ k
    (if roundUp rm neg n r (2 ^ (k - 1)) then n + 1 else n, r == 0)

/-- What an overflow gives (R196). -/
def Fmt.overflow (f : Fmt) (rm : Rounding) (neg : Bool) : Nat :=
  if f.finiteTop then f.signed neg f.maxCode
  else
    match rm, neg with
    | .rne, _ => f.inf neg
    | .rz, _ => f.signed neg f.maxCode
    | .ru, false => f.inf false
    | .ru, true => f.signed true f.maxCode
    | .rd, true => f.inf true
    | .rd, false => f.signed false f.maxCode

/-- The non-zero magnitude m × 2^e rounded once into a format, with its flags (R195, R196; for a tiny result in E4M3, log entry
152). -/
def Fmt.round (f : Fmt) (rm : Rounding) (neg : Bool) (m : Nat) (e : Int) : Nat × Flags :=
  if m = 0 then (f.signed neg 0, 0)
  else
    let top : Int := e + Nat.log2 m              -- the exponent of the leading bit
    let q := max (top - f.fbits) (f.emin - f.fbits)
    let (n, exact) := roundAt rm neg m e q
    -- n in units of 2^q; a carry out of the significand moves the exponent up by one
    let (n, q) := if n ≥ 2 ^ (f.fbits + 1) then (n / 2, q + 1) else (n, q)
    let code := if n < 2 ^ f.fbits then n else ((q + f.fbits + f.bias).toNat - 1) * 2 ^ f.fbits + n
    if code > f.maxCode then (f.overflow rm neg, fOF ||| fNX)
    else
      -- tiny: below the smallest normal after rounding with an unbounded exponent
      let u := (roundAt rm neg m e (top - f.fbits)).1
      let tiny := top < f.emin && !(top == f.emin - 1 && u ≥ 2 ^ (f.fbits + 1))
      (f.signed neg code, flagIf (!exact) fNX ||| flagIf (!exact && tiny) fUF)

/-- The fraction num ÷ den × 2^e, num and den non-zero, rounded once into a format (R202, FRCP). -/
def Fmt.roundRat (f : Fmt) (rm : Rounding) (neg : Bool) (num den : Nat) (e : Int) : Nat × Flags :=
  let k := f.fbits + 4 + Nat.log2 den
  let n := num * 2 ^ k
  let q := n / den
  f.round rm neg (2 * q + (if n % den = 0 then 0 else 1)) (e - k - 1)

/-- A value written into a format under a rounding mode; a NaN gives the canonical NaN. Infinities into E4M3
saturate with overflow (R196). -/
def Fmt.write (f : Fmt) (rm : Rounding) : Num → Nat × Flags
  | .nan _ => (f.nan, 0)
  | .inf neg => if f.finiteTop then (f.signed neg f.maxCode, fOF ||| fNX) else (f.inf neg, 0)
  | .fin neg m e => f.round rm neg m e

/-- Invalid for signalling operands (R193). -/
def snanFlag (xs : List Num) : Flags := flagIf (xs.any Num.isSnan) fNV

/-! ### Exact arithmetic -/

/-- A finite value as an integer in units of 2^q, for q at or below its exponent. -/
def unitsOf (neg : Bool) (m : Nat) (e q : Int) : Int :=
  let v : Int := m * 2 ^ (e - q).toNat
  if neg then -v else v

/-- The exact sum of two values; none for infinities of opposite sign. A zero sum has the sign that R196 and R290
give. -/
def addNum (rm : Rounding) (a b : Num) : Option Num :=
  match a, b with
  | .nan s, _ => some (.nan s)
  | _, .nan s => some (.nan s)
  | .inf x, .inf y => if x = y then some (.inf x) else none
  | .inf x, _ => some (.inf x)
  | _, .inf y => some (.inf y)
  | .fin x m e, .fin y n g =>
    let q := min e g
    let v := unitsOf x m e q + unitsOf y n g q
    if v = 0 then
      some (.fin (if m = 0 && n = 0 && x == y then x else rm == .rd) 0 q)
    else some (.fin (v < 0) v.natAbs q)

/-- The exact product of two values; none for zero times infinity. -/
def mulNum (a b : Num) : Option Num :=
  match a, b with
  | .nan s, _ => some (.nan s)
  | _, .nan s => some (.nan s)
  | .inf x, .inf y => some (.inf (x != y))
  | .inf x, .fin y n _ => if n = 0 then none else some (.inf (x != y))
  | .fin x m _, .inf y => if m = 0 then none else some (.inf (x != y))
  | .fin x m e, .fin y n g => some (.fin (x != y) (m * n) (e + g))

/-- An operation's exact result written into a format: NaN operands and invalid operations as R290 states. -/
def Fmt.finish (f : Fmt) (rm : Rounding) (ops : List Num) (r : Option Num) : Nat × Flags :=
  match r with
  | none => (f.nan, fNV)
  | some v =>
    let (x, fl) := f.write rm v
    (x, fl ||| snanFlag ops)

/-- a + b (R290). -/
def Fmt.add (f : Fmt) (rm : Rounding) (a b : Nat) : Nat × Flags :=
  let x := f.read a
  let y := f.read b
  f.finish rm [x, y] (addNum rm x y)

/-- a − b (R290). -/
def Fmt.sub (f : Fmt) (rm : Rounding) (a b : Nat) : Nat × Flags :=
  let x := f.read a
  let y := f.read b
  f.finish rm [x, y] (addNum rm x y.negate)

/-- a × b (R290). -/
def Fmt.mul (f : Fmt) (rm : Rounding) (a b : Nat) : Nat × Flags :=
  let x := f.read a
  let y := f.read b
  f.finish rm [x, y] (mulNum x y)

/-- a × b + c with one rounding; zero times infinity is invalid even when c is NaN (R290). -/
def Fmt.fma (f : Fmt) (rm : Rounding) (a b c : Nat) : Nat × Flags :=
  let x := f.read a
  let y := f.read b
  let z := f.read c
  f.finish rm [x, y, z] (match mulNum x y with
    | none => none
    | some p => addNum rm p z)

/-- A finite or infinite value in the selection order of R194, −0 below +0, as a comparison. -/
def selLess (a b : Num) : Bool :=
  match a, b with
  | .inf x, .inf y => x && !y
  | .inf x, _ => x
  | _, .inf y => !y
  | .fin x m e, .fin y n g =>
    let q := min e g
    let u := unitsOf x m e q
    let v := unitsOf y n g q
    decide (u < v) || (u == v && m == 0 && n == 0 && x && !y)
  | _, _ => false

/-- The lesser or the greater in the selection order (R194, R291): the canonical NaN when either is NaN. -/
def Fmt.select (f : Fmt) (greater : Bool) (a b : Nat) : Nat × Flags :=
  let x := f.read a
  let y := f.read b
  if x.isNan || y.isNan then (f.nan, snanFlag [x, y])
  else if greater then (if selLess x y then b else a, 0)
  else (if selLess y x then b else a, 0)

/-- Numeric comparison of two values that are not NaN, −0 equal to +0: less, equal. -/
def numLess (a b : Num) : Bool :=
  match a, b with
  | .inf x, .inf y => x && !y
  | .inf x, _ => x
  | _, .inf y => !y
  | .fin x m e, .fin y n g => let q := min e g; decide (unitsOf x m e q < unitsOf y n g q)
  | _, _ => false

/-- Two values that are not NaN are equal. -/
def numEq (a b : Num) : Bool := !a.isNan && !b.isNan && !(numLess a b) && !(numLess b a)

/-- The truth of a condition and its flags (R194, R292). -/
def Fmt.compare (f : Fmt) (k : FloatCond) (a b : Nat) : Bool × Flags :=
  let x := f.read a
  let y := f.read b
  let nan := x.isNan || y.isNan
  let ordered : Bool × Bool := match k with
    | .eq => (numEq x y, false)
    | .ne => (!(numEq x y), false)
    | .lt => (!nan && numLess x y, true)
    | .le => (!nan && !(numLess y x), true)
    | .gt => (!nan && numLess y x, true)
    | .ge => (!nan && !(numLess x y), true)
    | .un => (nan, false)
    | .or => (!nan, false)
  (ordered.1, flagIf (if ordered.2 then nan else x.isSnan || y.isSnan) fNV)

/-- The class mask (R293). -/
def Fmt.classify (f : Fmt) (a : Nat) : Nat :=
  match f.read a with
  | .nan s => if s then 1 else 2
  | .inf n => if n then 4 else 2 ^ 9
  | .fin n m _ =>
    let normal := decide (m ≥ 2 ^ f.fbits)
    if m = 0 then (if n then 2 ^ 5 else 2 ^ 6)
    else if normal then (if n then 2 ^ 3 else 2 ^ 8)
    else (if n then 2 ^ 4 else 2 ^ 7)

/-- a × 2^n rounded RNE (R294). -/
def Fmt.scale (f : Fmt) (a : Nat) (n : Int) : Nat × Flags :=
  let x := f.read a
  match x with
  | .nan s => (f.nan, flagIf s fNV)
  | .inf _ => (a, 0)
  | .fin neg m e => if m = 0 then (a, 0) else f.round .rne neg m (e + n)

/-- |a| and −a; a NaN gives the canonical NaN, and no flag is raised (R291). -/
def Fmt.abs (f : Fmt) (a : Nat) : Nat := if (f.read a).isNan then f.nan else a % 2 ^ (f.ebits + f.fbits)

/-- −a (R291). -/
def Fmt.negate (f : Fmt) (a : Nat) : Nat :=
  if (f.read a).isNan then f.nan else f.signed (!(f.read a).neg) (a % 2 ^ (f.ebits + f.fbits))

/-! ### Conversions (R197, R298) -/

/-- A float rounded to an integer: the integer, and whether rounding changed it. -/
def toInteger (rm : Rounding) (neg : Bool) (m : Nat) (e : Int) : Int × Bool :=
  let (n, exact) := roundAt rm neg m e 0
  (if neg then -(n : Int) else n, exact)

/-- Float to integer (CVTFI). -/
def Fmt.toInt (f : Fmt) (t : IntTy) (rm : Rounding) (a : Nat) : Int × Flags :=
  match f.read a with
  | .nan _ => (0, fNV)
  | .inf n => (if n then t.min else t.max, fNV)
  | .fin neg m e =>
    let (v, exact) := toInteger rm neg m e
    let (r, out) := t.saturate v
    (r, if out then fNV else flagIf (!exact) fNX)

/-- Integer to float (CVTIF). -/
def Fmt.ofInt (f : Fmt) (rm : Rounding) (v : Int) : Nat × Flags := f.round rm (v < 0) v.natAbs 0

/-- Float to float (CVTFF). -/
def convert (src dst : Fmt) (rm : Rounding) (a : Nat) : Nat × Flags :=
  let x := src.read a
  let (r, fl) := dst.write rm x
  (r, fl ||| snanFlag [x])

/-- Round to an integral value in the same format (FRND). -/
def Fmt.integral (f : Fmt) (rm : Rounding) (a : Nat) : Nat × Flags :=
  match f.read a with
  | .nan s => (f.nan, flagIf s fNV)
  | .inf _ => (a, 0)
  | .fin neg m e =>
    if m = 0 then (a, 0)
    else (((f.round rm neg (roundAt rm neg m e 0).1 0).1), 0)

/-! ### Exact sums (R200) -/

/-- An exact sum under way: NaN, an infinity, a signed zero, or a non-zero real in units of 2^q. -/
inductive Sum where
  | invalid                         -- NaN by cases 1 of R200
  | nan                             -- NaN from a NaN addend
  | inf (neg : Bool)
  | real (units : Int) (q : Int) (allNegZero : Bool)
  deriving DecidableEq, Repr

/-- The empty sum: the first addend decides the sign of a zero. -/
def Sum.empty : Sum := .real 0 0 true

/-- A sum with one more addend. -/
def Sum.plus (s : Sum) (x : Num) : Sum :=
  match s, x with
  | .invalid, _ => .invalid
  | .nan, .nan sg => if sg then .invalid else .nan
  | .nan, _ => .nan
  | _, .nan sg => if sg then .invalid else .nan
  | .inf a, .inf b => if a = b then .inf a else .invalid
  | .inf a, _ => .inf a
  | .real _ _ _, .inf b => .inf b
  | .real u q z, .fin neg m e =>
    let q' := min q e
    .real (u * 2 ^ (q - q').toNat + unitsOf neg m e q') q' (z && neg && m == 0)

/-- The value of a sum before rounding. -/
def Sum.value : Sum → Option Num
  | .invalid => none
  | .nan => some (.nan false)
  | .inf n => some (.inf n)
  | .real u q z => if u = 0 then some (.fin z 0 q) else some (.fin (u < 0) u.natAbs q)

/-- The exact sum of addends, each a value or none for an invalid product. -/
def sumOf (xs : List (Option Num)) : Sum :=
  xs.foldl (fun s x => match x with
    | none => .invalid
    | some v => s.plus v) .empty

/-- A sum rounded once, RNE, into a format (R200). -/
def Fmt.ofSum (f : Fmt) (s : Sum) : Nat × Flags :=
  match s with
  | .invalid => (f.nan, fNV)
  | .nan => (f.nan, fNV)
  | .inf n => f.write .rne (.inf n)
  | .real u q z => if u = 0 then (f.signed z 0, 0) else f.round .rne (u < 0) u.natAbs q

end Sys2Proof.Machine

namespace Sys2Proof

/-- The format of a float type (R236). -/
def FloatTy.fmt : FloatTy → Machine.Fmt
  | .f32 => Machine.fp32 | .f64 => Machine.fp64 | .f16 => Machine.fp16 | .bf16 => Machine.bf16

end Sys2Proof
end

