-- ==== Sys2Proof/Machine/Mem.lean ====
section
/-!
DEFINITION. Memory: storage locations and apertures (R9, R10), an owner's pages (R146–R149), reading and writing
bytes (R55, R156, R169), frames and on-demand allocation (R148), scratchpad storage (R56, R151, R152), and what the
device writes to host memory (R51, R52).
-/
namespace Sys2Proof.Machine

/-! ### Storage -/

/-- The storage location of a device physical address, as stack × 2^36 + offset (R9). -/
def dpaToStorage (d : Nat) : Nat :=
  if d / 2 ^ 40 % 2 = 0 then
    d / 2 ^ 11 % 16 * 2 ^ 36 + (d / 2 ^ 15 % 2 ^ 25 * 2 ^ 11 + d % 2 ^ 11)
  else
    (2 * (d / 2 ^ 37 % 8) + d / 2 ^ 11 % 2) * 2 ^ 36 + (d / 2 ^ 12 % 2 ^ 25 * 2 ^ 11 + d % 2 ^ 11)

/-- The address in the interleaved aperture of a storage location. -/
def interleavedDpa (k : Nat) : Nat := k % 2 ^ 36 / 2 ^ 11 * 2 ^ 15 + k / 2 ^ 36 * 2 ^ 11 + k % 2 ^ 11

/-- The address in the die-local aperture of a storage location. -/
def localDpa (k : Nat) : Nat :=
  2 ^ 40 + k / 2 ^ 37 * 2 ^ 37 + k % 2 ^ 36 / 2 ^ 11 * 2 ^ 12 + k / 2 ^ 36 % 2 * 2 ^ 11 + k % 2 ^ 11

/-- The storage location lies in `n` bytes of device physical addresses from `d`. -/
def inRun (d n k : Nat) : Bool :=
  let x := if d / 2 ^ 40 % 2 = 0 then interleavedDpa k else localDpa k
  decide (d ≤ x) && decide (x < d + n)

/-- Memory with no written value in a run of device physical addresses. -/
def Memory.forget (m : Memory) (d n : Nat) : Memory := Tab.keep (fun k => !(inRun d n k)) m

/-- Memory with a byte written at a storage location. -/
def Memory.write (m : Memory) (k : Nat) (b : Byte) : Memory := Tab.put m k b

/-- The written byte at a storage location. -/
def Memory.read (m : Memory) (k : Nat) : Option Byte := Tab.find m k

/-! ### Pages -/

/-- The page covers the address. -/
def Page.covers (p : Page) (a : Nat) : Bool := decide (p.va ≤ a) && decide (a < p.va + 2 ^ p.log2)

/-- The page of an owner that covers an address. -/
def Owner.pageAt (o : Owner) (a : Nat) : Option Page := o.pages.find? fun p => p.covers a

/-- The storage location of an address of a page with a frame at `f`. -/
def Page.place (p : Page) (f a : Nat) : Nat := dpaToStorage (f + (a - p.va))

/-- Kinds of access (R147, R214). -/
inductive AccKind where
  | load | store | atomic | foldRead | stp | fetch
  deriving DecidableEq, Repr

/-- The kind's code in a lane record (R214). -/
def AccKind.code : AccKind → Nat
  | .load => 0 | .store => 1 | .atomic => 2 | .foldRead => 3 | .stp => 4 | .fetch => 5

/-- The page permits the access (R147). -/
def Page.permits (p : Page) : AccKind → Bool
  | .load | .foldRead => p.r
  | .store | .stp => p.w
  | .atomic => p.r && p.w
  | .fetch => p.x

/-- The first cause of a global access in the order of R145; 0x18 stands for translation not present. -/
def Owner.checkGlobal (o : Owner) (a size : Nat) (k : AccKind) : Option Nat :=
  if a ≥ 2 ^ 56 then some 0x13
  else if a % size ≠ 0 then some 0x10
  else
    match o.pageAt a with
    | none => some 0x18
    | some p =>
      if p.frame.isNone && p.remote.isNone then some 0x18
      else if !(p.permits k) then some 0x12
      else none

/-- The home package of the page that covers an address, for a remote page. -/
def Owner.remoteAt (o : Owner) (a : Nat) : Option Nat := (o.pageAt a).bind (·.remote)

/-- The peer table entry of a package; none for an empty one (R33). -/
def Owner.peer? (o : Owner) (package : Nat) : Option (BitVec 128 × W32) :=
  match o.peers[package]? with
  | some p => if p.1 = 0 then none else some p
  | none => none

/-! ### Reading and writing global memory -/

/-- What an agent's loads see: a memory, the pages through which they see it where those are the last bell's, and the agent's
own buffered stores over it (R181). -/
structure View where
  mem : Memory
  pages : Option (List Page)
  buf : List Act
  deriving DecidableEq, Repr

/-- Memory as it stands. -/
def State.now (s : State) : View := { mem := s.mem, pages := none, buf := [] }

/-- The stores an action buffers, in order. -/
def Act.stored : Act → List (Place × List Byte)
  | .store p d => [(p, d)]
  | .stores _ _ ls => ls.map fun x => (x.place, x.data)
  | _ => []

/-- The addresses of the first store of an action, whose pages a held bell waits for (R185): owner and address. -/
def Act.pages (a : Act) : List (Nat × Nat) := match a.stored.head? with
  | some (.global o va, d) => [(o, va), (o, va + d.length - 1)]
  | _ => []

/-- The byte that buffered stores hold for a global address. -/
def bufGlobal (owner a : Nat) (acts : List Act) : Option Byte :=
  (acts.flatMap Act.stored).foldl (fun acc x => match x.1 with
    | .global o va => if o = owner && va ≤ a && a < va + x.2.length then x.2[a - va]? else acc
    | .scratch .. => acc) none

/-- The byte that buffered stores hold for a scratchpad byte of a core. -/
def bufScratch (core a : Nat) (acts : List Act) : Option Byte :=
  (acts.flatMap Act.stored).foldl (fun acc x => match x.1 with
    | .scratch c va => if c = core && va ≤ a && a < va + x.2.length then x.2[a - va]? else acc
    | .global .. => acc) none

/-- The byte of an owner's address: the written value, or a free byte where nothing has been written since the
page was mapped (R55). An address without a frame reads as a free byte; accesses are checked first. -/
def Owner.byteAt (o : Owner) (m : Memory) (a : Nat) : Byte :=
  match o.pageAt a with
  | some p =>
    match p.frame with
    | some f => (m.read (p.place f a)).getD (Config.freeByte (2 * p.epoch) (p.place f a))
    | none => Config.freeByte 0 a
  | none => Config.freeByte 0 a

/-- The byte of an owner's address in the memory of a view: a page that the last bell did not find there has held nothing
defined (R55, R181). -/
def Owner.viewByte (o : Owner) (v : View) (a : Nat) : Byte :=
  match v.pages with
  | none => o.byteAt v.mem a
  | some ps =>
    let old : Owner := { o with pages := ps }
    if ((old.pageAt a).bind (·.frame)).isSome then old.byteAt v.mem a else o.byteAt [] a

/-- The bytes of an owner's addresses as a view shows them. -/
def Owner.bytes (o : Owner) (id : Nat) (v : View) (a n : Nat) : List Byte :=
  (List.range n).map fun i => match bufGlobal id (a + i) v.buf with
    | some b => b
    | none => o.viewByte v (a + i)

/-- Bytes of memory as it stands, through an owner's pages. -/
def State.ownerBytes (s : State) (id a n : Nat) : List Byte := match s.owner? id with
  | some o => o.bytes id s.now a n
  | none => []

/-- The storage sector of an owner's address, where it has a frame. -/
def Owner.sectorAt (o : Owner) (a : Nat) : Option Nat :=
  (o.pageAt a).bind fun p => p.frame.map fun f => p.place f a / 64

/-- A port die among the dies: compute dies are 0 to 7, port dies 0 and 1 are 8 and 9 (R4). -/
def portDie (k : Nat) : Nat := 8 + k

/-- The port die of a port (R25). -/
def dieOfPort (port : Nat) : Nat := portDie (port / 8)

/-- What each boundary joins, boundary 0 first (R4, R5). -/
def boundaryJoins : List (Nat × Nat) :=
  [(0, 1), (1, 2), (2, 3), (4, 5), (5, 6), (6, 7), (0, 4), (1, 5), (2, 6), (3, 7)] ++
  [(portDie 0, 0), (portDie 0, 4), (portDie 1, 3), (portDie 1, 7)]

/-- The boundary between two neighbouring dies. -/
def boundaryOf (a b : Nat) : Option Nat := boundaryJoins.findIdx? fun x => x == (a, b) || x == (b, a)

/-- The compute dies of a row from one column to another, in order. -/
def alongRow (row a b : Nat) : List Nat :=
  if a ≤ b then (List.range (b + 1 - a)).map fun i => 4 * row + a + i
  else (List.range (a + 1 - b)).map fun i => 4 * row + a - i

/-- The column of the compute dies that a port die joins (R4). -/
def portColumn (p : Nat) : Nat := if p = portDie 0 then 0 else 3

/-- The dies a flit visits on its way (R6). -/
def diesOnRoute (a b : Nat) : List Nat :=
  match decide (a < 8), decide (b < 8) with
  | true, true => alongRow (a / 4) (a % 4) (b % 4) ++ (if a / 4 = b / 4 then [] else [b])
  | false, true => a :: alongRow (b / 4) (portColumn a) (b % 4)
  | true, false => alongRow (a / 4) (a % 4) (portColumn b) ++ [b]
  | false, false => if a = b then [a] else a :: alongRow 0 (portColumn a) (portColumn b) ++ [b]

/-- The boundaries on the route from one die to another (R5, R6). -/
def routeOf (a b : Nat) : List Nat :=
  let dies := diesOnRoute a b
  (dies.zip (dies.drop 1)).filterMap fun x => boundaryOf x.1 x.2

/-- The route from one die to another crosses a boundary that is down (R8). -/
def State.cutDies (s : State) (a b : Nat) : Bool :=
  (s.boundaries.any fun x => x.2.down) && (routeOf a b).any fun k => match Tab.find s.boundaries k with
    | some x => x.down
    | none => false

/-- The route from a die to the storage of some byte of an access crosses a boundary that is down (R8). The way back of its
answer is not looked at (log entry 50). -/
def State.cutOff (s : State) (die : Option Nat) (o : Owner) (a n : Nat) : Bool :=
  match die with
  | none => false
  | some d => (s.boundaries.any fun x => x.2.down) && (List.range n).any fun i => match o.sectorAt (a + i) with
      | some sec => s.cutDies d (sec / 2 ^ 31)
      | none => false

/-- The port that carries an owner's traffic with a peer package (R26; log entry 117). -/
def flowPort (owner package : Nat) : Nat := Config.freePort owner package % 16

/-- Send a remote access of an owner from a die (R33): none where the peer table entry of the home package is empty (R34), or
where the route to the port crosses a boundary that is down (R8). -/
def State.request (s : State) (die : Option Nat) (home : Nat) (a : W64) (op : RemoteOp) (r : RemoteReq) :
    Option (Nat × State) :=
  match (s.owner? r.owner).bind fun o => o.peer? home with
  | none => none
  | some _ =>
    if die.any fun d => s.cutDies d (dieOfPort (flowPort r.owner home)) then none
    else
      let id := s.nextRequest
      some (id, { s with nextRequest := id + 1, tx := s.tx ++ [.remote id home a op], remote := Tab.put s.remote id r })

/-- A package can be reached for an owner from a die (R8, R34). -/
def State.reaches (s : State) (die : Option Nat) (owner home : Nat) : Bool :=
  ((s.owner? owner).bind fun o => o.peer? home).isSome &&
    !(die.any fun d => s.cutDies d (dieOfPort (flowPort owner home)))

/-- Some byte of the access lies in an uncorrectable sector (R11, R218), or beyond a boundary that is down (R8). -/
def State.badGlobal (s : State) (die : Option Nat) (o : Owner) (a n : Nat) : Bool :=
  ((List.range n).any fun i => match o.sectorAt (a + i) with
    | some sec => Tab.find s.ecc sec == some .uncorrectable
    | none => false) || s.cutOff die o a n

/-- The sectors with an uncorrectable error in a run of an owner's addresses (R11, R218). -/
def State.badSectors (s : State) (owner a n : Nat) : List ErrorPlace :=
  match s.owner? owner with
  | none => []
  | some o => (((List.range n).filterMap fun i => o.sectorAt (a + i)).eraseDups.filter fun k =>
      Tab.find s.ecc k == some .uncorrectable).map .sector

/-- Log the uncorrectable sectors of a run (R218). -/
def State.logSectors (s : State) (owner a n : Nat) : State :=
  { s with errorLog := s.errorLog ++ s.badSectors owner a n }

/-- The die of the wave whose word is being executed. -/
def State.curDie (s : State) : Option Nat :=
  s.cur.bind fun c => (s.wave? c.1).map fun w => dieOfCore (s.coreOf w)

/-- The die of a wave. -/
def State.dieOf (s : State) (w : Wave) : Option Nat := some (dieOfCore (s.coreOf w))

/-- Fresh free bytes at `n` storage locations from `k` (R218). -/
def State.freshBytes (s : State) (k : Nat) : Nat → State
  | 0 => s
  | n + 1 =>
    let (b, t) := s.freeVal 8
    State.freshBytes { t with mem := t.mem.write k b } (k + 1) n

/-- The sector as a write makes it ready: an uncorrectable sector is rewritten whole, its other bytes unspecified
(R218); a correctable error is gone with the rewrite. -/
def State.rewriteSector (s : State) (sec : Nat) : State :=
  match Tab.find s.ecc sec with
  | none => s
  | some .correctable => { s with ecc := Tab.drop s.ecc sec }
  | some .uncorrectable => { s with ecc := Tab.drop s.ecc sec }.freshBytes (64 * sec) 64

/-- Who writes: the launch and the die whose L1 holds the line until it is written back (R50). -/
abbrev Writer := Option (Nat × Nat)

/-- Note the sector as written by a launch and not yet written back (R50). -/
def State.noteDirty (s : State) (by' : Writer) (sec : Nat) : State :=
  match by' with
  | none => s
  | some (l, die) => s.updLaunch l fun x =>
      if x.dirty.contains (die, sec) then x else { x with dirty := (die, sec) :: x.dirty }

/-- Write one byte at a storage location. -/
def State.putByte (s : State) (by' : Writer) (k : Nat) (b : Byte) : State :=
  let t := (s.rewriteSector (k / 64)).noteDirty by' (k / 64)
  { t with mem := t.mem.write k b }

/-- Write bytes at an owner's addresses. An address without a frame takes nothing; accesses are checked first. -/
def State.putBytes (s : State) (by' : Writer) (id a : Nat) : List Byte → State
  | [] => s
  | b :: r =>
    let t := match s.owner? id with
      | some o => match o.pageAt a with
        | some p => match p.frame with
          | some f => s.putByte by' (p.place f a) b
          | none => s
        | none => s
      | none => s
    State.putBytes t by' id (a + 1) r

/-! ### Frames -/

/-- 64 KiB frames of a page. -/
def Page.frames (p : Page) : Nat := 2 ^ (p.log2 - 16)

/-- The lowest local frame index in use on a die: local frames are taken from the top (log entry 10). -/
def State.localLow (s : State) (die : Nat) : Nat := 2 ^ 21 - s.nextLocal.getD die 0

/-- Take `n` frames aligned to `n`, from the interleaved aperture or from a die's local aperture; none when the
storage is exhausted (log entry 10). -/
def State.takeFrames (s : State) (n : Nat) (die : Option Nat) : Option (Nat × State) :=
  let fits (x : Nat × Nat) : Bool := x.2 == n && (match die with
    | none => x.1 / 2 ^ 40 % 2 == 0
    | some d => x.1 / 2 ^ 40 % 2 == 1 && x.1 / 2 ^ 37 % 8 == d)
  match s.freeFrames.find? fits with
  | some x => some (x.1, { s with freeFrames := s.freeFrames.erase x })
  | none =>
    match die with
    | none =>
      let f := alignUp s.nextFrame n
      if (List.range 8).all fun d => decide ((f + n) * 4096 ≤ s.localLow d * 32768) then
        some (f * 2 ^ 16, { s with nextFrame := f + n })
      else none
    | some d =>
      let low := s.localLow d
      if low < n then none
      else
        let f := (low - n) / n * n
        if s.nextFrame * 4096 ≤ f * 32768 then
          some (2 ^ 40 + d * 2 ^ 37 + f * 2 ^ 16,
            { s with nextLocal := modifyAt (fun _ => 2 ^ 21 - f) d (s.nextLocal ++ List.replicate (8 - s.nextLocal.length) 0) })
        else none

/-- Return a run of frames. -/
def State.giveFrames (s : State) (d n : Nat) : State :=
  { s with freeFrames := s.freeFrames ++ [(d, n)], mem := s.mem.forget d (n * 2 ^ 16) }

/-- The outcome of resolving a not-present page (R148). -/
inductive PageFix where
  | mapped (s : State)     -- case 1: a frame is there now
  | waits (s : State)      -- case 2: the quota cannot hold the page
  | fails                  -- case 3

/-- A fresh epoch for unspecified contents. -/
def State.newEpoch (s : State) : Nat × State := (s.epoch + 1, { s with epoch := s.epoch + 1 })

/-- Give the page at `a` its frame. -/
def State.mapPage (s : State) (id a : Nat) (p : Page) : Option State :=
  match s.takeFrames p.frames (if p.homeDie.isSome then p.homeDie else none) with
  | none => none
  | some (f, t) =>
    let (e, t) := t.newEpoch
    some ({ t with mem := t.mem.forget f (2 ^ p.log2) }.updOwner id fun o =>
      { o with framesUsed := o.framesUsed + p.frames,
               pages := o.pages.map fun (q : Page) => if q.covers a then { q with frame := some f, epoch := e } else q })

/-- The system handler on a not-present page (R148), before any notice. -/
def State.resolvePage (s : State) (id a : Nat) : PageFix :=
  match s.owner? id with
  | none => .fails
  | some o =>
    match o.pageAt a with
    | none => .fails
    | some p =>
      if p.frame.isSome || p.remote.isSome then .mapped s
      else if !p.onDemand then .fails
      else if o.framesUsed + p.frames ≤ o.frameQuota then
        match s.mapPage id a p with
        | some t => .mapped t
        | none => .waits s
      else .waits s

/-- Charge `n` frames of the device's own structures to an owner's quota, where it can hold them. -/
def State.charge (s : State) (id n : Nat) : Option State :=
  match s.owner? id with
  | none => none
  | some o =>
    if o.framesUsed + n ≤ o.frameQuota then some (s.updOwner id fun x => { x with framesUsed := x.framesUsed + n })
    else none

/-- Return `n` frames to an owner's quota. -/
def State.uncharge (s : State) (id n : Nat) : State :=
  s.updOwner id fun x => { x with framesUsed := x.framesUsed - n }

/-! ### Host memory and completions -/

/-- A byte of host memory; a byte nothing has written is free (log entry 11). -/
def State.hostByte (s : State) (a : Nat) : Byte := (Tab.find s.hostMem a).getD (Config.freeByte 0 a)

/-- Bytes of host memory. -/
def State.hostBytes (s : State) (a n : Nat) : List Byte := (List.range n).map fun i => s.hostByte (a + i)

/-- Write bytes of host memory. -/
def State.putHost (s : State) (a : Nat) : List Byte → State
  | [] => s
  | b :: r => State.putHost { s with hostMem := Tab.put s.hostMem a b } (a + 1) r

/-- A ring record header (R79). -/
def recordHeader (len type : Nat) (c h x : Bool) (ptag : Nat) : Nat :=
  len % 2 ^ 32 + type % 256 * 2 ^ 32 + c.toNat * 2 ^ 40 + h.toNat * 2 ^ 41 + x.toNat * 2 ^ 42 + ptag % 2 ^ 16 * 2 ^ 48

/-- The 48 bytes of a completion record (R51). -/
def Completion.bytes (c : Completion) : List Byte :=
  leBytes 8 (recordHeader 48 1 true false false 0) ++ leBytes 8 c.tag.toNat ++ leBytes 4 c.status ++
  leBytes 1 c.code ++ leBytes 1 c.version ++ leBytes 2 0 ++ leBytes 8 c.r0.toNat ++ leBytes 8 c.r1.toNat ++
  leBytes 8 c.r2.toNat

/-- Write one completion record to the host ring; none when the region has no room (R51, R81). -/
def State.writeCompletion (s : State) (h : HostRing) (c : Completion) : Option (HostRing × State) :=
  let size := 2 ^ h.log2
  let release := ofLe (s.hostBytes (h.control + 40) 8)
  let pos := h.reserve % size
  let skip := if pos + 48 > size then size - pos else 0
  if h.reserve + skip + 48 - release ≤ size then
    let t := if skip = 0 then s else s.putHost (h.base + pos) (leBytes 8 (recordHeader skip 0 true false false 0))
    let t := t.putHost (h.base + (h.reserve + skip) % size) c.bytes
    let n := h.reserve + skip + 48
    let t := (t.putHost (h.control + 16) (leBytes 8 n)).putHost (h.control + 24) (leBytes 8 n)
    some ({ h with reserve := n, commit := n }, t)
  else none

/-- Write waiting completion records while there is room, at most `fuel` of them (R51). -/
def State.flushCompletions (s : State) (id : Nat) : Nat → State
  | 0 => s
  | fuel + 1 =>
    match s.owner? id with
    | none => s
    | some o =>
      match o.completions with
      | [] => s
      | c :: r =>
        match s.writeCompletion o.hostRing c with
        | none => s
        | some (h, t) => State.flushCompletions (t.updOwner id fun x => { x with hostRing := h, completions := r }) id fuel

/-- Commit a completion record, behind those that still wait for room. -/
def State.pushCompletion (s : State) (id : Nat) (c : Completion) : State :=
  match s.owner? id with
  | none => s
  | some o =>
    State.flushCompletions (s.updOwner id fun x => { x with completions := x.completions ++ [c] }) id
      (o.completions.length + 1)

/-- Write a page-request notice (R52): the address, the launch sequence number, and a command's host tag. Its command code and
version bytes are 0 (log entry 130). -/
def State.pageNotice (s : State) (id va seq : Nat) (tag : W64) : State :=
  s.pushCompletion id { tag := 0, status := 0x02, code := 0, version := 0, r0 := BitVec.ofNat 64 va,
                        r1 := BitVec.ofNat 64 seq, r2 := tag }

/-! ### Scratchpad storage -/

/-- A scratchpad byte as an owner reads it: its own written byte, zero under another owner's tag, a free value where
nothing defined is held (R56, R67). `epoch` is the reading window's. -/
def Core.readS (c : Core) (owner epoch x : Nat) : Byte :=
  match Tab.find c.spadTag (x / 64) with
  | some t => if t = owner then (Tab.find c.spad x).getD (Config.freeByte (2 * epoch + 1) x) else 0
  | none => Config.freeByte (2 * epoch + 1) x

/-- Zero the 64 bytes of a granule. -/
def Core.zeroGranule (c : Core) (g : Nat) : Core :=
  { c with spad := (List.range 64).foldl (fun m i => Tab.put m (64 * g + i) 0) c.spad }

/-- A scratchpad byte written by an owner: a granule of another owner is first zeroed and tagged (R56). -/
def Core.writeS (c : Core) (owner x : Nat) (b : Byte) : Core :=
  let g := x / 64
  let d := match Tab.find c.spadTag g with
    | some t => if t = owner then c else c.zeroGranule g
    | none => c
  { d with spad := Tab.put d.spad x b, spadTag := Tab.put d.spadTag g owner }

/-- Scratchpad bytes written by an owner. -/
def Core.writeSs (c : Core) (owner x : Nat) : List Byte → Core
  | [] => c
  | b :: r => Core.writeSs (c.writeS owner x b) owner (x + 1) r

/-- The granule as a write makes it ready: one with an uncorrectable error is rewritten whole (R218). -/
def State.rewriteGranule (s : State) (core owner g : Nat) : State :=
  if (s.core core).badSpad.contains g then
    (List.range 64).foldl (fun t i =>
      let (b, t) := t.freeVal 8
      t.updCore core fun c => c.writeS owner (64 * g + i) b)
      (s.updCore core fun c => { c with badSpad := c.badSpad.erase g })
  else s

/-- Write scratchpad bytes of a core. -/
def State.putScratch (s : State) (core owner x : Nat) (data : List Byte) : State :=
  let gs := (List.range data.length).map fun i => (x + i) / 64
  (gs.foldl (fun t g => t.rewriteGranule core owner g) s).updCore core fun c => c.writeSs owner x data

/-- Bytes of a team's window from an offset, as a view shows them. `id` is the team's number. -/
def State.windowBytes (s : State) (buf : List Act) (id : Nat) (t : Team) (off n : Nat) : List Byte :=
  let c := s.core t.core
  (List.range n).map fun i =>
    match bufScratch t.core (t.windowBase + off + i) buf with
    | some b => b
    | none => c.readS t.owner id (t.windowBase + off + i)

/-- The size of a team's window in bytes (R151). -/
def Team.windowSize (t : Team) : Nat := 4096 * t.windowUnits

/-- Some byte of the window access lies in an uncorrectable granule, or the core has lost its scratchpad. -/
def State.badWindow (s : State) (t : Team) (off n : Nat) : Bool :=
  let c := s.core t.core
  c.spadLost || (List.range n).any fun i => c.badSpad.contains ((t.windowBase + off + i) / 64)

/-- The write range of the control area that only the device and FDEF write (R152). -/
def inControlArea (off n : Nat) : Bool := decide (off < 0x1000) && decide (off + n > 0x800)

/-- The cause of a window access in the order of R145 (R151, R152). -/
def windowCause (size off n : Nat) (write : Bool) : Option Nat :=
  if off % n ≠ 0 then some 0x10
  else if off + n > size then some 0x11
  else if write && inControlArea off n then some 0x12
  else none

/-- Two teams of one launch belong to one cluster group (R64). -/
def Team.sameGroup (a b : Team) : Bool := a.launch == b.launch && !a.task && !b.task && a.group == b.group

/-- The team whose window a peer position reaches (R153). -/
def State.peerTeam (s : State) (me : Nat) (t : Team) (pos : Nat) : Option (Nat × Team) :=
  let c := 8 * (t.core / 8) + pos
  let cand := s.teams.filter fun x => x.2.core == c && (x.1 == me || x.2.sameGroup t)
  (sortBy (fun x => x.2.index) cand).head?

end Sys2Proof.Machine
end

