-- ==== Sys2Proof/Machine/Operands.lean ====
section
/-!
DEFINITION. Registers and operands: reading and writing V, O, L, S and P (R99–R101, R104), the special registers
(R66, R102), the guard (R229), and the value of an operand at each width (R231).
-/
namespace Sys2Proof.Machine

/-! ### Register files -/

/-- V register `n` of a lane. -/
def Wave.vreg (w : Wave) (n lane : Nat) : W32 := Tab.getD w.v (32 * n + lane) 0
/-- O register `n` of a lane. -/
def Wave.oreg (w : Wave) (n lane : Nat) : W32 := Tab.getD w.o (32 * n + lane) 0
/-- The latch of a lane (R101). -/
def Wave.lreg (w : Wave) (lane : Nat) : W64 := Tab.getD w.latch lane 0
/-- S register `n`. -/
def Wave.sreg (w : Wave) (n : Nat) : W64 := Tab.getD w.s n 0
/-- P register `n` as a lane mask; P7 reads true (R99). -/
def Wave.preg (w : Wave) (n : Nat) : W32 := if n = 7 then BitVec.allOnes 32 else Tab.getD w.p n 0
/-- P register `n` in one lane. -/
def Wave.pbit (w : Wave) (n lane : Nat) : Bool := (w.preg n).getLsbD lane

/-- Forget an uncorrectable error in a register element: an element is always written whole (R218). -/
def Wave.mend (w : Wave) (r : RegName) (lane : Nat) : Wave :=
  if w.bad.isEmpty then w else { w with bad := w.bad.filter fun x => !(x.1 == r && x.2 == lane) }

/-- Write V register `n` of a lane. -/
def Wave.setV (w : Wave) (n lane : Nat) (x : W32) : Wave :=
  { w.mend (.v n) lane with v := Tab.setD w.v 0 (32 * n + lane) x }
/-- Write O register `n` of a lane. -/
def Wave.setO (w : Wave) (n lane : Nat) (x : W32) : Wave :=
  { w.mend (.o n) lane with o := Tab.setD w.o 0 (32 * n + lane) x }
/-- Write the latch of a lane. -/
def Wave.setL (w : Wave) (lane : Nat) (x : W64) : Wave := { w.mend .l lane with latch := Tab.setD w.latch 0 lane x }
/-- Write S register `n`. -/
def Wave.setS (w : Wave) (n : Nat) (x : W64) : Wave := { w.mend (.s n) 0 with s := Tab.setD w.s 0 n x }
/-- P register `n` as a lane mask is `x`; a write to P7 is discarded (R99). -/
def Wave.setP (w : Wave) (n : Nat) (x : W32) : Wave := if n = 7 then w else { w with p := Tab.setD w.p 0 n x }
/-- Write P register `n` in one lane. -/
def Wave.setPbit (w : Wave) (n lane : Nat) (b : Bool) : Wave :=
  let m := w.preg n
  (w.mend (.p n) lane).setP n (if b then m ||| laneBit lane else m &&& ~~~(laneBit lane))

/-- Bits 31..0. -/
def lo32 (x : W64) : W32 := x.extractLsb' 0 32
/-- Bits 63..32. -/
def hi32 (x : W64) : W32 := x.extractLsb' 32 32

/-- Write a per-lane destination of one register or a pair, and the latch (R100, R101). -/
def Wave.writeLane (w : Wave) (d : Operand) (regs lane : Nat) (x : W64) : Wave :=
  let y : W64 := if regs = 1 then (lo32 x).setWidth 64 else x
  match d with
  | .v n =>
    let w := w.setV n.toNat lane (lo32 x)
    (if regs = 1 then w else w.setV (n.toNat + 1) lane (hi32 x)).setL lane y
  | .o n =>
    let w := w.setO n.toNat lane (lo32 x)
    (if regs = 1 then w else w.setO (n.toNat + 1) lane (hi32 x)).setL lane y
  | _ => w

/-- Write a quad, and the latch with its low 64 bits (R100, R101). -/
def Wave.writeQuad (w : Wave) (d : Operand) (lane : Nat) (x : BitVec 128) : Wave :=
  let w := w.writeLane d 2 lane (x.extractLsb' 0 64)
  match d with
  | .v n => (w.setV (n.toNat + 2) lane (x.extractLsb' 64 32)).setV (n.toNat + 3) lane (x.extractLsb' 96 32)
  | .o n => (w.setO (n.toNat + 2) lane (x.extractLsb' 64 32)).setO (n.toNat + 3) lane (x.extractLsb' 96 32)
  | _ => w

/-! ### Special registers (R102) -/

/-- The work identifier of a lane, or its task index (R63, R66, R90). -/
def Wave.wid (w : Wave) (lane : Nat) : W64 :=
  if w.task then Tab.getD w.taskIndex lane 0 else w.widBase + BitVec.ofNat 64 lane

/-- The nesting depth of a lane (R85, R90). -/
def Wave.depthOf (w : Wave) (lane : Nat) : W32 := Tab.getD w.depths lane w.depth

/-- A chain slot of a wave; the start state is a seed of zero and no value (R67). -/
def Wave.chain (w : Wave) (slot : Nat) : ChainSlot :=
  Tab.getD w.chains slot { seed := 0, link := none, queue := [], out := 0, produced := false }

/-- The package field of a wave: the value of field 5 in a spanned launch (R66). -/
def State.packageOf (s : State) (w : Wave) : Nat :=
  match s.launchOf w with
  | some l => if l.lr.spanned then w.widBase.toNat / 2 ^ ((l.lr.widths.take 5).foldl (· + ·) 0) else 0
  | none => 0

/-- The value of a special register, index 0 for 0x60 (R102). -/
def State.special (s : State) (w : Wave) (active : W32) (n lane : Nat) : W64 :=
  let nat (x : Nat) : W64 := BitVec.ofNat 64 x
  let ext (x : W32) : W64 := x.setWidth 64
  match n with
  | 0 => nat lane
  | 1 => nat w.index
  | 2 => match s.teamOf w with | some t => nat t.index | none => 0
  | 3 => nat (s.coreOf w % 64)
  | 4 => nat (dieOfCore (s.coreOf w))
  | 5 => nat (s.packageOf w)
  | 6 => nat w.role
  | 7 => ext (lo32 (w.wid lane))
  | 8 => ext (hi32 (w.wid lane))
  | 9 => ext active
  | 10 => ext w.emask
  | 11 => match s.teamOf w with | some t => nat t.waves.length | none => 0
  | 12 | 13 | 14 | 15 => Tab.getD w.wp (n - 12) 0
  | 16 | 17 | 18 | 19 => (w.chain (n - 16)).out
  | 20 => ext w.fstat
  | 21 => ext w.hstat
  | 22 => ext (Tab.getD w.fabs lane 0)
  | 23 => w.round
  | 24 => nat w.lt
  | 25 => if s.isRound w then w.retired else Config.freeClock s.clock
  | 26 => w.utvec
  | 27 => w.trapArea
  | _ => 0

/-! ### Reading an operand -/

/-- What the execution of one word reads from: the wave as it stood, its split's active mask, the lanes that execute,
the values popped from queues (R113) and, for a chained instruction, the carry (R123). -/
structure Env where
  n : Nat
  k : Nat
  w : Wave
  sp : Split
  active : W32
  exec : W32
  pops : Tab W64
  carry : W64
  deriving DecidableEq, Repr

/-- The lowest active lane (R104). -/
def Env.first (e : Env) : Nat := (lowest e.active).getD 0

/-- The lowest executing lane. -/
def Env.firstExec (e : Env) : Nat := (lowest e.exec).getD 0

/-- An inline constant, sign-extended to 64 bits (R230, R231). -/
def immBits (n : BitVec 6) : W64 := BitVec.ofInt 64 ((n.toNat : Int) - 32)

/-- A 64-bit integer operand in a lane (R231): a pair of V or O, or a whole 64-bit source. `prev` is the carry the lane
sees. -/
def State.read64 (s : State) (e : Env) (x : Operand) (lane : Nat) (prev : W64) : W64 :=
  match x with
  | .v n => (e.w.vreg (n.toNat + 1) lane ++ e.w.vreg n.toNat lane : W64)
  | .o n => (e.w.oreg (n.toNat + 1) lane ++ e.w.oreg n.toNat lane : W64)
  | .l => e.w.lreg lane
  | .s n => e.w.sreg n.toNat
  | .prev _ => prev
  | .q n => Tab.getD e.pops n.toNat 0
  | .p n => if e.w.pbit n.toNat lane then 1 else 0
  | .zero => 0
  | .lit v => v
  | .special n => s.special e.w e.active n.toNat lane
  | .acc _ => 0
  | .imm n => immBits n

/-- A 32-bit integer operand in a lane (R231). -/
def State.read32 (s : State) (e : Env) (x : Operand) (lane : Nat) (prev : W64) : W32 :=
  match x with
  | .v n => e.w.vreg n.toNat lane
  | .o n => e.w.oreg n.toNat lane
  | _ => lo32 (s.read64 e x lane prev)

/-- An integer operand of one or two registers, in 64 bits (zero-extended from 32). -/
def State.readInt (s : State) (e : Env) (regs : Nat) (x : Operand) (lane : Nat) (prev : W64) : W64 :=
  if regs = 1 then (s.read32 e x lane prev).setWidth 64 else s.read64 e x lane prev

/-- A quad of registers in a lane. -/
def Wave.readQuad (w : Wave) (x : Operand) (lane : Nat) : BitVec 128 :=
  match x with
  | .v n => (w.vreg (n.toNat + 3) lane ++ w.vreg (n.toNat + 2) lane ++ w.vreg (n.toNat + 1) lane ++ w.vreg n.toNat lane
      : BitVec 128)
  | .o n => (w.oreg (n.toNat + 3) lane ++ w.oreg (n.toNat + 2) lane ++ w.oreg (n.toNat + 1) lane ++ w.oreg n.toNat lane
      : BitVec 128)
  | _ => 0

/-- A float operand's encoding in a format (R231): an inline constant converts exactly, a 16-bit value lies in bits
15..0. -/
def State.readFloat (s : State) (e : Env) (f : Fmt) (x : Operand) (lane : Nat) (prev : W64) : Nat :=
  match x with
  | .imm n => (f.ofInt .rne ((n.toNat : Int) - 32)).1
  | _ =>
    if f.bits = 64 then (s.read64 e x lane prev).toNat
    else (s.read32 e x lane prev).toNat % 2 ^ f.bits

/-- A uniform operand, 64 bits (R104). -/
def State.uni (s : State) (e : Env) (x : Operand) : W64 := s.read64 e x e.first 0

/-- A predicate operand in a lane. -/
def Wave.readPred (w : Wave) (x : Operand) (lane : Nat) : Bool :=
  match x with
  | .p n => w.pbit n.toNat lane
  | _ => false

/-- Write a predicate destination in one lane. -/
def Wave.writePred (w : Wave) (x : Operand) (lane : Nat) (b : Bool) : Wave :=
  match x with
  | .p n => w.setPbit n.toNat lane b
  | _ => w

/-- Write a predicate destination alike in every lane of a mask. -/
def Wave.writePreds (w : Wave) (x : Operand) (m : W32) (b : Bool) : Wave :=
  (lanesOf m).foldl (fun w l => w.writePred x l b) w

/-- Write an S destination. -/
def Wave.writeS (w : Wave) (x : Operand) (v : W64) : Wave :=
  match x with
  | .s n => w.setS n.toNat v
  | _ => w

/-- The lanes of a mask in which the guard holds (R229). -/
def Wave.guarded (w : Wave) (h : Head) (m : W32) : W32 :=
  let g := w.preg h.gp.toNat
  m &&& (if h.gn then ~~~g else g)

/-! ### Registers an instruction reads and writes (R234) -/

/-- The registers an operand names when it covers `n` registers. -/
def operandRegs (n : Nat) : Operand → List RegName
  | .v r => (List.range n).map fun i => .v (r.toNat + i)
  | .o r => (List.range n).map fun i => .o (r.toNat + i)
  | .l => [.l]
  | .s r => [.s r.toNat]
  | .p r => [.p r.toNat]
  | _ => []

/-- How many registers a role covers. -/
def roleCount : Role → Nat
  | .dst n | .dstVO n | .dstVOS n | .src n | .voSrc n => n
  | .joinSrc => 2
  | _ => 1

/-- Registers an operand in its role names; a tile-scale pair Sn, Sn+1 counts both (R341). -/
def roleRegs (x : Role × Operand) : List RegName :=
  match x.1, x.2 with
  | .sEven, .s r => [.s r.toNat, .s (r.toNat + 1)]
  | _, y => operandRegs (roleCount x.1) y

end Sys2Proof.Machine
end

