-- ==== Sys2Proof/Machine/Queues.lean ====
section
/-!
DEFINITION. Task records and the owner's task queues: the counters of a ring the device keeps (R78–R82), commits and
the room they wait for (R87), posting (R85), and the pool (R88).
-/
namespace Sys2Proof.Machine

/-- A task record from its 32 bytes (R83). -/
def cardOf (b : List Byte) : TaskRec :=
  { control := BitVec.ofNat 64 (leAt b 0 8), arg := BitVec.ofNat 64 (leAt b 8 8), join := BitVec.ofNat 64 (leAt b 16 8),
    depth := BitVec.ofNat 32 (leAt b 24 4), ownerTag := BitVec.ofNat 32 (leAt b 28 4) }

/-- KIND of a task record (R84). -/
def TaskRec.kind (r : TaskRec) : Nat := (r.control.extractLsb' 60 2).toNat
/-- RND of a task record (R84). -/
def TaskRec.rnd (r : TaskRec) : Bool := r.control.getLsbD 59
/-- PRIO of a task record (R84). -/
def TaskRec.prio (r : TaskRec) : Nat := (r.control.extractLsb' 56 3).toNat
/-- ENTRY of a task record, as an address (R84). -/
def TaskRec.entry (r : TaskRec) : W64 := r.control &&& 0x0000FFFFFFFFFFF8#64
/-- The reserved bits of the control word are zero (R84). -/
def TaskRec.reservedOk (r : TaskRec) : Bool := r.control &&& 0xC0FF000000000007#64 == 0

/-- The control word of a resume card (R97). -/
def resumeControl (prio : Nat) (entry : W64) : W64 :=
  BitVec.ofNat 64 (2 * 2 ^ 60 + prio % 8 * 2 ^ 56) ||| (entry &&& 0x0000FFFFFFFFFFF8#64)

/-- A record as posting fills it (R85): owner tag, RND, PRIO and depth. -/
def TaskRec.posted (r : TaskRec) (owner : Nat) (rnd : Bool) (ceiling : Nat) (depth : W32) : TaskRec :=
  let prio := min r.prio ceiling
  let c := (r.control &&& 0xF0FFFFFFFFFFFFFF#64) ||| BitVec.ofNat 64 (prio * 2 ^ 56 + rnd.toNat * 2 ^ 59)
  { r with control := c, ownerTag := BitVec.ofNat 32 owner, depth := depth }

/-- The number of a die's queue. -/
def dieQueue (die : Nat) : Nat := 512 + die

/-- An empty queue of 2^log2 bytes; its counters start at 0 (R78). -/
def TaskQueue.empty (log2 : Nat) : TaskQueue :=
  { ctl := { log2 := log2, reserve := 0, commit := 0, take := 0, release := 0 }, recs := [] }

/-- The queue with a committed record of 40 bytes, and a skip record before it where the region ends (R81); none when
there is no room. -/
def TaskQueue.append (q : TaskQueue) (r : QueueRec) : Option TaskQueue :=
  let size := 2 ^ q.ctl.log2
  let pos := q.ctl.reserve % size
  let skip := if pos + 40 > size then size - pos else 0
  if q.ctl.reserve + skip + 40 - q.ctl.release ≤ size then
    let skips : List QueueRec := if skip = 0 then [] else
      [{ r with pos := q.ctl.reserve, len := skip, type := 0, committed := true, held := false, released := true,
                launch := none, parked := none }]
    let n := q.ctl.reserve + skip + 40
    some { ctl := { q.ctl with reserve := n, commit := n },
           recs := q.recs ++ skips ++ [{ r with pos := q.ctl.reserve + skip, len := 40, type := 2, committed := true }] }
  else none

/-- The released records at the head of a queue dropped, and the release counter after them (R81). -/
def dropReleased : List QueueRec → Nat → List QueueRec × Nat
  | [], c => ([], c)
  | r :: rest, c => if r.released then dropReleased rest (r.pos + r.len) else (r :: rest, c)

/-- The take counter over a queue's records: past each held, released or skip record from where it stands (R81). -/
def advanceTake (take : Nat) (recs : List QueueRec) : Nat :=
  recs.foldl (fun t r => if r.pos == t && (r.held || r.released || r.type == 0) then r.pos + r.len else t) take

/-- Take and release the records at given positions (R81 steps 3 and 4). -/
def TaskQueue.consume (q : TaskQueue) (ps : List Nat) : TaskQueue :=
  let recs := q.recs.map fun r => if ps.contains r.pos then { r with held := true, released := true } else r
  let (rest, rel) := dropReleased recs q.ctl.release
  { ctl := { q.ctl with take := advanceTake q.ctl.take recs, release := rel }, recs := rest }

/-- The record a commit makes, with its task index: from the launch's own counter in round mode, else from the owner's
(R90). Resume cards take no index. -/
def State.indexFor (s : State) (o : Nat) (card : TaskRec) (launch : Option Nat) : W64 × State :=
  if card.kind = 2 then (0, s)
  else
    match launch.bind s.launch? with
    | some l =>
      if l.round then
        (l.taskCounter, s.updLaunch (launch.getD 0) fun x => { x with taskCounter := x.taskCounter + 1 })
      else ((s.owner? o).elim 0 (·.taskCounter), s.updOwner o fun x => { x with taskCounter := x.taskCounter + 1 })
    | none => ((s.owner? o).elim 0 (·.taskCounter), s.updOwner o fun x => { x with taskCounter := x.taskCounter + 1 })

/-- Commit a record to a queue, where it has room (R81, R87). -/
def State.tryCommit (s : State) (o : Nat) (c : WaitingCommit) : Option State :=
  match s.owner? o with
  | none => none
  | some ow =>
    match Tab.find ow.queues c.queue with
    | none => none
    | some q =>
      let (ix, t) := s.indexFor o c.card c.launch
      let r : QueueRec := { pos := 0, len := 40, type := 2, committed := true, held := false, released := false,
                            ptag := c.ptag, card := c.card, index := ix, launch := c.launch, version := c.version,
                            parked := c.parked, passed := 0 }
      match q.append r with
      | none => none
      | some q' =>
        some ((t.updOwner o fun x => { x with queues := Tab.put x.queues c.queue q' }).stir c.launch)

/-- Commit a record, or let it wait at its queue for room (R87). -/
def State.commitOrWait (s : State) (o : Nat) (c : WaitingCommit) : State :=
  match s.tryCommit o c with
  | some t => t
  | none => s.updOwner o fun x => { x with commits := x.commits ++ [c] }

/-- Some commit waits at the queue already: a later one waits behind it. -/
def Owner.hasWaiting (o : Owner) (q : Nat) : Bool := o.commits.any fun c => c.queue == q

/-- Post a record to a queue. -/
def State.postTo (s : State) (o : Nat) (c : WaitingCommit) : State :=
  match s.owner? o with
  | none => s
  | some ow => if ow.hasWaiting c.queue then s.updOwner o fun x => { x with commits := x.commits ++ [c] }
    else s.commitOrWait o c

/-- Commit the records that wait at a queue and may go now, in their order, while there is room (R87). -/
def State.flushCommits (s : State) (o q : Nat) (may : WaitingCommit → Bool) : Nat → State
  | 0 => s
  | fuel + 1 =>
    match (s.owner? o).bind fun x => x.commits.find? fun c => c.queue == q && may c with
    | none => s
    | some c =>
      match s.tryCommit o c with
      | none => s
      | some t => State.flushCommits (t.updOwner o fun x => { x with commits := x.commits.erase c }) o q may fuel

/-- The pool has room for one more entry (R88). -/
def Owner.poolRoom (o : Owner) : Bool := decide (o.pool < o.poolQuota)

/-- Change an owner's pool count. -/
def State.poolAdd (s : State) (o n : Nat) : State := s.updOwner o fun x => { x with pool := x.pool + n }
/-- Take entries from an owner's pool count. -/
def State.poolSub (s : State) (o n : Nat) : State := s.updOwner o fun x => { x with pool := x.pool - n }

end Sys2Proof.Machine
end

