-- ==== Sys2Proof/Machine/Rings.lean ====
section
/-!
DEFINITION. Byte rings in an owner's memory (R78–R82, R319–R322): the control block, record headers, and the actions that
reserve, commit, take and release a record, each one atomic action on the ring.
-/
namespace Sys2Proof.Machine

/-- Why a ring action does not happen. -/
inductive RingError where
  | fault (cause address : Nat)   -- an access of the control block or the region faults (R312)
  | malformed                     -- R78
  | asks (home address : Nat)     -- the header there is to be read in its home package first
  deriving DecidableEq, Repr

/-- A ring as its control block gives it (R78); `die` is the die that the accesses of an action on it come from, `far` the headers
on remote pages that the action has read, and `job` its number where it is one of `State.ringJobs`. -/
structure Ring where
  die : Option Nat
  far : List (Nat × Nat)
  job : Nat
  launch : Option Nat
  cb : Nat
  base : Nat
  size : Nat
  reserve : Nat
  commit : Nat
  take : Nat
  release : Nat
  deriving DecidableEq, Repr

/-- Check an access of a ring by an owner from a die: an 8-byte atomic, or the aligned control block (R8, R145, R218). -/
def State.ringCheck (s : State) (die : Option Nat) (o : Owner) (a size n : Nat) : Option RingError :=
  match o.checkGlobal a size .atomic with
  | some c => some (.fault c a)
  | none => if (o.remoteAt a).isNone && s.badGlobal die o a n then some (.fault 0x20 a) else none

/-- Open a ring: read its control block (R78), which lies in this package. -/
def State.openRing (s : State) (die : Option Nat) (far : List (Nat × Nat)) (job : Nat) (by' : Writer) (id cb : Nat) :
    Except RingError Ring :=
  match s.owner? id with
  | none => .error (.fault 0x18 cb)
  | some o =>
    match s.ringCheck die o cb 64 64 with
    | some e => .error e
    | none =>
      if (o.remoteAt cb).isSome then .error (.fault 0x20 cb) else
      let b := o.bytes id s.now cb 64
      let lg := leAt b 8 1
      if lg < 12 || lg > 30 || !(allZero (slice b 9 7)) || !(allZero (slice b 48 16)) then .error .malformed
      else .ok { die := die, far := far, job := job, launch := by'.map (·.1), cb := cb, base := leAt b 0 8, size := 2 ^ lg, reserve := leAt b 16 8, commit := leAt b 24 8,
                 take := leAt b 32 8, release := leAt b 40 8 }

/-- The address of the record at a counter value. -/
def Ring.at (r : Ring) (ctr : Nat) : Nat := (r.base + ctr % r.size) % 2 ^ 64

/-- The header of the record at a counter value: on a remote page, as the action has read it there (R33). -/
def State.ringHeader (s : State) (id : Nat) (r : Ring) (ctr : Nat) : Except RingError Nat :=
  match s.owner? id with
  | none => .error (.fault 0x18 (r.at ctr))
  | some o =>
    match s.ringCheck r.die o (r.at ctr) 8 8 with
    | some e => .error e
    | none =>
      match o.remoteAt (r.at ctr) with
      | none => .ok (ofLe (o.bytes id s.now (r.at ctr) 8))
      | some home => match r.far.find? fun x => x.1 == r.at ctr with
        | some x => .ok x.2
        | none => .error (.asks home (r.at ctr))

/-- The lane number of the remote accesses of a ring job. -/
def ringLane : Nat := 39

/-- What notes a remote access of a ring job, its number standing for the split. -/
def ringReq (owner job : Nat) (launch : Option Nat) : RemoteReq :=
  { owner := owner, engine := none, wave := 0, split := job, lane := ringLane, posted := false, handler := false, launch := launch,
    others := [] }

/-- Write a header whose access has been checked, at its home package where it lies on a remote page (R33); the ring knows a remote
header as it is then. -/
def State.putHeader (s : State) (by' : Writer) (id : Nat) (r : Ring) (ctr h : Nat) : Except RingError (State × Ring) :=
  match (s.owner? id).bind fun o => o.remoteAt (r.at ctr) with
  | none => .ok (s.putBytes by' id (r.at ctr) (leBytes 8 h), r)
  | some home =>
    match s.request r.die home (BitVec.ofNat 64 (r.at ctr)) (.store (leBytes 8 h)) (ringReq id r.job r.launch) with
    | none => .error (.fault 0x20 (r.at ctr))
    | some (_, t) => .ok (t, { r with far := (r.at ctr, h) :: r.far })

/-- Write the four counters back. -/
def State.putCounters (s : State) (by' : Writer) (id : Nat) (r : Ring) : State :=
  s.putBytes by' id (r.cb + 16) (leBytes 8 r.reserve ++ leBytes 8 r.commit ++ leBytes 8 r.take ++ leBytes 8 r.release)

/-- LEN of a header. -/
def hLen (h : Nat) : Nat := h % 2 ^ 32
/-- TYPE of a header. -/
def hType (h : Nat) : Nat := h / 2 ^ 32 % 256
/-- A header marks a malformed record (R79, R80). -/
def hMalformed (h : Nat) : Bool := h / 2 ^ 43 % 32 != 0 || decide (hType h > 4)
/-- The header counts as a skip record. -/
def hSkip (h : Nat) : Bool := hType h == 0 || hMalformed h

/-- A counter moved over the contiguous records that pass a test, up to a bound (R81). -/
def State.sweep (s : State) (id : Nat) (r : Ring) (pass : Nat → Bool) (limit : Nat) : Nat → Nat → Except RingError Nat
  | 0, c => .ok c
  | fuel + 1, c =>
    if c ≥ limit then .ok c
    else
      match s.ringHeader id r c with
      | .error e => .error e
      | .ok h => if hLen h = 0 || !(pass h) then .ok c else State.sweep s id r pass limit fuel (c + hLen h)

/-- A header that a take counter passes: held, released, or a skip record. A malformed record stands in its way until a take
has reported it and set H (R81, R321). -/
def passTaken (h : Nat) : Bool := h.testBit 41 || h.testBit 42 || (hType h == 0 && !(hMalformed h))

/-- A header that a release counter passes: released, a skip record, or a malformed record that a take has reported. -/
def passReleased (h : Nat) : Bool := h.testBit 42 || (if hMalformed h then h.testBit 41 else hType h == 0)

/-- After a commit the commit counter passes every committed record (R81 step 2). -/
def State.settleCommit (s : State) (by' : Writer) (id : Nat) (r : Ring) : Except RingError State := do
  let c ← s.sweep id r (fun h => h.testBit 40) r.reserve ((r.reserve - r.commit) / 8 + 1) r.commit
  return s.putCounters by' id { r with commit := c }

/-- After a take the take counter passes what is held, released or skipped (R81 step 3). -/
def State.settleTake (s : State) (by' : Writer) (id : Nat) (r : Ring) : Except RingError State := do
  let c ← s.sweep id r passTaken r.commit ((r.commit - r.take) / 8 + 1) r.take
  return s.putCounters by' id { r with take := c }

/-- After a release the release counter passes what is released or skipped, as far as the take counter (R81 step 4). -/
def State.settleRelease (s : State) (by' : Writer) (id : Nat) (r : Ring) : Except RingError State := do
  let c ← s.sweep id r passReleased r.take ((r.take - r.release) / 8 + 1) r.release
  return s.putCounters by' id { r with release := c }

/-- Reserve a record (R81 step 1, R320): its address, or none where it does not fit. Where nothing before a skip record is
uncommitted, the commit counter passes it. -/
def State.ringReserve (s : State) (by' : Writer) (id : Nat) (r : Ring) (len type ptag : Nat) :
    Except RingError (Option (Nat × State)) := do
  let pos := r.reserve % r.size
  let skip := if pos + len > r.size then r.size - pos else 0
  if r.reserve + skip + len - r.release > r.size then return none
  let start := r.reserve + skip
  let _ ← s.ringHeader id r r.reserve
  let _ ← s.ringHeader id r start
  let (s, r) ← if skip > 0 then s.putHeader by' id r r.reserve (recordHeader skip 0 true false false 0) else pure (s, r)
  let (s, r) ← s.putHeader by' id r start (recordHeader len type false false false ptag)
  let commit := if r.commit = r.reserve then start else r.commit
  return some (r.at start, s.putCounters by' id { r with reserve := start + len, commit := commit })

/-- The counter value of the record at an address, counted from a counter at or below it. -/
def Ring.counterOf (r : Ring) (c a : Nat) : Nat :=
  c + (((a : Int) - r.base - c) % (r.size : Int)).toNat

/-- What a take finds: a record, and the first malformed record it passes that no take has reported (R321; log entry 112). -/
structure Taken where
  at' : Option Nat        -- the record's counter value
  mark : Option Nat       -- the malformed record's
  deriving DecidableEq, Repr

/-- The first takeable record from a counter (R82). -/
def State.findTake (s : State) (id : Nat) (r : Ring) : Nat → Nat → Except RingError Taken
  | 0, _ => .ok { at' := none, mark := none }
  | fuel + 1, c =>
    if c ≥ r.commit then .ok { at' := none, mark := none }
    else
      match s.ringHeader id r c with
      | .error e => .error e
      | .ok h =>
        if hLen h = 0 then .ok { at' := none, mark := none }
        else if hMalformed h then
          match State.findTake s id r fuel (c + hLen h) with
          | .error e => .error e
          | .ok t => .ok (if h.testBit 41 then t else { t with mark := some c })
        else if hType h ≠ 0 && !(h.testBit 41) && !(h.testBit 42) then .ok { at' := some c, mark := none }
        else State.findTake s id r fuel (c + hLen h)

/-- The header of a record a core takes: held, and a task record becomes a held task of the core (R80, R81 step 3). -/
def heldHeader (h core : Nat) : Nat :=
  if hType h = 2 then recordHeader (hLen h) 3 (h.testBit 40) true (h.testBit 42) (2 ^ 15 + core) else h ||| 2 ^ 41

/-- What a ring action answers with: the address of a record, if any, and that of a malformed record it reports. -/
structure RingAnswer where
  record : Option Nat
  bad : Option Nat
  deriving DecidableEq, Repr

/-- A record's header changed, the record found by its counter value. -/
def State.changeHeader (s : State) (by' : Writer) (id : Nat) (r : Ring) (ctr : Nat) (f : Nat → Nat) :
    Except RingError (State × Ring) := do
  let h ← s.ringHeader id r ctr
  s.putHeader by' id r ctr (f h)

/-- Take the first takeable record for a core (R81 step 3, R82, R321), and report a malformed record passed unless `quiet`. -/
def State.ringTake (s : State) (by' : Writer) (id : Nat) (r : Ring) (core : Nat) (quiet : Bool) : Except RingError (RingAnswer × State) := do
  let t ← s.findTake id r ((r.commit - r.release) / 8 + 1) r.release
  let mark := if quiet then none else t.mark
  let (s, r) ← match mark with
    | none => pure (s, r)
    | some c => s.changeHeader by' id r c fun h => h ||| 2 ^ 41
  let (s, r) ← match t.at' with
    | none => pure (s, r)
    | some c => s.changeHeader by' id r c fun h => heldHeader h core
  let s ← s.settleTake by' id r
  return ({ record := t.at'.map r.at, bad := mark.map r.at }, s)

/-- A header with another type. -/
def setType (h type : Nat) : Nat := h % 2 ^ 32 + type * 2 ^ 32 + h / 2 ^ 40 * 2 ^ 40

/-- The header of an open reservation as a committed skip record: TYPE is 0 and C is set (R322). -/
def skipHeader (h : Nat) : Nat := setType h 0 ||| 2 ^ 40

/-- The header of a held record as it is given back: H is clear, and a held task record is a task record again (R93, R322). -/
def givenBack (h : Nat) : Nat :=
  let x := setType h (if hType h = 3 then 2 else hType h)
  if x.testBit 41 then x - 2 ^ 41 else x

/-- Commit (bit 40) or release (bit 42) a record: the bit is set in its header, and the counter moves (R81 steps 2 and 4). -/
def State.ringMark (s : State) (by' : Writer) (id : Nat) (r : Ring) (ctr bit : Nat) : Except RingError State := do
  let (t, r) ← s.changeHeader by' id r ctr fun h => h ||| 2 ^ bit
  if bit = 40 then t.settleCommit by' id r else t.settleRelease by' id r

/-- Perform an action on the ring of a control block (R81, R320–R322): one atomic action. A reservation of more than half the
region is refused as a malformed ring is. -/
def State.ringPerform (s : State) (die : Option Nat) (far : List (Nat × Nat)) (job : Nat) (by' : Writer) (id cb : Nat)
    (op : RingOp) : Except RingError (RingAnswer × State) := do
  let r ← s.openRing die far job by' id cb
  let plain (s : State) : RingAnswer × State := ({ record := none, bad := none }, s)
  match op with
  | .reserve len type core =>
    if len > r.size / 2 then throw .malformed
    match ← s.ringReserve by' id r len type (2 ^ 15 + core) with
    | some (a, t) => return ({ record := some a, bad := none }, t)
    | none => return plain s
  | .commit a => return plain (← s.ringMark by' id r (r.counterOf r.commit a) 40)
  | .take core quiet => s.ringTake by' id r core quiet
  | .release a => return plain (← s.ringMark by' id r (r.counterOf r.release a) 42)
  | .skip a =>
    let (t, r) ← s.changeHeader by' id r (r.counterOf r.commit a) skipHeader
    return plain (← t.settleCommit by' id r)
  | .revert a =>
    let (t, _) ← s.changeHeader by' id r (r.counterOf r.release a) givenBack
    return plain t

/-- A ring action's answer as the home package sends it: whether the ring is malformed, the record and the malformed record,
each address after a flag. -/
def RingAnswer.bytes (x : RingAnswer) : List Byte :=
  let field (a : Option Nat) : List Byte := leBytes 8 a.isSome.toNat ++ leBytes 8 (a.getD 0)
  leBytes 8 0 ++ field x.record ++ field x.bad

/-- The answer of a malformed ring. -/
def malformedAnswer : List Byte := leBytes 8 1

/-- A ring action's answer as it arrives. -/
def ringAnswerOf (b : List Byte) : Except RingError RingAnswer :=
  let field (i : Nat) : Option Nat := if leAt b i 8 = 0 then none else some (leAt b (i + 8) 8)
  if leAt b 0 8 ≠ 0 then .error .malformed else .ok { record := field 8, bad := field 24 }

/-! ### Rings whose records lie in another package (R33, R81) -/

/-- The split with one more answer: for its fetch of a clause word (lane 37), or for its instruction. -/
def Split.answered (p : Split) (y : RemoteReply) : Split :=
  if y.lane = 37 then
    match p.fetchAt with
    | some a => { p with fetched := p.fetched ++ [(a, if y.ok then some (BitVec.ofNat 64 (ofLe y.data)) else none)],
                         fetchAt := none, waiting := .none }
    | none => p
  else { p with retry := p.retry.map fun r => { r with replies := r.replies ++ [y] } }

/-- An answer goes to the split that asked: of the instruction that a bell performs apart, of the trap context where a handler has
begun since, or of the wave. -/
def Wave.takeReply (w : Wave) (k : Nat) (handler : Bool) (y : RemoteReply) : Wave :=
  match w.buffer.head?, w.trapCtx with
  | some (.word j p), _ =>
    if j = k && p.waiting = .remote then { w with buffer := .word j (p.answered y) :: w.buffer.drop 1 }
    else w.updSplit k fun p => p.answered y
  | _, some c =>
    if handler then w.updSplit k fun p => p.answered y
    else { w with trapCtx := some { c with splits := Tab.upd c.splits k fun p => p.answered y } }
  | _, none => if handler then w else w.updSplit k fun p => p.answered y

/-- The lane under which the answer to an action on an object in memory comes. -/
def objectLane : Nat := 34

/-- The answer of a ring action that an access has failed: its cause and address. -/
def faultAnswer (cause a : Nat) : List Byte := leBytes 1 cause ++ leBytes 8 a

/-- Some ring job is under way, or waits, at a control block. -/
def State.ringBusy (s : State) (owner cb : Nat) : Bool := s.ringJobs.any fun x => x.2.owner == owner && x.2.control == cb

/-- A remote access of a ring job is under way. -/
def State.jobOut (s : State) (id : Nat) : Bool := s.remote.any fun x => x.2.lane == ringLane && x.2.split == id

/-- A ring job has ended: its answer goes to who asked. -/
def State.endJob (s : State) (id : Nat) (j : RingJob) (ok : Bool) (data : List Byte) : State :=
  let s := { s with ringJobs := Tab.drop s.ringJobs id }
  match j.asker with
  | .lane n k handler => s.updWave n fun w => w.takeReply k handler { lane := objectLane, ok := ok, data := data }
  | .package requester posted =>
    { s with tx := s.tx ++ [.remoteAnswer requester ok (if posted || !ok then [] else data)] }
  | .nobody => s

/-- What a ring action comes to for a job: it acts, or the first header it lacks is read at its home package; none where it has
ended. -/
def State.runJob (s : State) (id : Nat) (j : RingJob) : State :=
  match s.ringPerform j.die j.got id j.launch j.owner j.control j.op with
  | .ok (y, t) =>
    if t.jobOut id then { t with ringJobs := Tab.put t.ringJobs id { j with asked := none, answer := some (true, y.bytes) } }
    else t.endJob id j true y.bytes
  | .error .malformed => s.endJob id j true malformedAnswer
  | .error (.fault c a) =>
    -- an uncorrectable sector that another package's action meets here is logged here (R218)
    let s := match j.asker with
      | .package .. => s.logSectors j.owner a 8
      | _ => s
    s.endJob id j false (faultAnswer c a)
  | .error (.asks home a) =>
    match s.request j.die home (BitVec.ofNat 64 a) (.load 8) (ringReq j.owner id (j.launch.map (·.1))) with
    | none => s.endJob id j false (faultAnswer 0x20 a)
    | some (_, t) => { t with ringJobs := Tab.put t.ringJobs id { j with asked := some a } }

/-- The first ring job of a control block begins, and the next where it ends at once. -/
def State.nextJob (s : State) (owner cb : Nat) : Nat → State
  | 0 => s
  | fuel + 1 =>
    match s.ringJobs.find? fun x => x.2.owner == owner && x.2.control == cb with
    | none => s
    | some (id, j) =>
      if s.jobOut id then s
      else
        let t := s.runJob id j
        if (Tab.find t.ringJobs id).isSome then t else State.nextJob t owner cb fuel

/-- A ring action that cannot be performed at once becomes a ring job, behind those of its ring. -/
def State.addJob (s : State) (j : RingJob) : State :=
  let (id, s) := s.newId
  { s with ringJobs := Tab.put s.ringJobs id j }.nextJob j.owner j.control (s.ringJobs.length + 1)

/-- The answer of a remote access of a ring job: a header it has read, or the acknowledgement of one it has written. -/
def State.jobAnswered (s : State) (id : Nat) (ok : Bool) (data : List Byte) : State :=
  match Tab.find s.ringJobs id with
  | none => s
  | some j =>
    let s := match j.answer with
      | none =>
        let a := j.asked.getD 0
        if ok then s.runJob id { j with got := j.got ++ [(a, ofLe data)], asked := none }
        else s.endJob id j false (faultAnswer 0x20 a)
      | some (good, bytes) =>
        let x := if ok then (good, bytes) else (false, faultAnswer 0x20 j.control)
        if s.jobOut id then { s with ringJobs := Tab.put s.ringJobs id { j with answer := some x } }
        else s.endJob id j x.1 x.2
    s.nextJob j.owner j.control (s.ringJobs.length + 1)

end Sys2Proof.Machine
end

