-- ==== Sys2Proof/Machine/Ops.lean ====
section
/-!
DEFINITION. The shared operations of instruction words: moving through a clause (R223, R227), splits and their joins
(R135–R140), chains (R123–R128), queues (R113), ending waves and teams (R71, R96, R220), taking a trap (R210–R214)
and returning from one (R215), and the frame in which every word executes (R211).
-/
namespace Sys2Proof.Machine

/-- No word is being executed. -/
def State.clearCur (s : State) : State := { s with cur := none }

/-! ### Moving through a clause -/

/-- The words of a split's clause after its header. -/
def Split.words (p : Split) : List W64 := p.clause.drop 1

/-- The header of a split's clause. -/
def Split.header (p : Split) : Header := headerOf (p.clause.headD 0)

/-- The split between clauses, at a clause address. -/
def Split.goto (p : Split) (a : W64) : Split :=
  { p with pc := a, clause := [], word := 0, tokensMet := false, windows := [], retry := none, skipBreak := false,
           waiting := .none, fetched := [], fetchAt := none, readySince := none }

/-- The address of the header that follows the clause (R279). -/
def Split.nextHeader (p : Split) : W64 := p.pc + BitVec.ofNat 64 (8 * (p.header.count.toNat + 2))

/-- The split after its current word: at the clause's next instruction word, or at the next clause header. -/
def Split.advance (p : Split) : Split :=
  let ws := p.words
  match nextWord p.header ws.length (p.word + 1) ws.length with
  | some j => { p with word := j, retry := none, skipBreak := false, waiting := .none }
  | none => p.goto p.nextHeader

/-- The clause of the split ends with its current word. -/
def Split.atLast (p : Split) : Bool := (nextWord p.header p.words.length (p.word + 1) p.words.length).isNone

/-- The instruction word at which the split stands. -/
def Split.current (p : Split) : W64 := p.words.getD p.word 0

/-- The literals of the clause that the instruction at which a split stands may take (R232). -/
def Split.literals (p : Split) : List W64 := literalsOf (p.clause.headD 0) p.words p.word

/-- The lookahead windows after one more word, and a new one where the word opens it (R234). -/
def stepWindows (ws : List Window) (new : Option Window) : List Window :=
  (ws.filterMap fun x => if x.left ≤ 1 then none else some { x with left := x.left - 1 }) ++ new.toList

/-! ### Splits -/

/-- A split with its stack reloaded from the spill area (R140): the newest spilled entries come back as pops reach
them, so that the stack on chip holds sixteen entries while more exist. -/
def Split.reload (p : Split) : Split :=
  match p.spill with
  | e :: r => if p.stack.length < 16 then { p with stack := p.stack ++ [e], spill := r } else p
  | [] => p

/-- The split takes up its stack after its active lanes have all gone, `fuel` entries at most (R139): at the pending
entry's fall-through, or after the JOIN of a returned one; none when its stack is empty. -/
def Split.takeUp (p : Split) : Nat → Option Split
  | 0 => none
  | fuel + 1 =>
    match p.stack with
    | [] => none
    | e :: r =>
      if !e.returned then
        let q := { p.goto e.fall with mask := e.mask, stack := { e with mask := 0, returned := true } :: r }
        if q.mask = 0 then Split.takeUp q fuel else some q
      else
        -- word 1: the clause at J continues after its JOIN
        let q := { { p.goto e.join with mask := e.mask, stack := r, word := 1, tokensMet := true } with }.reload
        if q.mask = 0 then Split.takeUp q fuel else some q

/-- The splits of a wave in rotation from the one whose turn it is, those at a JOIN left out (R120, R141). -/
def Wave.rotation (w : Wave) : List (Nat × Split) :=
  ((List.range 4).map fun i => (w.nextSplit + i) % 4).filterMap fun k =>
    (Tab.find w.splits k).bind fun p => if p.arrived.isNone then some (k, p) else none

/-- The split whose turn it is: the one whose clause has begun, or the next in rotation (R120, R141). -/
def Wave.dueSplit (w : Wave) : Option (Nat × Split) :=
  match w.begun.bind fun k => (Tab.find w.splits k).map fun p => (k, p) with
  | some x => if x.2.arrived.isNone then some x else w.rotation.head?
  | none => w.rotation.head?

/-- The splits that hold the same join context as `p`. -/
def Wave.siblings (w : Wave) (p : Split) : Tab Split := w.splits.filter fun x => x.2.context == p.context

/-- Merge the splits of one context that have all arrived at their JOIN (R138 case 3). -/
def Wave.mergeAt (w : Wave) (k : Nat) (p : Split) : Wave :=
  let group := w.siblings p
  let low := (Tab.find w.splits ((group.map (·.1)).foldl min k)).getD p
  let id := (group.map (·.1)).foldl min k
  let mask := group.foldl (fun m x => m ||| x.2.mask) 0
  let merged := { low with mask := mask, context := p.context.dropLast, arrived := none }.advance
  { w with splits := Tab.put (w.splits.filter fun x => !((group.map (·.1)).contains x.1)) id merged }

/-- Every split whose join context equals that of `p` has arrived at the JOIN at `j` (R138 case 3; log entry 91). -/
def Wave.allArrived (w : Wave) (p : Split) (j : W64) : Bool := (w.siblings p).all fun x => x.2.arrived == some j

/-- The splits of the context of `p` merge where every one of them has arrived at the JOIN at `j` (R138 case 3). -/
def Wave.arriveAt (w : Wave) (p : Split) (j : W64) : Wave :=
  match w.siblings p with
  | [] => w
  | x :: _ => if w.allArrived p j then w.mergeAt x.1 x.2 else w

/-- Merge wherever every split of a context has arrived, looking `fuel` times (R138, R139). -/
def Wave.settleJoins (w : Wave) : Nat → Wave
  | 0 => w
  | fuel + 1 =>
    match w.splits.find? fun x => x.2.arrived.any fun j => w.allArrived x.2 j with
    | some x => Wave.settleJoins (w.mergeAt x.1 x.2) fuel
    | none => w

/-! ### Chains -/

/-- The wave whose link names a wave on a slot (R125): a link is given up at exit, not at PACK (R96). -/
def State.successor (s : State) (t : Team) (slot index : Nat) : Option (Nat × Wave) :=
  t.waves.findSome? fun m => match s.wave? m with
    | some x => if x.life ≠ .exited && (x.chain slot).link == some index then some (m, x) else none
    | none => none

/-- What a chained instruction finds on its slot (R126, R128). -/
inductive ChainInput where
  | value (v : W64)
  | empty
  | full
  | closed

/-- The output of a wave on a slot has room in its successor's queue (R126). A wave that is its own successor makes room by
taking its input, where that is not `taken` already. -/
def State.chainRoom (s : State) (w : Wave) (slot : Nat) (taken : Bool) : Bool :=
  match (s.teamOf w).bind fun t => s.successor t slot w.index with
  | none => true
  | some (_, x) =>
    let used := (x.chain slot).queue.length
    decide (used < 4) || (decide (used = 4) && x.index == w.index && !taken)

/-- The chain input of a wave on a slot, where its output has room: values in the queue come first (R129), then a head reads
its seed, and a successor finds the queue empty, or closed once its predecessor has exited (R126, R128). -/
def State.chainInput (s : State) (w : Wave) (slot : Nat) : ChainInput :=
  let c := w.chain slot
  let give (v : W64) : ChainInput := if s.chainRoom w slot false then .value v else .full
  match c.queue, c.link with
  | v :: _, _ => give v
  | [], none => give c.seed
  | [], some p =>
    match (s.teamOf w).bind fun t => s.waveWithIndex t p with
    | some (_, x) => if x.life = .exited then .closed else .empty
    | none => .closed

/-- Consume the chain input of a wave: a seed stays (R126). -/
def State.chainTake (s : State) (n slot : Nat) : State :=
  s.updWave n fun w =>
    let c := w.chain slot
    { w with chains := Tab.put w.chains slot { c with queue := c.queue.drop 1 } }

/-- Deliver a chain output: to %chout, and to the successor's queue (R123, R129). -/
def State.chainGive (s : State) (n slot : Nat) (v : W64) : State :=
  match s.wave? n with
  | none => s
  | some w =>
    let s := s.updWave n fun w => { w with chains := Tab.put w.chains slot { w.chain slot with out := v, produced := true } }
    match s.teamOf w with
    | none => s
    | some t =>
      match s.successor t slot w.index with
      | none => s
      | some (m, _) => s.updWave m fun x =>
          { x with chains := Tab.put x.chains slot { x.chain slot with queue := (x.chain slot).queue ++ [v] } }

/-! ### Queue pops (R113, R114) -/

/-- A drover queue of a team; one that no drover has opened is closed and empty (R114). -/
def Team.queue (t : Team) (q : Nat) : PopQueue := Tab.getD t.queues q { entries := [], closed := true }

/-- Remove the popped entries of the named queues. -/
def State.popQueues (s : State) (tid : Nat) (qs : List Nat) : State :=
  s.updTeam tid fun t => { t with queues := qs.foldl (fun m q =>
    Tab.put m q { t.queue q with entries := (t.queue q).entries.drop 1 }) t.queues }

/-- Close the named queues of a team. -/
def Team.closeQueues (t : Team) (qs : List Nat) : Team :=
  { t with queues := qs.foldl (fun m q => Tab.put m q { t.queue q with closed := true }) t.queues }

/-! ### Remote accesses (R33) -/

/-- Send a remote access for a lane of a wave; lane 32 stands for the wave's trap record. None where the home package cannot be
reached (R8, R34). -/
def State.sendRemote (s : State) (w : Wave) (n k lane : Nat) (posted : Bool) (home : Nat) (a : W64) (op : RemoteOp) :
    Option (Nat × State) :=
  s.request (s.dieOf w) home a op
    { owner := w.owner, engine := none, wave := n, split := k, lane := lane, posted := posted,
      handler := w.trapCtx.isSome, launch := w.launch, others := (s.teamOf w).elim [] (·.others) }

/-- A remote access of the wave's trap record is under way. -/
def State.recordUnderWay (s : State) (n : Nat) : Bool := s.remote.any fun x => x.2.wave == n && x.2.lane == 32

/-! ### Ring entries (R322) -/

/-- One disposal of a wave's ring entry, at the ring's home package where that is another; where the ring cannot be reached,
nothing happens. -/
def State.disposeRing (s : State) (n : Nat) (w : Wave) (cb : Nat) (op : RingOp) : State :=
  match (s.owner? w.owner).bind fun o => o.remoteAt cb with
  | some home => match s.sendRemote w n 0 35 true home (BitVec.ofNat 64 cb) (.ring op) with
    | some (_, t) => t
    | none => s
  | none =>
    let by' : Writer := w.launch.map fun l => (l, dieOfCore (s.coreOf w))
    let job : RingJob := { owner := w.owner, control := cb, op := op, die := s.dieOf w, launch := by', asker := .nobody, got := [],
                           asked := none, answer := none }
    if s.ringBusy w.owner cb then s.addJob job
    else match s.ringPerform (s.dieOf w) [] 0 by' w.owner cb op with
      | .ok (_, t) => t
      | .error (.asks ..) => s.addJob job
      | .error _ => s

/-- Dispose of a wave's open ring entries when it PACKs or its team is terminated (R322). -/
def State.disposeRings (s : State) (n : Nat) : State :=
  match s.wave? n with
  | none => s
  | some w =>
    let s := w.reserved.foldl (fun s e => s.disposeRing n w e.control (.skip e.record)) s
    let s := w.holds.foldl (fun s e => s.disposeRing n w e.control (.revert e.record)) s
    s.updWave n fun x => { x with reserved := [], holds := [] }

/-! ### Ending waves and teams -/

/-- The waves of an owner, resident or saved, whose spill areas lie in a spill frame (R140, R397). -/
def State.spillUsers (s : State) (owner f : Nat) : Nat :=
  ((s.waves ++ s.saved.flatMap fun v => v.2.waves).filter fun x => x.2.owner == owner && x.2.spillFrame == some f).length

/-- Free a wave's spill area; the frame goes back when its last area is freed (R140). -/
def State.freeSpill (s : State) (n : Nat) : State :=
  match s.wave? n with
  | none => s
  | some w =>
    match w.spillFrame with
    | none => s
    | some f =>
      let s := s.updWave n fun x => { x with spillFrame := none }
      if s.spillUsers w.owner f = 0 then s.uncharge w.owner 1 else s

/-- Give a wave its spill area: sixteen areas to a frame of the owner; none when the quota cannot hold a new frame
(R140). -/
def State.takeSpill (s : State) (n : Nat) : Option State :=
  match s.wave? n with
  | none => none
  | some w =>
    if w.spillFrame.isSome then some s
    else
      let waves := s.waves.length + (s.saved.map fun v => v.2.waves.length).sum
      match (List.range (waves + 1)).find? fun f => s.spillUsers w.owner f < 16 with
      | none => none
      | some f =>
        if s.spillUsers w.owner f = 0 then
          (s.charge w.owner 1).map fun t => t.updWave n fun x => { x with spillFrame := some f }
        else some (s.updWave n fun x => { x with spillFrame := some f })

/-- Note a status and its cause on a launch: the highest status stands, and of equal ones the first (R52, R76). -/
def State.markLaunch (s : State) (l status cause : Nat) : State :=
  s.updLaunch l fun x => if status > x.status then { x with status := status, cause := cause } else x

/-- An error in state of the team that belongs to no lane (R218). -/
def Team.hasPart (t : Team) (tid : Nat) : Part → Bool
  | .stack n _ | .context n | .chain n _ => t.agents.contains n
  | .barrier x _ => x == tid
  | .cell .. => false

/-- Remove a team and its agents from the device, and what it holds with them but spill areas (R71, R108). -/
def State.dropTeam (s : State) (tid : Nat) : State :=
  match s.team? tid with
  | none => s
  | some t =>
    let s := s.updCore t.core fun c => { c with claims := c.claims.filter fun n => !(t.agents.contains n) }
    let s := match t.preempt with
      | some p => s.uncharge t.owner p.charged
      | none => s
    { s with teams := Tab.drop s.teams tid, waves := s.waves.filter fun x => !(t.agents.contains x.1),
             -- a posted store is still to be performed at its home package (R50, R177)
             remote := s.remote.filter fun x => x.2.posted || !(t.agents.contains x.2.wave),
             badParts := s.badParts.filter fun p => !(t.hasPart tid p),
             cur := match s.cur with
               | some (n, _) => if t.agents.contains n then none else s.cur
               | none => none }.stir t.launch

/-- Remove a team and its agents from the device with all that they hold (R71, R108, R140). -/
def State.removeTeam (s : State) (tid : Nat) : State :=
  match s.team? tid with
  | none => s
  | some t => (t.agents.foldl (fun s n => s.freeSpill n) s).dropTeam tid

/-- The address of a wave's trap record (R68, R91). -/
def State.trecOf (s : State) (w : Wave) : W64 :=
  match s.teamOf w, s.launchOf w with
  | some t, some l =>
    if t.task then w.trapArea
    else w.trapArea + BitVec.ofNat 64
      ((t.index * 2 ^ ((l.lr.widths.take l.lr.team).foldl (· + ·) 0 - 5) + (if w.drover then 0 else w.index)) * 640)
  | _, _ => w.trapArea

/-- A saved team and its place in placement (R97): a team of a launch takes its own place there, and a task wave's resume
card is committed to the die queue of its die. The address of the context area, which the card tells, is a free value (log
entry 113). -/
def State.park (s : State) (tid : Nat) (t : Team) (entry : W64) (depth : W32) (rec' : Saved) : State :=
  let (id, s) := s.newId
  let s := { s with saved := Tab.put s.saved id rec' }
  -- the context area and the spill areas stay charged while the team is saved (R397)
  let s := (s.updTeam tid fun x => { x with preempt := none }).dropTeam tid
  let (place, s) := s.freeVal 64
  let round := match t.launch.bind s.launch? with
    | some l => l.round
    | none => false
  if t.task then
    s.postTo t.owner { queue := dieQueue (dieOfCore t.core), launch := t.launch,
                       ptag := 2 ^ 15 + t.core, version := t.version,
                       card := { control := resumeControl t.priority entry ||| BitVec.ofNat 64 (round.toNat * 2 ^ 59),
                                 arg := place, join := 0, depth := depth, ownerTag := BitVec.ofNat 32 t.owner },
                       parked := some id, cmd := none, wave := none }
  else
    match t.launch with
    | some l => (s.updLaunch l fun x => { x with parked := x.parked ++ [id] }).stir (some l)
    | none => s

/-- The waves and the drover of a team, by number. -/
def State.agentTab (s : State) (t : Team) : Tab Wave := s.waves.filter fun x => t.agents.contains x.1

/-- The team's launch runs in round mode. -/
def State.teamRound (s : State) (t : Team) : Bool :=
  match t.launch.bind s.launch? with
  | some l => l.round
  | none => false

/-- Terminate a team with a cause (R220): its waves and drover stop, its engine operations are cancelled, its chains
close, its resources are released; it counts as exited. A host-posted task wave writes a completion record (R90). -/
def State.terminate (s : State) (tid cause : Nat) : State :=
  match s.team? tid with
  | none => s
  | some t =>
    let s := { s with engines := s.engines.filter fun x => x.2.team != tid,
                      remote := s.remote.filter fun x => x.2.posted || !(t.agents.contains x.2.wave) }
    let s := match t.launch with
      | some l => s.markLaunch l 0x21 cause
      | none =>
        let rec0 : W64 := match t.waves.head?.bind s.wave? with
          | some w => s.trecOf w
          | none => 0
        s.pushCompletion t.owner { tag := 0, status := 0x21, code := 0x09, version := t.version, r0 := t.arg,
                                   r1 := rec0, r2 := BitVec.ofNat 64 cause }
    let s := if s.teamRound t then s else t.agents.foldl (fun s n => s.disposeRings n) s
    let s := t.agents.foldl (fun s n => (s.freeSpill n).updWave n fun w =>
      { w with life := .exited, splits := [], pending := none, trapCtx := none, sysCtx := none, bellSplit := none,
               buffer := w.buffer.filter fun a => match a with | .store .. | .stores .. => true | _ => false }) s
    let s := s.updTeam tid fun x => x.closeQueues [0, 1, 2, 3]
    if s.teamRound t then
      { s with cur := match s.cur with
          | some (n, _) => if t.agents.contains n then none else s.cur
          | none => none }.stir t.launch
    else s.removeTeam tid

/-- The frames a context area begins with: the drover's state and its queues (R397). -/
def contextFrames : Nat := 2

/-- A team that every wave left, at least one by PACK, becomes a saved team with its resume card (R96 steps 4 and 5,
R97). One that a forced save has brought back in its handlers has no request any more: its context area is allocated here (R397). -/
def State.packTeam (s : State) (tid : Nat) (t : Team) : State :=
  let ws := s.agentTab t
  let first := (sortBy (fun (w : Wave) => w.index) (Tab.vals (ws.filter fun x => x.2.life == .packed))).head?
  let entry : W64 := match first with
    | some w => (w.resumeAt.getD (0, 0)).2
    | none => 0
  let depth : W32 := match first with
    | some w => w.depthOf 0
    | none => 0
  let leave (s : State) (frames : Nat) (ready : Bool) : State :=
    s.park tid t entry depth { id := tid, team := { t with preempt := none }, waves := ws, forced := false, window := [],
                               tileRows := [], cells := [], config := none, frames := frames, ready := ready,
                               sinceBell := false, request := none }
  match t.preempt with
  | some p => leave s p.charged p.back
  | none =>
    match s.charge t.owner contextFrames with
    | some s => leave s contextFrames true
    | none => s.terminate tid 0x40

/-- The drover of a team stops where it stands, and its queues close (R112, R114). -/
def State.stopDrover (s : State) (tid : Nat) : State :=
  match s.team? tid with
  | none => s
  | some t =>
    match t.drover with
    | none => s
    | some d => (s.updWave d fun w => { w with life := .exited, splits := [], buffer := w.buffer }).updTeam tid fun x =>
        x.closeQueues [0, 1, 2, 3]

/-- Some wave of the team still runs. -/
def State.teamRuns (s : State) (t : Team) : Bool :=
  t.waves.any fun n => match s.wave? n with
    | some w => decide (w.life = .running)
    | none => false

/-- Some wave of the team has PACKed. -/
def State.teamPacked (s : State) (t : Team) : Bool :=
  t.waves.any fun n => match s.wave? n with
    | some w => decide (w.life = .packed)
    | none => false

/-- Some wave of the team has ring entries that are still to be disposed of (R322). -/
def State.ringsOpen (s : State) (t : Team) : Bool :=
  t.waves.any fun n => match s.wave? n with
    | some w => !(w.reserved.isEmpty && w.holds.isEmpty)
    | none => false

/-- Release a team that no wave of it runs in any more (R71, R96, R112): the drover stops, copies complete first, and in
round mode it goes at the bell that applies its buffered stores and its ring actions (R182, R322; log entry 14). -/
def State.settleTeam (s : State) (tid : Nat) : State :=
  match s.team? tid with
  | none => s
  | some t =>
    if s.teamRuns t then s
    else
      let s := if s.teamPacked t then s else s.stopDrover tid
      if s.engines.any fun x => x.2.team == tid then s
      else
        match s.team? tid with
        | none => s
        | some t =>
          if s.teamRound t && (!s.atBell || s.ringsOpen t) then s
          else if s.teamPacked t then s.packTeam tid t
          else s.removeTeam tid

/-- A matrix multiply of the wave has not completed (R337). -/
def State.matrixOut (s : State) (n : Nat) : Bool := s.engines.any fun x => x.2.wave == n && (match x.2.op with
  | .matrix .. => true
  | _ => false)

/-- A wave ends: its chain outputs close and it gives up its links (R125, R128, R282). -/
def State.exitWave (s : State) (n : Nat) : State :=
  match s.wave? n with
  | none => s
  | some w =>
    let s := (s.freeSpill n).updWave n fun x =>
      { x with life := .exited, splits := [], trapCtx := none, sysCtx := none, reserved := [], holds := [],
               chains := Tab.mapVal (fun _ c => { c with link := none }) x.chains }
    let s := s.stir w.launch
    s.settleTeam w.team

/-- A drover's EXIT: it stops and its queues close (R114). -/
def State.exitDrover (s : State) (n : Nat) : State :=
  match s.wave? n with
  | none => s
  | some w => (s.stopDrover w.team).stir w.launch |>.settleTeam w.team

/-- The lanes of a mask end in a split that goes on from `p` otherwise (R139, R282). -/
def State.endLanes (s : State) (n k : Nat) (p : Split) (m : W32) : State :=
  let rest := p.mask &&& ~~~m
  if rest ≠ 0 then s.updWave n fun w => { w with splits := Tab.put w.splits k { p with mask := rest } }
  else
    match ({ p with mask := 0 } : Split).takeUp (2 * (p.stack.length + p.spill.length) + 1) with
    | some q => s.updWave n fun w => { w with splits := Tab.put w.splits k q }
    | none =>
      let s := s.updWave n fun w => { w with splits := Tab.drop w.splits k }.settleJoins 4
      match s.wave? n with
      | some w => if w.splits.isEmpty then s.exitWave n else s
      | none => s

/-! ### The trap record (R213, R214) -/

/-- One lane record (R214). -/
def LaneFault.bytes (f : LaneFault) : List Byte :=
  leBytes 8 f.address.toNat ++ leBytes 1 f.cause ++ leBytes 1 f.lane ++ leBytes 2 0 ++
  leBytes 4 (f.size % 32 + f.kind % 8 * 32 + f.space % 4 * 256)

/-- The lane records of a trap, lane 0 first. -/
def Trap.laneBytes (t : Trap) : List Byte :=
  (List.range 32).flatMap fun l => match t.lanes.find? fun f => f.lane == l with
    | some f => f.bytes
    | none => leBytes 16 0

/-- The value of the i-th held queue, in ascending queue number. -/
def heldValue (pops : Tab W64) (i : Nat) : Nat := match (Tab.vals pops)[i]? with | some v => v.toNat | none => 0

/-- The 640 bytes of a trap record (R213, R214). -/
def State.trapRecord (s : State) (w : Wave) (t : Trap) : List Byte :=
  let sp := Tab.getD w.splits t.split (Split.start 0 0)
  let held := t.pops.filter fun x => decide (x.1 < 4)
  let popMask := held.foldl (fun m x => m + 2 ^ x.1) 0
  let bit (b : Bool) (n : Nat) : Nat := if b then n else 0
  -- a record written while a trap context is held belongs to a trap that terminates the team (R212, R220)
  let flags := bit t.slot.isSome 1 + bit (!t.lanes.isEmpty) 2 + bit (s.isRound w) 4 + bit w.trapCtx.isSome 8
  let mid : List Byte :=
    if t.cause = 0x21 then leBytes 4 t.failed ++ leBytes 2 t.source ++ leBytes 1 t.sourceKind ++ leBytes 1 0
    else if t.kind = 2 then leBytes 8 (heldValue held 1)
    else leBytes 8 0
  let team := match s.teamOf w with | some x => x.index | none => 0
  let seq := match s.launchOf w with | some l => l.seq | none => 0
  leBytes 1 t.cause ++ leBytes 1 flags ++ leBytes 1 t.resume ++ leBytes 1 (if w.drover then 0xFF else t.split) ++
  leBytes 1 sp.stack.length ++ leBytes 2 sp.spill.length ++ leBytes 1 (t.slot.getD 0) ++
  leBytes 8 t.header.toNat ++
  leBytes 1 t.index ++ leBytes 1 w.splits.length ++ leBytes 1 popMask ++ leBytes 1 0 ++
  leBytes 4 t.active.toNat ++ leBytes 4 t.fault.toNat ++ leBytes 4 t.exec.toNat ++
  leBytes 8 (if t.slot.isSome then t.carry.toNat else 0) ++
  leBytes 8 (if t.cause = 0x40 then 0 else t.word.toNat) ++
  leBytes 8 (heldValue held 0) ++ mid ++ leBytes 8 t.argument.toNat ++
  leBytes 8 seq ++ leBytes 8 w.round.toNat ++ leBytes 8 team ++ leBytes 4 w.index ++ leBytes 4 0 ++
  (List.range 4).flatMap (fun k => leBytes 4 (match Tab.find w.splits k with | some p => p.mask.toNat | none => 0)) ++
  leBytes 8 (heldValue held 2) ++ t.laneBytes

/-- What became of writing a trap record (R68). -/
inductive RecordOut where
  | written (s : State)
  | waits (s : State) (va : Nat)
  | sent (s : State)
  | fails (s : State) (cause : Nat)

/-- The first failing 16-byte store of a record at `a`: its address and cause (R145). -/
def Owner.recordFault (o : Owner) (a : Nat) : Option (Nat × Nat) :=
  (List.range 40).findSome? fun i => (o.checkGlobal (a + 16 * i) 16 .store).map fun c => (a + 16 * i, c)

/-- Write a trap record's bytes at `a` as stores of the wave: at once, in the wave's buffer in round mode (R221), or at
the home package (R68). -/
def State.storeRecord (s : State) (n : Nat) (w : Wave) (o : Owner) (a : Nat) (bytes : List Byte) : RecordOut :=
  let pieces := (List.range 40).map fun i => (a + 16 * i, slice bytes (16 * i) 16)
  let go := pieces.foldl (fun (acc : Option (State × Bool)) x => acc.bind fun (s, sent) =>
    if s.isRound w then
      some (s.updWave n fun y => { y with buffer := y.buffer ++ [.store (.global w.owner x.1) x.2] }, sent)
    else match o.remoteAt x.1 with
    | some home => (s.sendRemote w n 0 32 false home (BitVec.ofNat 64 x.1) (.store x.2)).map fun r => (r.2, true)
    | none => some (s.putBytes (w.launch.map fun l => (l, dieOfCore (s.coreOf w))) w.owner x.1 x.2, sent))
    (some (s, false))
  match go with
  | none => .fails s 0x20
  | some (s, sent) => if sent then .sent s else .written s

/-- Write a wave's trap record (R68, R212): not-present pages of on-demand ranges are first allocated. -/
def State.writeRecord (s : State) (n : Nat) (w : Wave) (bytes : List Byte) : Nat → RecordOut
  | 0 => .fails s 0x18
  | fuel + 1 =>
    match s.owner? w.owner with
    | none => .fails s 0x18
    | some o =>
      let a := (s.trecOf w).toNat
      match o.recordFault a with
      | none => if s.cutOff (s.dieOf w) o a 640 then .fails s 0x20 else s.storeRecord n w o a bytes
      | some (va, cause) =>
        if cause = 0x18 then
          match s.resolvePage w.owner va with
          | .mapped s => State.writeRecord s n w bytes fuel
          | .waits s => .waits (s.pageNotice w.owner va ((s.launchOf w).elim 0 (·.seq)) 0) va
          | .fails => .fails s 0x18
        else .fails s cause

/-! ### Taking a trap (R208–R212) -/

/-- The handler that a cause goes to is the system handler alone (R210). -/
def systemOnly (cause : Nat) : Bool := cause == 0x06 || cause == 0x18

/-- A launch of the owner is armed for a cause (R390). -/
def State.armed (s : State) (w : Wave) (cause : Nat) : Bool :=
  match w.launch with
  | some l => s.ivgil.caught.contains (l, cause)
  | none => false

/-- The debug agent is armed for breakpoints of an owner (R210, R384). -/
def State.agentArmed (s : State) (owner : Nat) : Bool := s.ivgil.breaks.any fun b => b.1 == owner

/-- The wave enters its user handler (R212 steps 2 and 3): the split state, L and the pop-retry values move into the
trap context; the handler runs as split 0 at %utvec. -/
def State.enterHandler (s : State) (n : Nat) (t : Trap) : State :=
  s.updWave n fun w =>
    { w with
      trapCtx := some { cause := t.cause, kind := t.kind, split := t.split, resumeLane := t.resume,
                        faultMask := t.fault, execMask := t.exec, deferred := t.deferred, carry := t.carry,
                        splits := w.splits, latch := w.latch, pops := t.pops, slot := t.slot, lanes := t.lanes,
                        late := t.late, turn := w.nextSplit, begun := w.begun }
      splits := [(0, Split.start w.utvec w.liveLanes)], hmode := .user, pending := none, sleep := 0, nextSplit := 0,
      begun := none }

/-- The word at which a split stands has retired already, with a suppressing fault (R134). -/
def Split.counted (p : Split) : Bool := p.retry.any (·.counted)

/-- The split at its trapping word, to execute the lanes `m` again from the carry and the pop-retry values (R133,
R215). -/
def Split.retryAt (p : Split) (m : W32) (carry : W64) (repop : Bool) (pops : Tab W64) (exec : W32) : Split :=
  { p with retry := some { lanes := m, skip := false, counted := p.counted, carry := carry, repop := repop, pops := pops,
                           replies := [], execMask := exec, owed := none }, waiting := .none }

/-- The split past its trapping word, whose lanes that did not perform count as guarded off (R132, R215): the word still
retires, where it has not `counted` yet, and hands on the saved carry where it has consumed its chain input, `taken`. -/
def Split.passBy (p : Split) (c : TrapCtx) (counted taken : Bool) : Split :=
  { p with retry := some { lanes := 0, skip := true, counted := counted, carry := c.carry, repop := !taken, pops := [],
                           replies := [], execMask := c.execMask, owed := none }, waiting := .none }

/-- A wave has taken its pre-emption trap and has no user handler to answer it: it waits where it stands for the device to save
its team (R68, R98). -/
def State.forceRequest (s : State) (n : Nat) (w : Wave) : State :=
  (s.updTeam w.team fun t => { t with preempt := t.preempt.map fun p => { p with drained := true } }).updWave n fun x =>
    { x with saveDue := true, pending := none }

/-- The address a translation fault concerns: that of its lane record, or the clause header's. -/
def Trap.missing (t : Trap) : Nat := match t.lanes.head? with
  | some f => f.address.toNat
  | none => t.header.toNat

/-- The wave with the action of a late trap left to a later bell again (R184). -/
def Wave.redone (w : Wave) : Wave := { w with redo := none, buffer := w.buffer ++ w.redo.toList }

/-- The split of a wave that waits for what stops an instruction of split `k`; another one where that has ended. -/
def Wave.waiter (w : Wave) (k : Nat) : Nat :=
  if (Tab.find w.splits k).isSome then k else (w.splits.head?.map (·.1)).getD k

/-- The system handler on translation not present (R148), its record written: the page is mapped and the wave retries
from its resume lane, or it waits, or its team terminates. What a bell has met is left to a later bell (R184). -/
def State.systemNotPresent (s : State) (n : Nat) (w : Wave) (t : Trap) : State :=
  let va := t.missing
  let again (s : State) : State :=
    if t.late then s.updWave n Wave.redone
    else if t.kind = 2 then
      s.updSplit n t.split fun p => p.retryAt t.fault t.carry false t.pops t.exec
    else s
  match s.resolvePage w.owner va with
  | .mapped s =>
    let s := again s
    if s.armed w 0x18 then
      let page := (((s.owner? w.owner).bind fun o => o.pageAt va).map (·.va)).getD va
      { s with ivgil := { s.ivgil with report := [BitVec.ofNat 64 t.resume, BitVec.ofNat 64 page] } }.updWave n fun x =>
        { x with stopped := .caught (w.waiter t.split) }
    else s
  | .waits s =>
    let s := again s
    (s.pageNotice w.owner va ((s.launchOf w).elim 0 (·.seq)) 0).updSplit n (w.waiter t.split) fun p =>
      { p with waiting := .page va }
  | .fails => s.terminate w.team 0x18

/-- The entries in a wave's spill area, those of the splits in its trap context among them (R140). -/
def Wave.spilled (w : Wave) : Nat :=
  let held := w.trapCtx.toList ++ (w.sysCtx.bind (·.toUser)).toList
  ((w.splits ++ held.flatMap (·.splits)).map fun x => x.2.spill.length).sum

/-- The system handler on split stack overflow (R140): it moves the oldest entry of the trapping split's stack to the wave's
spill area, and the instruction executes again; a push beyond 272 entries, or no frame for the area, terminates the
team. -/
def State.systemOverflow (s : State) (n : Nat) (w : Wave) (t : Trap) : State :=
  match Tab.find w.splits t.split with
  | none => s
  | some p =>
    match p.stack.getLast?, (if w.spilled < 256 then s.takeSpill n else none) with
    | some x, some s => s.updSplit n t.split fun q => { q with stack := q.stack.dropLast, spill := x :: q.spill }
    | _, _ => s.terminate w.team 0x06

/-- A user-class trap, its record written: terminate inside a handler or without a handler, else enter it (R68, R208,
R212). -/
def State.userTrap (s : State) (n : Nat) (w : Wave) (t : Trap) : State :=
  if w.trapCtx.isSome then s.terminate w.team t.cause
  else if w.utvec = 0 then
    if t.cause = 0x40 then s.forceRequest n w else s.terminate w.team t.cause
  else s.enterHandler n t

/-- What follows the record of a trap. -/
def State.afterRecord (s : State) (n : Nat) (t : Trap) : State :=
  match s.wave? n with
  | none => s
  | some w =>
    let s := s.updWave n fun x => { x with pending := none }
    if t.fatal then s.terminate w.team t.cause
    else if w.drover then
      if t.cause = 0x18 then s.systemNotPresent n w t else s.terminate w.team t.cause
    else if w.hmode = .system then
      s.terminate w.team (match w.sysCtx with | some c => c.cause | none => t.cause)
    else if t.cause = 0x18 then s.systemNotPresent n w t
    else if t.cause = 0x06 then s.systemOverflow n w t
    else s.userTrap n w t

/-- The system handler can handle a system-class trap and return to the wave (R140, R148). -/
def State.handles (s : State) (n : Nat) (w : Wave) (t : Trap) : Bool :=
  if t.cause = 0x18 then (match s.resolvePage w.owner t.missing with
    | .fails => false
    | _ => true)
  else t.cause == 0x06 && decide (w.spilled < 256) && (s.takeSpill n).isSome

/-- A trap that writes no record in the trap area: a system-class trap inside a user handler that the system handler handles
(R212); one that terminates the team writes its record (R220). -/
def State.noRecord (s : State) (n : Nat) (w : Wave) (t : Trap) : Bool :=
  w.trapCtx.isSome && systemOnly t.cause && s.handles n w t

/-- A pre-emption trap of a wave without a user handler, which never ends its team: where its record cannot be written, the device
saves the team all the same (R68; log entry 148). -/
def Wave.unhandled (w : Wave) (t : Trap) : Bool := t.cause == 0x40 && w.utvec == 0 && w.trapCtx.isNone

/-- Take a trap whose record is not yet written. -/
def State.takeTrap (s : State) (n : Nat) (t : Trap) : State :=
  match s.wave? n with
  | none => s
  | some w =>
    let s := s.clearCur
    if t.cause = 0x31 && !w.drover && s.agentArmed w.owner then
      s.updWave n fun x => { x with stopped := .breakpoint t.split }
    else if s.noRecord n w t then s.afterRecord n t
    else
      match s.writeRecord n w (s.trapRecord w t) 4 with
      | .written s => s.afterRecord n t
      | .sent s => s.updWave n fun x => { x with pending := some { t with sent := true } }
      | .waits s va =>
        if w.unhandled t then s.forceRequest n w
        else (s.updWave n fun x => { x with pending := some t }).updSplit n t.split fun p => { p with waiting := .page va }
      | .fails s cause => if w.unhandled t then s.forceRequest n w else s.terminate w.team cause

/-- The granules with an uncorrectable error in a run of a window (R218). -/
def State.badGranules (s : State) (t : Team) (off n : Nat) : List ErrorPlace :=
  (((List.range n).map fun i => (t.windowBase + off + i) / 64).eraseDups.filter fun g =>
    (s.core t.core).badSpad.contains g).map fun g => .granule t.core g

/-- The storage whose uncorrectable error a lane's access met. -/
def State.errorsOf (s : State) (w : Wave) (f : LaneFault) : List ErrorPlace :=
  let a := f.address.toNat
  if f.cause ≠ 0x20 then []
  else if f.space = 0 then s.badSectors w.owner a f.size
  else match s.teamOf w with
    | none => []
    | some t =>
      if f.space = 1 then s.badGranules t a f.size
      else match (if f.space = 2 then s.peerTeam w.team t (a / 2 ^ 24) else none) with
        | some (_, x) => s.badGranules x (a % 2 ^ 24) f.size
        | none => []

/-- The system handler logs the storage of a machine check (R218): what the trap names, or what its lane records' accesses
met. -/
def State.logCheck (s : State) (w : Wave) (t : Trap) : State :=
  let places := if t.errs.isEmpty then t.lanes.flatMap fun f => s.errorsOf w f else t.errs
  { s with errorLog := s.errorLog ++ places }

/-- Raise a trap now: a fault of an encoding is counted first (R217) and a machine check logged (R218), then the trap is
taken. -/
def State.raiseNow (s : State) (n : Nat) (t : Trap) : State :=
  match s.wave? n with
  | none => s
  | some w =>
    let s := if t.counted then s.countIllegal w.owner else s
    (if t.cause = 0x20 then s.logCheck w t else s).takeTrap n t

/-- Raise a trap; one met at a bell is delivered when the agent's next round starts (R184). -/
def State.raise (s : State) (n : Nat) (t : Trap) : State :=
  if s.atBell then s.updWave n fun w => { w with buffer := w.buffer ++ [.raised t] } else s.raiseNow n t

/-! ### Returning from a trap (R215) -/

/-- Where the trapping split stands under mode 10: it passes its word by, which a suppressing fault has retired and a
resuming fault has let consume its input. -/
def nextSplit (c : TrapCtx) (p : Split) : Split :=
  match c.kind with
  | 0 => p.passBy c p.counted false
  | 1 => p.passBy c true false
  | 2 => p.passBy c p.counted true
  | _ => p

/-- The split at a word that retired with a suppressing fault, to execute the lanes `m` of it again (R134, R215). -/
def Split.retryRetired (p : Split) (c : TrapCtx) (m : W32) : Split :=
  { p with retry := some { lanes := m, skip := false, counted := true, carry := c.carry, repop := true, pops := [],
                           replies := [], execMask := c.execMask, owed := none }, waiting := .none }

/-- The trapping split under mode 00; what it fetched from a home package it fetches again. -/
def retrySplit (c : TrapCtx) (p : Split) : Split :=
  let p := { p with fetched := [] }
  match c.kind with
  | 2 => p.retryAt c.faultMask c.carry false c.pops c.execMask
  | 1 => p.retryRetired c (c.faultMask ||| c.deferred)
  | 0 => if c.cause = 0x31 then { p with skipBreak := true } else p
  | _ => p

/-- The slot on which a trap's instruction hands on its saved carry at once, because mode 01 leaves no lane that could pass it
by (R132, R139). -/
def TrapCtx.handsOn (c : TrapCtx) (mode : ResumeMode) : Option Nat :=
  match mode, Tab.find c.splits c.split with
  | .remove, some p => if c.kind = 2 && (p.mask &&& ~~~c.faultMask) = 0 then c.slot else none
  | _, _ => none

/-- The lanes of a trap's instruction that mode 00 executes again, and those that mode 01 does. -/
def TrapCtx.lanesAgain (c : TrapCtx) (mode : ResumeMode) : W32 :=
  match mode with
  | .retry => if c.kind = 2 then c.faultMask else c.faultMask ||| c.deferred
  | .remove => c.deferred
  | _ => 0

/-- The action with some of its lanes; one that is no lane's is done again whole or not at all. -/
def Act.onLanes (a : Act) (m : W32) : Option Act :=
  if m = 0 then none
  else match a with
    | .stores tag t ls => some (.stores tag t (if t.fault ≠ 0 then ls else ls.filter fun x => m.getLsbD x.access.lane))
    | .word k p => p.retry.bind fun r => if r.lanes &&& m = 0 then none
        else some (.word k { p with retry := some { r with lanes := r.lanes &&& m, replies := [] } })
    | _ => some a

/-- Return from a user handler under a resume mode (R215): the trap context is restored, the trapping split continues as
the mode states, and every other split where it stood. -/
def State.returnTrap (s : State) (n : Nat) (w : Wave) (c : TrapCtx) (mode : ResumeMode) : State :=
  let s := s.updWave n fun x => { x with trapCtx := none, hmode := .none, splits := c.splits, latch := c.latch,
                                         nextSplit := c.turn, begun := c.begun }
  match Tab.find c.splits c.split with
  | none => s
  | some p =>
    let put (q : Split) : State := s.updWave n fun x => { x with splits := Tab.put x.splits c.split q }
    if c.late && mode ≠ .term then
      -- the agent has gone on past the instruction, whose action is left to a later bell again (R184)
      let again := (w.redo.bind fun a => a.onLanes (c.lanesAgain mode)).toList
      let s := s.updWave n fun x => { x with redo := none, buffer := x.buffer ++ again }
      if mode = .remove && c.faultMask ≠ 0 then s.endLanes n c.split p c.faultMask else s
    else match mode with
    | .term => s.terminate w.team c.cause
    | .retry => put (retrySplit c p)
    | .next => put (nextSplit c p)
    | .remove =>
      let q := if c.kind = 1 && c.deferred ≠ 0 then p.retryRetired c c.deferred else nextSplit c p
      let s := match c.handsOn mode with
        | some slot => s.chainGive n slot c.carry
        | none => s
      -- the lanes end; where none remain, the split takes up its stack, as after EXIT (R139)
      let s := s.endLanes n c.split q c.faultMask
      if (p.mask &&& ~~~c.faultMask) = 0 then
        s.updWave n fun x => { x with begun := none, nextSplit := (c.split + 1) % 4 }
      else s

/-! ### Executing one word -/

/-- What the effect of an instruction word comes to. -/
inductive Res where
  | done (s : State)                    -- it retires; the split continues at the next word
  | jump (s : State) (target : W64)     -- it retires; the split continues at a clause header
  | moved (s : State)                   -- it retires; its splits stand as the effect left them
  | returned (s : State)                -- it retires; no split of the wave is touched (R215)
  | within (s : State) (k : Nat)        -- it retires; split `k`, already advanced, goes on in its clause
  | wait (w : Wait)                     -- it waits; nothing has happened
  | holding (s : State) (w : Wait)      -- it waits part-way; what it did stands
  | asks (s : State) (w : Wait)         -- it waits for what it has asked a home package, before it has popped or done anything
  | endRound (w : Wait)                 -- its round ends before it, for what it waits for (R183)
  | defer (s : State) (lanes : W32)     -- it is performed at the bell in these lanes (R183, R184)
  | trap (s : State) (t : Trap)
  | trapDefer (s : State) (t : Trap) (lanes : W32)  -- it traps, and these lanes are performed at the bell (R184)

/-- The executing mask of the instruction as it began, also where only some of its lanes execute now. -/
def Env.mask (e : Env) : W32 := match e.sp.retry with
  | some r => r.execMask
  | none => e.exec

/-- A trap of the instruction, as R210 gives it: precise, its fault mask the executing lanes, or for an illegal instruction
all active ones. -/
def Env.trap (e : Env) (cause : Nat) : Trap :=
  { cause := cause, kind := 0, split := e.k, header := e.sp.pc, index := e.sp.word, word := e.sp.current,
    active := e.active, fault := if cause = 0x01 then e.active else e.exec,
    exec := if cause = 0x01 then e.active else e.mask, resume := 0, deferred := 0, carry := 0, slot := none,
    pops := [], lanes := [], argument := 0, sourceKind := 0, source := 0, failed := 0, counted := false, late := false,
    errs := [], fatal := false, sent := false }

/-- An illegal operand found from a value an instruction reads (R217: not counted). -/
def Env.illegal (e : Env) (s : State) : Res := .trap s (e.trap 0x02)

/-- A resuming trap at a lane: the lanes at and above it have performed nothing (R133). -/
def Env.resuming (e : Env) (cause lane : Nat) (carry : W64) (slot : Option Nat) (f : List LaneFault) : Trap :=
  { e.trap cause with kind := 2, resume := lane, fault := fromLane e.exec lane, carry := carry, slot := slot,
                      pops := e.pops, lanes := f }

/-- An engine error delivered after an instruction (R219). -/
def Env.engineError (e : Env) (kind source : Nat) : Trap :=
  { e.trap 0x21 with kind := 3, resume := 32, fault := 0, sourceKind := kind, source := source }

/-- The registers an instruction reads. -/
def readRegs (i : Instr) : List RegName :=
  let g : List RegName := match i.head? with
    | some h => if h.gp = 7 then [] else [.p h.gp.toNat]
    | none => []
  g ++ (i.operands.filter fun x => !x.1.isDest || x.1 == .counter).flatMap roleRegs

/-- The register number SRD reads names a 64-bit register (R365). -/
def srdPair (num : Nat) : Bool := num = 0x1C || (decide (num < 0x1C) && special64 (BitVec.ofNat 5 num))

/-- The registers an instruction writes, and L where it writes a V or O destination (R101, R234). `num` is SRD's register
number. -/
def writeRegs (i : Instr) (num : Nat) : List RegName :=
  let ds := (i.operands.filter fun x => x.1.isDest).flatMap fun x =>
    match i, x.2 with
    | .srd .., .v r => if srdPair num then [.v r.toNat, .v (r.toNat + 1)] else [.v r.toNat]
    | _, _ => roleRegs x
  let l : List RegName := match i.dest with
    | some (.v _) | some (.o _) => [.l]
    | _ => []
  ds ++ l

/-- The instruction reads or writes pending state; writing L is allowed (R234). -/
def violates (ws : List Window) (i : Instr) (num : Nat) : Bool :=
  let rs := readRegs i
  let wr := (writeRegs i num).filter fun r => r != .l
  ws.any fun x => x.regs.any fun r => rs.contains r || wr.contains r

/-- The window a long-latency instruction opens (R234). -/
def windowOf (i : Instr) (num : Nat) : Option Window :=
  match i.head? with
  | some h => if i.longLatency && h.la ≠ 0 then some { left := h.la.toNat, regs := writeRegs i num } else none
  | none => none

/-- Every V register the instruction names lies within the wave's units, and every tile within the team's tiles (R105,
R230). -/
def rangesOk (w : Wave) (t : Option Team) (i : Instr) : Bool :=
  let tiles := match t with | some x => x.tiles.length | none => 0
  i.operands.all fun x =>
    ((roleRegs x).all fun r => match r with
      | .v n => decide (n < 8 * w.units)
      | _ => true) &&
    (match x.1, x.2 with
     | .tile, .acc n => decide (n.toNat < tiles)
     | .tilePair, .acc n => decide (n.toNat + 1 < tiles)
     | _, _ => true)

/-- The operand levels a drover may name, apart from the operands its own instructions take (R112). -/
def droverOperands (i : Instr) : Bool := i.operands.all fun x => x.2.droverOk

/-- CALL and RET name ZERO in a drover and an S register in a wave (R281). -/
def linkOk (drover : Bool) (i : Instr) : Bool :=
  match i with
  | .call _ _ x | .ret _ x => (x == .zero) == drover
  | _ => true

/-- A wave that may pop a queue in round mode: the (k mod m)-th existing wave (R116). -/
def popperOk (w : Wave) (t : Team) (order : List Nat) (q : Nat) : Bool :=
  match order[q % t.waves.length]? with
  | some i => w.index == i
  | none => false

/-- The wave indices of a team in ascending order. -/
def State.waveOrder (s : State) (t : Team) : List Nat :=
  (sortBy (fun i => i) (t.waves.filterMap fun n => (s.wave? n).map fun w => w.index))

/-- The instruction is outside the subset of the agent that executes it: a drover's (R112), or a wave's, which holds no
drover instruction. -/
def Wave.outside (w : Wave) (i : Instr) : Bool :=
  if w.drover then !i.droverOk else match i with
    | .dpush .. | .dclose .. => true
    | _ => false

/-- A privileged instruction executes in user mode (R209): in some lane its guard holds. -/
def Wave.unprivileged (w : Wave) (i : Instr) (exec : W32) : Bool :=
  i.privileged && decide (w.hmode ≠ .system) && exec != 0

/-- How the pops of an instruction stand: their values, or the queue it waits for, or underflow (R113, R114). -/
inductive Pops where
  | values (v : Tab W64)
  | waits (q : Nat)
  | underflow

/-- The pops of an instruction that names the queues. -/
def Team.pops (t : Team) (qs : List Nat) : Pops :=
  match qs.find? fun q => (t.queue q).entries.isEmpty && (t.queue q).closed with
  | some _ => .underflow
  | none =>
    match qs.find? fun q => (t.queue q).entries.isEmpty with
    | some q => .waits q
    | none => .values (qs.foldl (fun m q => Tab.put m q ((t.queue q).entries.headD 0)) [])

/-- How the pops of a word stand. -/
def popsFor (t : Option Team) (i : Instr) : Pops :=
  match t with
  | some x => x.pops i.queues
  | none => if i.queues.isEmpty then .values [] else .underflow

/-- SRD or SWR names a system register in user mode (R365): a popped number is known once it is there. -/
def State.namesSystem (s : State) (e : Env) (i : Instr) : Bool :=
  match i.number with
  | none => false
  | some a =>
    let e := { e with pops := match popsFor (s.teamOf e.w) i with
      | .values v => v
      | _ => [] }
    let n := (s.uni e a).toNat
    a.uniform && e.exec != 0 && decide (e.w.hmode ≠ .system) && decide (0x20 ≤ n) && decide (n < 0x100)

/-- The illegal cause that an instruction meets when it is decoded for issue, in the order of R211; the flag tells
whether it counts as an illegal encoding (R217). -/
def State.issueFault (s : State) (e : Env) (i : Instr) : Option (Nat × Bool) :=
  if !i.codesOk || e.w.outside i then some (0x01, true)
  else if e.w.unprivileged i e.exec || s.namesSystem e i then some (0x08, false)
  else if !i.levelsOk || (e.w.drover && !(droverOperands i)) || !(linkOk e.w.drover i) then some (0x02, true)
  else if !i.rolesOk || !(rangesOk e.w (s.teamOf e.w) i) then some (0x02, false)
  else if s.isRound e.w && (match s.teamOf e.w with
      | some x => i.queueNames.any fun q => !(popperOk e.w x (s.waveOrder x) q)
      | none => false) then some (0x02, false)
  else none

/-- The instruction has a per-lane effect that stops at one lane on a register error, the lanes below it performed (R121,
R133, R218). Any other stops whole (log entry 12). -/
def laneWise (i : Instr) : Bool :=
  (match i.group with
   | some g => decide (g ≤ 3) && !i.scalar
   | none => false) ||
  (match i with
   | .plop .. | .pmov .. | .shfl .. | .ld .. | .st .. | .stp .. | .atom .. | .atomc .. | .red .. | .ldf .. | .accrd .. | .accwr ..
   | .spawn .. | .tend .. => true
   | _ => false)

/-- A register element: an S register has one, at lane 0. -/
def RegName.element (lane : Nat) : RegName → RegName × Nat
  | .s n => (.s n, 0)
  | r => (r, lane)

/-- The lane a SHFL lane reads from (R272): its segment's width, first lane and place, and the mode. -/
def shuffleSource (mode : ShuffleMode) (sel : W32) (l : Nat) : Nat :=
  let k := (sel.extractLsb' 0 5).toNat
  let code := (sel.extractLsb' 8 3).toNat
  let sw := if code ≤ 5 then 32 / 2 ^ code else 1
  let base := l - l % sw
  let r := l - base
  match mode with
  | .lane => base + k % sw
  | .rot => base + (r + 32 - k) % sw
  | .xor => base + (r ^^^ k) % sw
  | .rev => base + (sw - 1 - r)

/-- The lane whose value a lane of SHFL takes: its own where the one it selects does not execute (R272). -/
def State.shuffleFrom (s : State) (e : Env) (mode : ShuffleMode) (b : Operand) (l : Nat) : Nat :=
  let j := shuffleSource mode (s.read32 e b l 0) l
  if e.mask.getLsbD j then j else l

/-- The register elements that a lane of an instruction consumes (R218): its own; in a SHFL those of the lane it reads from, in
MOV.first those of the lowest active lane, and in a vote or a match those of every executing lane. PREF consumes none
(R309). -/
def State.consumed (s : State) (e : Env) (i : Instr) (l : Nat) : List (RegName × Nat) :=
  let at' (rs : List RegName) (k : Nat) := rs.map fun r => r.element k
  match i with
  | .pref .. => []
  | .shfl _ mode w64 _ a b => at' ((readRegs i).filter fun r => !((operandRegs (regsOf w64) a).contains r)) l ++
      at' (operandRegs (regsOf w64) a) (s.shuffleFrom e mode b l)
  | .mov _ _ true _ _ => at' (readRegs i) e.first
  | .voteQuorum .. | .voteCount .. | .voteMask .. | .voteSame .. | .matchLanes .. =>
      (lanesOf e.exec).flatMap fun k => at' (readRegs i) k
  | _ => at' (readRegs i) l

/-- The lanes in which an instruction reads its operands: one that executes in the lowest active lane alone reads nothing where its
guard does not hold there (R104, R263, R283). -/
def Env.readers (e : Env) (i : Instr) : List Nat :=
  if i.firstOnly then (if e.exec.getLsbD e.first then [e.first] else []) else lanesOf e.exec

/-- The lowest executing lane that consumes a register element with an uncorrectable error (R133, R218). -/
def State.badLane (s : State) (e : Env) (i : Instr) : Option Nat :=
  if e.w.bad.isEmpty then none
  else (e.readers i).find? fun l => (s.consumed e i l).any fun x => e.w.bad.contains x

/-- The lane record of an error that no access met: its address, size, kind and space are free (R214; log entry 110). -/
def registerRecord (clock lane : Nat) : LaneFault :=
  let x := Config.freeRecord clock
  { lane := lane, cause := 0x20, address := x.extractLsb' 0 64, size := (x.extractLsb' 64 5).toNat,
    kind := (x.extractLsb' 69 3).toNat, space := (x.extractLsb' 72 2).toNat }

/-- The machine check of an instruction at the lane that consumes a bad register element (R218). -/
def State.registerStop (s : State) (e : Env) (i : Instr) (l : Nat) (carry : W64) (slot : Option Nat) : Trap :=
  let bad := (s.consumed e i l).filter fun x => e.w.bad.contains x
  { e.resuming 0x20 l carry slot [registerRecord s.clock l] with errs := bad.map fun x => .register e.n x.1 x.2 }

/-- An instruction word retires: in round mode it counts toward its round (R180), where it has not been `counted`. -/
def State.countWord (s : State) (n : Nat) (counted : Bool) : State :=
  match s.wave? n with
  | none => s
  | some w =>
    if s.isRound w then
      let q := match s.launchOf w with | some l => l.lr.roundLen | none => 0
      let k := if counted then 0 else 1
      (s.updWave n fun x =>
        { x with retired := x.retired + BitVec.ofNat 64 k, lt := x.lt + k,
                 roundEnded := x.roundEnded || decide (x.lt + k ≥ q),
                 bellSplit := if s.atBell then none else x.bellSplit }).stir w.launch
    else s

/-- An instruction word of a split retires: it is counted, and the windows of its split move (R234), both once. -/
def State.retire (s : State) (n k : Nat) (new : Option Window) : State :=
  let counted := ((s.wave? n).bind fun w => Tab.find w.splits k).any Split.counted
  (s.countWord n counted).updSplit n k fun p =>
    { p with windows := if counted then p.windows else stepWindows p.windows new, retry := none, waiting := .none }

/-- The clause of a split has ended: the wave's turn passes to the next split (R120). -/
def State.turnOver (s : State) (n k : Nat) (yld : Bool) : State :=
  s.clearCur.updWave n fun w =>
    { w with nextSplit := (k + 1) % 4, begun := none, yielded := w.yielded || yld }

/-- A split goes on in its clause. -/
def State.goOn (s : State) (n k : Nat) : State := { s with cur := some (n, k) }.updWave n fun w => { w with begun := some k }

/-- The split continues after its word. -/
def State.continueAt (s : State) (n k : Nat) (p : Split) : State :=
  if p.atLast then
    (s.updSplit n k Split.advance).turnOver n k (p.header.yld == 1)
  else (s.goOn n k).updSplit n k Split.advance

/-- A wait that stalls its whole wave (R52, R109, R113, R126). -/
def Wait.stalls : Wait → Bool
  | .pop _ | .pushFull _ | .chainEmpty _ | .chainFull .. | .seedFull _ | .claim | .page _ => true
  | _ => false

/-- A split waits at its word. In ordinary mode the wave's other splits may go on meanwhile, unless the wait stalls the wave
(R118, R120). -/
def State.pause (s : State) (e : Env) (x : Wait) : State :=
  s.clearCur.updWave e.n fun w =>
    { w.updSplit e.k fun p => { p with waiting := x } with
      begun := if x.stalls || s.isRound e.w then w.begun else none }

/-- The instruction pops its queues now: it executes anew, or for the first time (R113). -/
def Split.popsNow (p : Split) : Bool := match p.retry with
  | some r => r.repop && !r.skip
  | none => true

/-- Remove what an instruction pops, where it pops now (R113). -/
def State.popFor (s : State) (e : Env) (i : Instr) : State :=
  if e.sp.popsNow then s.popQueues e.w.team i.queues else s

/-- The trap of a chained instruction tells its slot and the carry of its resume lane: before any lane has performed that is
its chain input, and a free value where there is none (R213; log entry 111). -/
def State.chainMark (s : State) (e : Env) (i : Instr) (t : Trap) : Trap :=
  match i.chainSlot with
  | none => t
  | some c => { t with slot := some c.toNat, carry := match s.chainInput e.w c.toNat with
      | .value v => v
      | _ => Config.freeCarry s.clock }

/-- An instruction ends in a trap, `x` being what it performed. -/
def State.finishTrap (s : State) (e : Env) (i : Instr) (num : Nat) (x : State) (t : Trap) : State :=
  match t.kind with
  | 0 => s.raise e.n (s.chainMark e i t)
  | 2 => (x.popFor e i).raise e.n t
  | 1 =>
    let x := (x.popFor e i).retire e.n e.k (windowOf i num)
    -- one that ends its round does so also where its accesses are suppressed (R183)
    let x := if i.endsRound && s.isRound e.w && !s.atBell then x.updWave e.n fun w => { w with roundEnded := true } else x
    x.raise e.n t
  | _ =>
    -- after: the split's place is past the instruction when the handler starts
    (((x.popFor e i).retire e.n e.k (windowOf i num)).continueAt e.n e.k e.sp).raise e.n t

/-- Carry out what an instruction word comes to. -/
def State.finish (s : State) (e : Env) (i : Instr) (num : Nat) (r : Res) : State :=
  let pop (x : State) : State := x.popFor e i
  match r with
  | .done x => ((pop x).retire e.n e.k (windowOf i num)).continueAt e.n e.k e.sp
  | .jump x target => (((pop x).retire e.n e.k none).updSplit e.n e.k fun p => p.goto target).turnOver e.n e.k
      (e.sp.header.yld == 1)
  | .moved x => ((pop x).retire e.n e.k none).turnOver e.n e.k (e.sp.header.yld == 1)
  | .returned x => ((pop x).countWord e.n false).clearCur.updWave e.n fun w =>
      { w with yielded := w.yielded || (e.sp.atLast && e.sp.header.yld == 1) }
  | .within x j =>
    let x := (pop x).retire e.n e.k none
    match (x.wave? e.n).bind fun w => Tab.find w.splits j with
    | some p => if p.clause.isEmpty then x.turnOver e.n j (e.sp.header.yld == 1) else x.goOn e.n j
    | none => x.turnOver e.n e.k (e.sp.header.yld == 1)
  | .wait w => s.pause e w
  | .holding x w => (pop x).pause e w
  | .asks x w => x.pause e w
  | .endRound w => (s.clearCur.updSplit e.n e.k fun p => { p with waiting := w }).updWave e.n (fun w => { w with roundEnded := true })
    |>.stir e.w.launch
  | .defer x m =>
    let r : Retry := { lanes := m, skip := false, counted := e.sp.counted, carry := e.carry, repop := false, pops := e.pops,
                       replies := [], execMask := e.mask, owed := none }
    let x := (pop x).clearCur.updWave e.n fun w => { w with roundEnded := true, bellSplit := some e.k }
    (x.updSplit e.n e.k (fun p => { p with retry := some r })).stir e.w.launch
  | .trap x t => s.finishTrap e i num x t
  | .trapDefer x t m =>
    s.finishTrap e i num (x.updWave e.n fun w =>
      { w with roundEnded := w.roundEnded || t.cause != 0x18,
               buffer := w.buffer ++ [.word e.k (e.sp.retryAt m 0 false e.pops e.mask)] }) t

/-- The environment of a word in a split: the lanes that execute are those whose guard holds, or those a retry names. -/
def envOf (n k : Nat) (w : Wave) (sp : Split) (h : Head) : Env :=
  let active : W32 := if w.drover then 1 else sp.mask
  match sp.retry with
  | some r => { n := n, k := k, w := w, sp := sp, active := active, exec := r.lanes, pops := r.pops, carry := r.carry }
  | none => { n := n, k := k, w := w, sp := sp, active := active, exec := w.guarded h active, pops := [], carry := 0 }

/-- SRD's register number, where the instruction is SRD. -/
def State.srdNumber (s : State) (e : Env) (i : Instr) : Nat :=
  match i with
  | .srd _ _ a => (s.uni e a).toNat
  | _ => 0

/-- The trap of causes 0x01, 0x08 and 0x02 that a word meets in the values it reads: it stands before any other (R211). -/
def Res.early : Res → Option Trap
  | .trap _ t => if t.kind = 0 && (t.cause == 0x01 || t.cause == 0x08 || t.cause == 0x02) then some t else none
  | _ => none

/-- The word takes a precise or a suppressing trap of its own, which stands before a machine check (R211). -/
def Res.precedes : Res → Bool
  | .trap _ t | .trapDefer _ t _ => decide (t.kind < 2)
  | _ => false

/-- The state that belongs to no lane and that a word consumes, apart from barriers: split stacks, the trap context, chain
queues (R218). -/
def Env.part (e : Env) (i : Instr) : Option Part :=
  match i with
  | .join _ | .exit _ | .stksv .. => if e.sp.stack.isEmpty && e.sp.spill.isEmpty then none else some (.stack e.n e.k)
  | .rtu .. | .rts .. => some (.context e.n)
  | _ => match i.chainSlot with
    | some c => if e.sp.retry.isNone then some (.chain e.n c.toNat) else none
    | none => none

/-- An uncorrectable error in state that belongs to no lane terminates the team (R218). Its record's resume lane is the first
executing lane, its fault mask every executing one, and it holds no lane record (log entry 147); that of a chained instruction
tells the slot, and a free carry, its input being lost (R213, log entry 111). -/
def State.partTrap (s : State) (e : Env) (p : Part) : Trap :=
  let t := { e.resuming 0x20 e.firstExec 0 none [] with errs := [.part p], fatal := true }
  match p with
  | .chain _ c => { t with slot := some c, carry := Config.freeCarry s.clock }
  | _ => t

/-- What a word comes to that consumes state which belongs to no lane: an error there stands behind its precise and suppressing
traps (R211, R218). -/
def State.guardPart (s : State) (e : Env) (p : Part) (r : Res) : Res :=
  if s.badParts.contains p && !r.precedes then .trap s (s.partTrap e p) else r

/-- The instruction has an effect of its own in each lane, which does not depend on the other lanes that execute again (R133). -/
def perLane (i : Instr) : Bool :=
  match i with
  | .hgath .. | .hexit .. | .elect .. => true
  | .srd _ d _ | .chout _ _ d => !(match d with | .s _ => true | _ => false)
  | _ => false

/-- The environment of a word in the lanes below one (R133). -/
def Env.below (e : Env) (l : Nat) : Env :=
  let m := e.exec &&& ~~~(fromLane e.exec l)
  { e with exec := m, sp := e.sp.retryAt m e.carry false e.pops e.mask }

/-- What a word comes to that consumes a bad register element at a lane: one with an effect in each lane performs the lanes below
(R133, R218). -/
def State.stopAt (s : State) (e : Env) (i : Instr) (l : Nat) (body : State → Env → Res) : Res :=
  let stop (x : State) : Res := .trap x (s.registerStop e i l 0 none)
  if perLane i && (e.below l).exec != 0 then match body s (e.below l) with
    | .done x => stop x
    | r => r
  else stop s

/-- Carry out what a word comes to, where no error in the state it consumes stops it (R211, R218). -/
def State.complete (s : State) (e : Env) (i : Instr) (num : Nat) (body : State → Env → Res) : State :=
  let r := match e.part i with
    | some p => s.guardPart e p (body s e)
    | none => body s e
  match (if r.precedes || laneWise i then none else s.badLane e i) with
  | some l => s.finish e i num (s.stopAt e i l body)
  | none => s.finish e i num r

/-- Execute a word whose pops have their values; a chained one also needs its input and room for its output (R123, R126). -/
def State.attempt (s : State) (e : Env) (i : Instr) (num : Nat) (body : State → Env → Res) : State :=
  match i.chainSlot with
  | none => s.complete e i num body
  | some c =>
    if e.sp.retry.isSome then
      if s.chainRoom e.w c.toNat true then s.complete e i num body
      else s.finish e i num (.wait (.chainFull c.toNat true))
    else if e.exec = 0 then s.finish e i num (.done s)
    else
      match s.chainInput e.w c.toNat with
      | .empty => s.finish e i num (.wait (.chainEmpty c.toNat))
      | .full => s.finish e i num (.wait (.chainFull c.toNat false))
      | .closed => s.finishTrap e i num s (e.trap 0x07)
      | .value v =>
        let e := { e with carry := v }
        s.complete e i num body

/-- A word whose lanes count as guarded off (R132, R215): it hands on the saved carry where it has consumed its chain input,
and a TEND that has found a count at zero takes its engine error. -/
def State.passWord (s : State) (e : Env) (i : Instr) (repop : Bool) : State :=
  let num := s.srdNumber e i
  match i, i.chainSlot with
  | .tend .., _ => s.finish e i num (if e.carry = 0 then .done s else .trap s (e.engineError 0 0))
  | _, some c =>
    if repop then s.finish e i num (.done s)
    else if s.chainRoom e.w c.toNat true then s.finish e i num (.done (s.chainGive e.n c.toNat e.carry))
    else s.finish e i num (.wait (.chainFull c.toNat true))
  | _, none => s.finish e i num (.done s)

/-- The word takes a bad branch target or a non-uniform branch (R211 item 5). -/
def Res.misbranches : Res → Option Trap
  | .trap _ t => if t.kind = 0 && (t.cause == 0x04 || t.cause == 0x05) then some t else none
  | _ => none

/-- The trap that a word takes for every value its queues may deliver (R211), as `pick` tells it for each trial. -/
def State.unpopped (s : State) (e : Env) (i : Instr) (body : State → Env → Res) (pick : Res → Option Trap) : Option Trap :=
  let found := i.trials.map fun v => pick (body s { e with pops := v.foldl (fun m x => Tab.put m x.1 x.2) [] })
  if found.all (·.isSome) then found.head?.bind id else none

/-- A word executes for the first time. The causes are taken in the order of R211: those of decoding, then those of the values
it reads (`body`), then a lookahead violation, then a branch's, then underflows; an operand that is not popped yet decides
nothing. -/
def State.firstTry (s : State) (e : Env) (i : Instr) (body : State → Env → Res) : State :=
  match s.issueFault e i with
  | some (c, counted) => s.finishTrap e i 0 s { e.trap c with counted := counted }
  | none =>
    match popsFor (s.teamOf e.w) i with
    | .values v =>
      let e := { e with pops := v }
      let num := s.srdNumber e i
      match (body s e).early with
      | some x => s.finishTrap e i num s x
      | none => if violates e.sp.windows i num then s.finishTrap e i num s (e.trap 0x03) else s.attempt e i num body
    | x =>
      let num := s.srdNumber e i
      match s.unpopped e i body Res.early with
      | some y => s.finishTrap e i num s y
      | none =>
        if violates e.sp.windows i num then s.finishTrap e i num s (e.trap 0x03)
        else match s.unpopped e i body Res.misbranches, x with
          | some y, _ => s.finishTrap e i num s y
          | none, .waits q => s.finish e i num (.wait (.pop q))
          | none, _ => s.finishTrap e i num s (e.trap 0x50)

/-- A word that executes again at some of its lanes: after a resuming fault with what it has consumed, after a suppressing
fault with queues that it pops anew (R113, R133, R134, R215). A handler may have given up registers that it names (R363). -/
def State.tryAgain (s : State) (e : Env) (i : Instr) (repop : Bool) (body : State → Env → Res) : State :=
  if !(rangesOk e.w (s.teamOf e.w) i) then s.finishTrap e i 0 s (e.trap 0x02)
  else if !repop then s.attempt e i (s.srdNumber e i) body
  else
    match popsFor (s.teamOf e.w) i with
    | .values v =>
      let e := { e with pops := v }
      s.attempt e i (s.srdNumber e i) body
    | .waits q => s.finish e i 0 (.wait (.pop q))
    | .underflow => s.finishTrap e i 0 s (e.trap 0x50)

/-- Execute one instruction word of the selected wave and split: `body` is what the instruction does once its operands are
there. -/
def State.runWord (s : State) (i : Instr) (h : Head) (body : State → Env → Res) : Host.Outcome State Fault Refusal :=
  match s.cur with
  | none => .fault .noAgent
  | some (n, k) =>
    match s.wave? n with
    | none => .fault .noAgent
    | some w =>
      match Tab.find w.splits k with
      | none => .fault .noAgent
      | some sp =>
        let e := envOf n k w sp h
        match sp.retry with
        | none => .next (s.firstTry e i body)
        | some r => .next (if r.skip then s.passWord e i r.repop else s.tryAgain e i r.repop body)

/-! ### Instructions that compute a value in each lane -/

/-- The lanes one after another: each computes its value from the carry it sees and writes its destination; the carry
is the value last written (R123). -/
def laneFold (d : Operand) (regs : Nat) (chained : Bool) (f : Nat → W64 → W64 × Flags) :
    List Nat → Wave → W64 → Wave × W64
  | [], w, carry => (w, carry)
  | l :: r, w, carry =>
    let (x, fl) := f l carry
    let x : W64 := if regs = 1 then (lo32 x).setWidth 64 else x
    laneFold d regs chained f r ((w.writeLane d regs l x).orFlags fl) (if chained then x else carry)

/-- An instruction that computes a V or O value in each executing lane (R121, R123, R261, R288). -/
def State.laneOp (s : State) (e : Env) (i : Instr) (d : Operand) (regs : Nat) (f : Nat → W64 → W64 × Flags) : Res :=
  let slot := i.chainSlot.map (·.toNat)
  let stop := s.badLane e i
  let lanes := (lanesOf e.exec).filter fun l => match stop with | some b => decide (l < b) | none => true
  let (w, carry) := laneFold d regs slot.isSome f lanes e.w e.carry
  let t := s.setWave e.n w
  let t := match slot with
    | some c => if e.sp.retry.isSome then t else t.chainTake e.n c
    | none => t
  match stop with
  | some b => .trap t (s.registerStop e i b carry slot)
  | none =>
    match slot with
    | some c => .done (t.chainGive e.n c carry)
    | none => .done t

/-- An instruction that computes a predicate in each executing lane. -/
def State.lanePred (s : State) (e : Env) (i : Instr) (d : Operand) (f : Nat → Bool × Flags) : Res :=
  let stop := s.badLane e i
  let lanes := (lanesOf e.exec).filter fun l => match stop with | some b => decide (l < b) | none => true
  let w := lanes.foldl (fun (w : Wave) l => let (b, fl) := f l; (w.writePred d l b).orFlags fl) e.w
  match stop with
  | some b => .trap (s.setWave e.n w) (s.registerStop e i b 0 none)
  | none => .done (s.setWave e.n w)

/-- The scalar form of an instruction (R104): it executes when the guard holds in the lowest active lane. -/
def Env.scalarRuns (e : Env) : Bool := e.exec.getLsbD e.first

/-- The guard holds in some active lane (R229). -/
def Env.runs (e : Env) : Bool := e.exec != 0

end Sys2Proof.Machine
end

