-- ==== Sys2Proof/Machine/Alu.lean ====
section
/-!
DEFINITION. Groups 0 and 1: integer, logic and bit instructions (R261–R271), in vector, chained and scalar form.
-/
namespace Sys2Proof.Machine

/-- A value instruction of groups 0 and 1 (R261): scalar where its destination is an S register, chained where it names a
prev operand, else in each executing lane. `sx` fills bits 63..32 of an S destination with bit 31. -/
def State.valueOp (s : State) (i : Instr) (h : Head) (d : Operand) (regs : Nat) (sx : Bool)
    (f : State → Env → Nat → W64 → W64 × Flags) : Host.Outcome State Fault Refusal :=
  s.runWord i h fun s e =>
    if i.scalar then
      if e.scalarRuns then
        let (x, fl) := f s e e.first 0
        let y : W64 := if regs = 1 then (if sx then (lo32 x).signExtend 64 else (lo32 x).setWidth 64) else x
        .done (s.updWave e.n fun w => (w.writeS d y).orFlags fl)
      else .done s
    else s.laneOp e i d regs (f s e)

/-- An integer instruction of two sources of one type. -/
def State.intOp2 (s : State) (i : Instr) (h : Head) (t : IntTy) (d a b : Operand) (f : W64 → W64 → W64) :
    Host.Outcome State Fault Refusal :=
  s.valueOp i h d t.regs (t == .s32) fun s e l prev =>
    (f (s.readInt e t.regs a l prev) (s.readInt e t.regs b l prev), 0)

/-- An integer instruction of three sources of one type. -/
def State.intOp3 (s : State) (i : Instr) (h : Head) (t : IntTy) (d a b c : Operand) (f : W64 → W64 → W64 → W64) :
    Host.Outcome State Fault Refusal :=
  s.valueOp i h d t.regs (t == .s32) fun s e l prev =>
    (f (s.readInt e t.regs a l prev) (s.readInt e t.regs b l prev) (s.readInt e t.regs c l prev), 0)

/-- The lesser of two values of a type. -/
def minInt (t : IntTy) (x y : W64) : W64 := if t.value y < t.value x then y else x
/-- The greater of two values of a type. -/
def maxInt (t : IntTy) (x y : W64) : W64 := if t.value x < t.value y then y else x

/-- NOP (R262). -/
def execNop (h : Head) (s : State) : Host.Outcome State Fault Refusal := s.runWord (.nop h) h fun s _ => .done s

/-- MOV, and MOV.first from the lowest active lane (R263). -/
def execMov (h : Head) (w64 first : Bool) (d a : Operand) (s : State) : Host.Outcome State Fault Refusal :=
  if first then
    s.runWord (.mov h w64 first d a) h fun s e =>
      if e.scalarRuns then .done (s.updWave e.n fun w => w.writeS d (s.readInt e (regsOf w64) a e.first 0)) else .done s
  else s.valueOp (.mov h w64 first d a) h d (regsOf w64) false fun s e l prev => (s.readInt e (regsOf w64) a l prev, 0)

/-- IADD: a + b (R262). -/
def execIadd (h : Head) (t : IntTy) (d a b : Operand) (s : State) : Host.Outcome State Fault Refusal :=
  s.intOp2 (.iadd h t d a b) h t d a b fun x y => x + y

/-- ISUB: a − b (R262). -/
def execIsub (h : Head) (t : IntTy) (d a b : Operand) (s : State) : Host.Outcome State Fault Refusal :=
  s.intOp2 (.isub h t d a b) h t d a b fun x y => x - y

/-- IMUL: the low bits of a × b (R262). -/
def execImul (h : Head) (t : IntTy) (d a b : Operand) (s : State) : Host.Outcome State Fault Refusal :=
  s.intOp2 (.imul h t d a b) h t d a b fun x y => x * y

/-- IMULH: the high bits of the exact product (R262). -/
def execImulh (h : Head) (t : IntTy) (d a b : Operand) (s : State) : Host.Outcome State Fault Refusal :=
  s.intOp2 (.imulh h t d a b) h t d a b fun x y => wrap t.bits (t.value x * t.value y / 2 ^ t.bits)

/-- IMAD: the low bits of a × b + c (R262). -/
def execImad (h : Head) (t : IntTy) (d a b c : Operand) (s : State) : Host.Outcome State Fault Refusal :=
  s.intOp3 (.imad h t d a b c) h t d a b c fun x y z => x * y + z

/-- IMIN (R262). -/
def execImin (h : Head) (t : IntTy) (d a b : Operand) (s : State) : Host.Outcome State Fault Refusal :=
  s.intOp2 (.imin h t d a b) h t d a b (minInt t)

/-- IMAX (R262). -/
def execImax (h : Head) (t : IntTy) (d a b : Operand) (s : State) : Host.Outcome State Fault Refusal :=
  s.intOp2 (.imax h t d a b) h t d a b (maxInt t)

/-- The signed type of a width. -/
def signedTy (w64 : Bool) : IntTy := if w64 then .s64 else .s32

/-- IABS (R262). -/
def execIabs (h : Head) (w64 : Bool) (d a : Operand) (s : State) : Host.Outcome State Fault Refusal :=
  s.valueOp (.iabs h w64 d a) h d (regsOf w64) (!w64) fun s e l prev =>
    (wrap (signedTy w64).bits ((signedTy w64).value (s.readInt e (regsOf w64) a l prev)).natAbs, 0)

/-- INEG (R262). -/
def execIneg (h : Head) (w64 : Bool) (d a : Operand) (s : State) : Host.Outcome State Fault Refusal :=
  s.valueOp (.ineg h w64 d a) h d (regsOf w64) (!w64) fun s e l prev => (-(s.readInt e (regsOf w64) a l prev), 0)

/-- LEA: base + (index << N), the index extended from 32 bits (R264). -/
def execLea (h : Head) (sh : BitVec 3) (zx : Bool) (d a b : Operand) (s : State) : Host.Outcome State Fault Refusal :=
  s.valueOp (.lea h sh zx d a b) h d 2 false fun s e l prev =>
    let x := s.read32 e b l prev
    let y : W64 := if zx then x.setWidth 64 else x.signExtend 64
    (s.read64 e a l prev + (y <<< sh.toNat), 0)

/-- The truth of an integer condition (R266). -/
def IntCond.holds (k : IntCond) (x y : Int) : Bool :=
  match k with
  | .eq => x == y | .ne => x != y | .lt => decide (x < y) | .le => decide (x ≤ y) | .gt => decide (y < x)
  | .ge => decide (y ≤ x)

/-- ICMP (R266). -/
def execIcmp (h : Head) (t : IntTy) (cond : IntCond) (d a b : Operand) (s : State) : Host.Outcome State Fault Refusal :=
  s.runWord (.icmp h t cond d a b) h fun s e =>
    s.lanePred e (.icmp h t cond d a b) d fun l =>
      (IntCond.holds cond (t.value (s.readInt e t.regs a l 0)) (t.value (s.readInt e t.regs b l 0)), 0)

/-- ISEL (R266). -/
def execIsel (h : Head) (w64 : Bool) (d a b c : Operand) (s : State) : Host.Outcome State Fault Refusal :=
  s.valueOp (.isel h w64 d a b c) h d (regsOf w64) false fun s e l prev =>
    (if e.w.readPred c l then s.readInt e (regsOf w64) a l prev else s.readInt e (regsOf w64) b l prev, 0)

/-- ICLAMP: IMIN(IMAX(x, lo), hi) (R262). -/
def execIclamp (h : Head) (t : IntTy) (d a b c : Operand) (s : State) : Host.Outcome State Fault Refusal :=
  s.intOp3 (.iclamp h t d a b c) h t d a b c fun x lo hi => minInt t (maxInt t x lo) hi

/-- IADDS: a + b saturated; IOV where the exact sum lies outside the range (R265). -/
def execIadds (h : Head) (t : IntTy) (d a b : Operand) (s : State) : Host.Outcome State Fault Refusal :=
  s.valueOp (.iadds h t d a b) h d t.regs (t == .s32) fun s e l prev =>
    let (v, out) := t.saturate (t.value (s.readInt e t.regs a l prev) + t.value (s.readInt e t.regs b l prev))
    (wrap t.bits v, flagIf out fIOV)

/-- Byte `i` of a word, sign- or zero-extended. -/
def byteVal (x : W32) (i : Nat) (signed : Bool) : Int :=
  let b : BitVec 8 := x.extractLsb' (8 * i) 8
  if signed then b.toInt else b.toNat

/-- IDOT4 (R267). -/
def execIdot4 (h : Head) (sa sb : Bool) (d a b c : Operand) (s : State) : Host.Outcome State Fault Refusal :=
  s.valueOp (.idot4 h sa sb d a b c) h d 1 false fun s e l prev =>
    let x := s.read32 e a l prev
    let y := s.read32 e b l prev
    let dot := (List.range 4).foldl (fun (acc : Int) i => acc + byteVal x i sa * byteVal y i sb) 0
    (wrap 32 ((s.read32 e c l prev).toNat + dot), 0)

/-! ### Logic and bits -/

/-- A bit instruction of two sources of one width. -/
def State.bitOp2 (s : State) (i : Instr) (h : Head) (w64 : Bool) (d a b : Operand) (f : W64 → W64 → W64) :
    Host.Outcome State Fault Refusal :=
  s.valueOp i h d (regsOf w64) false fun s e l prev =>
    (f (s.readInt e (regsOf w64) a l prev) (s.readInt e (regsOf w64) b l prev), 0)

/-- A shift: the count is B as an unsigned 32-bit value (R269). -/
def State.shiftOp (s : State) (i : Instr) (h : Head) (w64 : Bool) (d a b : Operand) (f : W64 → Nat → W64) :
    Host.Outcome State Fault Refusal :=
  s.valueOp i h d (regsOf w64) false fun s e l prev =>
    (f (s.readInt e (regsOf w64) a l prev) (s.read32 e b l prev).toNat, 0)

/-- The width in bits. -/
def widthOf (w64 : Bool) : Nat := if w64 then 64 else 32

/-- AND (R268). -/
def execLand (h : Head) (w64 : Bool) (d a b : Operand) (s : State) : Host.Outcome State Fault Refusal :=
  s.bitOp2 (.land h w64 d a b) h w64 d a b fun x y => x &&& y

/-- OR (R268). -/
def execLor (h : Head) (w64 : Bool) (d a b : Operand) (s : State) : Host.Outcome State Fault Refusal :=
  s.bitOp2 (.lor h w64 d a b) h w64 d a b fun x y => x ||| y

/-- XOR (R268). -/
def execLxor (h : Head) (w64 : Bool) (d a b : Operand) (s : State) : Host.Outcome State Fault Refusal :=
  s.bitOp2 (.lxor h w64 d a b) h w64 d a b fun x y => x ^^^ y

/-- ANDN: a ∧ ¬b (R268). -/
def execAndn (h : Head) (w64 : Bool) (d a b : Operand) (s : State) : Host.Outcome State Fault Refusal :=
  s.bitOp2 (.andn h w64 d a b) h w64 d a b fun x y => x &&& ~~~y

/-- NOT (R268). -/
def execLnot (h : Head) (w64 : Bool) (d a : Operand) (s : State) : Host.Outcome State Fault Refusal :=
  s.valueOp (.lnot h w64 d a) h d (regsOf w64) false fun s e l prev => (~~~(s.readInt e (regsOf w64) a l prev), 0)

/-- SHL (R269). -/
def execShl (h : Head) (w64 : Bool) (d a b : Operand) (s : State) : Host.Outcome State Fault Refusal :=
  s.shiftOp (.shl h w64 d a b) h w64 d a b fun x k => if k ≥ widthOf w64 then 0 else x <<< k

/-- SHR (R269). -/
def execShr (h : Head) (w64 : Bool) (d a b : Operand) (s : State) : Host.Outcome State Fault Refusal :=
  s.shiftOp (.shr h w64 d a b) h w64 d a b fun x k => if k ≥ widthOf w64 then 0 else x >>> k

/-- SAR (R269). -/
def execSar (h : Head) (w64 : Bool) (d a b : Operand) (s : State) : Host.Outcome State Fault Refusal :=
  s.shiftOp (.sar h w64 d a b) h w64 d a b fun x k =>
    wrap (widthOf w64) ((signedTy w64).value x / 2 ^ (min k (widthOf w64)))

/-- ROL (R269). -/
def execRol (h : Head) (w64 : Bool) (d a b : Operand) (s : State) : Host.Outcome State Fault Refusal :=
  s.shiftOp (.rol h w64 d a b) h w64 d a b fun x k =>
    let r := k % widthOf w64
    (x <<< r) ||| (x >>> (widthOf w64 - r))

/-- The offset and the length of a position word, the length limited to the width (R270). -/
def position (w : Nat) (p : W32) : Nat × Nat := ((p.extractLsb' 0 7).toNat, min (p.extractLsb' 8 7).toNat w)

/-- BFX (R270). -/
def execBfx (h : Head) (w64 sx : Bool) (d a c : Operand) (s : State) : Host.Outcome State Fault Refusal :=
  s.valueOp (.bfx h w64 sx d a c) h d (regsOf w64) false fun s e l prev =>
    let w := widthOf w64
    let (off, n) := position w (s.read32 e c l prev)
    let x := (s.readInt e (regsOf w64) a l prev).toNat
    let field := if off ≥ w then 0 else x / 2 ^ off % 2 ^ n
    (if sx && n > 0 && field ≥ 2 ^ (n - 1) then wrap w ((field : Int) - 2 ^ n) else BitVec.ofNat 64 field, 0)

/-- BFI (R270). -/
def execBfi (h : Head) (w64 : Bool) (d a b c : Operand) (s : State) : Host.Outcome State Fault Refusal :=
  s.valueOp (.bfi h w64 d a b c) h d (regsOf w64) false fun s e l prev =>
    let w := widthOf w64
    let (off, n) := position w (s.read32 e c l prev)
    let m : W64 := BitVec.ofNat 64 ((2 ^ n - 1) * 2 ^ off % 2 ^ w)
    let base := s.readInt e (regsOf w64) a l prev
    let ins := s.readInt e (regsOf w64) b l prev
    ((base &&& ~~~m) ||| ((ins <<< off) &&& m), 0)

/-- POPC (R268). -/
def execPopc (h : Head) (w64 : Bool) (d a : Operand) (s : State) : Host.Outcome State Fault Refusal :=
  s.valueOp (.popc h w64 d a) h d 1 false fun s e l prev =>
    (BitVec.ofNat 64 ((bitsOf (widthOf w64) (s.readInt e (regsOf w64) a l prev).toNat).filter id).length, 0)

/-- CLZ (R268). -/
def execClz (h : Head) (w64 : Bool) (d a : Operand) (s : State) : Host.Outcome State Fault Refusal :=
  s.valueOp (.clz h w64 d a) h d 1 false fun s e l prev =>
    (BitVec.ofNat 64 ((bitsOf (widthOf w64) (s.readInt e (regsOf w64) a l prev).toNat).reverse.takeWhile (!·)).length, 0)

/-- CTZ (R268). -/
def execCtz (h : Head) (w64 : Bool) (d a : Operand) (s : State) : Host.Outcome State Fault Refusal :=
  s.valueOp (.ctz h w64 d a) h d 1 false fun s e l prev =>
    (BitVec.ofNat 64 ((bitsOf (widthOf w64) (s.readInt e (regsOf w64) a l prev).toNat).takeWhile (!·)).length, 0)

/-- BREV (R268). -/
def execBrev (h : Head) (w64 : Bool) (d a : Operand) (s : State) : Host.Outcome State Fault Refusal :=
  s.valueOp (.brev h w64 d a) h d (regsOf w64) false fun s e l prev =>
    (BitVec.ofNat 64 ((bitsOf (widthOf w64) (s.readInt e (regsOf w64) a l prev).toNat).foldl
      (fun acc b => 2 * acc + b.toNat) 0), 0)

/-- PRMB on 32 bits: nibble bit 3 replicates the sign of the selected byte (R271). -/
def prmb32 (lo hi sel : W32) : W64 :=
  let pool := leBytes 4 lo.toNat ++ leBytes 4 hi.toNat
  BitVec.ofNat 64 (ofLe ((List.range 4).map fun i =>
    let n := sel.toNat / 16 ^ i % 16
    let b := pool.getD (n % 8) 0
    if n ≥ 8 then (if b.getLsbD 7 then 0xFF else 0) else b))

/-- PRMB on 64 bits (R271). -/
def prmb64 (lo hi : W64) (sel : W32) : W64 :=
  let pool := leBytes 8 lo.toNat ++ leBytes 8 hi.toNat
  BitVec.ofNat 64 (ofLe ((List.range 8).map fun i => pool.getD (sel.toNat / 16 ^ i % 16) 0))

/-- PRMB (R271). -/
def execPrmb (h : Head) (w64 : Bool) (d a b c : Operand) (s : State) : Host.Outcome State Fault Refusal :=
  s.valueOp (.prmb h w64 d a b c) h d (regsOf w64) false fun s e l prev =>
    let sel := s.read32 e c l prev
    (if w64 then prmb64 (s.read64 e a l prev) (s.read64 e b l prev) sel
     else prmb32 (s.read32 e a l prev) (s.read32 e b l prev) sel, 0)

end Sys2Proof.Machine
end

