-- ==== Sys2Proof/Machine/Cmds.lean ====
section
/-!
DEFINITION. Host commands as the device holds them: their fields (R41, R43), their performance and their completion
records (R47, R51, R52), and the termination of a launch's and an owner's work (R15, R53, R220).
-/
namespace Sys2Proof.Machine

/-! ### Fields -/

/-- A field of the message, as a number. -/
def Cmd.nat (c : Cmd) (i n : Nat) : Nat := leAt c.bytes i n
/-- The protocol version (R41). -/
def Cmd.version (c : Cmd) : Nat := c.nat 0 1
/-- The command code (R43). -/
def Cmd.code (c : Cmd) : Nat := c.nat 1 1
/-- The fence bit (R48). -/
def Cmd.fence (c : Cmd) : Bool := (c.nat 2 2).testBit 0
/-- The host tag. -/
def Cmd.tag (c : Cmd) : W64 := BitVec.ofNat 64 (c.nat 8 8)
/-- The message length as its header gives it. -/
def Cmd.length (c : Cmd) : Nat := c.nat 4 4

/-- The port die that received the command (R25, R42). -/
def Cmd.die (c : Cmd) : Option Nat := some (dieOfPort c.port)

/-- A command as its message has been committed in the ring. -/
def Cmd.ofMessage (m : RxMessage) : Cmd :=
  { bytes := m.bytes, port := m.port, flow := m.flow, phase := .received, status := 0, r0 := 0, r1 := 0, r2 := 0,
    progress := 0, pageWait := none, launch := none, shadowsDone := false, got := [], asked := none, answer := none }

/-! ### A command's place -/

/-- A command of an owner. -/
def State.cmd? (s : State) (o c : Nat) : Option Cmd := (s.owner? o).bind fun x => Tab.find x.cmds c
/-- Change a command. -/
def State.updCmd (s : State) (o c : Nat) (f : Cmd → Cmd) : State :=
  s.updOwner o fun x => { x with cmds := Tab.upd x.cmds c f }

/-- The command has performed its last event; its completion record is still to be committed (R47). -/
def State.finishCmd (s : State) (o c status : Nat) (r0 r1 r2 : W64) : State :=
  s.updCmd o c fun x => { x with phase := .performed, status := status, r0 := r0, r1 := r1, r2 := r2, pageWait := none }

/-- A command that fails a check: nothing of it takes effect (R398). -/
def State.refuse (s : State) (o c status : Nat) : State := s.finishCmd o c status 0 0 0

/-- The completion record of a performed command (R51). -/
def Cmd.completion (c : Cmd) : Completion :=
  { tag := c.tag, status := c.status, code := c.code, version := c.version, r0 := c.r0, r1 := c.r1, r2 := c.r2 }

/-- The command has been dispatched and its effect has not begun, or it continues after a page it waited for (R52) or the answer of
a home package (R33). -/
def State.acting (s : State) (o : Nat) (c : Cmd) : Bool :=
  match c.phase with
  | .dispatched => true
  | .running => c.asked.isNone && match c.pageWait with
    | some va => (match (s.owner? o).bind fun x => x.pageAt va with
      | some p => p.frame.isSome || p.remote.isSome
      | none => false)
    | none => true
  | _ => false

/-- The event of a dispatched command with one of given codes; anything else does nothing. -/
def State.onCmd (s : State) (o c code : Nat) (f : Owner → Cmd → State) : State :=
  match s.owner? o, s.cmd? o c with
  | some x, some y => if y.code = code && s.acting o y && (s.phase ≠ .tripped || code = 0x0E) then f x y else s
  | _, _ => s

/-! ### Ending work -/

/-- The launches that a launch belongs to, nearest first, up to the host launch (R50); at most `fuel`. -/
def State.ancestors (s : State) (l : Nat) : Nat → List Nat
  | 0 => []
  | fuel + 1 =>
    match (s.launch? l).bind (·.parent) with
    | some p => p :: State.ancestors s p fuel
    | none => []

/-- Drop waves, drovers, engines and teams that pass a test, with what the device holds for them. -/
def State.dropTeams (s : State) (f : Team → Bool) : State :=
  let ids := (s.teams.filter fun x => f x.2).map (·.1)
  let s := { s with engines := s.engines.filter fun x => !(ids.contains x.2.team) }
  ids.foldl (fun s t => s.removeTeam t) s

end Sys2Proof.Machine
end

