-- ==== Sys2Proof/Machine/Sha.lean ====
section
/-!
DEFINITION. SHA-256, which R16, R17, R45, R57, R59 and R60 name; its constants are computed from their definition in
the standard, the fractional parts of roots of the first primes (log entry 116).
-/
namespace Sys2Proof.Machine

/-- The greatest `r` below 2^`bits` with `r` ^ `k` ≤ `v`, found bit by bit. -/
def rootBits (k v : Nat) : Nat → Nat → Nat
  | 0, r => r
  | bits + 1, r => rootBits k v bits (if (r + 2 ^ bits) ^ k ≤ v then r + 2 ^ bits else r)

/-- The first 32 bits of the fractional part of the `k`-th root of a number below 2^16. -/
def rootFraction (k v : Nat) : W32 := BitVec.ofNat 32 (rootBits k (v * 2 ^ (32 * k)) 48 0)

/-- The primes below 312: there are 64. -/
def smallPrimes : List Nat :=
  (List.range 312).filter fun n => decide (2 ≤ n) && (List.range 18).all fun d => decide (d < 2) || d == n || n % d != 0

/-- The constant words of the rounds: cube roots. -/
def roundWords : List W32 := smallPrimes.map (rootFraction 3)

/-- The eight words a digest starts from: square roots. -/
def digestStart : List W32 := (smallPrimes.take 8).map (rootFraction 2)

/-- The exclusive or of three rotations, or of two rotations and a shift. -/
def mixWord (x : W32) (a b c : Nat) (shift : Bool) : W32 :=
  x.rotateRight a ^^^ x.rotateRight b ^^^ (if shift then x >>> c else x.rotateRight c)

/-- The sixteen message words of a block grow by the word that follows from them. -/
def scheduleWord (w : List W32) : W32 :=
  let at' (i : Nat) : W32 := w.getD i 0
  mixWord (at' 14) 17 19 10 true + at' 9 + mixWord (at' 1) 7 18 3 true + at' 0

/-- One round on the eight working words, with the sum of its constant and message words. -/
def digestRound (x : List W32) (kw : W32) : List W32 :=
  match x with
  | [a, b, c, d, e, f, g, h] =>
    let t := h + mixWord e 6 11 25 false + (g ^^^ (e &&& (f ^^^ g))) + kw
    [t + mixWord a 2 13 22 false + ((a &&& b) ||| (c &&& (a ||| b))), a, b, c, d + t, e, f, g]
  | _ => x

/-- A block of 64 bytes taken into the eight words. -/
def digestBlock (x : List W32) (block : List Byte) : List W32 :=
  let start := (chunks 4 16 block).map fun b => BitVec.ofNat 32 (ofBe b)
  let (y, _) := roundWords.foldl (fun (acc : List W32 × List W32) k =>
    (digestRound acc.1 (k + acc.2.getD 0 0), acc.2.drop 1 ++ [scheduleWord acc.2])) (x, start)
  List.zipWith (· + ·) x y

/-- A message with the mark, the zeros and the bit length that fill its last block. -/
def filledMessage (m : List Byte) : List Byte :=
  let n := m.length + 9
  m ++ 0x80 :: (List.replicate (alignUp n 64 - n) 0 ++ beBytes 8 (8 * m.length))

/-- The SHA-256 digest of a message. -/
def sha256 (m : List Byte) : BitVec 256 :=
  let p := filledMessage m
  let x := (chunks 64 (p.length / 64) p).foldl digestBlock digestStart
  BitVec.ofNat 256 (x.foldl (fun n (w : W32) => n * 2 ^ 32 + w.toNat) 0)

/-- The 32 bytes of a digest. -/
def digestBytes (d : BitVec 256) : List Byte := beBytes 32 d.toNat

end Sys2Proof.Machine
end

