-- ==== Sys2Proof/Machine/Crypto.lean ====
section
/-!
DEFINITION. The cryptography the rules name beside SHA-256: ECDSA and ECDH on P-256 (R16, R44, R45, R57, R59), HKDF and AES
key wrap (R45), and the subject key of an X.509 certificate (R16, R17). What the standards say is taken from them (log
entry 116).
-/
namespace Sys2Proof.Machine

/-! ### The curve P-256 -/

/-- The prime of the field. -/
def fieldP : Nat := 2 ^ 256 - 2 ^ 224 + 2 ^ 192 + 2 ^ 96 - 1
/-- The coefficient b of the curve y² = x³ − 3x + b. -/
def curveB : Nat := 0x5ac635d8aa3a93e7b3ebbd55769886bc651d06b0cc53b0f63bce3c3e27d2604b
/-- The order of the base point. -/
def curveN : Nat := 0xffffffff00000000ffffffffffffffffbce6faada7179e84f3b9cac2fc632551

/-- x ^ e mod m, for an exponent of at most 256 bits. -/
def powMod (m x e : Nat) : Nat :=
  (List.range 256).foldl (fun r i => let q := r * r % m; if e.testBit (255 - i) then q * x % m else q) (1 % m)

/-- The inverse modulo a prime. -/
def invMod (m x : Nat) : Nat := powMod m (x % m) (m - 2)

/-- A point of the curve by its coordinates; none is the point at infinity. -/
abbrev Point := Option (Nat × Nat)

/-- The base point. -/
def baseG : Point :=
  some (0x6b17d1f2e12c4247f8bce6e563a440f277037d812deb33a0f4a13945d898c296,
        0x4fe342e2fe1a7f9b8ee7eb4a7c0f9e162bce33576b315ececbb6406837bf51f5)

/-- The sum of two points. -/
def addPoints : Point → Point → Point
  | none, q => q
  | p, none => p
  | some (x, y), some (u, v) =>
    if x = u && (y + v) % fieldP = 0 then none
    else
      let slope := (if x = u then (3 * x * x + (fieldP - 3)) * invMod fieldP (2 * y)
        else (v + fieldP - y) * invMod fieldP (u + fieldP - x)) % fieldP
      let w := (slope * slope + 2 * fieldP - x - u) % fieldP
      some (w, (slope * (x + fieldP - w) + fieldP - y) % fieldP)

/-- A multiple of a point, by a number of at most 256 bits. -/
def mulPoint (k : Nat) (p : Point) : Point :=
  (List.range 256).foldl (fun q i => let r := addPoints q q; if k.testBit (255 - i) then addPoints r p else r) none

/-- A point given by its big-endian coordinates X then Y lies on the curve (R41, R44). -/
def onCurve (b : List Byte) : Bool :=
  let x := ofBe (b.take 32)
  let y := ofBe ((b.drop 32).take 32)
  decide (x < fieldP) && decide (y < fieldP) && (y * y + 3 * x) % fieldP == (x * x * x + curveB) % fieldP

/-- The point that 64 bytes X then Y give. -/
def pointOf (b : List Byte) : Point := some (ofBe (b.take 32), ofBe ((b.drop 32).take 32))

/-- The 64 bytes of a point. -/
def pointBytes : Point → List Byte
  | some (x, y) => beBytes 32 x ++ beBytes 32 y
  | none => List.replicate 64 0

/-- The x-coordinate of a point; 0 at infinity. -/
def pointX : Point → Nat
  | some (x, _) => x
  | none => 0

/-- The number that ECDSA signs for a message. -/
def messageHash (m : List Byte) : Nat := (sha256 m).toNat

/-- The ECDSA P-256/SHA-256 signature of 64 bytes, r then s, verifies under a public key of 64 bytes, X then Y. -/
def ecdsaVerify (key m sig : List Byte) : Bool :=
  let r := ofBe (sig.take 32)
  let s := ofBe ((sig.drop 32).take 32)
  let w := invMod curveN s
  let q := addPoints (mulPoint (messageHash m * w % curveN) baseG) (mulPoint (r * w % curveN) (pointOf key))
  decide (0 < r) && decide (r < curveN) && decide (0 < s) && decide (s < curveN) && onCurve key &&
  q.isSome && pointX q % curveN == r

/-- The signature of a message with a secret key and a number drawn for it, r then s. -/
def ecdsaSign (secret k : Nat) (m : List Byte) : List Byte :=
  let r := pointX (mulPoint k baseG) % curveN
  beBytes 32 r ++ beBytes 32 (invMod curveN k * (messageHash m + r * secret) % curveN)

/-- A secret key or a drawn number, from a free value: from 1 to the order less 1. -/
def scalarOf (v : Nat) : Nat := 1 + v % (curveN - 1)

/-! ### HMAC and HKDF -/

/-- HMAC-SHA-256, with a key of at most 64 bytes. -/
def hmac (key m : List Byte) : List Byte :=
  let pad (x : Byte) : List Byte := (List.range 64).map fun i => key.getD i 0 ^^^ x
  digestBytes (sha256 (pad 0x5C ++ digestBytes (sha256 (pad 0x36 ++ m))))

/-- HKDF-SHA-256 with 32 bytes of output (R45). -/
def hkdf (ikm salt info : List Byte) : List Byte := hmac (hmac salt ikm) (info ++ [1])

/-! ### AES-256 and its key wrap -/

/-- Twice an element of the AES field. -/
def xtime (b : Byte) : Byte := (b <<< 1) ^^^ (if b.getLsbD 7 then 0x1B else 0)

/-- The product of two elements of the AES field. -/
def fieldMul (a b : Byte) : Byte :=
  ((List.range 8).foldl (fun (acc : Byte × Byte) i =>
    (if b.getLsbD i then acc.1 ^^^ acc.2 else acc.1, xtime acc.2)) (0, a)).1

/-- Each element of the AES field with its inverse, 0 with 0: the powers of 3 with the powers of its inverse. -/
def fieldInverses : Nat → Byte → Byte → List (Byte × Byte)
  | 0, _, _ => [(0, 0)]
  | n + 1, x, y => (x, y) :: fieldInverses n (x ^^^ xtime x) (fieldMul 0xF6 y)

/-- The AES substitution, from the inverse of the byte. -/
def subByte (x : Byte) : Byte :=
  x ^^^ x.rotateLeft 1 ^^^ x.rotateLeft 2 ^^^ x.rotateLeft 3 ^^^ x.rotateLeft 4 ^^^ 0x63

/-- A function of a byte as one number, from its pairs: byte `i` of it is the function's value for `i`. -/
def packTable (l : List (Byte × Byte)) : Nat := l.foldl (fun n x => n + x.2.toNat <<< (8 * x.1.toNat)) 0

/-- The substitutions of all bytes. -/
def subTable : Nat := packTable ((fieldInverses 255 1 1).map fun x => (x.1, subByte x.2))

/-- The inverse substitutions of all bytes. -/
def unsubTable : Nat := packTable ((fieldInverses 255 1 1).map fun x => (subByte x.2, x.1))

/-- The bytes put through a table. -/
def through (t : Nat) (b : List Byte) : List Byte := b.map fun x => BitVec.ofNat 8 (t >>> (8 * x.toNat))

/-- The exclusive or of two byte strings. -/
def xorBytes (a b : List Byte) : List Byte := List.zipWith (· ^^^ ·) a b

/-- The key schedule of AES-256, newest word first: the words that follow `i` earlier ones. -/
def expandKey : Nat → Nat → Byte → List (List Byte) → List (List Byte)
  | 0, _, _, ws => ws
  | n + 1, i, rc, ws =>
    let last := ws.headD []
    let t := if i % 8 = 0 then xorBytes (through subTable (last.drop 1 ++ last.take 1)) [rc, 0, 0, 0]
      else if i % 8 = 4 then through subTable last else last
    expandKey n (i + 1) (if i % 8 = 0 then xtime rc else rc) (xorBytes (ws.getD 7 []) t :: ws)

/-- The fifteen round keys of AES-256, 16 bytes each. -/
def roundKeys (key : List Byte) : List (List Byte) :=
  chunks 16 15 (expandKey 52 8 1 (chunks 4 8 key).reverse).reverse.flatten

/-- The inverse row shift: byte `i` of the block by columns. -/
def unshift (b : List Byte) : List Byte :=
  (List.range 16).map fun i => b.getD ((i % 4) + 4 * ((i / 4 + 4 - i % 4) % 4)) 0

/-- The inverse mix of one column: a byte's multiples by 9, 11, 13 and 14 are sums of its doublings. -/
def unmixColumn : List Byte → List Byte
  | [a, b, c, d] =>
    let all := xtime (xtime (xtime (a ^^^ b ^^^ c ^^^ d)))
    let p := xtime (xtime (a ^^^ c))
    let q := xtime (xtime (b ^^^ d))
    let s := a ^^^ b ^^^ c ^^^ d
    [s ^^^ a ^^^ all ^^^ p ^^^ xtime (a ^^^ b), s ^^^ b ^^^ all ^^^ q ^^^ xtime (b ^^^ c),
     s ^^^ c ^^^ all ^^^ p ^^^ xtime (c ^^^ d), s ^^^ d ^^^ all ^^^ q ^^^ xtime (d ^^^ a)]
  | x => x

/-- The inverse column mix. -/
def unmix (b : List Byte) : List Byte := (chunks 4 4 b).flatMap unmixColumn

/-- A block of 16 bytes decrypted with AES-256. -/
def aesDecrypt (key block : List Byte) : List Byte :=
  match (roundKeys key).reverse with
  | [] => block
  | last :: ks =>
    let x := ks.foldl (fun (x : List Byte × Nat) k =>
      let y := xorBytes (through unsubTable (unshift x.1)) k
      (if x.2 = 13 then y else unmix y, x.2 + 1)) (xorBytes block last, 0)
    x.1

/-- AES key unwrap with a 256-bit key (RFC 3394): the key data, or none where the check value is wrong. -/
def keyUnwrap (kek wrapped : List Byte) : Option (List Byte) :=
  let n := wrapped.length / 8 - 1
  let step (acc : List Byte × List (List Byte)) (j : Nat) : List Byte × List (List Byte) :=
    let t := 6 * n - j
    let i := (t - 1) % n
    let b := aesDecrypt kek (xorBytes acc.1 (beBytes 8 t) ++ acc.2.getD i [])
    (b.take 8, modifyAt (fun _ => b.drop 8) i acc.2)
  let (a, r) := (List.range (6 * n)).foldl step (wrapped.take 8, chunks 8 n (wrapped.drop 8))
  if a = List.replicate 8 0xA6 then some r.flatten else none

/-! ### Certificates -/

/-- The head of a DER element at the start of a byte string, and its contents' length; 0 and 0 where none starts there. -/
def derHead (b : List Byte) : Nat × Nat :=
  let n := leAt b 1 1
  if b.isEmpty then (0, 0)
  else if n < 0x80 then (2, n)
  else if n = 0x81 then (3, leAt b 2 1)
  else if n = 0x82 then (4, ofBe (slice b 2 2))
  else if n = 0x83 then (5, ofBe (slice b 2 3))
  else (0, 0)

/-- The contents of the element at the start. -/
def derInside (b : List Byte) : List Byte := let h := derHead b; (b.drop h.1).take h.2
/-- What follows `n` elements. -/
def derSkip : Nat → List Byte → List Byte
  | 0, b => b
  | n + 1, b => let h := derHead b; derSkip n (b.drop (h.1 + h.2))

/-- The length of the DER certificate at the start of a byte string; 0 where none starts there. -/
def derLength (b : List Byte) : Nat :=
  let h := derHead b
  if leAt b 0 1 = 0x30 then h.1 + h.2 else 0

/-- The subject key of a certificate: the bit string of its key information, after the serial number, the algorithm, the
issuer, the validity and the subject, and after the version where one stands. -/
def subjectKey (cert : List Byte) : List Byte :=
  let tbs := derInside (derInside cert)
  let fields := if leAt tbs 0 1 = 0xA0 then derSkip 1 tbs else tbs
  derInside (derSkip 1 (derInside (derSkip 5 fields)))

/-- The subject key of a certificate is an uncompressed point, X then Y. -/
def certifies (cert key : List Byte) : Bool := subjectKey cert == 0 :: 4 :: key

end Sys2Proof.Machine
end

