-- ==== Sys2Proof/Machine/Shape.lean ====
section
/-!
DEFINITION. The launch record and the work identifier (R61–R66), the acceptance checks a record itself decides (R70), and
what a team needs on its core (R71).
-/
namespace Sys2Proof.Machine

/-- A launch record from its 128 bytes (R61, R62). -/
def launchRecOf (b : List Byte) : LaunchRec :=
  let w (i : Nat) : W64 := BitVec.ofNat 64 (leAt b i 8)
  let shape := leAt b 16 8
  let flags := leAt b 59 1
  { entry := w 0, arg := w 8
    widths := (List.range 6).map fun j => shape / 2 ^ (6 * j) % 64
    extents := (List.range 6).map fun j => leAt b (24 + 4 * j) 4 + 1
    team := shape / 2 ^ 36 % 8, cluster := shape / 2 ^ 39 % 8
    roles := (List.range 4).map fun r => leAt b (48 + r) 1
    units := leAt b 52 1, tiles := leAt b 53 1, barriers := leAt b 54 2, scratch := leAt b 56 2
    priority := leAt b 58 1 % 8
    round := flags.testBit 0, fused := flags.testBit 1, spanned := flags.testBit 2, hurdle := flags.testBit 3
    roundLen := 256 * 4 ^ leAt b 60 1, spanCount := leAt b 61 1
    droverEntry := w 64, seed := w 72, join := w 80, generation := BitVec.ofNat 32 (leAt b 88 4)
    utvec := w 96, trapArea := w 104 }

/-- A clause address: 8-byte aligned and canonical (R61). -/
def clauseAddressOk (a : W64) : Bool := a.toNat % 8 == 0 && decide (a.toNat < 2 ^ 56)

/-- b(j): the lowest WID bit of field `j` (R63). -/
def LaunchRec.base (r : LaunchRec) (j : Nat) : Nat := (r.widths.take j).foldl (· + ·) 0

/-- b(t): the WID bits below the team level (R63). -/
def LaunchRec.bt (r : LaunchRec) : Nat := r.base r.team

/-- The product of the extents of fields `i` to `j − 1`. -/
def LaunchRec.span (r : LaunchRec) (i j : Nat) : Nat := ((r.extents.take j).drop i).foldl (· * ·) 1

/-- Teams of the whole launch (R63). -/
def LaunchRec.teamCount (r : LaunchRec) : Nat := r.span r.team 6

/-- Teams in a cluster group: G (R64). -/
def LaunchRec.groupSize (r : LaunchRec) : Nat := r.span r.team r.cluster

/-- Wave indices a team spans (R64). -/
def LaunchRec.waveSpan (r : LaunchRec) : Nat := 2 ^ (r.bt - 5)

/-- The field values of fields `j` upward of a team index, field `j` varying fastest (R63). -/
def digits : List Nat → Nat → List Nat
  | [], _ => []
  | e :: r, n => n % e :: digits r (n / e)

/-- The WID of lane 0 of a team's wave index 0 (R63). -/
def LaunchRec.teamWid (r : LaunchRec) (index : Nat) : Nat :=
  let ds := digits (r.extents.drop r.team) index
  (List.range ds.length).foldl (fun w i => w + ds.getD i 0 * 2 ^ r.base (r.team + i)) 0

/-- The item at a place within a team exists: fields 0 to t − 1 lie below their extents (R63). -/
def LaunchRec.itemExists (r : LaunchRec) (place : Nat) : Bool :=
  (List.range r.team).all fun j => decide (place / 2 ^ r.base j % 2 ^ r.widths.getD j 0 < r.extents.getD j 1)

/-- The entry mask of a wave index (R64). -/
def LaunchRec.entryMask (r : LaunchRec) (wave : Nat) : W32 :=
  maskOf ((List.range 32).filter fun l => r.itemExists (32 * wave + l))

/-- The wave indices that exist (R64). -/
def LaunchRec.waves (r : LaunchRec) : List Nat := (List.range r.waveSpan).filter fun i => r.entryMask i != 0

/-- The role of a wave index (R65). -/
def LaunchRec.roleOf (r : LaunchRec) (wave : Nat) : Nat :=
  if r.roles.all (· == 0) then 0
  else ((List.range 4).find? fun k => decide (wave < (r.roles.take (k + 1)).foldl (· + ·) 0)).getD 0

/-- The cluster group's number of a team index, in the mixed radix of fields c to 5 (R74). -/
def LaunchRec.groupOf (r : LaunchRec) (index : Nat) : Nat := index / r.groupSize

/-- The first team index and the number of teams a package runs: in a spanned launch those whose field 5 holds its index
(R64). -/
def LaunchRec.ownTeams (r : LaunchRec) (package : Nat) : Nat × Nat :=
  if r.spanned then
    let m := r.span r.team 5
    (package * m, if package < r.extents.getD 5 1 then m else 0)
  else (0, r.teamCount)

/-- Every field lies within its limits, and R64 and R65 hold (R70 check 2). -/
def launchRecOk (b : List Byte) : Bool :=
  let r := launchRecOf b
  let shape := leAt b 16 8
  let bt := r.bt
  let roleSum := r.roles.foldl (· + ·) 0
  clauseAddressOk r.entry && shape / 2 ^ 42 == 0 && decide (1 ≤ r.team) && decide (r.team ≤ 6) &&
  decide (r.team ≤ r.cluster) && decide (r.cluster ≤ 6) && decide (r.base 6 ≤ 64) &&
  ((List.range 6).all fun j => decide (r.extents.getD j 1 ≤ 2 ^ r.widths.getD j 0)) &&
  (r.roles.all fun k => decide (k ≤ 32)) &&
  decide (1 ≤ r.units) && decide (r.units ≤ 32) && decide (r.tiles ≤ 64) && decide (r.barriers ≤ 1024) &&
  decide (1 ≤ r.scratch) && decide (r.scratch ≤ 192) && decide (leAt b 58 1 < 8) && decide (leAt b 59 1 < 16) &&
  decide (leAt b 60 1 ≤ 3) && (r.round || leAt b 60 1 == 0) &&
  (if r.spanned then decide (1 ≤ r.spanCount) && decide (r.spanCount ≤ 64) else r.spanCount == 0) &&
  leAt b 62 2 == 0 && (r.droverEntry == 0 || clauseAddressOk r.droverEntry) && r.join.toNat % 64 == 0 &&
  (r.spanned || r.generation == 0) && leAt b 92 4 == 0 && (r.utvec == 0 || clauseAddressOk r.utvec) &&
  r.trapArea.toNat % 64 == 0 && r.trapArea != 0 && allZero (slice b 112 16) &&
  decide (5 ≤ bt) && decide (bt ≤ 10) && (roleSum == 0 || roleSum == 2 ^ (bt - 5)) &&
  (r.cluster == r.team || decide (r.groupSize ≤ 32)) &&
  (!r.spanned || (r.extents.getD 5 1 == r.spanCount && decide (r.cluster ≤ 5)))

/-- The teams of a launch placed so far, here and in the packages of its span that have reported (R76; log entry 115). -/
def Launch.placedAll (l : Launch) : Nat :=
  l.placed + (l.span.elim [] (·.done)).foldl (fun n x => n + x.2.1.placed) 0

/-- What a team needs on its core (R71). -/
structure Needs where
  waves : Nat
  units : Nat
  scratch : Nat
  bars : Nat
  tiles : Nat
  hurdle : Bool
  drover : Bool
  deriving DecidableEq, Repr

/-- The needs of one team of a launch (R71). -/
def LaunchRec.needs (r : LaunchRec) : Needs :=
  let nw := r.waves.length
  { waves := nw, units := nw * r.units, scratch := r.scratch, bars := r.barriers, tiles := r.tiles, hurdle := r.hurdle,
    drover := r.droverEntry != 0 }

/-- The needs of a task wave (R90). -/
def taskNeeds : Needs := { waves := 1, units := 8, scratch := 2, bars := 16, tiles := 0, hurdle := false, drover := false }

/-- What a team holds now, as needs: its waves' register units and its spare, its tiles and its spare (R108). -/
def State.holding (s : State) (t : Team) : Needs :=
  { waves := t.waves.length
    units := t.waves.foldl (fun n i => n + ((s.wave? i).elim 0 (·.units))) t.spareUnits
    scratch := t.windowUnits, bars := t.barCount, tiles := t.tiles.length + t.spareTiles.length, hurdle := t.hurdle,
    drover := t.drover.isSome }

/-- The needs of several teams together. -/
def Needs.plus (a b : Needs) : Needs :=
  { waves := a.waves + b.waves, units := a.units + b.units, scratch := a.scratch + b.scratch, bars := a.bars + b.bars,
    tiles := a.tiles + b.tiles, hurdle := a.hurdle || b.hurdle, drover := a.drover || b.drover }

/-- Some window of `n` units fits between the windows a core holds, given as (first unit, units): the lowest (R71). -/
def freeWindow (held : List (Nat × Nat)) (n : Nat) : Option Nat :=
  (List.range (192 + 1 - n)).find? fun b => held.all fun h => decide (b + n ≤ h.1) || decide (h.1 + h.2 ≤ b)

/-- The windows held on a core. -/
def State.windowsOn (s : State) (c : Nat) : List (Nat × Nat) :=
  (s.teamsOnCore c).map fun x => (x.2.windowBase / 4096, x.2.windowUnits)

/-- A core has the resources of R71 for a team, beside the teams it holds; a core that is off has none (R93). -/
def State.coreFits (s : State) (c : Nat) (n : Needs) : Bool :=
  let ts := s.teamsOnCore c
  let sum (f : Needs → Nat) : Nat := ts.foldl (fun k x => k + f (s.holding x.2)) 0
  !(s.core c).off && decide (ts.length < 4) && decide (sum (·.waves) + n.waves ≤ 32) &&
  decide (sum (·.units) + n.units ≤ 512) && decide (sum (·.bars) + n.bars ≤ 1024) &&
  decide (sum (·.tiles) + n.tiles ≤ 64) && (!n.hurdle || ts.all fun x => !x.2.hurdle) &&
  (freeWindow (s.windowsOn c) n.scratch).isSome

/-- What spanned launches have reserved on a core for teams not yet placed (R35). -/
def State.reservedOn (s : State) (core : Nat) : List Needs :=
  s.launches.flatMap fun x => match x.2.span with
    | some y => (y.reserved.filter fun c => c.2 == core).map fun _ => x.2.lr.needs
    | none => []

/-- How many teams of given needs an empty core holds (R71). -/
def Needs.perCore (n : Needs) : Nat :=
  let per (cap need : Nat) : Nat := if need = 0 then 4 else cap / need
  let drovers := 4
  (if n.hurdle then [1] else []).foldl min
    (min 4 (min drovers (min (per 32 n.waves) (min (per 512 n.units) (min (per 192 n.scratch) (min (per 1024 n.bars)
      (per 64 n.tiles)))))))

end Sys2Proof.Machine
end

