-- ==== Sys2Proof/Machine/Device.lean ====
section
/-!
DEFINITION. The module (R4–R24): start-up and the recovery state, boundaries, patrol scrubbing, temperature and power, the
life estimates, and a core that is reset or power-gated (R93).
-/
namespace Sys2Proof.Machine

/-! ### Flash images (R16, R17, R57, R58) -/

/-- The length field of an image or record. -/
def imageLength (b : List Byte) : Nat := leAt b 8 4
/-- The version field of an image or record. -/
def imageVersion (b : List Byte) : Nat := leAt b 4 4

/-- The repair mask of a die in a configuration record. -/
def repairMask (b : List Byte) (die : Nat) : Nat := leAt b (24 + 16 * die) 16

/-- The bytes of a record's root public key. -/
def recordKey (b : List Byte) : List Byte := slice b 216 64

/-- The record's root key is the one whose hash the mask ROM holds. -/
def rootKeyOk (b : List Byte) : Bool := sha256 (recordKey b) == Config.rootHash

/-- A configuration record's magic, length, root key and repair masks are as R16 and R17 require; a mask with a bit above 67 set
is not one of R16 (log entry 119). -/
def recordShapeOk (b : List Byte) : Bool :=
  let l := imageLength b
  decide (leAt b 0 4 = 0x4B4E3843) && l % 4 == 0 && decide (512 ≤ l) && decide (l ≤ 65536) && decide (l ≤ b.length) &&
  rootKeyOk b &&
  (List.range 8).all fun d => decide (repairMask b d < 2 ^ 68) && ((bitsOf 68 (repairMask b d)).filter id).length == 64

/-- The signature of a record or an image, its last 64 bytes, verifies over the bytes before it (R16, R57). -/
def signedBy (key b : List Byte) : Bool :=
  let l := imageLength b
  ecdsaVerify key (b.take (l - 64)) (slice b (l - 64) 64)

/-- The certificates of a chain, leaf first, each without its padding to a multiple of 4 bytes; at most `fuel` (R16). -/
def certificates : Nat → List Byte → List (List Byte)
  | 0, _ => []
  | fuel + 1, b =>
    let n := derLength b
    if n = 0 || n > b.length then [] else b.take n :: certificates fuel (b.drop (alignUp n 4))

/-- The certificate chain of a record, leaf first (R16). -/
def recordChain (b : List Byte) : List (List Byte) := certificates 64 (slice b 280 (imageLength b - 344))

/-- The subject key of the record's leaf certificate is a device identity public key (R17). -/
def leafOk (b key : List Byte) : Bool := match recordChain b with
  | leaf :: _ => certifies leaf key
  | [] => false

/-- A configuration record is valid (R17). -/
def recordOk (b identity : List Byte) : Bool := recordShapeOk b && signedBy (recordKey b) b && leafOk b identity

/-- A firmware image's magic, length and kind are as R57 requires. -/
def imageShapeOk (kind : Nat) (b : List Byte) : Bool :=
  let l := imageLength b
  decide (leAt b 0 4 = 0x4B4E4657) && l % 4 == 0 && decide (4096 ≤ l) && decide (l ≤ 16777216) &&
  decide (l ≤ b.length) && decide (leAt b 12 4 = kind)

/-- The slot in use: the valid one, of two the one with the higher version, at equal versions slot 0 (R17). -/
def chooseSlot (ok0 ok1 : Bool) (b0 b1 : List Byte) : Option Nat :=
  if ok0 && ok1 then some (if imageVersion b1 > imageVersion b0 then 1 else 0)
  else if ok0 then some 0
  else if ok1 then some 1
  else none

/-- The choice of one port die, of the slots it reads right. Whether a leaf certificate holds the device identity key is port
die 0's result for both (R19). -/
def Flash.chooseConfig (f : Flash) (identity : List Byte) (misread : List Nat) : Option Nat :=
  chooseSlot (recordOk f.config0 identity && !(misread.contains 0)) (recordOk f.config1 identity && !(misread.contains 1))
    f.config0 f.config1

/-- The image in a slot, bytes 0 to L − 1. -/
def slotBytes (used : Option Nat) (b0 b1 : List Byte) : List Byte :=
  match used with
  | some 0 => b0.take (imageLength b0)
  | some _ => b1.take (imageLength b1)
  | none => []

/-- The configuration record in use; the empty string where there is none (R21). -/
def Flash.config (f : Flash) : List Byte := slotBytes f.configUsed f.config0 f.config1
/-- The Talaz firmware image in use. -/
def Flash.talaz (f : Flash) : List Byte := slotBytes f.talazUsed f.talaz0 f.talaz1
/-- The security-processor firmware image in use. -/
def Flash.security (f : Flash) : List Byte := slotBytes f.securityUsed f.security0 f.security1

/-- The Garboesk root public key by which firmware images are checked: that of the record in use, or of the first slot that
holds the key of the mask ROM's hash; none where no slot does (R58; log entry 120). -/
def Flash.rootKey (f : Flash) : Option (List Byte) :=
  ([f.config, f.config0, f.config1].find? rootKeyOk).map recordKey

/-- A firmware image is valid (R57, R58). -/
def imageOk (root : Option (List Byte)) (kind : Nat) (b : List Byte) : Bool :=
  imageShapeOk kind b && match root with
    | some key => signedBy key b
    | none => false

/-! ### Start-up (R20) -/

/-- The key pair of a port die, the same at every start (R18, R19; log entry 118). -/
def keyPairOf (die : Nat) : KeyPair :=
  let d := scalarOf (Config.unclonable die)
  { secret := d, point := pointBytes (mulPoint d baseG) }

/-- The enabled physical cores of each die, ascending (R16, R18). -/
def repairOf (rec' : List Byte) : List (List Nat) :=
  (List.range 8).map fun d => (List.range 68).filter fun n => (repairMask rec' d).testBit n

/-- The voltage-frequency trim of each die (R16, R20 step 2). -/
def trimOf (rec' : List Byte) : List W64 := (List.range 8).map fun d => BitVec.ofNat 64 (leAt rec' (152 + 8 * d) 8)

/-- The sixteen ports, each up at the speed it last had; a port never used runs at 1600 Gb/s (log entry 9). -/
def State.startPorts (s : State) : List Port :=
  (List.range 16).map fun i =>
    let speed := match s.ports[i]? with
      | some p => p.speed
      | none => .g1600
    { speed := speed, up := true, powered := speed.lanes }

/-- A port die's verdict on the record slots as it travels over the sideband: the slot it has chosen, or 0xFF for none (log entry
150). -/
def verdictBytes (c : Option Nat) : List Byte := leBytes 1 (c.getD 0xFF)

/-- Port die 0 accepts port die 1's verdict: its signature, made with port die 1's secret and the `n`-th drawn number, verifies
under the key that port die 0 has learned over the sideband at this start (R19, R20). -/
def verdictAccepted (die1 : KeyPair) (learned : List Byte) (n : Nat) (c : Option Nat) : Bool :=
  ecdsaVerify learned (verdictBytes c) (ecdsaSign die1.secret (scalarOf (Config.freeNonce n)) (verdictBytes c))

/-- The module after a reset, with what flash, the outside world and the storage cells keep. -/
def State.restart (s : State) (phase : Phase) (f : Flash) : State :=
  let r := f.config
  let known := f.configUsed.isSome
  let repair := if known then repairOf r else []
  let trim := if known then trimOf r else []
  let (k0, k1) := (keyPairOf 0, keyPairOf 1)
  let serial := if known then BitVec.ofNat 64 (leAt r 16 8) else 0
  let alarm := if known then leAt r 12 4 else 0
  let digests := [sha256 Config.maskRom, sha256 f.talaz, sha256 f.security, sha256 r]
  { State.reset with
    phase := phase, flash := f, ports := s.startPorts, tx := s.tx, nextRequest := s.nextRequest, hostMem := s.hostMem,
    ecc := s.ecc, epoch := s.epoch + 1, inputs := s.inputs, sched := s.sched, clock := s.clock, free := s.free + 1,
    nextId := s.nextId, repair := repair, serial := serial, alarmHours := alarm, trim := trim, identity := [k0, k1],
    sidebandKey := k1.point, measurements := digests }

/-- What a start takes from the flash slots, with the `n`-th drawn number: the record that both port dies choose, once port die 0
has accepted port die 1's signed verdict, Talaz firmware where step 1 has succeeded,
and the firmware of the security processor, which runs from the first step on (R17, R19, R20, R58; log entry 121). -/
def Flash.started (f : Flash) (n : Nat) (inp : StartInputs) : Flash :=
  let identity := (keyPairOf 0).point
  let c0 := f.chooseConfig identity inp.misread0
  let c1 := f.chooseConfig identity inp.misread1
  let die1 := keyPairOf 1
  let agreed := c0.isSome && c0 == c1 && verdictAccepted die1 die1.point n c1
  let f := { f with configUsed := if agreed then c0 else none, talazUsed := none, securityUsed := none }
  let root := f.rootKey
  let pick (kind : Nat) (a b : List Byte) : Option Nat := chooseSlot (imageOk root kind a) (imageOk root kind b) a b
  { f with talazUsed := if f.configUsed.isSome then pick 1 f.talaz0 f.talaz1 else none
           securityUsed := pick 2 f.security0 f.security1 }

/-- MODULE_START (R20, R21): the six steps in order. Where a step from 4 on fails, the module stays down. A module that has
tripped starts again only at a power cycle (R15). -/
def execModuleStart (inp : StartInputs) (s : State) : Host.Outcome State Fault Refusal :=
  let f := s.flash.started s.free inp
  if s.phase = .tripped && !inp.powerCycle then .next s
  else if f.configUsed.isNone || f.talazUsed.isNone then .next (s.restart .recovery f)
  else
    let t := s.restart .up f
    if !inp.trained then .next { t with phase := .off, ports := [] }
    else
      let t := { t with boundaries := (List.range 14).map fun i => (i, Boundary.fresh) }
      if !inp.portsUp then .next { t with phase := .off, ports := [] } else .next t

/-! ### Boundaries (R7, R8) -/

/-- A flit arrives on a direction (R7). -/
def BoundaryDir.receive (d : BoundaryDir) (tag : BitVec 16) (crcOk : Bool) (payload : W64) : BoundaryDir :=
  if !crcOk then { d with crcRun := d.crcRun + 1 }
  else if tag = d.expected then { expected := d.expected + 1, crcRun := 0, delivered := d.delivered ++ [payload] }
  else { d with crcRun := 0 }

/-- FLIT_RECEIVE (R7): it is delivered where its CRC holds and its tag is the expected one, and discarded otherwise. -/
def execFlitReceive (boundary : Nat) (dir : Bool) (tag : BitVec 16) (crcOk : Bool) (payload : W64) (s : State) :
    Host.Outcome State Fault Refusal :=
  .next { s with boundaries := Tab.upd s.boundaries boundary fun b =>
    if b.down then b
    else if dir then { b with forth := b.forth.receive tag crcOk payload }
    else { b with back := b.back.receive tag crcOk payload } }

/-- BOUNDARY_RETRAIN (R8): after 16 consecutive CRC failures on one direction. -/
def execBoundaryRetrain (boundary : Nat) (success : Bool) (s : State) : Host.Outcome State Fault Refusal :=
  .next { s with boundaries := Tab.upd s.boundaries boundary fun b =>
    if b.down || decide (b.failedRetrains ≥ 3) || (decide (b.forth.crcRun < 16) && decide (b.back.crcRun < 16)) then b
    else if success then { b with forth := { b.forth with crcRun := 0 }, back := { b.back with crcRun := 0 } }
    else { b with failedRetrains := b.failedRetrains + 1, down := decide (b.failedRetrains ≥ 2) } }

/-- BOUNDARY_DOWN (R8): after a third failed retraining the boundary is down. -/
def execBoundaryDown (boundary : Nat) (s : State) : Host.Outcome State Fault Refusal :=
  .next { s with boundaries := Tab.upd s.boundaries boundary fun b =>
    if b.failedRetrains ≥ 3 then { b with down := true } else b }

/-! ### Memory, temperature and power (R12, R13, R15) -/

/-- PATROL_STEP (R12): a sector is read, corrected and written back in one action; no data changes. -/
def execPatrolStep (stack sector : Nat) (s : State) : Host.Outcome State Fault Refusal :=
  let k := stack * 2 ^ 30 + sector
  .next (if s.phase = .up && decide (stack < 16) && decide (sector < 2 ^ 30) &&
      Tab.find s.ecc k == some .correctable then
    { s with ecc := Tab.drop s.ecc k, corrected := s.corrected + 1 } else s)

/-- THERMAL_THROTTLE (R15): of a compute die (log entry 137). -/
def execThermalThrottle (die temperature : Nat) (s : State) : Host.Outcome State Fault Refusal :=
  .next (if s.phase = .up && decide (die < 8) && decide (temperature ≥ 95) && !(s.throttled.contains die) then
    { s with throttled := s.throttled ++ [die] } else s)

/-- THERMAL_RELEASE (R15). -/
def execThermalRelease (die temperature : Nat) (s : State) : Host.Outcome State Fault Refusal :=
  .next (if temperature ≤ 92 then { s with throttled := s.throttled.filter fun d => d != die } else s)

/-- Every running launch of the host completes with a status; its command is then performed. -/
def State.endLaunches (s : State) (status : Nat) : State :=
  s.launches.foldl (fun s x => match x.2.cmd with
    | some c => if x.2.complete then s
        else s.finishCmd x.2.owner c status (BitVec.ofNat 64 x.2.seq) (BitVec.ofNat 64 x.2.placedAll) 0
    | none => s) s

/-- THERMAL_TRIP (R15): cores and engines stop, nothing is saved, every running launch completes with "thermal trip", and
of the other commands only QUERY is answered from then on: one that waits in its ring is taken from it and goes unanswered. The
eight compute dies trip it (log entry 137). -/
def execThermalTrip (die temperature : Nat) (s : State) : Host.Outcome State Fault Refusal :=
  if s.phase = .up && decide (die < 8) && decide (temperature ≥ 110) then
    let s := s.endLaunches 0x31
    let stays (c : Cmd) : Bool := c.phase == .received || c.phase == .performed || c.code == 0x0E
    .next { s with phase := .tripped, launches := [], teams := [], waves := [], engines := [], saved := [], remote := [], ringJobs := [],
                   cur := none, atBell := false, cores := Tab.mapVal (fun _ c => { c with claims := [], hold := none }) s.cores,
                   owners := Tab.mapVal (fun _ o =>
                     { o with commits := [], cmds := o.cmds.filter fun c => stays c.2 }) s.owners }
  else .next s

/-- POWER_LIMIT_WITHHOLDING (R13): issue slots are withheld or given again; only time changes. -/
def execPowerLimitWithholding (withhold : Bool) (s : State) : Host.Outcome State Fault Refusal :=
  .next { s with powerWithheld := withhold }

/-- CORE_RESET_OR_POWER_GATING (R93, R164): the core stops, and what it stored is lost. Records it held stay held until
the die scheduler reverts them. -/
def execCoreResetOrPowerGating (core : Nat) (s : State) : Host.Outcome State Fault Refusal :=
  .next (if core < 512 then
    s.updCore core fun c => { Core.empty with off := true, spadLost := true, hold := c.hold, epoch := c.epoch + 1 }
  else s)

/-! ### Life estimates (R22–R24) -/

/-- Uncorrectable errors that a stack has shown since start (R218). -/
def State.uncorrectableOf (s : State) (stack : Nat) : Nat := (s.errorLog.filter fun e => match e with
  | .sector k => k / 2 ^ 30 == stack
  | _ => false).length

/-- A recomputation's figures are well formed: eight dies, each with a band that covers its central estimate and a monitor
number, and sixteen stack trends. -/
def lifeInputOk (dies : List DieReading) (trends : List W32) : Bool :=
  dies.length == 8 && trends.length == 16 && dies.all fun d =>
    decide (d.low ≤ d.central) && decide (d.central ≤ d.high) && decide (d.high < 2 ^ 32) && decide (d.limiting < 64)

/-- LIFE_RECOMPUTE (R22, R23): a new complete report, with the next sequence number. -/
def execLifeRecompute (dies : List DieReading) (trends : List W32) (s : State) : Host.Outcome State Fault Refusal :=
  .next (if lifeInputOk dies trends then
    { s with life := { s.life with seq := s.life.seq + 1, dies := dies, trends := trends,
                                   uncorrectable := (List.range 16).map s.uncorrectableOf } }
  else s)

/-- A stack's trend exceeds 1.0 sectors per hour (R22). -/
def trendHigh (t : W32) : Bool := decide (0x3F800000 < t.toNat) && decide (t.toNat ≤ 0x7F800000)

/-- The least of a figure among the dies. -/
def LifeState.least (l : LifeState) (f : DieReading → Nat) : Nat :=
  (l.dies.map f).foldl min (2 ^ 32)

/-- What is defined of the life report before the first recomputation (R23, R24): the bits that read 0, and the date fields
before the first time base; its other bits are free, from the `k`-th free byte on. -/
def State.firstReport (s : State) (k : Nat) : List Byte :=
  let dated := s.life.timeBase.isSome
  let open' (n : Nat) : List Byte := List.replicate n 0xFF
  let mask := open' 4 ++ [0x03, 0, 0, 0] ++ (if dated then open' 24 else List.replicate 24 0) ++
    (List.range 8).flatMap (fun _ => open' 13 ++ [1, 0, 0]) ++ (List.range 16).flatMap fun _ => open' 6 ++ [1, 0]
  let free := (List.range 288).map fun i => Config.freeReport (k + i)
  modifyAt (fun b => b ||| (if dated then 4 else 0)) 4 (List.zipWith (· &&& ·) mask free)

/-- The 288 bytes of the life report (R23, R24). A count beyond 65535 is given modulo 2^16, and the dates use the time base as it
is at the query (log entry 122). -/
def State.lifeReport (s : State) : List Byte :=
  let l := s.life
  let alarm (d : DieReading) : Bool := decide (d.low < s.alarmHours)
  let stack (i : Nat) : Bool := decide (l.uncorrectable.getD i 0 > 0) || trendHigh (l.trends.getD i 0)
  let flags := (l.dies.any alarm).toNat + 2 * ((List.range 16).any stack).toNat + 4 * l.timeBase.isSome.toNat
  let date (f : DieReading → Nat) : List Byte := match l.timeBase with
    | some t => leBytes 8 (t.toNat + l.least f * 3600)
    | none => leBytes 8 0
  leBytes 4 l.seq.toNat ++ leBytes 4 flags ++ date (·.central) ++ date (·.low) ++ date (·.high) ++
  (l.dies.flatMap fun d => leBytes 4 d.central ++ leBytes 4 d.low ++ leBytes 4 d.high ++ leBytes 1 d.limiting ++
    leBytes 1 (alarm d).toNat ++ leBytes 2 0) ++
  ((List.range 16).flatMap fun i => leBytes 4 (l.trends.getD i 0).toNat ++ leBytes 2 (l.uncorrectable.getD i 0) ++
    leBytes 1 (stack i).toNat ++ leBytes 1 0)

end Sys2Proof.Machine
end

