-- ==== Sys2Proof/Machine/Launches.lean ====
section
/-!
DEFINITION. Accepting a launch (R69, R70), and the decrement of a join object's count (R76, R86, R360), shared by host
commands, instructions and completions.
-/
namespace Sys2Proof.Machine

/-- Cores that one cluster group of a launch fills (R64, R71). -/
def LaunchRec.groupCores (r : LaunchRec) : Nat :=
  let k := r.needs.perCore
  if k = 0 then 9 else (r.groupSize + k - 1) / k

/-- The most cores a placement set has in any one cluster. -/
def Owner.widestCluster (o : Owner) : Nat :=
  (List.range 64).foldl (fun m c => max m (o.placement.filter fun x => x / 8 == c).length) 0

/-- The status of checks 3 to 5 of R70; none where the launch is accepted. -/
def Owner.launchStatus (o : Owner) (r : LaunchRec) : Option Nat :=
  if r.priority > o.ceiling then some 0x18
  else if r.needs.perCore = 0 || r.groupCores > 8 then some 0x17
  else if r.groupCores > o.widestCluster then some 0x18
  else none

/-- The pages of an owner; none where the owner is closed. -/
def State.pagesOf (s : State) (owner : Nat) : List Page :=
  match s.owner? owner with
  | some o => o.pages
  | none => []

/-- Accept a launch: it takes the owner's next sequence number, and the causes the debug agent has armed for the owner's
next launch (R69, R390). -/
def State.acceptLaunch (s : State) (owner : Nat) (r : LaunchRec) (depth : W32) (parent cmd : Option Nat) (first : Nat)
    (span : Option Span) (charged : Bool) : Nat × State :=
  let seq := match s.owner? owner with
    | some o => o.launchSeq
    | none => 0
  let (id, s) := s.newId
  let l : Launch :=
    { owner := owner, seq := seq, lr := r, depth := depth, parent := parent, cmd := cmd, charged := charged, next := first,
      heldTeams := [], late := [], started := false, parked := [], placed := 0, status := 0, cause := 0, round := r.round,
      snapshot := if r.round then s.mem else [],
      pages := if r.round then s.pagesOf owner else [], resources := [], taskCounter := 0, fresh := true, ringing := [], dirty := [],
      span := span, joining := .toDo, complete := false }
  let armed := (s.ivgil.catching.filter fun x => x.1 == owner).map fun x => (id, x.2)
  let s := { s with launches := Tab.put s.launches id l,
                    ivgil := { s.ivgil with catching := s.ivgil.catching.filter fun x => x.1 != owner,
                                            caught := s.ivgil.caught ++ armed } }
  (id, s.updOwner owner fun o => { o with launchSeq := seq + 1 })

/-- The pool refuses one more entry of a child at a depth (R88). -/
def Owner.poolRefuses (o : Owner) (depth : W32) : Bool := decide (depth.toNat > o.nesting) || !o.poolRoom

/-- The join object at an address gives up its pool entry (R88, R359). -/
def State.dropJoin (s : State) (owner va : Nat) : State :=
  match s.owner? owner with
  | none => s
  | some o =>
    if o.joins.any fun j => j.address == va then
      (s.updOwner owner fun x => { x with joins := x.joins.filter fun j => j.address != va }).poolSub owner 1
    else s

/-- Post a continuation to a queue; it holds a pool entry of its own (R86, R88). -/
def State.postContinuation (s : State) (owner queue : Nat) (launch : Option Nat) (record : List Byte) : State :=
  (s.poolAdd owner 1).postTo owner
    { queue := queue, card := cardOf record, ptag := 0xFFFF, version := 0, parked := none, cmd := none, wave := none,
      launch := launch }

/-- The packages' owners hold this many pool entries together (R359). -/
def State.poolTotal (s : State) : Nat := (s.owners.map fun x => x.2.pool).sum

/-- A join object has been initialised: it holds a pool entry (R88, R359). -/
def State.enterJoin (s : State) (owner va : Nat) (launch : Option Nat) : State :=
  (s.poolAdd owner 1).updOwner owner fun x =>
    { x with joins := (x.joins.filter fun j => j.address != va) ++ [{ address := va, launch := launch }],
             deadJoins := x.deadJoins.filter fun a => a != va }

/-- The count of the join object at an address has come to zero: its entry becomes its continuation's, which is posted to a
queue (R86, R359). The launch that initialised it may have completed meanwhile: then the continuation is never posted. -/
def State.countedOut (s : State) (owner va queue : Nat) (launch : Option Nat) (record : List Byte) : State :=
  match s.owner? owner with
  | none => s
  | some o =>
    if o.deadJoins.contains va then s.updOwner owner fun x => { x with deadJoins := x.deadJoins.filter fun a => a != va }
    else
      let launch := match o.joins.find? fun j => j.address == va with
        | some j => j.launch
        | none => launch
      (s.dropJoin owner va).postContinuation owner queue launch record

/-- What a decrement at the home package comes to here: its answer is the object as it was, and a byte that tells whether its
continuation may be posted. -/
def State.decremented (s : State) (owner va queue : Nat) (launch : Option Nat) (b : List Byte) : State :=
  if leAt b 0 4 = 1 && leAt b 64 1 = 1 then s.countedOut owner va queue launch (slice b 8 32) else s

/-- One decrement of the join object at an address whose access has passed its checks: true where the count was zero.
The decrement from 1 posts the continuation to a queue (R86, R360); the object's pool entry becomes the continuation's
(R359). -/
def State.decrement (s : State) (by' : Writer) (owner va queue : Nat) (launch : Option Nat) : Bool × State :=
  match s.owner? owner with
  | none => (false, s)
  | some o =>
    let b := o.bytes owner s.now va 64
    let count := leAt b 0 4
    if count = 0 then (true, s)
    else
      let s := s.putBytes by' owner va (leBytes 4 (count - 1))
      (false, if count = 1 then s.countedOut owner va queue launch (slice b 8 32) else s)

/-- The bytes of a task record (R83). -/
def TaskRec.bytes (r : TaskRec) : List Byte :=
  leBytes 8 r.control.toNat ++ leBytes 8 r.arg.toNat ++ leBytes 8 r.join.toNat ++ leBytes 4 r.depth.toNat ++
  leBytes 4 r.ownerTag.toNat

end Sys2Proof.Machine
end

