-- ==== Sys2Proof/Machine/Memory.lean ====
section
/-!
DEFINITION. Group 6: per-lane accesses, atomics, fold loads, fences and scalar accesses (R144, R145, R158–R165,
R177, R178, R302–R312).
-/
namespace Sys2Proof.Machine

/-! ### One access -/

/-- Where an access lands once its checks have passed: an owner's address, or an offset in a team's window. -/
inductive Target where
  | global (va : Nat)
  | window (tid : Nat) (t : Team) (off : Nat)

/-- What the checks of R145 say of an access: its target, or its first cause. -/
inductive Checked where
  | ok (x : Target)
  | fault (cause : Nat)

/-- The code of a space in a lane record (R214). -/
def spaceCode : Space → Nat
  | .global => 0
  | .scratch => 1
  | .peer => 2

/-- The address of an access (R302): exact in a window, mod 2^64 in global memory. -/
def accessAddress (sp : Space) (a : W64) (off : Int) : Int :=
  match sp with
  | .global => ((a.toNat : Int) + off) % 2 ^ 64
  | _ => ((lo32 a).toNat : Int) + off

/-- An access of a team's window checked by R145, R151 and R152. -/
def Team.checkWindow (t : Team) (tid : Nat) (ea : Int) (size : Nat) (write : Bool) : Checked :=
  if ea % size ≠ 0 then .fault 0x10
  else if ea < 0 then .fault 0x11
  else
    match windowCause t.windowSize ea.toNat size write with
    | some c => .fault c
    | none => .ok (.window tid t ea.toNat)

/-- Check one access by R145, in the order it gives. -/
def State.checkAccess (s : State) (w : Wave) (sp : Space) (ea : Int) (size : Nat) (k : AccKind) : Checked :=
  let write := match k with
    | .store | .stp | .atomic => true
    | _ => false
  match sp with
  | .global =>
    match s.owner? w.owner with
    | none => .fault 0x18
    | some o =>
      match o.checkGlobal ea.toNat size k with
      | some c => .fault c
      | none => .ok (.global ea.toNat)
  | .scratch =>
    match s.teamOf w with
    | none => .fault 0x11
    | some t => t.checkWindow w.team ea size write
  | .peer =>
    if ea % size ≠ 0 then .fault 0x10
    else if ea < 0 || ea ≥ 2 ^ 27 then .fault 0x11
    else
      match (s.teamOf w).bind fun t => s.peerTeam w.team t (ea.toNat / 2 ^ 24) with
      | none => .fault 0x11
      | some (id, t) => t.checkWindow id (ea % 2 ^ 24) size write

/-- The home package of a target on a remote page (R33). -/
def State.targetRemote (s : State) (w : Wave) : Target → Option Nat
  | .global va => (s.owner? w.owner).bind fun o => o.remoteAt va
  | .window .. => none

/-- What loads of a wave see (R181): in round mode its launch's snapshot under its own buffered stores. -/
def State.viewOf (s : State) (w : Wave) : View :=
  if s.atBell then s.now
  else
    match s.launchOf w with
    | some l => if l.round then { mem := l.snapshot, pages := some l.pages, buf := w.buffer } else s.now
    | none => s.now

/-- The bytes at a target as a view shows them. -/
def State.readTarget (s : State) (w : Wave) (v : View) (x : Target) (n : Nat) : List Byte :=
  match x with
  | .global va => match s.owner? w.owner with
    | some o => o.bytes w.owner v va n
    | none => List.replicate n 0
  | .window tid t off => s.windowBytes v.buf tid t off n

/-- Some byte at a target has an uncorrectable error (R218). -/
def State.badTarget (s : State) (w : Wave) (x : Target) (n : Nat) : Bool :=
  match x with
  | .global va => match s.owner? w.owner with
    | some o => s.badGlobal (s.dieOf w) o va n
    | none => false
  | .window _ t off => s.badWindow t off n

/-- A target lies beyond a boundary that is down (R8). -/
def State.cutTarget (s : State) (w : Wave) (x : Target) (n : Nat) : Bool :=
  match x with
  | .global va => match s.owner? w.owner with
    | some o => s.cutOff (s.dieOf w) o va n
    | none => false
  | .window .. => false

/-- Who writes for a wave: its launch and its die (R50). -/
def State.writer (s : State) (w : Wave) : Writer := w.launch.map fun l => (l, dieOfCore (s.coreOf w))

/-- Write bytes at a target at once. -/
def State.writeTarget (s : State) (w : Wave) (x : Target) (data : List Byte) : State :=
  match x with
  | .global va => s.putBytes (s.writer w) w.owner va data
  | .window _ t off => s.putScratch t.core t.owner (t.windowBase + off) data

/-- The buffered form of a store to a target. -/
def Target.place (w : Wave) : Target → Place
  | .global va => .global w.owner va
  | .window _ t off => .scratch t.core (t.windowBase + off)

/-- The trap of buffered stores that the bell finds faulting (R184); `fault` is the fault mask where all lanes fault as one. -/
def Env.lateStore (e : Env) (fault : W32) : Trap := { e.trap 0x12 with fault := fault, late := true }

/-- The buffer with one lane's store of the instruction under way, `tag` telling it from others (R182). -/
def pushStore (tag : Nat) (t : Trap) (x : LaneStore) : List Act → List Act
  | [] => [.stores tag t [x]]
  | [.stores k u ls] => if k = tag then [.stores k u (ls ++ [x])] else [.stores k u ls, .stores tag t [x]]
  | a :: r => a :: pushStore tag t x r

/-- A store by a wave: at once, or into its buffer in round mode (R182), with the access and the trap that report a fault. -/
def State.storeTarget (s : State) (n : Nat) (w : Wave) (x : Target) (data : List Byte) (f : LaneFault) (t : Trap) : State :=
  if s.isRound w && !s.atBell then
    s.updWave n fun y => { y with buffer := pushStore s.clock t { access := f, place := x.place w, data := data } y.buffer,
                                  laneStores := y.laneStores + 1 }
  else s.writeTarget w x data

/-! ### The accesses of one instruction (R133, R134, R302) -/

/-- What an instruction accesses in each lane. `action` marks what round mode performs at the bell; `reads` what consumes
the data it finds. -/
structure Access where
  sp : Space
  size : Nat
  kind : AccKind
  action : Bool
  reads : Bool
  addr : Nat → W64
  off : Nat → Int
  ask : Nat → RemoteOp
  perform : State → Nat → Target → State
  receive : State → Nat → List Byte → State
  note : State → Nat → Target → Bool := fun _ _ _ => false   -- what it finds calls for an engine error (R360)
  noteReply : List Byte → Bool := fun _ => false             -- the same, found at the home package

/-- The address of a lane's access. -/
def Access.ea (x : Access) (l : Nat) : Int := accessAddress x.sp (x.addr l) (x.off l)

/-- The fault record of a lane's access (R214). -/
def Access.fault (x : Access) (l cause : Nat) : LaneFault :=
  { lane := l, cause := cause, address := BitVec.ofInt 64 (x.ea l), size := x.size, kind := x.kind.code,
    space := spaceCode x.sp }

/-- How the lanes of an access have gone so far: what they performed, the lanes left to the bell, and where they stopped. -/
structure Lanes where
  s : State
  deferred : W32
  stop : Option (Nat × Nat)   -- the lane, and the cause of its resuming fault
  held : Option Nat           -- the lane that waits for a remote answer
  noted : Bool                -- some lane's access called for an engine error

/-- A lane's access to a remote page (R33, R34). -/
def State.remoteLane (e : Env) (x : Access) (g : Lanes) (l home : Nat) : Lanes :=
  let s := g.s
  let addr : W64 := BitVec.ofInt 64 (x.ea l)
  if s.isRound e.w && !s.atBell then { g with deferred := g.deferred ||| laneBit l }
  else if x.kind = .stp then
    match s.sendRemote e.w e.n e.k l true home addr (x.ask l) with
    | some (_, t) => { g with s := t }
    | none => { g with s := s.updWave e.n fun w => { w with failedStp := w.failedStp + 1 } }
  else
    match e.sp.retry.bind fun r => r.replies.find? fun y => y.lane == l with
    | some r =>
      if r.ok then { g with s := x.receive s l r.data, noted := g.noted || x.noteReply r.data }
      else { g with stop := some (l, 0x20) }
    | none =>
      match s.sendRemote e.w e.n e.k l false home addr (x.ask l) with
      | some (_, t) => { g with s := t, held := some l }
      | none => { g with stop := some (l, 0x20) }

/-- One lane of an access, its checks passed. -/
def Lanes.step (e : Env) (x : Access) (g : Lanes) (l : Nat) (t : Target) : Lanes :=
  if g.stop.isSome || g.held.isSome then g
  else
    match g.s.targetRemote e.w t with
    | some home => State.remoteLane e x g l home
    | none =>
      if x.action && g.s.isRound e.w && !g.s.atBell then { g with deferred := g.deferred ||| laneBit l }
      else if g.s.cutTarget e.w t x.size then
        if x.kind = .stp then { g with s := g.s.updWave e.n fun w => { w with failedStp := w.failedStp + 1 } }
        else { g with stop := some (l, 0x20) }
      else if x.reads && g.s.badTarget e.w t x.size then { g with stop := some (l, 0x20) }
      else { g with s := x.perform g.s l t, noted := g.noted || x.note g.s l t }

/-- The lowest of two lanes at which an instruction would stop. -/
def firstStop (a b : Option (Nat × Nat)) : Option (Nat × Nat) :=
  match a, b with
  | some x, some y => if y.1 < x.1 then some y else some x
  | some x, none => some x
  | none, y => y

/-- The lane accesses of an instruction (R302): every lane is checked, then lanes without a fault perform in lane order up
to the first resuming fault. -/
def State.access (s : State) (e : Env) (i : Instr) (x : Access) : Res :=
  let checks := (lanesOf e.exec).map fun l => (l, s.checkAccess e.w x.sp (x.ea l) x.size x.kind)
  let faults := checks.filterMap fun c => match c.2 with
    | .fault n => if n = 0x18 then none else some (x.fault c.1 n)
    | .ok _ => none
  let absent := checks.findSome? fun c => match c.2 with
    | .fault 0x18 => some (c.1, 0x18)
    | _ => none
  let bad := (s.badLane e i).map fun l => (l, 0x20)
  let limit := firstStop bad absent
  let mask := maskOf (faults.map (·.lane))
  let below (l : Nat) : Bool := match limit with
    | some f => decide (l < f.1)
    | none => true
  let writes := match x.kind with
    | .store | .stp => s.isRound e.w && !s.atBell
    | _ => false
  let stores := checks.filter fun c => match c.2 with
    | .ok t => below c.1 && (s.targetRemote e.w t).isNone
    | .fault _ => false
  if writes && decide (e.w.laneStores + stores.length > 4096) then .endRound .none
  else
    let g : Lanes := checks.foldl (fun g c => match c.2 with
      | .ok t => if below c.1 then g.step e x c.1 t else g
      | .fault _ => g) { s := s, deferred := 0, stop := none, held := none, noted := e.carry != 0 }
    match g.held with
    | some l =>
      -- a lane waits for its answer: it and the lanes above it, and the faulting lanes, are still to come
      .holding (g.s.updSplit e.n e.k fun p =>
        p.retryAt (fromLane e.exec l ||| mask) (if g.noted then 1 else 0) false e.pops e.mask) .remote
    | none =>
      let stop := firstStop limit g.stop
      let out : Option Trap :=
        match faults, stop with
        | f :: _, _ =>
          let later := match stop with
            | some c => fromLane e.exec c.1 &&& ~~~mask
            | none => 0
          some { e.trap f.cause with kind := 1, fault := mask, lanes := faults, deferred := later,
                                     resume := if later = 0 then 32 else (lowest later).getD 32 }
        | [], some c => some (if bad = some c then s.registerStop e i c.1 0 none else e.resuming c.2 c.1 0 none [x.fault c.1 c.2])
        | [], none => none
      let out := if g.noted then out.map fun t => { t with carry := 1 } else out
      match out with
      | some t =>
        if g.deferred ≠ 0 then .trapDefer g.s t g.deferred
        -- an atomic that retires without a lane to perform at the bell ends its round all the same (R307)
        else if x.action && t.kind = 1 && s.isRound e.w && !s.atBell then
          .trap (g.s.updWave e.n fun w => { w with roundEnded := true }) t
        else .trap g.s t
      | none =>
        if g.noted then .trap g.s (e.engineError 0 0)
        else if g.deferred = 0 then .done g.s else .defer g.s g.deferred

/-- The offset of a lane (R302): zero for ZERO, else 32 bits sign-extended. -/
def State.laneOffset (s : State) (e : Env) (c : Operand) (l : Nat) : Int :=
  match c with
  | .zero => 0
  | _ => (s.read32 e c l 0).toInt

/-- The address operand of a lane. -/
def State.laneAddress (s : State) (e : Env) (sp : Space) (a : Operand) (l : Nat) : W64 :=
  match sp with
  | .global => s.read64 e a l 0
  | _ => (s.read32 e a l 0).setWidth 64

/-- A loaded value: zero-extended, or sign-extended to `bits` (R303, R312). -/
def loaded (size : Nat) (sx : Bool) (data : List Byte) : Nat :=
  let v := ofLe data
  if sx && v.testBit (8 * size - 1) then 2 ^ 64 - 2 ^ (8 * size) + v else v

/-- Write a loaded value into a lane's destination. -/
def Wave.writeLoaded (w : Wave) (d : Operand) (sz : Size) (sx : Bool) (l : Nat) (data : List Byte) : Wave :=
  match sz with
  | .b128 => w.writeQuad d l (BitVec.ofNat 128 (ofLe data))
  | _ => w.writeLane d sz.regs l (BitVec.ofNat 64 (loaded sz.bytes sx data))

/-- LD (R303). -/
def execLd (h : Head) (sp : Space) (sz : Size) (sx : Bool) (d a c : Operand) (s : State) :
    Host.Outcome State Fault Refusal :=
  s.runWord (.ld h sp sz sx d a c) h fun s e =>
    let v := s.viewOf e.w
    s.access e (.ld h sp sz sx d a c)
      { sp := sp, size := sz.bytes, kind := .load, action := false, reads := true,
        addr := s.laneAddress e sp a, off := s.laneOffset e c, ask := fun _ => .load sz.bytes,
        perform := fun s l t => s.updWave e.n fun w => w.writeLoaded d sz sx l (s.readTarget e.w v t sz.bytes),
        receive := fun s l r => s.updWave e.n fun w => w.writeLoaded d sz sx l r }

/-- The bytes a lane stores (R304). -/
def State.storeData (s : State) (e : Env) (sz : Size) (b : Operand) (l : Nat) : List Byte :=
  match sz with
  | .b128 => leBytes 16 (e.w.readQuad b l).toNat
  | .b64 => leBytes 8 (s.read64 e b l 0).toNat
  | _ => leBytes sz.bytes (s.read32 e b l 0).toNat

/-- The fault record of a lane's store, should the bell find a fault (R184, R214). -/
def State.laneStore (s : State) (e : Env) (sp : Space) (sz : Size) (k : AccKind) (a c : Operand) (l : Nat) : LaneFault :=
  { lane := l, cause := 0x12, address := BitVec.ofInt 64 (accessAddress sp (s.laneAddress e sp a l) (s.laneOffset e c l)),
    size := sz.bytes, kind := k.code, space := spaceCode sp }

/-- The lane accesses of ST and STP (R304, R305). -/
def State.storeAccess (s : State) (e : Env) (sp : Space) (sz : Size) (k : AccKind) (a b c : Operand) : Access :=
  { sp := sp, size := sz.bytes, kind := k, action := false, reads := false,
    addr := s.laneAddress e sp a, off := s.laneOffset e c, ask := fun l => .store (s.storeData e sz b l),
    perform := fun t l x => t.storeTarget e.n e.w x (s.storeData e sz b l) (s.laneStore e sp sz k a c l) (e.lateStore 0),
    receive := fun t _ _ => t }

/-- ST (R304). -/
def execSt (h : Head) (sp : Space) (sz : Size) (a b c : Operand) (s : State) : Host.Outcome State Fault Refusal :=
  s.runWord (.st h sp sz a b c) h fun s e => s.access e (.st h sp sz a b c) (s.storeAccess e sp sz .store a b c)

/-- STP (R305): posted to a remote page, an ordinary store elsewhere. -/
def execStp (h : Head) (sz : Size) (a b c : Operand) (s : State) : Host.Outcome State Fault Refusal :=
  s.runWord (.stp h sz a b c) h fun s e => s.access e (.stp h sz a b c) (s.storeAccess e .global sz .stp a b c)

/-! ### Atomics (R306–R308) -/

/-- The lesser or greater of two signed 32-bit values. -/
def sel32 (greater : Bool) (x y : W32) : W32 := if decide (x.toInt < y.toInt) == greater then y else x

/-- The lesser or greater of two unsigned 32-bit values. -/
def selU32 (greater : Bool) (x y : W32) : W32 := if decide (x.toNat < y.toNat) == greater then y else x

/-- The value an atomic operation writes over `old` (R306). No atomic changes %fstat. -/
def AtomOp.apply (op : AtomOp) (old b : W64) : W64 :=
  let x := lo32 old
  let y := lo32 b
  let ext (v : W32) : W64 := v.setWidth 64
  match op with
  | .addU32 => ext (x + y)
  | .addU64 => old + b
  | .minS32 => ext (sel32 false x y)
  | .maxS32 => ext (sel32 true x y)
  | .minU32 => ext (selU32 false x y)
  | .maxU32 => ext (selU32 true x y)
  | .and => ext (x &&& y)
  | .or => ext (x ||| y)
  | .xor => ext (x ^^^ y)
  | .exchB32 => ext y
  | .exchB64 => b
  | .incwU32 => if x.toNat ≥ y.toNat then 0 else ext (x + 1)
  | .faddF32 => BitVec.ofNat 64 (fp32.add .rne x.toNat y.toNat).1
  | .faddF64 => BitVec.ofNat 64 (fp64.add .rne old.toNat b.toNat).1
  | .fminF32 => BitVec.ofNat 64 (fp32.select false x.toNat y.toNat).1
  | .fmaxF32 => BitVec.ofNat 64 (fp32.select true x.toNat y.toNat).1

/-- Bytes of an atomic operation. -/
def atomBytes (op : AtomOp) : Nat := if op.wide then 8 else 4

/-- The operand b of an atomic in a lane: an inline constant of a float operation is converted (R231). -/
def State.atomOperand (s : State) (e : Env) (op : AtomOp) (b : Operand) (l : Nat) : W64 :=
  match op with
  | .faddF32 | .fminF32 | .fmaxF32 => BitVec.ofNat 64 (s.readFloat e fp32 b l 0)
  | .faddF64 => BitVec.ofNat 64 (s.readFloat e fp64 b l 0)
  | _ => s.readInt e (regsOf op.wide) b l 0

/-- The space an atomic's scope names (R158, R307). -/
def scopeSpace : Scope → Space
  | .team => .scratch
  | _ => .global

/-- The bytes at a target now. -/
def State.nowAt (s : State) (w : Wave) (t : Target) (n : Nat) : W64 :=
  BitVec.ofNat 64 (ofLe (s.readTarget w s.now t n))

/-- The lane accesses of ATOM and RED: one event that reads and writes (R159, R307). -/
def State.atomAccess (s : State) (e : Env) (op : AtomOp) (sc : Scope) (d : Option Operand) (a b c : Operand) : Access :=
  let give (t : State) (l : Nat) (old : W64) : State := match d with
    | some x => t.updWave e.n fun w => w.writeLane x (regsOf op.wide) l old
    | none => t
  { sp := (scopeSpace sc), size := (atomBytes op), kind := .atomic, action := true, reads := true,
    addr := s.laneAddress e (scopeSpace sc) a, off := s.laneOffset e c, ask := fun l => .atomic op (s.atomOperand e op b l),
    perform := fun t l x =>
      let old := t.nowAt e.w x (atomBytes op)
      give (t.writeTarget e.w x (leBytes (atomBytes op) (AtomOp.apply op old (s.atomOperand e op b l)).toNat)) l old,
    receive := fun t l r => give t l (BitVec.ofNat 64 (ofLe r)) }

/-- ATOM (R307). -/
def execAtom (h : Head) (op : AtomOp) (scope : Scope) (d a b c : Operand) (s : State) :
    Host.Outcome State Fault Refusal :=
  s.runWord (.atom h op scope d a b c) h fun s e =>
    s.access e (.atom h op scope d a b c) (s.atomAccess e op scope (some d) a b c)

/-- RED (R307). -/
def execRed (h : Head) (op : AtomOp) (scope : Scope) (a b c : Operand) (s : State) : Host.Outcome State Fault Refusal :=
  s.runWord (.red h op scope a b c) h fun s e => s.access e (.red h op scope a b c) (s.atomAccess e op scope none a b c)

/-- ATOMC (R308): compare and swap. -/
def execAtomc (h : Head) (w64 : Bool) (scope : Scope) (d a b c : Operand) (s : State) :
    Host.Outcome State Fault Refusal :=
  s.runWord (.atomc h w64 scope d a b c) h fun s e =>
    let n := 4 * regsOf w64
    let cmp (l : Nat) : W64 := s.readInt e (regsOf w64) b l 0
    let new (l : Nat) : W64 := s.readInt e (regsOf w64) c l 0
    let give (t : State) (l : Nat) (old : W64) : State := t.updWave e.n fun w => w.writeLane d (regsOf w64) l old
    s.access e (.atomc h w64 scope d a b c)
      { sp := scopeSpace scope, size := n, kind := .atomic, action := true, reads := true,
        addr := s.laneAddress e (scopeSpace scope) a, off := fun _ => 0,
        ask := fun l => .compareSwap w64 (cmp l) (new l),
        perform := fun t l x =>
          let old := t.nowAt e.w x n
          give (if old = cmp l then t.writeTarget e.w x (leBytes n (new l).toNat) else t) l old,
        receive := fun t l r => give t l (BitVec.ofNat 64 (ofLe r)) }

/-- PREF (R309): it never faults and changes nothing that a program observes. -/
def execPref (h : Head) (l1 : Bool) (a c : Operand) (s : State) : Host.Outcome State Fault Refusal :=
  s.runWord (.pref h l1 a c) h fun s _ => .done s

/-! ### Accesses made once per split execution (R312) -/

/-- Only the lowest executing lane makes the access. -/
def Env.once (e : Env) : Env := { e with exec := if e.exec = 0 then 0 else laneBit e.firstExec }

/-- A fault of such an access concerns every executing lane (R312). -/
def onceTrap (e : Env) (r : Res) : Res :=
  match r with
  | .trap s t => .trap s (if t.kind = 1 || t.kind = 2 then { t with fault := e.exec, exec := e.mask } else t)
  | .defer s _ => .defer s e.exec
  | .holding s w => .holding (s.updSplit e.n e.k fun p =>
      { p with retry := p.retry.map fun r => { r with lanes := e.exec } }) w
  | r => r

/-- A suppressing or resuming fault of an access made once per split execution (R312). -/
def Env.onceFault (e : Env) (cause : Nat) (address : W64) (size kind space : Nat) : Trap :=
  let f : LaneFault :=
    { lane := e.firstExec, cause := cause, address := address, size := size, kind := kind, space := space }
  if cause = 0x18 || cause = 0x20 then { e.resuming cause e.firstExec 0 none [f] with fault := e.exec }
  else { e.trap cause with kind := 1, resume := 32, lanes := [f] }

/-- Ask the home package for something on behalf of a lane's instruction (R33); the instruction keeps the answers it has. An
empty peer table entry fails the access (R34). -/
def State.askHome (s : State) (e : Env) (lane home : Nat) (a : W64) (op : RemoteOp) (fails : Res) : Res :=
  match s.sendRemote e.w e.n e.k lane false home a op with
  | none => fails
  | some (_, t) =>
    let have' := match e.sp.retry with
      | some r => r.replies
      | none => []
    .holding (t.updSplit e.n e.k fun p =>
      let q := p.retryAt e.exec e.carry false e.pops e.mask
      { q with retry := q.retry.map fun r => { r with replies := have' } }) .remote

/-- The answer of the home package for a lane. -/
def Env.reply (e : Env) (lane : Nat) : Option RemoteReply :=
  e.sp.retry.bind fun r => r.replies.find? fun x => x.lane == lane

/-- The answers of a split's instruction are used up: it asks anew when it executes again. -/
def State.useReplies (s : State) (e : Env) : State :=
  s.updSplit e.n e.k fun p => { p with retry := p.retry.map fun r => { r with replies := [] } }

/-- LDU (R312). -/
def execLdu (h : Head) (sp : Space) (sz : Size) (sx : Bool) (d a c : Operand) (s : State) :
    Host.Outcome State Fault Refusal :=
  s.runWord (.ldu h sp sz sx d a c) h fun s e =>
    let v := s.viewOf e.w
    let give (t : State) (r : List Byte) : State :=
      t.updWave e.n fun w => w.writeS d (BitVec.ofNat 64 (loaded sz.bytes sx r))
    let base : W64 := match sp with | .global => s.uni e a | _ => (lo32 (s.uni e a)).setWidth 64
    onceTrap e (s.access e.once (.ldu h sp sz sx d a c)
      { sp := sp, size := sz.bytes, kind := .load, action := false, reads := true,
        addr := fun _ => base, off := fun _ => s.laneOffset e c e.first, ask := fun _ => .load sz.bytes,
        perform := fun t _ x => give t (t.readTarget e.w v x sz.bytes),
        receive := fun t _ r => give t r })

/-- STU (R312). -/
def execStu (h : Head) (sp : Space) (sz : Size) (a b c : Operand) (s : State) : Host.Outcome State Fault Refusal :=
  s.runWord (.stu h sp sz a b c) h fun s e =>
    let data := leBytes sz.bytes (s.uni e b).toNat
    let base : W64 := match sp with | .global => s.uni e a | _ => (lo32 (s.uni e a)).setWidth 64
    onceTrap e (s.access e.once (.stu h sp sz a b c)
      { sp := sp, size := sz.bytes, kind := .store, action := false, reads := false,
        addr := fun _ => base, off := fun _ => s.laneOffset e c e.first, ask := fun _ => .store data,
        perform := fun t _ x => t.storeTarget e.n e.w x data
          { lane := e.firstExec, cause := 0x12, address := BitVec.ofInt 64 (accessAddress sp base (s.laneOffset e c e.first)),
            size := sz.bytes, kind := AccKind.store.code, space := spaceCode sp } (e.lateStore e.exec),
        receive := fun t _ _ => t })

/-! ### Fences (R178) -/

/-- A posted store of the wave is not yet performed at home. -/
def State.postedOut (s : State) (n : Nat) : Bool := s.remote.any fun x => x.2.wave == n && x.2.posted

/-- An engine operation of the wave has not completed. -/
def State.enginesOut (s : State) (n : Nat) : Bool := s.engines.any fun x => x.2.wave == n

/-- A fence: what it waits for, and whether it reports failed posted stores (R178). In round mode it is performed at the
bell that ends its round (R183). -/
def State.fence (s : State) (e : Env) (posted engines : Bool) : Res :=
  if !e.runs then .done s
  else if engines && s.matrixOut e.n then .wait .tile
  else if s.isRound e.w && !s.atBell then .defer s e.exec
  else if posted && s.postedOut e.n then .wait .posted
  else if engines && s.enginesOut e.n then .wait .engines
  else if posted && decide (e.w.failedStp > 0) then
    .trap (s.updWave e.n fun w => { w with failedStp := 0 }) { e.engineError 3 0 with failed := e.w.failedStp }
  else .done s

/-- FENCE.R (R178). -/
def execFenceR (h : Head) (s : State) : Host.Outcome State Fault Refusal :=
  s.runWord (.fenceR h) h fun s e => s.fence e true false

/-- FENCE.H (R178). -/
def execFenceH (h : Head) (s : State) : Host.Outcome State Fault Refusal :=
  s.runWord (.fenceH h) h fun s e => s.fence e true true

/-- FENCE.E (R178). -/
def execFenceE (h : Head) (s : State) : Host.Outcome State Fault Refusal :=
  s.runWord (.fenceE h) h fun s e => s.fence e false true

/-! ### Fold groups (R160–R165, R310, R311) -/

/-- A fold group descriptor (R160). -/
structure FoldDesc where
  valid : Bool
  count : Nat
  stride : Nat
  first : Nat
  deriving DecidableEq, Repr

/-- The fold group descriptor in 16 bytes (R160). -/
def foldDescOf (b : List Byte) : FoldDesc :=
  { first := leAt b 0 4, stride := leAt b 4 4, count := leAt b 8 4 % 2 ^ 10, valid := (leAt b 12 4).testBit 0 }

/-- The 16 bytes of a fold group descriptor as FDEF writes them (R160, R310). -/
def FoldDesc.bytes (d : FoldDesc) : List Byte :=
  leBytes 4 d.first ++ leBytes 4 d.stride ++ leBytes 4 (d.count % 2 ^ 10) ++ leBytes 4 d.valid.toNat

/-- The field 5 value of a team index (R63, R310). -/
def LaunchRec.field5 (r : LaunchRec) (index : Nat) : Nat := index / r.span r.team 5

/-- FDEF (R310): one 16-byte store to the control area. -/
def execFdef (h : Head) (a b c : Operand) (s : State) : Host.Outcome State Fault Refusal :=
  s.runWord (.fdef h a b c) h fun s e =>
    if !e.runs then .done s
    else
      let idx := (s.uni e a).toNat
      let first := (lo32 (s.uni e b)).toNat
      let stride := (hi32 (s.uni e b)).toNat
      let n := (s.uni e c).toNat
      match s.launchOf e.w, s.teamOf e.w with
      | some l, some t =>
        let last := first + (n - 1) * stride
        if idx > 15 || n < 2 || n > 512 || stride = 0 || last ≥ l.lr.teamCount || e.w.task ||
          (l.lr.spanned && (List.range n).any fun m => l.lr.field5 (first + m * stride) != l.lr.field5 t.index)
        then e.illegal s
        else if s.isRound e.w && e.w.laneStores + 1 > 4096 then .endRound .none
        else
          let d : FoldDesc := { valid := true, count := n, stride := stride, first := first }
          .done (s.storeTarget e.n e.w (.window e.w.team t (0x800 + 16 * idx)) d.bytes
            { lane := e.firstExec, cause := 0x12, address := BitVec.ofNat 64 (0x800 + 16 * idx), size := 16,
              kind := AccKind.store.code, space := 1 } (e.lateStore e.exec))
      | _, _ => e.illegal s

/-- How a member of a fold group stands (R164). `kept` is one that the device has saved since the launch's last bell (R185). -/
inductive Member where
  | present (tid : Nat) (t : Team)
  | kept (window : List Byte)
  | absent
  | pending

/-- The member of a launch with a team index (R164, R185). -/
def State.member (s : State) (l : Nat) (x : Launch) (index : Nat) : Member :=
  match s.memberTeam l index with
  | some (tid, t) =>
    let c := s.core t.core
    let exited := t.waves.all fun n => match s.wave? n with
      | some w => decide (w.life = .exited)
      | none => true
    if c.off || c.spadLost || (!x.round && exited) then .absent else .present tid t
  | none =>
    match x.parked.findSome? fun k => (Tab.find s.saved k).bind fun v => if v.team.index = index then some v else none with
    | some v => if x.round && v.sinceBell then .kept v.window else .pending
    | none => if index ≥ x.next || x.heldTeams.contains index || x.late.contains index then .pending else .absent

/-- The float format of a fold type. -/
def FoldTy.fmt : FoldTy → Fmt
  | .f64 => fp64
  | .f16 => fp16
  | .bf16 => bf16
  | _ => fp32

/-- The integer type of a fold type. -/
def FoldTy.int : FoldTy → IntTy
  | .u32 => .u32
  | .s64 => .s64
  | _ => .s32

/-- The type is a float type. -/
def FoldTy.isFloat : FoldTy → Bool
  | .f32 | .f64 | .f16 | .bf16 => true
  | _ => false

/-- A 16-bit float add folds exactly and rounds once at its root (R163). -/
def exactFold (op : FoldOp) (ty : FoldTy) : Bool :=
  match op, ty with
  | .add, .f16 | .add, .bf16 => true
  | _, _ => false

/-- The identity of an operation (R163). -/
def foldIdentity (op : FoldOp) (ty : FoldTy) : Nat :=
  let bits := 8 * ty.bytes
  let f := FoldTy.fmt ty
  let t := FoldTy.int ty
  match op with
  | .add => if FoldTy.isFloat ty then f.signed true 0 else 0
  | .min => if FoldTy.isFloat ty then f.inf false else (wrap bits t.max).toNat
  | .max => if FoldTy.isFloat ty then f.inf true else (wrap bits t.min).toNat
  | .and => 2 ^ bits - 1
  | .or | .xor => 0

/-- Combine two values (R163). -/
def foldCombine (op : FoldOp) (ty : FoldTy) (x y : Nat) : Nat × Flags :=
  let bits := 8 * ty.bytes
  let f := FoldTy.fmt ty
  let t := FoldTy.int ty
  let v (n : Nat) : Int := t.value (BitVec.ofNat 64 n)
  match op with
  | .add => if FoldTy.isFloat ty then f.add .rne x y else ((x + y) % 2 ^ bits, 0)
  | .min => if FoldTy.isFloat ty then f.select false x y else (if v y < v x then y else x, 0)
  | .max => if FoldTy.isFloat ty then f.select true x y else (if v x < v y then y else x, 0)
  | .and => (x &&& y, 0)
  | .or => (x ||| y, 0)
  | .xor => (x ^^^ y, 0)

/-- One level of the tree: neighbours combined, the lower position on the left (R162). -/
def foldLevel (op : FoldOp) (ty : FoldTy) : List Nat → List Nat × Flags
  | x :: y :: r =>
    let (v, f) := foldCombine op ty x y
    let (vs, g) := foldLevel op ty r
    (v :: vs, f ||| g)
  | l => (l, 0)

/-- The tree over a power of two of values (R162). -/
def foldTree (op : FoldOp) (ty : FoldTy) : Nat → List Nat → Nat × Flags
  | 0, l => (l.headD 0, 0)
  | n + 1, l =>
    let (l', f) := foldLevel op ty l
    let (v, g) := foldTree op ty n l'
    (v, f ||| g)

/-- The result of a fold over the members' elements, `none` for an absent one (R162, R163). -/
def foldResult (op : FoldOp) (ty : FoldTy) (xs : List (Option Nat)) : Nat × Flags :=
  let p := powAtLeast xs.length 1 10
  let vals := (List.range p).map fun m => match xs[m]? with
    | some (some v) => v
    | _ => foldIdentity op ty
  if exactFold op ty then
    let f := FoldTy.fmt ty
    f.ofSum (sumOf (vals.map fun v => some (f.read v)))
  else foldTree op ty (Nat.log2 p) vals

/-- The absent-member mask of R164: bit j for the members at positions jk to jk + k − 1. -/
def absentMask (xs : List (Option Nat)) : W32 :=
  let p := powAtLeast xs.length 1 10
  let k := max 1 (p / 32)
  maskOf ((List.range 32).filter fun j => (List.range k).any fun i => match xs[j * k + i]? with
    | some none => true
    | _ => false)

/-- What a fold load reads for one lane: its descriptor's members and the offset in their windows. -/
structure FoldRead where
  lane : Nat
  off : Nat
  members : List Member

/-- The members a descriptor names in a launch. -/
def State.foldMembers (s : State) (l : Nat) (x : Launch) (d : FoldDesc) : List Member :=
  (List.range d.count).map fun m => s.member l x (d.first + m * d.stride)

/-- Some member a fold load needs is neither present nor absent (R164). -/
def FoldRead.pending (r : FoldRead) : Bool := r.members.any fun m => match m with
  | .pending => true
  | _ => false

/-- Some element a lane needs has an uncorrectable error (R164). -/
def State.foldBad (s : State) (die : Nat) (r : FoldRead) (n : Nat) : Bool :=
  r.members.any fun m => match m with
    | .present _ t => s.badWindow t r.off n || s.cutDies die (dieOfCore t.core)
    | _ => false

/-- The storage with an uncorrectable error that a lane's read meets. -/
def State.foldErrors (s : State) (r : FoldRead) (n : Nat) : List ErrorPlace :=
  r.members.flatMap fun m => match m with
    | .present _ t => s.badGranules t r.off n
    | _ => []

/-- Perform one lane of a fold load (R162, R164). -/
def State.foldLane (s : State) (e : Env) (op : FoldOp) (ty : FoldTy) (d c : Operand) (r : FoldRead) : State :=
  let n := ty.bytes
  let xs : List (Option Nat) := r.members.map fun m => match m with
    | .present tid t => some (ofLe (s.windowBytes [] tid t r.off n))
    | .kept window => some (ofLe (slice window r.off n))
    | _ => none
  let (v, fl) := foldResult op ty xs
  let m := absentMask xs
  s.updWave e.n fun w =>
    let w := ((w.writeLane d (regsOf (n == 8)) r.lane (BitVec.ofNat 64 v)).orFlags fl).writePred c r.lane
      (xs.all (·.isSome))
    { w with fabs := Tab.setD w.fabs 0 r.lane m }

/-- LDF (R311). -/
def execLdf (h : Head) (op : FoldOp) (ty : FoldTy) (d a c : Operand) (s : State) : Host.Outcome State Fault Refusal :=
  s.runWord (.ldf h op ty d a c) h fun s e =>
    if !e.runs then .done s
    else
      match s.launchOf e.w, s.teamOf e.w with
      | some x, some t =>
        let l := e.w.launch.getD 0
        let n := ty.bytes
        let fa (k : Nat) : Nat := (s.read32 e a k 0).toNat
        let place (k : Nat) : Nat := 0x800 + 16 * (fa k / 2 ^ 24 % 16)
        let desc (k : Nat) : FoldDesc := foldDescOf (s.windowBytes (s.viewOf e.w).buf e.w.team t (place k) 16)
        let unread (k : Nat) : Bool := s.badWindow t (place k) 16
        let cause (k : Nat) : Option Nat :=
          if fa k % n ≠ 0 then some 0x10
          else if fa k ≥ 2 ^ 28 || fa k % 2 ^ 24 + n > t.windowSize then some 0x19
          else none
        let ls := lanesOf e.exec
        let fault (k i : Nat) : LaneFault :=
          { lane := k, cause := i, address := BitVec.ofNat 64 (fa k), size := n, kind := AccKind.foldRead.code, space := 3 }
        if e.w.task || ls.any fun k => !(unread k) && !(desc k).valid then e.illegal s
        else
          let faults := ls.filterMap fun k => (cause k).map (fault k)
          let mask := maskOf (faults.map (·.lane))
          let reads := (ls.filter fun k => (cause k).isNone && !(unread k)).map fun k =>
            ({ lane := k, off := fa k % 2 ^ 24, members := s.foldMembers l x (desc k) } : FoldRead)
          if reads.any FoldRead.pending then
            if x.round then .endRound .none else .wait .member
          else
            let i : Instr := .ldf h op ty d a c
            let reg := (s.badLane e i).map fun k => (k, 0x20)
            let none' := (ls.find? unread).map fun k => (k, 0x20)
            let bad := firstStop (firstStop reg none')
              ((reads.find? fun r => s.foldBad (dieOfCore t.core) r n).map fun r => (r.lane, 0x20))
            -- the machine check at a lane: in a register, in the descriptor, or in an element
            let check (k : Nat) : Trap :=
              if reg = some (k, 0x20) then s.registerStop e i k 0 none
              else if unread k then e.resuming 0x20 k 0 none
                [{ lane := k, cause := 0x20, address := BitVec.ofNat 64 (place k), size := 16, kind := AccKind.load.code, space := 1 }]
              else { e.resuming 0x20 k 0 none [fault k 0x20] with
                     errs := (reads.filter fun r => r.lane == k).flatMap fun r => s.foldErrors r n }
            let go := reads.filter fun r => match bad with
              | some b => decide (r.lane < b.1)
              | none => true
            let u := go.foldl (fun s r => s.foldLane e op ty d c r) s
            match faults, bad with
            | f :: _, b =>
              let later := match b with
                | some y => fromLane e.exec y.1 &&& ~~~mask
                | none => 0
              .trap u { e.trap f.cause with kind := 1, fault := mask, lanes := faults, deferred := later,
                                            resume := if later = 0 then 32 else (lowest later).getD 32 }
            | [], some y => .trap u (check y.1)
            | [], none => .done u
      | _, _ => e.illegal s

end Sys2Proof.Machine
end

