-- ==== Sys2Proof/Machine/Barriers.lean ====
section
/-!
DEFINITION. Group 7: barriers and rings (R173, R186, R313–R322).
-/
namespace Sys2Proof.Machine

/-! ### Barriers -/

/-- A barrier as placement leaves it (R67, R313). -/
def Barrier.fresh : Barrier :=
  { init := false, waveUnits := false, ea := 0, eb := 0, arrivals := 0, bytes := 0, phase := false, failed := false,
    observedFailed := false }

/-- A barrier of a team. -/
def Team.barrier (t : Team) (b : Nat) : Barrier := Tab.getD t.bars b Barrier.fresh

/-- Change a barrier of a team. -/
def State.updBarrier (s : State) (tid b : Nat) (f : Barrier → Barrier) : State :=
  s.updTeam tid fun t => { t with bars := Tab.put t.bars b (f (t.barrier b)) }

/-- The current phase completes where its counts are met (R316). -/
def Barrier.settle (b : Barrier) : Barrier :=
  if decide (b.ea ≤ b.arrivals) && decide (b.eb ≤ b.bytes) then
    { b with phase := !b.phase, arrivals := 0, bytes := 0, observedFailed := b.failed, failed := false }
  else b

/-- The barrier with its counts within the limits of R313: arrivals to EA, bytes to 2^40 − 1. -/
def Barrier.limited (b : Barrier) : Barrier := { b with arrivals := min b.arrivals b.ea, bytes := min b.bytes (2 ^ 40 - 1) }

/-- An arrival of waves or lanes, or of bytes (R315, R316). -/
def Barrier.arrive (b : Barrier) (arrivals bytes : Nat) : Barrier :=
  ({ b with arrivals := b.arrivals + arrivals, bytes := b.bytes + bytes } : Barrier).limited.settle

/-- BARI at the barrier (R314); none where it refuses. -/
def Barrier.initialise (b : Barrier) (waveUnits : Bool) (ea eb : Nat) : Option Barrier :=
  let set : Barrier := { b with init := true, waveUnits := waveUnits, ea := ea, eb := eb, arrivals := 0, bytes := 0,
                                failed := false }
  if !b.init then some set
  else if b.waveUnits == waveUnits && b.ea == ea && b.eb == eb then some b
  else if b.arrivals == 0 && b.bytes == 0 then some set
  else none

/-- BARX at the barrier (R315); none where it refuses. -/
def Barrier.withdraw (b : Barrier) (n : Nat) : Option Barrier :=
  if !b.init || n > b.ea then none
  else
    let x := ({ b with ea := b.ea - n } : Barrier).limited.settle
    some (if x.ea = 0 && x.eb = 0 then { x with init := false } else x)

/-- What a barrier operand names (R313). -/
inductive BarName where
  | ok (tid : Nat) (t : Team) (b : Nat)
  | illegal
  | window            -- the peer position holds no team of the group (R318)

/-- The barrier a barrier operand names. -/
def State.barName (s : State) (e : Env) (peer : Bool) (a : Operand) : BarName :=
  let v := (s.uni e a).toNat
  match s.teamOf e.w with
  | none => .illegal
  | some t =>
    if peer then
      if v ≥ 2 ^ 13 then .illegal
      else
        match s.peerTeam e.w.team t (v / 2 ^ 10) with
        | none => .window
        | some (id, p) => if v % 2 ^ 10 < p.barCount then .ok id p (v % 2 ^ 10) else .illegal
    else if v < t.barCount then .ok e.w.team t v
    else .illegal

/-- The window violation of a peer barrier without a team (R312, R318). -/
def State.barWindow (s : State) (e : Env) (a : Operand) : Res :=
  .trap s (e.onceFault 0x11 (s.uni e a) 8 AccKind.atomic.code 2)

/-- The trap that reports a barrier action refused at a bell, delivered at the start of the next round with the kind it would
have had at issue (R184; log entry 16). -/
def Env.late (e : Env) : Trap := { e.trap 0x02 with late := true }

/-- Buffer an action for the bell (R185). -/
def State.buffered (s : State) (n : Nat) (a : Act) : State :=
  s.updWave n fun w => { w with buffer := w.buffer ++ [a] }

/-- BARI (R314); in round mode it takes effect at the bell. -/
def execBari (h : Head) (wave : Bool) (a b c : Operand) (s : State) : Host.Outcome State Fault Refusal :=
  s.runWord (.bari h wave a b c) h fun s e =>
    if !e.runs then .done s
    else
      let ea := (s.uni e b).toNat
      let eb := (s.uni e c).toNat
      match s.barName e false a with
      | .ok tid t n =>
        if ea > 65535 || eb ≥ 2 ^ 40 || (ea = 0 && eb = 0) then e.illegal s
        else if s.isRound e.w then .done (s.buffered e.n (.bari n wave ea eb e.late))
        else
          s.guardPart e (.barrier tid n) (match (t.barrier n).initialise wave ea eb with
          | some x => .done (s.updBarrier tid n fun _ => x)
          | none => e.illegal s)
      | _ => e.illegal s

/-- The arrivals a BARV counts (R143, R315). -/
def Env.arrivals (e : Env) (b : Barrier) : Nat := if e.w.drover || b.waveUnits then 1 else popc e.exec

/-- BARV (R315): its predicate receives the phase its arrival is counted in. In round mode it ends its round and takes
effect at the bell (R183, R185). -/
def execBarv (h : Head) (peer : Bool) (d a : Operand) (s : State) : Host.Outcome State Fault Refusal :=
  s.runWord (.barv h peer d a) h fun s e =>
    if !e.runs then .done s
    else
      match s.barName e peer a with
      | .illegal => e.illegal s
      | .window => s.barWindow e a
      | .ok tid t n =>
        if s.matrixOut e.n then .wait .tile
        else if s.isRound e.w && !s.atBell then .defer s e.exec
        else
          let b := t.barrier n
          s.guardPart e (.barrier tid n) (if !b.init then (if tid = e.w.team then e.illegal s else .wait .peerBarrier)
          else
            .done ((s.updBarrier tid n fun b => b.arrive (e.arrivals b) 0).updWave e.n fun w =>
              w.writePreds d e.exec b.phase))

/-- BARA (R315). -/
def execBara (h : Head) (peer : Bool) (a b : Operand) (s : State) : Host.Outcome State Fault Refusal :=
  s.runWord (.bara h peer a b) h fun s e =>
    if !e.runs then .done s
    else
      let bytes := (s.uni e b).toNat
      match s.barName e peer a with
      | .illegal => e.illegal s
      | .window => s.barWindow e a
      | .ok tid t n =>
        if bytes ≥ 2 ^ 40 then e.illegal s
        else if s.isRound e.w then
          .done (s.buffered e.n (.bara (if peer then some ((s.uni e a).toNat / 2 ^ 10) else none) n bytes e.late))
        else s.guardPart e (.barrier tid n)
          (if !(t.barrier n).init then (if tid = e.w.team then e.illegal s else .wait .peerBarrier)
          else .done (s.updBarrier tid n fun b => b.arrive 0 bytes))

/-- BARX (R315). -/
def execBarx (h : Head) (a b : Operand) (s : State) : Host.Outcome State Fault Refusal :=
  s.runWord (.barx h a b) h fun s e =>
    if !e.runs then .done s
    else
      let n := (s.uni e b).toNat
      match s.barName e false a with
      | .ok tid t k =>
        if s.isRound e.w then .done (s.buffered e.n (.barx k n e.late))
        else
          s.guardPart e (.barrier tid k) (match (t.barrier k).withdraw n with
          | some x => .done (s.updBarrier tid k fun _ => x)
          | none => e.illegal s)
      | _ => e.illegal s

/-- The wave has a BARI of the barrier waiting for the bell. -/
def Wave.initPending (w : Wave) (bar : Nat) : Bool := w.buffer.any fun a => match a with
  | .bari b .. => b == bar
  | _ => false

/-- An observation of a completed phase (R173, R219): a failed one takes an engine error after it. -/
def State.observe (s : State) (e : Env) (b : Barrier) (n : Nat) : Res :=
  if b.observedFailed then .trap s (e.engineError 2 n) else .done s

/-- BARW (R317); in round mode it ends the round before itself where the phase was not complete at the last bell
(R183). A BARW that already waits observes the phase that completes, also where a BARX emptied the barrier (R315). -/
def execBarw (h : Head) (a b : Operand) (s : State) : Host.Outcome State Fault Refusal :=
  s.runWord (.barw h a b) h fun s e =>
    if !e.runs then .done s
    else
      let phi := e.w.readPred b e.firstExec
      match s.barName e false a with
      | .ok tid t n =>
        let x := t.barrier n
        s.guardPart e (.barrier tid n)
          (if !x.init && e.sp.waiting != .barrier n phi then (if e.w.initPending n then .endRound .none else e.illegal s)
          else if x.phase == phi then (if s.isRound e.w then .endRound (.barrier n phi) else .wait (.barrier n phi))
          else s.observe e x n)
      | _ => e.illegal s

/-- BART (R317). -/
def execBart (h : Head) (d a b : Operand) (s : State) : Host.Outcome State Fault Refusal :=
  s.runWord (.bart h d a b) h fun s e =>
    if !e.runs then .done s
    else
      let phi := e.w.readPred b e.firstExec
      match s.barName e false a with
      | .ok tid t n =>
        let x := t.barrier n
        let past := x.phase != phi
        let u := s.updWave e.n fun w => w.writePreds d e.exec past
        s.guardPart e (.barrier tid n) (if !x.init then e.illegal s else if past then u.observe e x n else .done u)
      | _ => e.illegal s

/-- REND (R186): it ends the agent's round after it retires. -/
def execRend (h : Head) (s : State) : Host.Outcome State Fault Refusal :=
  s.runWord (.rend h) h fun s e =>
    if e.runs && s.isRound e.w then .done (s.updWave e.n fun w => { w with roundEnded := true }) else .done s

/-! ### Rings -/

/-- The trap of a ring action that an access or the ring itself stops (R78, R312). -/
def State.ringTrap (s : State) (e : Env) (x : RingError) : Res :=
  match x with
  | .malformed => e.illegal s
  | .fault c a | .asks c a => .trap s (e.onceFault c (BitVec.ofNat 64 a) 8 AccKind.atomic.code 0)

/-- The error that a ring action's failed answer tells: where it says nothing, the remote access has failed (R34). -/
def failedAnswer (cb : Nat) (data : List Byte) : RingError :=
  if data.isEmpty then .fault 0x20 cb else .fault (leAt data 0 1) (leAt data 1 8)

/-- What the answer to a ring action comes to. -/
def State.ringAnswered (s : State) (e : Env) (cb : Nat) (r : RemoteReply) (fin : State → RingAnswer → Res) : Res :=
  let s := s.useReplies e
  if !r.ok then s.ringTrap e (failedAnswer cb r.data)
  else match ringAnswerOf r.data with
    | .ok y => fin s y
    | .error x => s.ringTrap e x

/-- A ring action of an instruction becomes a ring job, whose answer it waits for. -/
def State.ringWaits (s : State) (e : Env) (cb : Nat) (op : RingOp) : Res :=
  let s := s.updSplit e.n e.k fun p => p.retryAt e.exec e.carry false e.pops e.mask
  .holding (s.addJob { owner := e.w.owner, control := cb, op := op, die := s.dieOf e.w, launch := s.writer e.w,
                       asker := .lane e.n e.k e.w.trapCtx.isSome, got := [], asked := none, answer := none }) .remote

/-- A ring instruction whose own operands pass: in round mode what the issue meets is taken at issue, and the action is
performed at the bell (R184, R319). The action on a ring is performed at the home package of its control block (R33), and one
that needs record headers in another package waits for them; `fin` is what its answer comes to. -/
def State.ringAction (s : State) (e : Env) (cb : Nat) (op : RingOp) (fin : State → RingAnswer → Res) : Res :=
  let x := match s.owner? e.w.owner with
    | some o => (o.checkGlobal cb 64 .atomic, o.remoteAt cb)
    | none => (some 0x18, none)
  match x with
  | (some c, _) => s.ringTrap e (.fault c cb)
  | (none, home) =>
    if s.isRound e.w && !s.atBell then .defer s e.exec
    else
      match e.reply objectLane, home with
      | some r, _ => s.ringAnswered e cb r fin
      | none, some pkg => s.askHome e objectLane pkg (BitVec.ofNat 64 cb) (.ring op) (s.ringTrap e (.fault 0x20 cb))
      | none, none =>
        if s.ringBusy e.w.owner cb then s.ringWaits e cb op
        else match s.ringPerform (s.dieOf e.w) [] 0 (s.writer e.w) e.w.owner cb op with
          | .ok (y, t) => fin t y
          | .error (.asks ..) => s.ringWaits e cb op
          | .error x => s.ringTrap e x

/-- A ring instruction waits: one that pops no more keeps what it has. -/
def State.ringWait (s : State) (e : Env) (x : Wait) : Res := if e.sp.retry.isSome then .holding s x else .wait x

/-- The wave with a record entered in its reservation table. -/
def Wave.reserve (w : Wave) (record control : Nat) : Wave :=
  { w with reserved := w.reserved ++ [{ record := record, control := control }] }

/-- The wave with a record entered in its hold table. -/
def Wave.hold (w : Wave) (record control : Nat) : Wave :=
  { w with holds := w.holds ++ [{ record := record, control := control }] }

/-- RQRES (R320). -/
def execRqres (h : Head) (wait : Bool) (d a b c : Operand) (s : State) : Host.Outcome State Fault Refusal :=
  s.runWord (.rqres h wait d a b c) h fun s e =>
    if !e.runs then .done s
    else
      let cb := (s.uni e a).toNat
      let len := (s.uni e b).toNat
      let type := (s.uni e c).toNat
      if len < 8 || len % 8 ≠ 0 || type < 1 || type > 4 || e.w.reserved.length ≥ 8 then e.illegal s
      else
        s.ringAction e cb (.reserve len type (s.coreOf e.w)) fun t y =>
          match y.record with
          | some a => .done (t.updWave e.n fun w => (w.reserve a cb).writeS d (BitVec.ofNat 64 a))
          | none => if wait then t.ringWait e .ringSpace else .done (t.updWave e.n fun w => w.writeS d 0)

/-- The first entry of a table that names a record. -/
def findEntry (l : List RingEntry) (a : Nat) : Option RingEntry := l.find? fun x => x.record == a

/-- RQCMT (R321). -/
def execRqcmt (h : Head) (a : Operand) (s : State) : Host.Outcome State Fault Refusal :=
  s.runWord (.rqcmt h a) h fun s e =>
    if !e.runs then .done s
    else
      match findEntry e.w.reserved (s.uni e a).toNat with
      | none => e.illegal s
      | some x =>
        s.ringAction e x.control (.commit x.record) fun t _ =>
          .done (t.updWave e.n fun w => { w with reserved := w.reserved.erase x })

/-- RQREL (R321). -/
def execRqrel (h : Head) (a : Operand) (s : State) : Host.Outcome State Fault Refusal :=
  s.runWord (.rqrel h a) h fun s e =>
    if !e.runs then .done s
    else
      match findEntry e.w.holds (s.uni e a).toNat with
      | none => e.illegal s
      | some x =>
        s.ringAction e x.control (.release x.record) fun t _ =>
          .done (t.updWave e.n fun w => { w with holds := w.holds.erase x })

/-- RQTAKE waits for a commit. A malformed record that its home package has marked for it is reported when it completes (R321). A
take that is answered at once and finds nothing marks nothing either. -/
def State.takeWait (s t : State) (e : Env) (owes : Option Trap) : Res :=
  if (e.reply objectLane).isNone then s.ringWait e .ringTake
  else .holding (t.updSplit e.n e.k fun p => { p with retry := p.retry.map fun r => { r with owed := owes } }) .ringTake

/-- RQTAKE (R321): a take that passes a malformed record reports it after it has completed. -/
def execRqtake (h : Head) (wait : Bool) (d a : Operand) (s : State) : Host.Outcome State Fault Refusal :=
  s.runWord (.rqtake h wait d a) h fun s e =>
    if !e.runs then .done s
    else if e.w.holds.length ≥ 8 then e.illegal s
    else
      let cb := (s.uni e a).toNat
      let owed := e.sp.retry.bind (·.owed)
      let after (t : State) (x : Option Trap) : Res := match x with
        | some x => .trap t x
        | none => .done t
      s.ringAction e cb (.take (s.coreOf e.w) owed.isSome) fun t y =>
        let bad := owed.orElse fun _ => y.bad.map fun x => { e.engineError 0 0 with argument := BitVec.ofNat 64 x }
        match y.record with
        | some a => after (t.updWave e.n fun w => (w.hold a cb).writeS d (BitVec.ofNat 64 a)) bad
        -- a take that waits reports nothing: it has not completed
        | none => if wait then s.takeWait t e bad else after (t.updWave e.n fun w => w.writeS d 0) bad

end Sys2Proof.Machine
end

