-- ==== Sys2Proof/Machine/Control.lean ====
section
/-!
DEFINITION. Group 5: control (R136–R140, R279–R286), and the fetch of a clause (R147, R150, R226, R227).
-/
namespace Sys2Proof.Machine

/-! ### Fetching words -/

/-- What fetching a word at an address finds: on a remote page, its home package is asked first (R33, R146). -/
inductive Fetched where
  | word (w : W64)
  | fault (cause : Nat)
  | ask (home : Nat)

/-- The word at an address as a clause fetch reads it (R147, R150); a word in an uncorrectable sector is a machine check
(log entry 13), as is one that the home package could not give (R34). `got` is what the home package has given. -/
def State.fetchWord (s : State) (die : Option Nat) (got : List (Nat × Option W64)) (owner a : Nat) : Fetched :=
  match s.owner? owner with
  | none => .fault 0x18
  | some o =>
    match o.checkGlobal a 8 .fetch with
    | some c => .fault c
    | none =>
      match o.remoteAt a with
      | some home => match got.find? fun x => x.1 == a with
        | some (_, some w) => .word w
        | some (_, none) => .fault 0x20
        | none => .ask home
      | none =>
        if s.badGlobal die o a 8 then .fault 0x20
        else .word (BitVec.ofNat 64 (ofLe (o.bytes owner s.now a 8)))

/-- Ask the home package for a clause word of a split; lane 37 stands for the fetch. Where it cannot be reached, the fetch has
failed (R8, R34). -/
def State.askWord (s : State) (n k : Nat) (w : Wave) (home a : Nat) : State :=
  match s.sendRemote w n k 37 false home (BitVec.ofNat 64 a) .fetch with
  | none => s.updSplit n k fun p => { p with fetched := p.fetched ++ [(a, none)] }
  | some (_, t) => t.updSplit n k fun p => { p with fetchAt := some a, waiting := .remote }

/-- The lane record of a fetch that faults. -/
def fetchFault (lane cause : Nat) (a : W64) : LaneFault :=
  { lane := lane, cause := cause, address := a, size := 8, kind := AccKind.fetch.code, space := 0 }

/-- A branch's checks of its target, in the order of R136: the trap it raises or the wait for the home package of its page, or
none. -/
def State.checkTarget (s : State) (e : Env) (a : W64) : Option Res :=
  if a.toNat ≥ 2 ^ 56 || a.toNat % 8 ≠ 0 then some (.trap s (e.trap 0x04))
  else
    match s.fetchWord (s.dieOf e.w) e.sp.fetched e.w.owner a.toNat with
    | .fault c => some (.trap s
      (if c = 0x12 then
        { e.trap c with kind := 1, resume := 32, lanes := (lanesOf e.exec).map fun l => fetchFault l c a }
      else e.resuming c 0 0 none [fetchFault 0 c a]))
    | .ask home => some (.asks (s.askWord e.n e.k e.w home a.toNat) .remote)
    | .word w => if w.extractLsb' 60 4 == 0b1101#4 then none else some (.trap s (e.trap 0x04))

/-- Transfer control to a target once its checks have passed. -/
def State.transfer (s : State) (e : Env) (a : W64) (effect : State → State) : Res :=
  match s.checkTarget e a with
  | some r => r
  | none => .jump (effect s) a

/-- The target of a branch offset (R233): the clause header's address plus eight times the signed offset. -/
def Env.target (e : Env) (off : BitVec 20) : W64 := e.sp.pc + (off.signExtend 64 <<< 3)

/-- BRD's join address: eight times its literal beyond the clause header, modulo 2^64 (R233). -/
def State.joinTarget (s : State) (e : Env) (a : Operand) : W64 := e.sp.pc + (s.uni e a <<< 3)

/-- A uniform branch (R136): all active lanes, none, or non-uniform. -/
def State.uniformBranch (s : State) (e : Env) (a : W64) : Res :=
  if e.exec = 0 then .done s
  else if e.exec ≠ e.active then .trap s (e.trap 0x05)
  else s.transfer e a id

/-- BRA (R280). -/
def execBra (h : Head) (off : BitVec 20) (s : State) : Host.Outcome State Fault Refusal :=
  s.runWord (.bra h off) h fun s e => s.uniformBranch e (e.target off)

/-- BRX (R280). -/
def execBrx (h : Head) (a : Operand) (s : State) : Host.Outcome State Fault Refusal :=
  s.runWord (.brx h a) h fun s e => s.uniformBranch e (s.uni e a)

/-- BRD (R137). A join context may come to hold more than three addresses where splits have ended (log entry 143). -/
def execBrd (h : Head) (off : BitVec 20) (a : Operand) (s : State) : Host.Outcome State Fault Refusal :=
  s.runWord (.brd h off a) h fun s e =>
    let j := s.joinTarget e a
    let target := e.target off
    let rest := e.active &&& ~~~e.exec
    if e.exec = 0 then .done s
    else if rest = 0 then s.transfer e target id
    else
      match (List.range 4).find? fun k => (Tab.find e.w.splits k).isNone with
      | some k =>
        match s.checkTarget e target with
        | some r => r
        | none =>
          let ctx := e.sp.context ++ [j]
          -- a wait at a JOIN ends where a split arrives or ends, and a divergence is neither (R138; log entry 91)
          .done (s.updWave e.n fun w =>
            let w := w.updSplit e.k fun p => { p with mask := rest, context := ctx }
            { w with splits := Tab.put w.splits k { Split.start target e.exec with context := ctx } })
      | none =>
        if e.sp.stack.length ≥ 16 then .trap s { e.trap 0x06 with fault := 0 }
        else
          s.transfer e target fun s => s.updSplit e.n e.k fun p =>
            { p with mask := e.exec,
                     stack := { join := j, mask := rest, fall := e.sp.nextHeader, returned := false } :: p.stack }

/-- JOIN (R138). Whether the splits of its context have all arrived is told when one of them arrives or a split ends (log
entry 91). -/
def execJoin (h : Head) (s : State) : Host.Outcome State Fault Refusal :=
  s.runWord (.join h) h fun s e =>
    let j := e.sp.pc
    let p := e.sp
    let arrive : Res :=
      if p.context.getLast? ≠ some j then .done s
      else if (e.w.siblings p).any (fun x => decide (x.1 < e.k)) && (!p.stack.isEmpty || !p.spill.isEmpty) then
        .trap s (e.trap 0x04)
      else
        let low := ((e.w.siblings p).map (·.1)).foldl min e.k
        let w := (e.w.updSplit e.k fun q => { q with arrived := some j }).arriveAt p j
        let merged := (Tab.find w.splits e.k).elim true fun q => q.arrived.isNone
        let s := s.setWave e.n w
        if merged then .within s low else .moved s
    match p.stack with
    | [] => arrive
    | t :: r =>
      if t.join ≠ j then arrive
      else if t.returned then
        .done (s.updSplit e.n e.k fun q => ({ q with mask := q.mask ||| t.mask, stack := r } : Split).reload)
      else
        .moved (s.updSplit e.n e.k fun q =>
          { q.goto t.fall with mask := t.mask, stack := { t with mask := p.mask, returned := true } :: r })

/-- CALL (R281). -/
def execCall (h : Head) (off : BitVec 20) (d : Operand) (s : State) : Host.Outcome State Fault Refusal :=
  s.runWord (.call h off d) h fun s e =>
    if !e.runs then .done s
    else if e.w.drover then
      if e.w.rstack.length ≥ 16 then .trap s { e.trap 0x06 with fault := 0 }
      else s.transfer e (e.target off) fun s => s.updWave e.n fun w => { w with rstack := e.sp.nextHeader :: w.rstack }
    else s.transfer e (e.target off) fun s => s.updWave e.n fun w => w.writeS d e.sp.nextHeader

/-- RET (R281). -/
def execRet (h : Head) (a : Operand) (s : State) : Host.Outcome State Fault Refusal :=
  s.runWord (.ret h a) h fun s e =>
    if !e.runs then .done s
    else if e.w.drover then
      match e.w.rstack with
      | [] => .trap s (e.trap 0x04)
      | x :: r => s.transfer e x fun s => s.updWave e.n fun w => { w with rstack := r }
    else s.transfer e (s.uni e a) id

/-- EXIT (R282). -/
def execExit (h : Head) (s : State) : Host.Outcome State Fault Refusal :=
  s.runWord (.exit h) h fun s e =>
    if !e.runs then .done s
    else if e.w.drover then .moved (s.exitDrover e.n)
    else if (e.w.liveLanes &&& ~~~e.exec) = 0 && s.matrixOut e.n then .wait .tile
    else .moved (s.endLanes e.n e.k e.sp.advance e.exec)

/-- YIELD (R285): the wave's turn ends after the current clause. -/
def execYield (h : Head) (s : State) : Host.Outcome State Fault Refusal :=
  s.runWord (.yield h) h fun s e =>
    if e.runs then .done (s.updWave e.n fun w => { w with yielded := true }) else .done s

/-- How long a SLEEP lasts: 0 for a count of 0; else it is over when its count of issue opportunities has come down to 1. -/
def sleepOf (v : W64) : Nat := let k := v.toNat % 2 ^ 16
  if k = 0 then 0 else k + 1

/-- SLEEP (R285). -/
def execSleep (h : Head) (a : Operand) (s : State) : Host.Outcome State Fault Refusal :=
  s.runWord (.sleep h a) h fun s e =>
    if e.runs then .done (s.updWave e.n fun w => { w with sleep := sleepOf (s.uni e a) }) else .done s

/-- TRAP (R286). -/
def execTrap (h : Head) (a : Operand) (s : State) : Host.Outcome State Fault Refusal :=
  s.runWord (.trap h a) h fun s e =>
    if e.runs then .trap s { e.trap 0x30 with kind := 3, resume := 32, fault := 0, argument := s.uni e a } else .done s

/-- BKPT (R286): it retires where it is resumed from its own trap (R216). -/
def execBkpt (h : Head) (s : State) : Host.Outcome State Fault Refusal :=
  s.runWord (.bkpt h) h fun s e =>
    if e.runs && !e.sp.skipBreak then .trap s { e.trap 0x31 with fault := 0 } else .done s

/-- DBNZ (R283). -/
def execDbnz (h : Head) (off : BitVec 20) (d : Operand) (s : State) : Host.Outcome State Fault Refusal :=
  s.runWord (.dbnz h off d) h fun s e =>
    if !e.scalarRuns then .done s
    else
      let c := s.uni e d - 1
      if c = 0 then .done (s.updWave e.n fun w => w.writeS d c)
      else s.transfer e (e.target off) fun s => s.updWave e.n fun w => w.writeS d c

/-! ### Token waits (R172, R219, R227, R284) -/

/-- The lowest token of a mask. -/
def lowToken (m : BitVec 8) : Nat := ((List.range 8).find? fun i => m.getLsbD i).getD 0

/-- The wave without the pending engine error of a token: the errors of the other tokens that a wait covers stay pending for the
waits that follow (R211, R219). -/
def Wave.takeError (w : Wave) (k : Nat) : Wave := { w with tokenErrors := w.tokenErrors &&& ~~~(1#8 <<< k) }

/-- WAITT (R284): in round mode it ends the round before itself while a named operation is not yet performed (R183). -/
def execWaitt (h : Head) (a : Operand) (s : State) : Host.Outcome State Fault Refusal :=
  s.runWord (.waitt h a) h fun s e =>
    let v := s.uni e a
    let m : BitVec 8 := v.setWidth 8
    if !e.runs then .done s
    else if v.toNat ≥ 2 ^ 8 then e.illegal s
    else if e.w.busy &&& m ≠ 0 then
      if s.isRound e.w then .endRound .none else .wait (.tokens m)
    else if e.w.tokenErrors &&& m ≠ 0 then
      let k := lowToken (e.w.tokenErrors &&& m)
      .trap (s.updWave e.n fun w => w.takeError k) (e.engineError 1 k)
    else .done s

/-! ### Fetching a clause -/

/-- A trap at a clause header, before its word 0 issues: found by the fetch (R147), the check (R226) or a token wait. -/
def headerTrap (k : Nat) (p : Split) (m : W32) (cause index : Nat) (word : W64) : Trap :=
  { cause := cause, kind := 5, split := k, header := p.pc, index := index, word := word, active := m, fault := m, exec := m,
    resume := 0, deferred := 0, carry := 0, slot := none, pops := [], lanes := [], argument := 0, sourceKind := 0,
    source := 0, failed := 0, counted := false, late := false, errs := [], fatal := false, sent := false }

/-- Fetch `n` words from an address: the words, or the address of the first one that is not there and what its fetch finds. -/
def State.fetchWords (s : State) (die : Option Nat) (got : List (Nat × Option W64)) (owner a : Nat) : Nat →
    List W64 ⊕ (Nat × Fetched)
  | 0 => .inl []
  | n + 1 =>
    match s.fetchWord die got owner a with
    | .word w =>
      match State.fetchWords s die got owner (a + 8) n with
      | .inl ws => .inl (w :: ws)
      | .inr x => .inr x
    | f => .inr (a, f)

/-- The page of an owner at an address is there; where an UNMAP took the page, the wait goes on until a MAP covers the address
(R52). -/
def State.pageThere (s : State) (owner va : Nat) : Bool :=
  match (s.owner? owner).bind fun o => o.pageAt va with
  | some p => p.frame.isSome || p.remote.isSome
  | none => false

/-- A split of the wave stands at a word of a clause. -/
def Wave.standsAt (w : Wave) (split : Nat) (pc : W64) (word : Nat) : Bool := match Tab.find w.splits split with
  | some p => p.pc == pc && p.word == word && !p.clause.isEmpty
  | none => false

/-- The debug agent does not hold a split of the wave (R384). -/
def Wave.free (w : Wave) (split : Nat) : Bool := match w.stopped with
  | .no => true
  | .stepping k => k.all fun x => x == split
  | .waits k pc i => split == k && w.standsAt k pc i
  | _ => false

/-- The debug agent holds the wave whole: no word of it is left to complete (R384). -/
def Wave.heldWhole (w : Wave) : Bool := match w.stopped with
  | .no | .stepping _ => false
  | .waits k pc i => !(w.standsAt k pc i)
  | _ => true

/-- A wave can issue a clause of a split: it runs, is not held or asleep, and the split stands between clauses and waits
neither at a JOIN, nor for a page (R52), nor for a word from a home package. -/
def State.fetches (s : State) (w : Wave) (split : Nat) (p : Split) : Bool :=
  decide (w.life = .running) && w.free split && w.pending.isNone && !w.roundEnded && w.bellSplit.isNone &&
  w.sleep == 0 && p.clause.isEmpty && p.arrived.isNone &&
  (match p.waiting with
   | .page va => s.pageThere w.owner va
   | _ => p.fetchAt.isNone)

/-- The traps at a clause header that a fetch fault or a failed check raises. -/
def headerFault (k : Nat) (p : Split) (m : W32) (va cause : Nat) (word : W64) : Trap :=
  let a : W64 := BitVec.ofNat 64 va
  -- word j stands at 8 × (j + 1) beyond the header
  { headerTrap k p m cause ((va - p.pc.toNat) / 8 - 1) word with
    resume := if cause = 0x18 || cause = 0x20 then 0 else 32
    lanes := if cause = 0x18 || cause = 0x20 then [fetchFault 0 cause a]
             else (lanesOf m).map fun l => fetchFault l cause a }

/-- The clause of a split whose fetch succeeded: its token wait, then its words (R227). -/
def State.beginClause (s : State) (n k : Nat) (w : Wave) (p : Split) (hw : W64) (ws : List W64) : State :=
  let h := headerOf hw
  let m : W32 := if w.drover then 1 else p.mask
  let waits := !p.tokensMet && w.busy &&& h.twait ≠ 0
  if waits then
    if s.isRound w then (s.updWave n fun x => { x with roundEnded := true }).stir w.launch
    else s.updSplit n k fun q => { q with waiting := .tokens h.twait }
  else if !p.tokensMet && w.tokenErrors &&& h.twait ≠ 0 then
    let t := lowToken (w.tokenErrors &&& h.twait)
    (s.updWave n fun x => x.takeError t).raise n
      { headerTrap k p m 0x21 0 hw with resume := 32, fault := 0, sourceKind := 1, source := t }
  else
    match nextWord h ws.length p.word ws.length with
    | some j =>
      (s.goOn n k).updSplit n k fun q => { q with clause := hw :: ws, word := j, waiting := .none, skipBreak := false, fetched := [] }
    | none => s.updSplit n k fun q => ({ q with clause := hw :: ws } : Split).goto
        (p.pc + BitVec.ofNat 64 (8 * (ws.length + 1)))

/-- What reading the clause at a split's address comes to: its header and words, a word that a home package is to be asked for,
or a trap at its header. -/
inductive ClauseRead where
  | whole (header : W64) (words : List W64)
  | asks (home address : Nat)
  | trap (t : Trap)

/-- Read the clause at which a split stands and check it whole (R147, R226). -/
def State.readClause (s : State) (k : Nat) (w : Wave) (p : Split) : ClauseRead :=
  let m : W32 := if w.drover then 1 else p.mask
  match s.fetchWord (s.dieOf w) p.fetched w.owner p.pc.toNat with
  | .fault c => .trap (headerFault k p m p.pc.toNat c 0)
  | .ask home => .asks home p.pc.toNat
  | .word hw =>
    let h := headerOf hw
    if !h.ok then .trap { headerTrap k p m 0x01 0 hw with counted := true }
    else
      match s.fetchWords (s.dieOf w) p.fetched w.owner (p.pc.toNat + 8) h.words with
      | .inr (a, .fault c) => .trap (headerFault k p m a c 0)
      | .inr (a, .ask home) => .asks home a
      | .inr (a, .word x) => .trap (headerFault k p m a 0x20 x)
      | .inl ws =>
        match clauseFault hw ws with
        | some i => .trap { headerTrap k p m 0x01 i (ws.getD i 0) with counted := true }
        | none => .whole hw ws

/-- Fetch the clause at which a split stands, check it whole (R226), and begin it. -/
def State.fetchClause (s : State) (n k : Nat) (w : Wave) (p : Split) : State :=
  match s.readClause k w p with
  | .trap t => s.raise n t
  | .asks home a => s.askWord n k w home a
  | .whole hw ws => s.beginClause n k w p hw ws

/-- The next clause of a split names a token that is still busy (R118, R227). -/
def State.tokensBusy (s : State) (k : Nat) (w : Wave) (p : Split) : Bool :=
  p.clause.isEmpty && !p.tokensMet && w.busy != 0 && (match s.readClause k w p with
    | .whole hw _ => w.busy &&& (headerOf hw).twait != 0
    | _ => false)

/-- Fetching the next clause of a split begins none: it only asks a home package for a word, or in round mode ends the round at a
busy token. No issue opportunity is spent on that (R118). -/
def State.fetchOnlyWaits (s : State) (k : Nat) (w : Wave) (p : Split) : Bool :=
  p.clause.isEmpty && ((match s.readClause k w p with
    | .asks .. => true
    | _ => false) || s.tokensBusy k w p)

/-- A debugger breakpoint stands at the clause, and the wave has not just been resumed from it (R384). -/
def State.breaksAt (s : State) (w : Wave) (p : Split) : Bool :=
  s.ivgil.breaks.contains (w.owner, p.pc) && !p.skipBreak

/-- CLAUSE_FETCH: the next clause of a split. A breakpoint of the debugger stops the wave before word 0 issues. -/
def execClauseFetch (wave split : Nat) (s : State) : Host.Outcome State Fault Refusal :=
  match (s.wave? wave).bind fun w => (Tab.find w.splits split).map fun p => (w, p) with
  | none => .next s
  | some (w, p) =>
    if s.cur.isNone && s.fetches w split p then
      if !w.drover && s.breaksAt w p then .next (s.updWave wave fun x => { x with stopped := .breakpoint split })
      else .next (s.fetchClause wave split w p)
    else .next s

end Sys2Proof.Machine
end

