-- ==== Sys2Proof/Machine/Func.lean ====
section
/-!
DEFINITION. The correctly rounded functions (R198, R199), the guarded reciprocal (R204), the softmax step (R205) and
block quantisation (R202, R203). Reciprocal and roots are exact integer arithmetic. The others are enclosed between
two fixed-point bounds, at a precision that doubles until both bounds round alike.
-/
namespace Sys2Proof.Machine

/-! ### Reciprocal and roots -/

/-- The integer square root, bit by bit from bit `k − 1` down. -/
def isqrtBits (n : Nat) : Nat → Nat → Nat
  | 0, r => r
  | k + 1, r => isqrtBits n k (if (r + 2 ^ k) * (r + 2 ^ k) ≤ n then r + 2 ^ k else r)

/-- The integer square root. -/
def isqrt (n : Nat) : Nat := isqrtBits n (Nat.log2 n / 2 + 1) 0

/-- 1/x (R198, R199). -/
def Fmt.rcp (f : Fmt) (a : Nat) : Nat × Flags :=
  match f.read a with
  | .nan s => (f.nan, flagIf s fNV)
  | .inf n => (f.signed n 0, 0)
  | .fin n m e => if m = 0 then (f.inf n, fDZ) else f.roundRat .rne n 1 m (-e)

/-- √x (R198, R199). -/
def Fmt.sqrt (f : Fmt) (a : Nat) : Nat × Flags :=
  match f.read a with
  | .nan s => (f.nan, flagIf s fNV)
  | .inf n => if n then (f.nan, fNV) else (f.inf false, 0)
  | .fin n m e =>
    if m = 0 then (a, 0)
    else if n then (f.nan, fNV)
    else
      let k := 2 * (f.fbits + 4)
      let k := if (e - k) % 2 = 0 then k else k + 1
      let v := m * 2 ^ k
      let r := isqrt v
      f.round .rne false (2 * r + (if r * r = v then 0 else 1)) ((e - k) / 2 - 1)

/-- 1/√x (R198, R199). -/
def Fmt.rsqrt (f : Fmt) (a : Nat) : Nat × Flags :=
  match f.read a with
  | .nan s => (f.nan, flagIf s fNV)
  | .inf n => if n then (f.nan, fNV) else (0, 0)
  | .fin n m e =>
    if m = 0 then (f.inf n, fDZ)
    else if n then (f.nan, fNV)
    else
      let k := 2 * (f.fbits + 4) + Nat.log2 m
      let k := if (e + k) % 2 = 0 then k else k + 1
      let r := isqrt (2 ^ k / m)
      f.round .rne false (2 * r + (if r * r * m = 2 ^ k then 0 else 1)) (-((e + k) / 2) - 1)

/-! ### Bounds -/

/-- The rounding of a value known to lie strictly between lo × 2^e and hi × 2^e, where both ends round alike. -/
def boundRound (f : Fmt) (neg : Bool) (lo hi : Nat) (e : Int) : Option (Nat × Flags) :=
  let x := f.round .rne neg (2 * lo + 1) (e - 1)
  let y := f.round .rne neg (2 * hi - 1) (e - 1)
  if x = y then some x else none

/-- Double the precision until the bounds round alike, at most `fuel` times. `g p` approximates the magnitude in units
of 2^e to within `err` units. -/
def refine (f : Fmt) (neg : Bool) (err : Nat) (g : Nat → Nat × Int) : Nat → Nat → Nat × Flags
  | 0, p => f.round .rne neg (2 * (g p).1 + 1) ((g p).2 - 1)
  | fuel + 1, p =>
    let (a, e) := g p
    match boundRound f neg (a - err) (a + err) e with
    | some r => r
    | none => refine f neg err g fuel (2 * p)

/-- The correctly rounded value that `g` approximates. -/
def rounded (f : Fmt) (neg : Bool) (g : Nat → Nat × Int) : Nat × Flags := refine f neg (2 ^ 24) g 3 320

/-- ln 2 in units of 2^−p, to within p units. -/
def ln2Fix (p : Nat) : Nat := (List.range p).foldl (fun s k => s + 2 ^ p / ((k + 1) * 2 ^ (k + 1))) 0

/-- The Taylor sum of e^t, t in units of 2^−p and below 1. -/
def expSum (p t : Nat) : Nat → Nat → Nat → Nat → Nat
  | 0, _, _, acc => acc
  | fuel + 1, n, term, acc =>
    if term = 0 then acc else expSum p t fuel (n + 1) (term * t / 2 ^ p / (n + 1)) (acc + term)

/-- e^t in units of 2^−p. -/
def expFix (p t : Nat) : Nat := expSum p t p 0 (2 ^ p) 0

/-- The sum of an alternating series whose terms are multiplied by `x2` (units of 2^−p) and divided by two rising
factors: sin t = t − t³/3! + … -/
def sinSum (p x2 : Nat) : Nat → Nat → Nat → Bool → Int → Int
  | 0, _, _, _, acc => acc
  | fuel + 1, n, term, minus, acc =>
    if term = 0 then acc
    else sinSum p x2 fuel (n + 2) (term * x2 / 2 ^ p / ((n + 1) * (n + 2))) (!minus)
      (if minus then acc - term else acc + term)

/-- sin t for t in units of 2^−p. -/
def sinFix (p t : Nat) : Nat := (sinSum p (t * t / 2 ^ p) p 1 t false 0).toNat

/-- arctan(1/n) in units of 2^−p. -/
def atanInv (p n : Nat) : Nat → Nat → Nat → Bool → Int → Int
  | 0, _, _, _, acc => acc
  | fuel + 1, k, pw, minus, acc =>
    if pw = 0 then acc
    else atanInv p n fuel (k + 2) (pw / (n * n)) (!minus) (if minus then acc - (pw / k : Nat) else acc + (pw / k : Nat))

/-- π in units of 2^−p: 16 arctan(1/5) − 4 arctan(1/239). -/
def piFix (p : Nat) : Nat :=
  (16 * atanInv p 5 p 1 (2 ^ p / 5) false 0 - 4 * atanInv p 239 p 1 (2 ^ p / 239) false 0).toNat

/-- artanh z for z in units of 2^−p. -/
def atanhSum (p z2 : Nat) : Nat → Nat → Nat → Nat → Nat
  | 0, _, _, acc => acc
  | fuel + 1, k, pw, acc => if pw = 0 then acc else atanhSum p z2 fuel (k + 2) (pw * z2 / 2 ^ p) (acc + pw / k)

/-! ### The functions in FP32 -/

/-- 2^x for a finite value that is no integer: with x = i + t, 2^i × e^(t ln 2). -/
def exp2Approx (neg : Bool) (m : Nat) (e : Int) (p : Nat) : Nat × Int :=
  let k := (-e).toNat
  let v : Int := if neg then -(m : Int) else m
  let i := v / 2 ^ k
  let t := (v % 2 ^ k).toNat
  (expFix p (t * ln2Fix p / 2 ^ k), i - p)

/-- FEXP2 (R198, R199). -/
def fexp2 (a : Nat) : Nat × Flags :=
  match fp32.read a with
  | .nan s => (fp32.nan, flagIf s fNV)
  | .inf n => (if n then 0 else fp32.inf false, 0)
  | .fin n m e =>
    if m = 0 then fp32.ofInt .rne 1
    else
      let whole := (toInteger .rz n m e).2
      if numLess (.fin n m e) (.fin true 300 0) then fp32.round .rne false 1 (-400)
      else if numLess (.fin false 300 0) (.fin n m e) then fp32.round .rne false 1 400
      else if whole then fp32.round .rne false 1 (toInteger .rz n m e).1
      else rounded fp32 false (exp2Approx n m e)

/-- |log2 x| for x = m × 2^e that is no power of two, and whether it is negative. -/
def log2Approx (m : Nat) (e : Int) (p : Nat) : Int :=
  let l := Nat.log2 m
  let up := decide (2 * m > 3 * 2 ^ l)           -- significand above 3/2: halve it
  let base : Nat := if up then 2 ^ (l + 1) else 2 ^ l
  let n : Int := e + l + (if up then 1 else 0)
  let num : Int := (m : Int) - base
  let z : Nat := num.natAbs * 2 ^ p / (m + base)
  let ln : Nat := 2 * atanhSum p (z * z / 2 ^ p) p 1 z 0
  let lg : Int := ((ln * 2 ^ p / ln2Fix p : Nat) : Int)
  n * 2 ^ p + (if num < 0 then -lg else lg)

/-- FLOG2 (R198, R199). -/
def flog2 (a : Nat) : Nat × Flags :=
  match fp32.read a with
  | .nan s => (fp32.nan, flagIf s fNV)
  | .inf n => if n then (fp32.nan, fNV) else (fp32.inf false, 0)
  | .fin n m e =>
    if m = 0 then (fp32.inf true, fDZ)
    else if n then (fp32.nan, fNV)
    else if m = 2 ^ Nat.log2 m then fp32.ofInt .rne (e + Nat.log2 m)
    else
      rounded fp32 (decide (log2Approx m e 64 < 0)) fun p => ((log2Approx m e p).natAbs, -(p : Int))

/-- sin(π num ÷ 2^k) for a fraction strictly between 0 and 1/2. -/
def sinPiApprox (num k p : Nat) : Nat × Int := (sinFix p (piFix p * num / 2 ^ k), -(p : Int))

/-- ±1 in FP32. -/
def one32 (neg : Bool) : Nat × Flags := (fp32.signed neg 0x3F800000, 0)

/-- FSINP: sin(πx) (R198, R199). -/
def fsinp (a : Nat) : Nat × Flags :=
  match fp32.read a with
  | .nan s => (fp32.nan, flagIf s fNV)
  | .inf _ => (fp32.nan, fNV)
  | .fin n m e =>
    if m = 0 || (toInteger .rz n m e).2 then (fp32.signed n 0, 0)
    else
      let k := (-e).toNat
      let r := m % 2 ^ (k + 1)                    -- |x| mod 2, in units of 2^−k
      let flip := decide (r ≥ 2 ^ k)
      let r := if flip then r - 2 ^ k else r
      let r := if 2 * r > 2 ^ k then 2 ^ k - r else r
      if 2 * r = 2 ^ k then one32 (n != flip) else rounded fp32 (n != flip) (sinPiApprox r k)

/-- FCOSP: cos(πx) (R198, R199). -/
def fcosp (a : Nat) : Nat × Flags :=
  match fp32.read a with
  | .nan s => (fp32.nan, flagIf s fNV)
  | .inf _ => (fp32.nan, fNV)
  | .fin n m e =>
    if m = 0 then one32 false
    else if (toInteger .rz n m e).2 then one32 ((toInteger .rz n m e).1 % 2 != 0)
    else
      let k := (-e).toNat
      let r := m % 2 ^ (k + 1)
      let r := if r > 2 ^ k then 2 ^ (k + 1) - r else r
      let neg := decide (2 * r > 2 ^ k)
      let r := if neg then 2 ^ k - r else r
      if 2 * r = 2 ^ k then (0, 0)
      else rounded fp32 neg (sinPiApprox (2 ^ k - 2 * r) (k + 1))

/-- e^d for an exact finite d ≤ 0: with d = n ln 2 + t, 2^n × e^t. -/
def expApprox (m : Nat) (e : Int) (p : Nat) : Nat × Int :=
  let sh := e + p
  let d : Int := -(if 0 ≤ sh then (m * 2 ^ sh.toNat : Nat) else (m / 2 ^ (-sh).toNat : Nat) : Int)
  let l : Int := ln2Fix p
  (expFix p (d % l).toNat, d / l - p)

/-- E(d) of R205: e^d of an exact difference d ≤ 0, rounded to FP32; E(−inf) = +0. -/
def expOf (d : Num) : Nat × Flags :=
  match d with
  | .fin n m e =>
    if m = 0 then one32 false
    else if numLess (.fin n m e) (.fin true 300 0) then fp32.round .rne false 1 (-400)
    else rounded fp32 false (expApprox m e)
  | _ => (0, 0)

/-! ### FRCPV and FSMX -/

/-- A threshold is usable: zero or normal (R204). -/
def Fmt.tauOk (f : Fmt) (t : Nat) : Bool :=
  match f.read t with
  | .fin _ m _ => m == 0 || decide (m ≥ 2 ^ f.fbits)
  | _ => false

/-- FRCPV: the result, its flags, and the predicate (R204). -/
def Fmt.rcpGuarded (f : Fmt) (p t : Nat) : Nat × Flags × Bool :=
  let tau := t % 2 ^ (f.ebits + f.fbits)
  let x := f.read p
  if x.isNan then (f.nan, snanFlag [x], true)
  else if tau = 0 then
    let (r, fl) := f.rcp p
    (r, fl, x.isZero)
  else if !(numLess (f.read (p % 2 ^ (f.ebits + f.fbits))) (f.read tau)) then
    let (r, fl) := f.rcp p
    (r, fl, false)
  else
    let (r, fl) := f.rcp (f.signed x.neg tau)
    (r, fl, true)

/-- FSMX: the next state (m′, s′) and the flags, from a state and a score (R205; for an infinite s scaled by +0, log entry 153). -/
def softmaxStep (m s x : Nat) : Nat × Nat × Flags :=
  let vm := fp32.read m
  let vs := fp32.read s
  let vx := fp32.read x
  if vm.isNan || vs.isNan || vx.isNan then (fp32.nan, fp32.nan, snanFlag [vm, vs, vx])
  else
    let m' := (fp32.select true m x).1
    let vm' := fp32.read m'
    let diff (y : Num) : Num := match y with
      | .inf _ => .inf true
      | _ => (addNum .rne y vm'.negate).getD (.fin false 0 0)
    let (a, fa) : Nat × Flags :=
      if numEq vm vm' then (s, 0)
      else if vm == .inf true || vm' == .inf false then (0, 0)
      else
        let (x1, f1) := expOf (diff vm)
        let (x2, f2) := fp32.mul .rne s x1
        (x2, f1 ||| f2)
    let (b, fb) : Nat × Flags :=
      if vx == .inf true then (0, 0)
      else if vx == .inf false then one32 false
      else if vm' == .inf false then (0, 0)
      else expOf (diff vx)
    let (r, fr) := fp32.add .rne a b
    (m', r, fa ||| fb ||| fr)

/-! ### Quantisation (R202, R203) -/

/-- The per-tensor scale is a positive finite non-zero FP32 value (R203). -/
def tensorScaleOk (t : Nat) : Bool :=
  match fp32.read t with
  | .fin n m _ => !n && m != 0
  | _ => false

/-- A quotient of two FP32 values, the divisor positive and finite, rounded once to a format. -/
def divRound (f : Fmt) (a : Num) (b : Num) : Nat × Flags :=
  match a, b with
  | .fin n m e, .fin _ k g => if m = 0 then (f.signed n 0, 0) else f.roundRat .rne n m k (e - g)
  | x, _ => f.write .rne x

/-- The smallest positive E4M3 encoding whose value is at least y ÷ maxfinite, for a positive finite y. -/
def scaleFor (y : Num) (maxfinite : Nat) : Nat :=
  ((List.range 0x7F).find? fun c => c != 0 && (match mulNum (e4m3.read c) (.fin false maxfinite 0) with
    | some v => !(numLess v y)
    | none => false)).getD 0x7E

/-- One block quantised: the elements, the block scale, and the flags (R202). The target is E4M3 or E5M2. -/
def quantise (e5 : Bool) (t : Nat) (xs : List Nat) : List Nat × Nat × Flags :=
  let f := if e5 then e5m2 else e4m3
  let maxfinite := if e5 then 57344 else 448
  let vt := fp32.read t
  let ys := xs.map fun x => let r := divRound fp32 (fp32.read x) vt; (r.1, r.2 ||| snanFlag [fp32.read x])
  let f1 := ys.foldl (fun s y => s ||| y.2) 0
  let amax := ys.foldl (fun m y => (fp32.select true m (y.1 % 2 ^ 31)).1) 0
  if ys.any fun y => (fp32.read y.1).isNan then (xs.map fun _ => f.nan, 0x7F, f1)
  else
    let va := fp32.read amax
    let big := va.isInf || numLess (.fin false (448 * maxfinite) 0) va
    let s := if va.isZero then 0x38 else if big then 0x7E else scaleFor va maxfinite
    let qs := ys.map fun y =>
      let v := fp32.read y.1
      let lim := f.signed v.neg (if e5 then 0x7B else 0x7E)
      if v.isInf then (lim, if e5 then fOF else fOF ||| fNX)
      else
        let (q, fl) := divRound f v (e4m3.read s)
        if (f.read q).isInf || (fl &&& fOF) != 0 then (lim, fl ||| fOF) else (q, fl)
    (qs.map (·.1), s, f1 ||| flagIf big fOF ||| qs.foldl (fun a q => a ||| q.2) 0)

end Sys2Proof.Machine
end

