-- ==== Sys2Proof/Machine/Lanes.lean ====
section
/-!
DEFINITION. Group 4: lanes, predicates and chains (R272–R278).
-/
namespace Sys2Proof.Machine

/-- Write a value of one or two registers in each executing lane. -/
def Wave.writeLanes (w : Wave) (d : Operand) (regs : Nat) (f : Nat → W64) (m : W32) : Wave :=
  (lanesOf m).foldl (fun w l => w.writeLane d regs l (f l)) w

/-- What the lanes of SHFL have in A before any lane is written, where D overlaps A: a lane that executes again at a fault
still reads it (R133). Kept with the pop-retry values, at 32 plus the lane. -/
def State.shuffleKept (s : State) (e : Env) (w64 : Bool) (d a : Operand) (performed : W32) : Tab W64 :=
  if (operandRegs (regsOf w64) a).any fun r => (operandRegs (regsOf w64) d).contains r then
    (lanesOf performed).foldl (fun m l => Tab.put m (32 + l) (s.readInt e (regsOf w64) a l 0)) e.pops
  else e.pops

/-- SHFL (R272): every lane's value is taken before any lane is written. -/
def execShfl (h : Head) (mode : ShuffleMode) (w64 : Bool) (d a b : Operand) (s : State) : Host.Outcome State Fault Refusal :=
  s.runWord (.shfl h mode w64 d a b) h fun s e =>
    let i : Instr := .shfl h mode w64 d a b
    let source (j : Nat) : W64 := match (if e.exec.getLsbD j then none else Tab.find e.pops (32 + j)) with
      | some v => v
      | none => s.readInt e (regsOf w64) a j 0
    let value (l : Nat) : W64 := source (s.shuffleFrom e mode b l)
    let put (m : W32) : State := s.updWave e.n fun w => w.writeLanes d (regsOf w64) value m
    match s.badLane e i with
    | none => .done (put e.exec)
    | some k =>
      let m := e.exec &&& ~~~(fromLane e.exec k)
      .trap (put m) { s.registerStop e i k 0 none with pops := s.shuffleKept e w64 d a m }

/-- The executing lanes that hold a predicate, as a mask. -/
def Env.holders (e : Env) (a : Operand) : W32 := maskOf ((lanesOf e.exec).filter fun l => e.w.readPred a l)

/-- Write one value to a V, O or S destination: in each executing lane, or once (R273, R278). -/
def State.writeOnce (s : State) (e : Env) (d : Operand) (regs : Nat) (x : W64) : State :=
  if e.runs then s.updWave e.n fun w => (w.writeS d x).writeLanes d regs (fun _ => x) e.exec else s

/-- VOTE.quorum (R273). -/
def execVoteQuorum (h : Head) (d a b : Operand) (s : State) : Host.Outcome State Fault Refusal :=
  s.runWord (.voteQuorum h d a b) h fun s e =>
    let n := (s.uni e b).toNat
    if e.runs && decide (n > 32) then e.illegal s
    else .done (s.updWave e.n fun w => w.writePreds d e.exec (decide (n ≤ popc (e.holders a))))

/-- VOTE.count (R273). -/
def execVoteCount (h : Head) (d a : Operand) (s : State) : Host.Outcome State Fault Refusal :=
  s.runWord (.voteCount h d a) h fun s e => .done (s.writeOnce e d 1 (BitVec.ofNat 64 (popc (e.holders a))))

/-- VOTE.mask (R273). -/
def execVoteMask (h : Head) (d a : Operand) (s : State) : Host.Outcome State Fault Refusal :=
  s.runWord (.voteMask h d a) h fun s e => .done (s.writeOnce e d 1 ((e.holders a).setWidth 64))

/-- VOTE.same (R273): answered from the values (R106). -/
def execVoteSame (h : Head) (w64 : Bool) (d a : Operand) (s : State) : Host.Outcome State Fault Refusal :=
  s.runWord (.voteSame h w64 d a) h fun s e =>
    let v (l : Nat) : W64 := s.readInt e (regsOf w64) a l 0
    let same := (lanesOf e.exec).all fun l => v l == v e.firstExec
    .done (s.updWave e.n fun w => w.writePreds d e.exec same)

/-- MATCH (R274): the lowest executing lane that holds the same value. -/
def execMatchLanes (h : Head) (w64 : Bool) (d a : Operand) (s : State) : Host.Outcome State Fault Refusal :=
  s.runWord (.matchLanes h w64 d a) h fun s e =>
    let v (l : Nat) : W64 := s.readInt e (regsOf w64) a l 0
    let leader (l : Nat) : W64 := BitVec.ofNat 64 (((lanesOf e.exec).find? fun j => v j == v l).getD l)
    .done (s.updWave e.n fun w => w.writeLanes d 1 leader e.exec)

/-- A predicate operator of PLOP (R275). -/
def PredOp.apply (op : PredOp) (x y : Bool) : Bool :=
  match op with
  | .and => x && y
  | .or => x || y
  | .xor => x != y
  | .andn => x && !y

/-- PLOP (R275). -/
def execPlop (h : Head) (op1 op2 : PredOp) (neg : Bool) (d a b c : Operand) (s : State) : Host.Outcome State Fault Refusal :=
  s.runWord (.plop h op1 op2 neg d a b c) h fun s e =>
    s.lanePred e (.plop h op1 op2 neg d a b c) d fun l =>
      (PredOp.apply op2 (PredOp.apply op1 (e.w.readPred a l) (e.w.readPred b l)) (e.w.readPred c l) != neg, 0)

/-- PMOV (R275). -/
def execPmov (h : Head) (fromPred : Bool) (d a : Operand) (s : State) : Host.Outcome State Fault Refusal :=
  s.runWord (.pmov h fromPred d a) h fun s e =>
    if fromPred then s.laneOp e (.pmov h fromPred d a) d 1 fun l _ => (if e.w.readPred a l then 1 else 0, 0)
    else s.lanePred e (.pmov h fromPred d a) d fun l => (s.read32 e a l 0 != 0, 0)

/-- ELECT (R275). -/
def execElect (h : Head) (d : Operand) (s : State) : Host.Outcome State Fault Refusal :=
  s.runWord (.elect h d) h fun s e =>
    .done (s.updWave e.n fun w => (lanesOf e.exec).foldl (fun w l => w.writePred d l (l == (lowest e.mask).getD 0)) w)

/-! ### Chains -/

/-- Following predecessor links from a wave index reaches the wave `goal` (R127). -/
def State.linkReaches (s : State) (t : Team) (slot goal i : Nat) : Nat → Bool
  | 0 => false
  | fuel + 1 =>
    match (s.waveWithIndex t i).bind fun x => (x.2.chain slot).link with
    | none => false
    | some p => p == goal || State.linkReaches s t slot goal p fuel

/-- The tail reached from a wave index by successor links (R277). -/
def State.tailFrom (s : State) (t : Team) (slot i : Nat) : Nat → Nat
  | 0 => i
  | fuel + 1 =>
    match s.successor t slot i with
    | some (_, x) => State.tailFrom s t slot x.index fuel
    | none => i

/-- Set the executing wave's link on a slot. -/
def State.setLink (s : State) (n slot : Nat) (link : Option Nat) : State :=
  s.updWave n fun w => { w with chains := Tab.put w.chains slot { w.chain slot with link := link } }

/-- CHSEED (R276): a member of a closed ring appends to its own queue, any other wave sets its seed. -/
def execChseed (h : Head) (slot : BitVec 2) (a : Operand) (s : State) : Host.Outcome State Fault Refusal :=
  s.runWord (.chseed h slot a) h fun s e =>
    if !e.runs then .done s
    else
      let c := slot.toNat
      let v := s.uni e a
      let x := e.w.chain c
      let put (y : ChainSlot) : State := s.updWave e.n fun w => { w with chains := Tab.put w.chains c y }
      match s.teamOf e.w with
      | none => .done (put { x with seed := v })
      | some t =>
        if s.linkReaches t c e.w.index e.w.index 32 then
          if x.queue.length < 4 then .done (put { x with queue := x.queue ++ [v] }) else .wait (.seedFull c)
        else .done (put { x with seed := v })

/-- CHLINK (R277). -/
def execChlink (h : Head) (slot : BitVec 2) (ring : Bool) (a : Operand) (s : State) : Host.Outcome State Fault Refusal :=
  s.runWord (.chlink h slot ring a) h fun s e =>
    if !e.runs then .done s
    else
      let c := slot.toNat
      match s.teamOf e.w with
      | none => e.illegal s
      | some t =>
        if ring then
          if (e.w.chain c).link.isSome then e.illegal s
          else .done (s.setLink e.n c (some (s.tailFrom t c e.w.index 32)))
        else
          let p := (s.uni e a).toInt
          if p = -1 then .done (s.setLink e.n c none)
          else if p < 0 then e.illegal s
          else
            match s.waveWithIndex t p.toNat with
            | none => e.illegal s
            | some _ =>
              match s.successor t c p.toNat with
              | some (m, _) => if m = e.n then .done s else e.illegal s
              | none => .done (s.setLink e.n c (some p.toNat))

/-- CHOUT (R278). -/
def execChout (h : Head) (slot : BitVec 2) (d : Operand) (s : State) : Host.Outcome State Fault Refusal :=
  s.runWord (.chout h slot d) h fun s e => .done (s.writeOnce e d 2 (e.w.chain slot.toNat).out)

end Sys2Proof.Machine
end

