-- ==== Sys2Proof/Machine/Copies.lean ====
section
/-!
DEFINITION. Group 8: copies, publishing and copy channels (R170–R175, R323–R332), and the events by which a copy and a
publish complete.
-/
namespace Sys2Proof.Machine

/-! ### Descriptors and layouts (R324, R325) -/

/-- A copy format descriptor in 32 bytes, where its reserved values are kept (R324); the limits that depend on the
instruction are checked apart. -/
def copyDescOf (b : List Byte) : Option CopyDesc :=
  let d : CopyDesc :=
    { format := leAt b 0 1, qmode := leAt b 1 1 % 16, barrier := if leAt b 2 2 = 0xFFFF then none else some (leAt b 2 2),
      rows := leAt b 4 4, rowb := leAt b 8 4, growb := leAt b 12 4, gstride := leAt b 16 8,
      scoff := BitVec.ofNat 64 (leAt b 24 8) }
  if d.format > 8 || leAt b 1 1 ≥ 16 || d.qmode > 2 || (leAt b 2 2 > 1023 && leAt b 2 2 ≠ 0xFFFF) ||
     d.rows < 1 || d.rows > 65535 || d.rowb < 1 || d.rowb > 2 ^ 20 then none
  else some d

/-- The copy moves canonical tiles. -/
def CopyDesc.tiled (d : CopyDesc) : Bool := d.format != 0
/-- The format carries block scales in its storage form. -/
def CopyDesc.scaled (d : CopyDesc) : Bool := d.format == 5 || d.format == 6
/-- Row blocks of 32 rows. -/
def CopyDesc.nrb (d : CopyDesc) : Nat := (d.rows + 31) / 32
/-- Column blocks of 64 bytes. -/
def CopyDesc.ncb (d : CopyDesc) : Nat := d.rowb / 64
/-- Tiles. -/
def CopyDesc.tiles (d : CopyDesc) : Nat := d.nrb * d.ncb

/-- Element bytes of formats 1 to 4 (R325). -/
def CopyDesc.elem (d : CopyDesc) : Nat :=
  match d.format with
  | 1 => 8 | 2 => 4 | 3 | 4 => 2 | _ => 1

/-- The copy writes global memory. -/
def CopyKind.out : CopyKind → Bool
  | .cpout | .cpsh => true
  | _ => false

/-- The descriptor limits that the instruction fixes (R324, R327–R330). -/
def CopyDesc.okFor (d : CopyDesc) (k : CopyKind) : Bool :=
  (if d.tiled then d.rowb % 64 == 0 else true) &&
  (match k with
   | .cpgath => d.format == 0 && decide (1 ≤ d.growb) && decide (d.growb ≤ d.rowb)
   | .cppeer => d.format == 0 && d.growb == 0
   | _ => d.growb == 0) &&
  (match k with
   | .cpout => d.qmode == 0 || (d.format == 2 && d.rowb % 128 == 0)
   | _ => d.qmode == 0) &&
  (!k.out || decide (d.rowb ≤ d.gstride)) &&
  (d.scaled || d.qmode != 0 || d.scoff == 0)

/-- Scratchpad bytes the copy spans from its offset (R325, R329, R330). -/
def CopyDesc.extent (d : CopyDesc) (k : CopyKind) : Nat :=
  match k with
  | .cpgath => (d.rows - 1) * d.rowb + d.growb
  | _ => if d.tiled then d.tiles * (if d.scaled then 2112 else 2048) else d.rows * d.rowb

/-- Bytes of one row in the global form. -/
def CopyDesc.globalRow (d : CopyDesc) (k : CopyKind) : Nat :=
  match k with
  | .cpgath => d.growb
  | _ => if d.qmode = 0 then d.rowb else d.rowb / 4

/-- Block scales of one row in the global form (R325, R328). -/
def CopyDesc.scaleRow (d : CopyDesc) : Nat := if d.qmode ≠ 0 then d.rowb / 128 else if d.scaled then d.rowb / 32 else 0

/-- The destination bytes of a copy, for each destination (R327, R329, R330). -/
def CopyDesc.total (d : CopyDesc) (k : CopyKind) : Nat :=
  match k with
  | .cpin | .cppeer => d.extent k
  | .cpgath => d.rows * d.growb
  | .cpout | .cpsh => d.rows * (d.globalRow k + d.scaleRow)

/-- The scratchpad place of byte `b` of row `i` (R325). -/
def CopyDesc.place (d : CopyDesc) (i b : Nat) : Nat :=
  if d.tiled then 2048 * (i / 32 * d.ncb + b / 64) + 64 * (i % 32) + b % 64 else i * d.rowb + b

/-- The scratchpad place of scale `k` of row `i` (R325). -/
def CopyDesc.scalePlace (d : CopyDesc) (i k : Nat) : Nat :=
  2048 * d.tiles + 64 * (i / 32 * d.ncb + k / 2) + 2 * (i % 32) + k % 2

/-- The 8 plane words of 64 INT8 elements, plane 0 the sign (R191): byte `q` of the word of plane `p`. -/
def planeByte (xs : Nat → Byte) (p q : Nat) : Byte :=
  BitVec.ofNat 8 ((List.range 8).foldl (fun n k => n + ((xs (8 * q + k)).getLsbD (7 - p)).toNat * 2 ^ k) 0)

/-- Element `j` of a row from its plane words. -/
def planeElement (byte : Nat → Nat → Byte) (j : Nat) : Byte :=
  BitVec.ofNat 8 ((List.range 8).foldl (fun n p => n + ((byte p (j / 8)).getLsbD (j % 8)).toNat * 2 ^ (7 - p)) 0)

/-- The scratchpad image a copy writes from the row-major source bytes, rows first and then scales (R325). -/
def CopyDesc.image (d : CopyDesc) (src : Array Byte) : List Byte :=
  let row (i b : Nat) : Byte := if i < d.rows then src.getD (i * d.rowb + b) 0 else 0
  if !d.tiled then src.toList
  else
    let tile (t o : Nat) : Byte :=
      let rb := t / d.ncb
      let cb := t % d.ncb
      if d.format = 7 then planeByte (fun k => row (32 * rb + o % 256 / 8) (64 * cb + k)) (o / 256) (o % 8)
      else row (32 * rb + o / 64) (64 * cb + o % 64)
    let side (t o : Nat) : Byte :=
      let i := 32 * (t / d.ncb) + o / 2
      if i < d.rows then src.getD (d.rows * d.rowb + i * d.scaleRow + 2 * (t % d.ncb) + o % 2) 0 else 0x38
    (List.range d.tiles).flatMap (fun t => (List.range 2048).map (tile t)) ++
    (if d.scaled then (List.range d.tiles).flatMap fun t => (List.range 64).map (side t) else [])

/-- Row `i` in the global form from the scratchpad image (R325). -/
def CopyDesc.rowOut (d : CopyDesc) (img : Array Byte) (i : Nat) : List Byte :=
  (List.range d.rowb).map fun b =>
    if d.format = 7 then
      let base := 2048 * (i / 32 * d.ncb + b / 64) + 8 * (i % 32)
      planeElement (fun p q => img.getD (base + 256 * p + q) 0) (b % 64)
    else img.getD (d.place i b) 0

/-- The scales of row `i` in the global form from the scratchpad image. -/
def CopyDesc.scalesOut (d : CopyDesc) (img : Array Byte) (i : Nat) : List Byte :=
  if d.scaled then (List.range d.scaleRow).map fun k => img.getD (d.scalePlace i k) 0 else []

/-- Row `i` quantised: its bytes, its scales and its flags (R202, R328). -/
def CopyDesc.quantRow (d : CopyDesc) (img : Array Byte) (scale : W32) (i : Nat) : List Byte × List Byte × Flags :=
  let word (k : Nat) : Nat := ofLe ((List.range 4).map fun j => img.getD (d.place i (4 * k + j)) 0)
  (List.range d.scaleRow).foldl (fun acc blk =>
    let (qs, s, f) := quantise (d.qmode == 2) scale.toNat ((List.range 32).map fun k => word (32 * blk + k))
    (acc.1 ++ qs.map (BitVec.ofNat 8), acc.2.1 ++ [BitVec.ofNat 8 s], acc.2.2 ||| f)) ([], [], 0)

/-! ### Pieces (R169) -/

/-- The size of the largest naturally aligned piece of up to 16 bytes at an address, of at most `n` bytes. -/
def pieceSize (a n : Nat) : Nat :=
  if a % 16 = 0 && n ≥ 16 then 16
  else if a % 8 = 0 && n ≥ 8 then 8
  else if a % 4 = 0 && n ≥ 4 then 4
  else if a % 2 = 0 && n ≥ 2 then 2
  else 1

/-- A run of bytes as naturally aligned pieces, in ascending address. -/
def piecesOf (a n : Nat) : Nat → List (Nat × Nat)
  | 0 => []
  | fuel + 1 => if n = 0 then [] else (a, pieceSize a n) :: piecesOf (a + pieceSize a n) (n - pieceSize a n) fuel

/-- Bytes at an address as naturally aligned pieces. -/
def dataPieces (a : Nat) (data : List Byte) : List (Nat × List Byte) :=
  (piecesOf a data.length data.length).foldl (fun acc x => (acc.1 ++ [(x.1, acc.2.take x.2)], acc.2.drop x.2)) ([], data) |>.1

/-! ### Issue (R323, R326) -/

/-- Add an engine operation, or buffer it for the bell in round mode (R185). Its token becomes busy; a channel's write
pointer starts at zero (R171). -/
def State.addEngine (s : State) (x : Engine) : State :=
  let s := s.updWave x.wave fun w =>
    let busy := match x.token with
      | some t => w.busy ||| (1#8 <<< t)
      | none => w.busy
    let wp := match x.channel with
      | some c => Tab.setD w.wp 0 c 0
      | none => w.wp
    { w with busy := busy, wp := wp }
  match s.wave? x.wave with
  | none => s
  | some w =>
    if s.isRound w && !s.atBell then s.buffered x.wave (.engine x)
    else
      let (id, s) := s.newId
      { s with engines := Tab.put s.engines id x }

/-- A fault a copy meets at issue: cause, address and space (R312, R326). -/
structure CopyFault where
  cause : Nat
  addr : Nat
  space : Nat
  write : Bool
  deriving DecidableEq, Repr

/-- The trap of a fault at issue. -/
def CopyFault.res (f : CopyFault) (s : State) (e : Env) : Res :=
  .trap s (e.onceFault f.cause (BitVec.ofNat 64 f.addr) 16 (if f.write then AccKind.store.code else AccKind.load.code)
    f.space)

/-- Some byte of a run lies in the control area's protected part (R152). -/
def hitsControl (off n : Nat) : Bool := n != 0 && decide (off < 0x1000) && decide (off + n > 0x800)

/-- The window side of a copy checked at issue: alignment, range, control area. -/
def windowFault (d : CopyDesc) (k : CopyKind) (size off space : Nat) (write : Bool) : Option CopyFault :=
  let n := d.extent k
  let f (c : Nat) : Option CopyFault := some { cause := c, addr := off, space := space, write := write }
  let hit := match k with
    | .cpgath => (List.range d.rows).any fun j => hitsControl (off + j * d.rowb) d.growb
    | _ => hitsControl off n
  if d.tiled && off % 2048 ≠ 0 then f 0x10
  else if off + n > size then f 0x11
  else if write && hit then f 0x12
  else none

/-- The global side of a copy checked at issue: canonical, then aligned (R325, R326). -/
def globalFault (d : CopyDesc) (k : CopyKind) (g : Nat) : Option CopyFault :=
  let f (c a : Nat) : Option CopyFault := some { cause := c, addr := a, space := 0, write := k.out }
  let sg : Int := (g : Int) + d.scoff.toInt
  if k = .cppeer then none
  else if k = .cpgath then (if g ≥ 2 ^ 56 then f 0x13 g else none)
  else if g + (d.rows - 1) * d.gstride + d.globalRow k > 2 ^ 56 then f 0x13 g
  else if d.scaleRow ≠ 0 && (sg < 0 || sg + d.rows * d.scaleRow > 2 ^ 56) then f 0x13 g
  else if g % d.elem ≠ 0 || d.gstride % d.elem ≠ 0 then f 0x10 g
  else none

/-- The shadow set that holds every destination byte of a CPSH (R327). -/
def Owner.setOf (o : Owner) (d : CopyDesc) (g : Nat) : Option Nat :=
  let inSet (s : ShadowSet) (a n : Nat) : Bool := decide (s.va ≤ a) && decide (a + n ≤ s.va + s.pages * 2 ^ 16)
  (o.sets.find? fun x => (List.range d.rows).all fun i =>
    inSet x.2 (g + i * d.gstride) d.rowb &&
    (d.scaleRow == 0 || inSet x.2 ((g : Int) + d.scoff.toInt).toNat (d.rows * d.scaleRow))).map (·.1)

/-- The operands of a copy as its issue reads them. -/
structure CopyArgs where
  kind : CopyKind
  g : Nat
  s : Nat
  dest : Nat
  mask : Nat
  quant : Option W32       -- the per-tensor scale, where the operand names one
  index : IndexSource

/-- Issue a copy: read its descriptor, check, mark its token busy (R323). -/
def State.issueCopy (s : State) (e : Env) (tok : BitVec 3) (ch : BitVec 2) (c : Operand) (x : CopyArgs) : Res :=
  if !e.runs then .done s
  else
    match s.teamOf e.w, s.owner? e.w.owner with
    | some t, some o =>
      let k := (s.uni e c).toNat
      if k > 63 then e.illegal s
      else if s.badWindow t (32 * k) 32 then
        .trap s (e.onceFault 0x20 (BitVec.ofNat 64 (32 * k)) 16 AccKind.load.code 1)
      else
        match copyDescOf (s.windowBytes (s.viewOf e.w).buf e.w.team t (32 * k) 32) with
        | none => e.illegal s
        | some d =>
          let quantOk := match x.kind with
            | .cpout => match x.quant with
              | some q => d.qmode != 0 && tensorScaleOk q.toNat
              | none => d.qmode == 0
            | _ => true
          let peers := ((List.range 8).filter fun p => x.mask.testBit p).map fun p => s.peerTeam e.w.team t p
          let lost := peers.any (·.isNone)
          let peerFault := peers.findSome? fun y => y.bind fun z => windowFault d x.kind z.2.windowSize x.dest 2 true
          let own := windowFault d x.kind t.windowSize x.s 1 (match x.kind with
            | .cpin | .cpgath => true
            | _ => false)
          let listFault : Option CopyFault := match x.kind, x.index with
            | .cpgath, .list a =>
              if a + 4 * d.rows > 2 ^ 56 then some { cause := 0x13, addr := a, space := 0, write := false }
              else if a % 4 ≠ 0 then some { cause := 0x10, addr := a, space := 0, write := false }
              else none
            | _, _ => none
          let set := match x.kind with
            | .cpsh => o.setOf d x.g
            | _ => some 0
          if !(d.okFor x.kind) || !quantOk || x.mask ≥ 256 then e.illegal s
          else
            match own with
            | some f => f.res s e
            | none =>
              if lost then CopyFault.res { cause := 0x11, addr := x.dest, space := 2, write := true } s e
              else
                match (peerFault.orElse fun _ => globalFault d x.kind x.g).orElse fun _ => listFault with
                | some f => f.res s e
                | none =>
                  match set with
                  | none => CopyFault.res { cause := 0x12, addr := x.g, space := 0, write := true } s e
                  | some sid =>
                    .done (s.addEngine
                      { wave := e.n, team := e.w.team, token := some tok.toNat, channel := some ch.toNat, pageWait := none,
                        op := .copy
                          { kind := x.kind, desc := d, g := x.g, s := x.s, dest := x.dest,
                            peers := peers.filterMap fun y => y.map fun z => (z.1, z.2.windowBase)
                            scale := x.quant.getD 0, index := x.index, set := sid, phase := 0, reads := [], got := [],
                            writes := [], written := 0, row := 0, cancelled := false, asked := none, answer := none } })
    | _, _ => e.illegal s

/-- CPIN (R327). -/
def execCpin (h : Head) (tok : BitVec 3) (ch : BitVec 2) (a b c : Operand) (s : State) :
    Host.Outcome State Fault Refusal :=
  s.runWord (.cpin h tok ch a b c) h fun s e => s.issueCopy e tok ch c
    { kind := .cpin, g := (s.uni e a).toNat, s := (s.uni e b).toNat, dest := 0, mask := 0, quant := none, index := .list 0 }

/-- CPOUT, plain or quantising (R327, R328). -/
def execCpout (h : Head) (tok : BitVec 3) (ch : BitVec 2) (d a b c : Operand) (s : State) :
    Host.Outcome State Fault Refusal :=
  s.runWord (.cpout h tok ch d a b c) h fun s e => s.issueCopy e tok ch c
    { kind := .cpout, g := (s.uni e a).toNat, s := (s.uni e b).toNat, dest := 0, mask := 0,
      quant := match d with
        | .zero => none
        | _ => some (lo32 (s.uni e d)),
      index := .list 0 }

/-- CPPEER (R330): A is the destination mask, B the source offset, D the destination offset. -/
def execCppeer (h : Head) (tok : BitVec 3) (ch : BitVec 2) (d a b c : Operand) (s : State) :
    Host.Outcome State Fault Refusal :=
  s.runWord (.cppeer h tok ch d a b c) h fun s e => s.issueCopy e tok ch c
    { kind := .cppeer, g := 0, s := (s.uni e b).toNat, dest := (s.uni e d).toNat, mask := (s.uni e a).toNat, quant := none,
      index := .list 0 }

/-- CPGATH (R329). -/
def execCpgath (h : Head) (tok : BitVec 3) (ch : BitVec 2) (d a b c : Operand) (s : State) :
    Host.Outcome State Fault Refusal :=
  s.runWord (.cpgath h tok ch d a b c) h fun s e => s.issueCopy e tok ch c
    { kind := .cpgath, g := (s.uni e a).toNat, s := (s.uni e b).toNat, dest := 0, mask := 0, quant := none,
      index := match d with
        | .q n => .queue n.toNat
        | _ => .list (s.uni e d).toNat }

/-- CPSH (R327). -/
def execCpsh (h : Head) (tok : BitVec 3) (ch : BitVec 2) (a b c : Operand) (s : State) :
    Host.Outcome State Fault Refusal :=
  s.runWord (.cpsh h tok ch a b c) h fun s e => s.issueCopy e tok ch c
    { kind := .cpsh, g := (s.uni e a).toNat, s := (s.uni e b).toNat, dest := 0, mask := 0, quant := none, index := .list 0 }

/-- PUB (R331). -/
def execPub (h : Head) (tok : BitVec 3) (a : Operand) (s : State) : Host.Outcome State Fault Refusal :=
  s.runWord (.pub h tok a) h fun s e =>
    if !e.runs then .done s
    else
      let id := (s.uni e a).toNat
      match (s.owner? e.w.owner).bind fun o => Tab.find o.sets id with
      | none => e.illegal s
      | some _ => .done (s.addEngine { wave := e.n, team := e.w.team, token := some tok.toNat, channel := none,
                                       op := .publish id, pageWait := none })

/-- CPWP (R332). -/
def execCpwp (h : Head) (ch : BitVec 2) (d : Operand) (s : State) : Host.Outcome State Fault Refusal :=
  s.runWord (.cpwp h ch d) h fun s e => .done (s.writeOnce e d 2 (Tab.getD e.w.wp ch.toNat 0))

/-! ### Completion (R172, R173, R219) -/

/-- The wave has an engine operation that names a token, issued or waiting for the bell. -/
def State.tokenNamed (s : State) (n tok : Nat) : Bool :=
  (s.engines.any fun x => x.2.wave == n && x.2.token == some tok) ||
  (match s.wave? n with
   | some w => w.buffer.any fun a => match a with
     | .engine x => x.token == some tok
     | _ => false
   | none => false)

/-- An engine operation completes: it is gone, its token completes where no other operation names it, and a failure
waits on the token (R219). -/
def State.engineDone (s : State) (id : Nat) (failed : Bool) : State :=
  match s.engine? id with
  | none => s
  | some x =>
    let s := { s with engines := Tab.drop s.engines id }
    let s := match x.token with
      | none => s
      | some t =>
        let more := s.tokenNamed x.wave t
        s.updWave x.wave fun w =>
          { w with busy := if more then w.busy else w.busy &&& ~~~(1#8 <<< t),
                   tokenErrors := if failed then w.tokenErrors ||| (1#8 <<< t) else w.tokenErrors }
    s.settleTeam x.team

/-- A copy arrives on a barrier of a team with its bytes; a lost arrival is told (R318, R326). -/
def State.copyArrive (s : State) (tid : Nat) (b : Nat) (bytes : Nat) (failed : Bool) : Bool × State :=
  match s.team? tid with
  | none => (false, s)
  | some t =>
    let x := t.barrier b
    if s.badParts.contains (.barrier tid b) then
      (false, ({ s with errorLog := s.errorLog ++ [ErrorPlace.part (.barrier tid b)] } : State).terminate tid 0x20)
    else if b < t.barCount && x.init then
      (true, s.updBarrier tid b fun y => ({ y with failed := y.failed || failed } : Barrier).arrive 0 bytes)
    else (false, s)

/-- The bytes each destination of a peer copy has received when `n` have been written in ascending position (R330). -/
def receivedAt (each n j : Nat) : Nat := min each (n - j * each)

/-- A copy ends: its arrivals, and then its token (R173, R219, R332). A cancelled copy counts only what it performed. -/
def State.endCopy (s : State) (id : Nat) (c : CopyOp) (failed cancelled : Bool) : State :=
  match s.engine? id with
  | none => s
  | some x =>
    let each := c.desc.total c.kind
    let (ok, s) := match c.desc.barrier, c.kind with
      | none, _ => (true, s)
      | some b, .cppeer => (List.range c.peers.length).foldl (fun (acc : Bool × State) j =>
          let n := if cancelled then receivedAt each c.written j else each
          let (ok, t) := acc.2.copyArrive (c.peers.getD j (0, 0)).1 b n failed
          (acc.1 && ok, t)) (true, s)
      | some b, _ => s.copyArrive x.team b (if cancelled then c.written else each) failed
    s.engineDone id (failed || !ok)

/-- Put a copy back after an event. -/
def State.setCopy (s : State) (id : Nat) (c : CopyOp) : State := s.updEngine id fun x => { x with op := .copy c }

/-- CPCAN (R332): every copy of the agent on the channel is cancelled. In round mode none is left to cancel. -/
def execCpcan (h : Head) (ch : BitVec 2) (s : State) : Host.Outcome State Fault Refusal :=
  s.runWord (.cpcan h ch) h fun s e =>
    if !e.runs || s.isRound e.w then .done s
    else
      .done (s.engines.foldl (fun t x => match x.2.op with
        | .copy c =>
          if x.2.wave == e.n && x.2.channel == some ch.toNat then
            -- a write under way at its home package is still performed (R170)
            if c.phase = 2 && c.asked.isSome then t.setCopy x.1 { c with cancelled := true, writes := c.writes.take 1 }
            else t.endCopy x.1 c false true
          else t
        | _ => t) s)

/-! ### A copy's events (R170) -/

/-- No earlier copy of the wave on the channel is under way (R170). -/
def State.headOfChannel (s : State) (id : Nat) (x : Engine) : Bool :=
  !(s.engines.any fun y => decide (y.1 < id) && y.2.wave == x.wave && y.2.channel == x.channel && x.channel.isSome)

/-- The copy is the channel's current one: no later one is issued (R171), nor waits for the bell. -/
def State.currentOnChannel (s : State) (id : Nat) (x : Engine) : Bool :=
  !(s.engines.any fun y => decide (id < y.1) && y.2.wave == x.wave && y.2.channel == x.channel) &&
  !((s.wave? x.wave).any fun w => w.buffer.any fun a => match a with
    | .engine y => y.channel == x.channel
    | _ => false)

/-- Count written bytes, and show them in the write pointer (R171). -/
def State.countWritten (s : State) (id : Nat) (x : Engine) (c : CopyOp) (n : Nat) : State :=
  let s := s.setCopy id { c with written := c.written + n }
  match x.channel with
  | some ch => if s.currentOnChannel id x then
      s.updWave x.wave fun w => { w with wp := Tab.setD w.wp 0 ch (BitVec.ofNat 64 (c.written + n)) }
    else s
  | none => s

/-- Send a copy's remote access (R33); none where the home package cannot be reached (R8, R34). -/
def State.sendCopy (s : State) (id owner home a : Nat) (op : RemoteOp) : Option (Nat × State) :=
  let die := ((s.engine? id).bind fun x => s.team? x.team).map fun t => dieOfCore t.core
  s.request die home (BitVec.ofNat 64 a) op
    { owner := owner, engine := some id, wave := 0, split := 0, lane := 0, posted := false, handler := false, launch := none,
      others := [] }

/-- What a copy's access of a global address comes to. -/
inductive Reach where
  | go (s : State)              -- the page is there
  | remote (home : Nat)
  | waits (s : State)           -- a page request waits (R52)
  | dead (s : State)            -- the team was terminated (R148 case 3)
  | fails                       -- an engine error (R326)

/-- Reach a global address for a copy: a missing translation is handled by R148 while the copy runs. -/
def State.reach (s : State) (id : Nat) (x : Engine) (owner a n : Nat) (k : AccKind) : Nat → Reach
  | 0 => .fails
  | fuel + 1 =>
    match s.owner? owner with
    | none => .fails
    | some o =>
      match o.checkGlobal a n k with
      | some 0x18 =>
        match s.resolvePage owner a with
        | .mapped t => State.reach t id x owner a n k fuel
        | .waits t =>
          let seq := match (t.wave? x.wave).bind t.launchOf with
            | some l => l.seq
            | none => 0
          .waits ((t.pageNotice owner a seq 0).updEngine id fun y => { y with pageWait := some a })
        | .fails => .dead (s.terminate x.team 0x18)
      | some _ => .fails
      | none =>
        match o.remoteAt a with
        | some home => .remote home
        | none => .go s

/-- An engine error ends the copy (R219). -/
def State.failCopy (s : State) (id : Nat) (c : CopyOp) : State := s.endCopy id c true false

/-- A copy that has met uncorrectable storage fails, and the storage is logged (R218, R219). -/
def State.failAt (s : State) (id : Nat) (c : CopyOp) (places : List ErrorPlace) : State :=
  ({ s with errorLog := s.errorLog ++ places } : State).failCopy id c

/-- Read the pieces of a copy's source, as far as they can be read (R170). -/
def State.readPieces (s : State) (id : Nat) (x : Engine) (owner : Nat) (c : CopyOp) : List (Nat × Nat) → State
  | [] => s.setCopy id { c with reads := [] }
  | (a, n) :: r =>
    match s.reach id x owner a n .load 2 with
    | .fails => s.failCopy id c
    | .dead t => t
    | .waits t => t.setCopy id { c with reads := (a, n) :: r }
    | .remote home =>
      match s.sendCopy id owner home a (.load n) with
      | some (q, t) => t.setCopy id { c with reads := (a, n) :: r, asked := some q }
      | none => s.failCopy id c
    | .go t =>
      match t.owner? owner with
      | none => t
      | some o =>
        if t.badGlobal ((t.team? x.team).map fun y => dieOfCore y.core) o a n then t.failAt id c (t.badSectors owner a n)
        else State.readPieces t id x owner { c with got := c.got ++ o.bytes owner t.now a n } r

/-- The source pieces of a copy from global memory: its rows, and then its scales. -/
def CopyOp.pieces (c : CopyOp) : List (Nat × Nat) :=
  let d := c.desc
  let rows := (List.range d.rows).flatMap fun i => piecesOf (c.g + i * d.gstride) d.rowb d.rowb
  let scales := if d.scaled then
      piecesOf ((c.g : Int) + d.scoff.toInt).toNat (d.rows * d.scaleRow) (d.rows * d.scaleRow)
    else []
  rows ++ scales

/-- The source pieces in ascending address (R170), each with its place among the pieces. -/
def CopyOp.ascending (c : CopyOp) : List ((Nat × Nat) × Nat) :=
  let ps := c.pieces.zipIdx
  if (ps.zip (ps.drop 1)).all fun x => decide (x.1.1.1 ≤ x.2.1.1) then ps else sortBy (fun p => p.1.1) ps

/-- The reads of a copy in the order in which it makes them (R170). -/
def CopyOp.sources (c : CopyOp) : List (Nat × Nat) := c.ascending.map (·.1)

/-- The bytes a copy has read, rows first and then scales. -/
def CopyOp.gathered (c : CopyOp) : List Byte :=
  let order := c.ascending
  if c.pieces == order.map (·.1) then c.got
  else
    let cut := (order.foldl (fun (acc : List (Nat × List Byte) × List Byte) p =>
      (acc.1 ++ [(p.2, acc.2.take p.1.2)], acc.2.drop p.1.2)) ([], c.got)).1
    (sortBy (fun x => x.1) cut).flatMap (·.2)

/-- Writes of bytes at a window place of a core. -/
def windowWrites (core base : Nat) (team : Option Nat) (data : List Byte) : List CopyWrite :=
  (dataPieces base data).map fun p => { place := .scratch core p.1, team := team, set := none, data := p.2 }

/-- Writes of bytes at global addresses, in ascending order. -/
def globalWrites (owner : Nat) (set : Option Nat) (runs : List (Nat × List Byte)) : List CopyWrite :=
  (sortBy (fun (p : Nat × List Byte) => p.1) (runs.flatMap fun r => dataPieces r.1 r.2)).map fun p =>
    { place := .global owner p.1, team := none, set := set, data := p.2 }

/-- The writes of an outward copy from the scratchpad image it has read, and their flags (R327, R328). -/
def CopyOp.outWrites (c : CopyOp) (owner : Nat) (img : Array Byte) : List CopyWrite × Flags :=
  let d := c.desc
  let set := match c.kind with
    | .cpsh => some c.set
    | _ => none
  let sg := ((c.g : Int) + d.scoff.toInt).toNat
  let rows := (List.range d.rows).map fun i =>
    if d.qmode = 0 then (i, d.rowOut img i, d.scalesOut img i, (0 : Flags))
    else let (q, s, f) := d.quantRow img c.scale i; (i, q, s, f)
  (globalWrites owner set (rows.flatMap fun r => [(c.g + r.1 * d.gstride, r.2.1), (sg + r.1 * d.scaleRow, r.2.2.1)]),
   rows.foldl (fun f r => f ||| r.2.2.2) 0)

/-- A copy has read its source: lay out its writes. A scratchpad source is read here. -/
def State.planCopy (s : State) (id : Nat) (x : Engine) (t : Team) (c : CopyOp) : State :=
  let d := c.desc
  let ready (c : CopyOp) : State := s.setCopy id { c with phase := 2, got := [] }
  match c.kind with
  | .cpin => ready { c with writes := windowWrites t.core (t.windowBase + c.s) none (d.image c.gathered.toArray) }
  | .cpgath => ready { c with writes := windowWrites t.core (t.windowBase + c.s + c.row * d.rowb) none c.got }
  | .cppeer =>
    if s.badWindow t c.s (d.extent c.kind) then s.failAt id c (s.badGranules t c.s (d.extent c.kind))
    else
      let data := s.windowBytes [] x.team t c.s (d.extent c.kind)
      ready { c with writes := c.peers.flatMap fun p => match s.team? p.1 with
        | some q => windowWrites q.core (q.windowBase + c.dest) (some p.1) data
        | none => windowWrites 0 (p.2 + c.dest) (some p.1) data }
  | .cpout | .cpsh =>
    if s.badWindow t c.s (d.extent c.kind) then s.failAt id c (s.badGranules t c.s (d.extent c.kind))
    else
      let img := (s.windowBytes [] x.team t c.s (d.extent c.kind)).toArray
      let (ws, f) := c.outWrites t.owner img
      (ready { c with writes := ws }).updWave x.wave fun w => w.orFlags f

/-- The address a CPSH write reaches on the hidden side of its set now (R175). -/
def Owner.shadowPlace (o : Owner) (set a : Nat) : Option Nat :=
  (Tab.find o.sets set).bind fun x =>
    let rec go : List (Nat × Nat) → List Page → Option Nat
      | f :: fs, p :: ps => if p.covers a then some (p.place f.1 a) else go fs ps
      | _, _ => none
    go x.shadow (sortBy (fun (p : Page) => p.va) (o.pages.filter fun p => p.set == some set))

/-- Bytes written at storage places one after another. -/
def State.putRun (s : State) (by' : Writer) (k : Nat) : List Byte → State
  | [] => s
  | b :: r => State.putRun (s.putByte by' k b) by' (k + 1) r

/-- Perform one destination write of a copy (R170). -/
def State.writePiece (s : State) (id : Nat) (x : Engine) (c : CopyOp) (w : CopyWrite) (rest : List CopyWrite) : State :=
  let by' : Writer := (s.wave? x.wave).bind fun y => s.writer y
  let next : CopyOp := { c with writes := rest, asked := none, answer := none }
  let n := w.data.length
  match w.place with
  | .scratch core a =>
    let owner := match s.team? x.team with
      | some t => t.owner
      | none => 0
    if (match w.team with
        | some p => (match s.team? p with | some q => q.core != core | none => true)
        | none => false) then s.failCopy id c
    else (s.putScratch core owner a w.data).countWritten id x next n
  | .global owner a =>
    match s.reach id x owner a n .store 2 with
    | .fails => s.failCopy id c
    | .dead t => t
    | .waits t => t
    | .remote home =>
      match s.sendCopy id owner home a (.store w.data) with
      | some (q, t) => t.setCopy id { c with asked := some q, answer := none }
      | none => s.failCopy id c
    | .go t =>
      let die := (t.team? x.team).map fun y => dieOfCore y.core
      match w.set with
      | none =>
        if (t.owner? owner).any fun o => t.cutOff die o a n then t.failCopy id c
        else (t.putBytes by' owner a w.data).countWritten id x next n
      | some set =>
        match (t.owner? owner).bind fun o => o.shadowPlace set a with
        | some k =>
          if die.any fun d => t.cutDies d (k / 2 ^ 37) then t.failCopy id c
          else (t.putRun by' k w.data).countWritten id x next n
        | none => t.failCopy id c

/-- The next index of a gather: it reads its list, or pops its queue (R329). -/
def State.nextIndex (s : State) (id : Nat) (x : Engine) (t : Team) (c : CopyOp) : State :=
  let row (k : Nat) (s : State) (c : CopyOp) : State :=
    s.setCopy id { c with phase := 1, got := [],
                          reads := piecesOf ((c.g + k * c.desc.gstride) % 2 ^ 64) c.desc.growb c.desc.growb }
  match c.index with
  | .queue q =>
    match (t.queue q).entries with
    | v :: _ => row v.toNat (s.popQueues x.team [q]) c
    | [] => if (t.queue q).closed then s.failCopy id c else s
  | .list a =>
    if c.got.length = 4 then row (ofLe c.got) s c
    else s.readPieces id x t.owner c [(a + 4 * c.row, 4)]

/-- The next event of a copy (R170): a read of its source, the layout of its writes, one write, or its completion. -/
def State.copyStep (s : State) (id : Nat) (x : Engine) (c : CopyOp) : State :=
  match s.team? x.team with
  | none => s.engineDone id true
  | some t =>
    match c.asked, c.answer with
    | some _, none => s
    | some _, some (ok, data) =>
      if !ok then s.failCopy id c
      else if c.phase = 2 then
        match c.writes with
        | w :: r => s.countWritten id x { c with writes := r, asked := none, answer := none } w.data.length
        | [] => s
      else s.setCopy id { c with got := c.got ++ data, reads := c.reads.drop 1, asked := none, answer := none }
    | none, _ =>
      if c.phase = 0 then
        match c.kind with
        | .cpin => s.setCopy id { c with phase := 1, reads := c.sources }
        | .cpgath => s.nextIndex id x t c
        | _ => s.setCopy id { c with phase := 1, reads := [] }
      else if c.phase = 1 then
        if c.reads.isEmpty then s.planCopy id x t c else s.readPieces id x t.owner c c.reads
      else
        match c.writes with
        | w :: r => s.writePiece id x c w r
        | [] =>
          if c.cancelled then s.endCopy id c false true
          else if c.kind = .cpgath && decide (c.row + 1 < c.desc.rows) then
            s.setCopy id { c with phase := 0, row := c.row + 1, got := [] }
          else s.endCopy id c false false

/-- The engine may act: its launch is not waiting for its bell, and the page it waits for is there (R52, R185). -/
def State.engineActs (s : State) (x : Engine) : Bool :=
  let round := match s.wave? x.wave with
    | some w => s.isRound w
    | none => false
  (!round || s.atBell) &&
  (match x.pageWait with
   | some va => (match s.team? x.team with | some t => s.pageThere t.owner va | none => false)
   | none => true)

/-- The next event of an engine operation that is a copy. -/
def State.advanceCopy (s : State) (id : Nat) : State :=
  match s.engine? id with
  | none => s
  | some x =>
    match x.op with
    | .copy c =>
      if s.engineActs x && s.headOfChannel id x then
        (s.updEngine id fun y => { y with pageWait := none }).copyStep id { x with pageWait := none } c
      else s
    | _ => s

/-- A copy's events one after another, while it can act. -/
def State.runCopy (s : State) (id : Nat) : Nat → State
  | 0 => s
  | fuel + 1 =>
    let t := s.advanceCopy id
    match t.engine? id with
    | none => t
    | some y => if s.engine? id = some y then t else State.runCopy t id fuel

/-- An upper bound on the events of a copy. -/
def copyFuel : Nat := 2 ^ 40

/-- COPY_COMPLETION: a copy finishes its writes, arrives on its barrier and completes its token. A copy that must still
wait goes as far as it can. -/
def execCopyCompletion (engine : Nat) (s : State) : Host.Outcome State Fault Refusal := .next (s.runCopy engine copyFuel)

/-! ### Publishing (R175) -/

/-- Exchange the sides of a shadow set: each page of its range takes the hidden frame (R175). -/
def Owner.swapSet (o : Owner) (set : Nat) : Owner :=
  match Tab.find o.sets set with
  | none => o
  | some x =>
    let vis := sortBy (fun (p : Page) => p.va) (o.pages.filter fun p => p.set == some set)
    let give (p : Page) : Page :=
      match (vis.zip x.shadow).find? fun y => y.1.va == p.va with
      | some y => { p with frame := some y.2.1, epoch := y.2.2 }
      | none => p
    { o with pages := o.pages.map fun p => if p.set = some set then give p else p,
             sets := Tab.put o.sets set { x with shadow := vis.map fun p => (p.frame.getD 0, p.epoch) } }

/-- Every CPSH write to the set that the wave issued before the publish has been performed (R175). -/
def State.publishReady (s : State) (id : Nat) (x : Engine) (set : Nat) : Bool :=
  !(s.engines.any fun y => decide (y.1 < id) && y.2.wave == x.wave && (match y.2.op with
    | .copy c => decide (c.kind = .cpsh) && c.set == set
    | _ => false))

/-- PUB_SWAP: the sides swap in one event and the token completes. -/
def execPubSwap (engine : Nat) (s : State) : Host.Outcome State Fault Refusal :=
  match s.engine? engine with
  | some x =>
    match x.op, s.team? x.team with
    | .publish set, some t =>
      if s.engineActs x && s.publishReady engine x set then
        .next ((s.updOwner t.owner fun o => o.swapSet set).engineDone engine false)
      else .next s
    | _, _ => .next s
  | none => .next s

end Sys2Proof.Machine
end

