-- ==== Sys2Proof/Machine/Matrix.lean ====
section
/-!
DEFINITION. Group 9: the matrix engine and the accumulators (R334–R345), and the event by which a multiply completes.
-/
namespace Sys2Proof.Machine

/-! ### Accumulator storage (R56, R336) -/

/-- An accumulator element as an owner reads it: zero under another owner's tag, a free value where nothing defined is
held (R56, R67). -/
def Core.readAcc (c : Core) (owner epoch tile i j : Nat) : W32 :=
  let k := (32 * tile + i) * 32 + j
  match Tab.find c.accTag (32 * tile + i) with
  | some t => if t = owner then (Tab.find c.acc k).getD (Config.freeRow (2 * epoch) k) else 0
  | none => Config.freeRow (2 * epoch) k

/-- An accumulator element written by an owner: a row of another owner is first zeroed and tagged (R56). -/
def Core.writeAcc (c : Core) (owner tile i j : Nat) (x : W32) : Core :=
  let row := 32 * tile + i
  let fresh := match Tab.find c.accTag row with
    | some t => t != owner
    | none => false
  let acc := if fresh then (List.range 32).foldl (fun m q => Tab.put m (row * 32 + q) 0) c.acc else c.acc
  { c with acc := Tab.put acc (row * 32 + j) x, accTag := Tab.put c.accTag row owner,
           badAcc := if c.badAcc.isEmpty then [] else c.badAcc.filter fun y => y != row * 32 + j }

/-- An element of a tile, or of a pair: bits 31..0 in the even tile, 63..32 in the next (R336). -/
def Core.readTile (c : Core) (owner epoch : Nat) (tiles : List Nat) (i j : Nat) : Nat :=
  tiles.foldr (fun t hi => (c.readAcc owner epoch t i j).toNat + 2 ^ 32 * hi) 0

/-- Write an element of a tile or of a pair. -/
def Core.writeTile (c : Core) (owner : Nat) : List Nat → Nat → Nat → Nat → Core
  | [], _, _, _ => c
  | t :: r, i, j, x => Core.writeTile (c.writeAcc owner t i j (BitVec.ofNat 32 x)) owner r i j (x / 2 ^ 32)

/-- Write the 32 elements of a row. -/
def Core.writeRow (c : Core) (owner : Nat) (tiles : List Nat) (i : Nat) (xs : List Nat) : Core :=
  (xs.zip (List.range 32)).foldl (fun c x => c.writeTile owner tiles i x.2 x.1) c

/-- The elements of a row. -/
def Core.row (c : Core) (owner epoch : Nat) (tiles : List Nat) (i : Nat) : List Nat :=
  (List.range 32).map fun j => c.readTile owner epoch tiles i j

/-- Some element of a row has an uncorrectable error (R218). -/
def Core.badRow (c : Core) (tiles : List Nat) (i : Nat) : Bool :=
  tiles.any fun t => c.badAcc.any fun k => k / 32 == 32 * t + i

/-- The physical tiles a tile operand names. -/
def Team.tilesOf (t : Team) (pair : Bool) (x : Operand) : List Nat :=
  match x with
  | .acc n => (List.range (if pair then 2 else 1)).map fun i => t.tiles.getD (n.toNat + i) 0
  | _ => []

/-- An earlier multiply of the wave on one of the tiles has not completed (R337). -/
def State.tileBusy (s : State) (n : Nat) (tiles : List Nat) : Bool :=
  s.engines.any fun x => x.2.wave == n && (match x.2.op with
    | .matrix _ ts _ _ _ _ _ => ts.any fun t => tiles.contains t
    | _ => false)

/-- Execute a group 9 instruction: no executing lane has no effect; it waits for earlier multiplies on its tiles (R337). -/
def State.onTiles (s : State) (e : Env) (pair : Bool) (x : Operand) (body : Team → List Nat → Res) : Res :=
  if !e.runs then .done s
  else
    match s.teamOf e.w with
    | none => e.illegal s
    | some t =>
      let tiles := t.tilesOf pair x
      if s.tileBusy e.n tiles then .wait .tile else body t tiles

/-! ### Tile handles (R335) -/

/-- A tile handle. -/
structure Handle where
  peer : Option Nat
  off : Nat
  side : Nat
  deriving DecidableEq, Repr

/-- A tile handle in an S register, where its reserved fields are kept (R335). -/
def handleOf (x : W64) : Option Handle :=
  let n := x.toNat
  if n / 2 ^ 48 ≠ 0 || n / 2 ^ 28 % 16 ≠ 0 || (!(n.testBit 27) && n / 2 ^ 24 % 8 ≠ 0) then none
  else some { peer := if n.testBit 27 then some (n / 2 ^ 24 % 8) else none, off := n % 2 ^ 24, side := n / 2 ^ 32 % 2 ^ 16 * 64 }

/-- The address of an offset in the window a handle names, as a lane record gives it (R214). -/
def Handle.address (h : Handle) (off : Nat) : Nat := match h.peer with
  | some p => 2 ^ 24 * p + off
  | none => off

/-- The team whose window a handle names (R153). -/
def State.handleTeam (s : State) (e : Env) (t : Team) (h : Handle) : Option (Nat × Team) :=
  match h.peer with
  | none => some (e.w.team, t)
  | some p => s.peerTeam e.w.team t p

/-- The fault of a tile and its sidecar at issue: cause and address (R335). -/
def State.handleFault (s : State) (e : Env) (t : Team) (h : Handle) (sidecar : Bool) : Option (Nat × Nat) :=
  if h.off % 2048 ≠ 0 then some (0x10, h.address h.off)
  else
    match s.handleTeam e t h with
    | none => some (0x11, h.address h.off)
    | some (_, x) =>
      if h.off + 2048 > x.windowSize then some (0x11, h.address h.off)
      else if sidecar && decide (h.side + 64 > x.windowSize) then some (0x11, h.address h.side)
      else none

/-- The space of a handle's window in a lane record. -/
def Handle.space (h : Handle) : Nat := if h.peer.isSome then 2 else 1

/-- The bytes of a tile and of its sidecar. -/
def State.handleRead (s : State) (e : Env) (t : Team) (h : Handle) (sidecar : Bool) : List Byte × List Byte :=
  match s.handleTeam e t h with
  | none => ([], [])
  | some (id, x) =>
    let buf := (s.viewOf e.w).buf
    (s.windowBytes buf id x h.off 2048, if sidecar then s.windowBytes buf id x h.side 64 else [])

/-- The granules of a tile and of its sidecar with an uncorrectable error, each with the offset of what is read of it (R218,
R338). -/
def State.handleErrors (s : State) (e : Env) (t : Team) (h : Handle) (sidecar : Bool) : List (Nat × ErrorPlace) :=
  match s.handleTeam e t h with
  | none => []
  | some (_, x) =>
    (s.badGranules x h.off 2048).map (fun g => (h.off, g)) ++
      if sidecar then (s.badGranules x h.side 64).map fun g => (h.side, g) else []

/-- The machine check of a multiply whose operands hold uncorrectable errors, at its lowest executing row: every location is logged
(R218, R338). -/
def Env.handleError (e : Env) (h : Handle) (off : Nat) (errs : List ErrorPlace) : Trap :=
  { e.resuming 0x20 e.firstExec 0 none
      [{ lane := e.firstExec, cause := 0x20, address := BitVec.ofNat 64 (h.address off), size := 16,
         kind := AccKind.load.code, space := h.space }] with errs := errs }

/-- The elements with an uncorrectable error in column `col` of row `i` of some tiles. -/
def Core.badColumn (c : Core) (tiles : List Nat) (i col : Nat) : List Nat :=
  (tiles.map fun x => (32 * x + i) * 32 + col).filter fun k => c.badAcc.contains k

/-- The elements of a row with an uncorrectable error. -/
def Core.badElements (c : Core) (tiles : List Nat) (i : Nat) : List Nat :=
  (List.range 32).flatMap fun j => c.badColumn tiles i j

/-- The trap of an uncorrectable error in elements of accumulator rows that one lane or row reads (R214, R218; log entry 110). -/
def State.rowError (s : State) (e : Env) (core l : Nat) (bad : List Nat) : Trap :=
  { e.resuming 0x20 l 0 none [registerRecord s.clock l] with errs := bad.map fun i => .rowElement core i }

/-! ### The multiplies (R339–R342) -/

/-- Element `k` of row `i` of a tile of elements of `n` bytes. -/
def tileElement (a : Array Byte) (n i k : Nat) : Nat := ofLe ((List.range n).map fun b => a.getD (64 * i + n * k + b) 0)

/-- A chain of fused multiply-adds in ascending k, each rounded (R201). -/
def fmaChain (f : Fmt) (c : Nat) : List (Nat × Nat) → Nat × Flags
  | [] => (c, 0)
  | (x, y) :: r =>
    let (v, g) := f.fma .rne x y c
    let (z, h) := fmaChain f v r
    (z, g ||| h)

/-- The product of exact values; none for NaN by zero times infinity. -/
def mulOpt (x y : Option Num) : Option Num := match x, y with
  | some a, some b => mulNum a b
  | _, _ => none

/-- An inner sum of products, exact (R201). -/
def dot (xs : List (Num × Num)) : Option Num := (sumOf (xs.map fun p => mulNum p.1 p.2)).value

/-- The k-plane value of an element of a bit-plane tile (R191). -/
def planeValue (a : Array Byte) (planes : Nat) (centre : Bool) (i k : Nat) : Int :=
  let bit (p : Nat) : Int := if (a.getD (256 * p + 8 * i + k / 8) 0).getLsbD (k % 8) then 1 else 0
  let v := (List.range planes).foldl (fun (n : Int) p => if p = 0 then n - 128 * bit 0 else n + 2 ^ (7 - p) * bit p) 0
  if centre && planes < 8 then v + 2 ^ (7 - planes) else v

/-- A block scale as its consumers read it: none for a NaN or one with its sign bit set (R190, R341). -/
def blockScale (b : Byte) : Option Num :=
  let v := e4m3.read b.toNat
  if v.isNan || b.toNat ≥ 128 then none else some v

/-- The operation accumulates onto its destination. -/
def MatOp.accum : MatOp → Bool
  | .mma _ a _ | .mmax _ _ a _ _ | .mmap _ a _ _ => a

/-- The operation's destination is a pair. -/
def MatOp.pair : MatOp → Bool
  | .mma .f64 _ _ => true
  | _ => false

/-- The starting value of an element that is not accumulated (R339). -/
def MatOp.start : MatOp → Nat
  | .mma .f64 _ _ => fp64.signed true 0
  | .mma .. | .mmax .. => fp32.signed true 0
  | .mmap .. => 0

/-- Element (i, j) of a multiply from its starting value (R201, R339–R342). -/
def MatOp.element (m : MatOp) (a b sa sb : Array Byte) (c0 i j : Nat) : Nat × Flags :=
  let pairs (f g : Fmt) (n : Nat) (ks : List Nat) : List (Num × Num) :=
    ks.map fun k => (f.read (tileElement a n i k), g.read (tileElement b n j k))
  match m with
  | .mma .f64 _ _ => fmaChain fp64 c0 ((List.range 8).map fun k => (tileElement a 8 i k, tileElement b 8 j k))
  | .mma .f32 _ _ => fmaChain fp32 c0 ((List.range 16).map fun k => (tileElement a 4 i k, tileElement b 4 j k))
  | .mma .bf16 _ scale =>
    fp32.ofSum (sumOf [some (fp32.read c0), mulOpt (some (fp32.read scale.toNat)) (dot (pairs bf16 bf16 2 (List.range 32)))])
  | .mma .f16 _ scale =>
    fp32.ofSum (sumOf [some (fp32.read c0), mulOpt (some (fp32.read scale.toNat)) (dot (pairs fp16 fp16 2 (List.range 32)))])
  | .mmax fa fb _ ka kb =>
    let f := if fa then e5m2 else e4m3
    let g := if fb then e5m2 else e4m3
    let scale (beta : Nat) : Option (Num × Num) :=
      match blockScale (sa.getD (2 * i + beta) 0), blockScale (sb.getD (2 * j + beta) 0) with
      | some x, some y => some (x, y)
      | _, _ => none
    match scale 0, scale 1 with
    | some x, some y =>
      let block (z : Num × Num) (beta : Nat) : Option Num :=
        mulOpt (mulNum z.1 z.2) (dot (pairs f g 1 ((List.range 32).map fun k => 32 * beta + k)))
      let inner := (sumOf [block x 0, block y 1]).value
      let t := mulOpt (mulNum (fp32.read ka.toNat) (fp32.read kb.toNat)) inner
      fp32.ofSum (sumOf [some (fp32.read c0), t])
    | _, _ => (fp32.nan, fNV)
  | .mmap planes _ centre signed =>
    let bv (k : Nat) : Int := let n := (b.getD (64 * j + k) 0).toNat; if signed && n ≥ 128 then (n : Int) - 256 else n
    let v := (List.range 64).foldl (fun (n : Int) k => n + planeValue a planes centre i k * bv k)
      (IntTy.s32.value (BitVec.ofNat 64 c0))
    ((wrap 32 v).toNat, flagIf (decide (v < IntTy.s32.min) || decide (v > IntTy.s32.max)) fIOV)

/-- The operation's handles carry sidecars. -/
def MatOp.sidecar : MatOp → Bool
  | .mmax .. => true
  | _ => false

/-- Issue a multiply (R337–R339): its handles are checked, its tiles and sidecars read, and its destination updated after
issue. -/
def State.multiply (s : State) (e : Env) (m : MatOp) (d a b : Operand) : Res :=
  s.onTiles e m.pair d fun t tiles =>
    match handleOf (s.uni e a), handleOf (s.uni e b) with
    | some x, some y =>
      match s.handleFault e t x m.sidecar, s.handleFault e t y m.sidecar with
      | some f, _ => .trap s (e.onceFault f.1 (BitVec.ofNat 64 f.2) 16 AccKind.load.code x.space)
      | none, some f => .trap s (e.onceFault f.1 (BitVec.ofNat 64 f.2) 16 AccKind.load.code y.space)
      | none, none =>
        let (ab, asd) := s.handleRead e t x m.sidecar
        let (bb, bsd) := s.handleRead e t y m.sidecar
        let core := s.core t.core
        let bad := (s.handleErrors e t x m.sidecar).map (x, ·) ++ (s.handleErrors e t y m.sidecar).map (y, ·)
        let row := if m.accum then (lanesOf e.exec).find? fun i => core.badRow tiles i else none
        let go (mask : W32) : State :=
          if mask = 0 then s
          else
            let x : Engine := { wave := e.n, team := e.w.team, token := none, channel := none, pageWait := none,
                                op := .matrix m tiles mask ab bb asd bsd }
            let (id, s) := s.newId
            { s with engines := Tab.put s.engines id x }
        match bad, row with
        | [], none => .done (go e.exec)
        | [], some f => .trap (go (e.exec &&& ~~~(fromLane e.exec f))) (s.rowError e t.core f (core.badElements tiles f))
        | (h, off, _) :: _, _ => .trap s (e.handleError h off (bad.map fun z => z.2.2))
    | _, _ => e.illegal s

/-- MMA (R340). -/
def execMma (h : Head) (ty : MmaTy) (accum : Bool) (d a b c : Operand) (s : State) : Host.Outcome State Fault Refusal :=
  s.runWord (.mma h ty accum d a b c) h fun s e => s.multiply e (.mma ty accum (lo32 (s.uni e c))) d a b

/-- MMAX (R341): sa and sb are the pair Sp, Sp + 1. -/
def execMmax (h : Head) (fa fb accum : Bool) (d a b c : Operand) (s : State) : Host.Outcome State Fault Refusal :=
  s.runWord (.mmax h fa fb accum d a b c) h fun s e =>
    let sb : W64 := match c with
      | .s n => e.w.sreg (n.toNat + 1)
      | _ => 0
    s.multiply e (.mmax fa fb accum (lo32 (s.uni e c)) (lo32 sb)) d a b

/-- MMAP (R342). -/
def execMmap (h : Head) (planes : BitVec 3) (accum centre bsigned : Bool) (d a b : Operand) (s : State) :
    Host.Outcome State Fault Refusal :=
  s.runWord (.mmap h planes accum centre bsigned d a b) h fun s e =>
    s.multiply e (.mmap (planes.toNat + 1) accum centre bsigned) d a b

/-- MATRIX_COMPLETION (R337): every row of the destination is written in one event. -/
def execMatrixCompletion (engine : Nat) (s : State) : Host.Outcome State Fault Refusal :=
  match s.engine? engine with
  | some x =>
    match x.op, s.team? x.team with
    | .matrix m tiles mask a b sa sb, some t =>
      let (aa, ba, sav, sbv) := (a.toArray, b.toArray, sa.toArray, sb.toArray)
      let rows := (lanesOf mask).map fun i =>
        let c := (s.core t.core).row t.owner x.team tiles i
        (i, (c.zip (List.range 32)).map fun y => m.element aa ba sav sbv (if m.accum then y.1 else m.start) i y.2)
      let s := s.updCore t.core fun c => rows.foldl (fun c r => c.writeRow t.owner tiles r.1 (r.2.map (·.1))) c
      let f := rows.foldl (fun f r => r.2.foldl (fun f v => f ||| v.2) f) 0
      .next ((s.updWave x.wave fun w => w.orFlags f).engineDone engine false)
    | _, _ => .next s
  | none => .next s

/-! ### Moving accumulators (R343) -/

/-- ACCZ. -/
def execAccz (h : Head) (pair : Bool) (d : Operand) (s : State) : Host.Outcome State Fault Refusal :=
  s.runWord (.accz h pair d) h fun s e => s.onTiles e pair d fun t tiles =>
    .done (s.updCore t.core fun c =>
      (lanesOf e.exec).foldl (fun c i => c.writeRow t.owner tiles i (List.replicate 32 0)) c)

/-- The lanes an ACCRD or ACCWR performs, and where it stops on an uncorrectable error (R218). -/
def State.columnLanes (s : State) (e : Env) (i : Instr) (bad : Nat → Bool) : List Nat × Option Nat :=
  let reg := s.badLane e i
  let stop := (firstStop (((lanesOf e.exec).find? bad).map fun l => (l, 0)) (reg.map fun l => (l, 0))).map (·.1)
  ((lanesOf e.exec).filter fun l => match stop with | some f => decide (l < f) | none => true, stop)

/-- ACCRD. -/
def execAccrd (h : Head) (pair : Bool) (d a b : Operand) (s : State) : Host.Outcome State Fault Refusal :=
  s.runWord (.accrd h pair d a b) h fun s e => s.onTiles e pair a fun t tiles =>
    let col := (s.uni e b).toNat
    if col > 31 then e.illegal s
    else
      let core := s.core t.core
      let (ls, stop) := s.columnLanes e (.accrd h pair d a b) fun i => !(core.badColumn tiles i col).isEmpty
      let s' := s.updWave e.n fun w =>
        ls.foldl (fun w i => w.writeLane d (regsOf pair) i (BitVec.ofNat 64 (core.readTile t.owner e.w.team tiles i col))) w
      match stop with
      | none => .done s'
      | some l =>
        if s.badLane e (.accrd h pair d a b) = some l then .trap s' (s.registerStop e (.accrd h pair d a b) l 0 none)
        else .trap s' (s.rowError e t.core l (core.badColumn tiles l col))

/-- ACCWR. -/
def execAccwr (h : Head) (pair : Bool) (d a b : Operand) (s : State) : Host.Outcome State Fault Refusal :=
  s.runWord (.accwr h pair d a b) h fun s e => s.onTiles e pair d fun t tiles =>
    let col := (s.uni e b).toNat
    if col > 31 then e.illegal s
    else
      let (ls, stop) := s.columnLanes e (.accwr h pair d a b) fun _ => false
      let s' := s.updCore t.core fun c =>
        ls.foldl (fun c i => c.writeTile t.owner tiles i col (s.readInt e (regsOf pair) a i 0).toNat) c
      match stop with
      | none => .done s'
      | some l => .trap s' (s.registerStop e (.accwr h pair d a b) l 0 none)

/-! ### ACCST and ACCLD (R344, R345) -/

end Sys2Proof.Machine

namespace Sys2Proof
open Machine

/-- Bytes of the region at the destination that a format spans (R344). -/
def AccFmt.span : AccFmt → Nat
  | .f32 | .s32 => 4096
  | .f64 => 8192
  | .bf16 | .f16 => 2048
  | .e4m3 | .e5m2 => 1984 + 32

/-- The format quantises. -/
def AccFmt.quant : AccFmt → Bool
  | .e4m3 | .e5m2 => true
  | _ => false

/-- The runs of bytes that row `i` of a tile occupies from an offset: place and length (R344). -/
def AccFmt.runs (f : AccFmt) (off i : Nat) : List (Nat × Nat) :=
  match f with
  | .f32 | .s32 => (List.range 2).map fun q => (off + 2048 * q + 64 * i, 64)
  | .f64 => (List.range 4).map fun q => (off + 2048 * q + 64 * i, 64)
  | .bf16 | .f16 => [(off + 64 * i, 64)]
  | .e4m3 | .e5m2 => [(off + 64 * i, 32)]

/-- The bytes of a row in a format, in the order of its runs, and the flags of its conversion (R344). -/
def AccFmt.rowBytes (f : AccFmt) (t : W32) (xs : List Nat) : List Byte × Option Byte × Flags :=
  let conv (g : Machine.Fmt) : List Byte × Option Byte × Flags :=
    let ys := xs.map fun x => convert fp32 g .rne x
    (ys.flatMap (fun y => leBytes 2 y.1), none, ys.foldl (fun a y => a ||| y.2) 0)
  let quant (e5 : Bool) : List Byte × Option Byte × Flags :=
    let (qs, sc, fl) := quantise e5 t.toNat xs
    (qs.map (BitVec.ofNat 8), some (BitVec.ofNat 8 sc), fl)
  match f with
  | .f32 | .s32 => (xs.flatMap (leBytes 4), none, 0)
  | .f64 => (xs.flatMap (leBytes 8), none, 0)
  | .bf16 => conv Machine.bf16
  | .f16 => conv Machine.fp16
  | .e4m3 => quant false
  | .e5m2 => quant true

/-- The elements of a row from its bytes, and the flags of widening (R345). -/
def AccFmt.rowValues (f : AccFmt) (bs : List Byte) : List Nat × Flags :=
  let wide (g : Machine.Fmt) : List Nat × Flags :=
    let ys := (List.range 32).map fun k => convert g fp32 .rne (leAt bs (2 * k) 2)
    (ys.map (·.1), ys.foldl (fun a y => a ||| y.2) 0)
  match f with
  | .f64 => ((List.range 32).map fun k => leAt bs (8 * k) 8, 0)
  | .bf16 => wide Machine.bf16
  | .f16 => wide Machine.fp16
  | _ => ((List.range 32).map fun k => leAt bs (4 * k) 4, 0)

end Sys2Proof

namespace Sys2Proof.Machine

/-- Bytes cut into the runs they go to. -/
def cutRuns : List (Nat × Nat) → List Byte → List (Nat × List Byte)
  | [], _ => []
  | (a, n) :: r, b => (a, b.take n) :: cutRuns r (b.drop n)

/-- Store window bytes of a group 9 instruction: at once, or in the wave's buffer in round mode (R185, R337). These are no
lane stores. -/
def State.storeWindow (s : State) (e : Env) (t : Team) (off : Nat) (data : List Byte) : State :=
  if s.isRound e.w && !s.atBell then
    s.buffered e.n (.store (.scratch t.core (t.windowBase + off)) data)
  else s.putScratch t.core t.owner (t.windowBase + off) data

/-- The fault of an ACCST or ACCLD at issue: cause and address (R344). -/
def accFault (f : AccFmt) (size off side : Nat) (exec : W32) (write : Bool) : Option (Nat × Nat) :=
  let rows := (lanesOf exec).flatMap fun i => f.runs off i
  let sides := if f.quant then (lanesOf exec).map fun i => (side + 2 * i + off % 64 / 32, 1) else []
  if (if f.quant then off % 2048 ≠ 0 && off % 2048 ≠ 32 else off % 2048 ≠ 0) then some (0x10, off)
  else if f.quant && side % 64 ≠ 0 then some (0x10, side)
  else if off + f.span > size then some (0x11, off)
  else if f.quant && side + 64 > size then some (0x11, side)
  else if write then
    ((rows ++ sides).find? fun x => hitsControl x.1 x.2).map fun x => (0x12, x.1)
  else none

/-- ACCST (R344). -/
def execAccst (h : Head) (fmt : AccFmt) (d a b c : Operand) (s : State) : Host.Outcome State Fault Refusal :=
  s.runWord (.accst h fmt d a b c) h fun s e => s.onTiles e (fmt == .f64) a fun t tiles =>
    let scale := lo32 (s.uni e d)
    let off := (lo32 (s.uni e b)).toNat
    let side := (lo32 (s.uni e c)).toNat
    if fmt.quant && !(tensorScaleOk scale.toNat) then e.illegal s
    else
      match accFault fmt t.windowSize off side e.exec true with
      | some f => .trap s (e.onceFault f.1 (BitVec.ofNat 64 f.2) 16 AccKind.store.code 1)
      | none =>
        let core := s.core t.core
        let stop := (lanesOf e.exec).find? fun i => core.badRow tiles i
        let ls := (lanesOf e.exec).filter fun l => match stop with | some f => decide (l < f) | none => true
        let s' := ls.foldl (fun (s : State) i =>
          let (bs, sc, fl) := fmt.rowBytes scale (core.row t.owner e.w.team tiles i)
          let s := (cutRuns (fmt.runs off i) bs).foldl (fun (s : State) x => s.storeWindow e t x.1 x.2) s
          let s := match sc with
            | some y => s.storeWindow e t (side + 2 * i + off % 64 / 32) [y]
            | none => s
          s.updWave e.n fun w => w.orFlags fl) s
        match stop with
        | none => .done s'
        | some l => .trap s' (s.rowError e t.core l (core.badElements tiles l))

/-- ACCLD (R345). -/
def execAccld (h : Head) (fmt : AccFmt) (d a : Operand) (s : State) : Host.Outcome State Fault Refusal :=
  s.runWord (.accld h fmt d a) h fun s e => s.onTiles e (fmt == .f64) d fun t tiles =>
    let off := (lo32 (s.uni e a)).toNat
    match accFault fmt t.windowSize off 0 e.exec false with
    | some f => .trap s (e.onceFault f.1 (BitVec.ofNat 64 f.2) 16 AccKind.load.code 1)
    | none =>
      let buf := (s.viewOf e.w).buf
      let stop := (lanesOf e.exec).find? fun i => (fmt.runs off i).any fun x => s.badWindow t x.1 x.2
      let ls := (lanesOf e.exec).filter fun l => match stop with | some f => decide (l < f) | none => true
      let s' := ls.foldl (fun (s' : State) i =>
        let bs := (fmt.runs off i).flatMap fun x => s.windowBytes buf e.w.team t x.1 x.2
        let (xs, fl) := fmt.rowValues bs
        (s'.updCore t.core fun c => c.writeRow t.owner tiles i xs).updWave e.n fun w => w.orFlags fl) s
      match stop with
      | none => .done s'
      | some l =>
        let bad := (fmt.runs off l).filter fun x => s.badWindow t x.1 x.2
        .trap s' { e.resuming 0x20 l 0 none
          [{ lane := l, cause := 0x20, address := BitVec.ofNat 64 ((bad.headD (off + 64 * l, 0)).1), size := 16,
             kind := AccKind.load.code, space := 1 }] with errs := bad.flatMap fun x => s.badGranules t x.1 x.2 }

end Sys2Proof.Machine
end

