-- ==== Sys2Proof/Machine/Tasks.lean ====
section
/-!
DEFINITION. Group B: tasks, launches from a program, register and tile budgets, and the drover's queues (R108–R114,
R355–R364), and the event that grants a waiting CLAIM.
-/
namespace Sys2Proof.Machine

/-! ### Reading a record from memory -/

/-- What reading a record comes to: its bytes, or what stops the instruction. -/
inductive RecordRead where
  | bytes (b : List Byte)
  | stop (r : Res)

/-- The cause a record of `n` bytes at an address meets first, as 8-byte reads (R145). -/
def Owner.recordCause (o : Owner) (a n : Nat) : Option (Nat × Nat) :=
  (List.range (n / 8)).findSome? fun i => (o.checkGlobal (a + 8 * i) 8 .load).map fun c => (c, a + 8 * i)

/-- A part of a record that lies in one package: its address and length, and the home package of its page where that is another
(R33). -/
structure RecordPart where
  address : Nat
  length : Nat
  home : Option Nat
  deriving DecidableEq, Repr

/-- The parts of a record of `n` bytes at an address: a record that crosses a page boundary may lie in two packages. -/
def Owner.recordParts (o : Owner) (a n : Nat) : List RecordPart :=
  ((List.range (n / 8)).foldl (fun (acc : List RecordPart) i =>
    let home := o.remoteAt (a + 8 * i)
    match acc with
    | x :: r => if x.home = home then { x with length := x.length + 8 } :: r else { address := a + 8 * i, length := 8, home := home } :: acc
    | [] => [{ address := a, length := 8, home := home }]) []).reverse

/-- Some part of a record lies in another package. -/
def Owner.recordFar (o : Owner) (a n : Nat) : Bool := (o.recordParts a n).any fun x => x.home.isSome

/-- The bytes of a record as a wave reads them (R181). -/
def State.recordBytes (s : State) (w : Wave) (o : Owner) (a n : Nat) : List Byte := o.bytes w.owner (s.viewOf w) a n

/-- What reading the parts of a record comes to: the bytes, a failed access, or a part that its home package is to be asked for. -/
inductive PartsRead where
  | bytes (b : List Byte)
  | fails (address : Nat)
  | asks (lane : Nat) (home : Nat) (part : RecordPart)

/-- Read the parts of a record from part `j` on for a lane (R33); the answer to a part after the first comes under a lane number of
its own, 64 higher for each. -/
def State.readParts (s : State) (e : Env) (o : Owner) (lane : Nat) : Nat → List RecordPart → PartsRead
  | _, [] => .bytes []
  | j, x :: r =>
    let rest (b : List Byte) : PartsRead := match State.readParts s e o lane (j + 1) r with
      | .bytes c => .bytes (b ++ c)
      | y => y
    match x.home with
    | none => if s.badGlobal (s.dieOf e.w) o x.address x.length then .fails x.address
        else rest (s.recordBytes e.w o x.address x.length)
    | some home => match e.reply (lane + 64 * j) with
      | some y => if y.ok then rest y.data else .fails x.address
      | none => .asks (lane + 64 * j) home x

/-- Read a record once for a split (R312): its first fault is taken at the lowest executing lane. -/
def State.readRecord (s : State) (e : Env) (a n : Nat) : RecordRead :=
  let fault (c x : Nat) : RecordRead := .stop (.trap s (e.onceFault c (BitVec.ofNat 64 x) 8 AccKind.load.code 0))
  match s.owner? e.w.owner with
  | none => fault 0x18 a
  | some o =>
    match o.recordCause a n with
    | some (c, x) => fault c x
    | none =>
      if o.recordFar a n && s.isRound e.w && !s.atBell then .stop (.defer s e.exec)
      else
        match s.readParts e o e.firstExec 0 (o.recordParts a n) with
        | .bytes b => .bytes b
        | .fails x => fault 0x20 x
        | .asks lane home x => .stop (s.askHome e lane home (BitVec.ofNat 64 x.address) (.load x.length)
            (.trap s (e.onceFault 0x20 (BitVec.ofNat 64 x.address) 8 AccKind.load.code 0)))

/-! ### POST and SPAWN (R356–R358) -/

/-- A program's record that posting refuses (R85). -/
def TaskRec.refused (r : TaskRec) : Bool := decide (r.kind ≥ 2) || !r.reservedOk

/-- The core after a core in ascending cluster position, wrapping, that lies in the placement set; itself where there is
none (R356). -/
def nextCore (placement : List Nat) (core : Nat) : Nat :=
  (((List.range 7).map fun i => 8 * (core / 8) + (core % 8 + i + 1) % 8).find? fun c => placement.contains c).getD core

/-- The queue a target names (R356); none where `.core` names a core outside the placement set. Round mode uses the die
queue of die 0 (R90). -/
def State.targetQueue (s : State) (e : Env) (o : Owner) (tg : PostTarget) (c : Operand) : Option Nat :=
  let core := s.coreOf e.w
  if s.isRound e.w then some (dieQueue 0)
  else
    match tg with
    | .own => some core
    | .die => some (dieQueue (dieOfCore core))
    | .neighbour => some (nextCore o.placement core)
    | .core => if o.placement.contains (s.uni e c).toNat then some (s.uni e c).toNat else none

/-- The marker of an instruction whose records wait for room, with the lanes that posted. -/
def waitMark (m : W32) : W64 := m.setWidth 64 ||| 0x8000000000000000#64

/-- Write a predicate destination in the executing lanes from a mask. -/
def Wave.writePredMask (w : Wave) (d : Operand) (exec m : W32) : Wave :=
  (lanesOf exec).foldl (fun w l => w.writePred d l (m.getLsbD l)) w

/-- Post one record from a lane (R85, R88): the lane's own depth plus 1. -/
def State.postLane (s : State) (e : Env) (queue lane : Nat) (card : TaskRec) : Bool × State :=
  match s.owner? e.w.owner with
  | none => (false, s)
  | some o =>
    let depth := e.w.depthOf lane + 1
    if o.poolRefuses depth then (false, s)
    else
      (true, (s.poolAdd e.w.owner 1).postTo e.w.owner
        { queue := queue, card := card.posted e.w.owner (s.isRound e.w) o.ceiling depth, launch := e.w.launch,
          ptag := 2 ^ 15 + s.coreOf e.w, parked := none, cmd := none, wave := some e.n,
          version := match s.teamOf e.w with
            | some t => t.version
            | none => 0 })

/-- Some record of the wave still waits for room in its queue. -/
def State.commitWaits (s : State) (w : Wave) (n : Nat) : Bool :=
  match s.owner? w.owner with
  | some o => o.commits.any fun c => c.wave == some n
  | none => false

/-- The records of an instruction have been handed to their queue: its predicate tells which lanes posted, once each is
committed (R87), and then it takes the trap of the lanes that did not perform (R134). -/
def State.posted (s : State) (e : Env) (d : Operand) (m : W32) (trap : Option Trap) : Res :=
  if s.commitWaits e.w e.n then
    .holding (s.updSplit e.n e.k fun p =>
      let q := p.retryAt e.exec (waitMark m) false e.pops e.mask
      { q with retry := q.retry.map fun r => { r with owed := trap } }) .commitRoom
  else match trap with
    | none => .done (s.updWave e.n fun w => w.writePredMask d e.exec m)
    | some t => .trap (s.updWave e.n fun w => w.writePredMask d (e.exec &&& ~~~(t.fault ||| t.deferred)) m) t

/-- An instruction whose records waited for room goes on when they are committed; at a bell they are tried again
(R183). -/
def State.postedAgain (s : State) (e : Env) (d : Operand) : Res :=
  let s := if s.atBell then s.flushCommits e.w.owner (dieQueue 0) (fun c => c.wave == some e.n) 32 else s
  s.posted e d (lo32 e.carry) (e.sp.retry.bind (·.owed))

/-- POST (R356). -/
def execPostInstruction (h : Head) (target : PostTarget) (d a c : Operand) (s : State) :
    Host.Outcome State Fault Refusal :=
  s.runWord (.postInstruction h target d a c) h fun s e =>
    if !e.runs then .done s
    else if e.carry.getLsbD 63 then s.postedAgain e d
    else
      match s.owner? e.w.owner with
      | none => e.illegal s
      | some o =>
        match s.targetQueue e o target c with
        | none => e.illegal s
        | some q =>
          match s.readRecord e (s.uni e a).toNat 32 with
          | .stop r => r
          | .bytes b =>
            if (cardOf b).refused then e.illegal s
            else if s.isRound e.w && !s.atBell then .defer s e.exec
            else
              let (ok, t) := s.postLane e q e.firstExec (cardOf b)
              t.posted e d (if ok then e.exec else 0) none

/-- What a lane of SPAWN has found: its record, or why it has none yet. -/
inductive SpawnLane where
  | card (r : TaskRec)
  | fault (cause address : Nat)
  | ask (lane home : Nat) (part : RecordPart)   -- the lane number of the answer

/-- One lane's record (R357). -/
def State.spawnLane (s : State) (e : Env) (o : Owner) (a : Operand) (l : Nat) : SpawnLane :=
  let x := (s.read64 e a l 0).toNat
  match o.recordCause x 32 with
  | some (c, y) => .fault c y
  | none =>
    match s.readParts e o l 0 (o.recordParts x 32) with
    | .bytes b => .card (cardOf b)
    | .fails y => .fault 0x20 y
    | .asks lane home y => if s.reaches (s.dieOf e.w) e.w.owner home then .ask lane home y else .fault 0x20 y.address

/-- SPAWN (R357): every lane's record is read and checked, then lanes without a fault post in lane order. -/
def execSpawn (h : Head) (target : PostTarget) (d a c : Operand) (s : State) : Host.Outcome State Fault Refusal :=
  s.runWord (.spawn h target d a c) h fun s e =>
    if !e.runs then .done s
    else if e.carry.getLsbD 63 then s.postedAgain e d
    else
      match s.owner? e.w.owner with
      | none => e.illegal s
      | some o =>
        match s.targetQueue e o target c with
        | none => e.illegal s
        | some q =>
          let i : Instr := .spawn h target d a c
          let ls := (lanesOf e.exec).map fun l => (l, s.spawnLane e o a l)
          let record (l n x : Nat) : LaneFault :=
            { lane := l, cause := n, address := BitVec.ofNat 64 x, size := 8, kind := AccKind.load.code, space := 0 }
          let late (n : Nat) : Bool := n == 0x18 || n == 0x20
          let faults := ls.filterMap fun x => match x.2 with
            | .fault n y => if late n then none else some (record x.1 n y)
            | _ => none
          let met := ls.findSome? fun x => match x.2 with
            | .fault n y => if late n then some (record x.1 n y) else none
            | _ => none
          let reg := s.badLane e i
          let stop : Option (Nat × Trap) := match met, reg with
            | some f, some l => if l ≤ f.lane then some (l, s.registerStop e i l 0 none)
                else some (f.lane, e.resuming f.cause f.lane 0 none [f])
            | some f, none => some (f.lane, e.resuming f.cause f.lane 0 none [f])
            | none, some l => some (l, s.registerStop e i l 0 none)
            | none, none => none
          let below (l : Nat) : Bool := match stop with
            | some f => decide (l < f.1)
            | none => true
          let asks := ls.findSome? fun x => match x.2 with
            | .ask lane home y => if below x.1 then some (x.1, lane, home, y) else none
            | _ => none
          let cards := ls.filterMap fun x => match x.2 with
            | .card r => if below x.1 then some (x.1, r) else none
            | _ => none
          let mask := maskOf (faults.map (·.lane))
          let trap : Option Trap := match faults, stop with
            | f :: _, _ =>
              let later := match stop with
                | some y => fromLane e.exec y.1 &&& ~~~mask
                | none => 0
              some { e.trap f.cause with kind := 1, fault := mask, lanes := faults, deferred := later,
                                         resume := if later = 0 then 32 else (lowest later).getD 32 }
            | [], y => y.map (·.2)
          let go := maskOf (cards.map (·.1))
          if cards.any fun x => x.2.refused then e.illegal s
          else if s.isRound e.w && !s.atBell then
            let m := go ||| (match asks with | some x => fromLane e.exec x.1 &&& ~~~mask | none => 0)
            match trap with
            | some t => if m = 0 then .trap s t else .trapDefer s t m
            | none => .defer s e.exec
          else
            match asks with
            | some (l, lane, home, y) => s.askHome e lane home (BitVec.ofNat 64 y.address) (.load y.length)
                (.trap s (e.resuming 0x20 l 0 none [record l 0x20 y.address]))
            | none =>
              let (m, s) := cards.foldl (fun (acc : W32 × State) x =>
                let (ok, t) := acc.2.postLane e q x.1 x.2
                (if ok then acc.1 ||| laneBit x.1 else acc.1, t)) (0, s)
              s.posted e d m trap

/-! ### Join objects (R359, R360) -/

/-- JINIT (R359). -/
def execJinit (h : Head) (a b c : Operand) (s : State) : Host.Outcome State Fault Refusal :=
  s.runWord (.jinit h a b c) h fun s e =>
    if !e.runs then .done s
    else
      let obj := (s.uni e a).toNat
      let count := (s.uni e b).toNat
      if count = 0 || count ≥ 2 ^ 32 then e.illegal s
      else
        match s.owner? e.w.owner with
        | none => e.illegal s
        | some o =>
          match s.readRecord e (s.uni e c).toNat 32 with
          | .stop r => r
          | .bytes rb =>
            let card := cardOf rb
            if card.refused then e.illegal s
            else
              let p := card.posted e.w.owner (s.isRound e.w) o.ceiling (e.w.depthOf e.firstExec)
              let p := { p with control := (p.control &&& ~~~0x3000000000000000#64) ||| 0x1000000000000000#64 }
              let image := leBytes 4 count ++ leBytes 4 0 ++ p.bytes ++ leBytes 24 0
              let fault (s : State) (c : Nat) : Res := .trap s (e.onceFault c (BitVec.ofNat 64 obj) 4 AccKind.atomic.code 0)
              let full := decide (s.poolTotal ≥ 65536)
              match o.checkGlobal obj 64 .atomic, o.remoteAt obj with
              | some c, _ => fault s c
              | none, none =>
                if s.badGlobal (s.dieOf e.w) o obj 64 then fault s 0x20
                else if s.isRound e.w && !s.atBell then .defer s e.exec
                else if leAt (o.bytes e.w.owner s.now obj 4) 0 4 ≠ 0 then e.illegal s
                else if full then .wait .poolMax
                else .done ((s.putBytes (s.writer e.w) e.w.owner obj image).enterJoin e.w.owner obj e.w.launch)
              | none, some home =>
                if s.isRound e.w && !s.atBell then .defer s e.exec
                else match e.reply objectLane with
                  | none => if full then .wait .poolMax
                    else s.askHome e objectLane home (BitVec.ofNat 64 obj) (.initJoin image) (fault s 0x20)
                  | some r =>
                    if !r.ok then fault s 0x20
                    else if leAt r.data 0 4 ≠ 0 then e.illegal s
                    else .done (s.enterJoin e.w.owner obj e.w.launch)

/-- The queue of a continuation whose count a wave brings to zero (R86, R90). -/
def State.continuationQueue (s : State) (w : Wave) : Nat := if s.isRound w then dieQueue 0 else s.coreOf w

/-- TEND (R360): a lane whose address is 0 performs nothing; a count found at zero is an engine error after the
instruction. -/
def execTend (h : Head) (a : Operand) (s : State) : Host.Outcome State Fault Refusal :=
  s.runWord (.tend h a) h fun s e =>
    let go := maskOf ((lanesOf e.exec).filter fun l => s.read64 e a l 0 != 0)
    if go = 0 then
      -- it is performed at the bell all the same, and ends the round (R358)
      if e.exec != 0 && s.isRound e.w && !s.atBell then .defer s e.exec
      else if e.carry = 0 then .done s else .trap s (e.engineError 0 0)
    else
      let va : Target → Nat
        | .global x => x
        | .window _ _ x => x
      let r := s.access { e with exec := go } (.tend h a)
        { sp := .global, size := 64, kind := .atomic, action := true, reads := true,
          addr := fun l => s.read64 e a l 0, off := fun _ => 0, ask := fun _ => .decrement,
          perform := fun t _ x =>
            (t.decrement (t.writer e.w) e.w.owner (va x) (t.continuationQueue e.w) e.w.launch).2,
          note := fun t _ x => (t.decrement (t.writer e.w) e.w.owner (va x) (t.continuationQueue e.w) e.w.launch).1,
          noteReply := fun b => leAt b 0 4 == 0,
          receive := fun t l b => t.decremented e.w.owner (s.read64 e a l 0).toNat (t.continuationQueue e.w) e.w.launch b }
      let told (x : Trap) : Trap := { x with exec := e.mask, lanes := x.lanes.map fun f => { f with size := 4 } }
      match r with
      | .trap t x => .trap t (told x)
      | .trapDefer t x m => .trapDefer t (told x) m
      | .holding t w => .holding (t.updSplit e.n e.k fun p =>
          { p with retry := p.retry.map fun q => { q with execMask := e.mask } }) w
      | r => r

/-! ### LAUNCH (R361) -/

/-- LAUNCH. -/
def execLaunchInstruction (h : Head) (d a : Operand) (s : State) : Host.Outcome State Fault Refusal :=
  s.runWord (.launchInstruction h d a) h fun s e =>
    if !e.runs then .done s
    else
      match s.owner? e.w.owner with
      | none => e.illegal s
      | some o =>
        match s.readRecord e (s.uni e a).toNat 128 with
        | .stop r => r
        | .bytes b =>
          let r := launchRecOf b
          if !(launchRecOk b) || r.spanned then e.illegal s
          else if s.isRound e.w && !s.atBell then .defer s e.exec
          else
            let depth := e.w.depthOf e.firstExec + 1
            let give (s : State) (ok : Bool) : Res := .done (s.updWave e.n fun w => w.writePreds d e.exec ok)
            if (o.launchStatus r).isSome || o.poolRefuses depth then give s false
            else
              give ((s.poolAdd e.w.owner 1).acceptLaunch e.w.owner r depth e.w.launch none 0 none true).2 true

/-! ### CLAIM and GIVE (R108–R111, R362, R363) -/

/-- The register units a core has free (R71, R108); what a span has reserved there is not (R35). -/
def State.freeUnits (s : State) (core : Nat) : Nat :=
  512 - (s.teamsOnCore core).foldl (fun n x => n + (s.holding x.2).units)
    ((s.reservedOn core).foldl (fun n x => n + x.units) 0)

/-- The physical tiles no team of a core holds, in ascending order. -/
def State.freeTiles (s : State) (core : Nat) : List Nat :=
  (List.range 64).filter fun t => (s.teamsOnCore core).all fun x => !(x.2.tiles.contains t) && !(x.2.spareTiles.contains t)

/-- The tiles of a core that a CLAIM may take: some stay for what spans have reserved (R35, R108). -/
def State.claimTiles (s : State) (core : Nat) : List Nat :=
  let free := s.freeTiles core
  free.take (free.length - (s.reservedOn core).foldl (fun n x => n + x.tiles) 0)

/-- Grant a claim of a wave, from the team's spare first and then from the core's free resources where they may be drawn
on; none where it does not fit (R108, R109). New registers and tiles read zero. -/
def State.grantClaim (s : State) (n : Nat) (w : Wave) (tiles : Bool) (k : Nat) (core : Bool) : Option State :=
  match s.teamOf w with
  | none => none
  | some t =>
    if tiles then
      let free := if core then s.claimTiles t.core else []
      let pool := t.spareTiles ++ free
      if pool.length < k then none
      else
        let new := pool.take k
        let s := s.updTeam w.team fun x => { x with tiles := x.tiles ++ new, spareTiles := x.spareTiles.drop k }
        some (s.updCore t.core fun c => new.foldl (fun c y =>
          (List.range 32).foldl (fun c i => c.writeRow t.owner [y] i (List.replicate 32 0)) c) c)
    else
      let free := if core then s.freeUnits t.core else 0
      if t.spareUnits + free < k then none
      else
        some ((s.updTeam w.team fun x => { x with spareUnits := x.spareUnits - k }).updWave n fun x =>
          { x with units := x.units + k })

/-- The claim fits in the team's spare alone. -/
def Team.spareHolds (t : Team) (tiles : Bool) (k : Nat) : Bool :=
  if tiles then decide (k ≤ t.spareTiles.length) else decide (k ≤ t.spareUnits)

/-- A claim as its split keeps it: 3 while it waits, 1 granted, 2 failed, 0 where it is to be checked anew; bit 2 for tiles;
then the count. -/
def claimMark (state : Nat) (tiles : Bool) (k : Nat) : W64 := BitVec.ofNat 64 (state + 4 * tiles.toNat + 8 * k)

/-- The waiting claim of a wave: its split, its kind and its count. -/
def Wave.waitingClaim (w : Wave) : Option (Nat × Bool × Nat) :=
  w.splits.findSome? fun x => match x.2.waiting, x.2.retry with
    | .claim, some r => if r.carry.toNat % 4 = 3 then some (x.1, r.carry.getLsbD 2, r.carry.toNat / 8) else none
    | _, _ => none

/-- A count of units or tiles within the limits of CLAIM (R362). -/
def Wave.claimOk (w : Wave) (t : Team) (tiles : Bool) (k : Nat) : Bool :=
  decide (1 ≤ k) && (if tiles then decide (t.tiles.length + k ≤ 64) else decide (w.units + k ≤ 32))

/-- CLAIM (R362). In round mode it is performed at the bell and draws on the team's spare alone (R110). It stands behind every CLAIM
that waits on its core, of whatever priority (log entry 144). -/
def execClaim (h : Head) (wait tiles : Bool) (d a : Operand) (s : State) : Host.Outcome State Fault Refusal :=
  s.runWord (.claim h wait tiles d a) h fun s e =>
    if !e.runs then .done s
    else
      match s.teamOf e.w with
      | none => e.illegal s
      | some t =>
        let k := (s.uni e a).toNat
        let give (s : State) (ok : Bool) : Res := .done (s.updWave e.n fun w => w.writePreds d e.exec ok)
        if e.carry.toNat % 4 = 1 then give s true
        else if e.carry.toNat % 4 = 2 then give s false
        else if !(e.w.claimOk t tiles k) then e.illegal s
        else if s.isRound e.w then
          if !s.atBell then .defer s e.exec
          else
            match s.grantClaim e.n e.w tiles k false with
            | some s => give s true
            | none => if wait then .wait .claim else give s false
        else
          let core := s.core t.core
          let others := core.claims.any fun m => m != e.n
          let free := t.spareHolds tiles k || !others
          match (if free then s.grantClaim e.n e.w tiles k true else none) with
          | some s => give (s.updCore t.core fun c => { c with claims := c.claims.erase e.n }) true
          | none =>
            if !wait then give s false
            else
              let s := s.updCore t.core fun c =>
                { c with claims := if c.claims.contains e.n then c.claims else c.claims ++ [e.n] }
              .holding (s.updSplit e.n e.k fun p => p.retryAt e.exec (claimMark 3 tiles k) false e.pops e.mask) .claim

/-- The waiting claims of a core in the order in which they are granted (R109). -/
def State.claimOrder (s : State) (core : Nat) : List Nat :=
  sortBy (fun n => match (s.wave? n).bind s.teamOf with
    | some t => 8 - t.priority
    | none => 8) (s.core core).claims

/-- A waiting claim ends, with the mark of how: its CLAIM completes when its wave next issues. -/
def State.markClaim (s : State) (core n k mark : Nat) : State :=
  (s.updCore core fun c => { c with claims := c.claims.erase n }).updSplit n k fun p =>
    { p with retry := p.retry.map (fun r => { r with carry := claimMark mark false 0 }), waiting := .none }

/-- A waiting claim ends, granted or failed. -/
def State.endClaim (s : State) (core n k : Nat) (granted : Bool) : State := s.markClaim core n k (if granted then 1 else 2)

/-- CLAIM_GRANT (R109): the waiting claims of a core are granted whole, in order; one that cannot yet be granted holds back
the later ones that would draw on the core's free resources. -/
def execClaimGrant (core : Nat) (s : State) : Host.Outcome State Fault Refusal :=
  .next ((s.claimOrder core).foldl (fun (acc : State × Bool) n =>
    match acc.1.wave? n with
    | none => acc
    | some w =>
      match w.waitingClaim, acc.1.teamOf w with
      | some (k, tiles, m), some t =>
        -- another claim of the team may have passed the limit meanwhile: the CLAIM executes again (R362)
        if !(w.claimOk t tiles m) then (acc.1.markClaim core n k 0, acc.2)
        else if !acc.2 || t.spareHolds tiles m then
          match acc.1.grantClaim n w tiles m true with
          | some s => (s.endClaim core n k true, acc.2)
          | none => (acc.1, true)
        else acc
      | _, _ => acc) (s, false)).1

/-- A split of the wave, or one that its trap context holds, awaits an answer for an instruction that writes a V register from a
number on (R33, R363). -/
def Wave.awaited (w : Wave) (k low : Nat) : Bool :=
  let writes (p : Split) : Bool := match decodeWord p.current p.literals with
    | .ok i => (writeRegs i 0).any fun r => match r with
      | .v n => decide (n ≥ low)
      | _ => false
    | .error _ => false
  (w.splits.any fun x => x.1 != k && x.2.waiting == .remote && writes x.2) ||
  w.trapCtx.any fun c => c.splits.any fun x => x.2.waiting == .remote && writes x.2

/-- GIVE (R363): the wave's highest registers, or the team's highest tiles, go to the team's spare. -/
def execGive (h : Head) (tiles : Bool) (a : Operand) (s : State) : Host.Outcome State Fault Refusal :=
  s.runWord (.give h tiles a) h fun s e =>
    if !e.runs then .done s
    else
      match s.teamOf e.w with
      | none => e.illegal s
      | some t =>
        let k := (s.uni e a).toNat
        if k < 1 || (if tiles then k > t.tiles.length else e.w.units < k + 1) then e.illegal s
        else
          let gone := t.tiles.drop (t.tiles.length - k)
          if tiles && t.waves.any fun m => s.tileBusy m gone then .wait .tile
          else if !tiles && e.w.awaited e.k (8 * (e.w.units - k)) then .wait .tile
          else if s.isRound e.w && !s.atBell then .defer s e.exec
          else if tiles then
            .done (s.updTeam e.w.team fun x =>
              { x with tiles := x.tiles.take (x.tiles.length - k), spareTiles := gone ++ x.spareTiles })
          else
            let top := 8 * (e.w.units - k)
            .done ((s.updTeam e.w.team fun x => { x with spareUnits := x.spareUnits + k }).updWave e.n fun w =>
              { w with units := w.units - k, v := Tab.keep (fun i => decide (i / 32 < top)) w.v,
                       bad := w.bad.filter fun x => match x.1 with
                         | .v r => decide (r < top)
                         | _ => true })

/-! ### The drover's queues (R364) -/

/-- DPUSH: a full queue stalls the drover; a closed one is an illegal operand. -/
def execDpush (h : Head) (q : BitVec 2) (a : Operand) (s : State) : Host.Outcome State Fault Refusal :=
  s.runWord (.dpush h q a) h fun s e =>
    if !e.runs then .done s
    else
      match s.teamOf e.w with
      | none => e.illegal s
      | some t =>
        let x := t.queue q.toNat
        if x.closed then e.illegal s
        else if x.entries.length ≥ 64 then .wait (.pushFull q.toNat)
        else .done (s.updTeam e.w.team fun t =>
          { t with queues := Tab.put t.queues q.toNat { x with entries := x.entries ++ [s.uni e a] } })

/-- DCLOSE. -/
def execDclose (h : Head) (q : BitVec 2) (s : State) : Host.Outcome State Fault Refusal :=
  s.runWord (.dclose h q) h fun s e =>
    if e.runs then .done (s.updTeam e.w.team fun t => t.closeQueues [q.toNat]) else .done s

end Sys2Proof.Machine
end

