-- ==== Sys2Proof/Machine/Ports.lean ====
section
/-!
DEFINITION. The Ethernet ports (R25–R34): speeds, packets, connections, the command rings' reception, and remote accesses at
the home package and at the requester.
-/
namespace Sys2Proof.Machine

/-- The ports and the command engine are up: in the running, the recovery and the tripped state (R15, R20, R21). -/
def State.listens (s : State) : Bool := decide (s.phase ≠ .off)

/-- The endpoint index of the bootstrap endpoint (R40). -/
def bootEndpoint : Nat := 1024

/-- PORT_SPEED_CHANGE (R25): the port's link drops, and with it the connections made over it; it comes up at the new
speed, with the lanes that the speed does not use powered down. No other port is affected. -/
def execPortSpeedChange (port : Nat) (speed : PortSpeed) (s : State) : Host.Outcome State Fault Refusal :=
  .next (if s.listens && decide (port < s.ports.length) then
    { s with ports := modifyAt (fun _ => { speed := speed, up := true, powered := speed.lanes }) port s.ports,
             connections := s.connections.filter fun c => c.1 != port }
  else s)

/-- ROCE_CONNECTION_SETUP (R28): only the RC transport is set up. -/
def execRoceConnectionSetup (port owner : Nat) (request : RoceRequest) (s : State) : Host.Outcome State Fault Refusal :=
  .next (if s.listens && decide (port < s.ports.length) then
    match request with
    | .rc => { s with connections := if s.connections.contains (port, owner) then s.connections
                                      else s.connections ++ [(port, owner)] }
    | _ => { s with counters := { s.counters with refusedConnections := s.counters.refusedConnections + 1 } }
  else s)

/-! ### Packets (R27, R30, R40) -/

/-- Accept a message for an endpoint. -/
def State.accept (s : State) (p : Packet) : State :=
  { s with rx := s.rx ++ [{ owner := p.endpoint, port := p.port, flow := p.flow, bytes := p.bytes, held := false }] }

/-- The longest Ethernet frame a port accepts (R25). -/
def frameLimit : Nat := 9216

/-- A port that is there receives frames of a length (R25). -/
def State.receives (s : State) (port frame : Nat) : Bool :=
  s.listens && decide (port < s.ports.length) && decide (frame ≤ frameLimit)

/-- Count a packet that fails authentication or reuses a nonce (R30). -/
def State.countAuth (s : State) (authentic : Bool) : State :=
  if authentic then { s with counters := { s.counters with replayed := s.counters.replayed + 1 } }
  else { s with counters := { s.counters with authFailed := s.counters.authFailed + 1 } }

/-- A message at the bootstrap endpoint (R40): ATTEST at any time, and CTX_OPEN of owner 0 while owner 0 is not open. -/
def State.bootMessage (s : State) (p : Packet) : State :=
  let code := leAt p.bytes 1 1
  if code = 0x0F then s.accept p
  else if (s.owner? 0).isSome then
    { s with counters := { s.counters with bootstrapDropped := s.counters.bootstrapDropped + 1 } }
  else if code = 0x01 && leAt p.bytes 16 4 == 0 then s.accept p
  else s

/-- UET_PACKET_RECEIVE (R27, R30, R40): a packet of a delivery mode that is not supported, one that fails authentication or
repeats a nonce, and one for no open owner are dropped. A RoCEv2 message needs its connection. -/
def execUetPacketReceive (packet : Packet) (s : State) : Host.Outcome State Fault Refusal :=
  let p := packet
  let boot := p.endpoint == bootEndpoint
  let nonces := if boot then s.bootNonces else match s.owner? p.endpoint with
    | some o => o.nonces
    | none => []
  let protectedOk := p.authentic && !(nonces.contains p.nonce)
  let deliver (s : State) : State :=
    if boot then s.bootMessage p else if (s.owner? p.endpoint).isSome then s.accept p else s
  .next (if !(s.receives p.port p.frame) then s
  else
    match p.flow with
    | .uetUud => { s with counters := { s.counters with unsupported := s.counters.unsupported + 1 } }
    | .roce => if s.connections.contains (p.port, p.endpoint) then deliver s else s
    | .uetPlain _ => deliver s
    | .uetTss _ =>
      if !boot && (s.owner? p.endpoint).isNone then s
      else if !protectedOk then s.countAuth p.authentic
      else if boot then deliver { s with bootNonces := s.bootNonces ++ [p.nonce] }
      else deliver (s.updOwner p.endpoint fun o => { o with nonces := o.nonces ++ [p.nonce] }))

/-- A message of an owner's package-to-package traffic is taken where it arrives whole and its secure domain accepts it; one that
fails authentication or repeats a nonce is dropped and counted, and one for no open owner is dropped (R30). -/
def State.takeMessage (s : State) (owner : Nat) (e : Envelope) (f : State → State) : State :=
  match s.owner? owner with
  | none => s
  | some o =>
    if !(s.receives e.port e.frame) then s
    else if !e.authentic || o.nonces.contains e.nonce then s.countAuth e.authentic
    else f (s.updOwner owner fun x => { x with nonces := x.nonces ++ [e.nonce] })

/-! ### Command rings (R31, R32, R42) -/

/-- The length of a message's record: whole multiples of 8, at most 8200 bytes (R32, R42). -/
def recordLength (m : RxMessage) : Nat := 8 + alignUp (min m.bytes.length 8192) 8

/-- The ring with a record of a length appended, and a skip record where the region ends; none where it does not fit. -/
def RingCtl.push (r : RingCtl) (len : Nat) : Option RingCtl :=
  let size := 2 ^ r.log2
  let pos := r.reserve % size
  let skip := if pos + len > size then size - pos else 0
  if r.reserve + skip + len - r.release ≤ size then
    some { r with reserve := r.reserve + skip + len, commit := r.reserve + skip + len }
  else none

/-- The ring with its oldest record, of a length, taken and released (R47). -/
def RingCtl.pop (r : RingCtl) (len : Nat) : RingCtl :=
  let size := 2 ^ r.log2
  let pos := r.release % size
  let skip := if pos + len > size then size - pos else 0
  { r with take := r.release + skip + len, release := r.release + skip + len }

/-- The first message that waits at an owner's ring: one that is held for want of room holds back every later message of its owner
(R32; log entry 139). -/
def State.waitingMessage (s : State) (owner : Nat) : Option RxMessage := s.rx.find? fun m => m.owner == owner

/-- Append the first waiting message of an owner to its ring, or mark it held: its acknowledgement is withheld (R32). -/
def State.appendMessage (s : State) (owner : Nat) (m : RxMessage) : State :=
  match s.owner? owner with
  | none => { s with rx := s.rx.erase m }
  | some o =>
    match o.cmdRing.push (recordLength m) with
    | some r =>
      { s with rx := s.rx.erase m }.updOwner owner fun o =>
        { o with cmdRing := r, cmds := Tab.put o.cmds o.nextCmd (Cmd.ofMessage m), nextCmd := o.nextCmd + 1 }
    | none => { s with rx := s.rx.map fun x => if x == m then { x with held := true } else x }

/-- COMMAND_APPEND (R31, R32, R42). -/
def execCommandAppend (owner : Nat) (s : State) : Host.Outcome State Fault Refusal :=
  .next (if !s.listens || owner == bootEndpoint then s
  else
    match s.waitingMessage owner with
    | some m => if m.held then s else s.appendMessage owner m
    | none => s)

/-- COMMAND_RING_ROOM (R32): a message whose acknowledgement was withheld is appended once the ring has room. -/
def execCommandRingRoom (owner : Nat) (s : State) : Host.Outcome State Fault Refusal :=
  .next (match s.waitingMessage owner with
    | some m =>
      if m.held && (match s.owner? owner with
          | some o => (o.cmdRing.push (recordLength m)).isSome
          | none => true) then s.appendMessage owner m else s
    | none => s)

/-! ### Remote accesses at home (R33, R34) -/

/-- What a remote operation does at its owner's address: the bytes it answers with, and the state. -/
def State.performRemote (s : State) (owner a : Nat) (o : Owner) (op : RemoteOp) : List Byte × State :=
  let old (n : Nat) : List Byte := o.bytes owner s.now a n
  match op with
  | .load n => (old n, s)
  | .fetch => (old 8, s)
  | .store data => ([], s.putBytes none owner a data)
  | .atomic op b =>
    let n := atomBytes op
    let x := old n
    (x, s.putBytes none owner a (leBytes n (AtomOp.apply op (BitVec.ofNat 64 (ofLe x)) b).toNat))
  | .compareSwap w64 c n =>
    let k := if w64 then 8 else 4
    let x := old k
    (x, if ofLe x = c.toNat % 2 ^ (8 * k) then s.putBytes none owner a (leBytes k n.toNat) else s)
  | .decrement =>
    let x := old 64
    let count := leAt x 0 4
    let live := leBytes 1 (!(o.deadJoins.contains a)).toNat
    if count = 0 then (x ++ live, s)
    else
      let s := s.putBytes none owner a (leBytes 4 (count - 1))
      (x ++ live, if count = 1 then (s.dropJoin owner a).updOwner owner fun y => { y with deadJoins := y.deadJoins.erase a }
        else s)
  | .initJoin image =>
    let x := old 4
    (x, if leAt x 0 4 = 0 then (s.putBytes none owner a image).updOwner owner fun y =>
      { y with deadJoins := y.deadJoins.filter fun z => z != a } else s)
  | .ring _ => ([], s)

/-- The size of a remote operation and the access it makes (R147). -/
def remoteShape : RemoteOp → Nat × AccKind
  | .load n => (n, .load)
  | .fetch => (8, .fetch)
  | .store d => (d.length, .store)
  | .atomic op _ => (atomBytes op, .atomic)
  | .compareSwap w64 _ _ => (if w64 then 8 else 4, .atomic)
  | .decrement | .initJoin _ | .ring _ => (64, .atomic)

/-- Every byte of a remote operation has a page here that permits it. -/
def Owner.remoteOk (o : Owner) (a n : Nat) (k : AccKind) : Bool :=
  (List.range n).all fun i => match o.pageAt (a + i) with
    | some p => p.frame.isSome && p.permits k
    | none => false

/-- An access of another package is performed under the tables of the owner here, and answered; one that fails writes nothing. A
read answers with an error where it would consume an uncorrectable sector, which is logged (R218), and any access where its
route from the receiving port crosses a boundary that is down (R8). -/
def State.serveRemote (s : State) (port owner requester : Nat) (address : W64) (op : RemoteOp) (posted : Bool) : State :=
    let a := address.toNat
    let die := some (dieOfPort port)
    let (n, k) := remoteShape op
    let reply (s : State) (ok : Bool) (data : List Byte) : State :=
      { s with tx := s.tx ++ [.remoteAnswer requester ok data] }
    match s.owner? owner with
    | none => s
    | some o =>
      let reads := match op with
        | .store _ => false
        | _ => true
      if !(o.remoteOk a n k) || s.cutOff die o a n then reply s false []
      else if reads && s.badGlobal none o a n then reply (s.logSectors owner a n) false []
      else match op with
        | .ring op =>
          let job : RingJob := { owner := owner, control := a, op := op, die := die, launch := none,
                                 asker := .package requester posted, got := [], asked := none, answer := none }
          if s.ringBusy owner a then s.addJob job
          else match s.ringPerform die [] 0 none owner a op with
            | .ok (x, t) => reply t true (if posted then [] else x.bytes)
            | .error .malformed => reply s true malformedAnswer
            | .error (.fault _ x) => reply (s.logSectors owner x 8) false []
            | .error (.asks ..) => s.addJob job
        | _ =>
          let (data, t) := s.performRemote owner a o op
          reply t true (if posted then [] else data)

/-- REMOTE_ACCESS (R30, R33, R34). -/
def execRemoteAccess (env : Envelope) (owner requester : Nat) (address : W64) (op : RemoteOp) (posted : Bool) (s : State) :
    Host.Outcome State Fault Refusal :=
  .next (if s.phase = .up then s.takeMessage owner env fun t => t.serveRemote env.port owner requester address op posted else s)

/-! ### Answers (R33, R34) -/

/-- The answer of a trap record's store: once every piece is acknowledged the trap goes on, and a failed one terminates the
team (R68). -/
def State.recordAnswer (s : State) (n : Nat) (ok : Bool) : State :=
  match s.wave? n with
  | none => s
  | some w =>
    match w.pending with
    | none => s
    | some t =>
      if !ok then
        let s := { s with remote := s.remote.filter fun x => !(x.2.wave == n && x.2.lane == 32) }
        if w.unhandled t then s.forceRequest n w else s.terminate w.team 0x20
      else if s.recordUnderWay n then s
      else s.afterRecord n t

/-- The lane that marks what the debug agent has asked of a home package. -/
def reportLane : Nat := 40

/-- The answer of a home package for a join object's count takes the place kept for it in the debug agent's report (log entry 151). -/
def State.reportCount (s : State) (i : Nat) (ok : Bool) (data : List Byte) : State :=
  if ok && s.ivgil.report[i]? == some (BitVec.allOnes 64) then
    { s with ivgil := { s.ivgil with report := s.ivgil.report.set i (BitVec.ofNat 64 (leAt data 0 4)) } }
  else s

/-- A remote access of this package ends: its answer goes to what asked (R33), or its failure is noted (R34). -/
def State.answerRemote (s : State) (request : Nat) (ok : Bool) (data : List Byte) : State :=
  match Tab.find s.remote request with
  | none => s
  | some r =>
    let s := { s with remote := Tab.drop s.remote request }
    match r.engine with
    | some id => s.updEngine id fun x => match x.op with
        | .copy c => if c.asked = some request then { x with op := .copy { c with answer := some (ok, data) } } else x
        | _ => x
    | none =>
      if r.posted then
        if ok || r.lane = 35 then s
        else
          -- also of a wave that the device has saved meanwhile (R98)
          let note (w : Wave) : Wave := { w with failedStp := w.failedStp + 1 }
          { s.updWave r.wave note with saved := Tab.mapVal (fun _ v => { v with waves := Tab.upd v.waves r.wave note }) s.saved }
      else if r.lane = reportLane then s.reportCount r.split ok data
      else if r.lane = ringLane then s.jobAnswered r.split ok data
      else if r.lane = 32 then s.recordAnswer r.wave ok
      else if r.lane = 38 then s.updCmd r.owner r.split fun c =>
        if c.asked = some request then { c with asked := none, answer := some (ok, data) } else c
      else if r.lane = 36 then s.updLaunch (r.launch.getD 0) fun l => { l with joining := .answered ok data }
      else if r.lane = 33 then s.updWave r.wave fun w => { w with buffer := w.buffer.map fun a => match a with
          | .awaits q none f rest => if q = request then .awaits q (some ok) f rest else .awaits q none f rest
          | a => a }
      else s.updWave r.wave fun w => w.takeReply r.split r.handler { lane := r.lane, ok := ok, data := data }

/-- REMOTE_ACKNOWLEDGEMENT (R30, R33, R34, R177): an answer whose request has ended is taken, and has no effect. -/
def execRemoteAcknowledgement (env : Envelope) (request : Nat) (ok : Bool) (data : List Byte) (s : State) :
    Host.Outcome State Fault Refusal :=
  .next (s.takeMessage env.owner env fun t => match Tab.find t.remote request with
    | some r => if r.owner = env.owner then t.answerRemote request ok data else t
    | none => t)

/-- TRANSPORT_RETRY_LIMIT_EXHAUSTED (R34): the access fails. -/
def execTransportRetryLimitExhausted (request : Nat) (s : State) : Host.Outcome State Fault Refusal :=
  .next (s.answerRemote request false [])

end Sys2Proof.Machine
end

