-- ==== Sys2Proof/Machine/Owners.lean ====
section
/-!
DEFINITION. Dispatching host commands (R47, R48, R398), their completion records (R51), and opening and closing an owner
(R39, R40, R44, R45, R53).
-/
namespace Sys2Proof.Machine

/-! ### Dispatch -/

/-- The codes whose completion a LAUNCH or a POST waits for (R48): MAP, UNMAP, SHADOW, COPY_IN, SIGNAL and FWLOAD. -/
def awaitedCodes : List Nat := [0x03, 0x04, 0x05, 0x06, 0x0A, 0x10]

/-- A completion record belongs to a command: it is neither a page-request notice (R52) nor the record of a terminated task
wave (R90). -/
def Completion.ofCommand (c : Completion) : Bool := c.status != 0x02 && !(c.code == 0x09 && c.status == 0x21)

/-- R48: the completions that a command waits for have been committed. A closing owner's commands wait for none. -/
def Owner.mayDispatch (o : Owner) (k : Nat) (c : Cmd) : Bool :=
  let earlier := (o.cmds.filter fun x => decide (x.1 < k)).map fun x => x.2.code
  let pending := earlier ++ (o.completions.filter Completion.ofCommand).map (·.code)
  o.closing || (if c.fence then pending.isEmpty
    else if c.code = 0x08 || c.code = 0x09 then !(pending.any fun x => awaitedCodes.contains x)
    else true)

/-- The header's framing (R398 check 2). -/
def Cmd.framed (c : Cmd) : Bool :=
  c.length % 8 == 0 && decide (c.length ≤ 8192) && c.length == c.bytes.length && c.nat 2 2 / 2 == 0

/-- The path of a command (R30, R398 check 5). ATTEST is accepted over any flow. -/
def Cmd.pathOk (c : Cmd) (id : Nat) (o : Owner) : Bool :=
  let tss := match c.flow with
    | .uetTss _ => true
    | _ => false
  c.code == 0x0F || ((!(id == 0 || c.code == 0x10) || tss) && !(o.protectedOnly && c.flow == .roce))

/-- The sender of a command (R43, R398 check 6). -/
def Cmd.senderOk (c : Cmd) (id : Nat) : Bool :=
  id == 0 ||
  (if c.code = 0x01 || c.code = 0x10 then false
   else if c.code = 0x02 then c.nat 16 4 == id
   else if c.code = 0x0E then !(c.nat 16 1 == 2 || c.nat 16 1 == 3)
   else true)

/-- The status of the first check from 1 to 6 of R398 that fails. In the recovery state a command that R21 does not accept
completes with "device not ready". -/
def State.dispatchStatus (s : State) (id : Nat) (o : Owner) (c : Cmd) : Option Nat :=
  if !(c.version == 1 || c.version == 2) then some 0x12
  else if !c.framed then some 0x10
  else if c.code = 0 || c.code > 0x10 then some 0x11
  else if s.phase = .recovery && !(c.code == 0x0E || c.code == 0x0F || c.code == 0x10) then some 0x30
  else if o.closing then some 0x20
  else if !(c.pathOk id o) then some 0x15
  else if !(c.senderOk id) then some 0x14
  else none

/-- The length of a command's record in the ring (R42). -/
def Cmd.recordLength (c : Cmd) : Nat := 8 + alignUp (min c.bytes.length 8192) 8

/-- The oldest command that waits in the ring. -/
def Owner.oldest (o : Owner) : Option (Nat × Cmd) := o.cmds.find? fun x => x.2.phase == .received

/-- Commit the completion record of a performed command. -/
def State.commitCompletion (s : State) (owner k : Nat) : State :=
  match s.cmd? owner k with
  | some c =>
    if c.phase = .performed then
      (s.updOwner owner fun x => { x with cmds := Tab.drop x.cmds k }).pushCompletion owner c.completion
    else s
  | none => s

/-- COMMAND_DISPATCH (R47, R48, R398): the owner's firmware takes the oldest record of the ring and checks it. A device that
has tripped answers only QUERY (R15). -/
def execCommandDispatch (owner : Nat) (s : State) : Host.Outcome State Fault Refusal :=
  match s.owner? owner with
  | none => .next s
  | some o =>
    match o.oldest with
    | none => .next s
    | some (k, c) =>
      if !s.listens || !(o.mayDispatch k c) then .next s
      else
        let s := s.updOwner owner fun x => { x with cmdRing := x.cmdRing.pop c.recordLength }
        if s.phase = .tripped && c.code ≠ 0x0E then
          .next (s.updOwner owner fun x => { x with cmds := Tab.drop x.cmds k })
        else
          match s.dispatchStatus owner o c with
          | some st =>
            let t := s.refuse owner k st
            -- what a closing owner's ring still holds completes in ring order (R53)
            .next (if st = 0x20 then t.commitCompletion owner k else t)
          | none => .next (s.updCmd owner k fun x => { x with phase := .dispatched })

/-- COMMAND_COMPLETION (R47, R51): the completion record of a performed command is committed. -/
def execCommandCompletion (owner cmd : Nat) (s : State) : Host.Outcome State Fault Refusal :=
  .next (s.commitCompletion owner cmd)

/-- COMPLETION_RING_ROOM (R51): records that waited for room are written, in their order. -/
def execCompletionRingRoom (owner : Nat) (s : State) : Host.Outcome State Fault Refusal :=
  match s.owner? owner with
  | some o => .next (s.flushCompletions owner o.completions.length)
  | none => .next s

/-! ### Opening an owner (R44, R45) -/

/-- The fields of a CTX_OPEN message that R44 limits, apart from the requested id. In the recovery state the quotas and the
ring size are ignored (R21). -/
def openFieldsOk (b : List Byte) (recovery : Bool) : Bool :=
  let n := leAt b 264 4
  let p := leAt b 268 4
  let span := leAt b 48 4
  decide (n ≤ 64) && b.length == 272 + 24 * n && leAt b 20 4 / 2 == 0 &&
  decide (1 ≤ leAt b 28 1) && decide (leAt b 28 1 ≤ 24) && decide (leAt b 29 1 ≤ 7) &&
  (recovery || (decide (1 ≤ leAt b 24 4) && decide (leAt b 24 4 ≤ 65536) && decide (1 ≤ leAt b 30 2) &&
    decide (leAt b 30 2 ≤ 512) && decide (1 ≤ leAt b 32 8) && decide (15 ≤ leAt b 40 1) && decide (leAt b 40 1 ≤ 30))) &&
  leAt b 41 3 == 0 && decide (leAt b 44 4 ≤ 1000000) &&
  (span == 0 || (decide (1000 ≤ span) && decide (span ≤ 10000000))) && leAt b 52 4 == 0 &&
  leAt b 72 8 % 64 == 0 && leAt b 84 4 == 0 && (if n = 0 then p == 0 else decide (p < n)) &&
  (List.range n).all fun i => leAt b (272 + 24 * i + 20) 4 == 0

/-- What the open owners leave of the device: pool entries, cores and frames. -/
def State.unclaimed (s : State) : Nat × Nat × Nat :=
  let os := Tab.vals s.owners
  let sum (f : Owner → Nat) : Nat := os.foldl (fun n o => n + f o) 0
  (65536 - sum (·.poolQuota), 512 - sum (·.placement.length), 2 ^ 24 - sum (·.frameQuota))

/-- The placement set of an owner (R72): as many cores as its quota, which ones the device chooses (log entry 8). -/
def placementOf (n quota : Nat) : List Nat :=
  sortBy id ((sortBy (Config.freeSet n) (List.range 512)).take quota)

/-- log2 of a task queue's region (R87). -/
def queueLog2 (pool cores : Nat) : Nat := Nat.log2 (powAtLeast (64 * (pool + 2048 + 4 * cores)) 4096 32)

/-- 64 KiB frames that hold 2^log2 bytes. -/
def framesFor (log2 : Nat) : Nat := if log2 ≤ 16 then 1 else 2 ^ (log2 - 16)

/-- Where the task trap area stands (R91). -/
def trapAreaBase : Nat := 0x00FF000000000000

/-- 64 KiB pages of the task trap area (R91). -/
def trapAreaPages (cores : Nat) : Nat := alignUp (32 * 640 * cores) 65536 / 65536

/-- The peer table of a CTX_OPEN message. -/
def peersOf (b : List Byte) : List (BitVec 128 × W32) :=
  (List.range (leAt b 264 4)).map fun i =>
    (BitVec.ofNat 128 (leAt b (272 + 24 * i) 16), BitVec.ofNat 32 (leAt b (272 + 24 * i + 16) 4))

/-- The completion ring that a control block in host memory describes; the device reads it once (R45, R51). -/
def State.hostRingAt (s : State) (a : Nat) : HostRing :=
  let b := s.hostBytes a 64
  { control := a, base := leAt b 0 8, log2 := leAt b 8 1, reserve := leAt b 16 8, commit := leAt b 24 8 }

/-- An owner as it is opened (R39, R44, R45), before its trap area is mapped. `recovery` is the recovery state (R21). -/
def State.newOwner (s : State) (b : List Byte) (keys : OwnerKeys) (set : List Nat) (recovery : Bool) : Owner :=
  let pool := if recovery then 0 else leAt b 24 4
  let cores := set.length
  let lg := queueLog2 pool cores
  let ring := if recovery then 16 else leAt b 40 1
  let deadline := leAt b 44 4
  let span := leAt b 48 4
  { protectedOnly := (leAt b 20 4).testBit 0, poolQuota := pool, nesting := leAt b 28 1, ceiling := leAt b 29 1,
    frameQuota := if recovery then 0 else leAt b 32 8
    framesUsed := if recovery then 0 else framesFor ring + (cores + 8) * framesFor lg
    deadlineUs := if deadline = 0 then 100 else deadline
    spanUs := if span = 0 then 10000 else span
    fabric := BitVec.ofNat 128 (leAt b 56 16), rmaKey := BitVec.ofNat 32 (leAt b 80 4), keys := keys,
    peers := peersOf b, ownPackage := leAt b 268 4, placement := set,
    cmdRing := { log2 := ring, reserve := 0, commit := 0, take := 0, release := 0 }
    cmds := [], nextCmd := 0, nonces := [], hostRing := s.hostRingAt (leAt b 72 8), completions := [], pages := [],
    sets := []
    queues := if recovery then [] else
      (set.map fun c => (c, TaskQueue.empty lg)) ++ (List.range 8).map fun d => (dieQueue d, TaskQueue.empty lg)
    commits := [], pool := 0, joins := [], deadJoins := [], launchSeq := 1, taskCounter := 0, lastGeneration := 0, lastOffer := none, illegalCount := 0,
    malformedCount := 0, closing := false }

/-- Add pages to an owner and give each its frame; none where the storage is exhausted. -/
def State.mapPages (s : State) (id : Nat) : List Page → Option State
  | [] => some s
  | p :: r =>
    match (s.updOwner id fun o => { o with pages := o.pages ++ [p] }).mapPage id p.va p with
    | some t => State.mapPages t id r
    | none => none

/-- A page of the task trap area (R91). -/
def trapPage (i : Nat) : Page :=
  { va := trapAreaBase + 65536 * i, log2 := 16, r := true, w := true, x := false, homeDie := none, remote := none,
    onDemand := false, frame := none, epoch := 0, set := none }

/-- How a message that needs the identity key reaches the security processor of port die 0 (R19). -/
inductive IdentityWay where
  | here | fabric | sideband
  deriving DecidableEq, Repr

/-- The way from the port die that received a message; none while the route between the port dies crosses a boundary that is
down (R6, R8, R19; log entry 123). -/
def State.identityWay (s : State) (port : Nat) : Option IdentityWay :=
  if dieOfPort port = portDie 0 then some .here
  else if s.phase = .recovery then some .sideband
  else if s.cutDies (portDie 1) (portDie 0) then none
  else some .fabric

/-- The key that wraps a CTX_OPEN's keys (R45). -/
def wrapKey (secret : Nat) (serial : W64) (b : List Byte) : List Byte :=
  let z := beBytes 32 (pointX (mulPoint secret (pointOf (slice b 88 64))))
  let name : List Byte := "KN-8 owner wrap".toList.map fun c => BitVec.ofNat 8 c.toNat
  hkdf z (leBytes 8 serial.toNat) (name ++ slice b 16 4)

/-- The keys of a CTX_OPEN message, unwrapped with the device identity key (R19, R45); none where the ephemeral key is not on the
curve or unwrapping fails. -/
def State.ownerKeys (s : State) (b : List Byte) : Option OwnerKeys :=
  match s.identity.head? with
  | none => none
  | some own =>
    let kek := wrapKey own.secret s.serial b
    if !(onCurve (slice b 88 64)) then none
    else match keyUnwrap kek (slice b 152 72), keyUnwrap kek (slice b 224 40) with
      | some m, some d => some { memoryKey := BitVec.ofNat 512 (ofBe m), domainKey := BitVec.ofNat 256 (ofBe d) }
      | _, _ => none

/-- What opening an owner comes to. -/
inductive OpenOut where
  | refused (status : Nat)
  | opened (id : Nat) (s : State)

/-- The id that a CTX_OPEN gets, or the status that refuses it (R44). -/
def State.openId (s : State) (want : Nat) (boot : Bool) : Nat × Nat :=
  if boot then (if want = 0 then (0, 0) else (0x10, 0))
  else if want = 0xFFFFFFFF then
    match (List.range 1024).find? fun i => i ≠ 0 && (s.owner? i).isNone with
    | some i => (0, i)
    | none => (0x17, 0)
  else if 1 ≤ want && want ≤ 1023 then (if (s.owner? want).isSome then (0x14, 0) else (0, want))
  else (0x10, 0)

/-- Open an owner from its message (R44, R45). -/
def State.openOwner (s : State) (b : List Byte) (boot : Bool) : OpenOut :=
  let recovery := decide (s.phase = .recovery)
  let (status, id) := s.openId (leAt b 16 4) boot
  let (pool, cores, frames) := s.unclaimed
  if !(openFieldsOk b recovery) || status = 0x10 then .refused 0x10
  else if !recovery && (decide (leAt b 24 4 > pool) || decide (leAt b 30 2 > cores) || decide (leAt b 32 8 > frames)) then
    .refused 0x17
  else if status ≠ 0 then .refused status
  else
    match s.ownerKeys b with
    | none => .refused 0x19
    | some ks =>
      let (n, t) := s.newId
      let set := if recovery then [] else placementOf n (leAt b 30 2)
      let o := s.newOwner b ks set recovery
      let t := { t with owners := Tab.put t.owners id o }
      if recovery then .opened id t
      else
        let k := trapAreaPages set.length
        if o.framesUsed + k > o.frameQuota then .refused 0x17
        else
          match t.mapPages id ((List.range k).map trapPage) with
          | some t => .opened id t
          | none => .refused 0x17

/-- CTX_OPEN as a command of owner 0 (R44, R45); the security processor of port die 0 handles it (R19). -/
def execCtxOpen (owner cmd : Nat) (s : State) : Host.Outcome State Fault Refusal :=
  .next (s.onCmd owner cmd 0x01 fun _ c =>
    if (s.identityWay c.port).isNone then s
    else match s.openOwner c.bytes false with
    | .refused st => s.refuse owner cmd st
    | .opened id t => t.finishCmd owner cmd 0 (BitVec.ofNat 64 id) 0 0)

/-- The completion record of a bootstrap message (R40). -/
def bootCompletion (c : Cmd) (status : Nat) (r0 : W64) : Completion :=
  { tag := c.tag, status := status, code := c.code, version := c.version, r0 := r0, r1 := 0, r2 := 0 }

/-- The oldest message with a command code that has reached port die 0 from the bootstrap endpoint (R19, R40). -/
def State.bootWaiting (s : State) (code : Nat) : Option RxMessage :=
  s.rx.find? fun m => m.owner == bootEndpoint && leAt m.bytes 1 1 == code && (s.identityWay m.port).isSome

/-- Answer a bootstrap message on the flow that carried it (R40). -/
def State.bootReply (s : State) (m : RxMessage) (c : Completion) (more : List Byte) : State :=
  { s with rx := s.rx.erase m, tx := s.tx ++ [.reply m.flow m.port (c.bytes ++ more)] }

/-- The status of checks 1 and 2 of R398 for a bootstrap message. -/
def bootStatus (c : Cmd) : Option Nat :=
  if !(c.version == 1 || c.version == 2) then some 0x12
  else if !c.framed then some 0x10
  else none

/-- BOOTSTRAP_CTX_OPEN (R40, R45): owner 0 is opened once per start. The completion goes to the sender, and into the
completion ring that the message names. -/
def execBootstrapCtxOpen (s : State) : Host.Outcome State Fault Refusal :=
  match s.bootWaiting 0x01 with
  | none => .next s
  | some m =>
    let c := Cmd.ofMessage m
    if !(s.phase = .up || s.phase = .recovery) then .next s
    else if (s.owner? 0).isSome then
      .next { s with rx := s.rx.erase m,
                     counters := { s.counters with bootstrapDropped := s.counters.bootstrapDropped + 1 } }
    else
      match bootStatus c with
      | some st => .next (s.bootReply m (bootCompletion c st 0) [])
      | none =>
        match s.openOwner m.bytes true with
        | .refused st => .next (s.bootReply m (bootCompletion c st 0) [])
        | .opened id t =>
          let r := bootCompletion c 0 0
          .next ((t.bootReply m r []).pushCompletion id r)

/-! ### Closing an owner (R53) -/

/-- What a command had performed when its owner's closing stops it: bytes or pages (R53). -/
def Cmd.performedCount (c : Cmd) : W64 :=
  if c.code = 0x03 || c.code = 0x04 || c.code = 0x06 || c.code = 0x07 then BitVec.ofNat 64 c.progress else 0

/-- Stop the owner's commands that are dispatched and not completed: a running launch completes with "team terminated"
(R53 steps 1 and 2). -/
def State.stopCommands (s : State) (target owner cmd : Nat) : State :=
  match s.owner? target with
  | none => s
  | some o => o.cmds.foldl (fun s x =>
      if target = owner && x.1 = cmd then s
      else
        match x.2.phase with
        | .dispatched => s.finishCmd target x.1 0x20 x.2.performedCount 0 0
        | .running =>
          match x.2.launch.bind s.launch? with
          | some l => s.finishCmd target x.1 0x21 (BitVec.ofNat 64 l.seq) (BitVec.ofNat 64 l.placedAll) 0
          | none => s.finishCmd target x.1 0x20 x.2.performedCount 0 0
        | _ => s) s

/-- The records of the owner's host-posted task waves that are terminated with it (R90), the saved ones among them. -/
def State.taskRecords (s : State) (target : Nat) : State :=
  let mine (t : Team) : Bool := t.owner == target && t.launch.isNone
  let record (s : State) (t : Team) (w : Option Wave) : State :=
    s.pushCompletion target { tag := 0, status := 0x21, code := 0x09, version := t.version, r0 := t.arg,
                              r1 := w.elim 0 (·.trapArea), r2 := 0 }
  let s := (s.teams.filter fun x => mine x.2).foldl (fun s x => record s x.2 (x.2.waves.head?.bind s.wave?)) s
  (s.saved.filter fun x => mine x.2.team).foldl (fun s x => record s x.2.team (x.2.waves.head?.map (·.2))) s

/-- End everything that runs for an owner, without traps; what copies and remote accesses had not written is never written
(R53 steps 1 to 3). -/
def State.beginClose (s : State) (target owner cmd : Nat) : State :=
  let s := (s.stopCommands target owner cmd).taskRecords target
  let mine (n : Nat) : Bool := match s.wave? n with
    | some w => w.owner == target
    | none => false
  let s := { s with
    remote := s.remote.filter fun x => x.2.owner != target,
                    ringJobs := s.ringJobs.filter fun x => x.2.owner != target,
    cur := match s.cur with
      | some c => if mine c.1 then none else s.cur
      | none => none }
  let s := s.dropTeams fun t => t.owner == target
  let s := { s with launches := s.launches.filter fun x => x.2.owner != target,
                    saved := s.saved.filter fun x => x.2.team.owner != target,
                    cores := Tab.mapVal (fun _ (c : Core) => match c.hold with
                      | some h => if h.1 = target then { c with hold := none } else c
                      | none => c) s.cores }
  s.updOwner target fun o => { o with closing := true, commits := [], joins := [], pool := 0 }

/-- Return an owner's frames, its connections and its id (R53 steps 4 to 7). -/
def State.freeOwner (s : State) (target : Nat) : State :=
  match s.owner? target with
  | none => s
  | some o =>
    let s := o.pages.foldl (fun s p => match p.frame with
      | some f => s.giveFrames f p.frames
      | none => s) s
    let s := o.sets.foldl (fun s x => x.2.shadow.foldl (fun s f => s.giveFrames f.1 1) s) s
    { s with owners := Tab.drop s.owners target, rx := s.rx.filter fun m => m.owner != target,
             connections := s.connections.filter fun c => c.2 != target,
             ivgil := { s.ivgil with breaks := s.ivgil.breaks.filter fun b => b.1 != target,
                                     catching := s.ivgil.catching.filter fun b => b.1 != target } }

/-- Every other command of a closing owner has had its completion committed. -/
def Owner.drained (o : Owner) (self : Option Nat) : Bool := o.cmds.all fun x => some x.1 == self

/-- CTX_CLOSE (R53): first everything of the owner ends, then, once its other commands have completed, those still on their way to
its ring among them, its keys, frames and id go. An owner that closes itself has its completion as the last record of its ring; where the ring is full then, that and what
still waits for room is discarded (R51). -/
def execCtxClose (owner cmd : Nat) (s : State) : Host.Outcome State Fault Refusal :=
  .next (s.onCmd owner cmd 0x02 fun _ c =>
    let target := c.nat 16 4
    if c.phase = .running then
      match s.owner? target with
      | none => s.finishCmd owner cmd 0 0 0 0
      | some o =>
        if !(o.drained (if target = owner then some cmd else none)) || (s.waitingMessage target).isSome then s
        else if target = owner then
          (s.pushCompletion owner { c.completion with status := 0, r0 := 0, r1 := 0, r2 := 0 }).freeOwner owner
        else (s.freeOwner target).finishCmd owner cmd 0 0 0 0
    else if c.bytes.length ≠ 24 || c.nat 20 4 ≠ 0 || target > 1023 then s.refuse owner cmd 0x10
    else
      match s.owner? target with
      | none => s.refuse owner cmd 0x14
      | some o =>
        if target = 0 || o.closing then s.refuse owner cmd 0x14
        else (s.beginClose target owner cmd).updCmd owner cmd fun x => { x with phase := .running })

end Sys2Proof.Machine
end

