-- ==== Sys2Proof/Machine/Attest.lean ====
section
/-!
DEFINITION. ATTEST (R40, R59, R60): one SPDM request and its response. The rules give which requests are answered, the
version, the algorithms, the certificate slot and the measurements; the places of these in an SPDM 1.3 message, and its code
numbers, are PRESUMED from DMTF's specification of it, and so are the messages that a signature covers (log entry 19). Nonces
and capability values are free; signatures are computed with the device identity key.
-/
namespace Sys2Proof.Machine

/-! ### The identity certificate chain (R16, R59) -/

/-- `n` free bytes of an SPDM message, of the `k`-th response. -/
def freeSpdmBytes (k from' n : Nat) : List Byte := (List.range n).map fun i => Config.freeSpdm k (from' + i)

/-- The certificate chain of slot 0, as SPDM serves it; empty where no record is in use (R21). -/
def State.certChain (s : State) : List Byte :=
  let r := s.flash.config
  if r.isEmpty then []
  else
    let certs := (recordChain r).reverse.flatten
    leBytes 2 (36 + certs.length) ++ leBytes 2 0 ++ freeSpdmBytes 0 0 32 ++ certs

/-! ### Requests and responses -/

/-- The header of a response: version 1.3, its code, and two parameters. -/
def spdmHeader (code p1 p2 : Nat) : List Byte := [0x13, BitVec.ofNat 8 code, BitVec.ofNat 8 p1, BitVec.ofNat 8 p2]

/-- An ERROR response. -/
def spdmError (code data : Nat) : List Byte := spdmHeader 0x7F code data

/-- The request codes that are answered (R59). -/
def spdmCodes : List Nat := [0x84, 0xE1, 0xE3, 0x81, 0x82, 0x83, 0xE0]

/-- A measurement block: a raw SHA-256 digest at an index (R60). -/
def State.measurementBlock (s : State) (i : Nat) : List Byte :=
  leBytes 1 i ++ leBytes 1 1 ++ leBytes 2 35 ++ leBytes 1 0x80 ++ leBytes 2 32 ++ digestBytes (s.measurements.getD (i - 1) 0)

/-- The VERSION response: the device answers 1.3 (R59). -/
def versionResponse : List Byte := [0x10, 0x04, 0, 0, 0, 1, 0x00, 0x13]

/-- The CAPABILITIES response; its values are free. -/
def capabilitiesResponse (k : Nat) : List Byte := spdmHeader 0x61 0 0 ++ freeSpdmBytes k 0 16

/-- The ALGORITHMS response: ECDSA on P-256 and SHA-256, and no other algorithm (R59). -/
def algorithmsResponse (k : Nat) : List Byte :=
  spdmHeader 0x63 0 0 ++ leBytes 2 36 ++ leBytes 1 1 ++ freeSpdmBytes k 0 1 ++ leBytes 4 2 ++ leBytes 4 0x10 ++
  leBytes 4 1 ++ leBytes 11 0 ++ leBytes 1 0 ++ leBytes 1 0 ++ leBytes 1 0 ++ leBytes 2 0

/-- The DIGESTS response: slot 0 where a record is in use (R21, R59). -/
def State.digestsResponse (s : State) : List Byte :=
  if s.certChain.isEmpty then spdmHeader 0x01 1 0
  else spdmHeader 0x01 1 1 ++ digestBytes (sha256 s.certChain)

/-- The CERTIFICATE response (R59); an empty slot is an invalid request (R21). -/
def State.certificateResponse (s : State) (q : List Byte) : List Byte :=
  let chain := s.certChain
  let off := leAt q 4 2
  if leAt q 2 1 % 16 ≠ 0 || chain.isEmpty || off ≥ chain.length then spdmError 0x01 0
  else
    let n := min (leAt q 6 2) (chain.length - off)
    spdmHeader 0x02 0 0 ++ leBytes 2 n ++ leBytes 2 (chain.length - off - n) ++ slice chain off n

/-- Every measurement block, in index order. -/
def State.allBlocks (s : State) : List Byte := (List.range 4).flatMap fun i => s.measurementBlock (i + 1)

/-- The CHALLENGE_AUTH response without its signature (R59). -/
def State.challengeResponse (s : State) (q : List Byte) (k : Nat) : List Byte :=
  if leAt q 2 1 % 16 ≠ 0 then spdmError 0x01 0
  else
    let hash := if s.certChain.isEmpty then freeSpdmBytes k 0 32 else digestBytes (sha256 s.certChain)
    let summary := if leAt q 3 1 = 0 then [] else digestBytes (sha256 s.allBlocks)
    spdmHeader 0x03 0 1 ++ hash ++ freeSpdmBytes k 32 32 ++ summary ++ leBytes 2 0 ++ slice q 36 8

/-- A GET_MEASUREMENTS request asks for a signature. -/
def asksSignature (q : List Byte) : Bool := (leAt q 2 1).testBit 0

/-- The MEASUREMENTS response without its signature (R60): index 0xFF asks for all four, index 0 for their number. -/
def State.measurementsResponse (s : State) (q : List Byte) (k : Nat) : List Byte :=
  let index := leAt q 3 1
  let tail (record : List Byte) (n total : Nat) : List Byte :=
    spdmHeader 0x60 total 0 ++ leBytes 1 n ++ leBytes 3 record.length ++ record ++ freeSpdmBytes k 0 32 ++ leBytes 2 0 ++
    (if asksSignature q then slice q 37 8 else slice q 4 8)
  if index = 0 then tail [] 0 4
  else if index = 0xFF then tail s.allBlocks 4 0
  else if index ≤ 4 then tail (s.measurementBlock index) 1 0
  else spdmError 0x01 0

/-! ### What a signature covers (R59; log entry 19) -/

/-- What a request is, for the messages that later signatures cover. -/
inductive SpdmPart where
  | version | terms | certificate | challenge | measurement | other
  deriving DecidableEq, Repr

/-- The messages kept after a request and its response of a kind, `m` being both without the signature. -/
def SpdmLog.next (l : SpdmLog) (part : SpdmPart) (signed : Bool) (m : List Byte) : SpdmLog :=
  match part with
  | .version => { opening := m, certs := [], measured := [] }
  | .terms => { opening := l.opening ++ m, certs := [], measured := [] }
  | .certificate => { l with certs := l.certs ++ m, measured := [] }
  | .challenge => { l with certs := [], measured := [] }
  | .measurement => { l with certs := [], measured := if signed then [] else l.measured ++ m }
  | .other => { l with measured := [] }

/-- The messages that a signature of a kind covers. -/
def SpdmLog.covered (l : SpdmLog) (part : SpdmPart) (m : List Byte) : List Byte :=
  l.opening ++ (if part = .measurement then l.measured else l.certs) ++ m

/-- A text as bytes. -/
def textBytes (t : String) : List Byte := t.toList.map fun c => BitVec.ofNat 8 c.toNat

/-- What the identity key signs: the version's prefix, the name of the message, and the digest of what is covered. -/
def signedMessage (part : SpdmPart) (covered : List Byte) : List Byte :=
  let name := textBytes (if part = .measurement then "responder-measurements signing" else "responder-challenge_auth signing")
  (List.replicate 4 (textBytes "dmtf-spdm-v1.3.*")).flatten ++ List.replicate (36 - name.length) 0 ++ name ++
  digestBytes (sha256 covered)

/-- The signature with the device identity key, of the `k`-th response (R19, R59). -/
def State.identitySign (s : State) (k : Nat) (m : List Byte) : List Byte :=
  match s.identity with
  | pair :: _ => ecdsaSign pair.secret (scalarOf (Config.freeNonce k)) m
  | [] => []

/-- The request code that a test asks for is a challenge or asks for signed measurements. -/
def signs (part : SpdmPart) (q : List Byte) : Bool :=
  part == .challenge || (part == .measurement && asksSignature q)

/-- A response whole, signed where it is to be, and the messages kept after it; an ERROR response is not signed and ends the run
of measurements. -/
def State.spdmWhole (s : State) (l : SpdmLog) (part : SpdmPart) (q body : List Byte) (k : Nat) : List Byte × SpdmLog :=
  if leAt body 1 1 = 0x7F then (body, l.next .other false [])
  else if signs part q then
    (body ++ s.identitySign k (signedMessage part (l.covered part (q ++ body))), l.next part true (q ++ body))
  else (body, l.next part false (q ++ body))

/-! ### The ATTEST command (R40, R46) -/

/-- The fields of an ATTEST lie within their limits: its length follows the request's, and the padding is zero. -/
def Cmd.attestOk (c : Cmd) : Bool :=
  let m := c.nat 28 4
  c.bytes.length == 32 + alignUp m 8 && allZero (slice c.bytes (32 + m) (alignUp m 8 - m))

/-- The SPDM request of an ATTEST. -/
def Cmd.request (c : Cmd) : List Byte := slice c.bytes 32 (c.nat 28 4)

/-- The messages kept for the requests of an owner, or of the bootstrap endpoint. -/
def State.spdmLog (s : State) (key : Nat) : SpdmLog := (Tab.find s.spdm key).getD { opening := [], certs := [], measured := [] }

/-- The response to an ATTEST, cut to the host's maximum, its status, and the state that keeps the messages. A response beyond the
maximum is truncated, with status "malformed" (R59). -/
def State.spdmAnswer (s : State) (key : Nat) (part : SpdmPart) (response : List Byte → Nat → List Byte) (c : Cmd) :
    List Byte × Nat × State :=
  let (b, l) := s.spdmWhole (s.spdmLog key) part c.request (response c.request (s.free + 1)) (s.free + 1)
  (b.take (c.nat 24 4), if b.length > c.nat 24 4 then 0x10 else 0, { s with free := s.free + 1, spdm := Tab.put s.spdm key l })

/-- Answer an ATTEST whose request passes a test; `response` is given the number of the response. The security processor of port
die 0 answers it, wherever it arrived (R19). -/
def State.attest (s : State) (via : SpdmVia) (mine : Nat → Bool) (part : SpdmPart) (response : List Byte → Nat → List Byte) :
    State :=
  match via with
  | .bootstrap =>
    match s.bootWaiting 0x0F with
    | none => s
    | some m =>
      let c := Cmd.ofMessage m
      if !(s.phase = .up || s.phase = .recovery) then s
      else
        match bootStatus c with
        | some st => s.bootReply m (bootCompletion c st 0) []
        | none =>
          if !c.attestOk then s.bootReply m (bootCompletion c 0x10 0) []
          else if !(mine (leAt c.request 1 1)) then s
          else
            let (b, st, t) := s.spdmAnswer bootEndpoint part response c
            t.bootReply m (bootCompletion c st (BitVec.ofNat 64 b.length)) b
  | .command o k =>
    s.onCmd o k 0x0F fun _ c =>
      if !c.attestOk then s.refuse o k 0x10
      else if (s.identityWay c.port).isNone || !(mine (leAt c.request 1 1)) then s
      else
        let (b, st, t) := s.spdmAnswer o part response c
        (t.putHost (c.nat 16 8) b).finishCmd o k st (BitVec.ofNat 64 b.length) 0 0

/-- GET_VERSION (R59). -/
def execGetVersion (via : SpdmVia) (s : State) : Host.Outcome State Fault Refusal :=
  .next (s.attest via (· == 0x84) .version fun _ _ => versionResponse)

/-- GET_CAPABILITIES (R59). -/
def execGetCapabilities (via : SpdmVia) (s : State) : Host.Outcome State Fault Refusal :=
  .next (s.attest via (· == 0xE1) .terms fun _ k => capabilitiesResponse k)

/-- NEGOTIATE_ALGORITHMS (R59). -/
def execNegotiateAlgorithms (via : SpdmVia) (s : State) : Host.Outcome State Fault Refusal :=
  .next (s.attest via (· == 0xE3) .terms fun _ k => algorithmsResponse k)

/-- GET_DIGESTS (R59). -/
def execGetDigests (via : SpdmVia) (s : State) : Host.Outcome State Fault Refusal :=
  .next (s.attest via (· == 0x81) .certificate fun _ _ => s.digestsResponse)

/-- GET_CERTIFICATE (R21, R59). -/
def execGetCertificate (via : SpdmVia) (s : State) : Host.Outcome State Fault Refusal :=
  .next (s.attest via (· == 0x82) .certificate fun q _ => s.certificateResponse q)

/-- CHALLENGE (R59). -/
def execChallenge (via : SpdmVia) (s : State) : Host.Outcome State Fault Refusal :=
  .next (s.attest via (· == 0x83) .challenge fun q k => s.challengeResponse q k)

/-- GET_MEASUREMENTS (R59, R60). -/
def execGetMeasurements (via : SpdmVia) (s : State) : Host.Outcome State Fault Refusal :=
  .next (s.attest via (· == 0xE0) .measurement fun q k => s.measurementsResponse q k)

/-- Every other request is answered with an ERROR response of code UnsupportedRequest (R59). -/
def execSpdmUnsupportedRequest (via : SpdmVia) (s : State) : Host.Outcome State Fault Refusal :=
  .next (s.attest via (fun n => !(spdmCodes.contains n)) .other fun q _ => spdmError 0x07 (leAt q 1 1))

end Sys2Proof.Machine
end

