-- ==== Sys2Proof/Machine/Hurdle.lean ====
section
/-!
DEFINITION. Group A: the hurdle array (R346–R353), and the event by which an HRUN completes.
-/
namespace Sys2Proof.Machine

/-! ### Cells and configuration (R346–R348) -/

/-- A cell image (R346). -/
structure Cell where
  fmask : W64
  miss : Bool
  valid : Bool
  feat : Nat
  thr : Nat
  deriving DecidableEq, Repr

/-- The fields of a cell image. -/
def cellOf (x : BitVec 128) : Cell :=
  { fmask := x.extractLsb' 64 64, miss := x.getLsbD 43, valid := x.getLsbD 42, feat := (x.extractLsb' 32 10).toNat,
    thr := (x.extractLsb' 0 32).toNat }

/-- The image keeps its reserved bits zero. -/
def cellOk (x : BitVec 128) : Bool := x.extractLsb' 44 20 == 0

/-- A cell as an owner reads it: zero under another owner's tag, a free value where nothing defined is held (R56, R347). -/
def Core.readCell (c : Core) (owner epoch k : Nat) : BitVec 128 :=
  let free : BitVec 128 :=
    (Config.freeRow (2 * epoch + 1) (4 * k + 3) ++ Config.freeRow (2 * epoch + 1) (4 * k + 2) ++
     Config.freeRow (2 * epoch + 1) (4 * k + 1) ++ Config.freeRow (2 * epoch + 1) (4 * k) : BitVec 128)
  match Tab.find c.cellTag k with
  | some t => if t = owner then (Tab.find c.cells k).getD free else 0
  | none => free

/-- Write cells from one number on. -/
def Core.writeCells (c : Core) (owner : Nat) : Nat → List (BitVec 128) → Core
  | _, [] => c
  | k, x :: r =>
    Core.writeCells { c with cells := Tab.put c.cells k x, cellTag := Tab.put c.cellTag k owner } owner (k + 1) r

/-- Features present, threshold format and links of a configuration word (R347). -/
def cfgFeatures (x : W64) : Nat := x.toNat % 2 ^ 10
/-- The threshold format. -/
def cfgFormat (x : W64) : Nat := x.toNat / 2 ^ 14 % 4
/-- The configuration word keeps its reserved values. -/
def cfgOk (x : W64) : Bool := cfgFormat x != 3 && x.toNat / 2 ^ 10 % 16 == 0

/-- Column `c` continues the tree of column `c − 1`. -/
def linked (x : W64) (c : Nat) : Bool := c % 4 != 0 && x.getLsbD (16 + 3 * (c / 4) + (c % 4 - 1))

/-- A tree: its lead column, its columns, and its VALID cells with their column's place in the tree. -/
structure Tree where
  lead : Nat
  cols : Nat
  cells : List (Nat × Cell)
  deriving DecidableEq, Repr

/-- The columns of a tree that starts at `c`: `c` and those that link to it, `fuel` more at most. -/
def treeCols (x : W64) (c : Nat) : Nat → Nat
  | 0 => 1
  | fuel + 1 => if linked x (c + 1) && c + 1 < 64 then 1 + treeCols x (c + 1) fuel else 1

/-- The trees of an array in ascending order of their lead columns (R348). -/
def Core.trees (c : Core) (owner epoch : Nat) (x : W64) : List Tree :=
  ((List.range 64).filter fun col => !(linked x col)).map fun col =>
    let m := treeCols x col 3
    { lead := col, cols := m,
      cells := (List.range (64 * m)).filterMap fun i =>
        let cell := cellOf (c.readCell owner epoch (64 * col + i))
        if cell.valid then some (i / 64, cell) else none }

/-! ### Loading the array (R347, R349, R350) -/

/-- A team that holds the hurdle claim may use group A (R354). -/
def State.withHurdle (s : State) (e : Env) (body : Team → Res) : Res :=
  if !e.runs then .done s
  else
    match s.teamOf e.w with
    | none => e.illegal s
    | some t => if t.task || !t.hurdle then e.illegal s else body t

/-- An HRUN of the team has not completed. -/
def State.hrunOut (s : State) (tid : Nat) : Bool := s.engines.any fun x => x.2.team == tid && (match x.2.op with
  | .hrun .. => true
  | _ => false)

/-- HCFG (R347); in round mode it takes effect at the bell (R350). -/
def execHcfg (h : Head) (a : Operand) (s : State) : Host.Outcome State Fault Refusal :=
  s.runWord (.hcfg h a) h fun s e => s.withHurdle e fun t =>
    let x := s.uni e a
    if !(cfgOk x) then e.illegal s
    else if s.isRound e.w then .done (s.buffered e.n (.hcfg x))
    else if s.hrunOut e.w.team then .wait .engines
    else .done (s.updCore t.core fun c => { c with config := some x })

/-- Write cells of a core's array; a cell written whole is free of errors (R218). -/
def State.putCells (s : State) (core owner first : Nat) (images : List (BitVec 128)) : State :=
  { s.updCore core fun c => c.writeCells owner first images with
    badParts := s.badParts.filter fun p => match p with
      | .cell c k => !(c == core && decide (first ≤ k) && decide (k < first + images.length))
      | _ => true }

/-- Write cells, at once or at the bell. -/
def State.loadCells (s : State) (e : Env) (t : Team) (first : Nat) (images : List (BitVec 128)) : Res :=
  if s.isRound e.w then .done (s.buffered e.n (.cells first images))
  else if s.hrunOut e.w.team then .wait .engines
  else .done (s.putCells t.core t.owner first images)

/-- HLD (R349). -/
def execHld (h : Head) (a b c : Operand) (s : State) : Host.Outcome State Fault Refusal :=
  s.runWord (.hld h a b c) h fun s e => s.withHurdle e fun t =>
    let src := (lo32 (s.uni e a)).toNat
    let first := (s.uni e b).toNat
    let n := (s.uni e c).toNat
    if n < 1 || first + n > 4096 then e.illegal s
    else if src % 16 ≠ 0 then .trap s (e.onceFault 0x10 (BitVec.ofNat 64 src) 16 AccKind.load.code 1)
    else if src + 16 * n > t.windowSize then .trap s (e.onceFault 0x11 (BitVec.ofNat 64 src) 16 AccKind.load.code 1)
    else if s.badWindow t src (16 * n) then
      .trap s { e.onceFault 0x20 (BitVec.ofNat 64 src) 16 AccKind.load.code 1 with errs := s.badGranules t src (16 * n) }
    else
      let bytes := s.windowBytes (s.viewOf e.w).buf e.w.team t src (16 * n)
      let images := (chunks 16 n bytes).map fun x => BitVec.ofNat 128 (ofLe x)
      if images.any fun x => !(cellOk x) then e.illegal s else s.loadCells e t first images

/-- HCLR (R349). -/
def execHclr (h : Head) (a b : Operand) (s : State) : Host.Outcome State Fault Refusal :=
  s.runWord (.hclr h a b) h fun s e => s.withHurdle e fun t =>
    let first := (s.uni e a).toNat
    let n := (s.uni e b).toNat
    if n < 1 || first + n > 4096 then e.illegal s else s.loadCells e t first (List.replicate n 0)

/-! ### HRUN (R351) -/

/-- The configuration of the team's array, while it is defined (R347). -/
def State.hurdleConfig (s : State) (t : Team) : Option W64 := (s.core t.core).config

/-- The configuration an HRUN of a wave will meet, as far as its issue can tell: the wave's own HCFG that waits for the
bell, else the array's (R181, R350; log entry 17). -/
def State.configAhead (s : State) (w : Wave) (t : Team) : Option W64 :=
  w.buffer.foldl (fun acc a => match a with
    | .hcfg x => some x
    | _ => acc) (s.hurdleConfig t)

/-- The fault of an HRUN at issue: cause, address and kind, alignment first (R351). -/
def hrunFault (size base stride exits features : Nat) (exec : W32) : Option (Nat × Nat × AccKind) :=
  let ls := lanesOf exec
  if base % 4 ≠ 0 then some (0x10, base, .load)
  else if stride % 4 ≠ 0 then some (0x10, stride, .load)
  else if exits % 64 ≠ 0 then some (0x10, exits, .store)
  else
    match ls.find? fun l => decide (base + l * stride + 4 * features > size) with
    | some l => some (0x11, base + l * stride, .load)
    | none =>
      match ls.find? fun l => decide (exits + 64 * l + 64 > size) with
      | some l => some (0x11, exits + 64 * l, .store)
      | none => (ls.find? fun l => hitsControl (exits + 64 * l) 64).map fun l => (0x12, exits + 64 * l, .store)

/-- HRUN (R351). -/
def execHrun (h : Head) (tok : BitVec 3) (a b c : Operand) (s : State) : Host.Outcome State Fault Refusal :=
  s.runWord (.hrun h tok a b c) h fun s e => s.withHurdle e fun t =>
    let base := (lo32 (s.uni e a)).toNat
    let stride := (lo32 (s.uni e b)).toNat
    let exits := (lo32 (s.uni e c)).toNat
    match s.configAhead e.w t with
    | none => e.illegal s
    | some x =>
      if stride > 2 ^ 20 then e.illegal s
      else
        match hrunFault t.windowSize base stride exits (cfgFeatures x + 1) e.exec with
        | some (f, a, k) => .trap s (e.onceFault f (BitVec.ofNat 64 a) 4 k.code 1)
        | none => .done (s.addEngine { wave := e.n, team := e.w.team, token := some tok.toNat, channel := none,
                                       op := .hrun base stride exits e.exec, pageWait := none })

/-- A threshold as its format gives it, exact (R347). -/
def threshold (format thr : Nat) : Num :=
  match format with
  | 0 => fp32.read thr
  | 1 => bf16.read (thr / 2 ^ 16)
  | _ =>
    let n := thr % 2 ^ 16
    if n ≥ 2 ^ 15 then .fin true (2 ^ 16 - n) 0 else .fin false n 0

/-- A cell's test of a sample (R351). -/
def Cell.test (c : Cell) (cfg : W64) (features : Array Nat) : Bool :=
  match features[c.feat]? with
  | none => c.miss
  | some x =>
    let v := fp32.read x
    let t := threshold (cfgFormat cfg) c.thr
    if v.isNan then c.miss else !t.isNan && !(numLess t v)

/-- The leaf mask of a tree, column by column. -/
def Tree.mask (t : Tree) (cfg : W64) (features : Array Nat) : List W64 :=
  t.cells.foldl (fun m c => if c.2.test cfg features then m else modifyAt (fun x => x &&& c.2.fmask) c.1 m)
    (List.replicate t.cols (BitVec.allOnes 64))

/-- The lowest set bit of a mask of columns. -/
def lowestLeaf (m : List W64) : Option Nat :=
  (List.range (64 * m.length)).find? fun i => (m.getD (i / 64) 0).getLsbD (i % 64)

/-- The bytes a tree writes in an exit row, and whether it is malformed (R351). -/
def Tree.codes (t : Tree) (cfg : W64) (features : Array Nat) : List Byte × Bool :=
  let tail (second : Byte) : List Byte := (List.replicate (t.cols - 1) (0xFE : Byte)).modifyHead fun _ => second
  if t.cells.isEmpty then (if t.cols = 1 then ([0xFD], false) else (0x00 :: tail 0xFD, false))
  else
    match lowestLeaf (t.mask cfg features) with
    | none => if t.cols = 1 then ([0xFF], true) else (0x00 :: tail 0xFF, true)
    | some i => (BitVec.ofNat 8 i :: tail 0xFE, false)

/-- HRUN's operation on one lane: it reads its sample, scores every tree and writes its exit row; the flag tells of an
uncorrectable error, which is logged and at which it stops (R218, R219). -/
def State.scoreLane (s : State) (id : Nat) (t : Team) (cfg : W64) (trees : List Tree) (base stride exits l : Nat) :
    State × Bool × Bool :=
  let n := cfgFeatures cfg + 1
  if s.badWindow t (base + l * stride) (4 * n) then
    ({ s with errorLog := s.errorLog ++ s.badGranules t (base + l * stride) (4 * n) }, true, false)
  else
    let bytes := (s.windowBytes [] id t (base + l * stride) (4 * n)).toArray
    let features := ((List.range n).map fun f => ofLe ((List.range 4).map fun b => bytes.getD (4 * f + b) 0)).toArray
    let rows := trees.map fun x => x.codes cfg features
    (s.putScratch t.core t.owner (t.windowBase + exits + 64 * l) (rows.flatMap (·.1)), false, rows.any (·.2))

/-- The cells of a core's array with an uncorrectable error (R218). -/
def State.badCells (s : State) (core : Nat) : List ErrorPlace :=
  (s.badParts.filter fun p => match p with
    | .cell c _ => c == core
    | _ => false).map .part

/-- HRUN_COMPLETION (R350, R351): the lanes are scored in ascending order. An earlier HRUN of the team completes
first. An uncorrectable error in a cell terminates the team (R218). -/
def execHrunCompletion (engine : Nat) (s : State) : Host.Outcome State Fault Refusal :=
  match s.engine? engine with
  | some x =>
    match x.op, s.team? x.team with
    | .hrun base stride exits mask, some t =>
      let before := s.engines.any fun y => decide (y.1 < engine) && y.2.team == x.team && (match y.2.op with
        | .hrun .. => true
        | _ => false)
      let lost := s.badCells t.core
      if before || !(s.engineActs x) then .next s
      else if !lost.isEmpty then .next (({ s with errorLog := s.errorLog ++ lost } : State).terminate x.team 0x20)
      else
        let core := s.core t.core
        let cfg := core.config.getD 0
        let trees := core.trees t.owner x.team cfg
        let (s, failed, mal) := (lanesOf mask).foldl (fun (acc : State × Bool × W32) l =>
          if acc.2.1 then acc
          else
            let (s, bad, m) := acc.1.scoreLane x.team t cfg trees base stride exits l
            (s, bad, if m then acc.2.2 ||| laneBit l else acc.2.2)) (s, false, 0)
        .next ((s.updWave x.wave fun w => { w with hstat := w.hstat ||| mal }).engineDone engine failed)
    | _, _ => .next s
  | none => .next s

/-! ### HGATH and HEXIT (R353) -/

/-- The leaf a tree's bytes select under the current structure; none for a malformed tree (R353). -/
def Tree.leaf (t : Tree) (row : List Byte) : Option Nat :=
  let lead := (row.getD t.lead 0).toNat
  if t.cols = 1 then (if lead ≤ 63 then some lead else none)
  else if row.getD (t.lead + 1) 0 ≠ 0xFE then none
  else if lead < 64 * t.cols then some lead
  else none

/-- One past the highest column of a tree that holds a VALID cell. -/
def leafColumns (trees : List Tree) : Nat :=
  trees.foldl (fun m t => if t.cells.isEmpty then m else max m (t.lead + t.cols)) 0

/-- Where a lane of HGATH or HEXIT stands after reading: a value and its flags, or an uncorrectable error at an offset. -/
inductive Gathered where
  | value (x : Nat) (f : Flags)
  | bad (off : Nat)

/-- The sum of a lane's leaves in tree order (R201, R353). -/
def State.gatherLane (s : State) (buf : List Act) (id : Nat) (t : Team) (trees : List Tree) (exits leaves l : Nat) :
    Gathered :=
  if s.badWindow t (exits + 64 * l) 64 then .bad (exits + 64 * l)
  else
    let row := s.windowBytes buf id t (exits + 64 * l) 64
    trees.foldl (fun acc x => match acc with
      | .bad a => .bad a
      | .value v f =>
        if x.cells.isEmpty then .value v f
        else
          match x.leaf row with
          | none => .value (fp32.add .rne v fp32.nan).1 (f ||| fNV)
          | some e =>
            let a := leaves + 256 * x.lead + 4 * e
            if s.badWindow t a 4 then .bad a
            else
              let (y, g) := fp32.add .rne v (ofLe (s.windowBytes buf id t a 4))
              .value y (f ||| g)) (.value (fp32.signed true 0) 0)

/-- Write what the lanes gathered, up to the first uncorrectable error. -/
def State.gatherLanes (s : State) (e : Env) (d : Operand) (f : Nat → Gathered) : List Nat → Res
  | [] => .done s
  | l :: r =>
    match f l with
    | .value x fl =>
      State.gatherLanes (s.updWave e.n fun w => (w.writeLane d 1 l (BitVec.ofNat 64 x)).orFlags fl) e d f r
    | .bad a => .trap s (e.resuming 0x20 l 0 none
        [{ lane := l, cause := 0x20, address := BitVec.ofNat 64 a, size := 4, kind := AccKind.load.code, space := 1 }])

/-- HGATH (R353). -/
def execHgath (h : Head) (d a b : Operand) (s : State) : Host.Outcome State Fault Refusal :=
  s.runWord (.hgath h d a b) h fun s e => s.withHurdle e fun t =>
    let exits := (lo32 (s.uni e a)).toNat
    let leaves := (lo32 (s.uni e b)).toNat
    match s.hurdleConfig t with
    | none => e.illegal s
    | some x =>
      let trees := (s.core t.core).trees t.owner e.w.team x
      let fault (c a : Nat) : Res := .trap s (e.onceFault c (BitVec.ofNat 64 a) 4 AccKind.load.code 1)
      if exits % 64 ≠ 0 then fault 0x10 exits
      else if leaves % 4 ≠ 0 then fault 0x10 leaves
      else
        match (lanesOf e.exec).find? fun l => decide (exits + 64 * l + 64 > t.windowSize) with
        | some l => fault 0x11 (exits + 64 * l)
        | none =>
          if leafColumns trees ≠ 0 && leaves + 256 * leafColumns trees > t.windowSize then fault 0x11 leaves
          else
            let buf := (s.viewOf e.w).buf
            s.gatherLanes e d (fun l => s.gatherLane buf e.w.team t trees exits leaves l) (lanesOf e.exec)

/-- HEXIT (R353). -/
def execHexit (h : Head) (d a b : Operand) (s : State) : Host.Outcome State Fault Refusal :=
  s.runWord (.hexit h d a b) h fun s e => s.withHurdle e fun t =>
    let exits := (lo32 (s.uni e a)).toNat
    let col := (s.uni e b).toNat
    if col > 63 then e.illegal s
    else
      let at' (l : Nat) : Nat := exits + 64 * l + col
      match (lanesOf e.exec).find? fun l => decide (at' l + 1 > t.windowSize) with
      | some l => .trap s (e.onceFault 0x11 (BitVec.ofNat 64 (at' l)) 1 AccKind.load.code 1)
      | none =>
        let buf := (s.viewOf e.w).buf
        s.gatherLanes e d (fun l =>
          if s.badWindow t (at' l) 1 then .bad (at' l)
          else .value (ofLe (s.windowBytes buf e.w.team t (at' l) 1)) 0) (lanesOf e.exec)

end Sys2Proof.Machine
end

