-- ==== Sys2Proof/Machine/Preempt.lean ====
section
/-!
DEFINITION. Pre-emption (R95–R98, R211, R222, R397): a request and its effect, the trap every wave takes, and the save that
the device makes itself.
-/
namespace Sys2Proof.Machine

/-- A request takes effect: its context area is charged, or the team is terminated (R397). -/
def State.takeEffect (s : State) (tid : Nat) : State :=
  match s.team? tid with
  | none => s
  | some t =>
    match t.preempt with
    | none => s
    | some p =>
      if p.effective then s
      else
        match s.charge t.owner contextFrames with
        | some s => s.updTeam tid fun x => { x with preempt := some { p with effective := true, charged := contextFrames } }
        | none => s.terminate tid 0x40

/-- Ask for the pre-emption of a team (R95), for a waiting team where the policy asks: in round mode the request takes effect at
the team's next bell. A further request has no effect. -/
def State.requestPreempt (s : State) (tid : Nat) (waiting : Option (Nat × Nat)) : State :=
  match s.team? tid with
  | none => s
  | some t =>
    if t.preempt.isSome then s
    else
      let s := s.updTeam tid fun x =>
        { x with preempt := some { byPolicy := waiting.isSome, waiting := waiting, back := waiting.isSome, effective := false,
                                   drained := false, charged := 0 } }
      if s.teamRound t then s.stir t.launch else s.takeEffect tid

/-- The teams of a cluster group that are resident: the team itself where it is in none (R73). -/
def State.groupOfTeam (s : State) (tid : Nat) : List Nat :=
  match s.team? tid with
  | none => []
  | some t => if t.task then [tid] else (s.teams.filter fun x => x.1 == tid || x.2.sameGroup t).map (·.1)

/-- A team's pre-emption has taken effect. -/
def Team.preempting (t : Team) : Bool := match t.preempt with
  | some p => p.effective
  | none => false

/-- A wave may leave what its split waits for to take the pre-emption trap (R52, R96). -/
def Wait.leaves : Wait → Bool
  | .tokens _ | .barrier _ _ | .pop _ | .chainEmpty _ | .chainFull .. | .seedFull _ | .claim | .page _ => true
  | _ => false

/-- Every split of the wave stands at a clause boundary, at a JOIN, or in a wait that it leaves. -/
def Wave.atBoundary (w : Wave) : Bool :=
  w.splits.all fun x => x.2.arrived.isSome || x.2.waiting.leaves || (x.2.clause.isEmpty && x.2.waiting == .none)

/-- Engine operations that waves outside a handler have issued are complete (R96 step 1). -/
def State.drainedFor (s : State) (t : Team) : Bool :=
  s.engines.all fun x => !(t.agents.contains x.2.wave) || (match s.wave? x.2.wave with
    | some w => w.trapCtx.isSome
    | none => true)

/-- A waiting CLAIM left or saved: it begins to wait anew when its instruction executes again (R96). -/
def Split.leaveClaim (p : Split) : Split :=
  match p.waiting with
  | .claim => { p with waiting := .none, retry := p.retry.map fun r => { r with carry := 0 } }
  | _ => p

/-- The wave without its waiting CLAIM. -/
def State.leaveClaims (s : State) (n core : Nat) : State :=
  (s.updCore core fun c => { c with claims := c.claims.filter fun m => m != n }).updWave n fun w =>
    { w with splits := Tab.mapVal (fun _ p => p.leaveClaim) w.splits }

/-- A bell of the wave's launch has begun and is held: until it has ended its agents neither issue nor trap (R180, R182). -/
def State.bellHeld (s : State) (w : Wave) : Bool := match s.launchOf w with
  | some l => !l.ringing.isEmpty
  | none => false

/-- The wave is to take the pre-emption trap now (R96 step 2, R211); one without a handler takes it once (R98). -/
def State.preemptDue (s : State) (n : Nat) (w : Wave) : Bool :=
  match s.teamOf w with
  | none => false
  | some t =>
    t.preempting && !w.drover && decide (w.life = .running) && decide (w.stopped = .no) && w.trapCtx.isNone &&
    decide (w.hmode = .none) && w.pending.isNone && !w.saveDue && !(s.bellHeld w) && w.atBoundary && s.drainedFor t &&
    (match s.cur with
     | some c => c.1 != n
     | none => true)

/-- The trap record's argument for a pre-emption: 0 for a PREEMPT command, 1 for the policy (R213). -/
def Team.preemptArgument (t : Team) : W64 := match t.preempt with
  | some p => if p.byPolicy then 1 else 0
  | none => 0

/-- PREEMPTION_TRAP (R96, R211): the wave takes 0x40. -/
def execPreemptionTrap (wave : Nat) (s : State) : Host.Outcome State Fault Refusal :=
  match s.wave? wave with
  | none => .next s
  | some w =>
    if s.preemptDue wave w then
      match s.teamOf w, w.splits.head? with
      | some t, some (k, p) =>
        let s := (s.leaveClaims wave t.core).updWave wave fun x => { x with bellSplit := none, roundEnded := false }
        let m : W32 := p.mask
        .next (s.raise wave
          { cause := 0x40, kind := 4, split := k, header := p.pc, index := p.word, word := 0, active := m, fault := 0,
            exec := m, resume := 32, deferred := 0, carry := 0, slot := none, pops := [], lanes := [],
            argument := t.preemptArgument, sourceKind := 0, source := 0, failed := 0, counted := false,
            late := false, errs := [], fatal := false, sent := false })
      | _, _ => .next s
    else .next s

/-! ### The forced save (R98, R397) -/

/-- The frames a forced save's context area takes. -/
def State.saveFrames (s : State) (t : Team) : Nat :=
  let units := t.waves.foldl (fun n i => match s.wave? i with
    | some w => if w.life = .packed then n else n + w.units
    | none => n) 0
  alignUp (131072 + 4096 * t.windowUnits + 4096 * (t.tiles.length + t.spareTiles.length) +
    65536 * t.hurdle.toNat + 1024 * units) 65536 / 65536

/-- The hurdle cells of a team's core as it holds them. -/
def State.savedCells (s : State) (tid : Nat) (t : Team) : List (BitVec 128) :=
  if t.hurdle then (List.range 4096).map fun k => (s.core t.core).readCell t.owner tid k else []

/-- A wave has still to take its team's pre-emption trap in its handler (R96, R222). -/
def Wave.owesTrap (w : Wave) : Bool :=
  !w.drover && decide (w.life = .running) && w.utvec != 0 && !(w.trapCtx.any fun c => c.cause == 0x40)

/-- Save a team whole: its waves, window, tiles, cells, barriers and queues as they stand, with a request that some wave has
still to be trapped for (R98, R222). -/
def State.saveTeam (s : State) (tid : Nat) (t : Team) (frames : Nat) : State :=
  let s := t.agents.foldl (fun s n => s.leaveClaims n t.core) s
  let core := s.core t.core
  let rows := t.tiles.flatMap fun y => (List.range 32).map fun i => core.row t.owner tid [y] i
  let ready := match t.preempt with
    | some p => p.back
    | none => true
  let depth : W32 := match t.waves.head?.bind s.wave? with
    | some w => w.depthOf 0
    | none => 0
  s.park tid t 0 depth
    { id := tid, team := { t with preempt := none }, waves := s.agentTab t, forced := true,
      window := s.windowBytes [] tid t 0 t.windowSize, tileRows := rows, cells := s.savedCells tid t,
      config := if t.hurdle then core.config else none, frames := frames, ready := ready, sinceBell := true,
      request := if (s.agentTab t).any fun x => x.2.owesTrap then t.preempt else none }

/-- No answer of a remote access is outstanding for an agent of the team. -/
def State.noAnswersDue (s : State) (t : Team) : Bool :=
  (s.remote.all fun x => x.2.engine.isSome || x.2.posted || !(t.agents.contains x.2.wave)) &&
  s.ringJobs.all fun x => match x.2.asker with
    | .lane n _ _ => !(t.agents.contains n)
    | _ => true

/-- A team whose pre-emption has taken effect can be saved by the device: its engines have drained (R96, R98), and no bell of its
launch has begun and is held (R182). -/
def State.saveable (s : State) (tid : Nat) (t : Team) : Bool :=
  t.preempting && ((t.launch.bind s.launch?).all fun l => l.ringing.isEmpty) && !(s.engines.any fun x => x.2.team == tid) && s.noAnswersDue t &&
  (match s.cur with
   | some c => !(t.agents.contains c.1)
   | none => true)

/-- The errors that the save of a team meets in state that belongs to no lane, its core's hurdle cells among it (R218). -/
def State.partsLost (s : State) (tid : Nat) (t : Team) : List ErrorPlace :=
  (s.badParts.filter fun p => t.hasPart tid p || (match p with
    | .cell c _ => t.hurdle && c == t.core
    | _ => false)).map ErrorPlace.part

/-- Every wave of the team that runs has taken its pre-emption trap without a handler: the device is to save it (R68, R98). -/
def State.saveAwaited (s : State) (t : Team) : Bool :=
  t.preempting && s.teamRuns t && t.waves.all fun n => match s.wave? n with
    | some w => decide (w.life ≠ .running) || (w.saveDue && w.pending.isNone)
    | none => true

/-- FORCED_SAVE (R98): when the pre-emption deadline has passed, or the team has no user handler. A context area that the
quota cannot hold terminates the team (R397), and so does an uncorrectable error that belongs to no lane (R218). -/
def execForcedSave (team : Nat) (s : State) : Host.Outcome State Fault Refusal :=
  match s.team? team with
  | none => .next s
  | some t =>
    if s.saveable team t then
      let lost := s.partsLost team t
      if !lost.isEmpty then .next (({ s with errorLog := s.errorLog ++ lost } : State).terminate team 0x20)
      else
      let n := s.saveFrames t
      let had := match t.preempt with
        | some p => p.charged
        | none => 0
      match s.charge t.owner (n - had) with
      | some s => .next (s.saveTeam team t n)
      | none => .next (s.terminate team 0x40)
    else .next s

end Sys2Proof.Machine
end

