-- ==== Sys2Proof/Machine/Placement.lean ====
section
/-!
DEFINITION. Placing teams (R63–R77, R152): a team's start, a pre-empted team's return, the order of placement, and the cores
that round mode draws.
-/
namespace Sys2Proof.Machine

/-! ### Starting a team (R66, R67) -/

/-- A wave before anything is known of it. -/
def Wave.blank : Wave :=
  { owner := 0, launch := none, team := 0, index := 0, role := 0, task := false, drover := false, emask := 0, widBase := 0,
    taskIndex := [], depths := [], depth := 0, units := 0, v := [], o := [], latch := [], s := [], p := [], busy := 0,
    tokenErrors := 0, chains := [], splits := [], fstat := 0, hstat := 0, fabs := [], utvec := 0, trapArea := 0,
    trapCtx := none, sysCtx := none, hmode := .none, wp := [], failedStp := 0, reserved := [], holds := [], rstack := [],
    round := 0, lt := 0, retired := 0, roundEnded := false, buffer := [], laneStores := 0, bellSplit := none, sleep := 0,
    life := .running, resumeAt := none, stopped := .no, pending := none, spillFrame := none, saveDue := false, yielded := false,
    nextSplit := 0, begun := none, missed := 0, bad := [], redo := none }

/-- The chain slots of a wave at its start: linked to the next lower existing wave index (R125). -/
def startChains (existing : List Nat) (index : Nat) : Tab ChainSlot :=
  match (existing.filter fun i => decide (i < index)).getLast? with
  | none => []
  | some p => (List.range 4).map fun c => (c, { seed := 0, link := some p, queue := [], out := 0, produced := false })

/-- The scalar registers at a start: S0 and S1 (R67). -/
def startScalars (s0 s1 : W64) : Tab W64 := Tab.setD (Tab.setD [] 0 0 s0) 0 1 s1

/-- A wave of a launch as it starts (R64–R67). -/
def Launch.startWave (l : Launch) (lid tid index i : Nat) (s0 : W64) (entry : W64) : Wave :=
  let r := l.lr
  let m := r.entryMask i
  { Wave.blank with
    owner := l.owner, launch := some lid, team := tid, index := i, role := r.roleOf i, emask := m,
    widBase := BitVec.ofNat 64 (r.teamWid index + 32 * i), depth := l.depth, units := r.units,
    s := startScalars s0 (BitVec.ofNat 64 l.seq), chains := startChains r.waves i, splits := [(0, Split.start entry m)],
    utvec := r.utvec, trapArea := r.trapArea }

/-- A drover as it starts (R67). -/
def Launch.startDrover (l : Launch) (lid tid index : Nat) : Wave :=
  let r := l.lr
  { Wave.blank with
    owner := l.owner, launch := some lid, team := tid, drover := true, emask := 1, depth := l.depth,
    widBase := BitVec.ofNat 64 (r.teamWid index),
    s := startScalars r.arg (BitVec.ofNat 64 l.seq), splits := [(0, Split.start r.droverEntry 1)],
    utvec := r.utvec, trapArea := r.trapArea }

/-! ### A team's storage on its core -/

/-- The entries of an owner's storage whose contents a placement leaves undefined (R67): they keep the owner's tag and hold
no value. -/
def Core.undefine (c : Core) (owner base bytes : Nat) (tiles : List Nat) (hurdle : Bool) : Core :=
  let own (t : Tab Nat) (k : Nat) : Bool := Tab.find t k == some owner
  let inWindow (x : Nat) : Bool := decide (base ≤ x) && decide (x < base + bytes)
  { c with
    spad := Tab.keep (fun x => !(inWindow x && own c.spadTag (x / 64))) c.spad
    acc := if tiles.isEmpty then c.acc
      else Tab.keep (fun k => !(tiles.contains (k / 1024) && own c.accTag (k / 32))) c.acc
    cells := if hurdle then Tab.keep (fun k => !(own c.cellTag k)) c.cells else c.cells
    config := if hurdle then none else c.config }

/-- The control area as a placement sets it (R152): fold descriptors zero, the member directory, the rest zero. -/
def controlArea (dir : List Nat) : List Byte :=
  List.replicate 0x100 0 ++ ((List.range 32).map fun m => BitVec.ofNat 8 (dir.getD m 0xFF)) ++ List.replicate 0x6E0 0

/-- Write the control area of a team. -/
def State.setControl (s : State) (t : Team) (dir : List Nat) : State :=
  s.putScratch t.core t.owner (t.windowBase + 0x800) (controlArea dir)

/-- The window place and the tiles a team of given needs gets on a core. -/
def State.storageFor (s : State) (core : Nat) (n : Needs) : Nat × List Nat :=
  (4096 * (freeWindow (s.windowsOn core) n.scratch).getD 0, (s.freeTiles core).take n.tiles)

/-- Prepare a core's storage for a team. -/
def State.prepare (s : State) (core owner base : Nat) (n : Needs) (tiles : List Nat) : State :=
  s.updCore core fun c => c.undefine owner base (4096 * n.scratch) tiles n.hurdle

/-- A team of a launch is placed on a core and its waves start (R67, R71, R73); `start` makes each wave. -/
def State.putTeam (s : State) (lid : Nat) (l : Launch) (index core : Nat) (start : Nat → Nat → Wave)
    (drover : Option (Nat → Wave)) : Nat × State :=
  let r := l.lr
  let n := r.needs
  let (base, tiles) := s.storageFor core n
  let s := s.prepare core l.owner base n tiles
  let (tid, s) := s.newId
  let (ws, s) := r.waves.foldl (fun (acc : List Nat × State) i =>
    let (id, s) := acc.2.newId
    (acc.1 ++ [id], s.setWave id (start tid i))) ([], s)
  let (dr, s) := match drover with
    | none => (none, s)
    | some f =>
      let (id, s) := s.newId
      (some id, s.setWave id (f tid))
  let queues : Tab PopQueue := (List.range 4).map fun q => (q, { entries := [], closed := drover.isNone })
  let t : Team :=
    { owner := l.owner, launch := some lid, index := index, group := r.groupOf index, core := core, task := false,
      priority := r.priority, waves := ws, drover := dr, slot := 0, windowBase := base, windowUnits := r.scratch,
      barCount := r.barriers, bars := [], tiles := tiles, spareUnits := 0, spareTiles := [], hurdle := r.hurdle,
      queues := queues, preempt := none, version := 2, arg := r.arg, others := [] }
  (tid, ({ s with teams := Tab.put s.teams tid t }).stir (some lid))

/-- A team that has not run yet is placed. -/
def State.placeFresh (s : State) (lid : Nat) (l : Launch) (index core : Nat) : Nat × State :=
  s.putTeam lid l index core (fun tid i => l.startWave lid tid index i l.lr.arg l.lr.entry)
    (if l.lr.droverEntry = 0 then none else some fun tid => l.startDrover lid tid index)

/-! ### A saved team's return (R97, R98) -/

/-- The register units that a wave of a team starts with (R66, R90). -/
def State.baseUnits (s : State) (t : Team) : Nat :=
  if t.task then 8 else match t.launch.bind s.launch? with
    | some l => l.lr.units
    | none => 8

/-- The register units a wave of a team that the device has saved returns with: its base units where it PACKed (R67, R97). -/
def State.unitsBack (s : State) (t : Team) (w : Wave) : Nat := if w.life = .packed then s.baseUnits t else w.units

/-- What a saved team needs: what it held where the device saved it, and the base needs otherwise. -/
def State.savedNeeds (s : State) (v : Saved) : Needs :=
  let t := v.team
  if v.forced then
    { waves := t.waves.length, units := v.waves.foldl (fun n x => n + s.unitsBack t x.2) t.spareUnits, scratch := t.windowUnits,
      bars := t.barCount, tiles := t.tiles.length + t.spareTiles.length, hurdle := t.hurdle, drover := t.drover.isSome }
  else if t.task then taskNeeds
  else match t.launch.bind s.launch? with
    | some l => l.lr.needs
    | none => taskNeeds

/-- Write the saved tile rows into tiles. -/
def Core.restoreTiles (c : Core) (owner : Nat) (tiles : List Nat) (rows : List (List Nat)) : Core :=
  (List.range rows.length).foldl (fun c k => c.writeRow owner [tiles.getD (k / 32) 0] (k % 32) (rows.getD k [])) c

/-- The bytes of a saved window in a core's scratchpad, whole granules from an address: they are the owner's, and an
uncorrectable error there is gone (R56, R98, R218). -/
def Core.restoreWindow (c : Core) (owner base : Nat) (bytes : List Byte) : Core :=
  { c with
    spad := Tab.splice c.spad base bytes
    spadTag := Tab.splice c.spadTag (base / 64) (List.replicate (bytes.length / 64) owner)
    badSpad := c.badSpad.filter fun g => !(decide (base / 64 ≤ g) && decide (g < (base + bytes.length) / 64)) }

/-- The frames of its context area that a saved team keeps when it returns: 128 KiB where its request stays (R222,
R397). -/
def Saved.kept (v : Saved) : Nat := if v.forced && v.request.isSome then min contextFrames v.frames else 0

/-- A wave that PACKed as it starts again at its resume entry (R97), with its default link among the waves that exist (R132; log
entry 145). -/
def Wave.resumed (w : Wave) (fresh : Wave) (existing : List Nat) : Wave :=
  let (area, entry) := w.resumeAt.getD (0, 0)
  if w.life = .packed then
    { fresh with owner := w.owner, launch := w.launch, team := w.team, index := w.index, role := w.role, task := w.task,
                 emask := w.emask, widBase := w.widBase, taskIndex := w.taskIndex, depths := w.depths, depth := w.depth,
                 trapArea := w.trapArea, round := w.round, retired := w.retired, s := startScalars area (fresh.sreg 1),
                 splits := [(0, Split.start entry w.emask)], chains := startChains existing w.index }
  else w

/-- A wave of a saved team as its start gives it (R67, R90). -/
def State.freshLike (s : State) (t : Team) (tid : Nat) (w : Wave) : Wave :=
  match t.launch.bind s.launch? with
  | some l =>
    if t.task then { Wave.blank with units := 8, s := startScalars 0 (BitVec.ofNat 64 l.seq) }
    else l.startWave (t.launch.getD 0) tid t.index w.index 0 0
  | none => { Wave.blank with units := 8 }

/-- The indices of a saved team's waves that have not exited: a wave that returns links to these (R125, R132). -/
def Saved.indices (v : Saved) : List Nat :=
  v.waves.filterMap fun x => if x.2.drover || x.2.life = .exited then none else some x.2.index

/-- A team saved by the device is restored exactly as saved (R98); its waves that had PACKed start at their resume entries (R96,
R97), and a request that some wave has still to be trapped for stays (R222), with its drover stopped (R96). A task wave keeps the trap
record's address that it had (log entry 140). -/
def State.restore (s : State) (v : Saved) (core : Nat) : Nat × State :=
  let t := v.team
  let n := s.savedNeeds v
  let (base, tiles) := s.storageFor core n
  let mine := tiles.take t.tiles.length
  let s := s.updCore core fun c =>
    let c := (c.restoreWindow t.owner base v.window).restoreTiles t.owner mine v.tileRows
    if t.hurdle then { c with config := v.config } else c
  let s := if t.hurdle then s.putCells core t.owner 0 v.cells else s
  let t := { t with core := core, windowBase := base, tiles := mine, spareTiles := tiles.drop t.tiles.length,
                    preempt := v.request.map fun p => { p with charged := v.kept, back := true } }
  let s := v.waves.foldl (fun s x =>
    s.setWave x.1 { x.2.resumed (s.freshLike t v.id x.2) v.indices with saveDue := false }) s
  (v.id, { s with teams := Tab.put s.teams v.id t })

/-- A team that left by PACK starts again; its drover goes on where it stood (R96, R97). It is placed with the base units of
every wave, those that have exited among them (R71, R108). -/
def State.resumeTeam (s : State) (v : Saved) (core slot : Nat) (trapArea : W64) : Nat × State :=
  let t := v.team
  let n := s.savedNeeds v
  let (base, tiles) := s.storageFor core n
  let s := s.prepare core t.owner base n tiles
  let (tid, s) := s.newId
  let s := v.waves.foldl (fun s x =>
    let w := x.2.resumed (s.freshLike t tid x.2) v.indices
    let area := if t.task then trapArea else match t.launch.bind s.launch? with
      | some l => l.lr.trapArea
      | none => trapArea
    s.setWave x.1 { w with team := tid, units := if w.drover then w.units else s.baseUnits t, trapArea := area }) s
  let t := { t with core := core, slot := slot, windowBase := base, windowUnits := n.scratch, tiles := tiles, bars := [],
                    spareUnits := 0, spareTiles := [], preempt := none }
  (tid, { s with teams := Tab.put s.teams tid t })

/-- A saved team is placed on a core; its context area is returned (R397). -/
def State.placeSaved (s : State) (sid : Nat) (v : Saved) (core slot : Nat) (trapArea : W64) : Nat × State :=
  let s := { s with saved := Tab.drop s.saved sid }.uncharge v.team.owner (v.frames - v.kept)
  let (tid, s) := if v.forced then s.restore v core else s.resumeTeam v core slot trapArea
  (tid, (s.updTeam tid fun t => { t with slot := slot }).stir v.team.launch)

/-! ### What is to be placed next (R73, R77) -/

/-- What placement places together: teams of a launch that have not run, or saved teams of one group. -/
inductive Unit' where
  | fresh (indices : List Nat)
  | saved (ids : List Nat)
  deriving DecidableEq, Repr

/-- The team indices of a unit that has not run. -/
def Unit'.indices : Unit' → List Nat
  | .fresh is => is
  | .saved _ => []

/-- A span without what is reserved for some of its teams. -/
def Span.without (x : Span) (is : List Nat) : Span := { x with reserved := x.reserved.filter fun y => !(is.contains y.1) }

/-- The machine without what a launch's span has reserved for some of its teams: the room is theirs (R35). -/
def State.unreserved (s : State) (lid : Nat) (is : List Nat) : State :=
  s.updLaunch lid fun x => { x with span := x.span.map fun y => y.without is }

/-- The team indices a package runs of a launch: the first, and one past the last (R64). -/
def State.indexRange (s : State) (l : Launch) : Nat × Nat :=
  let p := match s.owner? l.owner with
    | some o => o.ownPackage
    | none => 0
  let (a, n) := l.lr.ownTeams p
  (a, a + n)

/-- The saved teams of a launch's group that are all ready to return: none where some team of the group is still resident or
not yet named by a RESUME. -/
def State.readyGroup (s : State) (l : Launch) (g : Nat) : Option (List (Nat × Saved)) :=
  let vs := l.parked.filterMap fun id => (Tab.find s.saved id).bind fun v => if v.team.group = g then some (id, v) else none
  let resident := s.teams.any fun x => !x.2.task && x.2.owner == l.owner && (match x.2.launch.bind s.launch? with
    | some y => y.seq == l.seq
    | none => false) && x.2.group == g
  if vs.isEmpty || resident || !(vs.all fun x => x.2.ready) then none
  else some (sortBy (fun x => x.2.team.index) vs)

/-- The group of consecutive team indices from the first of a group. -/
def LaunchRec.groupFrom (r : LaunchRec) (i : Nat) : List Nat := (List.range r.groupSize).map fun k => i + k

/-- The first team index from `i` of a group that no PREEMPT holds, below `stop`. -/
def Launch.nextFree (l : Launch) (stop : Nat) : Nat → Nat → Option Nat
  | 0, _ => none
  | fuel + 1, i =>
    if i ≥ stop then none
    else if (l.lr.groupFrom i).any fun k => l.heldTeams.contains k then Launch.nextFree l stop fuel (i + l.lr.groupSize)
    else some i

/-- The unit of a launch that stands next in its order of placement, by its lowest team index. -/
def State.waitingUnit (s : State) (l : Launch) : Option (Nat × Unit') :=
  let stop := (s.indexRange l).2
  let fresh := (Launch.nextFree l stop (l.heldTeams.length + 1) l.next).map fun i =>
    (i, Unit'.fresh (l.lr.groupFrom i))
  let late := ((sortBy id l.late).head?).map fun i => (i, Unit'.fresh (l.lr.groupFrom i))
  let groups := (l.parked.filterMap fun id => (Tab.find s.saved id).map fun v => v.team.group).eraseDups
  let saved := groups.filterMap fun g => (s.readyGroup l g).bind fun vs => vs.head?.map fun x =>
    (x.2.team.index, Unit'.saved (vs.map (·.1)))
  (sortBy (fun (u : Nat × Unit') => u.1) (fresh.toList ++ late.toList ++ saved)).head?

/-- A package's start barrier holds a spanned launch back, or a peer's start waits for commands that reached its ring before
SPAN_OFFER (R35, R36). -/
def State.spanHolds (s : State) (l : Launch) : Bool :=
  l.span.any fun x => x.barrier == some (0 : W32) || (match s.owner? l.owner with
    | some o => x.before.any fun c => (Tab.find o.cmds c).any fun y => y.phase != .performed
    | none => false)

/-- The unit of a launch that may be placed next. -/
def State.nextUnit (s : State) (l : Launch) : Option (Nat × Unit') := if s.spanHolds l then none else s.waitingUnit l

/-- A launch with a team that waits to be placed and stands before another in its owner's order, at equal or higher
priority, holds it back (R73), also while its own start is held back. -/
def State.heldBack (s : State) (lid : Nat) (l : Launch) : Bool :=
  s.launches.any fun x => x.1 != lid && x.2.owner == l.owner && decide (x.2.seq < l.seq) &&
    decide (x.2.lr.priority ≥ l.lr.priority) && (s.waitingUnit x.2).isSome

/-- The needs of each team of a unit, and the cluster position it must take, if any (R98). -/
def State.unitNeeds (s : State) (l : Launch) : Unit' → List (Needs × Option Nat)
  | .fresh is => is.map fun _ => (l.lr.needs, none)
  | .saved ids =>
    let vs := ids.filterMap fun id => Tab.find s.saved id
    let fixed := vs.any (·.forced)
    vs.map fun v => (s.savedNeeds v, if fixed then some (v.team.core % 8) else none)

/-- A core has room for a team beside the teams it holds, further needs, and what spans have reserved. -/
def State.fitsWith (s : State) (core : Nat) (taken : List Needs) (n : Needs) : Bool :=
  let ts := s.teamsOnCore core
  let held := ((ts.map fun x => s.holding x.2) ++ s.reservedOn core ++ taken)
  let k (f : Needs → Nat) : Nat := held.foldl (fun a x => a + f x) 0
  let put (ws : Option (List (Nat × Nat))) (x : Needs) : Option (List (Nat × Nat)) :=
    ws.bind fun ws => (freeWindow ws x.scratch).map fun b => ws ++ [(b, x.scratch)]
  -- each gets the lowest window that is free, and room is left for what spans have reserved
  let windows := (taken ++ [n] ++ s.reservedOn core).foldl put (some (s.windowsOn core))
  !(s.core core).off && decide (held.length < 4) && decide (k (·.waves) + n.waves ≤ 32) &&
  decide (k (·.units) + n.units ≤ 512) && decide (k (·.bars) + n.bars ≤ 1024) && decide (k (·.tiles) + n.tiles ≤ 64) &&
  decide (k (·.scratch) + n.scratch ≤ 192) && (!n.hurdle || held.all fun x => !x.hurdle) &&
  windows.isSome

/-- The given cores, one for each team of a unit, can take the unit: all in one cluster where it is a group, at former
positions where those are fixed (R71, R73, R98). -/
def State.coresOk (s : State) (lid : Nat) (l : Launch) (o : Owner) (u : Unit') (cores : List Nat) : Bool :=
  let needs := s.unitNeeds l u
  cores.length == needs.length && (cores.all fun c => o.placement.contains c) &&
  (l.lr.groupSize == 1 || cores.all fun c => c / 8 == (cores.headD 0) / 8) &&
  ((needs.zip cores).all fun x => match x.1.2 with
    | some p => x.2 % 8 == p
    | none => true) &&
  (List.range cores.length).all fun i =>
    let core := cores.getD i 0
    let before := ((needs.take i).zip (cores.take i)).filterMap fun x => if x.2 = core then some x.1.1 else none
    match needs[i]? with
    | some n => (s.unreserved lid u.indices).fitsWith core before n.1
    | none => false

/-- The first core, from a list in order, for each team of a unit in turn; none where some team finds none. -/
def State.searchCores (s : State) (cores : List Nat) : List (Needs × Option Nat) → List (Nat × Needs) →
    Option (List Nat)
  | [], got => some (got.map (·.1))
  | (n, p) :: rest, got =>
    let ok (c : Nat) : Bool := (match p with
        | some q => c % 8 == q
        | none => true) &&
      s.fitsWith c (got.filterMap fun x => if x.1 = c then some x.2 else none) n
    match cores.find? ok with
    | some c => State.searchCores s cores rest (got ++ [(c, n)])
    | none => none

/-- A list turned so that it starts at a place. -/
def rotate {α : Type} (l : List α) (k : Nat) : List α := l.drop k ++ l.take k

/-- The clusters of which a placement set holds at least `g` cores, ascending (R74). -/
def Owner.clusters (o : Owner) (g : Nat) : List Nat :=
  (List.range 64).filter fun c => decide ((o.placement.filter fun x => x / 8 == c).length ≥ g)

/-- The places a unit is tried at, each a list of cores: single cores, or the cores of one cluster (R73, R74). -/
def Owner.places (o : Owner) (g need : Nat) : List (List Nat) :=
  if g = 1 then o.placement.map fun c => [c]
  else (o.clusters need).map fun k => o.placement.filter fun c => c / 8 == k

/-- Cores for a unit, trying places from one on and wrapping. -/
def State.findCores (s : State) (needs : List (Needs × Option Nat)) (places : List (List Nat)) (from' : Nat) :
    Option (List Nat) :=
  (rotate places (if places.isEmpty then 0 else from' % places.length)).findSome? fun cs => s.searchCores cs needs []

/-- The generator's slot of R74. -/
def genSlot (seed : W64) (index n : Nat) : Nat :=
  let z := seed + BitVec.ofNat 64 (index + 1) * 0x9E3779B97F4A7C15#64
  let z := (z ^^^ (z >>> 30)) * 0xBF58476D1CE4E5B9#64
  let z := (z ^^^ (z >>> 27)) * 0x94D049BB133111EB#64
  let z := z ^^^ (z >>> 31)
  ((z >>> 32).toNat * n) / 2 ^ 32

/-- Cores for the next unit of a round-mode launch (R74): its target, and where that lacks the resources the next place. -/
def State.roundCores (s : State) (lid : Nat) (l : Launch) (o : Owner) (index : Nat) (u : Unit') : Option (List Nat) :=
  let g := l.lr.groupSize
  let places := o.places g g
  (s.unreserved lid u.indices).findCores (s.unitNeeds l u) places (genSlot l.lr.seed (index / g) places.length)

/-! ### Placing a unit -/

/-- The launch after fresh teams of it have been placed: its place in the order, its count, and its pool entry once its last
team is placed (R76, R88). -/
def State.countPlaced (s : State) (lid : Nat) (is : List Nat) : State :=
  match s.launch? lid with
  | none => s
  | some l =>
    let first := is.headD 0
    let next := if first ≥ l.next then first + is.length else l.next
    let l := { l with next := next, late := l.late.filter fun i => !(is.contains i), placed := l.placed + is.length,
                      span := l.span.map fun x => x.without is }
    let s := s.updLaunch lid fun _ => l
    if l.charged && decide (l.next ≥ (s.indexRange l).2) && l.late.isEmpty && l.heldTeams.isEmpty then
      (s.poolSub l.owner 1).updLaunch lid fun x => { x with charged := false }
    else s

/-- The place of each member of a group in its directory; 0xFF for one that is not placed with the unit, which has exited (R152; log
entry 146). -/
def dirOf (g : Nat) (placed : List (Nat × Nat)) : List Nat :=
  (List.range 32).map fun m => match placed.find? fun x => x.1 % g == m && decide (m < g) with
    | some x => x.2 % 8
    | none => 0xFF

/-- Place a unit of a launch on given cores: every wave starts, and the member directories are set (R73, R152). A team
restored after a forced save keeps its control area. -/
def State.placeUnit (s : State) (lid : Nat) (l : Launch) (u : Unit') (cores : List Nat) : State :=
  let g := l.lr.groupSize
  match u with
  | .fresh is =>
    let pairs := is.zip cores
    let (ids, s) := pairs.foldl (fun (acc : List Nat × State) x =>
      let (id, s) := acc.2.placeFresh lid l x.1 x.2
      (acc.1 ++ [id], s)) ([], s)
    let dir := dirOf g pairs
    let s := ids.foldl (fun s id => match s.team? id with
      | some t => s.setControl t dir
      | none => s) s
    s.countPlaced lid is
  | .saved ids =>
    let vs := ids.filterMap fun id => (Tab.find s.saved id).map fun v => (id, v)
    let dir := dirOf g ((vs.map fun x => x.2.team.index).zip cores)
    let s := s.updLaunch lid fun x => { x with parked := x.parked.filter fun i => !(ids.contains i) }
    (vs.zip cores).foldl (fun s x =>
      let (id, s) := s.placeSaved x.1.1 x.1.2 x.2 0 0
      if x.1.2.forced then s
      else match s.team? id with
        | some t => s.setControl t dir
        | none => s) s

/-- Place units of a round-mode launch in order until one does not fit (R75). -/
def State.placeRound (s : State) (lid : Nat) : Nat → State
  | 0 => s
  | fuel + 1 =>
    match s.launch? lid with
    | none => s
    | some l =>
      match s.nextUnit l, s.owner? l.owner with
      | some (i, u), some o =>
        if s.heldBack lid l || o.closing then s
        else match s.roundCores lid l o i u with
          | some cs => State.placeRound (s.placeUnit lid l u cs) lid fuel
          | none => s
      | _, _ => s

/-- An upper bound on the units placed at one time: 512 cores of four team slots. -/
def placeFuel : Nat := 2049

/-- What the teams on the cores of an owner's placement set hold (R71, R180). -/
def State.holdings (s : State) (owner : Nat) : List (List Nat) :=
  match s.owner? owner with
  | none => []
  | some o => o.placement.map fun c => (s.core c).off.toNat :: (s.teamsOnCore c).flatMap fun x =>
      let n := s.holding x.2
      [x.1, x.2.windowBase, n.waves, n.units, n.scratch, n.bars, n.tiles]

/-- The next round of a launch reads memory as it stands now (R181); what the teams on the owner's cores hold is noted (R180). -/
def State.markSnapshot (s : State) (lid : Nat) : State :=
  match s.launch? lid with
  | none => s
  | some l =>
    let kept (v : Saved) : Saved := if v.team.launch = some lid then { v with sinceBell := false } else v
    let s := { s with saved := Tab.mapVal (fun _ v => kept v) s.saved }
    s.updLaunch lid fun x => { x with snapshot := s.mem, pages := s.pagesOf l.owner, resources := s.holdings l.owner }

/-- TEAM_PLACEMENT (R73–R75): the next unit of a launch is placed on given cores. In round mode the cores are those of R74,
and the event is the placement at the launch's start. -/
def execTeamPlacement (launch : Nat) (cores : List Nat) (s : State) : Host.Outcome State Fault Refusal :=
  match s.launch? launch with
  | none => .next s
  | some l =>
    match s.nextUnit l, s.owner? l.owner with
    | some (_, u), some o =>
      if s.phase ≠ .up || l.complete || o.closing || s.heldBack launch l then .next s
      else if l.round then
        if l.started then .next s
        else .next (((s.updLaunch launch fun x => { x with started := true }).placeRound launch placeFuel).markSnapshot launch)
      else if s.coresOk launch l o u cores then .next (s.placeUnit launch l u cores)
      else .next s
    | _, _ => .next s

/-- The next unit of a launch cannot be placed on any core (R95). -/
def State.cannotPlace (s : State) (lid : Nat) (l : Launch) (o : Owner) : Bool :=
  match s.nextUnit l with
  | none => false
  | some (_, u) =>
    let g := l.lr.groupSize
    ((s.unreserved lid u.indices).findCores (s.unitNeeds l u) (o.places g 1) 0).isNone

/-! ### The priority policy (R95) -/

/-- The rank of a team as a victim, a lower one first: priority, then the latest launch sequence, the highest team index, the
highest owner id. -/
def State.victimBefore (s : State) (a b : Team) : Bool :=
  let seq (t : Team) : Nat := match t.launch.bind s.launch? with
    | some l => l.seq
    | none => 0
  if a.priority ≠ b.priority then a.priority < b.priority
  else if seq a ≠ seq b then seq a > seq b
  else if a.index ≠ b.index then a.index > b.index
  else a.owner > b.owner

/-- The team the policy pre-empts for the next unit of a launch, with the unit's first index; none while a request for it is in
flight or no team may be chosen. A team already asked for is no choice. -/
def State.victim (s : State) (lid : Nat) (l : Launch) : Option (Nat × Nat) :=
  match s.owner? l.owner, s.nextUnit l with
  | some o, some (i, _) =>
    let on := s.teams.filter fun x => o.placement.contains x.2.core
    let inFlight := s.teams.any fun x => x.2.preempt.any fun p => p.waiting == some (lid, i)
    if l.lr.priority < 6 || inFlight || s.heldBack lid l || !(s.cannotPlace lid l o) then none
    else
      ((on.filter fun x => decide (x.2.priority ≤ 3) && x.2.preempt.isNone).foldl
        (fun (acc : Option (Nat × Team)) x => match acc with
        | none => some x
        | some y => if s.victimBefore x.2 y.2 then some x else acc) none).map fun x => (x.1, i)
  | _, _ => none

/-- PRIORITY_PREEMPTION (R95): a team of priority 6 or 7 that cannot be placed has the policy pre-empt a team of priority 0
to 3, with its whole cluster group. -/
def execPriorityPreemption (launch team : Nat) (s : State) : Host.Outcome State Fault Refusal :=
  match s.launch? launch with
  | none => .next s
  | some l =>
    match s.victim launch l with
    | some (t, i) =>
      if s.phase = .up && t == team then
        .next ((s.groupOfTeam team).foldl (fun s t => s.requestPreempt t (some (launch, i))) s)
      else .next s
    | none => .next s

end Sys2Proof.Machine
end

