-- ==== Sys2Proof/Machine/Span.lean ====
section
/-!
DEFINITION. Spanned launches (R35–R38): reservation, the messages between the packages, and abortion.
-/
namespace Sys2Proof.Machine

/-! ### Ending a launch's work -/

/-- The launch and the device-side launches that belong to it (R50). -/
def State.family (s : State) (lid : Nat) : List Nat :=
  lid :: ((s.launches.filter fun x => (s.ancestors x.1 32).contains lid).map (·.1))

/-- A record or commit belongs to one of the launches. -/
def inFamily (ids : List Nat) (l : Option Nat) : Bool := match l with
  | some n => ids.contains n
  | none => false

/-- Discard an owner's queued records, commits and join objects of some launches, with their pool entries. -/
def Owner.discard (o : Owner) (ids : List Nat) : Owner :=
  let mine (r : QueueRec) : Bool := !r.released && inFamily ids r.launch
  let counted (r : QueueRec) : Bool := mine r && r.card.kind != 2
  let inQueues := (Tab.vals o.queues).foldl (fun n q => n + (q.recs.filter counted).length) 0
  let waiting := (o.commits.filter fun c => inFamily ids c.launch && c.card.kind != 2).length
  let joins := (o.joins.filter fun j => inFamily ids j.launch).length
  { o with
    queues := Tab.mapVal (fun _ q => q.consume ((q.recs.filter mine).map (·.pos))) o.queues
    commits := o.commits.filter fun c => !(inFamily ids c.launch)
    joins := o.joins.filter fun j => !(inFamily ids j.launch)
    pool := o.pool - (inQueues + waiting + joins) }

/-- End a launch and everything that belongs to it, without traps and without a completion. -/
def State.killLaunch (s : State) (lid : Nat) : State :=
  match s.launch? lid with
  | none => s
  | some l =>
    let ids := s.family lid
    let s := { s with cur := match s.cur with
      | some c => if (match s.wave? c.1 with | some w => inFamily ids w.launch | none => false) then none else s.cur
      | none => none }
    let s := s.dropTeams fun t => inFamily ids t.launch
    let gone := s.saved.filter fun x => inFamily ids x.2.team.launch
    let s := gone.foldl (fun s x => s.uncharge l.owner x.2.frames) { s with saved := s.saved.filter fun x =>
      !(inFamily ids x.2.team.launch) }
    let charged := (s.launches.filter fun x => ids.contains x.1 && x.2.charged).length
    let s := (s.updOwner l.owner fun o => o.discard ids).poolSub l.owner charged
    { s with launches := s.launches.filter fun x => !(ids.contains x.1),
             remote := s.remote.filter fun x => !(inFamily ids x.2.launch) }

/-! ### Reservation (R35) -/

/-- The cluster groups, or single teams, that this package runs of a launch. -/
def State.ownUnits (s : State) (l : Launch) : List (List Nat) :=
  let (a, b) := s.indexRange l
  let g := l.lr.groupSize
  (List.range ((b - a) / g)).map fun i => l.lr.groupFrom (a + i * g)

/-- Reserve cores for every unit of a launch, at places where it may be placed (R74); none where one finds no room. -/
def State.reserveUnits (s : State) (lid : Nat) (r : LaunchRec) (o : Owner) : List (List Nat) → Option State
  | [] => some s
  | u :: rest =>
    match s.findCores (u.map fun _ => (r.needs, none)) (o.places r.groupSize (if r.round then r.groupSize else 1)) 0 with
    | none => none
    | some cs =>
      let t := s.updLaunch lid fun x => { x with span := x.span.map fun y => { y with reserved := y.reserved ++ u.zip cs } }
      State.reserveUnits t lid r o rest

/-- Accept a spanned launch at this package and reserve its resources; none where they cannot be reserved (R35, R37). A peer's
start waits for the commands in its ring that a LAUNCH there would wait for (R35, R48; log entry 114). -/
def State.acceptSpan (s : State) (owner : Nat) (r : LaunchRec) (cmd : Option Nat) (lead : Bool) : Option (Nat × State) :=
  match s.owner? owner with
  | none => none
  | some o =>
    let first (c : Cmd) : Bool := [0x03, 0x04, 0x05, 0x06, 0x0A, 0x10].contains c.code && c.phase != .performed
    let before := if lead then [] else (o.cmds.filter fun x => first x.2).map (·.1)
    let span : Span := { lead := lead, generation := r.generation, barrier := some 0, before := before, acked := [], done := [], reserved := [],
                         aborted := false, ownDone := false }
    let (lid, t) := s.acceptLaunch owner r 0 none cmd (r.ownTeams o.ownPackage).1 (some span) false
    match t.launch? lid with
    | none => none
    | some l =>
      (t.reserveUnits lid r o (t.ownUnits l)).map fun u =>
        (lid, u.updOwner owner fun x => { x with lastGeneration := r.generation })

/-- A generation is spent: not greater than the last one accepted for the owner (R37). -/
def Owner.spent (o : Owner) (g : W32) : Bool := decide (g.toNat ≤ o.lastGeneration.toNat)

/-! ### The lead -/

/-- The peers of a span, the lead excluded. -/
def LaunchRec.peers (r : LaunchRec) : List Nat := (List.range r.spanCount).filter fun i => i ≠ 0

/-- Send a message to every peer of a launch's span. -/
def State.toPeers (s : State) (l : Launch) (f : Nat → TxMessage) : State := { s with tx := s.tx ++ l.lr.peers.map f }

/-- Change the span of a launch. -/
def State.updSpan (s : State) (lid : Nat) (f : Span → Span) : State :=
  s.updLaunch lid fun x => { x with span := x.span.map f }

/-- R35 step 4: the lead's start barrier takes the generation once every peer has acknowledged, and SPAN_GO is sent. -/
def State.goIfAcked (s : State) (lid : Nat) : State :=
  match s.launch? lid with
  | none => s
  | some l =>
    match l.span with
    | none => s
    | some x =>
      if x.lead && x.barrier = some 0 && l.lr.peers.all fun p => x.acked.contains p then
        (s.updSpan lid fun y => { y with barrier := some y.generation }).toPeers l fun p => .spanGo l.owner p x.generation
      else s

/-- The lead refuses or abandons a spanned launch: one completion, with the index of the package at fault (R37). -/
def State.spanFailed (s : State) (owner cmd index : Nat) (seq : W64) : State :=
  s.finishCmd owner cmd 0x23 seq 0 (BitVec.ofNat 64 index)

/-- Steps 1 to 4 of R35 at the lead. -/
def State.startSpan (s : State) (owner cmd : Nat) (o : Owner) (r : LaunchRec) (record : List Byte) : State :=
  if o.ownPackage ≠ 0 then s.spanFailed owner cmd o.ownPackage 0
  else if o.spent r.generation then s.spanFailed owner cmd 0 0
  else
    match s.acceptSpan owner r (some cmd) true with
    | none => s.spanFailed owner cmd 0 0
    | some (lid, t) =>
      match t.launch? lid with
      | none => s
      | some l =>
        let t := t.updCmd owner cmd fun x => { x with phase := .running, launch := some lid }
        (t.toPeers l fun p => .spanOffer owner p r.generation record).goIfAcked lid

/-- Abort a span before its start: every package releases its reservation, and the launch completes once (R37). -/
def State.abortSpan (s : State) (lid : Nat) (l : Launch) (g : W32) (index : Nat) : State :=
  let t := s.toPeers l fun p => .spanAbort l.owner p g
  let t := match l.cmd with
    | some c => t.spanFailed l.owner c index (BitVec.ofNat 64 l.seq)
    | none => t
  t.killLaunch lid

/-- The span of a lead's launch with a generation, not aborted. -/
def Launch.leadSpan (l : Launch) (g : W32) : Option Span :=
  l.span.bind fun x => if x.lead && x.generation == g && !x.aborted then some x else none

/-- A message of a peer to the lead of a launch's span with a generation (R30, R35); one for a launch that is gone is taken, and has
no effect. -/
def State.fromPeer (s : State) (env : Envelope) (launch peer : Nat) (generation : W32) (f : State → Launch → Span → State) :
    State :=
  if s.phase ≠ .up then s
  else s.takeMessage env.owner env fun t => match t.launch? launch with
    | none => t
    | some l =>
      match l.leadSpan generation with
      | some x => if l.owner == env.owner && l.lr.peers.contains peer then f t l x else t
      | none => t

/-- SPAN_ACK at the lead (R35, R37): a repeated one, or one after the abort, has no effect. -/
def execSpanAck (env : Envelope) (launch peer : Nat) (generation : W32) (s : State) : Host.Outcome State Fault Refusal :=
  .next (s.fromPeer env launch peer generation fun t _ x =>
    if x.barrier = some 0 && !(x.acked.contains peer) then
      (t.updSpan launch fun y => { y with acked := y.acked ++ [peer] }).goIfAcked launch
    else t)

/-- SPAN_NAK at the lead (R37). -/
def execSpanNak (env : Envelope) (launch peer : Nat) (generation : W32) (s : State) : Host.Outcome State Fault Refusal :=
  .next (s.fromPeer env launch peer generation fun t l x =>
    if x.barrier = some 0 && !(x.acked.contains peer) then t.abortSpan launch l generation peer else t)

/-- SPAN_DONE at the lead (R38; log entry 115). -/
def execSpanDone (env : Envelope) (launch peer : Nat) (generation : W32) (status : PartEnd) (cause : Nat) (s : State) :
    Host.Outcome State Fault Refusal :=
  .next (s.fromPeer env launch peer generation fun t _ x =>
    if x.barrier ≠ some 0 && !(x.done.any fun d => d.1 == peer) then
      t.updSpan launch fun y => { y with done := y.done ++ [(peer, status, cause)] }
    else t)

/-- SPAN_TIMEOUT at the lead (R37, R38): before SPAN_GO the launch is aborted for the first silent peer; after it, a package
that alone has not reported is lost, and SPAN_ABORT terminates what still runs of the launch. -/
def execSpanTimeout (launch : Nat) (s : State) : Host.Outcome State Fault Refusal :=
  match s.launch? launch with
  | none => .next s
  | some l =>
    match l.span with
    | none => .next s
    | some x =>
      if !x.lead || x.aborted || s.phase ≠ .up then .next s
      else if x.barrier = some 0 then
        match l.lr.peers.find? fun p => !(x.acked.contains p) with
        | some p => .next (s.abortSpan launch l x.generation p)
        | none => .next s
      else
        let missing := l.lr.peers.filter fun p => !(x.done.any fun d => d.1 == p)
        match missing, x.ownDone with
        | [p], true =>
          .next ((s.toPeers l fun q => .spanAbort l.owner q x.generation).updSpan launch fun y =>
            { y with aborted := true, done := y.done ++ [(p, { status := 0x24, placed := 0 }, 0)] })
        | _, _ => .next s

/-! ### A peer -/

/-- The launch of an owner that a peer accepted for a generation. -/
def State.peerLaunch (s : State) (owner : Nat) (g : W32) : Option (Nat × Launch) :=
  s.launches.find? fun x => x.2.owner == owner && (match x.2.span with
    | some y => !y.lead && y.generation == g
    | none => false)

/-- A peer validates an offer's record and reserves resources for all of its teams, or refuses. A repeated offer has no further
effect (R35, R37), and one for an owner that is closing is not answered (log entry 141). -/
def State.offered (s : State) (owner lead : Nat) (generation : W32) (record : List Byte) : State :=
  match s.owner? owner with
  | none => s
  | some o =>
    let r := launchRecOf record
    let nak : State := { s with tx := s.tx ++ [.spanNak owner lead generation] }
    if o.closing || (generation = o.lastGeneration && o.lastOffer == some (lead, record)) then s
    else if record.length ≠ 128 || !(launchRecOk record) || !r.spanned || r.generation ≠ generation ||
        !(r.peers.contains o.ownPackage) || o.spent generation || (o.launchStatus r).isSome then nak
    else
      match s.acceptSpan owner r none false with
      | none => nak
      | some (_, t) =>
        let t := t.updOwner owner fun y => { y with lastOffer := some (lead, record) }
        { t with tx := t.tx ++ [.spanAck owner lead generation] }

/-- SPAN_OFFER at a peer (R30, R35, R37). -/
def execSpanOffer (env : Envelope) (owner lead : Nat) (generation : W32) (record : List Byte) (s : State) :
    Host.Outcome State Fault Refusal :=
  .next (if s.phase = .up then s.takeMessage owner env fun t => t.offered owner lead generation record else s)

/-- SPAN_GO at a peer (R30, R35, R36): the start barrier takes the generation; another generation has no effect. -/
def execSpanGo (env : Envelope) (owner : Nat) (generation : W32) (s : State) : Host.Outcome State Fault Refusal :=
  .next (if s.phase = .up then s.takeMessage owner env fun t => match t.peerLaunch owner generation with
    | some (lid, _) => t.updSpan lid fun y => { y with barrier := some generation }
    | none => t
  else s)

/-- SPAN_ABORT at a peer (R30, R36–R38): the start barrier and the reservation go, and every team of the launch that still runs is
terminated. -/
def execSpanAbort (env : Envelope) (owner : Nat) (generation : W32) (s : State) : Host.Outcome State Fault Refusal :=
  .next (if s.phase = .up then s.takeMessage owner env fun t => match t.peerLaunch owner generation with
    | some (lid, _) => t.killLaunch lid
    | none => t
  else s)

end Sys2Proof.Machine
end

