-- ==== Sys2Proof/Machine/Work.lean ====
section
/-!
DEFINITION. The commands that start, hold and resume work: LAUNCH, POST, PREEMPT and RESUME (R46, R69, R70, R77, R85, R95).
-/
namespace Sys2Proof.Machine

/-! ### LAUNCH (R69, R70) -/

/-- The status of checks 1 to 5 of R70 for a host LAUNCH; none where it is accepted. -/
def Owner.hostLaunchStatus (o : Owner) (c : Cmd) : Option Nat :=
  let b := slice c.bytes 16 128
  let r := launchRecOf b
  if c.bytes.length ≠ 144 then some 0x10
  else if c.version = 1 && (r.round || r.spanned) then some 0x13
  else if !(launchRecOk b) then some 0x10
  else o.launchStatus r

/-- LAUNCH (R46, R50, R69, R70): the launch is accepted, or refused with nothing of it run. A spanned launch begins its
exchange with the other packages (R35). -/
def execLaunch (owner cmd : Nat) (s : State) : Host.Outcome State Fault Refusal :=
  .next (s.onCmd owner cmd 0x08 fun o c =>
    if c.phase = .running then s
    else
      let b := slice c.bytes 16 128
      let r := launchRecOf b
      match o.hostLaunchStatus c with
      | some st => s.refuse owner cmd st
      | none =>
        if r.spanned then s.startSpan owner cmd o r b
        else
          let (lid, t) := s.acceptLaunch owner r 0 none (some cmd) 0 none false
          t.updCmd owner cmd fun x => { x with phase := .running, launch := some lid })

/-! ### POST (R46, R85, R87, R88) -/

/-- Host POSTs whose record has been committed are performed (R46). -/
def State.settlePosts (s : State) (owner : Nat) : State :=
  match s.owner? owner with
  | none => s
  | some o => o.cmds.foldl (fun s x =>
      if x.2.code = 0x09 && x.2.phase = .running && !(o.commits.any fun c => c.cmd == some x.1) then
        s.finishCmd owner x.1 0 0 0 0
      else s) s

/-- The status that refuses a host POST; none where its record is posted (R85, R88). -/
def Owner.postStatus (o : Owner) (c : Cmd) : Option Nat :=
  let card := cardOf (slice c.bytes 16 32)
  if c.bytes.length ≠ 56 || c.nat 48 1 > 7 || c.nat 49 7 ≠ 0 || decide (card.kind ≥ 2) || !card.reservedOk || card.rnd then
    some 0x10
  else if card.depth.toNat > o.nesting || !o.poolRoom then some 0x18
  else none

/-- POST (R46): the record is committed to a die queue, or waits for room there. -/
def execPost (owner cmd : Nat) (s : State) : Host.Outcome State Fault Refusal :=
  .next (s.onCmd owner cmd 0x09 fun o c =>
    if c.phase = .running then s.settlePosts owner
    else
      match o.postStatus c with
      | some st => s.refuse owner cmd st
      | none =>
        let card := cardOf (slice c.bytes 16 32)
        let t := (s.updCmd owner cmd fun x => { x with phase := .running }).poolAdd owner 1
        (t.postTo owner
          { queue := dieQueue (c.nat 48 1), card := card.posted owner false o.ceiling card.depth, launch := none,
            ptag := c.port, version := c.version, parked := none, cmd := some cmd, wave := none }).settlePosts owner)

/-! ### PREEMPT and RESUME (R77, R95) -/

/-- The fields of a PREEMPT or a RESUME lie within their limits (R46). -/
def Cmd.teamFieldsOk (c : Cmd) : Bool := c.bytes.length == 32 && c.nat 28 4 == 0

/-- The launch of an owner with a sequence number. -/
def State.launchBySeq (s : State) (owner seq : Nat) : Option (Nat × Launch) :=
  s.launches.find? fun x => x.2.owner == owner && x.2.seq == seq

/-- The command names a team index: that index, or every team of the launch. -/
def Cmd.names (c : Cmd) (index : Nat) : Bool := c.nat 24 4 == 0xFFFFFFFF || c.nat 24 4 == index

/-- The command names some team of a cluster group: the group stands for all its teams (R73, R77). -/
def Cmd.namesGroup (c : Cmd) (r : LaunchRec) (group : Nat) : Bool :=
  c.nat 24 4 == 0xFFFFFFFF || r.groupOf (c.nat 24 4) == group

/-- The resident teams of a launch that a command names; its task waves are named only with every team. -/
def State.namedTeams (s : State) (lid : Nat) (l : Launch) (c : Cmd) : List Nat :=
  ((s.teamsOfLaunch lid).filter fun x => if x.2.task then c.nat 24 4 == 0xFFFFFFFF
    else c.namesGroup l.lr x.2.group).map (·.1)

/-- The pre-empted teams of a launch that a command names. -/
def State.namedSaved (s : State) (lid : Nat) (l : Launch) (c : Cmd) : List Nat :=
  (s.saved.filter fun x => x.2.team.launch == some lid &&
    (if x.2.team.task then c.nat 24 4 == 0xFFFFFFFF else c.namesGroup l.lr x.2.team.group)).map (·.1)

/-- The teams of a launch not yet placed and not held. -/
def State.waitingTeams (s : State) (l : Launch) : List Nat :=
  let stop := (s.indexRange l).2
  (l.late ++ (List.range (stop - l.next)).map fun i => l.next + i).filter fun i => !(l.heldTeams.contains i)

/-- PREEMPT (R46, R77, R95): placed teams are pre-empted, with their whole cluster groups; teams not yet placed are held until
a RESUME names them. Result 0 counts the teams affected, one already pre-empted among them; it is 0 where no running launch has
the sequence number (log entry 129). -/
def execPreempt (owner cmd : Nat) (s : State) : Host.Outcome State Fault Refusal :=
  .next (s.onCmd owner cmd 0x0C fun _ c =>
    if !c.teamFieldsOk then s.refuse owner cmd 0x10
    else
      match s.launchBySeq owner (c.nat 16 8) with
      | none => s.finishCmd owner cmd 0 0 0 0
      | some (lid, l) =>
        let placed := s.namedTeams lid l c
        let saved := s.namedSaved lid l c
        let wait := (s.waitingTeams l).filter fun i => c.namesGroup l.lr (l.lr.groupOf i)
        let held := l.heldTeams.filter fun i => c.namesGroup l.lr (l.lr.groupOf i)
        let t := s.updLaunch lid fun x =>
          { x with heldTeams := x.heldTeams ++ wait, late := x.late.filter fun i => !(wait.contains i) }
        let t := placed.foldl (fun s tid => s.requestPreempt tid none) t
        t.finishCmd owner cmd 0 (BitVec.ofNat 64 (placed.length + saved.length + wait.length + held.length)) 0 0)

/-- The team of a request still pending returns by itself once it has been saved (R77, R95). -/
def State.undoRequest (s : State) (tid : Nat) : State :=
  s.updTeam tid fun t => { t with preempt := t.preempt.map fun p => { p with back := true } }

/-- RESUME (R46, R77, R95): held and pre-empted teams take their places in the order of placement again. Result 0 is 0 where no
running launch has the sequence number (log entry 129). -/
def execResume (owner cmd : Nat) (s : State) : Host.Outcome State Fault Refusal :=
  .next (s.onCmd owner cmd 0x0D fun _ c =>
    if !c.teamFieldsOk then s.refuse owner cmd 0x10
    else
      match s.launchBySeq owner (c.nat 16 8) with
      | none => s.finishCmd owner cmd 0 0 0 0
      | some (lid, l) =>
        let saved := s.namedSaved lid l c
        let busy := (s.namedTeams lid l c).filter fun tid => match s.team? tid with
          | some t => t.preempt.isSome
          | none => false
        let held := l.heldTeams.filter fun i => c.namesGroup l.lr (l.lr.groupOf i)
        let t := s.updLaunch lid fun x =>
          { x with heldTeams := x.heldTeams.filter (fun i => !(held.contains i)),
                   late := x.late ++ held.filter fun i => decide (i < x.next) }
        let t := { t with saved := Tab.mapVal (fun k (v : Saved) => if saved.contains k then { v with ready := true } else v)
                            t.saved }
        let t := busy.foldl (fun s tid => s.undoRequest tid) t
        (t.stir (some lid)).finishCmd owner cmd 0 (BitVec.ofNat 64 (saved.length + busy.length + held.length)) 0 0)

end Sys2Proof.Machine
end

