-- ==== Sys2Proof/Machine/Schedule.lean ====
section
/-!
DEFINITION. The schedulers (R76, R87, R89–R93, R109, R111, R119): task waves, waits of the queues, the breaking of deadlocks,
the issue guarantee, and the completion of launches.
-/
namespace Sys2Proof.Machine

/-! ### Forming a task wave (R90, R91) -/

/-- The lowest number of 0 to 31 that no task team of the core uses as its wave slot. -/
def State.taskSlot (s : State) (core : Nat) : Nat :=
  let used := (s.teamsOnCore core).filterMap fun x => if x.2.task then some x.2.slot else none
  ((List.range 32).find? fun k => !(used.contains k)).getD 0

/-- The address of the trap record of a wave slot on a core of an owner's set (R91). -/
def Owner.taskArea (o : Owner) (core slot : Nat) : W64 :=
  BitVec.ofNat 64 (trapAreaBase + (32 * (o.placement.findIdx fun c => c == core) + slot) * 640)

/-- The vector registers of a task wave at its start: argument pointer, task index and depth of each lane (R90). -/
def taskRegisters (recs : List QueueRec) : Tab W32 :=
  let word (r : Nat) (f : QueueRec → W32) (m : Tab W32) : Tab W32 :=
    (List.range recs.length).foldl (fun m i => match recs[i]? with
      | some x => Tab.setD m 0 (32 * r + i) (f x)
      | none => m) m
  word 4 (fun x => x.card.depth) (word 3 (fun x => hi32 x.index) (word 2 (fun x => lo32 x.index)
    (word 1 (fun x => hi32 x.card.arg) (word 0 (fun x => lo32 x.card.arg) []))))

/-- A table of a value of each lane. -/
def laneTab {β : Type} (recs : List QueueRec) (f : QueueRec → β) : Tab β :=
  (List.range recs.length).filterMap fun i => (recs[i]?).map fun x => (i, f x)

/-- Form a task wave from records on a core (R90): it belongs to the launch of its lane-0 record, and further launches wait
for it too (R50). -/
def State.formWave (s : State) (owner core : Nat) (recs : List QueueRec) : State :=
  match s.owner? owner, recs.head? with
  | some o, some lead =>
    let slot := s.taskSlot core
    let (base, _) := s.storageFor core taskNeeds
    let s := s.prepare core owner base taskNeeds []
    let (tid, s) := s.newId
    let (n, s) := s.newId
    let l := lead.launch.bind s.launch?
    let seq := match l with
      | some x => x.seq
      | none => 0
    let m := maskOf (List.range recs.length)
    let w : Wave :=
      { Wave.blank with
        owner := owner, launch := lead.launch, team := tid, task := true, emask := m,
        taskIndex := laneTab recs (·.index), depths := laneTab recs (fun x => x.card.depth), depth := lead.card.depth,
        units := 8, v := taskRegisters recs, s := startScalars lead.card.arg (BitVec.ofNat 64 seq),
        splits := [(0, Split.start lead.card.entry m)], trapArea := o.taskArea core slot }
    let others := (recs.filterMap (·.launch)).eraseDups.filter fun x => some x != lead.launch
    let t : Team :=
      { owner := owner, launch := lead.launch, index := lead.index.toNat, group := 0, core := core, task := true,
        priority := lead.card.prio, waves := [n], drover := none, slot := slot, windowBase := base, windowUnits := 2,
        barCount := 16, bars := [], tiles := [], spareUnits := 0, spareTiles := [], hurdle := false,
        queues := (List.range 4).map fun q => (q, { entries := [], closed := true }), preempt := none,
        version := lead.version, arg := lead.card.arg, others := others }
    let s := { s.setWave n w with teams := Tab.put s.teams tid t }
    (s.setControl t (dirOf 1 [(0, core)])).stir lead.launch
  | _, _ => s

/-! ### Gathering and stealing (R89, R92) -/

/-- A record that a taker may take: a committed task record, not held and not released (R82, R89). -/
def QueueRec.takeable (r : QueueRec) : Bool := r.type == 2 && r.committed && !r.held && !r.released

/-- A launch runs in round mode. -/
def State.roundLaunch (s : State) (l : Option Nat) : Bool := (l.bind s.launch?).any (·.round)

/-- A record that a core's gatherer may take from a queue: those of round-mode launches in a die queue are for the bells
(R90). -/
def State.gatherable (s : State) (queue : Nat) (r : QueueRec) : Bool :=
  r.takeable && !(decide (512 ≤ queue) && s.roundLaunch r.launch)

/-- A resume card that may return on a core: a team saved by the device keeps its cluster position (R98), and its needs must
fit there. A wave that a PREEMPT command has parked may return at once (log entry 142). -/
def State.cardFits (s : State) (core : Nat) (r : QueueRec) : Bool :=
  match r.parked.bind fun id => Tab.find s.saved id with
  | some v => (!v.forced || v.team.core % 8 == core % 8) && s.fitsWith core [] (s.savedNeeds v)
  | none => r.card.kind != 2

/-- The window of a queue: its first 64 records that a gatherer may take (R89). -/
def State.window (s : State) (core queue : Nat) (q : TaskQueue) : List QueueRec :=
  (q.recs.filter fun r => s.gatherable queue r && s.cardFits core r).take 64

/-- The lead of a window: a record passed over for 64 leads, or else the first of the highest priority (R89). -/
def leadOf (win : List QueueRec) : Option QueueRec :=
  match win.find? fun r => decide (r.passed ≥ 64) with
  | some r => some r
  | none => win.foldl (fun (acc : Option QueueRec) r => match acc with
      | none => some r
      | some y => if r.card.prio > y.card.prio then some r else some y) none

/-- The records of a window that form one wave with a lead (R89): later ones of its entry and priority, no resume card. -/
def gatherSet (win : List QueueRec) (lead : QueueRec) : List QueueRec :=
  if lead.card.kind = 2 then [lead]
  else
    lead :: (((win.dropWhile fun r => r.pos != lead.pos).drop 1).filter fun r =>
      r.card.entry == lead.card.entry && r.card.prio == lead.card.prio && r.card.kind != 2).take 31

/-- A core of an owner's set has the slots and the resources of a task wave (R89, R90). -/
def State.canGather (s : State) (owner core : Nat) : Bool :=
  decide (s.phase = .up) && s.fitsWith core [] taskNeeds && (match s.owner? owner with
    | some o => !o.closing && o.placement.contains core
    | none => false)

/-- Mark the records at given positions held by a core, and count one more lead passed ahead of the window's others
(R80, R81 step 3, R89). -/
def TaskQueue.holdFor (q : TaskQueue) (core : Nat) (set win : List Nat) : TaskQueue :=
  let recs := q.recs.map fun r =>
    if set.contains r.pos then { r with held := true, type := 3, ptag := 2 ^ 15 + core }
    else if win.contains r.pos then { r with passed := r.passed + 1 }
    else r
  { q with ctl := { q.ctl with take := advanceTake q.ctl.take recs }, recs := recs }

/-- A core takes records from a queue of an owner: it holds them, before it copies and releases them. -/
def State.holdFrom (s : State) (owner core queue : Nat) (q : TaskQueue) : State :=
  let win := s.window core queue q
  match leadOf win with
  | none => s
  | some lead =>
    let set := (gatherSet win lead).map (·.pos)
    (s.updOwner owner fun o => { o with queues := Tab.put o.queues queue (q.holdFor core set (win.map (·.pos))) }).updCore
      core fun c => { c with hold := some (owner, queue, lead.pos) }

/-- The records of a queue that a core holds. -/
def TaskQueue.heldBy (q : TaskQueue) (core : Nat) : List QueueRec :=
  q.recs.filter fun r => r.type == 3 && !r.released && r.ptag == 2 ^ 15 + core

/-- A core copies and releases the records that it holds, and forms their wave; a resume card brings its wave back alone
(R89, R97), once its needs fit there (R98). Each record but a resume card gives up its pool entry (R88). -/
def State.takeHeld (s : State) (owner core queue : Nat) : State :=
  match (s.owner? owner).bind fun o => (Tab.find o.queues queue).map fun q => (o, q) with
  | none => s.updCore core fun c => { c with hold := none }
  | some (o, q) =>
    let recs := q.heldBy core
    let tasks := recs.filter fun r => r.card.kind != 2
    if !(recs.all fun r => s.cardFits core r) then s
    else
    let s := s.updOwner owner fun x => { x with queues := Tab.put x.queues queue (q.consume (recs.map (·.pos))) }
    let s := (s.updCore core fun c => { c with hold := none }).poolSub owner tasks.length
    match (recs.head?.bind fun r => r.parked).bind fun id => (Tab.find s.saved id).map fun v => (id, v) with
    | some (id, v) =>
      let slot := s.taskSlot core
      let (tid, s) := s.placeSaved id v core slot (o.taskArea core slot)
      if v.forced then s
      else match s.team? tid with
        | some t => s.setControl t (dirOf 1 [(0, core)])
        | none => s
    | none => s.formWave owner core recs

/-- GATHER (R89): a core forms a task wave from its own core queue: first it holds the records, then it copies and releases
them. -/
def execGather (owner core : Nat) (s : State) : Host.Outcome State Fault Refusal :=
  .next (if !(s.canGather owner core) then s
  else
    match (s.core core).hold with
    | some (o, q, _) => if o = owner && q = core then s.takeHeld owner core q else s
    | none =>
      match (s.owner? owner).bind fun o => Tab.find o.queues core with
      | some q => s.holdFrom owner core core q
      | none => s)

/-- The queues a core tries to steal from, in order: the other cores of its cluster that lie in the placement set, in
ascending position after its own and wrapping, and then its die queue (R92). -/
def Owner.stealOrder (o : Owner) (core : Nat) : List Nat :=
  (((List.range 7).map fun i => 8 * (core / 8) + (core % 8 + i + 1) % 8).filter fun c => o.placement.contains c) ++
    [dieQueue (dieOfCore core)]

/-- STEAL (R92): a core whose own window is empty gathers from the first queue with an eligible record. -/
def execSteal (owner core : Nat) (s : State) : Host.Outcome State Fault Refusal :=
  .next (if !(s.canGather owner core) then s
  else
    match (s.core core).hold, s.owner? owner with
    | some (o, q, _), _ => if o = owner && q ≠ core then s.takeHeld owner core q else s
    | none, some o =>
      let empty := match Tab.find o.queues core with
        | some q => (s.window core core q).isEmpty
        | none => true
      if !empty then s
      else
        match (o.stealOrder core).findSome? fun k => (Tab.find o.queues k).bind fun q =>
            if (s.window core k q).isEmpty then none else some (k, q) with
        | some (k, q) => s.holdFrom owner core k q
        | none => s
    | none, none => s)

/-- HOLD_REVERT (R93): task records of a queue whose holder is dead become type 2 again and are not held, each as one atomic
action, in their ring positions. -/
def execHoldRevert (owner queue : Nat) (s : State) : Host.Outcome State Fault Refusal :=
  let dead (r : QueueRec) : Bool := r.type == 3 && !r.released && decide (r.ptag ≥ 2 ^ 15) && (s.core (r.ptag % 512)).off
  match (s.owner? owner).bind fun o => Tab.find o.queues queue with
  | none => .next s
  | some q =>
    let cores := (q.recs.filter dead).map fun r => r.ptag % 512
    let recs := q.recs.map fun r => if dead r then { r with type := 2, held := false } else r
    let s := s.updOwner owner fun x => { x with queues := Tab.put x.queues queue { q with recs := recs } }
    .next (cores.foldl (fun s c => s.updCore c fun x => { x with hold := none }) s)

/-- QUEUE_COMMIT_ROOM (R87): commits that waited for room proceed in their order; those of round mode are for the bells. -/
def execQueueCommitRoom (owner queue : Nat) (s : State) : Host.Outcome State Fault Refusal :=
  match s.owner? owner with
  | none => .next s
  | some o =>
    let ordinary (c : WaitingCommit) : Bool := match c.launch.bind s.launch? with
      | some l => !l.round
      | none => true
    .next ((s.flushCommits owner queue ordinary o.commits.length).settlePosts owner)

/-! ### Waits that end (R285, R320, R321, R359) -/

/-- The splits of a wave that wait in one way try their word again; in round mode they wait for their bell (R183). -/
def State.retryWait (s : State) (wave : Nat) (x : Wait) : State :=
  match s.wave? wave with
  | none => s
  | some w =>
    if s.isRound w then s
    else s.updWave wave fun w => { w with splits := Tab.mapVal (fun _ (p : Split) =>
      if p.waiting = x then { p with waiting := .none } else p) w.splits }

/-- RQRES_WAIT_RETRY (R320). -/
def execRqresWaitRetry (wave : Nat) (s : State) : Host.Outcome State Fault Refusal := .next (s.retryWait wave .ringSpace)

/-- RQTAKE_WAIT_RETRY (R321). -/
def execRqtakeWaitRetry (wave : Nat) (s : State) : Host.Outcome State Fault Refusal := .next (s.retryWait wave .ringTake)

/-- JINIT_POOL_WAIT (R359). -/
def execJinitPoolWait (wave : Nat) (s : State) : Host.Outcome State Fault Refusal := .next (s.retryWait wave .poolMax)

/-- SLEEP_EXPIRY (R285): the core has passed as many issue opportunities as the SLEEP counts. -/
def execSleepExpiry (wave : Nat) (s : State) : Host.Outcome State Fault Refusal :=
  .next (s.updWave wave fun w => if w.sleep = 1 then { w with sleep := 0 } else w)

/-- ISSUE_GUARANTEE (R119): a wave that has missed 1024 issue opportunities is offered the next one, which it has if it is
ready. -/
def execIssueGuarantee (wave : Nat) (s : State) : Host.Outcome State Fault Refusal :=
  match s.wave? wave with
  | none => .next s
  | some w =>
    if w.missed ≥ 1024 && decide (w.life = .running) && !w.drover then
      .next { s with sched := .wave wave ((w.dueSplit.map (·.1)).getD w.nextSplit) :: s.sched }
    else .next s

/-! ### Deadlock (R111) -/

/-- A wave's split waits on a CLAIM. -/
def Split.claims (p : Split) : Bool := p.waiting == .claim

/-- A split waits at a BARW whose phase is not complete; the barrier it waits on. -/
def Split.barrierWait (t : Team) (p : Split) : Option Nat := match p.waiting with
  | .barrier n phi => if (t.barrier n).init && (t.barrier n).phase == phi then some n else none
  | _ => none

/-- A wave is blocked: a waiting CLAIM blocks it whole (R109), and else every split of it stands at a JOIN or on a BARW. -/
def Wave.blockedIn (w : Wave) (t : Team) : Bool :=
  decide (w.life = .running) && !w.heldWhole && w.pending.isNone && w.sleep == 0 &&
  (w.splits.any (fun x => x.2.claims) ||
   (w.splits.all (fun x => x.2.arrived.isSome || (x.2.barrierWait t).isSome) &&
    w.splits.any (fun x => (x.2.barrierWait t).isSome)))

/-- A drover of a team has exited or is stalled on a full queue. -/
def Wave.droverStalled (w : Wave) (t : Team) : Bool :=
  decide (w.life ≠ .running) || w.splits.all fun x => match x.2.waiting with
    | .pushFull q => decide ((t.queue q).entries.length ≥ 64)
    | _ => false

/-- Every agent of a team is blocked or has exited. -/
def State.teamBlocked (s : State) (t : Team) : Bool :=
  t.agents.all fun n => match s.wave? n with
    | some w => decide (w.life ≠ .running) || (if w.drover then w.droverStalled t else w.blockedIn t)
    | none => true

/-- A copy in flight names a barrier of a team, its own or a peer's. -/
def State.copyNames (s : State) (tid bar : Nat) : Bool :=
  s.engines.any fun x => match x.2.op with
    | .copy c => decide (c.desc.barrier = some bar) && (x.2.team == tid || c.peers.any fun p => p.1 == tid)
    | _ => false

/-- Some wave of a team has PACKed, and may reach its barriers again when it resumes (R111). -/
def State.somePacked (s : State) (t : Team) : Bool := t.agents.any fun n => match s.wave? n with
  | some w => decide (w.life = .packed)
  | none => false

/-- The BARWs of a team count as deadlocked (R111): its whole group is on this core and blocked or exited, none of it saved, and
no copy names their barriers. -/
def State.barriersStuck (s : State) (tid : Nat) (t : Team) : Bool :=
  let bars := t.waves.flatMap fun n => match s.wave? n with
    | some w => w.splits.filterMap fun x => x.2.barrierWait t
    | none => []
  bars.isEmpty || ((s.teams.all fun x => !(x.1 == tid || x.2.sameGroup t) ||
    (x.2.core == t.core && s.teamBlocked x.2 && !(s.somePacked x.2))) && (s.saved.all fun v => !(v.2.team.sameGroup t)) && !(bars.any fun b => s.copyNames tid b))

/-- The core is deadlocked (R111). -/
def State.deadlocked (s : State) (core : Nat) : Bool :=
  let ts := s.teamsOnCore core
  !ts.isEmpty && ts.all fun x => s.teamBlocked x.2 && s.barriersStuck x.1 x.2

/-- The order of claimants, a younger one greater (R111): launch sequence, teams before task waves, team or task index, wave
index; between owners, the id. -/
def State.claimAge (s : State) (w : Wave) : List Nat :=
  match s.teamOf w with
  | some t => [(s.launchOf w).elim 0 (·.seq), t.task.toNat, t.index, w.index, w.owner]
  | none => []

/-- One list of numbers stands after another, compared place by place. -/
def lexAfter : List Nat → List Nat → Bool
  | a :: r, b :: t => if a = b then lexAfter r t else decide (a > b)
  | _, _ => false

/-- The youngest wave of a core with a waiting CLAIM, and its split. -/
def State.youngestClaimant (s : State) (core : Nat) : Option (Nat × Nat) :=
  let cs := (s.teamsOnCore core).flatMap fun x => x.2.waves.filterMap fun n => (s.wave? n).bind fun w =>
    (w.splits.find? fun p => p.2.claims).map fun p => (n, w, p.1)
  (cs.foldl (fun (acc : Option (Nat × Wave × Nat)) x => match acc with
    | none => some x
    | some y => if lexAfter (s.claimAge x.2.1) (s.claimAge y.2.1) then some x else acc) none).map fun x => (x.1, x.2.2)

/-- DEADLOCK_BREAK (R111): the waiting CLAIM of the youngest blocked claimant fails. In round mode the condition is evaluated
at bells only. -/
def execDeadlockBreak (core : Nat) (s : State) : Host.Outcome State Fault Refusal :=
  .next (match s.youngestClaimant core with
  | some (n, k) =>
    let round := match s.wave? n with
      | some w => s.isRound w
      | none => true
    if s.deadlocked core && !round then s.endClaim core n k false else s
  | none => s)

/-! ### Launch completion (R50, R76) -/

/-- Every wave of a launch has exited and all device-side work that belongs to it has completed. -/
def State.launchIdle (s : State) (lid : Nat) (l : Launch) : Bool :=
  let started := match l.span with
    | some x => x.ownDone || x.barrier != some 0
    | none => true
  let queued := match s.owner? l.owner with
    | some o => ((Tab.vals o.queues).any fun q => q.recs.any fun r => !r.released && r.launch == some lid) ||
        o.commits.any fun c => c.launch == some lid
    | none => false
  started && !l.complete && decide (l.next ≥ (s.indexRange l).2) && l.late.isEmpty && l.heldTeams.isEmpty &&
  l.parked.isEmpty && !queued &&
  !(s.teams.any fun x => x.2.launch == some lid || x.2.others.contains lid) &&
  !(s.saved.any fun x => x.2.team.launch == some lid || x.2.team.others.contains lid) &&
  !(s.launches.any fun x => x.2.parent == some lid) && !(s.remote.any fun x => x.2.launch == some lid || x.2.others.contains lid) &&
  !(s.ringJobs.any fun x => x.2.launch.any fun y => y.1 == lid)

/-- Every L1 that holds a line written by the launch is written back; what would cross a boundary that is down is lost, and
the launch completes with an engine error (R8, R50). A lost sector then holds free bytes (log entry 128). -/
def State.writeBack (s : State) (lid : Nat) (l : Launch) : State :=
  let lost := l.dirty.filter fun x => s.cutDies x.1 (x.2 / 2 ^ 31)
  let s := lost.foldl (fun s x => s.freshBytes (64 * x.2) 64) s
  let s := s.updLaunch lid fun x => { x with dirty := [] }
  if lost.isEmpty then s else s.markLaunch lid 0x22 0x21

/-- Ask the home package for the decrement of a launch's join object (R33); none where it cannot be reached. No rule says which
die asks, so no route to the port is looked at (log entry 50). -/
def State.sendDecrement (s : State) (lid : Nat) (l : Launch) (home : Nat) : Option State :=
  (s.request none home l.lr.join .decrement
    { owner := l.owner, engine := none, wave := 0, split := 0, lane := 36, posted := false, handler := false,
      launch := some lid, others := [] }).map fun r => r.2.updLaunch lid fun x => { x with joining := .asked r.1 }

/-- What the decrement of a launch's join object comes to: it waits, or it has ended with a cause that made it fail, 0 where
it is performed. -/
inductive JoinOut where
  | waits (s : State)
  | ends (cause : Nat) (s : State)

/-- The decrement of a launch's join object (R76): a not-present page of an on-demand range is first allocated, and one that
the quota cannot hold is asked for (R148); an object on a remote page is decremented at its home package (R158). -/
def State.joinDecrement (s : State) (lid : Nat) (l : Launch) : Nat → JoinOut
  | 0 => .ends 0x18 s
  | fuel + 1 =>
    let va := l.lr.join.toNat
    match l.joining, s.owner? l.owner with
    | _, none => .ends 0x18 s
    | .asked _, some _ => .waits s
    | .answered ok b, some _ =>
      if !ok then .ends 0x20 s
      else .ends (if leAt b 0 4 = 0 then 0x21 else 0) (s.decremented l.owner va (dieQueue 0) l.parent b)
    | _, some o =>
      match o.checkGlobal va 64 .atomic with
      | some c =>
        if c ≠ 0x18 then .ends c s
        else if l.joining = .page va && !(s.pageThere l.owner va) then .waits s
        else match s.resolvePage l.owner va with
          | .mapped t => State.joinDecrement t lid l fuel
          | .waits t => .waits ((t.pageNotice l.owner va l.seq 0).updLaunch lid fun x => { x with joining := .page va })
          | .fails => .ends 0x18 s
      | none =>
        match o.remoteAt va with
        | some home => match s.sendDecrement lid l home with
          | some t => .waits t
          | none => .ends 0x20 s
        | none =>
          if s.badGlobal none o va 64 then
            .ends 0x20 (s.logSectors l.owner va 64)
          else
            let (zero, t) := s.decrement none l.owner va (dieQueue 0) l.parent
            .ends (if zero then 0x21 else 0) t

/-- The join object of a completing launch is decremented; a failure marks the launch, and the launches it belongs to
(R76). -/
def State.joinOf (s : State) (lid : Nat) (l : Launch) : JoinOut :=
  if l.lr.join = 0 then .ends 0 s
  else match s.joinDecrement lid l 2 with
    | .ends cause s => .ends cause (if cause = 0 then s
        else (lid :: s.ancestors lid 32).foldl (fun s k => s.markLaunch k 0x22 cause) s)
    | x => x

/-- Join objects that a completing launch's waves initialised give up their pool entries (R359), and the launch is gone. -/
def State.dropLaunch (s : State) (lid : Nat) (l : Launch) : State :=
  let mine : List JoinEntry := match s.owner? l.owner with
    | some o => o.joins.filter fun j => j.launch == some lid
    | none => []
  let s := (s.updOwner l.owner fun o =>
    { o with joins := o.joins.filter fun j => j.launch != some lid, deadJoins := o.deadJoins ++ mine.map (·.address) }).poolSub
    l.owner (mine.length + l.charged.toNat)
  { s with launches := Tab.drop s.launches lid,
           ivgil := { s.ivgil with caught := s.ivgil.caught.filter fun x => x.1 != lid } }

/-- The launch's join object is decremented and its completion record is written (R76), with the worst status of all packages'
parts and the cause that belongs to it (R38, R52; log entry 115). -/
def State.completeLaunch (s : State) (lid : Nat) (l : Launch) (parts : List (Nat × PartEnd × Nat)) : State :=
  match s.joinOf lid l with
  | .waits s => s
  | .ends _ s =>
  match s.launch? lid with
  | none => s
  | some l =>
    let (worst, cause) := parts.foldl (fun (acc : Nat × Nat) x => if x.2.1.status > acc.1 then (x.2.1.status, x.2.2) else acc) (l.status, l.cause)
    let s := match l.cmd with
      | some c => s.finishCmd l.owner c worst (BitVec.ofNat 64 l.seq) (BitVec.ofNat 64 l.placedAll) (BitVec.ofNat 64 cause)
      | none => s
    s.dropLaunch lid l

/-- Every package of a span has reported to the lead. -/
def Launch.allDone (l : Launch) (x : Span) : Bool := l.lr.peers.all fun p => x.done.any fun d => d.1 == p

/-- LAUNCH_COMPLETION (R50, R76, R38): a launch whose work is done writes back, decrements its join object and completes. The
lead of a span completes once every package has reported, and a peer reports to the lead. -/
def execLaunchCompletion (launch : Nat) (s : State) : Host.Outcome State Fault Refusal :=
  match s.launch? launch with
  | none => .next s
  | some l =>
    if s.phase ≠ .up || !(s.launchIdle launch l) then .next s
    else
      match l.span with
      | none =>
        let s := s.writeBack launch l
        .next (s.completeLaunch launch l [])
      | some x =>
        if x.lead then
          if !x.ownDone then
            .next ((s.writeBack launch l).updSpan launch fun y => { y with ownDone := true, barrier := none })
          else if l.allDone x then .next (s.completeLaunch launch l x.done)
          else .next s
        else
          let s := s.writeBack launch l
          match s.launch? launch with
          | none => .next s
          | some l =>
            .next ({ s with tx := s.tx ++ [TxMessage.spanDone l.owner 0 x.generation { status := l.status, placed := l.placed } l.cause] }.dropLaunch launch l)

end Sys2Proof.Machine
end

