-- ==== Sys2Proof/Machine/Bell.lean ====
section
/-!
DEFINITION. The bell of round mode (R180–R185): when it rings, what each agent performs at it in the order of its key, and
what follows at it: placement (R75), the tasks of round mode (R90), pre-emption (R95) and the breaking of deadlocks (R111).
-/
namespace Sys2Proof.Machine

/-! ### Waits and turns -/

/-- A data-flow wait that still stalls (R180). -/
def State.stalled (s : State) (w : Wave) (x : Wait) : Bool :=
  match s.teamOf w with
  | none => false
  | some t =>
    match x with
    | .pop q => (t.queue q).entries.isEmpty && !(t.queue q).closed
    | .pushFull q => decide ((t.queue q).entries.length ≥ 64) && !(t.queue q).closed
    | .chainEmpty c => match s.chainInput w c with
      | .empty => true
      | _ => false
    | .chainFull c taken => if taken then !(s.chainRoom w c true) else match s.chainInput w c with
      | .full => true
      | _ => false
    | .seedFull c => decide ((w.chain c).queue.length ≥ 4)
    | _ => false

/-- Some split of the wave waits for a page that is not there (R52). -/
def State.waitsPage (s : State) (w : Wave) : Bool := w.splits.any fun x => match x.2.waiting with
  | .page va => !(s.pageThere w.owner va)
  | _ => false

/-- The agent has ended its round, has exited, or is stalled in a data-flow wait (R180). -/
def State.agentEnded (s : State) (w : Wave) : Bool :=
  if decide (w.life ≠ .running) || (s.teamOf w).any Team.preempting then true
  else if w.pending.isSome || s.waitsPage w then false
  else if w.roundEnded then true
  else if w.heldWhole || w.sleep > 0 then false
  else match w.dueSplit with
    | some (_, p) => s.stalled w p.waiting
    | none => false

/-- The agents of a launch. -/
def State.agentsOf (s : State) (lid : Nat) : Tab Wave :=
  (s.teamsOfLaunch lid).flatMap fun x => x.2.agents.filterMap fun n => (s.wave? n).map fun w => (n, w)

/-- An agent's key within its launch, as one number (R182). -/
def Wave.key (w : Wave) : Nat :=
  if w.task then 2 ^ 80 + (Tab.getD w.taskIndex 0 0).toNat * 2 + 1
  else (w.widBase.toNat / 32) * 2 + (!w.drover).toNat

/-! ### One agent's turn -/

/-- What performing one buffered action comes to. -/
inductive Performed where
  | done (s : State)
  | late (s : State) (t : Trap) (again : Act)   -- a fault, to be delivered at the start of the next round
  | again (s : State) (a : Act)                 -- to be tried again at a later bell
  | held (s : State) (a : Act)                  -- a page request or a remote answer holds the bell at this place

/-- The state an event leaves. -/
def stateOr (s : State) : Host.Outcome State Fault Refusal → State
  | .next t => t
  | _ => s

/-- The team of a launch on a core whose window holds a run of bytes. -/
def State.windowTeam (s : State) (l : Option Nat) (core a n : Nat) : Option Team :=
  ((s.teamsOnCore core).find? fun x => x.2.launch == l && decide (x.2.windowBase ≤ a) &&
    decide (a + n ≤ x.2.windowBase + x.2.windowSize)).map (·.2)

/-- The cause that stops a buffered store at the bell (R145, R184); 0x18 comes with the address that has no translation. -/
def State.placeCause (s : State) (w : Wave) (p : Place) (n : Nat) : Option (Nat × Nat) :=
  match p with
  | .scratch core a => if (s.windowTeam w.launch core a n).isSome then none else some (0x11, a)
  | .global owner va =>
    match s.owner? owner with
    | none => some (0x18, va)
    | some o =>
      let last := va + n - 1
      match ((o.checkGlobal va 1 .store).map fun c => (c, va)).orElse fun _ => (o.checkGlobal last 1 .store).map fun c => (c, last) with
      | some x => some x
      | none => if (o.remoteAt va).isNone && s.cutOff (s.dieOf w) o va n then some (0x20, va) else none

/-- The home package of a buffered store (R33). -/
def State.placeHome (s : State) (p : Place) : Option Nat :=
  match p with
  | .scratch .. => none
  | .global owner va => (s.owner? owner).bind fun o => o.remoteAt va

/-- Write a buffered store, its checks passed. -/
def State.writePlace (s : State) (w : Wave) (p : Place) (d : List Byte) : State :=
  match p with
  | .scratch core a => match s.windowTeam w.launch core a d.length with
    | some t => s.putScratch core t.owner a d
    | none => s
  | .global owner va => s.putBytes (s.writer w) owner va d

/-- Send a buffered store to its home package, for lane 33 of the wave, which stands for the bell (R33). -/
def State.sendPlace (s : State) (n : Nat) (w : Wave) (home : Nat) (p : Place) (d : List Byte) : Option (Nat × State) :=
  match p with
  | .scratch .. => none
  | .global _ va => s.sendRemote w n 0 33 false home (BitVec.ofNat 64 va) (.store d)

/-- A wave whose buffered action fails for good loses its team, while it runs (R68, R148). -/
def State.endTeam (s : State) (w : Wave) (cause : Nat) : State := if w.life = .running then s.terminate w.team cause else s

/-- Perform a buffered store of a trap record or of the device: one that cannot be performed terminates the team (R68, R182,
R221). -/
def State.bellStore (s : State) (n : Nat) (w : Wave) (p : Place) (d : List Byte) : Nat → Performed
  | 0 => .done s
  | fuel + 1 =>
    match s.placeCause w p d.length with
    | some (0x18, x) =>
      match s.resolvePage w.owner x with
      | .mapped s => State.bellStore s n w p d fuel
      | .waits s => .held (s.pageNotice w.owner x ((s.launchOf w).elim 0 (·.seq)) 0) (.store p d)
      | .fails => .done (s.endTeam w 0x18)
    | some (c, _) => .done (s.endTeam w c)
    | none =>
      match s.placeHome p with
      | none => .done (s.writePlace w p d)
      | some home =>
        match s.sendPlace n w home p d with
        | some (id, s) => .held s (.awaits id none .lost .nothing)
        | none => .done (s.endTeam w 0x20)

/-- The trap of an instruction's lane stores: `sup` the lanes whose faults suppress them, with their causes, `rest` those that a
resuming fault of cause `stop` at the first of them leaves unperformed (R133, R134, R184). -/
def Trap.ofStores (t : Trap) (sup : List (LaneStore × Nat)) (rest : List LaneStore) (stop : Nat) : Trap :=
  let mask (l : List LaneStore) : W32 := maskOf (l.map fun x => x.access.lane)
  match sup with
  | x :: _ =>
    { t with cause := x.2, kind := 1, fault := if t.fault = 0 then mask (sup.map (·.1)) else t.fault, deferred := mask rest,
             resume := match rest.head? with
               | some y => y.access.lane
               | none => 32,
             lanes := sup.map fun y => { y.1.access with cause := y.2 } }
  | [] => match rest with
    | y :: _ => { t with cause := stop, kind := 2, fault := if t.fault = 0 then mask rest else t.fault, resume := y.access.lane,
                         lanes := [{ y.access with cause := stop }] }
    | [] => t

/-- The suppressing faults among lane stores, with their causes. -/
def State.suppressed (s : State) (w : Wave) (ls : List LaneStore) : List (LaneStore × Nat) :=
  ls.filterMap fun x => (s.placeCause w x.place x.data.length).bind fun c =>
    if c.1 = 0x18 || c.1 = 0x20 then none else some (x, c.1)

/-- Perform lane stores in lane order as far as they go: the state, and what is left from the lane that stops (R133). -/
def State.writeLanes (s : State) (w : Wave) : List LaneStore → State × List LaneStore
  | [] => (s, [])
  | x :: r =>
    match s.placeCause w x.place x.data.length with
    | some (0x18, _) | some (0x20, _) => (s, x :: r)
    | some _ => State.writeLanes s w r
    | none => if (s.placeHome x.place).isSome then (s, x :: r) else State.writeLanes (s.writePlace w x.place x.data) w r

/-- Perform the lane stores of an instruction (R182, R184): every lane is checked first. A translation that has been removed is
reported as the other faults are, but to an agent that has no next round: there its page is resolved at once, and a page request
holds the bell, as a remote answer does (log entry 138). -/
def State.bellStores (s : State) (n : Nat) (w : Wave) (tag : Nat) (t : Trap) (ls : List LaneStore) : Nat → Performed
  | 0 => .done s
  | fuel + 1 =>
    let ls := sortBy (fun (x : LaneStore) => x.access.lane) ls
    let sup := s.suppressed w ls
    let (u, left) := s.writeLanes w ls
    let rest := left.filter fun x => !(sup.any fun y => y.1 == x)
    let all (r : List LaneStore) : Act := .stores tag t (r ++ sup.map (·.1))
    let failed (u : State) (stop : Nat) : Performed := .late u (t.ofStores sup rest stop) (all rest)
    match rest with
    | [] => if sup.isEmpty then .done u else failed u 0x20
    | x :: r =>
      match u.placeCause w x.place x.data.length with
      | some (0x18, a) =>
        if w.life = .running then failed u 0x18
        else match u.resolvePage w.owner a with
        | .mapped u => State.bellStores u n w tag t (rest ++ sup.map (·.1)) fuel
        | .waits u => .held (u.pageNotice w.owner a ((u.launchOf w).elim 0 (·.seq)) 0) (all rest)
        | .fails => .done (u.endTeam w 0x18)
      | some _ => failed u 0x20
      | none =>
        match (u.placeHome x.place).bind fun home => u.sendPlace n w home x.place x.data with
        | some (id, v) => .held v (.awaits id none (.late (t.ofStores sup rest 0x20) (all rest)) (all r))
        | none => failed u 0x20

/-- Run an engine operation at the bell as far as it goes (R185): a page request and a remote answer hold the bell, and a
gather whose queue is empty goes on at a later bell. -/
def State.bellEngine (s : State) (id : Nat) : Performed :=
  let s := match (s.engine? id).map (·.op) with
    | some (.copy _) => s.runCopy id copyFuel
    | some (.hrun ..) => stateOr s (execHrunCompletion id s)
    | some (.publish _) => stateOr s (execPubSwap id s)
    | _ => s
  match s.engine? id with
  | none => .done s
  | some x =>
    let asked : Bool := match x.op with
      | .copy c => c.asked.isSome
      | _ => false
    if x.pageWait.isSome || asked then .held s (.running id) else .again s (.running id)

/-- Begin a buffered engine operation at the bell. -/
def State.bellIssue (s : State) (x : Engine) : Performed :=
  let (id, s) := s.newId
  { s with engines := Tab.put s.engines id x }.bellEngine id

/-- A machine check of a barrier's state, met by an action at the bell: it terminates the team (R184, R218). -/
def Trap.partLost (t : Trap) (p : Part) : Trap := { t with cause := 0x20, kind := 2, fatal := true, errs := [.part p] }

/-- A barrier action of a team at the bell; refused, it is reported (R184, R185). -/
def State.bellBarrier (s : State) (tid b : Nat) (f : Barrier → Option Barrier) (t : Trap) (a : Act) : Performed :=
  if s.badParts.contains (.barrier tid b) then .late s (t.partLost (.barrier tid b)) a
  else match (s.team? tid).bind fun x => f (x.barrier b) with
    | some y => .done (s.updBarrier tid b fun _ => y)
    | none => .late s t a

/-- The team whose barrier an arrival of a wave names: its own, or that which a peer position holds now. -/
def State.baraTeam (s : State) (w : Wave) (peer : Option Nat) : Option (Nat × Team) :=
  (s.teamOf w).bind fun t => match peer with
    | none => some (w.team, t)
    | some pos => s.peerTeam w.team t pos

/-- BARA at the bell: on a peer's barrier that is not yet initialised it is tried again (R183), and a position that holds no team
of the group is a window violation, with one lane record (R312, R318). -/
def State.bellBara (s : State) (w : Wave) (peer : Option Nat) (b bytes : Nat) (t : Trap) : Performed :=
  let a : Act := .bara peer b bytes t
  match s.baraTeam w peer with
  | none => .late s { t with
      cause := 0x11, kind := 1, resume := 32
      lanes := [{ lane := (lowest t.exec).getD 0, cause := 0x11, address := BitVec.ofNat 64 (peer.getD 0 * 2 ^ 10 + b), size := 8,
                  kind := AccKind.atomic.code, space := 2 }] } a
  | some (tid, x) =>
    if s.badParts.contains (.barrier tid b) then .late s (t.partLost (.barrier tid b)) a
    else if (x.barrier b).init then .done (s.updBarrier tid b fun y => y.arrive 0 bytes)
    else if tid = w.team then .late s t a
    else .again s a

/-- The meaning of an instruction that round mode performs at the bell (R183, R184). No other instruction waits for it. -/
def bellWord (i : Instr) (s : State) : Host.Outcome State Fault Refusal :=
  match i with
  | .ld h sp sz sx d a c => execLd h sp sz sx d a c s
  | .st h sp sz a b c => execSt h sp sz a b c s
  | .stp h sz a b c => execStp h sz a b c s
  | .ldu h sp sz sx d a c => execLdu h sp sz sx d a c s
  | .stu h sp sz a b c => execStu h sp sz a b c s
  | .atom h op sc d a b c => execAtom h op sc d a b c s
  | .atomc h w sc d a b c => execAtomc h w sc d a b c s
  | .red h op sc a b c => execRed h op sc a b c s
  | .fenceR h => execFenceR h s
  | .fenceH h => execFenceH h s
  | .fenceE h => execFenceE h s
  | .barv h p d a => execBarv h p d a s
  | .rqres h w d a b c => execRqres h w d a b c s
  | .rqcmt h a => execRqcmt h a s
  | .rqtake h w d a => execRqtake h w d a s
  | .rqrel h a => execRqrel h a s
  | .postInstruction h tg d a c => execPostInstruction h tg d a c s
  | .spawn h tg d a c => execSpawn h tg d a c s
  | .tend h a => execTend h a s
  | .jinit h a b c => execJinit h a b c s
  | .launchInstruction h d a => execLaunchInstruction h d a s
  | .claim h w t d a => execClaim h w t d a s
  | .give h t a => execGive h t a s
  | _ => .next s

/-- The word at which a split stands, performed. -/
def State.bellRun (s : State) (n k : Nat) (p : Split) : State :=
  match decodeWord p.current (literalsOf (p.clause.headD 0) p.words p.word) with
  | .ok i =>
    let t := { s with cur := some (n, k) }
    (stateOr t (bellWord i t)).clearCur
  | .error _ => s

/-- What a wave is when an instruction whose other lanes faulted at issue is performed for it: that split alone, outside any
handler. -/
def Wave.apart (w : Wave) (k : Nat) (p : Split) : Wave :=
  { w with splits := [(k, p)], trapCtx := none, sysCtx := none, hmode := .none, pending := none, utvec := 8, buffer := [] }

/-- The wave as it was, with the registers, reservations and counts an instruction performed apart has left it. -/
def Wave.rejoin (w x : Wave) : Wave :=
  { x with splits := w.splits, trapCtx := w.trapCtx, sysCtx := w.sysCtx, hmode := w.hmode, pending := w.pending,
           utvec := w.utvec, bellSplit := w.bellSplit, retired := w.retired, lt := w.lt, nextSplit := w.nextSplit,
           begun := w.begun, sleep := w.sleep, stopped := w.stopped, buffer := w.buffer }

/-- The trap that an instruction performed at a bell has raised. -/
def raisedIn (l : List Act) : Option Trap := l.findSome? fun a => match a with
  | .raised t => some t
  | _ => none

/-- Perform the lanes of an instruction that were left to the bell when others faulted at issue (R184). -/
def State.bellLanes (s : State) (n k : Nat) (w : Wave) (p : Split) : Performed :=
  let t := (s.setWave n (w.apart k p)).bellRun n k p
  match t.wave? n with
  | none => .done t
  | some x =>
    if x.life ≠ .running then .done t
    else
      let u := t.setWave n (w.rejoin x)
      let left := (Tab.find x.splits k).bind fun q =>
        if q.pc = p.pc && q.word = p.word && !q.clause.isEmpty && q.retry.isSome then some q else none
      match raisedIn x.buffer, left with
      | some c, _ => .late u { c with late := true } (if c.kind < 3 then .word k p else .nothing)
      | none, some q => if q.waiting = .remote then .held u (.word k q) else .again u (.word k q)
      | none, none => .done u

/-- Perform one buffered action of an agent (R182, R184, R185). -/
def State.perform (s : State) (n : Nat) (w : Wave) : Act → Performed
  | .store p d => s.bellStore n w p d 3
  | .stores tag t ls => s.bellStores n w tag t ls 66
  | .awaits id reply failure rest => match reply with
    | none => .held s (.awaits id none failure rest)
    | some true => State.perform s n w rest
    | some false => State.perform s n w failure
  | .lost => .done (s.endTeam w 0x20)
  | .nothing => .done s
  | .engine x => s.bellIssue x
  | .running id => s.bellEngine id
  | .bari b wu ea eb t => s.bellBarrier w.team b (fun x => x.initialise wu ea eb) t (.bari b wu ea eb t)
  | .bara peer b bytes t => s.bellBara w peer b bytes t
  | .barx b k t => s.bellBarrier w.team b (fun x => x.withdraw k) t (.barx b k t)
  | .hcfg x => .done (s.updCore (s.coreOf w) fun c => { c with config := some x })
  | .cells first images => .done (s.putCells (s.coreOf w) w.owner first images)
  | .word k p => s.bellLanes n k w p
  | .late t again => .late s t again
  | .raised t => .late s t .nothing

/-- How an agent's turn has gone: the actions to keep for a later bell, the faults met, whether the bell is held, and what an
action that waits for a later bell holds back: 1 all but stores, 2 everything (R182, R183, R185). -/
structure Turn where
  s : State
  kept : List Act
  lates : List (Trap × Act)
  held : Bool
  blocked : Nat

/-- An action is a store of the agent. -/
def Act.isStore : Act → Bool
  | .store .. | .stores .. | .awaits .. | .lost | .nothing => true
  | _ => false

/-- An action that waits holds back the later ones of its agent: a gather all of them (R185), another all but stores, which come
before its next try (R183). -/
def Act.blocks : Act → Nat
  | .running _ => 2
  | _ => 1

/-- An action reports a fault that a bell has met. -/
def Act.reports : Act → Bool
  | .late .. | .raised _ => true
  | _ => false

/-- Perform the buffered actions of an agent in order, `fuel` of them (R182). -/
def Turn.acts (g : Turn) (n : Nat) : Nat → Turn
  | 0 => g
  | fuel + 1 =>
    match g.s.wave? n with
    | none => g
    | some w =>
      match w.buffer with
      | [] => g
      | a :: r =>
        let s := g.s.setWave n { w with buffer := r }
        if !a.reports && (g.blocked = 2 || (g.blocked = 1 && !a.isStore)) then
          Turn.acts { g with s := s, kept := g.kept ++ [a] } n fuel
        else match s.perform n w a with
        | .done s => Turn.acts { g with s := s } n fuel
        | .late s t b => Turn.acts { g with s := s, lates := g.lates ++ [(t, b)] } n fuel
        | .again s b => Turn.acts { g with s := s, kept := g.kept ++ [b], blocked := max g.blocked b.blocks } n fuel
        | .held s b =>
          let rest := b :: (g.kept ++ g.lates.map fun x => Act.late x.1 x.2)
          { s := s.updWave n fun x => { x with buffer := rest ++ x.buffer }, kept := [], lates := [], held := true,
            blocked := g.blocked }

/-- The waits in which an instruction stays for a later bell (R183). -/
def Wait.atBells : Wait → Bool
  | .peerBarrier | .ringSpace | .ringTake | .poolMax | .commitRoom | .claim | .remote | .posted | .engines | .tile => true
  | _ => false

/-- Perform the instruction of an agent that waits for the bell, after its stores (R184). -/
def State.bellInstruction (s : State) (n : Nat) : State :=
  match s.wave? n with
  | none => s
  | some w =>
    match w.bellSplit.bind fun k => (Tab.find w.splits k).map fun p => (k, p) with
    | none => s
    | some (k, p) =>
      let t := (s.updSplit n k fun q => { q with waiting := .none }).bellRun n k p
      t.updWave n fun x =>
        let waits : Bool := match Tab.find x.splits k with
          | some q => q.waiting.atBells
          | none => false
        { x with bellSplit := if waits then some k else none }

/-- The instruction that the agent performs at the bell waits for an answer from a home package or for its posted stores: it
holds the bell (R184, R187). -/
def Wave.holdsBell (w : Wave) : Bool :=
  match w.bellSplit.bind fun k => Tab.find w.splits k with
  | some p => p.waiting == .remote || p.waiting == .posted
  | none => false

/-- The ring entries of an agent that has PACKed, or whose team is terminated, are disposed of in its turn (R322). -/
def State.disposeAtBell (s : State) (n : Nat) : State :=
  match s.wave? n with
  | some w => if w.life = .running then s else s.disposeRings n
  | none => s

/-- The bell's instruction of an agent and what follows it in its turn; the flag tells whether the bell is held. -/
def State.endTurn (s : State) (n : Nat) : State × Bool :=
  let s := s.bellInstruction n
  if (s.wave? n).any Wave.holdsBell then (s, true) else (s.disposeAtBell n, false)

/-- An agent's turn at the bell; the flag tells whether the bell is held. -/
def State.agentTurn (s : State) (n : Nat) : State × Bool :=
  match s.wave? n with
  | none => (s, false)
  | some w =>
    if w.holdsBell then s.endTurn n
    else
      let g := ({ s := s, kept := [], lates := [], held := false, blocked := 0 } : Turn).acts n w.buffer.length
      let t := g.s.updWave n fun x => { x with buffer := g.kept ++ (g.lates.map fun y => Act.late y.1 y.2) ++ x.buffer }
      if g.held then (t, true)
      else if g.blocked ≠ 0 then (t.disposeAtBell n, false)
      else t.endTurn n

/-- The agents' turns in order; those not yet finished stay listed. -/
def State.turns (s : State) (lid : Nat) : List Nat → State
  | [] => s.updLaunch lid fun x => { x with ringing := [] }
  | n :: r =>
    let (t, held) := s.agentTurn n
    if held then t.updLaunch lid fun x => { x with ringing := n :: r } else State.turns t lid r

/-! ### What follows the agents' turns -/

/-- The records of a round-mode launch in a die queue that a bell may take (R90): those of die 0, and of any other the resume
cards (R97), with their queue. -/
def roundRecords (lid : Nat) (o : Owner) : List (Nat × QueueRec) :=
  (List.range 8).flatMap fun d => match Tab.find o.queues (dieQueue d) with
    | some q => (q.recs.filter fun r => r.takeable && r.launch == some lid && (decide (d = 0) || r.card.kind == 2)).map
        fun r => (dieQueue d, r)
    | none => []

/-- The consecutive records that form the next wave (R90); a resume card forms one alone. -/
def nextTasks : List (Nat × QueueRec) → List (Nat × QueueRec)
  | [] => []
  | r :: rest =>
    let like (x : Nat × QueueRec) : Bool :=
      x.2.card.entry == r.2.card.entry && x.2.card.prio == r.2.card.prio && x.2.card.kind != 2
    if r.2.card.kind = 2 then [r] else r :: (rest.takeWhile like).take 31

/-- The core of a round-mode task wave (R74, R90). -/
def State.taskCore (s : State) (l : Launch) (o : Owner) (lead : QueueRec) : Option Nat :=
  let n := o.placement.length
  let saved := lead.parked.bind fun id => Tab.find s.saved id
  let index := match saved with
    | some v => v.team.index
    | none => lead.index.toNat
  (rotate o.placement (genSlot l.lr.seed index n)).find? fun c =>
    if lead.card.kind = 2 then s.cardFits c lead else s.fitsWith c [] taskNeeds

/-- Form a task wave from records of a die queue, or bring a saved one back (R90, R97). -/
def State.startTasks (s : State) (owner core queue : Nat) (recs : List QueueRec) : State :=
  let tasks := recs.filter fun r => r.card.kind != 2
  let s := (s.updOwner owner fun o => match Tab.find o.queues queue with
    | some q => { o with queues := Tab.put o.queues queue (q.consume (recs.map (·.pos))) }
    | none => o).poolSub owner tasks.length
  match (recs.head?.bind fun r => r.parked).bind fun id => (Tab.find s.saved id).map fun v => (id, v) with
  | some (id, v) =>
    let slot := s.taskSlot core
    let area : W64 := match s.owner? owner with
      | some o => o.taskArea core slot
      | none => 0
    let (tid, s) := s.placeSaved id v core slot area
    if v.forced then s
    else match s.team? tid with
      | some t => s.setControl t (dirOf 1 [(0, core)])
      | none => s
  | none => s.formWave owner core recs

/-- Place the launch's tasks until one finds no core (R90). -/
def State.placeTasks (s : State) (lid : Nat) : Nat → State
  | 0 => s
  | fuel + 1 =>
    match (s.launch? lid).bind fun l => (s.owner? l.owner).map fun o => (l, o) with
    | none => s
    | some (l, o) =>
      let recs := nextTasks (roundRecords lid o)
      match recs.head?.bind fun r => (s.taskCore l o r.2).map fun c => (r.1, c) with
      | some (q, c) => if o.closing then s else State.placeTasks (s.startTasks l.owner c q (recs.map (·.2))) lid fuel
      | none => s

/-- Break a core's deadlocks whose youngest claimant belongs to the launch: its CLAIM fails at this bell (R111). -/
def State.breakAtBell (s : State) (lid core : Nat) : Nat → State
  | 0 => s
  | fuel + 1 =>
    match s.youngestClaimant core with
    | none => s
    | some (n, k) =>
      match s.wave? n with
      | none => s
      | some w =>
        if w.launch = some lid && s.deadlocked core then
          State.breakAtBell ((s.updSplit n k fun p => { p with retry := p.retry.map fun r => { r with carry := claimMark 2 false 0 } }).bellInstruction n)
            lid core fuel
        else s

/-- Teams of a launch that ended, or whose pre-emption takes effect at this bell (R71, R95, R182). -/
def State.settleLaunch (s : State) (lid : Nat) : State :=
  let ids := (s.teamsOfLaunch lid).map (·.1)
  let s := ids.foldl (fun s t => s.settleTeam t) s
  let s := ids.foldl (fun s t => s.takeEffect t) s
  ids.foldl (fun s t => s.settleTeam t) s

/-- Records of the launch that wait for room without an agent are committed (R87, R183). -/
def State.commitCards (s : State) (lid : Nat) : State :=
  match s.launch? lid with
  | none => s
  | some l => (List.range 8).foldl (fun s d =>
      s.flushCommits l.owner (dieQueue d) (fun c => c.launch == some lid && c.wave.isNone) 512) s

/-- An agent that has passed a bell begins its next round (R102, R181, R183): an action that waits for a later bell keeps it
from issuing. -/
def Wave.nextRound (w : Wave) : Wave :=
  let waits := w.bellSplit.isSome || w.buffer.any fun a => match a with
    | .bara .. | .word .. | .running _ => true
    | _ => false
  { w with round := w.round + 1, lt := 0, laneStores := 0, roundEnded := waits }

/-- Deliver to an agent, as its next round starts, the trap of the instruction that the bell performed, or the earliest fault
of its other actions where no handler of it runs; later ones wait (R184). -/
def State.deliver (s : State) (n : Nat) : State :=
  match s.wave? n with
  | none => s
  | some w =>
    if w.life ≠ .running then s
    else
      match raisedIn w.buffer with
      | some t => (s.setWave n { w with buffer := w.buffer.filter fun a => a != .raised t }).raiseNow n t
      | none =>
        if w.trapCtx.isSome || w.pending.isSome || w.hmode ≠ .none then s
        else
          match w.buffer.findSome? fun a => (match a with | .late t b => some (t, b) | _ => none) with
          | some (t, b) => (s.setWave n { w with buffer := w.buffer.erase (.late t b), redo := some b }).raiseNow n t
          | none => s

/-- The bell ends: what follows the agents' turns, and the snapshot of the next round (R181). An agent that this bell places
has passed none yet. -/
def State.endBell (s : State) (lid : Nat) : State :=
  let agents := (sortBy (fun (x : Nat × Wave) => x.2.key) (s.agentsOf lid)).map (·.1)
  let s := (((s.settleLaunch lid).commitCards lid).placeRound lid placeFuel).placeTasks lid placeFuel
  let cores := ((s.teamsOfLaunch lid).map fun x => x.2.core).eraseDups
  let s := cores.foldl (fun s c => s.breakAtBell lid c 32) s
  let s := (s.markSnapshot lid).updLaunch lid fun x => { x with fresh := false }
  let s := agents.foldl (fun s n => s.updWave n fun w => if w.life = .running then w.nextRound else w) s
  agents.foldl (fun s n => s.deliver n) { s with atBell := false }

/-! ### When the bell rings (R180) -/

/-- A team or a task of the launch waits to be placed and could be placed now. -/
def State.couldPlace (s : State) (lid : Nat) (l : Launch) : Bool :=
  match s.owner? l.owner with
  | none => false
  | some o =>
    !o.closing &&
    ((match s.nextUnit l with
      | some (i, u) => !(s.heldBack lid l) && (s.roundCores lid l o i u).isSome
      | none => false) ||
     (match (roundRecords lid o).head? with
      | some r => (s.taskCore l o r.2).isSome
      | none => false))

/-- A team or a task of the launch waits to be placed (R180). -/
def State.waitsPlace (s : State) (lid : Nat) (l : Launch) : Bool :=
  ((s.nextUnit l).isSome && !(s.heldBack lid l)) || (match s.owner? l.owner with
    | some o => !(roundRecords lid o).isEmpty
    | none => false)

/-- Something has happened, or waits to be performed, since the previous bell (R180): a team waits to be placed and the resources
have changed, or it can be placed because a RESUME has named it. -/
def State.bellWork (s : State) (lid : Nat) (l : Launch) : Bool :=
  l.fresh || (s.waitsPlace lid l && decide (s.holdings l.owner ≠ l.resources)) || s.couldPlace lid l ||
  (s.agentsOf lid).any fun x => x.2.bellSplit.isSome || (x.2.buffer.any fun a => !a.reports) ||
    (decide (x.2.life ≠ .running) && !(x.2.reserved.isEmpty && x.2.holds.isEmpty))

/-- A request of a split of a wave, other than a posted one, has no answer yet. -/
def State.unanswered (s : State) (n k : Nat) (w : Wave) : Bool :=
  (s.remote.any fun x => x.2.wave == n && x.2.split == k && x.2.engine.isNone && !x.2.posted && x.2.lane != 32 && x.2.lane != 33 &&
    x.2.handler == w.trapCtx.isSome) || (s.ringJobs.any fun x => x.2.asker == .lane n k w.trapCtx.isSome)

/-- The agent at which the bell is held can go on. -/
def State.heldGoesOn (s : State) (n : Nat) : Bool :=
  match s.wave? n with
  | none => true
  | some w =>
    if w.holdsBell then match w.bellSplit.bind fun k => (Tab.find w.splits k).map fun p => (k, p) with
      | some (k, p) => if p.waiting = .posted then !(s.postedOut n) else !(s.unanswered n k w)
      | none => true
    else match w.buffer.head? with
      | some (.running id) => match s.engine? id with
        | some x => (match x.pageWait, s.team? x.team with
            | some va, some t => s.pageThere t.owner va
            | _, _ => true) && (match x.op with
            | .copy c => c.asked.isNone || c.answer.isSome
            | _ => true)
        | none => true
      | some (.awaits _ r _ _) => r.isSome
      | some (.word k p) => p.waiting != .remote || !(s.unanswered n k { w with trapCtx := none })
      | some a => a.pages.all fun x => s.pageThere x.1 x.2
      | none => true

/-- The bell of a launch may ring now. -/
def State.bellDue (s : State) (lid : Nat) (l : Launch) : Bool :=
  decide (s.phase = .up) && l.round && l.started && !l.complete &&
  (match l.ringing with
   | n :: _ => s.heldGoesOn n
   | [] => ((s.agentsOf lid).all fun x => s.agentEnded x.2) && s.bellWork lid l)

/-- Every agent of the launch that is still stalled in a data-flow wait ends its round there as its bell begins (R180, R183). -/
def State.endStalled (s : State) (lid : Nat) : State :=
  (s.agentsOf lid).foldl (fun s x => s.updWave x.1 fun w =>
    { w with roundEnded := w.roundEnded || (decide (w.life = .running) && (w.dueSplit.any fun y => s.stalled w y.2.waiting)) }) s

/-- Ring: the agents take their turns from where the bell was held, or from the first (R182). -/
def State.ring (s : State) (lid : Nat) (l : Launch) : State :=
  let s := if l.ringing.isEmpty then s.endStalled lid else s
  let order := if l.ringing.isEmpty then (sortBy (fun (x : Nat × Wave) => x.2.key) (s.agentsOf lid)).map (·.1) else l.ringing
  let t := { s with atBell := true, cur := none }.turns lid order
  let held := (t.launch? lid).any fun x => !x.ringing.isEmpty
  { (if held then t else t.endBell lid) with atBell := false, cur := none }

/-- BELL (R180). Where a word of another launch is being issued, it goes on afterwards. -/
def execBell (launch : Nat) (s : State) : Host.Outcome State Fault Refusal :=
  match s.launch? launch with
  | none => .next s
  | some l =>
    if s.bellDue launch l then
      let t := s.ring launch l
      let cur := s.cur.bind fun c => if ((t.wave? c.1).bind fun w => Tab.find w.splits c.2).isSome then some c else none
      .next { t with cur := cur }
    else .next s

end Sys2Proof.Machine
end

