-- ==== Sys2Proof/Machine/System.lean ====
section
/-!
DEFINITION. Group C: special registers, the end of a handler, PACK, and the instructions of the system handler (R209,
R215, R365–R368).
-/
namespace Sys2Proof.Machine

/-! ### Special registers (R365) -/

/-- The register is per lane. -/
def srdPerLane (num : Nat) : Bool := num = 0x1D || (decide (num < 0x1C) && specialPerLane (BitVec.ofNat 5 num))

/-- The value of a register by number in a lane, below 0x20. -/
def State.srdValue (s : State) (e : Env) (num lane : Nat) : W64 :=
  if num < 0x1C then s.special e.w e.active num lane
  else if num = 0x1C then s.trecOf e.w
  else if num = 0x1D then (e.w.depthOf lane).setWidth 64
  else if num = 0x1E then BitVec.ofNat 64 e.w.owner
  else match e.w.hmode with
    | .none => 0
    | .user => 1
    | .system => 2

/-- SRD (R365). The system registers are readable in system mode; their contents are the firmware's. -/
def execSrd (h : Head) (d a : Operand) (s : State) : Host.Outcome State Fault Refusal :=
  s.runWord (.srd h d a) h fun s e =>
    if !e.runs then .done s
    else
      let num := (s.uni e a).toNat
      if num ≥ 0x100 then e.illegal s
      else if num ≥ 0x20 then
        if e.w.hmode ≠ .system then .trap s (e.trap 0x08)
        else
          let (x, t) := s.freeVal 64
          .done (t.writeOnce e d 1 x)
      else
        match d with
        | .s _ => if srdPerLane num then e.illegal s else .done (s.updWave e.n fun w => w.writeS d (s.srdValue e num e.first))
        | .v n =>
          if srdPair num && (n.toNat % 2 ≠ 0 || n.toNat + 1 ≥ 8 * e.w.units) then e.illegal s
          else
            let regs := if srdPair num then 2 else 1
            .done (s.updWave e.n fun w => (lanesOf e.exec).foldl (fun w l => w.writeLane d regs l (s.srdValue e num l)) w)
        | _ => e.illegal s

/-- SWR (R206, R365). In system mode a write of a system register changes no state of the model (log entry 154). -/
def execSwr (h : Head) (a b : Operand) (s : State) : Host.Outcome State Fault Refusal :=
  s.runWord (.swr h a b) h fun s e =>
    if !e.runs then .done s
    else
      let num := (s.uni e a).toNat
      let x := s.uni e b
      let put (f : Wave → Wave) : Res := .done (s.updWave e.n f)
      if num ≥ 0x100 then e.illegal s
      else if num ≥ 0x20 then (if e.w.hmode ≠ .system then .trap s (e.trap 0x08) else .done s)
      else if num = 0x14 then
        if (lo32 x).toNat ≥ 2 ^ 6 then e.illegal s else put fun w => { w with fstat := lo32 x }
      else if num = 0x15 then put fun w => { w with hstat := lo32 x }
      else if num = 0x1A then put fun w => { w with utvec := x }
      else if num = 0x1B then
        if e.w.task || x = 0 || x.toNat % 64 ≠ 0 then e.illegal s else put fun w => { w with trapArea := x }
      else e.illegal s

/-! ### Handlers (R366, R367) -/

/-- A split that may end its handler: alone, with nothing stacked and no join open. -/
def Env.handlerEnds (e : Env) : Bool :=
  e.w.splits.length == 1 && e.sp.stack.isEmpty && e.sp.spill.isEmpty && e.sp.context.isEmpty

/-- RTU (R215, R366). -/
def execRtu (h : Head) (mode : ResumeMode) (s : State) : Host.Outcome State Fault Refusal :=
  s.runWord (.rtu h mode) h fun s e =>
    if !e.runs then .done s
    else
      match e.w.trapCtx with
      | none => .trap s (e.trap 0x01)
      | some c =>
        if e.w.hmode ≠ .user || !e.handlerEnds then .trap s (e.trap 0x01)
        else match c.handsOn mode with
          | some slot =>
            -- the carry that the trapped instruction hands on needs room (R126, R132)
            if s.chainRoom e.w slot true then .returned (s.returnTrap e.n e.w c mode) else .wait (.chainFull slot true)
          | none => .returned (s.returnTrap e.n e.w c mode)

/-- A load of another split of the wave has still to bring its result from a home package (R367). -/
def Env.resultsOut (e : Env) : Bool := e.w.splits.any fun x => x.1 != e.k && x.2.waiting == .remote

/-- PACK (R96, R222, R367): the wave leaves its core; its ring tables are disposed of, in round mode at the bell. Its links and
queues stand until the team is released (R96, R125). -/
def execPack (h : Head) (a b : Operand) (s : State) : Host.Outcome State Fault Refusal :=
  s.runWord (.pack h a b) h fun s e =>
    if !e.runs then .done s
    else
      let entry := s.uni e b
      match e.w.trapCtx with
      | none => .trap s (e.trap 0x01)
      | some c =>
        if e.w.hmode ≠ .user || c.cause ≠ 0x40 then .trap s (e.trap 0x01)
        else if entry.toNat % 8 ≠ 0 || entry.toNat ≥ 2 ^ 56 then e.illegal s
        else if s.matrixOut e.n || e.resultsOut then .wait .tile
        else
          let t := if s.isRound e.w then s else s.disposeRings e.n
          let t := (t.freeSpill e.n).updWave e.n fun w =>
            { w with life := .packed, splits := [], trapCtx := none, sysCtx := none, hmode := .none,
                     resumeAt := some (s.uni e a, entry) }
          .returned ((t.stir e.w.launch).settleTeam e.w.team)

/-! ### Instructions of the system handler (R368) -/

/-- Bytes a STKSV writes, in the firmware's own layout: free values (R368). -/
def State.freeBytes (s : State) : Nat → List Byte × State
  | 0 => ([], s)
  | n + 1 =>
    let (b, t) := s.freeVal 8
    let (r, u) := State.freeBytes t n
    (b :: r, u)

/-- A stack entry of undefined contents. -/
def State.freeEntries (s : State) : Nat → List StackEntry × State
  | 0 => ([], s)
  | n + 1 =>
    let (j, t) := s.freeVal 64
    let (m, t) := t.freeVal 32
    let (f, t) := t.freeVal 64
    let (r, t) := t.freeVal 1
    let (rest, u) := State.freeEntries t n
    ({ join := j, mask := m, fall := f, returned := r == 1 } :: rest, u)

/-- Where a stack save of 256 bytes lies: at a storage location, or at a home package (R33). -/
inductive StackPlace where
  | here (k : Nat)
  | away (home : Nat)

/-- The key under which a saved stack is known. -/
def StackPlace.key (a : Nat) : StackPlace → Nat
  | .here k => k
  | .away home => 2 ^ 64 * (home + 1) + a

/-- The place of a stack save of 256 bytes, or what stops it. -/
def State.stackPlace (s : State) (e : Env) (a : Nat) (k : AccKind) : Except Res StackPlace :=
  let fault (c : Nat) : Res := .trap s (e.onceFault c (BitVec.ofNat 64 a) 16 k.code 0)
  match s.owner? e.w.owner with
  | none => .error (fault 0x18)
  | some o =>
    match (List.range 4).findSome? fun i => o.checkGlobal (a + 64 * i) 64 k with
    | some c => .error (fault c)
    | none =>
      match o.pageAt a with
      | some p => match p.frame, p.remote with
        | some f, none =>
          let cut := if k = .load then s.badGlobal (s.dieOf e.w) o a 256 else s.cutOff (s.dieOf e.w) o a 256
          if cut then .error (fault 0x20) else .ok (.here (p.place f a))
        | _, some home => .ok (.away home)
        | none, none => .error (fault 0x18)
      | none => .error (fault 0x18)

/-- The answer of the home package for a stack save; none where it is still to be asked, which then is done. -/
def State.stackAnswer (s : State) (e : Env) (home a : Nat) (op : RemoteOp) (k : AccKind) : Except Res (List Byte) :=
  let fail : Res := .trap s (e.onceFault 0x20 (BitVec.ofNat 64 a) 16 k.code 0)
  match e.reply e.firstExec with
  | some r => if r.ok then .ok r.data else .error fail
  | none =>
    if s.isRound e.w && !s.atBell then .error (.defer s e.exec)
    else .error (s.askHome e e.firstExec home (BitVec.ofNat 64 a) op fail)

/-- STKSV (R368). -/
def execStksv (h : Head) (split : BitVec 2) (a : Operand) (s : State) : Host.Outcome State Fault Refusal :=
  s.runWord (.stksv h split a) h fun s e =>
    if !e.runs then .done s
    else
      let x := (s.uni e a).toNat
      match Tab.find e.w.splits split.toNat with
      | none => e.illegal s
      | some p =>
        let keep (t : State) (bs : List Byte) (k : StackPlace) : State :=
          { t with savedStacks := Tab.put t.savedStacks (k.key x) (p.stack, bs) }
        let empty (t : State) : Res := .done (t.updSplit e.n split.toNat fun q => { q with stack := [] })
        match s.stackPlace e x .store with
        | .error r => r
        | .ok (.here k) =>
          let (bs, t) := s.freeBytes 256
          let f : LaneFault := { lane := e.firstExec, cause := 0x12, address := BitVec.ofNat 64 x, size := 16,
                                 kind := AccKind.store.code, space := 0 }
          empty (keep (t.storeTarget e.n e.w (.global x) bs f (e.lateStore e.exec)) bs (.here k))
        | .ok (.away home) =>
          let (bs, t) := s.freeBytes 256
          match (keep t bs (.away home)).stackAnswer e home x (.store bs) .store with
          | .error r => r
          | .ok _ => empty s

/-- STKLD (R368): bytes that no STKSV wrote give a stack of undefined contents, of at most the 16
entries that it has room for (R140). -/
def execStkld (h : Head) (split : BitVec 2) (a : Operand) (s : State) : Host.Outcome State Fault Refusal :=
  s.runWord (.stkld h split a) h fun s e =>
    if !e.runs then .done s
    else
      let x := (s.uni e a).toNat
      match Tab.find e.w.splits split.toNat, s.owner? e.w.owner with
      | some _, some o =>
        let load (k : StackPlace) (bs : List Byte) : Res :=
          match (Tab.find s.savedStacks (k.key x)).bind fun y => if y.2 = bs then some y.1 else none with
          | some st => .done (s.updSplit e.n split.toNat fun q => { q with stack := st })
          | none =>
            let (n, t) := s.freeVal 5
            let (st, t) := t.freeEntries (n.toNat % 17)
            .done (t.updSplit e.n split.toNat fun q => { q with stack := st })
        match s.stackPlace e x .load with
        | .error r => r
        | .ok (.here k) => load (.here k) (o.bytes e.w.owner (s.viewOf e.w) x 256)
        | .ok (.away home) => match s.stackAnswer e home x (.load 256) .load with
          | .error r => r
          | .ok bs => load (.away home) bs
      | _, _ => e.illegal s

/-- RTS (R210, R368): the wave continues as its cause states. -/
def execRts (h : Head) (s : State) : Host.Outcome State Fault Refusal :=
  s.runWord (.rts h) h fun s e =>
    if !e.runs then .done s
    else
      match e.w.sysCtx with
      | none => .trap s (e.trap 0x01)
      | some c =>
        let t := s.updWave e.n fun w =>
          { w with sysCtx := none, hmode := if w.trapCtx.isSome then .user else .none }
        match c.toUser with
        | none => .returned t
        | some x =>
          if systemOnly c.cause then
            let keep := e.w.trapCtx
            .returned ((t.returnTrap e.n e.w x .retry).updWave e.n fun w =>
              { w with trapCtx := keep, hmode := if keep.isSome then .user else .none })
          else if (c.cause = 0x01 || c.cause = 0x02 || c.cause = 0x20) && e.w.utvec ≠ 0 && e.w.trapCtx.isNone then
            -- causes marked "system, then user" (R210)
            .returned (t.updWave e.n fun w =>
              { w with trapCtx := some x, hmode := .user, nextSplit := 0, begun := none,
                       splits := [(0, Split.start w.utvec (x.splits.foldl (fun m y => m ||| y.2.lanes) 0))] })
          else .returned (t.terminate e.w.team c.cause)

/-- TLBINV (R368): translations are always those of the owner's pages, so nothing is left to remove. -/
def execTlbinv (h : Head) (a b : Operand) (s : State) : Host.Outcome State Fault Refusal :=
  s.runWord (.tlbinv h a b) h fun s _ => .done s

end Sys2Proof.Machine
end

