-- ==== Sys2Proof/Machine/Debug.lean ====
section
/-!
DEFINITION. The debug agent as ivgil drives it (R216, R384, R386, R388, R390, R392). What it reads is written to the report
and changes no value of a program.
-/
namespace Sys2Proof.Machine

/-- The debug agent reports values to its host. -/
def State.report (s : State) (r : List W64) : State := { s with ivgil := { s.ivgil with report := r } }

/-- IVGIL_BREAK (R384): a breakpoint on a clause. -/
def execIvgilBreak (owner : Nat) (clause : W64) (s : State) : Host.Outcome State Fault Refusal :=
  .next (if s.ivgil.breaks.contains (owner, clause) then s
    else { s with ivgil := { s.ivgil with breaks := s.ivgil.breaks ++ [(owner, clause)] } })

/-- A stopped wave goes on as under RTU mode 00 (R216): it passes the breakpoint it stopped at; one that a step has brought to a
breakpoint has not stopped at it yet. -/
def Wave.released (w : Wave) : Wave :=
  match w.stopped with
  | .breakpoint k => { w.updSplit k (fun p => { p with skipBreak := true }) with stopped := .no }
  | _ => { w with stopped := .no }

/-- IVGIL_RUN (R384): every stopped wave of the owner is resumed. -/
def execIvgilRun (owner : Nat) (s : State) : Host.Outcome State Fault Refusal :=
  .next { s with waves := Tab.mapVal (fun _ (w : Wave) => if w.owner = owner then w.released else w) s.waves }

/-- IVGIL_STEP (R384): the next word of a stopped wave issues, at once where it need not wait; a word that waits completes when its
wait ends, and the wave is held again after it. -/
def execIvgilStep (wave : Nat) (s : State) : Host.Outcome State Fault Refusal :=
  match s.wave? wave with
  | none => .next s
  | some w =>
    let go (x : Stopped) : Host.Outcome State Fault Refusal :=
      .next { s.updWave wave (fun y => { y.released with stopped := x }) with sched := .step wave :: s.sched }
    match w.stopped with
    | .no => .next s
    | .breakpoint k | .caught k => go (.stepping (some k))
    | .held => go (.stepping none)
    | .stepping k => go (.stepping k)
    | .waits k pc i => go (if w.standsAt k pc i then .waits k pc i else .stepping none)

/-- IVGIL_TIMING (R384): the reference implementation's schedule is informative; no value of it is reported. -/
def execIvgilTiming (wave : Nat) (s : State) : Host.Outcome State Fault Refusal :=
  .next (if (s.wave? wave).isSome then s.report [] else s)

/-- A truth value as a number. -/
def bit64 (b : Bool) : W64 := if b then 1 else 0

/-- The memory words an owner's addresses hold, as the debug agent reads them. -/
def State.peek (s : State) (owner a n : Nat) : List W64 :=
  match s.owner? owner with
  | some o => (List.range n).map fun i => (o.byteAt s.mem (a + i)).setWidth 64
  | none => []

/-- The first elements of a row of a team's window, `count` of `size` bytes each (R386, R388). -/
def State.peekRow (s : State) (id : Nat) (t : Team) (off size count : Nat) : List W64 :=
  (List.range count).map fun i => BitVec.ofNat 64 (ofLe (s.windowBytes [] id t (off + size * i) size))

/-- What a print names: a wave's registers, bytes of memory, or rows of a window, each with its number relative to the data, which
stand behind `guard` rows, and with its offset (R386, R388). -/
def State.printed (s : State) (what : PrintWhat) : List W64 :=
  match what with
  | .vector n r => match s.wave? n with
    | some w => (List.range 32).map fun l => (w.vreg r l).setWidth 64
    | none => []
  | .scalar n r => match s.wave? n with
    | some w => [w.sreg r]
    | none => []
  | .predicate n r => match s.wave? n with
    | some w => [(w.preg r).setWidth 64]
    | none => []
  | .special n r => match s.wave? n with
    | some w => (List.range 32).map fun l => s.special w w.liveLanes r l
    | none => []
  | .memory owner a n => s.peek owner a n
  | .scratch id off rows pitch size count guard => match s.team? id with
    | some t => (List.range rows).flatMap fun k =>
        (BitVec.ofNat 64 k - BitVec.ofNat 64 guard) :: BitVec.ofNat 64 (off + k * pitch) :: s.peekRow id t (off + k * pitch) size count
    | none => []

/-- IVGIL_PRINT (R386, R388). -/
def execIvgilPrint (what : PrintWhat) (s : State) : Host.Outcome State Fault Refusal := .next (s.report (s.printed what))

/-- IVGIL_LANES (R386): the entry mask, and each split's number, active lanes, clause address and stack depth. -/
def execIvgilLanes (wave : Nat) (s : State) : Host.Outcome State Fault Refusal :=
  match s.wave? wave with
  | none => .next s
  | some w => .next (s.report (w.emask.setWidth 64 :: BitVec.ofNat 64 w.splits.length ::
      w.splits.flatMap fun x => [BitVec.ofNat 64 x.1, x.2.mask.setWidth 64, x.2.pc, BitVec.ofNat 64 x.2.stack.length]))

/-- IVGIL_CHAIN (R386): a slot's seed, predecessor (all ones for a head), output and hand-on queue. -/
def execIvgilChain (wave slot : Nat) (s : State) : Host.Outcome State Fault Refusal :=
  match s.wave? wave with
  | none => .next s
  | some w =>
    let c := w.chain slot
    .next (s.report (c.seed :: (match c.link with
      | some i => BitVec.ofNat 64 i
      | none => BitVec.allOnes 64) :: c.out :: bit64 c.produced :: c.queue))

/-- IVGIL_TOKENS (R386): which tokens are busy, and which hold an engine error. -/
def execIvgilTokens (wave : Nat) (s : State) : Host.Outcome State Fault Refusal :=
  match s.wave? wave with
  | none => .next s
  | some w => .next (s.report [w.busy.setWidth 64, w.tokenErrors.setWidth 64])

/-- IVGIL_BARRIER (R313, R386): the barrier's state as it stands, its Failed marks among it. -/
def execIvgilBarrier (team bar : Nat) (s : State) : Host.Outcome State Fault Refusal :=
  match s.team? team with
  | none => .next s
  | some t =>
    let b := t.barrier bar
    .next (s.report [bit64 b.init, bit64 b.waveUnits, BitVec.ofNat 64 b.ea, BitVec.ofNat 64 b.eb, bit64 b.phase,
      BitVec.ofNat 64 b.arrivals, BitVec.ofNat 64 b.bytes, bit64 b.failed, bit64 b.observedFailed])

/-- IVGIL_CATCH (R390): the agent is armed for a cause in the owner's next launch. -/
def execIvgilCatch (owner cause : Nat) (s : State) : Host.Outcome State Fault Refusal :=
  .next { s with ivgil := { s.ivgil with catching := s.ivgil.catching ++ [(owner, cause)] } }

/-- IVGIL_TRAP (R213, R390): the words of the wave's trap record as written; in round mode the wave's own view of memory shows it
before the bell does (R221). -/
def execIvgilTrap (wave : Nat) (s : State) : Host.Outcome State Fault Refusal :=
  match s.wave? wave with
  | none => .next s
  | some w =>
    let b := s.readTarget w (s.viewOf w) (.global (s.trecOf w).toNat) 640
    .next (s.report ((List.range 80).map fun i => BitVec.ofNat 64 (leAt b (8 * i) 8)))

/-- The debug agent asks the home package for the count of each join object, of some in a report from place `i` on, that lies
there; the answer takes its place in the report (R386, R392; log entry 151). -/
def State.askCounts (s : State) (owner : Nat) (o : Owner) : Nat → List JoinEntry → State
  | _, [] => s
  | i, j :: r =>
    let s := match (o.pageAt j.address).bind (·.remote) with
      | some home => match s.request none home (BitVec.ofNat 64 j.address) (.load 4)
          { owner := owner, engine := none, wave := 0, split := i, lane := reportLane, posted := false, handler := false,
            launch := none, others := [] } with
        | some x => x.2
        | none => s
      | none => s
    State.askCounts s owner o (i + 2) r

/-- A join object's count as a report shows it; all ones where another package has still to tell it. -/
def State.reportedCount (s : State) (owner : Nat) (o : Owner) (j : JoinEntry) : W64 :=
  if ((o.pageAt j.address).bind (·.remote)).isSome then BitVec.allOnes 64
  else BitVec.ofNat 64 (ofLe (o.bytes owner s.now j.address 4))

/-- IVGIL_PRINT_POOL (R392): the pool's count, its quota and the nesting limit; each join object it counts, with its count;
and each record it counts, in a queue or in a commit that waits for room, with its entry, argument pointer, depth and queue. -/
def execIvgilPrintPool (owner : Nat) (s : State) : Host.Outcome State Fault Refusal :=
  match s.owner? owner with
  | none => .next s
  | some o =>
    let joins := o.joins.flatMap fun j => [BitVec.ofNat 64 j.address, s.reportedCount owner o j]
    let recs := o.queues.flatMap fun q => (q.2.recs.filter fun r => !r.released && r.type != 0 && r.card.kind != 2).flatMap
      fun r => [r.card.entry, r.card.arg, r.card.depth.setWidth 64, BitVec.ofNat 64 q.1]
    let waiting := (o.commits.filter fun c => c.card.kind != 2).flatMap fun c =>
      [c.card.entry, c.card.arg, c.card.depth.setWidth 64, BitVec.ofNat 64 c.queue]
    .next ((s.askCounts owner o 5 o.joins).report ([BitVec.ofNat 64 o.pool, BitVec.ofNat 64 o.poolQuota, BitVec.ofNat 64 o.nesting,
      BitVec.ofNat 64 o.joins.length] ++ joins ++ recs ++ waiting))

end Sys2Proof.Machine
end

