-- ==== Sys2Proof/Machine/FloatOps.lean ====
section
/-!
DEFINITION. Groups 2 and 3: floating point and conversion (R288–R301).
-/
namespace Sys2Proof.Machine

/-- A result as the value a destination takes. -/
def bits64 (r : Nat × Flags) : W64 × Flags := (BitVec.ofNat 64 r.1, r.2)

/-- A float instruction of one source (R288). -/
def State.floatOp1 (s : State) (i : Instr) (h : Head) (f : Fmt) (d a : Operand) (g : Nat → Nat × Flags) :
    Host.Outcome State Fault Refusal :=
  s.runWord i h fun s e => s.laneOp e i d (regsOf (f.bits == 64)) fun l prev => bits64 (g (s.readFloat e f a l prev))

/-- A float instruction of two sources (R288). -/
def State.floatOp2 (s : State) (i : Instr) (h : Head) (f : Fmt) (d a b : Operand) (g : Nat → Nat → Nat × Flags) :
    Host.Outcome State Fault Refusal :=
  s.runWord i h fun s e => s.laneOp e i d (regsOf (f.bits == 64)) fun l prev =>
    bits64 (g (s.readFloat e f a l prev) (s.readFloat e f b l prev))

/-- FADD (R290). -/
def execFadd (h : Head) (t : FloatTy) (rm : Rounding) (d a b : Operand) (s : State) : Host.Outcome State Fault Refusal :=
  s.floatOp2 (.fadd h t rm d a b) h t.fmt d a b (t.fmt.add rm)

/-- FSUB (R290). -/
def execFsub (h : Head) (t : FloatTy) (rm : Rounding) (d a b : Operand) (s : State) : Host.Outcome State Fault Refusal :=
  s.floatOp2 (.fsub h t rm d a b) h t.fmt d a b (t.fmt.sub rm)

/-- FMUL (R290). -/
def execFmul (h : Head) (t : FloatTy) (rm : Rounding) (d a b : Operand) (s : State) : Host.Outcome State Fault Refusal :=
  s.floatOp2 (.fmul h t rm d a b) h t.fmt d a b (t.fmt.mul rm)

/-- FFMA (R290). -/
def execFfma (h : Head) (t : FloatTy) (rm : Rounding) (d a b c : Operand) (s : State) :
    Host.Outcome State Fault Refusal :=
  s.runWord (.ffma h t rm d a b c) h fun s e => s.laneOp e (.ffma h t rm d a b c) d t.regs fun l prev =>
    bits64 (t.fmt.fma rm (s.readFloat e t.fmt a l prev) (s.readFloat e t.fmt b l prev) (s.readFloat e t.fmt c l prev))

/-- FMIN (R291). -/
def execFmin (h : Head) (t : FloatTy) (d a b : Operand) (s : State) : Host.Outcome State Fault Refusal :=
  s.floatOp2 (.fmin h t d a b) h t.fmt d a b (t.fmt.select false)

/-- FMAX (R291). -/
def execFmax (h : Head) (t : FloatTy) (d a b : Operand) (s : State) : Host.Outcome State Fault Refusal :=
  s.floatOp2 (.fmax h t d a b) h t.fmt d a b (t.fmt.select true)

/-- FABS (R291). -/
def execFabs (h : Head) (t : FloatTy) (d a : Operand) (s : State) : Host.Outcome State Fault Refusal :=
  s.floatOp1 (.fabs h t d a) h t.fmt d a fun x => (t.fmt.abs x, 0)

/-- FNEG (R291). -/
def execFneg (h : Head) (t : FloatTy) (d a : Operand) (s : State) : Host.Outcome State Fault Refusal :=
  s.floatOp1 (.fneg h t d a) h t.fmt d a fun x => (t.fmt.negate x, 0)

/-- FCMP (R292). -/
def execFcmp (h : Head) (t : FloatTy) (cond : FloatCond) (d a b : Operand) (s : State) :
    Host.Outcome State Fault Refusal :=
  s.runWord (.fcmp h t cond d a b) h fun s e => s.lanePred e (.fcmp h t cond d a b) d fun l =>
    t.fmt.compare cond (s.readFloat e t.fmt a l 0) (s.readFloat e t.fmt b l 0)

/-- The format of the two-way float choice. -/
def fmtOf (f64 : Bool) : Fmt := if f64 then fp64 else fp32

/-- FRCP (R295). -/
def execFrcp (h : Head) (f64 : Bool) (d a : Operand) (s : State) : Host.Outcome State Fault Refusal :=
  s.floatOp1 (.frcp h f64 d a) h (fmtOf f64) d a (fmtOf f64).rcp

/-- FRSQ (R295). -/
def execFrsq (h : Head) (f64 : Bool) (d a : Operand) (s : State) : Host.Outcome State Fault Refusal :=
  s.floatOp1 (.frsq h f64 d a) h (fmtOf f64) d a (fmtOf f64).rsqrt

/-- FSQRT (R295). -/
def execFsqrt (h : Head) (f64 : Bool) (d a : Operand) (s : State) : Host.Outcome State Fault Refusal :=
  s.floatOp1 (.fsqrt h f64 d a) h (fmtOf f64) d a (fmtOf f64).sqrt

/-- FEXP2 (R295). -/
def execFexp2 (h : Head) (d a : Operand) (s : State) : Host.Outcome State Fault Refusal :=
  s.floatOp1 (.fexp2 h d a) h fp32 d a fexp2

/-- FLOG2 (R295). -/
def execFlog2 (h : Head) (d a : Operand) (s : State) : Host.Outcome State Fault Refusal :=
  s.floatOp1 (.flog2 h d a) h fp32 d a flog2

/-- FSINP (R295). -/
def execFsinp (h : Head) (d a : Operand) (s : State) : Host.Outcome State Fault Refusal :=
  s.floatOp1 (.fsinp h d a) h fp32 d a fsinp

/-- FCOSP (R295). -/
def execFcosp (h : Head) (d a : Operand) (s : State) : Host.Outcome State Fault Refusal :=
  s.floatOp1 (.fcosp h d a) h fp32 d a fcosp

/-- FCLASS: a class mask in a 32-bit destination (R293). -/
def execFclass (h : Head) (t : FloatTy) (d a : Operand) (s : State) : Host.Outcome State Fault Refusal :=
  s.runWord (.fclass h t d a) h fun s e => s.laneOp e (.fclass h t d a) d 1 fun l prev =>
    bits64 (t.fmt.classify (s.readFloat e t.fmt a l prev), 0)

/-- FRCPV: the guarded reciprocal and its predicate (R204, R296). The threshold is checked before any lane performs. -/
def execFrcpv (h : Head) (f64 : Bool) (d a b c : Operand) (s : State) : Host.Outcome State Fault Refusal :=
  s.runWord (.frcpv h f64 d a b c) h fun s e =>
    let f := fmtOf f64
    let tau := (s.uni e b).toNat % 2 ^ f.bits
    if e.sp.retry.isNone && e.runs && !(f.tauOk tau) then e.illegal s
    else
      -- the predicate of a lane is written with its result; the chain passes the result
      let stop := s.badLane e (.frcpv h f64 d a b c)
      let lanes := (lanesOf e.exec).filter fun l => match stop with | some x => decide (l < x) | none => true
      let slot := (Instr.frcpv h f64 d a b c).chainSlot.map (·.toNat)
      let (w, carry) := lanes.foldl (fun (acc : Wave × W64) l =>
        let (r, fl, p) := f.rcpGuarded (s.readFloat e f a l acc.2) tau
        let x : W64 := BitVec.ofNat 64 r
        (((acc.1.writeLane d (regsOf f64) l x).orFlags fl).writePred c l p, if slot.isSome then x else acc.2)) (e.w, e.carry)
      let t := s.setWave e.n w
      let t := match slot with
        | some k => if e.sp.retry.isSome then t else t.chainTake e.n k
        | none => t
      match stop with
      | some x => .trap t (s.registerStop e (.frcpv h f64 d a b c) x carry slot)
      | none => match slot with
        | some k => .done (t.chainGive e.n k carry)
        | none => .done t

/-- FSMX: the softmax step on a pair (R205, R297). The state is one 64-bit value and no float, so that an inline constant is
sign-extended to it (R231; DEDUCED, log entry 20). -/
def execFsmx (h : Head) (d a b : Operand) (s : State) : Host.Outcome State Fault Refusal :=
  s.runWord (.fsmx h d a b) h fun s e => s.laneOp e (.fsmx h d a b) d 2 fun l prev =>
    let st := s.read64 e a l prev
    let (m, x, fl) := softmaxStep (lo32 st).toNat (hi32 st).toNat (s.readFloat e fp32 b l prev)
    (BitVec.ofNat 64 (m + x * 2 ^ 32), fl)

/-- FSCALE: a × 2^n (R294). -/
def execFscale (h : Head) (t : FloatTy) (d a b : Operand) (s : State) : Host.Outcome State Fault Refusal :=
  s.runWord (.fscale h t d a b) h fun s e => s.laneOp e (.fscale h t d a b) d t.regs fun l prev =>
    bits64 (t.fmt.scale (s.readFloat e t.fmt a l prev) (s.read32 e b l prev).toInt)

/-- CVTIF (R298). -/
def execCvtif (h : Head) (it : IntTy) (ft : FloatTy) (rm : Rounding) (d a : Operand) (s : State) :
    Host.Outcome State Fault Refusal :=
  s.runWord (.cvtif h it ft rm d a) h fun s e => s.laneOp e (.cvtif h it ft rm d a) d ft.regs fun l prev =>
    bits64 (ft.fmt.ofInt rm (it.value (s.readInt e it.regs a l prev)))

/-- CVTFI (R298). -/
def execCvtfi (h : Head) (it : IntTy) (ft : FloatTy) (rm : Rounding) (d a : Operand) (s : State) :
    Host.Outcome State Fault Refusal :=
  s.runWord (.cvtfi h it ft rm d a) h fun s e => s.laneOp e (.cvtfi h it ft rm d a) d it.regs fun l prev =>
    let (v, fl) := ft.fmt.toInt it rm (s.readFloat e ft.fmt a l prev)
    (wrap it.bits v, fl)

/-- CVTFF (R298). -/
def execCvtff (h : Head) (dst src : FloatTy) (rm : Rounding) (d a : Operand) (s : State) :
    Host.Outcome State Fault Refusal :=
  s.runWord (.cvtff h dst src rm d a) h fun s e => s.laneOp e (.cvtff h dst src rm d a) d dst.regs fun l prev =>
    bits64 (convert src.fmt dst.fmt rm (s.readFloat e src.fmt a l prev))

/-- FRND (R298). -/
def execFrnd (h : Head) (t : FloatTy) (rm : Rounding) (d a : Operand) (s : State) : Host.Outcome State Fault Refusal :=
  s.floatOp1 (.frnd h t rm d a) h t.fmt d a (t.fmt.integral rm)

/-- The 8-bit format of a conversion. -/
def fmt8 (e5 : Bool) : Fmt := if e5 then e5m2 else e4m3

/-- PACKQ (R299). -/
def execPackq (h : Head) (e5m2 : Bool) (d a b c : Operand) (s : State) : Host.Outcome State Fault Refusal :=
  s.runWord (.packq h e5m2 d a b c) h fun s e => s.laneOp e (.packq h e5m2 d a b c) d 1 fun l prev =>
    let (x, f1) := convert fp32 (fmt8 e5m2) .rne (s.readFloat e fp32 a l prev)
    let (y, f2) := convert fp32 (fmt8 e5m2) .rne (s.readFloat e fp32 b l prev)
    (BitVec.ofNat 64 (x + y * 2 ^ 8 + (s.read32 e c l prev).toNat % 2 ^ 16 * 2 ^ 16), f1 ||| f2)

/-- UNPKQ (R299). -/
def execUnpkq (h : Head) (e5m2 : Bool) (d a b : Operand) (s : State) : Host.Outcome State Fault Refusal :=
  s.runWord (.unpkq h e5m2 d a b) h fun s e => s.laneOp e (.unpkq h e5m2 d a b) d 1 fun l prev =>
    let k := (s.read32 e b l prev).toNat % 4
    bits64 (convert (fmt8 e5m2) fp32 .rne ((s.read32 e a l prev).toNat / 2 ^ (8 * k) % 256))

/-- BPEXT (R300). -/
def execBpext (h : Head) (d a b : Operand) (s : State) : Host.Outcome State Fault Refusal :=
  s.runWord (.bpext h d a b) h fun s e => s.laneOp e (.bpext h d a b) d 1 fun l prev =>
    let x := s.read32 e a l prev
    let p := (s.read32 e b l prev).toNat
    let bit (i : Nat) : Nat := if p ≤ 7 && x.getLsbD (8 * i + 7 - p) then 2 ^ i else 0
    (BitVec.ofNat 64 (bit 0 + bit 1 + bit 2 + bit 3), 0)

/-- BPINS (R300). -/
def execBpins (h : Head) (d a b c : Operand) (s : State) : Host.Outcome State Fault Refusal :=
  s.runWord (.bpins h d a b c) h fun s e => s.laneOp e (.bpins h d a b c) d 1 fun l prev =>
    let base := s.read32 e a l prev
    let x := s.read32 e b l prev
    let p := (s.read32 e c l prev).toNat
    let put (w : W32) (i : Nat) : W32 :=
      let m : W32 := 1#32 <<< (8 * i + 7 - p)
      if x.getLsbD i then w ||| m else w &&& ~~~m
    ((if p ≤ 7 then (List.range 4).foldl put base else base).setWidth 64, 0)

end Sys2Proof.Machine
end

