-- ==== Sys2Proof/Machine/MemCmds.lean ====
section
/-!
DEFINITION. The commands that map, copy, signal and wait (R46, R52, R54, R147–R149, R175, R179).
-/
namespace Sys2Proof.Machine

/-! ### MAP (R46, R149) -/

/-- log2 of a MAP's page size. -/
def Cmd.pageLog2 (c : Cmd) : Nat := if c.nat 32 1 = 0 then 16 else if c.nat 32 1 = 1 then 21 else 30

/-- The fields of a MAP lie within their limits (R46). A permission bit other than the three that R46 names counts as reserved
(log entry 124). -/
def Cmd.mapFieldsOk (c : Cmd) : Bool :=
  let flags := c.nat 34 1
  let home := c.nat 35 1
  c.bytes.length == 40 && c.nat 24 8 != 0 && decide (c.nat 32 1 ≤ 2) && decide (c.nat 33 1 < 8) && decide (flags < 8) &&
  c.nat 36 4 == 0 &&
  (match flags.testBit 0, flags.testBit 1 with
   | true, true => false
   | true, false => decide (home ≤ 7)
   | false, true => decide (home ≤ 63)
   | false, false => home == 0)

/-- Two runs of addresses share an address. -/
def runsMeet (a n b m : Nat) : Bool := decide (a < b + m) && decide (b < a + n)

/-- The run touches the owner's task trap area (R91). -/
def Owner.touchesTrapArea (o : Owner) (a n : Nat) : Bool :=
  runsMeet a n trapAreaBase (65536 * trapAreaPages o.placement.length)

/-- The pages a MAP makes, lowest first. -/
def Cmd.newPages (c : Cmd) : List Page :=
  let lg := c.pageLog2
  let perm := c.nat 33 1
  let flags := c.nat 34 1
  (List.range (c.nat 24 8 / 2 ^ lg)).map fun i =>
    { va := c.nat 16 8 + i * 2 ^ lg, log2 := lg, r := perm.testBit 0, w := perm.testBit 1, x := perm.testBit 2,
      homeDie := if flags.testBit 0 then some (c.nat 35 1) else none
      remote := if flags.testBit 1 then some (c.nat 35 1) else none
      onDemand := flags.testBit 2 && !flags.testBit 1, frame := none, epoch := 0, set := none }

/-- A MAP's range and home break R46: "bad address"; so does a range that ends beyond the canonical addresses (log entry 125). -/
def Owner.mapBad (o : Owner) (c : Cmd) : Bool :=
  let a := c.nat 16 8
  let n := c.nat 24 8
  let size := 2 ^ c.pageLog2
  a % size != 0 || n % size != 0 || decide (a + n > 2 ^ 56) || o.touchesTrapArea a n ||
  (o.pages.any fun p => runsMeet a n p.va (2 ^ p.log2)) ||
  ((c.nat 34 1).testBit 1 && (c.nat 35 1 == o.ownPackage || (o.peer? (c.nat 35 1)).isNone))

/-- A wait for a page: the address, and the launch number and host tag of its notice (R52). -/
structure PageWait where
  va : Nat
  seq : Nat
  tag : W64

/-- The waits for pages of an owner: of waves, of bells held at a store, of copies and of commands. -/
def State.pageWaits (s : State) (owner : Nat) : List PageWait :=
  let seqOf (w : Wave) : Nat := (s.launchOf w).elim 0 (·.seq)
  let mine := s.waves.filter fun x => x.2.owner == owner
  let ofSplits := mine.flatMap fun x => x.2.splits.filterMap fun p => match p.2.waiting with
    | .page va => some { va := va, seq := seqOf x.2, tag := 0 }
    | _ => none
  let ofBells := s.launches.flatMap fun l => l.2.ringing.take 1 |>.flatMap fun n =>
    match (s.wave? n).bind fun w => w.buffer.head?.map fun a => (w, a) with
    | some (w, a) => (a.pages.filter fun x => x.1 == owner).map fun x => { va := x.2, seq := seqOf w, tag := 0 }
    | none => []
  let ofEngines := s.engines.filterMap fun x => match x.2.pageWait, s.wave? x.2.wave with
    | some va, some w => if w.owner = owner then some { va := va, seq := seqOf w, tag := 0 } else none
    | _, _ => none
  let ofCmds := match s.owner? owner with
    | some o => o.cmds.filterMap fun c => c.2.pageWait.map fun va => { va := va, seq := 0, tag := c.2.tag }
    | none => []
  ofSplits ++ ofBells ++ ofEngines ++ ofCmds

/-- The waits for pages that a MAP of an on-demand range covers are tried again (R52): each page is allocated where the
quota now holds it, and its notice is written again where it does not. -/
def State.retryPages (s : State) (owner a n : Nat) : State :=
  ((s.pageWaits owner).filter fun x => decide (a ≤ x.va) && decide (x.va < a + n)).foldl (fun s x =>
    match s.resolvePage owner x.va with
    | .mapped t => t
    | .waits t => t.pageNotice owner x.va x.seq x.tag
    | .fails => s) s

/-- MAP (R46, R149): every check is made before any page is mapped. A MAP within the quota for which the storage has no fitting
free frames is refused with "no resources" (log entry 126). -/
def execMap (owner cmd : Nat) (s : State) : Host.Outcome State Fault Refusal :=
  .next (s.onCmd owner cmd 0x03 fun o c =>
    let ps := c.newPages
    let now := !(c.nat 34 1).testBit 1 && !(c.nat 34 1).testBit 2
    if !c.mapFieldsOk then s.refuse owner cmd 0x10
    else if o.mapBad c then s.refuse owner cmd 0x16
    else if now && decide (o.framesUsed + ps.length * 2 ^ (c.pageLog2 - 16) > o.frameQuota) then s.refuse owner cmd 0x18
    else
      let done (t : State) : State := t.finishCmd owner cmd 0 (BitVec.ofNat 64 ps.length) 0 0
      if now then
        match s.mapPages owner ps with
        | some t => done t
        | none => s.refuse owner cmd 0x17
      else
        done ((s.updOwner owner fun x => { x with pages := x.pages ++ ps }).retryPages owner (c.nat 16 8) (c.nat 24 8)))

/-! ### UNMAP (R46, R54) -/

/-- The page lies wholly in the run. -/
def Page.inside (p : Page) (a n : Nat) : Bool := decide (a ≤ p.va) && decide (p.va + 2 ^ p.log2 ≤ a + n)

/-- Remove one page: its frames return. A page of a shadow set ends the set, and the frames of its hidden side return. -/
def State.dropPage (s : State) (id : Nat) (p : Page) : State :=
  let s := match p.frame with
    | some f => (s.giveFrames f p.frames).uncharge id p.frames
    | none => s
  let s := s.updOwner id fun o => { o with pages := o.pages.erase p }
  match p.set with
  | none => s
  | some k =>
    match (s.owner? id).bind fun o => Tab.find o.sets k with
    | none => s
    | some x =>
      let s := (x.shadow.foldl (fun s f => s.giveFrames f.1 1) s).uncharge id x.shadow.length
      s.updOwner id fun o =>
        { o with sets := Tab.drop o.sets k,
                 pages := o.pages.map fun (q : Page) => if q.set = some k then { q with set := none } else q }

/-- Remove the first page of the owner that lies wholly in a run, `fuel` times. -/
def State.dropPages (s : State) (id a n : Nat) : Nat → State
  | 0 => s
  | fuel + 1 =>
    match (s.owner? id).bind fun o => o.pages.find? fun p => p.inside a n with
    | some p => State.dropPages (s.dropPage id p) id a n fuel
    | none => s

/-- UNMAP (R46, R54). -/
def execUnmap (owner cmd : Nat) (s : State) : Host.Outcome State Fault Refusal :=
  .next (s.onCmd owner cmd 0x04 fun o c =>
    let a := c.nat 16 8
    let n := c.nat 24 8
    if c.bytes.length ≠ 32 || n = 0 then s.refuse owner cmd 0x10
    else if a % 65536 ≠ 0 || n % 65536 ≠ 0 ||
        (o.pages.any fun p => runsMeet a n p.va (2 ^ p.log2) && !(p.inside a n)) then s.refuse owner cmd 0x16
    else if o.touchesTrapArea a n then s.refuse owner cmd 0x14
    else
      let k := (o.pages.filter fun p => p.inside a n).length
      (s.dropPages owner a n k).finishCmd owner cmd 0 (BitVec.ofNat 64 k) 0 0)

/-! ### SHADOW (R46, R175) -/

/-- Take `n` single frames for hidden pages: their places and epochs. -/
def State.takeHidden (s : State) : Nat → Option (List (Nat × Nat) × State)
  | 0 => some ([], s)
  | n + 1 =>
    match s.takeFrames 1 none with
    | none => none
    | some (f, t) =>
      let (e, t) := t.newEpoch
      match State.takeHidden { t with mem := t.mem.forget f 65536 } n with
      | some (fs, u) => some ((f, e) :: fs, u)
      | none => none

/-- The lowest number of no shadow set of the owner. -/
def Owner.freeSetId (o : Owner) : Nat := Tab.fresh o.sets 0 (o.sets.length + 1)

/-- SHADOW (R46, R175): every page of the range becomes the visible side of a new set, and an equal number of hidden pages is
charged to the frame quota; one the quota cannot hold, or the storage, is refused (log entry 127). -/
def execShadow (owner cmd : Nat) (s : State) : Host.Outcome State Fault Refusal :=
  .next (s.onCmd owner cmd 0x05 fun o c =>
    let a := c.nat 16 8
    let n := c.nat 24 8
    let k := n / 65536
    let ok (i : Nat) : Bool := match o.pageAt (a + 65536 * i) with
      | some p => p.log2 == 16 && p.frame.isSome && p.set.isNone
      | none => false
    if c.bytes.length ≠ 32 || n % 65536 ≠ 0 || k < 1 || k > 256 then s.refuse owner cmd 0x10
    else if a % 65536 ≠ 0 || o.touchesTrapArea a n || !((List.range k).all ok) then s.refuse owner cmd 0x16
    else if o.framesUsed + k > o.frameQuota then s.refuse owner cmd 0x18
    else
      match s.takeHidden k with
      | none => s.refuse owner cmd 0x17
      | some (fs, t) =>
        let set := o.freeSetId
        let t := t.updOwner owner fun x =>
          { x with framesUsed := x.framesUsed + k,
                   sets := Tab.put x.sets set { va := a, pages := k, shadow := fs },
                   pages := x.pages.map fun (p : Page) => if p.inside a n then { p with set := some set } else p }
        t.finishCmd owner cmd 0 (BitVec.ofNat 64 set) 0 0)

/-! ### Accesses of host commands (R33, R52, R147) -/

/-- What a host command finds at one address: its page in this package, on a remote page, a wait for the page (R52), or no
mapping or no permission. -/
inductive HostReach where
  | go (s : State)
  | remote (home : Nat)
  | waits (s : State)
  | bad (s : State)

/-- Reach one address for a host command: a not-present page of an on-demand range is first allocated, or its notice is written
and the command waits; then the permission is checked (R147, R148). -/
def State.hostReach (s : State) (id k : Nat) (c : Cmd) (a : Nat) (kind : AccKind) : HostReach :=
  match s.resolvePage id a with
  | .fails => .bad s
  | .waits t => .waits ((t.pageNotice id a 0 c.tag).updCmd id k fun x => { x with phase := .running, pageWait := some a })
  | .mapped t =>
    match (t.owner? id).bind fun o => o.pageAt a with
    | none => .bad t
    | some p =>
      if !(p.permits kind) then .bad t
      else match p.remote with
        | some home => .remote home
        | none => if p.frame.isSome then .go t else .bad t

/-- Ask the home package for an access of a host command (R33); lane 38 stands for the command. None where it cannot be reached
(R8, R34). -/
def State.hostAsk (s : State) (id k : Nat) (c : Cmd) (home a : Nat) (op : RemoteOp) : Option State :=
  (s.request c.die home (BitVec.ofNat 64 a) op
    { owner := id, engine := none, wave := 0, split := k, lane := 38, posted := false, handler := false, launch := none,
      others := [] }).map
    fun r => r.2.updCmd id k fun x => { x with phase := .running, pageWait := none, asked := some r.1 }

/-- What one access of a host command comes to: performed here, answered by its home package, a wait, or a failure with the
command's status. -/
inductive HostAccess where
  | here (s : State)
  | answered (data : List Byte) (s : State)
  | stays (s : State)
  | fails (s : State) (status : Nat)

/-- An access of a host command to `n` bytes at an address (R8, R33, R147). One that meets an uncorrectable sector, a boundary
that is down on the way from the port die of the command, or a failure at the home package ends it with "engine error" (log
entry 50). -/
def State.hostAccess (s : State) (id k : Nat) (c : Cmd) (a n : Nat) (kind : AccKind) (op : RemoteOp) : HostAccess :=
  match c.answer with
  | some (ok, data) =>
    let t := s.updCmd id k fun x => { x with answer := none }
    if ok then .answered data t else .fails t 0x22
  | none =>
    match s.hostReach id k c a kind with
    | .bad t => .fails t 0x16
    | .waits t => .stays t
    | .remote home => match s.hostAsk id k c home a op with
      | some t => .stays t
      | none => .fails s 0x22
    | .go t =>
      match t.owner? id with
      | none => .fails t 0x16
      | some o =>
        if kind != .store && t.badGlobal none o a n then .fails (t.logSectors id a n) 0x22
        else if t.cutOff c.die o a n then .fails t 0x22
        else .here t

/-- The command goes on after a wait: it waits for no page. -/
def State.unwait (s : State) (id k : Nat) : State := s.updCmd id k fun x => { x with pageWait := none, phase := .running }

/-! ### COPY_IN and COPY_OUT -/

/-- The fields of a host copy lie within their limits (R46). -/
def Cmd.copyFieldsOk (c : Cmd) : Bool :=
  c.bytes.length == 48 && c.nat 40 8 == 0 && decide (1 ≤ c.nat 24 8) && decide (c.nat 24 8 ≤ 2 ^ 40)

/-- The next event of a host copy: the largest naturally aligned piece of up to 16 bytes (R169). -/
def Cmd.copyPiece (c : Cmd) : Nat × Nat :=
  let a := c.nat 16 8 + c.progress
  (a, pieceSize a (c.nat 24 8 - c.progress))

/-- A host copy ends with a status; result 0 counts the bytes moved. -/
def State.endHostCopy (s : State) (id k status n : Nat) : State := s.finishCmd id k status (BitVec.ofNat 64 n) 0 0

/-- One event of a host copy has been performed. -/
def State.copied (s : State) (id k : Nat) (c : Cmd) (n : Nat) : State :=
  if c.progress + n ≥ c.nat 24 8 then s.endHostCopy id k 0 (c.progress + n)
  else (s.unwait id k).updCmd id k fun x => { x with progress := c.progress + n }

/-- COPY_IN (R46, R147): the next event of the copy from host memory to device memory. -/
def execCopyIn (owner cmd : Nat) (s : State) : Host.Outcome State Fault Refusal :=
  .next (s.onCmd owner cmd 0x06 fun _ c =>
    if !c.copyFieldsOk then s.refuse owner cmd 0x10
    else
      let (a, n) := c.copyPiece
      let data := s.hostBytes (c.nat 32 8 + c.progress) n
      match s.hostAccess owner cmd c a n .store (.store data) with
      | .fails t st => t.endHostCopy owner cmd st c.progress
      | .stays t => t
      | .answered _ t => t.copied owner cmd c n
      | .here t => (t.putBytes none owner a data).copied owner cmd c n)

/-- COPY_OUT (R46, R147): the next event of the copy from device memory to host memory. -/
def execCopyOut (owner cmd : Nat) (s : State) : Host.Outcome State Fault Refusal :=
  .next (s.onCmd owner cmd 0x07 fun _ c =>
    if !c.copyFieldsOk then s.refuse owner cmd 0x10
    else
      let (a, n) := c.copyPiece
      let give (t : State) (b : List Byte) : State := (t.putHost (c.nat 32 8 + c.progress) b).copied owner cmd c n
      match s.hostAccess owner cmd c a n .load (.load n) with
      | .fails t st => t.endHostCopy owner cmd st c.progress
      | .stays t => t
      | .answered b t => give t b
      | .here t => give t (t.ownerBytes owner a n))

/-! ### SIGNAL and WAITEV -/

/-- SIGNAL (R46): one device-scope add, wrapping; result 0 is the value after it. -/
def execSignal (owner cmd : Nat) (s : State) : Host.Outcome State Fault Refusal :=
  .next (s.onCmd owner cmd 0x0A fun _ c =>
    let a := c.nat 16 8
    let after (old : List Byte) : Nat := (ofLe old + c.nat 24 8) % 2 ^ 64
    if c.bytes.length ≠ 32 || a % 8 ≠ 0 then s.refuse owner cmd 0x10
    else
      match s.hostAccess owner cmd c a 8 .atomic (.atomic .addU64 (BitVec.ofNat 64 (c.nat 24 8))) with
      | .fails t st => t.refuse owner cmd st
      | .stays t => t
      | .answered b t => t.finishCmd owner cmd 0 (BitVec.ofNat 64 (after b)) 0 0
      | .here t =>
        let v := after (t.ownerBytes owner a 8)
        (t.putBytes none owner a (leBytes 8 v)).finishCmd owner cmd 0 (BitVec.ofNat 64 v) 0 0)

/-- A read of a WAITEV has found a value: it completes where that has reached the threshold, and waits otherwise. -/
def State.observed (s : State) (owner cmd : Nat) (c : Cmd) (b : List Byte) : State :=
  let v : W64 := BitVec.ofNat 64 (ofLe b)
  if v.toNat ≥ c.nat 24 8 then s.finishCmd owner cmd 0 v 0 0
  else (s.unwait owner cmd).updCmd owner cmd fun x => { x with r0 := v }

/-- One read of a WAITEV; a page that is no longer mapped is a bad address (R147). -/
def State.readEvent (s : State) (owner cmd : Nat) (c : Cmd) : State :=
  let a := c.nat 16 8
  match s.hostAccess owner cmd c a 8 .load (.load 8) with
  | .fails t st => t.refuse owner cmd st
  | .stays t => t
  | .answered b t => t.observed owner cmd c b
  | .here t => t.observed owner cmd c (t.ownerBytes owner a 8)

/-- WAITEV (R46, R179): the wait begins with a read. -/
def execWaitev (owner cmd : Nat) (s : State) : Host.Outcome State Fault Refusal :=
  .next (s.onCmd owner cmd 0x0B fun _ c =>
    if c.bytes.length ≠ 40 || c.nat 36 4 ≠ 0 || c.nat 16 8 % 8 ≠ 0 then s.refuse owner cmd 0x10
    else if c.phase = .dispatched || c.pageWait.isSome || c.answer.isSome then s.readEvent owner cmd c
    else s)

/-- WAITEV_SATISFIED (R46): a later read of the word. -/
def execWaitevSatisfied (owner cmd : Nat) (s : State) : Host.Outcome State Fault Refusal :=
  .next (s.onCmd owner cmd 0x0B fun _ c =>
    if c.phase = .running && c.pageWait.isNone && c.answer.isNone then s.readEvent owner cmd c else s)

/-- WAITEV_TIMEOUT (R46): the timeout passes first; result 0 is the value that the last read found, 0 where none has. -/
def execWaitevTimeout (owner cmd : Nat) (s : State) : Host.Outcome State Fault Refusal :=
  match s.cmd? owner cmd with
  | some c =>
    if c.code = 0x0B && c.phase = .running && c.nat 32 4 ≠ 0 && s.phase ≠ .tripped then
      .next (s.finishCmd owner cmd 0x01 c.r0 0 0)
    else .next s
  | none => .next s

end Sys2Proof.Machine
end

