-- ==== Sys2Proof/Machine/Query.lean ====
section
/-!
DEFINITION. QUERY (R22–R24, R46) and FWLOAD (R17, R21, R57, R58).
-/
namespace Sys2Proof.Machine

/-! ### QUERY -/

/-- The fields of a QUERY lie within their limits: a form from 0 to 3, reserved bytes zero (R46). -/
def Cmd.queryFieldsOk (c : Cmd) : Bool := c.bytes.length == 40 && decide (c.nat 16 1 ≤ 3) && c.nat 17 7 == 0

/-- A QUERY of one form; a malformed one completes so. -/
def State.onQuery (s : State) (owner cmd form : Nat) (f : Cmd → State) : State :=
  s.onCmd owner cmd 0x0E fun _ c =>
    if !c.queryFieldsOk then s.refuse owner cmd 0x10
    else if c.nat 16 1 = form then f c
    else s

/-- What a status report tells: the counts of R27, R28, R30 and R40, the corrected sectors, the boundaries that are down (R8), and
each owner's illegal and malformed counts (R217). -/
def State.statusFigures (s : State) : List Nat :=
  let c := s.counters
  [c.authFailed, c.replayed, c.unsupported, c.bootstrapDropped, c.refusedConnections, s.corrected] ++
  ((List.range 14).map fun k => ((Tab.find s.boundaries k).any fun b => b.down).toNat) ++
  s.owners.flatMap fun x => [x.1, x.2.illegalCount, x.2.malformedCount]

/-- The status report: no rule gives its layout or its length (R46; log entry 18). -/
def State.statusReport (s : State) : List Byte :=
  let f := s.statusFigures
  (List.range (Config.statusLength f s.free)).map fun i => Config.statusByte f s.free i

/-- Write a report to host memory and complete the QUERY; no more than the host's maximum is written. -/
def State.writeReport (s : State) (owner cmd : Nat) (c : Cmd) (b : List Byte) : State :=
  let d := b.take (c.nat 32 4)
  (s.putHost (c.nat 24 8) d).finishCmd owner cmd 0 (BitVec.ofNat 64 d.length) 0 0

/-- QUERY_STATUS (R8, R27, R28, R30, R40, R46, R217): the report is a function of the figures that QUERY reports. -/
def execQueryStatus (owner cmd : Nat) (s : State) : Host.Outcome State Fault Refusal :=
  .next (s.onQuery owner cmd 0 fun c => { s with free := s.free + 1 }.writeReport owner cmd c s.statusReport)

/-- QUERY_LIFE (R22–R24): the latest complete report; before the first recomputation what no rule defines of it is free. -/
def execQueryLife (owner cmd : Nat) (s : State) : Host.Outcome State Fault Refusal :=
  .next (s.onQuery owner cmd 1 fun c =>
    if s.life.dies.isEmpty then { s with free := s.free + 288 }.writeReport owner cmd c (s.firstReport s.free)
    else s.writeReport owner cmd c s.lifeReport)

/-- QUERY_SET_TIME_BASE (R24). -/
def execQuerySetTimeBase (owner cmd : Nat) (s : State) : Host.Outcome State Fault Refusal :=
  .next (s.onQuery owner cmd 2 fun c =>
    { s with life := { s.life with timeBase := some (BitVec.ofNat 64 (c.nat 24 8)) } }.finishCmd owner cmd 0 0 0 0)

/-- QUERY_CLEAR_COUNTERS (R46): the counts that QUERY reports. -/
def execQueryClearCounters (owner cmd : Nat) (s : State) : Host.Outcome State Fault Refusal :=
  .next (s.onQuery owner cmd 3 fun _ =>
    { s with
      counters := { authFailed := 0, replayed := 0, unsupported := 0, bootstrapDropped := 0, refusedConnections := 0 }
      corrected := 0
      owners := Tab.mapVal (fun _ (o : Owner) => { o with illegalCount := 0, malformedCount := 0 }) s.owners
    }.finishCmd owner cmd 0 0 0 0)

/-! ### FWLOAD (R58) -/

/-- The slot of a kind that is not in use: where no slot is in use, slot 0. -/
def freeSlot (used : Option Nat) : Nat := match used with
  | some 0 => 1
  | _ => 0

/-- What reading an image comes to. -/
inductive ImageRead where
  | image (b : List Byte) (s : State)
  | waits (s : State)
  | fails (s : State) (status : Nat)

/-- The next piece of an image: up to 4096 bytes that lie in one aligned place of that size, as one packet may carry (R27). -/
def Cmd.imagePiece (c : Cmd) : Nat × Nat :=
  let a := c.nat 24 8 + c.progress
  (a, min (c.nat 20 4 - c.progress) (4096 - a % 4096))

/-- A piece of an image has been read. -/
def State.gotPiece (s : State) (id k : Nat) (b : List Byte) : State :=
  s.updCmd id k fun x => { x with phase := .running, pageWait := none, progress := x.progress + b.length, got := x.got ++ b }

/-- Read an image from device memory, as far as its pages are there (R58, R147). -/
def State.readOn (s : State) (id k : Nat) : Nat → ImageRead
  | 0 => .waits s
  | n + 1 =>
    match s.cmd? id k with
    | none => .waits s
    | some c =>
      let (a, m) := c.imagePiece
      if m = 0 then .image c.got s
      else
        match s.hostAccess id k c a m .load (.load m) with
        | .fails t st => .fails t st
        | .stays t => .waits t
        | .answered b t => State.readOn (t.gotPiece id k b) id k n
        | .here t => State.readOn (t.gotPiece id k (t.ownerBytes id a m)) id k n

/-- The image that an FWLOAD names: from owner 0's memory, or from host memory in the recovery state (R21, R58). -/
def State.readImage (s : State) (owner cmd : Nat) (c : Cmd) : ImageRead :=
  let n := c.nat 20 4
  if s.phase = .recovery then .image (s.hostBytes (c.nat 24 8) n) s else s.readOn owner cmd (n / 4096 + 3)

/-- Write an image into a slot of its kind. -/
def Flash.store (f : Flash) (kind slot : Nat) (b : List Byte) : Flash :=
  match kind, slot with
  | 0, 0 => { f with config0 := b }
  | 0, _ => { f with config1 := b }
  | 1, 0 => { f with talaz0 := b }
  | 1, _ => { f with talaz1 := b }
  | _, 0 => { f with security0 := b }
  | _, _ => { f with security1 := b }

/-- The two slots of a kind. -/
def Flash.slots (f : Flash) (kind : Nat) : List Byte × List Byte :=
  if kind = 0 then (f.config0, f.config1) else if kind = 1 then (f.talaz0, f.talaz1) else (f.security0, f.security1)

/-- The image of a kind in use. -/
def Flash.inUse (f : Flash) (kind : Nat) : Option Nat × List Byte :=
  if kind = 0 then (f.configUsed, f.config) else if kind = 1 then (f.talazUsed, f.talaz) else (f.securityUsed, f.security)

/-- The device identity public key of this start (R19). -/
def State.identityKey (s : State) : List Byte := match s.identity.head? with
  | some own => own.point
  | none => []

/-- An image of a kind is valid: a configuration record under R17, firmware under R57 (R58). -/
def State.loadable (s : State) (kind : Nat) (b : List Byte) : Bool :=
  b.length == imageLength b && (if kind = 0 then recordOk b s.identityKey else imageOk s.flash.rootKey kind b)

/-- The slot of a kind that FWLOAD writes: the one not in use, where none is in use the one that a start would not choose (R17, R58;
log entry 121). -/
def State.loadSlot (s : State) (kind : Nat) : Nat :=
  let (a, b) := s.flash.slots kind
  freeSlot ((s.flash.inUse kind).1.orElse fun _ => chooseSlot (s.loadable kind (a.take (imageLength a)))
    (s.loadable kind (b.take (imageLength b))) a b)

/-- FWLOAD of one kind (R58); the security processor of port die 0 checks the image (R19). -/
def State.loadImage (s : State) (owner cmd kind : Nat) : State :=
  s.onCmd owner cmd 0x10 fun _ c =>
    if c.bytes.length ≠ 32 || c.nat 16 4 > 2 then s.refuse owner cmd 0x10
    else if c.nat 16 4 ≠ kind then s
    else
      match s.readImage owner cmd c with
      | .fails t st => t.refuse owner cmd st
      | .waits t => t
      | .image b s =>
        let (used, now) := s.flash.inUse kind
        let slot := s.loadSlot kind
        let erase (t : State) : State :=
          if s.phase = .recovery then { t with flash := t.flash.store kind slot [] } else t
        if !(s.loadable kind b) then (erase s).refuse owner cmd 0x1A
        else if used.isSome && decide (imageVersion b < imageVersion now) then (erase s).refuse owner cmd 0x1B
        else { s with flash := s.flash.store kind slot b }.finishCmd owner cmd 0 (BitVec.ofNat 64 slot) 0 0

/-- FWLOAD_CONFIGURATION_RECORD (R17, R58). -/
def execFwloadConfigurationRecord (owner cmd : Nat) (s : State) : Host.Outcome State Fault Refusal :=
  .next (s.loadImage owner cmd 0)

/-- FWLOAD_TALAZ_FIRMWARE (R57, R58). -/
def execFwloadTalazFirmware (owner cmd : Nat) (s : State) : Host.Outcome State Fault Refusal :=
  .next (s.loadImage owner cmd 1)

/-- FWLOAD_SECURITY_FIRMWARE (R57, R58). -/
def execFwloadSecurityFirmware (owner cmd : Nat) (s : State) : Host.Outcome State Fault Refusal :=
  .next (s.loadImage owner cmd 2)

end Sys2Proof.Machine
end

