-- ==== Sys2Proof/Machine/Dispatch.lean ====
section
/-!
DEFINITION. From each step to its meaning: one arm for each constructor of `Instr`.
-/
namespace Sys2Proof.Machine

/-- The meaning of a step. -/
def exec (i : Instr) (s : State) : Host.Outcome State Fault Refusal :=
  match i with
  | .moduleStart inp => Sys2Proof.Machine.execModuleStart inp s
  | .flitReceive boundary dir tag crcOk payload => Sys2Proof.Machine.execFlitReceive boundary dir tag crcOk payload s
  | .boundaryRetrain boundary success => Sys2Proof.Machine.execBoundaryRetrain boundary success s
  | .boundaryDown boundary => Sys2Proof.Machine.execBoundaryDown boundary s
  | .patrolStep stack sector => Sys2Proof.Machine.execPatrolStep stack sector s
  | .thermalThrottle die temperature => Sys2Proof.Machine.execThermalThrottle die temperature s
  | .thermalRelease die temperature => Sys2Proof.Machine.execThermalRelease die temperature s
  | .thermalTrip die temperature => Sys2Proof.Machine.execThermalTrip die temperature s
  | .lifeRecompute dies trends => Sys2Proof.Machine.execLifeRecompute dies trends s
  | .portSpeedChange port speed => Sys2Proof.Machine.execPortSpeedChange port speed s
  | .uetPacketReceive packet => Sys2Proof.Machine.execUetPacketReceive packet s
  | .roceConnectionSetup port owner request => Sys2Proof.Machine.execRoceConnectionSetup port owner request s
  | .commandAppend owner => Sys2Proof.Machine.execCommandAppend owner s
  | .commandRingRoom owner => Sys2Proof.Machine.execCommandRingRoom owner s
  | .commandDispatch owner => Sys2Proof.Machine.execCommandDispatch owner s
  | .commandCompletion owner cmd => Sys2Proof.Machine.execCommandCompletion owner cmd s
  | .completionRingRoom owner => Sys2Proof.Machine.execCompletionRingRoom owner s
  | .bootstrapCtxOpen => Sys2Proof.Machine.execBootstrapCtxOpen s
  | .ctxOpen owner cmd => Sys2Proof.Machine.execCtxOpen owner cmd s
  | .ctxClose owner cmd => Sys2Proof.Machine.execCtxClose owner cmd s
  | .map owner cmd => Sys2Proof.Machine.execMap owner cmd s
  | .unmap owner cmd => Sys2Proof.Machine.execUnmap owner cmd s
  | .shadow owner cmd => Sys2Proof.Machine.execShadow owner cmd s
  | .copyIn owner cmd => Sys2Proof.Machine.execCopyIn owner cmd s
  | .copyOut owner cmd => Sys2Proof.Machine.execCopyOut owner cmd s
  | .launch owner cmd => Sys2Proof.Machine.execLaunch owner cmd s
  | .post owner cmd => Sys2Proof.Machine.execPost owner cmd s
  | .signal owner cmd => Sys2Proof.Machine.execSignal owner cmd s
  | .waitev owner cmd => Sys2Proof.Machine.execWaitev owner cmd s
  | .waitevSatisfied owner cmd => Sys2Proof.Machine.execWaitevSatisfied owner cmd s
  | .waitevTimeout owner cmd => Sys2Proof.Machine.execWaitevTimeout owner cmd s
  | .preempt owner cmd => Sys2Proof.Machine.execPreempt owner cmd s
  | .resume owner cmd => Sys2Proof.Machine.execResume owner cmd s
  | .queryStatus owner cmd => Sys2Proof.Machine.execQueryStatus owner cmd s
  | .queryLife owner cmd => Sys2Proof.Machine.execQueryLife owner cmd s
  | .querySetTimeBase owner cmd => Sys2Proof.Machine.execQuerySetTimeBase owner cmd s
  | .queryClearCounters owner cmd => Sys2Proof.Machine.execQueryClearCounters owner cmd s
  | .fwloadConfigurationRecord owner cmd => Sys2Proof.Machine.execFwloadConfigurationRecord owner cmd s
  | .fwloadTalazFirmware owner cmd => Sys2Proof.Machine.execFwloadTalazFirmware owner cmd s
  | .fwloadSecurityFirmware owner cmd => Sys2Proof.Machine.execFwloadSecurityFirmware owner cmd s
  | .getVersion via => Sys2Proof.Machine.execGetVersion via s
  | .getCapabilities via => Sys2Proof.Machine.execGetCapabilities via s
  | .negotiateAlgorithms via => Sys2Proof.Machine.execNegotiateAlgorithms via s
  | .getDigests via => Sys2Proof.Machine.execGetDigests via s
  | .getCertificate via => Sys2Proof.Machine.execGetCertificate via s
  | .challenge via => Sys2Proof.Machine.execChallenge via s
  | .getMeasurements via => Sys2Proof.Machine.execGetMeasurements via s
  | .spdmUnsupportedRequest via => Sys2Proof.Machine.execSpdmUnsupportedRequest via s
  | .spanOffer env owner lead generation record => Sys2Proof.Machine.execSpanOffer env owner lead generation record s
  | .spanAck env launch peer generation => Sys2Proof.Machine.execSpanAck env launch peer generation s
  | .spanNak env launch peer generation => Sys2Proof.Machine.execSpanNak env launch peer generation s
  | .spanGo env owner generation => Sys2Proof.Machine.execSpanGo env owner generation s
  | .spanAbort env owner generation => Sys2Proof.Machine.execSpanAbort env owner generation s
  | .spanDone env launch peer generation status cause => Sys2Proof.Machine.execSpanDone env launch peer generation status cause s
  | .spanTimeout launch => Sys2Proof.Machine.execSpanTimeout launch s
  | .remoteAccess env owner requester address op posted => Sys2Proof.Machine.execRemoteAccess env owner requester address op posted s
  | .remoteAcknowledgement env request ok data => Sys2Proof.Machine.execRemoteAcknowledgement env request ok data s
  | .teamPlacement launch cores => Sys2Proof.Machine.execTeamPlacement launch cores s
  | .bell launch => Sys2Proof.Machine.execBell launch s
  | .gather owner core => Sys2Proof.Machine.execGather owner core s
  | .steal owner core => Sys2Proof.Machine.execSteal owner core s
  | .holdRevert owner queue => Sys2Proof.Machine.execHoldRevert owner queue s
  | .queueCommitRoom owner queue => Sys2Proof.Machine.execQueueCommitRoom owner queue s
  | .deadlockBreak core => Sys2Proof.Machine.execDeadlockBreak core s
  | .claimGrant core => Sys2Proof.Machine.execClaimGrant core s
  | .issueGuarantee wave => Sys2Proof.Machine.execIssueGuarantee wave s
  | .sleepExpiry wave => Sys2Proof.Machine.execSleepExpiry wave s
  | .clauseFetch wave split => Sys2Proof.Machine.execClauseFetch wave split s
  | .priorityPreemption launch team => Sys2Proof.Machine.execPriorityPreemption launch team s
  | .preemptionTrap wave => Sys2Proof.Machine.execPreemptionTrap wave s
  | .forcedSave team => Sys2Proof.Machine.execForcedSave team s
  | .launchCompletion launch => Sys2Proof.Machine.execLaunchCompletion launch s
  | .copyCompletion engine => Sys2Proof.Machine.execCopyCompletion engine s
  | .matrixCompletion engine => Sys2Proof.Machine.execMatrixCompletion engine s
  | .hrunCompletion engine => Sys2Proof.Machine.execHrunCompletion engine s
  | .pubSwap engine => Sys2Proof.Machine.execPubSwap engine s
  | .rqresWaitRetry wave => Sys2Proof.Machine.execRqresWaitRetry wave s
  | .rqtakeWaitRetry wave => Sys2Proof.Machine.execRqtakeWaitRetry wave s
  | .jinitPoolWait wave => Sys2Proof.Machine.execJinitPoolWait wave s
  | .nop h => Sys2Proof.Machine.execNop h s
  | .mov h w64 first d a => Sys2Proof.Machine.execMov h w64 first d a s
  | .iadd h t d a b => Sys2Proof.Machine.execIadd h t d a b s
  | .isub h t d a b => Sys2Proof.Machine.execIsub h t d a b s
  | .imul h t d a b => Sys2Proof.Machine.execImul h t d a b s
  | .imulh h t d a b => Sys2Proof.Machine.execImulh h t d a b s
  | .imad h t d a b c => Sys2Proof.Machine.execImad h t d a b c s
  | .imin h t d a b => Sys2Proof.Machine.execImin h t d a b s
  | .imax h t d a b => Sys2Proof.Machine.execImax h t d a b s
  | .iabs h w64 d a => Sys2Proof.Machine.execIabs h w64 d a s
  | .ineg h w64 d a => Sys2Proof.Machine.execIneg h w64 d a s
  | .lea h sh zx d a b => Sys2Proof.Machine.execLea h sh zx d a b s
  | .icmp h t cond d a b => Sys2Proof.Machine.execIcmp h t cond d a b s
  | .isel h w64 d a b c => Sys2Proof.Machine.execIsel h w64 d a b c s
  | .iclamp h t d a b c => Sys2Proof.Machine.execIclamp h t d a b c s
  | .iadds h t d a b => Sys2Proof.Machine.execIadds h t d a b s
  | .idot4 h sa sb d a b c => Sys2Proof.Machine.execIdot4 h sa sb d a b c s
  | .land h w64 d a b => Sys2Proof.Machine.execLand h w64 d a b s
  | .lor h w64 d a b => Sys2Proof.Machine.execLor h w64 d a b s
  | .lxor h w64 d a b => Sys2Proof.Machine.execLxor h w64 d a b s
  | .andn h w64 d a b => Sys2Proof.Machine.execAndn h w64 d a b s
  | .lnot h w64 d a => Sys2Proof.Machine.execLnot h w64 d a s
  | .shl h w64 d a b => Sys2Proof.Machine.execShl h w64 d a b s
  | .shr h w64 d a b => Sys2Proof.Machine.execShr h w64 d a b s
  | .sar h w64 d a b => Sys2Proof.Machine.execSar h w64 d a b s
  | .rol h w64 d a b => Sys2Proof.Machine.execRol h w64 d a b s
  | .bfx h w64 sx d a c => Sys2Proof.Machine.execBfx h w64 sx d a c s
  | .bfi h w64 d a b c => Sys2Proof.Machine.execBfi h w64 d a b c s
  | .popc h w64 d a => Sys2Proof.Machine.execPopc h w64 d a s
  | .clz h w64 d a => Sys2Proof.Machine.execClz h w64 d a s
  | .ctz h w64 d a => Sys2Proof.Machine.execCtz h w64 d a s
  | .brev h w64 d a => Sys2Proof.Machine.execBrev h w64 d a s
  | .prmb h w64 d a b c => Sys2Proof.Machine.execPrmb h w64 d a b c s
  | .fadd h t rm d a b => Sys2Proof.Machine.execFadd h t rm d a b s
  | .fsub h t rm d a b => Sys2Proof.Machine.execFsub h t rm d a b s
  | .fmul h t rm d a b => Sys2Proof.Machine.execFmul h t rm d a b s
  | .ffma h t rm d a b c => Sys2Proof.Machine.execFfma h t rm d a b c s
  | .fmin h t d a b => Sys2Proof.Machine.execFmin h t d a b s
  | .fmax h t d a b => Sys2Proof.Machine.execFmax h t d a b s
  | .fabs h t d a => Sys2Proof.Machine.execFabs h t d a s
  | .fneg h t d a => Sys2Proof.Machine.execFneg h t d a s
  | .fcmp h t cond d a b => Sys2Proof.Machine.execFcmp h t cond d a b s
  | .frcp h f64 d a => Sys2Proof.Machine.execFrcp h f64 d a s
  | .frsq h f64 d a => Sys2Proof.Machine.execFrsq h f64 d a s
  | .fsqrt h f64 d a => Sys2Proof.Machine.execFsqrt h f64 d a s
  | .fexp2 h d a => Sys2Proof.Machine.execFexp2 h d a s
  | .flog2 h d a => Sys2Proof.Machine.execFlog2 h d a s
  | .fsinp h d a => Sys2Proof.Machine.execFsinp h d a s
  | .fcosp h d a => Sys2Proof.Machine.execFcosp h d a s
  | .fclass h t d a => Sys2Proof.Machine.execFclass h t d a s
  | .frcpv h f64 d a b c => Sys2Proof.Machine.execFrcpv h f64 d a b c s
  | .fsmx h d a b => Sys2Proof.Machine.execFsmx h d a b s
  | .fscale h t d a b => Sys2Proof.Machine.execFscale h t d a b s
  | .cvtif h it ft rm d a => Sys2Proof.Machine.execCvtif h it ft rm d a s
  | .cvtfi h it ft rm d a => Sys2Proof.Machine.execCvtfi h it ft rm d a s
  | .cvtff h dst src rm d a => Sys2Proof.Machine.execCvtff h dst src rm d a s
  | .frnd h t rm d a => Sys2Proof.Machine.execFrnd h t rm d a s
  | .packq h e5m2 d a b c => Sys2Proof.Machine.execPackq h e5m2 d a b c s
  | .unpkq h e5m2 d a b => Sys2Proof.Machine.execUnpkq h e5m2 d a b s
  | .bpext h d a b => Sys2Proof.Machine.execBpext h d a b s
  | .bpins h d a b c => Sys2Proof.Machine.execBpins h d a b c s
  | .shfl h mode w64 d a b => Sys2Proof.Machine.execShfl h mode w64 d a b s
  | .voteQuorum h d a b => Sys2Proof.Machine.execVoteQuorum h d a b s
  | .voteCount h d a => Sys2Proof.Machine.execVoteCount h d a s
  | .voteMask h d a => Sys2Proof.Machine.execVoteMask h d a s
  | .voteSame h w64 d a => Sys2Proof.Machine.execVoteSame h w64 d a s
  | .matchLanes h w64 d a => Sys2Proof.Machine.execMatchLanes h w64 d a s
  | .plop h op1 op2 neg d a b c => Sys2Proof.Machine.execPlop h op1 op2 neg d a b c s
  | .pmov h fromPred d a => Sys2Proof.Machine.execPmov h fromPred d a s
  | .chseed h slot a => Sys2Proof.Machine.execChseed h slot a s
  | .chlink h slot ring a => Sys2Proof.Machine.execChlink h slot ring a s
  | .chout h slot d => Sys2Proof.Machine.execChout h slot d s
  | .elect h d => Sys2Proof.Machine.execElect h d s
  | .bra h off => Sys2Proof.Machine.execBra h off s
  | .brd h off a => Sys2Proof.Machine.execBrd h off a s
  | .join h => Sys2Proof.Machine.execJoin h s
  | .brx h a => Sys2Proof.Machine.execBrx h a s
  | .call h off d => Sys2Proof.Machine.execCall h off d s
  | .ret h a => Sys2Proof.Machine.execRet h a s
  | .exit h => Sys2Proof.Machine.execExit h s
  | .yield h => Sys2Proof.Machine.execYield h s
  | .sleep h a => Sys2Proof.Machine.execSleep h a s
  | .trap h a => Sys2Proof.Machine.execTrap h a s
  | .bkpt h => Sys2Proof.Machine.execBkpt h s
  | .dbnz h off d => Sys2Proof.Machine.execDbnz h off d s
  | .waitt h a => Sys2Proof.Machine.execWaitt h a s
  | .ld h sp sz sx d a c => Sys2Proof.Machine.execLd h sp sz sx d a c s
  | .st h sp sz a b c => Sys2Proof.Machine.execSt h sp sz a b c s
  | .stp h sz a b c => Sys2Proof.Machine.execStp h sz a b c s
  | .ldf h op ty d a c => Sys2Proof.Machine.execLdf h op ty d a c s
  | .atom h op scope d a b c => Sys2Proof.Machine.execAtom h op scope d a b c s
  | .atomc h w64 scope d a b c => Sys2Proof.Machine.execAtomc h w64 scope d a b c s
  | .red h op scope a b c => Sys2Proof.Machine.execRed h op scope a b c s
  | .pref h l1 a c => Sys2Proof.Machine.execPref h l1 a c s
  | .fenceR h => Sys2Proof.Machine.execFenceR h s
  | .fenceH h => Sys2Proof.Machine.execFenceH h s
  | .fenceE h => Sys2Proof.Machine.execFenceE h s
  | .fdef h a b c => Sys2Proof.Machine.execFdef h a b c s
  | .ldu h sp sz sx d a c => Sys2Proof.Machine.execLdu h sp sz sx d a c s
  | .stu h sp sz a b c => Sys2Proof.Machine.execStu h sp sz a b c s
  | .bari h wave a b c => Sys2Proof.Machine.execBari h wave a b c s
  | .barv h peer d a => Sys2Proof.Machine.execBarv h peer d a s
  | .barw h a b => Sys2Proof.Machine.execBarw h a b s
  | .bara h peer a b => Sys2Proof.Machine.execBara h peer a b s
  | .bart h d a b => Sys2Proof.Machine.execBart h d a b s
  | .barx h a b => Sys2Proof.Machine.execBarx h a b s
  | .rqres h wait d a b c => Sys2Proof.Machine.execRqres h wait d a b c s
  | .rqcmt h a => Sys2Proof.Machine.execRqcmt h a s
  | .rqtake h wait d a => Sys2Proof.Machine.execRqtake h wait d a s
  | .rqrel h a => Sys2Proof.Machine.execRqrel h a s
  | .rend h => Sys2Proof.Machine.execRend h s
  | .cpin h tok ch a b c => Sys2Proof.Machine.execCpin h tok ch a b c s
  | .cpout h tok ch d a b c => Sys2Proof.Machine.execCpout h tok ch d a b c s
  | .cppeer h tok ch d a b c => Sys2Proof.Machine.execCppeer h tok ch d a b c s
  | .cpgath h tok ch d a b c => Sys2Proof.Machine.execCpgath h tok ch d a b c s
  | .cpsh h tok ch a b c => Sys2Proof.Machine.execCpsh h tok ch a b c s
  | .pub h tok a => Sys2Proof.Machine.execPub h tok a s
  | .cpwp h ch d => Sys2Proof.Machine.execCpwp h ch d s
  | .cpcan h ch => Sys2Proof.Machine.execCpcan h ch s
  | .mma h ty accum d a b c => Sys2Proof.Machine.execMma h ty accum d a b c s
  | .mmax h fa fb accum d a b c => Sys2Proof.Machine.execMmax h fa fb accum d a b c s
  | .mmap h planes accum centre bsigned d a b => Sys2Proof.Machine.execMmap h planes accum centre bsigned d a b s
  | .accz h pair d => Sys2Proof.Machine.execAccz h pair d s
  | .accrd h pair d a b => Sys2Proof.Machine.execAccrd h pair d a b s
  | .accwr h pair d a b => Sys2Proof.Machine.execAccwr h pair d a b s
  | .accst h fmt d a b c => Sys2Proof.Machine.execAccst h fmt d a b c s
  | .accld h fmt d a => Sys2Proof.Machine.execAccld h fmt d a s
  | .hcfg h a => Sys2Proof.Machine.execHcfg h a s
  | .hld h a b c => Sys2Proof.Machine.execHld h a b c s
  | .hrun h tok a b c => Sys2Proof.Machine.execHrun h tok a b c s
  | .hgath h d a b => Sys2Proof.Machine.execHgath h d a b s
  | .hexit h d a b => Sys2Proof.Machine.execHexit h d a b s
  | .hclr h a b => Sys2Proof.Machine.execHclr h a b s
  | .postInstruction h target d a c => Sys2Proof.Machine.execPostInstruction h target d a c s
  | .spawn h target d a c => Sys2Proof.Machine.execSpawn h target d a c s
  | .tend h a => Sys2Proof.Machine.execTend h a s
  | .jinit h a b c => Sys2Proof.Machine.execJinit h a b c s
  | .launchInstruction h d a => Sys2Proof.Machine.execLaunchInstruction h d a s
  | .claim h wait tiles d a => Sys2Proof.Machine.execClaim h wait tiles d a s
  | .give h tiles a => Sys2Proof.Machine.execGive h tiles a s
  | .dpush h q a => Sys2Proof.Machine.execDpush h q a s
  | .dclose h q => Sys2Proof.Machine.execDclose h q s
  | .srd h d a => Sys2Proof.Machine.execSrd h d a s
  | .swr h a b => Sys2Proof.Machine.execSwr h a b s
  | .rtu h mode => Sys2Proof.Machine.execRtu h mode s
  | .pack h a b => Sys2Proof.Machine.execPack h a b s
  | .stksv h split a => Sys2Proof.Machine.execStksv h split a s
  | .stkld h split a => Sys2Proof.Machine.execStkld h split a s
  | .rts h => Sys2Proof.Machine.execRts h s
  | .tlbinv h a b => Sys2Proof.Machine.execTlbinv h a b s
  | .ivgilBreak owner clause => Sys2Proof.Machine.execIvgilBreak owner clause s
  | .ivgilRun owner => Sys2Proof.Machine.execIvgilRun owner s
  | .ivgilStep wave => Sys2Proof.Machine.execIvgilStep wave s
  | .ivgilTiming wave => Sys2Proof.Machine.execIvgilTiming wave s
  | .ivgilPrint what => Sys2Proof.Machine.execIvgilPrint what s
  | .ivgilLanes wave => Sys2Proof.Machine.execIvgilLanes wave s
  | .ivgilChain wave slot => Sys2Proof.Machine.execIvgilChain wave slot s
  | .ivgilTokens wave => Sys2Proof.Machine.execIvgilTokens wave s
  | .ivgilBarrier team bar => Sys2Proof.Machine.execIvgilBarrier team bar s
  | .ivgilCatch owner cause => Sys2Proof.Machine.execIvgilCatch owner cause s
  | .ivgilTrap wave => Sys2Proof.Machine.execIvgilTrap wave s
  | .ivgilPrintPool owner => Sys2Proof.Machine.execIvgilPrintPool owner s
  | .coreResetOrPowerGating core => Sys2Proof.Machine.execCoreResetOrPowerGating core s
  | .transportRetryLimitExhausted request => Sys2Proof.Machine.execTransportRetryLimitExhausted request s
  | .powerLimitWithholding withhold => Sys2Proof.Machine.execPowerLimitWithholding withhold s

end Sys2Proof.Machine
end

