-- ==== Sys2Proof/Machine/Issue.lean ====
section
/-!
DEFINITION. What moves next (R118–R120): the word a wave issues, which waves are ready, the order in which a core issues them,
and the events of the device that are due when no input is.
-/
namespace Sys2Proof.Machine

/-! ### Issuing a word -/

/-- The cause of a word that does not decode, in the order of R211: where an operand is at fault, the checks that stand
before those of operands come first. The flag tells whether it counts as an illegal encoding (R217). -/
def State.decodeCause (s : State) (e : Env) (word : W64) (lits : List W64) : DecodeError → Nat × Bool
  | .illegalInstruction => (0x01, true)
  | x =>
    let w := e.w
    match uncheckedInstr word lits with
    | some i =>
      if w.outside i then (0x01, true)
      else if w.unprivileged i e.exec || s.namesSystem e i then (0x08, false)
      else (0x02, x == .illegalOperand)
    | none => (0x01, true)

/-- The trap of a word that does not decode (R210): its masks are all active lanes for an illegal instruction, the
executing ones otherwise; that of a chained instruction tells its slot and carry (R213). -/
def State.decodeTrap (s : State) (n k : Nat) (w : Wave) (p : Split) (lits : List W64) (x : DecodeError) : Trap :=
  let e := envOf n k w { p with retry := none } (fieldsOf p.current).head
  let (c, counted) := s.decodeCause e p.current lits x
  let t := { e.trap c with counted := counted }
  match (if c = 0x01 then none else uncheckedInstr p.current lits) with
  | some i => s.chainMark e i t
  | none => t

/-- What ivgil reports of a step: whether the word waits, its split, and its place in the clause (R384). -/
def stepReport (waits : Bool) (k : Nat) (p : Split) : List W64 := [bit64 waits, BitVec.ofNat 64 k, BitVec.ofNat 64 p.word]

/-- A word that a step has issued still waits: its split stands at it, and no bell has been left to perform it. -/
def Wave.stepWaits (w : Wave) (k : Nat) (p : Split) : Bool :=
  w.standsAt k p.pc p.word && w.bellSplit != some k && (match Tab.find w.splits k with
    | some q => q.waiting != .none
    | none => false)

/-- A wave that the debug agent lets issue one word is held again after it, or completes it when its wait ends (R384). -/
def State.stepped (s : State) (n k : Nat) (p : Split) : State :=
  match s.wave? n with
  | none => s
  | some w =>
    let after : Stopped := if w.stepWaits k p then .waits k p.pc p.word else .held
    let go : State := ((s.updWave n fun x => { x with stopped := after }).clearCur).report (stepReport (w.stepWaits k p) k p)
    match w.stopped with
    | .stepping _ | .waits .. => go
    | _ => s

/-- The outcome with a change of its next state. -/
def mapNext (f : State → State) : Host.Outcome State Fault Refusal → Host.Outcome State Fault Refusal
  | .next s => .next (f s)
  | .fault x => .fault x
  | .refused x => .refused x

/-- The instruction at which a split stands in its clause (R232). -/
def Split.instr (p : Split) : Except DecodeError Instr := decodeWord p.current p.literals

/-- Issue the current word of a split. A word that does not decode traps, or where its handler has passed it by retires
(R215). -/
def State.issueWord (s : State) (n k : Nat) (w : Wave) (p : Split) : Host.Outcome State Fault Refusal :=
  match p.instr with
  | .ok i => mapNext (fun t => t.stepped n k p) (exec i { s with cur := some (n, k) })
  | .error x =>
    if p.retry.any (·.skip) then .next ((s.retire n k none).continueAt n k p)
    else .next (s.clearCur.raise n (s.decodeTrap n k w p p.literals x))

/-- Issue for a split: its next word, or the fetch of its next clause. -/
def State.issueSplit (s : State) (n k : Nat) (w : Wave) (p : Split) : Host.Outcome State Fault Refusal :=
  if p.clause.isEmpty then exec (.clauseFetch n k) s.clearCur else s.issueWord n k w p

/-! ### Readiness (R118) -/

/-- Trying the word of a split again ends its wait. -/
def State.tryEnds (s : State) (n k : Nat) (w : Wave) (p : Split) : Bool :=
  let t := stateOr s (s.issueWord n k w p)
  match (t.wave? n).bind fun x => Tab.find x.splits k with
  | some q => q.waiting != p.waiting
  | none => true

/-- What a split waits for has come. The waits on other agents' operations are told by trying the word. -/
def State.waitOver (s : State) (n k : Nat) (w : Wave) (p : Split) : Bool :=
  match p.waiting with
  | .none => true
  | .tokens m => w.busy &&& m == 0
  | .barrier b phi => s.isRound w || match s.teamOf w with
    | some t => (t.barrier b).phase != phi
    | none => true
  | .pop _ | .pushFull _ | .chainEmpty _ | .chainFull .. | .seedFull _ => !(s.stalled w p.waiting)
  | .claim => match p.retry with
    | some r => decide (r.carry.toNat % 4 ≠ 3)
    | none => true
  | .remote => !(s.unanswered n k w)
  | .commitRoom => !(s.commitWaits w n)
  | .page va => s.pageThere w.owner va
  | .ringSpace | .ringTake | .poolMax => false
  | .peerBarrier | .tile | .member | .posted | .engines =>
    s.tryEnds n k w p

/-- Some wave of the team is in its pre-emption handler (R96). -/
def State.inHandlers (s : State) (t : Team) : Bool :=
  t.waves.any fun n => (s.wave? n).any fun w => w.trapCtx.any fun c => c.cause == 0x40

/-- While its team's pre-emption is in effect, a drover issues nothing and a wave outside a handler begins no clause. A drover
stands still as long as a wave is in its pre-emption handler, also after a forced save has brought it back there, and once no wave
runs (R96, R98, R112; log entry 155). -/
def State.mayGoOn (s : State) (w : Wave) (p : Split) : Bool :=
  match s.teamOf w with
  | some t =>
    if w.drover then !t.preempting && s.teamRuns t && !(s.inHandlers t)
    else !t.preempting || w.trapCtx.isSome || decide (w.hmode ≠ .none) || !p.clause.isEmpty
  | none => false

/-- Some other split of the wave waits in a way that stalls the whole wave (R52, R109, R113, R126). -/
def State.stalledBy (s : State) (n k : Nat) (w : Wave) : Bool :=
  w.splits.any fun x => x.1 != k && x.2.waiting.stalls && !(s.waitOver n x.1 w x.2)

/-- The split can issue now: its next word, or a clause whose token waits are satisfied (R118). A SLEEP keeps its wave from the next
clause, and does not break the clause it stands in (R118, R285). -/
def State.ready (s : State) (n k : Nat) (w : Wave) (p : Split) : Bool :=
  decide (w.life = .running) && w.free k && w.pending.isNone && (w.sleep == 0 || !p.clause.isEmpty) && !w.roundEnded &&
  w.bellSplit.isNone && !(s.bellHeld w) && p.arrived.isNone && s.mayGoOn w p && s.waitOver n k w p && !(s.stalledBy n k w) &&
  (s.isRound w || !(s.tokensBusy k w p))

/-- The split a wave issues next: in round mode the one whose turn it is; else the one whose clause has begun, where it can go
on, or the first ready one in rotation (R118, R120, R141). -/
def State.readySplit (s : State) (n : Nat) (w : Wave) : Option (Nat × Split) :=
  let ok (x : Nat × Split) : Bool := s.ready n x.1 w x.2
  if s.isRound w then w.dueSplit.bind fun x => if ok x then some x else none
  else
    let begun := w.begun.bind fun k => (Tab.find w.splits k).bind fun p => if ok (k, p) then some (k, p) else none
    begun.orElse fun _ => w.rotation.find? ok

/-- An agent that can issue: its number, its wave, its split. -/
structure Candidate where
  n : Nat
  w : Wave
  k : Nat
  p : Split

/-- The agents that can issue. -/
def State.candidates (s : State) : List Candidate :=
  s.waves.filterMap fun x => (s.readySplit x.1 x.2).map fun y => { n := x.1, w := x.2, k := y.1, p := y.2 }

/-- Since when the candidate's clause can issue; now, where nothing is noted yet. -/
def State.since (s : State) (c : Candidate) : Nat := c.p.readySince.getD s.clock

/-- The order in which a core issues its ready waves, the least first (R118–R120): one whose clause has begun, one that has missed
1024 opportunities, one that has not yielded, the team priority, and the one that became ready first. -/
def State.standing (s : State) (c : Candidate) : List Nat :=
  let prio := match s.teamOf c.w with
    | some t => t.priority
    | none => 0
  [(c.w.begun != some c.k).toNat, (decide (c.w.missed < 1024)).toNat, c.w.yielded.toNat, 7 - prio, s.since c]

/-- The standing, and of equal ones the lower number. -/
def State.rank (s : State) (c : Candidate) : List Nat := s.standing c ++ [c.n]

/-- The candidate of a list that goes before the others under a rank. -/
def firstUnder (rank : Candidate → List Nat) (l : List Candidate) : Option Candidate := l.foldl (fun acc c => match acc with
  | none => some c
  | some b => if lexAfter (rank b) (rank c) then some c else acc) none

/-- The candidate that issues. A core offers its first wave and, through their own port, its first drover (R118, R119); of
what the cores offer, the one longest ready goes. -/
def State.choose (s : State) (cs : List Candidate) : Option Candidate :=
  let cores := (cs.map fun c => s.coreOf c.w).eraseDups
  firstUnder (fun c => [s.since c, c.n]) (cores.flatMap fun core =>
    let here := cs.filter fun c => s.coreOf c.w == core
    (firstUnder s.rank (here.filter fun c => !c.w.drover)).toList ++
    (firstUnder s.rank (here.filter fun c => c.w.drover)).toList)

/-- Two agents issue on one core through one port: drovers through their own (R119). -/
def State.samePort (s : State) (a b : Wave) : Bool := s.coreOf a == s.coreOf b && a.drover == b.drover

/-- No candidate of its core and port stands before this one (R118–R120). -/
def State.mayIssue (s : State) (c : Candidate) (cs : List Candidate) : Bool :=
  cs.all fun x => !(s.samePort x.w c.w) || !(lexAfter (s.standing c) (s.standing x))

/-- One more issue opportunity of a core has passed for its sleeping agents (R285). -/
def State.passSleep (s : State) (core : Nat) : State :=
  { s with waves := Tab.mapVal (fun _ w => if w.sleep > 1 && s.coreOf w == core then { w with sleep := w.sleep - 1 } else w) s.waves }

/-- An issue opportunity of a core goes to one agent, wave or drover: the others that are ready there, at its port, miss it, the
yields there are spent, and it counts for those that sleep (R118–R120, R285). -/
def State.opportunity (s : State) (c : Candidate) (cs : List Candidate) : State :=
  if !c.p.clause.isEmpty || s.fetchOnlyWaits c.k c.w c.p then s
  else
    let ready (n : Nat) : Bool := cs.any fun x => x.n == n
    ({ s with waves := Tab.mapVal (fun n w =>
      if !(s.samePort w c.w) then w
      else if n = c.n then { w with missed := 0, yielded := false }
      else { w with missed := w.missed + (ready n).toNat, yielded := false }) s.waves } : State).passSleep (s.coreOf c.w)

/-! ### The events of the device that are due -/

/-- The performance of a dispatched command, by its code (R43). -/
def commandEvents (o c : Nat) (x : Cmd) : List Instr :=
  match x.phase with
  | .received => []
  | .performed => [.commandCompletion o c]
  | _ =>
    match x.code with
    | 0x01 => [.ctxOpen o c]
    | 0x02 => [.ctxClose o c]
    | 0x03 => [.map o c]
    | 0x04 => [.unmap o c]
    | 0x05 => [.shadow o c]
    | 0x06 => [.copyIn o c]
    | 0x07 => [.copyOut o c]
    | 0x08 => [.launch o c]
    | 0x09 => [.post o c]
    | 0x0A => [.signal o c]
    | 0x0B => [.waitev o c, .waitevSatisfied o c]
    | 0x0C => [.preempt o c]
    | 0x0D => [.resume o c]
    | 0x0E => [.queryStatus o c, .queryLife o c, .querySetTimeBase o c, .queryClearCounters o c]
    | 0x0F => [.getVersion (.command o c), .getCapabilities (.command o c), .negotiateAlgorithms (.command o c),
               .getDigests (.command o c), .getCertificate (.command o c), .challenge (.command o c),
               .getMeasurements (.command o c), .spdmUnsupportedRequest (.command o c)]
    | 0x10 => [.fwloadConfigurationRecord o c, .fwloadTalazFirmware o c, .fwloadSecurityFirmware o c]
    | _ => []

/-- The answers to messages of the bootstrap endpoint (R40). -/
def bootstrapEvents : List Instr :=
  [.bootstrapCtxOpen, .getVersion .bootstrap, .getCapabilities .bootstrap, .negotiateAlgorithms .bootstrap,
   .getDigests .bootstrap, .getCertificate .bootstrap, .challenge .bootstrap, .getMeasurements .bootstrap,
   .spdmUnsupportedRequest .bootstrap]

/-- The events of the owners' commands and rings. -/
def State.ownerEvents (s : State) : List Instr :=
  s.owners.flatMap fun x => (x.2.cmds.flatMap fun c => commandEvents x.1 c.1 c.2) ++
    [.commandAppend x.1, .commandRingRoom x.1, .commandDispatch x.1, .completionRingRoom x.1]

/-- The cores a launch's next unit goes to: in ordinary mode the first that fit (R73). -/
def State.placementCores (s : State) (lid : Nat) (l : Launch) : List Nat :=
  match s.nextUnit l, s.owner? l.owner with
  | some (_, u), some o =>
    if l.round then [] else ((s.unreserved lid u.indices).findCores (s.unitNeeds l u) (o.places l.lr.groupSize 1) 0).getD []
  | _, _ => []

/-- The events of the launches, those of higher priority first (R73): placement, bell, the policy's pre-emption,
completion. -/
def State.launchEvents (s : State) : List Instr :=
  (sortBy (fun (x : Nat × Launch) => 7 - x.2.lr.priority) s.launches).flatMap fun x => [.teamPlacement x.1 (s.placementCores x.1 x.2), .bell x.1] ++
    ((s.victim x.1 x.2).map fun t => Instr.priorityPreemption x.1 t.1).toList ++ [.launchCompletion x.1]

/-- The events of pre-emption (R96, R98): a team that only waves without a handler run in is saved by the device, once each has
taken its trap (R68). -/
def State.preemptEvents (s : State) : List Instr :=
  (s.waves.filterMap fun x => if s.preemptDue x.1 x.2 then some (.preemptionTrap x.1) else none) ++
  (s.teams.filterMap fun x => if s.saveAwaited x.2 then some (.forcedSave x.1) else none)

/-- The events of the engines. -/
def State.engineEvents (s : State) : List Instr :=
  s.engines.map fun x => match x.2.op with
    | .copy _ => .copyCompletion x.1
    | .hrun .. => .hrunCompletion x.1
    | .matrix .. => .matrixCompletion x.1
    | .publish _ => .pubSwap x.1

/-- The events of the queues, claims and deadlocks: a core gathers from its own queue before it steals (R89, R92). -/
def State.queueEvents (s : State) : List Instr :=
  (s.owners.flatMap fun x =>
    let some' := x.2.queues.any fun q => !q.2.recs.isEmpty
    (x.2.queues.flatMap fun q => if q.2.recs.isEmpty && x.2.commits.isEmpty then [] else
      [Instr.holdRevert x.1 q.1, .queueCommitRoom x.1 q.1]) ++
    (if some' then x.2.placement.flatMap fun c => [.gather x.1 c, .steal x.1 c] else [])) ++
  s.cores.flatMap fun x => if x.2.claims.isEmpty then [] else [.claimGrant x.1, .deadlockBreak x.1]

/-- The retry of a wait that can end now (R320, R321, R359). -/
def State.retryOf (s : State) (n k : Nat) (w : Wave) (p : Split) : Option Instr :=
  let e : Option Instr := match p.waiting with
    | .ringSpace => some (.rqresWaitRetry n)
    | .ringTake => some (.rqtakeWaitRetry n)
    | .poolMax => some (.jinitPoolWait n)
    | _ => none
  if e.isSome && !(s.isRound w) && s.tryEnds n k w p then e else none

/-- The retries of waits that can end now. -/
def State.retryEvents (s : State) : List Instr :=
  s.waves.flatMap fun x => x.2.splits.filterMap fun y => s.retryOf x.1 y.1 x.2 y.2

/-- The sleeps that end (R285). -/
def State.sleepEvents (s : State) : List Instr :=
  s.waves.filterMap fun x => if x.2.sleep = 1 then some (.sleepExpiry x.1) else none

/-- Where nothing moves, as many opportunities pass on every core as the shortest sleep still takes (R285). -/
def State.sleepOn (s : State) : State :=
  let left := (s.waves.filterMap fun x => if x.2.sleep > 1 then some (x.2.sleep - 1) else none)
  match left with
  | [] => s
  | k :: r =>
    let m := r.foldl min k
    { s with waves := Tab.mapVal (fun _ w => if w.sleep > 1 then { w with sleep := w.sleep - m } else w) s.waves }

/-- The first of some events that changes the machine. -/
def State.firstOf (s : State) : List Instr → Option State
  | [] => none
  | i :: r => match exec i s with
    | .next t => if t = s then State.firstOf s r else some t
    | _ => State.firstOf s r

/-- A trap whose record waited for a page is taken again when the page is there (R68). -/
def State.pendingTrap (s : State) : Option State :=
  s.waves.findSome? fun x => match x.2.pending with
    | some t =>
      if t.sent || s.waitsPage x.2 || x.2.life ≠ .running then none
      else some ((s.updSplit x.1 t.split fun p => { p with waiting := .none }).takeTrap x.1 t)
    | none => none

/-- The next event of the device. -/
def State.nextEvent (s : State) : Option State :=
  (s.firstOf (s.sleepEvents ++ s.preemptEvents)).orElse fun _ => s.pendingTrap.orElse fun _ =>
    s.firstOf ((if s.rx.isEmpty then [] else bootstrapEvents) ++ s.ownerEvents ++ s.launchEvents ++ s.queueEvents ++ s.retryEvents ++ s.engineEvents)

/-- Issue for an agent. -/
def State.issueFor (s : State) (c : Candidate) (cs : List Candidate) : Host.Outcome State Fault Refusal :=
  let s := s.opportunity c cs
  match s.wave? c.n with
  | some w => s.issueSplit c.n c.k w c.p
  | none => .next s

/-- Issue for the chosen agent. -/
def State.issueNext (s : State) : Option (Host.Outcome State Fault Refusal) :=
  let cs := s.candidates
  (s.choose cs).map fun c => s.issueFor c cs

/-- The word being issued: its wave and split, where they stand in a clause and can go on. -/
def State.current (s : State) : Option Candidate :=
  s.cur.bind fun c => (s.wave? c.1).bind fun w => (Tab.find w.splits c.2).bind fun p =>
    if p.clause.isEmpty || !(s.ready c.1 c.2 w p) then none else some { n := c.1, w := w, k := c.2, p := p }

/-- A choice from outside of what moves next (R118–R120, R170): the split that a ready agent issues next, where no other agent
stands before it on its core, or an engine operation. A choice that cannot be taken is passed over. -/
def State.take (s : State) (x : Slot) : Host.Outcome State Fault Refusal :=
  match x with
  | .wave n k =>
    let cs := s.candidates
    match cs.find? fun c => c.n == n && c.k == k with
    | none => .next s
    | some c => if s.mayIssue c cs then s.issueFor c cs else .next s
  | .step n =>
    let cs := s.candidates
    match cs.find? fun c => c.n == n with
    | none => .next (s.report [1])
    | some c => if s.mayIssue c cs then s.issueFor c cs else .next s
  | .engine n =>
    match s.engine? n with
    | none => .next s
    | some e =>
      match e.op with
      | .copy _ => .next (s.advanceCopy n)
      | .hrun .. => exec (.hrunCompletion n) s
      | .matrix .. => exec (.matrixCompletion n) s
      | .publish _ => exec (.pubSwap n) s

/-- One step of the machine: an input that is due; else a choice from outside; else the word being issued; else an event of
the device; else the next issue; else nothing. -/
def State.move (s : State) : Host.Outcome State Fault Refusal :=
  match s.inputs with
  | i :: r => if i.head?.isSome then .next { s with inputs := r } else exec i { s with inputs := r }
  | [] =>
    match s.sched with
    | x :: r => State.take { s with sched := r } x
    | [] =>
      match s.current with
      | some c => s.issueWord c.n c.k c.w c.p
      | none =>
        let s := s.clearCur
        match s.nextEvent with
        | some t => .next t
        | none =>
          match s.issueNext with
          | some x => x
          | none => .next s.sleepOn

/-- Opportunities pass as well on a core where agents sleep and none is ready (R285). -/
def State.idleCores (s : State) (cs : List Candidate) : State :=
  let cores := (s.waves.filterMap fun x => if x.2.sleep > 1 then some (s.coreOf x.2) else none).eraseDups
  (cores.filter fun k => cs.all fun c => s.coreOf c.w != k).foldl State.passSleep s

/-- The split's next clause can issue when its turn comes: in round mode the turn itself is the wait (R118, R141). -/
def State.clauseReady (s : State) (n k : Nat) (w : Wave) (p : Split) : Bool :=
  s.ready n k w p && (!(s.isRound w) || w.dueSplit.any fun x => x.1 == k)

/-- Note for each split since when its next clause can issue (R118). -/
def State.noteReady (s : State) : State :=
  let note (n k : Nat) (w : Wave) (p : Split) : Split :=
    { p with readySince := if s.clauseReady n k w p then some (p.readySince.getD s.clock) else none }
  { s with waves := Tab.mapVal (fun n w => { w with splits := Tab.mapVal (fun k p => note n k w p) w.splits }) s.waves }

/-- Time passes. -/
def State.tick (s : State) : State :=
  let s := { s with clock := s.clock + 1 }
  (s.idleCores s.candidates).noteReady

end Sys2Proof.Machine
end

