-- ==== Sys2Proof/Machine/Step.lean ====
section
/-!
DEFINITION. One step of the machine, and the placing of one instruction where the next step issues it.
-/
namespace Sys2Proof.Machine

/-- One step: what moves next (spec/06), and time passes with it. -/
def step (s : State) : Host.Outcome State Fault Refusal := mapNext State.tick s.move

/-- A clause of one instruction word and the literals it takes, header first (R224). -/
def clauseOf (w : W64) (lits : List W64) : List W64 :=
  let n := lits.length
  let g := (fieldsOf w).opc.toNat / 64
  let cls := ((List.range 5).find? fun c => classAllows c g).getD 0
  BitVec.ofNat 64 (0xD * 2 ^ 60 + n * 2 ^ 56 + cls * 2 ^ 52 + (2 ^ (n + 1) - 2) * 2 ^ 24) :: w :: lits

/-- A split that is about to issue the first word of a clause. -/
def Split.placed (p : Split) (c : List W64) : Split :=
  { p with clause := c, word := 0, arrived := none, windows := [], retry := none, skipBreak := false, waiting := .none }

/-- An owner, a launch, a team and a wave for an instruction placed where no wave runs. -/
def State.withWave (s : State) (c : List W64) : State :=
  let o := { s.newOwner [] { memoryKey := 0, domainKey := 0 } [] true with
    hostRing := { control := 0, base := 0, log2 := 0, reserve := 0, commit := 0 } }
  let s := { s with owners := if (s.owner? 0).isSome then s.owners else Tab.put s.owners 0 o }
  let (lid, s) := s.acceptLaunch 0 (launchRecOf []) 0 none none 1 none false
  let (tid, s) := s.newId
  let (n, s) := s.newId
  let t : Team :=
    { owner := 0, launch := some lid, index := 0, group := 0, core := 0, task := false, priority := 0, waves := [n], drover := none,
      slot := 0, windowBase := 0, windowUnits := 2, barCount := 16, bars := [], tiles := [], spareUnits := 0, spareTiles := [],
      hurdle := false, queues := [], preempt := none, version := 0, arg := 0, others := [] }
  let m : W32 := BitVec.allOnes 32
  let w : Wave := { Wave.blank with launch := some lid, team := tid, emask := m, units := 8,
                                    splits := [(0, (Split.start 0 m).placed c)] }
  { s with teams := Tab.put s.teams tid t, waves := Tab.put s.waves n w, cur := some (n, 0) }

/-- The state with an instruction of `nbits` bits, the bits above zero, as the word that the next step issues: in the split
that is issuing, or in a wave made for it. No event is due before it. -/
def State.withFetchWord (s : State) (nbits w : Nat) : State :=
  let x := w % 2 ^ nbits
  let word (k : Nat) : W64 := BitVec.ofNat 64 (x / 2 ^ (64 * k))
  let c := clauseOf (word 0) ((List.range (litCount (word 0))).map fun k => word (k + 1))
  let s := { s with inputs := [], sched := [] }
  match s.current with
  | some x => s.updSplit x.n x.k fun p => p.placed c
  | none => s.withWave c

end Sys2Proof.Machine
end

