-- ==== Sys2Proof/Safety.lean ====
section
/-!
DEFINITION. What claims call a safe run: the forms of the state that every step keeps, and the runs in which no step stops.
-/
namespace Sys2Proof.Machine

/-- The memory of the device, and the snapshot of every launch, stand in their canonical form. -/
def State.memWf (s : State) : Prop := s.mem.wf = true ∧ ∀ x ∈ s.launches, x.2.snapshot.wf = true

/-- The machine stops at a state: its step is a fault or a refusal. -/
def State.stops (s : State) : Prop := ∀ t, step s ≠ .next t

/-- Some number of steps leads from one state to another. -/
inductive Reaches : State → State → Prop where
  | refl (s : State) : Reaches s s
  | next (s t u : State) : step s = .next t → Reaches t u → Reaches s u

/-- A run is safe where no state it reaches stops. -/
def State.safe (s : State) : Prop := ∀ t, Reaches s t → ¬ t.stops

end Sys2Proof.Machine
end

