-- ==== Sys2Proof/Safety/Execution.lean ====
section
/-!
DEFINITION. The words claims about instruction words are stated in: when a word executes with none of the traps and waits
that stand before its own effect (R113, R123, R211), what retiring it leaves as it was, and where its split goes on.
-/
namespace Sys2Proof.Machine

/-- A word is issued in an environment: a wave and a split stand at it, and its guard selects the lanes (R229). -/
structure Issued (s : State) (h : Head) (e : Env) : Prop where
  cur : s.cur = some (e.n, e.k)
  wave : s.wave? e.n = some e.w
  split : Tab.find e.w.splits e.k = some e.sp
  fresh : e.sp.retry = none
  active : e.active = if e.w.drover then 1 else e.sp.mask
  exec : e.exec = e.w.guarded h e.active

/-- The word of an instruction executes in an environment: it is the one being issued, its guard selects the lanes (R229),
no illegal cause is found when it is decoded (R211), it reads and writes no pending result (R234), its pops are there (R113), its
chain input is there and its output has room (R126), and nothing it consumes has an uncorrectable error (R218). -/
structure Executes (s : State) (i : Instr) (h : Head) (e : Env) : Prop extends Issued s h e where
  checks : s.issueFault { e with pops := [], carry := 0 } i = none
  pops : popsFor (s.teamOf e.w) i = .values e.pops
  clear : violates e.sp.windows i (s.srdNumber { e with carry := 0 } i) = false
  chain : match i.chainSlot with
    | none => e.carry = 0
    | some k => e.exec ≠ 0 ∧ s.chainInput e.w k.toNat = .value e.carry
  intact : s.badLane e i = none
  parts : (e.part i).all (fun p => !(s.badParts.contains p)) = true

/-- A team but for the entries of its drover's queues. -/
def Team.sansQueues (t : Team) : Team := { t with queues := [] }

/-- A launch but for the mark that something happened in its round (R180). -/
def Launch.sansFresh (l : Launch) : Launch := { l with fresh := false }

/-- A wave but for its splits and the progress of its issue: rounds, turns and counts. -/
def Wave.idle (w : Wave) : Wave :=
  { w with splits := [], retired := 0, lt := 0, roundEnded := false, bellSplit := none, nextSplit := 0,
           yielded := false, begun := none }

/-- A wave but for its chain slots (R126). -/
def Wave.sansChains (w : Wave) : Wave := { w with chains := [] }

/-- A wave but for V, O, L, the flags, the errors in register elements, and its chain slots. -/
def Wave.sansLanes (w : Wave) : Wave := { w.idle with v := [], o := [], latch := [], fstat := 0, bad := [], chains := [] }

/-- The device beside one agent: nothing of it changes but the queues the word pops and the mark of its round. -/
structure Beside (s t : State) (n : Nat) : Prop where
  rest : { t with waves := s.waves, teams := s.teams, launches := s.launches, cur := s.cur } = s
  others : ∀ m, m ≠ n → t.wave? m = s.wave? m
  teams : ∀ j, (t.team? j).map Team.sansQueues = (s.team? j).map Team.sansQueues
  launches : ∀ j, (t.launch? j).map Launch.sansFresh = (s.launch? j).map Launch.sansFresh

/-- The device beside a chained word's agent: as `Beside`, and chain values move (R123, R126). -/
structure BesideChain (s t : State) (n : Nat) : Prop where
  rest : { t with waves := s.waves, teams := s.teams, launches := s.launches, cur := s.cur } = s
  others : ∀ m, m ≠ n → (t.wave? m).map Wave.sansChains = (s.wave? m).map Wave.sansChains
  teams : ∀ j, (t.team? j).map Team.sansQueues = (s.team? j).map Team.sansQueues
  launches : ∀ j, (t.launch? j).map Launch.sansFresh = (s.launch? j).map Launch.sansFresh

/-- The split goes on at the clause's next word, or at the next clause header after its last one; the wave's other splits
stand as they were. -/
structure GoesOn (e : Env) (t : State) (w' : Wave) : Prop where
  cur : t.cur = if e.sp.atLast then none else some (e.n, e.k)
  place : (Tab.find w'.splits e.k).map (fun p => { p with windows := [] }) = some { e.sp.advance with windows := [] }
  splits : ∀ j, j ≠ e.k → Tab.find w'.splits j = Tab.find e.w.splits j

/-- The word of an instruction completes: `exec` answers a next state, the wave goes on after the word, and `P` says what
the word did. -/
def Completes (s : State) (i : Instr) (e : Env) (P : State → Wave → Prop) : Prop :=
  ∃ t w', exec i s = .next t ∧ t.wave? e.n = some w' ∧ GoesOn e t w' ∧ P t w'

/-- What a V or O destination of one register or a pair holds in a lane (R100). -/
def Wave.shows (w : Wave) (d : Operand) (regs lane : Nat) : W64 :=
  match d with
  | .v n => if regs = 1 then (w.vreg n.toNat lane).setWidth 64 else (w.vreg (n.toNat + 1) lane ++ w.vreg n.toNat lane : W64)
  | .o n => if regs = 1 then (w.oreg n.toNat lane).setWidth 64 else (w.oreg (n.toNat + 1) lane ++ w.oreg n.toNat lane : W64)
  | _ => 0

/-- A value cut to one register or a pair. -/
def cut (regs : Nat) (x : W64) : W64 := if regs = 1 then (lo32 x).setWidth 64 else x

/-- The lane executes. -/
abbrev Env.executes (e : Env) (l : Nat) : Prop := l ∈ lanesOf e.exec

/-- The value of the nearest executing lane below a lane, or the chain input of the wave (R123). -/
def Env.prevOf (e : Env) (vals : Nat → W64) (l : Nat) : W64 :=
  match ((lanesOf e.exec).filter fun j => decide (j < l)).getLast? with
  | some j => vals j
  | none => e.carry

/-- The carry a lane of an instruction sees: that of R123 where the instruction is chained. -/
def Env.carryOf (e : Env) (i : Instr) (vals : Nat → W64) (l : Nat) : W64 :=
  if i.chainSlot.isSome then e.prevOf vals l else e.carry

/-- The V, O and L registers beside a destination keep their values, and every register does in lanes that do not execute
(R101, R121). -/
structure LaneFrame (e : Env) (d : Operand) (regs : Nat) (w' : Wave) : Prop where
  v : ∀ m l, l < 32 → (¬ e.executes l ∨ RegName.v m ∉ operandRegs regs d) → w'.vreg m l = e.w.vreg m l
  o : ∀ m l, l < 32 → (¬ e.executes l ∨ RegName.o m ∉ operandRegs regs d) → w'.oreg m l = e.w.oreg m l
  l : ∀ l, l < 32 → ¬ e.executes l → w'.lreg l = e.w.lreg l
  rest : w'.sansLanes = e.w.sansLanes

/-- The executing lanes receive their values in the destination and in L, and the flags they raise stick (R101, R121, R123,
R207). `f` gives a lane's value and flags from the carry it sees. -/
def LaneResults (e : Env) (i : Instr) (d : Operand) (regs : Nat) (f : Nat → W64 → W64 × Flags) (w' : Wave) : Prop :=
  ∃ vals : Nat → W64,
    (∀ l, e.executes l → vals l = cut regs (f l (e.carryOf i vals l)).1 ∧ w'.shows d regs l = vals l ∧ w'.lreg l = vals l) ∧
    w'.fstat = (if e.w.drover then e.w.fstat else
      (lanesOf e.exec).foldl (fun a l => a ||| (f l (e.carryOf i vals l)).2) e.w.fstat) ∧
    LaneFrame e d regs w'

/-- The form of a value instruction with an S destination (R104): one value, computed in the lowest active lane where its
guard holds there; nothing otherwise. `sx` fills bits 63..32 of a 32-bit value with its sign. -/
def ScalarResult (e : Env) (d : Operand) (regs : Nat) (sx : Bool) (f : Nat → W64 → W64 × Flags) (w' : Wave) : Prop :=
  w'.idle = (if e.exec.getLsbD e.first then
    (e.w.writeS d (if regs = 1 ∧ sx then (lo32 (f e.first 0).1).signExtend 64 else cut regs (f e.first 0).1)).orFlags
      (f e.first 0).2
  else e.w).idle

/-- A value instruction (R261, R288) completes with the values and flags of `f`. -/
def ValueRule (s : State) (i : Instr) (d : Operand) (regs : Nat) (sx : Bool) (e : Env) (f : Nat → W64 → W64 × Flags) : Prop :=
  Completes s i e fun t w' =>
    if i.scalar then Beside s t e.n ∧ ScalarResult e d regs sx f w'
    else (if i.chainSlot.isSome then BesideChain s t e.n else Beside s t e.n ∧ w'.chains = e.w.chains) ∧
      LaneResults e i d regs f w'

/-! ### Round mode (R183–R185) -/

/-- What a split keeps of a word that is left to the bell in some lanes: its carry, what it has popped and its executing mask. -/
def Retry.left (lanes : W32) (carry : W64) (pops : Tab W64) (mask : W32) : Retry :=
  { lanes := lanes, skip := false, counted := false, carry := carry, repop := false, pops := pops, replies := [], execMask := mask,
    owed := none }

/-- The word is left to the bell in some lanes: its round has ended, its split stands at it with what it has popped, and nothing else has
happened (R183, R184). -/
def Defers (s : State) (i : Instr) (e : Env) (lanes : W32) : Prop :=
  ∃ t w', exec i s = .next t ∧ t.cur = none ∧ t.wave? e.n = some w' ∧ w'.roundEnded = true ∧ w'.bellSplit = some e.k ∧
    Tab.find w'.splits e.k = some { e.sp with retry := some (Retry.left lanes e.carry e.pops e.exec) } ∧
    (∀ j, j ≠ e.k → Tab.find w'.splits j = Tab.find e.w.splits j) ∧ w'.idle = e.w.idle ∧ Beside s t e.n

/-- The word retires with actions in its wave's buffer, which the bell performs (R182, R185). -/
def Buffers (s : State) (i : Instr) (e : Env) (acts : List Act) : Prop :=
  Completes s i e fun t w' => Beside s t e.n ∧ w'.idle = ({ e.w with buffer := e.w.buffer ++ acts } : Wave).idle

/-- The round of the agent ends before the word, for what its split waits for (R183). -/
def EndsRound (s : State) (i : Instr) (e : Env) (x : Wait) : Prop :=
  ∃ t w', exec i s = .next t ∧ t.cur = none ∧ t.wave? e.n = some w' ∧ w'.roundEnded = true ∧
    Tab.find w'.splits e.k = some { e.sp with waiting := x } ∧ (∀ j, j ≠ e.k → Tab.find w'.splits j = Tab.find e.w.splits j) ∧
    w'.idle = e.w.idle ∧ Beside s t e.n

/-- A word is performed at the bell, in the lanes that its issue has left to it (R183, R184): nothing that it consumes has an
uncorrectable error, and the registers it names are still there. -/
structure AtBell (s : State) (i : Instr) (e : Env) : Prop where
  bell : s.atBell = true
  round : s.isRound e.w = true
  cur : s.cur = some (e.n, e.k)
  wave : s.wave? e.n = some e.w
  split : Tab.find e.w.splits e.k = some e.sp
  active : e.active = if e.w.drover then 1 else e.sp.mask
  retry : ∃ mask, e.sp.retry = some (Retry.left e.exec 0 e.pops mask)
  carry : e.carry = 0
  chain : i.chainSlot = none
  ranges : rangesOk e.w (s.teamOf e.w) i = true
  intact : s.badLane e i = none
  parts : (e.part i).all (fun p => !(s.badParts.contains p)) = true

/-- The word has its effect in its environment: when it is issued in ordinary mode, or at the bell in round mode. -/
def Performs (s : State) (i : Instr) (h : Head) (e : Env) : Prop := s.isRound e.w = false ∧ Executes s i h e ∨ AtBell s i e

/-- The word is issued in round mode. -/
def InRound (s : State) (i : Instr) (h : Head) (e : Env) : Prop := s.isRound e.w = true ∧ s.atBell = false ∧ Executes s i h e

end Sys2Proof.Machine
end

