-- ==== Sys2Proof/Safety/Numbers.lean ====
section
/-!
DEFINITION. Floating-point encodings as exact numbers, read from their fields alone (R189), and what it means that a result is an
exact value rounded once (R195, R196).
-/
namespace Sys2Proof.Machine

/-- The exponent field of an encoding is all ones (R189). -/
def Fmt.topExp (f : Fmt) (x : Nat) : Prop := x / 2 ^ f.fbits % 2 ^ f.ebits = 2 ^ f.ebits - 1

/-- A NaN of a format with infinities (R189). -/
def Fmt.nanCode (f : Fmt) (x : Nat) : Prop := f.topExp x ∧ x % 2 ^ f.fbits ≠ 0

/-- A signalling NaN of a format with infinities: its most significant fraction bit is 0 (R193). -/
def Fmt.snanCode (f : Fmt) (x : Nat) : Prop := f.nanCode x ∧ x % 2 ^ f.fbits < 2 ^ (f.fbits - 1)

/-- A finite encoding of a format with infinities. -/
def Fmt.finiteCode (f : Fmt) (x : Nat) : Prop := x < 2 ^ f.bits ∧ ¬ f.topExp x

/-- An encoding's value in units of the smallest subnormal (R189). Over the infinities the formula gives values beyond every finite
one. -/
def Fmt.units (f : Fmt) (x : Nat) : Int :=
  let ef := x / 2 ^ f.fbits % 2 ^ f.ebits
  let fr := x % 2 ^ f.fbits
  let u : Int := if ef = 0 then fr else (2 ^ f.fbits + fr) * 2 ^ (ef - 1)
  if x / 2 ^ (f.ebits + f.fbits) % 2 = 1 then -u else u

/-- How many units of the smallest subnormal make 1. -/
def Fmt.one (f : Fmt) : Int := 2 ^ (2 ^ (f.ebits - 1) - 2 + f.fbits)

/-- The encoding of an infinity of a format with infinities (R189). -/
def Fmt.infCode (f : Fmt) (neg : Bool) : Nat := (if neg then 2 ^ (f.bits - 1) else 0) + (2 ^ f.ebits - 1) * 2 ^ f.fbits

/-- The sign bit of an encoding is set. -/
def Fmt.negCode (f : Fmt) (x : Nat) : Bool := decide (x / 2 ^ (f.bits - 1) % 2 = 1)

/-- Zero of a sign. -/
def Fmt.zeroCode (f : Fmt) (neg : Bool) : Nat := if neg then 2 ^ (f.bits - 1) else 0

/-- What an overflow gives under a mode in a format with infinities (R196): infinity, or the largest finite value. -/
def Fmt.overflowCode (f : Fmt) (rm : Rounding) (neg : Bool) : Nat :=
  if rm = .rne ∨ (rm = .ru ∧ neg = false) ∨ (rm = .rd ∧ neg = true) then f.infCode neg else f.infCode neg - 1

/-- The exact value `x`, of which `unit` make the smallest subnormal, exceeds the largest finite value once it is rounded with an
unbounded exponent (R196): it reaches the value that would follow, or the middle before it, or goes beyond the largest, as the mode has
it. -/
def Fmt.exceeds (f : Fmt) (rm : Rounding) (unit x : Int) : Prop :=
  let most : Int := f.units (f.infCode false - 1) * unit
  let gap : Int := most - f.units (f.infCode false - 2) * unit
  match rm with
  | .rne => 2 * most + gap ≤ 2 * x.natAbs
  | .rz => most + gap ≤ x.natAbs
  | .ru => if x < 0 then most + gap ≤ x.natAbs else most < x.natAbs
  | .rd => if x < 0 then most < x.natAbs else most + gap ≤ x.natAbs

/-- The exact value `x`, non-zero and rounded with an unbounded exponent, is smaller in magnitude than the smallest normal (R196). The
values next below the smallest normal are half a unit of the smallest subnormal apart then. -/
def Fmt.tiny (f : Fmt) (rm : Rounding) (unit x : Int) : Prop :=
  let least : Int := 2 ^ f.fbits * unit
  x ≠ 0 ∧ match rm with
  | .rne => 4 * x.natAbs < 4 * least - unit
  | .rz => x.natAbs < least
  | .ru => if x < 0 then x.natAbs < least else 2 * x.natAbs ≤ 2 * least - unit
  | .rd => if x < 0 then 2 * x.natAbs ≤ 2 * least - unit else x.natAbs < least

/-- A result is the exact value `x`, of which `unit` make the smallest subnormal, rounded once under a mode (R195). Where
the value does not exceed the format, the result is the value of the format that the mode names, with the sign of the exact value,
inexact tells whether it differs from the exact one, and underflow whether it is tiny besides; where it exceeds the format, the result is
what an overflow gives, and overflow and inexact are raised (R196). No other flag is raised. -/
def Fmt.RoundsTo (f : Fmt) (rm : Rounding) (unit x : Int) (r : Nat × Flags) : Prop :=
  let val (c : Nat) : Int := f.units c * unit
  let away (c : Nat) : Nat := (val c - x).natAbs
  (r.2 &&& fOF ≠ 0 ↔ f.exceeds rm unit x) ∧ (r.2 &&& fUF ≠ 0 ↔ r.2 &&& fNX ≠ 0 ∧ f.tiny rm unit x) ∧ r.2 &&& ~~~(fOF ||| fUF ||| fNX) = 0 ∧
  (x ≠ 0 → f.negCode r.1 = decide (x < 0)) ∧
  if r.2 &&& fOF = 0 then
    f.finiteCode r.1 ∧ (r.2 &&& fNX = 0 ↔ val r.1 = x) ∧
    match rm with
    | .rne => ∀ c, f.finiteCode c → away r.1 ≤ away c ∧ (away r.1 = away c → val c = val r.1 ∨ r.1 % 2 = 0)
    | .rz => 0 ≤ val r.1 * x ∧ (val r.1).natAbs ≤ x.natAbs ∧
        ∀ c, f.finiteCode c → (val c).natAbs ≤ x.natAbs → (val c).natAbs ≤ (val r.1).natAbs
    | .ru => x ≤ val r.1 ∧ ∀ c, f.finiteCode c → x ≤ val c → val r.1 ≤ val c
    | .rd => val r.1 ≤ x ∧ ∀ c, f.finiteCode c → val c ≤ x → val c ≤ val r.1
  else r.2 &&& fNX ≠ 0 ∧ r.1 = f.overflowCode rm (decide (x < 0)) ∧ ∀ c, f.finiteCode c → (val c).natAbs < x.natAbs

/-- A result is the exact value `x`, in units of the square of the smallest subnormal, rounded once. -/
def Fmt.RoundsOnce (f : Fmt) (rm : Rounding) (x : Int) (r : Nat × Flags) : Prop := f.RoundsTo rm f.one x r

/-- A NaN result (R193): the canonical NaN `nan`, and invalid exactly where some operand is a signalling NaN. -/
def Fmt.GivesNan (f : Fmt) (nan : Nat) (ops : List Nat) (r : Nat × Flags) : Prop :=
  r.1 = nan ∧ ((∃ x ∈ ops, f.snanCode x) → r.2 = fNV) ∧ ((∀ x ∈ ops, ¬ f.snanCode x) → r.2 = 0)

/-- The sum of two operands, the second with sign `nb`, of which some is no finite value (R290): NaN for a NaN operand and for infinities
of opposite sign, else the infinity. -/
def Fmt.SumSpecial (f : Fmt) (nan a b : Nat) (nb : Bool) (r : Nat × Flags) : Prop :=
  let inf (x : Nat) : Prop := f.topExp x ∧ ¬ f.nanCode x
  (f.nanCode a ∨ f.nanCode b → f.GivesNan nan [a, b] r) ∧
  (inf a → inf b → f.negCode a ≠ nb → r = (nan, fNV)) ∧
  (inf a → ¬ f.nanCode b → (inf b → f.negCode a = nb) → r = (f.infCode (f.negCode a), 0)) ∧
  (inf b → ¬ f.topExp a → r = (f.infCode nb, 0))

/-- The product of two operands of which some is no finite value (R290). -/
def Fmt.ProductSpecial (f : Fmt) (nan a b : Nat) (r : Nat × Flags) : Prop :=
  let inf (x : Nat) : Prop := f.topExp x ∧ ¬ f.nanCode x
  let zero (x : Nat) : Prop := ¬ f.topExp x ∧ f.units x = 0
  (f.nanCode a ∨ f.nanCode b → f.GivesNan nan [a, b] r) ∧
  (inf a ∧ zero b ∨ zero a ∧ inf b → r = (nan, fNV)) ∧
  (inf a ∧ ¬ f.nanCode b ∧ ¬ zero b ∨ inf b ∧ ¬ f.nanCode a ∧ ¬ zero a → r = (f.infCode (f.negCode a != f.negCode b), 0))

/-- An addend or a product formed without rounding (R200): a NaN, an infinity, or a number of units with its sign, which a zero has
too. -/
inductive Exact where
  | nan
  | inf (neg : Bool)
  | num (neg : Bool) (units : Int)
  deriving DecidableEq, Repr

/-- An encoding as an exact value in units of its format's smallest subnormal. In E4M3 the one NaN pattern of each sign alone is not
finite (R189). -/
def Fmt.exact (f : Fmt) (x : Nat) : Exact :=
  if f.finiteTop then if x % 2 ^ (f.bits - 1) = 2 ^ (f.bits - 1) - 1 then .nan else .num (f.negCode x) (f.units x)
  else if x / 2 ^ f.fbits % 2 ^ f.ebits ≠ 2 ^ f.ebits - 1 then .num (f.negCode x) (f.units x)
  else if x % 2 ^ f.fbits = 0 then .inf (f.negCode x) else .nan

/-- A product of exact values (R200, R201): a zero or an infinity takes the XOR of the signs, and zero times infinity is NaN. -/
def Exact.mul : Exact → Exact → Exact
  | .nan, _ | _, .nan => .nan
  | .inf a, .inf b => .inf (a != b)
  | .inf a, .num b v | .num b v, .inf a => if v = 0 then .nan else .inf (a != b)
  | .num a v, .num b w => .num (a != b) (v * w)

/-- An exact value in a unit `k` times smaller. -/
def Exact.finer (k : Int) : Exact → Exact
  | .num a v => .num a (v * k)
  | x => x

/-- The number of units of an exact value. -/
def Exact.units : Exact → Int
  | .num _ v => v
  | _ => 0

/-- The sign of an exact value is minus. -/
def Exact.negative : Exact → Bool
  | .num a _ | .inf a => a
  | .nan => false

/-- An exact sum (R200): NaN for a NaN or for infinities of both signs, else an infinity among the addends, else the sum, whose zero is
−0 where every addend is −0. -/
def Exact.sum (xs : List Exact) : Exact :=
  if .nan ∈ xs ∨ (.inf false ∈ xs ∧ .inf true ∈ xs) then .nan
  else if .inf false ∈ xs then .inf false
  else if .inf true ∈ xs then .inf true
  else
    let v := (xs.map Exact.units).sum
    .num (if v = 0 then xs.all Exact.negative else decide (v < 0)) v

/-- The exact value `x`, of which `unit` make the format's smallest subnormal, is delivered by the cases of R200. -/
def Fmt.Delivers (f : Fmt) (nan : Nat) (unit : Int) (x : Exact) (r : Nat × Flags) : Prop :=
  match x with
  | .nan => r = (nan, fNV)
  | .inf neg => r = (f.infCode neg, 0)
  | .num neg v => if v = 0 then r = (f.zeroCode neg, 0) else f.RoundsTo .rne unit v r

/-- The sign of an exact sum of zero (R196, R290): that of both addends where they agree, else minus in RD alone. -/
def zeroSign (rm : Rounding) (na nb : Bool) : Bool := if na = nb then na else decide (rm = .rd)

/-- The truth of a condition of FCMP between two encodings (R194): infinities compare as values beyond every finite one. -/
def Fmt.truth (f : Fmt) (c : FloatCond) (x y : Nat) : Prop :=
  let nan := f.nanCode x ∨ f.nanCode y
  match c with
  | .eq => ¬ nan ∧ f.units x = f.units y
  | .ne => nan ∨ f.units x ≠ f.units y
  | .lt => ¬ nan ∧ f.units x < f.units y
  | .le => ¬ nan ∧ f.units x ≤ f.units y
  | .gt => ¬ nan ∧ f.units x > f.units y
  | .ge => ¬ nan ∧ f.units x ≥ f.units y
  | .un => nan
  | .or => ¬ nan

/-- The integer `n` is `u / k` rounded under a mode. -/
def RoundsToInt (rm : Rounding) (u k n : Int) : Prop :=
  match rm with
  | .rne => 2 * (n * k - u).natAbs ≤ k.natAbs ∧ (2 * (n * k - u).natAbs = k.natAbs → n % 2 = 0)
  | .rz => 0 ≤ n * u ∧ n.natAbs * k.natAbs ≤ u.natAbs ∧ u.natAbs < (n.natAbs + 1) * k.natAbs
  | .ru => u ≤ n * k ∧ n * k < u + k
  | .rd => n * k ≤ u ∧ u < n * k + k

end Sys2Proof.Machine

namespace Sys2Proof

/-- The canonical NaN of each type (R193). -/
def FloatTy.canonicalNan : FloatTy → Nat
  | .f64 => 0x7FF8000000000000
  | .f32 => 0x7FC00000
  | .f16 => 0x7E00
  | .bf16 => 0x7FC0

/-- The condition raises invalid for every NaN operand (R194). -/
def FloatCond.ordering : FloatCond → Bool
  | .lt | .le | .gt | .ge => true
  | _ => false

end Sys2Proof
end

