-- ==== Sys2Proof/Safety/Values.lean ====
section
/-!
DEFINITION. The words claims about computed values are stated in: operands as exact integers and as bits, and the rule that an
instruction computes a value from them.
-/
namespace Sys2Proof.Machine

/-- An operand's value of an integer type in a lane (R188, R231, R261). -/
def State.intAt (s : State) (e : Env) (t : IntTy) (x : Operand) (l : Nat) (prev : W64) : Int := t.value (s.readInt e t.regs x l prev)

/-- Bit `i` of an operand of 32 or 64 bits in a lane; there is none beyond its width. -/
def State.bitAt (s : State) (e : Env) (w64 : Bool) (x : Operand) (l : Nat) (prev : W64) (i : Nat) : Bool :=
  decide (i < widthOf w64) && (s.readInt e (regsOf w64) x l prev).getLsbD i

/-- An operand read as an unsigned 32-bit value in a lane. -/
def State.countAt (s : State) (e : Env) (x : Operand) (l : Nat) (prev : W64) : Nat := (s.read32 e x l prev).toNat

/-- Where the instruction executes, it completes with the values and the flags of `f` (R261, R288). -/
def Computes (s : State) (i : Instr) (h : Head) (e : Env) (d : Operand) (regs : Nat) (sx : Bool)
    (f : Nat → W64 → W64 × Flags) : Prop :=
  Executes s i h e → ValueRule s i d regs sx e f

/-- Where the instruction executes, it completes with values of which every one has bits 0 to w − 1 as `g` gives them, and
raises no flag. -/
def ComputesBits (s : State) (i : Instr) (h : Head) (e : Env) (d : Operand) (w64 : Bool) (g : Nat → W64 → Nat → Bool) : Prop :=
  ∃ f : Nat → W64 → W64, (∀ l p j, j < widthOf w64 → (f l p).getLsbD j = g l p j) ∧
    Computes s i h e d (regsOf w64) false fun l p => (f l p, 0)

/-- How many of the first `n` places hold a property. -/
def countTrue (n : Nat) (p : Nat → Bool) : Nat := ((List.range n).filter p).length

/-- A wave but for P, the flags and the errors in register elements. -/
def Wave.sansPreds (w : Wave) : Wave := { w.idle with p := [], fstat := 0, bad := [] }

/-- The executing lanes receive their truth values in a predicate destination, and the flags they raise stick; a write to P7
is discarded, and every other predicate bit keeps its value (R99, R207). -/
structure PredResults (e : Env) (d : Operand) (f : Nat → Bool × Flags) (w' : Wave) : Prop where
  bits : ∀ m l, l < 32 → w'.pbit m l = if d = .p (BitVec.ofNat 3 m) ∧ m < 7 ∧ e.executes l then (f l).1 else e.w.pbit m l
  flags : w'.fstat = if e.w.drover then e.w.fstat else (lanesOf e.exec).foldl (fun a l => a ||| (f l).2) e.w.fstat
  rest : w'.sansPreds = e.w.sansPreds

/-- An instruction with a predicate destination completes with the truth values and flags of `f`. -/
def PredRule (s : State) (i : Instr) (d : Operand) (e : Env) (f : Nat → Bool × Flags) : Prop :=
  Completes s i e fun t w' => Beside s t e.n ∧ PredResults e d f w'

/-- An instruction writes a value of its own in every executing lane of a V or O destination, and raises no flag. -/
def LaneWrites (s : State) (i : Instr) (d : Operand) (regs : Nat) (e : Env) (f : Nat → W64) : Prop :=
  Completes s i e fun t w' => Beside s t e.n ∧ w'.chains = e.w.chains ∧ LaneResults e i d regs (fun l _ => (f l, 0)) w'

/-- An instruction writes one value: in every executing lane of a V or O destination, or once into an S register where some lane
executes (R104, R273, R278). -/
def WritesOnce (s : State) (i : Instr) (d : Operand) (regs : Nat) (e : Env) (x : W64) : Prop :=
  match d with
  | .s n => Completes s i e fun t w' => Beside s t e.n ∧ w'.idle = (if e.exec ≠ 0 then e.w.setS n.toNat x else e.w).idle
  | _ => LaneWrites s i d regs e fun _ => x

/-- The truth of a condition between two integers (R266). -/
def intTruth (c : IntCond) (x y : Int) : Prop :=
  match c with
  | .eq => x = y | .ne => x ≠ y | .lt => x < y | .le => x ≤ y | .gt => x > y | .ge => x ≥ y

/-- A word retires, and its wave keeps everything but the progress of its issue. -/
def OnlyRetires (s : State) (i : Instr) (e : Env) : Prop := Completes s i e fun t w' => Beside s t e.n ∧ w'.idle = e.w.idle

/-- Where the instruction executes, it completes with float results of which every one is as `P` says. -/
def ComputesFloat (s : State) (i : Instr) (h : Head) (e : Env) (d : Operand) (regs : Nat) (P : Nat → W64 → Nat × Flags → Prop) : Prop :=
  ∃ f : Nat → W64 → Nat × Flags, (∀ l p, P l p (f l p)) ∧ Computes s i h e d regs false fun l p => bits64 (f l p)

/-- The lanes of FRCPV: each receives its result and its flag, and raises the flags of the reciprocal (R204, R296). -/
def PivotResults (e : Env) (i : Instr) (d c : Operand) (regs : Nat) (f : Nat → W64 → Nat × Flags × Bool) (w' : Wave) : Prop :=
  ∃ vals : Nat → W64,
    (∀ l, e.executes l → vals l = cut regs (BitVec.ofNat 64 (f l (e.carryOf i vals l)).1) ∧ w'.shows d regs l = vals l ∧
      w'.lreg l = vals l) ∧
    (∀ m l, l < 32 → w'.pbit m l = if c = .p (BitVec.ofNat 3 m) ∧ m < 7 ∧ e.executes l then (f l (e.carryOf i vals l)).2.2
      else e.w.pbit m l) ∧
    w'.fstat = (if e.w.drover then e.w.fstat else
      (lanesOf e.exec).foldl (fun a l => a ||| (f l (e.carryOf i vals l)).2.1) e.w.fstat) ∧
    (∀ m l, l < 32 → (¬ e.executes l ∨ RegName.v m ∉ operandRegs regs d) → w'.vreg m l = e.w.vreg m l) ∧
    (∀ m l, l < 32 → (¬ e.executes l ∨ RegName.o m ∉ operandRegs regs d) → w'.oreg m l = e.w.oreg m l) ∧
    (∀ l, l < 32 → ¬ e.executes l → w'.lreg l = e.w.lreg l) ∧
    { w'.sansLanes with p := [] } = { e.w.sansLanes with p := [] }

end Sys2Proof.Machine
end

