-- ==== Sys2Proof/Safety/Flow.lean ====
section
/-!
DEFINITION. The words claims about control flow, traps and accesses are stated in.
-/
namespace Sys2Proof.Machine

/-! ### Where a split goes -/

/-- A clause header stands at an address of the executing agent's owner, and may be fetched there (R136). -/
def HeaderAt (s : State) (e : Env) (a : W64) : Prop :=
  a.toNat < 2 ^ 56 ∧ a.toNat % 8 = 0 ∧
    ∃ x, s.fetchWord (s.dieOf e.w) e.sp.fetched e.w.owner a.toNat = .word x ∧ x.extractLsb' 60 4 = 0xD#4

/-- The lanes, join context and stack of a split. -/
def Split.lanesAndStack (p : Split) : Split := { Split.start 0 p.mask with context := p.context, stack := p.stack, spill := p.spill }

/-- The word retires and its split stands between clauses at a clause address, with the lanes, join context and stack of `q`; the
wave's other splits stand as `f` says. -/
def GoesTo (s : State) (i : Instr) (e : Env) (a : W64) (q : Split) (others : Tab Split) (P : State → Wave → Prop) : Prop :=
  ∃ t w' p', exec i s = .next t ∧ t.cur = none ∧ t.wave? e.n = some w' ∧ Tab.find w'.splits e.k = some p' ∧
    p'.pc = a ∧ p'.clause = [] ∧ p'.waiting = .none ∧ p'.lanesAndStack = q.lanesAndStack ∧
    (∀ j, j ≠ e.k → Tab.find w'.splits j = Tab.find others j) ∧ P t w'

/-- The split goes to an address, and its wave keeps everything but the progress of its issue. -/
def JumpsTo (s : State) (i : Instr) (e : Env) (a : W64) : Prop :=
  GoesTo s i e a e.sp e.w.splits fun t w' => Beside s t e.n ∧ w'.idle = e.w.idle

/-! ### Traps -/

/-- The word takes no effect and raises a trap: the cause, its masks and the word are the trap's. -/
def Raises (s : State) (i : Instr) (e : Env) (tr : Trap) : Prop := exec i s = .next (s.raise e.n tr)

/-- The trap record of a wave can be written at once: the 640 bytes of its trap area are mapped, writable, at home, and no boundary
that is down lies before them (R68). -/
def Recordable (s : State) (w : Wave) : Prop :=
  ∃ o, s.owner? w.owner = some o ∧ o.recordFault (s.trecOf w).toNat = none ∧
    s.cutOff (s.dieOf w) o (s.trecOf w).toNat 640 = false ∧ ∀ i, i < 40 → o.remoteAt ((s.trecOf w).toNat + 16 * i) = none

/-! ### Memory -/

/-- The lane accesses of an instruction pass their checks and land at `at'` (R145): no page of theirs is remote, no boundary that is
down lies before them, and where the access reads, no sector it reads is uncorrectable. -/
def Lands (s : State) (e : Env) (sp : Space) (size : Nat) (k : AccKind) (reads : Bool) (lanes : List Nat) (ea : Nat → Int)
    (at' : Nat → Target) : Prop :=
  ∀ l ∈ lanes, s.checkAccess e.w sp (ea l) size k = .ok (at' l) ∧ s.targetRemote e.w (at' l) = none ∧
    s.cutTarget e.w (at' l) size = false ∧ (reads = true → s.badTarget e.w (at' l) size = false)

/-- The address of a lane's access from its address operand and its offset (R302). -/
def State.laneEa (s : State) (e : Env) (sp : Space) (a c : Operand) (l : Nat) : Int :=
  accessAddress sp (s.laneAddress e sp a l) (s.laneOffset e c l)

/-- The unsigned value of the bytes at a target, as the wave's loads see them (R156, R181). -/
def State.seenAt (s : State) (w : Wave) (t : Target) (n : Nat) : Nat := ofLe (s.readTarget w (s.viewOf w) t n)

/-- A loaded value (R303): zero-extended, or sign-extended under .sx. -/
def signExtended (sx : Bool) (n v : Nat) : Int := if sx ∧ 2 ^ (8 * n - 1) ≤ v then (v : Int) - 2 ^ (8 * n) else v

/-- The storage location of a byte of a target in global memory. -/
def State.byteOf (s : State) (w : Wave) : Target → Nat → Option Nat
  | .global va, i => (s.owner? w.owner).bind fun o => (o.pageAt (va + i)).bind fun p => p.frame.map fun f => p.place f (va + i)
  | .window .., _ => none

/-- The place of a byte of a target in a core's scratchpad: the core and the byte. -/
def scratchByte : Target → Nat → Option (Nat × Nat)
  | .window _ t off, i => some (t.core, t.windowBase + off + i)
  | .global _, _ => none

/-- Every byte of memory and of the scratchpads keeps its value beside the `n` bytes at each of some targets. A sector or granule
stored to that had an uncorrectable error is written whole (R218), and a granule of another owner is zeroed first (R56): the bytes of
such a sector or granule are left out. -/
structure MemFrame (s t : State) (w : Wave) (ts : List Target) (n : Nat) : Prop where
  mem : ∀ k, (∀ x ∈ ts, ∀ i, i < n → s.byteOf w x i ≠ some k) →
    (Tab.find s.ecc (k / 64) = some .uncorrectable → ∀ x ∈ ts, ∀ i, i < n → (s.byteOf w x i).map (· / 64) ≠ some (k / 64)) →
    t.mem.read k = s.mem.read k
  scratch : ∀ c y, (∀ x ∈ ts, ∀ i, i < n → scratchByte x i ≠ some (c, y)) →
    (∀ x ∈ ts, ∀ i, i < n → (scratchByte x i).map (fun z => (z.1, z.2 / 64)) = some (c, y / 64) →
      y / 64 ∉ (s.core c).badSpad ∧ ∀ id tm off, x = .window id tm off → Tab.find (s.core c).spadTag (y / 64) = some tm.owner) →
    Tab.find (t.core c).spad y = Tab.find (s.core c).spad y

/-- The address of an access made once per split execution (R302, R312). -/
def State.uniEa (s : State) (e : Env) (sp : Space) (a c : Operand) : Int :=
  accessAddress sp (match sp with | .global => s.uni e a | _ => BitVec.ofNat 64 ((s.uni e a).toNat % 2 ^ 32)) (s.laneOffset e c e.first)

/-- The value a lane stores, before it is cut to the access's size (R304). -/
def State.storedValue (s : State) (e : Env) (sz : Size) (b : Operand) (l : Nat) : Nat :=
  match sz with
  | .b128 => (e.w.readQuad b l).toNat
  | .b64 => (s.read64 e b l 0).toNat
  | _ => s.countAt e b l 0

/-- The machine with the bytes of some lanes stored, one lane after another in ascending order (R133, R156). -/
def State.storedBy (s : State) (w : Wave) (lanes : List Nat) (at' : Nat → Target) (bytes : Nat → List Byte) : State :=
  lanes.foldl (fun u l => u.writeTarget w (at' l) (bytes l)) s

/-- The lanes receive quads, and L their low 64 bits; every other register keeps its value (R100, R101). -/
def QuadWrites (s : State) (i : Instr) (d : Operand) (e : Env) (f : Nat → BitVec 128) : Prop :=
  Completes s i e fun t w' => Beside s t e.n ∧ w'.chains = e.w.chains ∧ w'.fstat = e.w.fstat ∧
    (∀ l, e.executes l → w'.readQuad d l = f l ∧ w'.lreg l = (f l).setWidth 64) ∧ LaneFrame e d 4 w'

/-- The machine with the atomic events of some lanes performed, one after another: `new` gives what a lane writes over the value it
finds, where it writes. -/
def State.atomicBy (s : State) (w : Wave) (n : Nat) (at' : Nat → Target) (new : Nat → W64 → Option W64) (lanes : List Nat) : State :=
  lanes.foldl (fun u l => match new l (u.nowAt w (at' l) n) with
    | some v => u.writeTarget w (at' l) (leBytes n v.toNat)
    | none => u) s

/-- The value an executing lane finds in its atomic event: what the lanes below it have left. -/
def State.oldAt (s : State) (w : Wave) (n : Nat) (at' : Nat → Target) (new : Nat → W64 → Option W64) (lanes : List Nat) (l : Nat) : W64 :=
  (s.atomicBy w n at' new (lanes.filter fun j => decide (j < l))).nowAt w (at' l) n

end Sys2Proof.Machine
end

