-- ==== Sys2Proof/Safety/Teams.lean ====
section
/-!
DEFINITION. The words claims about barriers, rings, engines and teams are stated in.
-/
namespace Sys2Proof.Machine

/-- The word retires and its split goes on after it, and then the trap is raised: a trap of kind after (R210). `P` says what the word
did before. -/
def RaisesAfter (s : State) (i : Instr) (e : Env) (tr : Trap) (P : State → Wave → Prop) : Prop :=
  ∃ u w', u.wave? e.n = some w' ∧ GoesOn e u w' ∧ P u w' ∧ exec i s = .next (u.raise e.n tr)

/-- The word takes no effect, and its split waits; a wait that does not stall its wave leaves the other splits to go on (R118,
R120). -/
def Waits (s : State) (i : Instr) (e : Env) (x : Wait) : Prop := exec i s = .next (s.pause e x)

/-! ### Barriers (R313–R318) -/

/-- A barrier operand names barrier `n` of a team: the agent's own, or that at a peer position of its group. What holds the barrier
has no uncorrectable error (R218). -/
def NamesBarrier (s : State) (e : Env) (peer : Bool) (a : Operand) (tid : Nat) (t : Team) (n : Nat) : Prop :=
  ∃ own, s.teamOf e.w = some own ∧ s.team? tid = some t ∧ n < t.barCount ∧ Part.barrier tid n ∉ s.badParts ∧
    if peer then (s.uni e a).toNat < 2 ^ 13 ∧ n = (s.uni e a).toNat % 2 ^ 10 ∧
      s.peerTeam e.w.team own ((s.uni e a).toNat / 2 ^ 10) = some (tid, t)
    else n = (s.uni e a).toNat ∧ tid = e.w.team ∧ t = own

/-- A barrier after an event that counts arrivals and bytes: where both counts are then met, the phase completes, what is counted
beyond them is discarded, and the failed mark passes to the observers (R316). The counts stay within 0..EA and 0..2^40 - 1 (R313). -/
def Barrier.counted (x : Barrier) (arrivals bytes : Nat) : Barrier :=
  let b := min (x.bytes + bytes) (2 ^ 40 - 1)
  if x.ea ≤ x.arrivals + arrivals ∧ x.eb ≤ b then
    { x with phase := !x.phase, arrivals := 0, bytes := 0, observedFailed := x.failed, failed := false }
  else { x with arrivals := min (x.arrivals + arrivals) x.ea, bytes := b }

/-- The word sets a barrier of a team, and nothing else but what `P` says of its wave. -/
def SetsBarrier (s : State) (i : Instr) (e : Env) (tid n : Nat) (y : Barrier) (P : Wave → Prop) : Prop :=
  Completes s i e fun u w' => Beside (s.updBarrier tid n fun _ => y) u e.n ∧ P w'

/-! ### Engines (R170–R175, R323–R332) -/

/-- The word retires with no effect, and then its suppressing trap is raised (R134, R312). -/
def RaisesSuppressing (s : State) (i : Instr) (e : Env) (tr : Trap) : Prop :=
  ∃ u w', u.wave? e.n = some w' ∧ w'.idle = e.w.idle ∧ Beside s u e.n ∧ exec i s = .next (u.raise e.n tr)

/-- The word starts an engine operation, the one added, and its token is busy; `wp` holds the wave's write pointers then. -/
def StartsEngine (s : State) (i : Instr) (e : Env) (x : Engine) (wp : Tab W64) : Prop :=
  let busy := match x.token with
    | some k => e.w.busy ||| (1#8 <<< k)
    | none => e.w.busy
  Completes s i e fun u w' => w'.idle = ({ e.w with busy := busy, wp := wp } : Wave).idle ∧
    Beside { s with engines := Tab.put s.engines s.nextId x, nextId := s.nextId + 1 } u e.n

/-- In round mode the operation waits in the wave's buffer for the bell (R185). -/
def BuffersEngine (s : State) (i : Instr) (e : Env) (x : Engine) (wp : Tab W64) : Prop :=
  let busy := match x.token with
    | some k => e.w.busy ||| (1#8 <<< k)
    | none => e.w.busy
  Completes s i e fun u w' => w'.idle = ({ e.w with busy := busy, wp := wp, buffer := e.w.buffer ++ [.engine x] } : Wave).idle ∧
    Beside s u e.n

/-- The limits of a copy descriptor for a copy instruction (R324, R325, R327–R330). -/
structure CopyDesc.Fits (d : CopyDesc) (k : CopyKind) : Prop where
  tiled : d.format ≠ 0 → d.rowb % 64 = 0
  raw : k = .cpgath ∨ k = .cppeer → d.format = 0
  growb : if k = .cpgath then 1 ≤ d.growb ∧ d.growb ≤ d.rowb else d.growb = 0
  quant : d.qmode ≠ 0 → k = .cpout ∧ d.format = 2 ∧ d.rowb % 128 = 0
  stride : k = .cpout ∨ k = .cpsh → d.rowb ≤ d.gstride
  scoff : d.format ≠ 5 → d.format ≠ 6 → d.qmode = 0 → d.scoff = 0

/-- What a copy is asked to do passes the checks at issue (R326): the windows it touches, the global range, the index list, and for a
CPSH its shadow set. -/
structure CopyPasses (s : State) (e : Env) (t : Team) (o : Owner) (d : CopyDesc) (x : CopyArgs) (set : Nat) : Prop where
  fits : d.Fits x.kind
  scale : x.kind = .cpout → match x.quant with
    | some q => d.qmode ≠ 0 ∧ tensorScaleOk q.toNat = true
    | none => d.qmode = 0
  mask : x.mask < 2 ^ 8
  own : windowFault d x.kind t.windowSize x.s 1 (decide (x.kind = .cpin ∨ x.kind = .cpgath)) = none
  peers : ∀ p, p < 8 → x.mask.testBit p = true → ∃ q, s.peerTeam e.w.team t p = some q ∧
    windowFault d x.kind q.2.windowSize x.dest 2 true = none
  range : globalFault d x.kind x.g = none
  list : ∀ a, x.kind = .cpgath → x.index = .list a → a + 4 * d.rows ≤ 2 ^ 56 ∧ a % 4 = 0
  shadow : if x.kind = .cpsh then o.setOf d x.g = some set else set = 0

/-- The engine operation of a copy as its issue leaves it. -/
def State.copyEngine (s : State) (e : Env) (t : Team) (d : CopyDesc) (x : CopyArgs) (set tok ch : Nat) : Engine :=
  { wave := e.n, team := e.w.team, token := some tok, channel := some ch, pageWait := none,
    op := .copy { kind := x.kind, desc := d, g := x.g, s := x.s, dest := x.dest,
                  peers := ((List.range 8).filter x.mask.testBit).filterMap fun p =>
                    (s.peerTeam e.w.team t p).map fun q => (q.1, q.2.windowBase)
                  scale := x.quant.getD 0, index := x.index, set := set, phase := 0, reads := [], got := [], writes := [],
                  written := 0, row := 0, cancelled := false, asked := none, answer := none } }

/-- An engine operation is a copy of a wave on a channel. -/
def Engine.copyOn (x : Engine) (n ch : Nat) : Prop := x.wave = n ∧ x.channel = some ch ∧ ∃ c, x.op = .copy c

/-- After an engine operation: it is gone, its token is not busy where no other operation names it, and a failure marks the token; the
other tokens stand (R172, R219). -/
def EngineEnds (s u : State) (id : Nat) (x : Engine) (failed : Bool) : Prop :=
  u.engines = Tab.drop s.engines id ∧ ∀ w, s.wave? x.wave = some w → ∃ w', u.wave? x.wave = some w' ∧
    ∀ k, k < 8 →
      w'.busy.getLsbD k = (w.busy.getLsbD k && (x.token != some k ||
        (s.engines.any fun y => y.1 != id && y.2.wave == x.wave && y.2.token == some k) ||
        w.buffer.any fun a => match a with
          | .engine y => y.token == some k
          | _ => false)) ∧
      w'.tokenErrors.getLsbD k = (w.tokenErrors.getLsbD k || failed && x.token == some k)

/-! ### Accumulators (R336–R345) -/

/-- Element (i, j) of some tiles, as a team reads it. -/
def State.accAt (s : State) (t : Team) (tid : Nat) (tiles : List Nat) (i j : Nat) : Nat :=
  (s.core t.core).readTile t.owner tid tiles i j

/-- A core's storage lists no value that no tag speaks of (R56, R67). -/
def Core.Tagged (c : Core) : Prop :=
  (∀ y, Tab.find c.spadTag (y / 64) = none → Tab.find c.spad y = none) ∧ (∀ k, Tab.find c.accTag (k / 32) = none → Tab.find c.acc k = none)

/-- Every core's storage stands under its tags, and a window that the device saved covers whole granules (R56, R98). -/
def State.Tagged (s : State) : Prop := (∀ c, (s.core c).Tagged) ∧ ∀ x ∈ s.saved, x.2.window.length % 64 = 0

/-- Every accumulator element of a core that the team may read keeps its value but those of some rows of some tiles. -/
def AccFrame (s u : State) (t : Team) (tiles : List Nat) (kept : Nat → Nat → Prop) : Prop :=
  (s.core t.core).Tagged → ∀ ep tile i j, i < 32 → j < 32 → (tile ∉ tiles ∨ kept i j) →
    (u.core t.core).readAcc t.owner ep tile i j = (s.core t.core).readAcc t.owner ep tile i j

/-- The device beside a word that changes accumulators of a core. -/
def BesideAcc (s u : State) (t : Team) (n : Nat) : Prop :=
  ∃ acc tag bad, Beside (s.updCore t.core fun c => { c with acc := acc, accTag := tag, badAcc := bad }) u n

/-- A word of group 9 executes: its tiles are those of its team, and no earlier multiply on them is under way (R337). -/
structure OnTiles (s : State) (i : Instr) (h : Head) (e : Env) (t : Team) (pair : Bool) (x : Operand) (tiles : List Nat) : Prop where
  executes : Executes s i h e
  runs : e.exec ≠ 0
  team : s.teamOf e.w = some t
  named : tiles = t.tilesOf pair x
  distinct : tiles.Nodup
  ready : s.tileBusy e.n tiles = false

/-- The bytes of a team's window as an agent's loads see them (R156, R181). -/
def State.windowSeen (s : State) (e : Env) (t : Team) (off n : Nat) : Nat :=
  ofLe (s.windowBytes (s.viewOf e.w).buf e.w.team t off n)

/-- The bytes of a team's window as they are stored. -/
def State.windowHeld (s : State) (tid : Nat) (t : Team) (off n : Nat) : Nat := ofLe (s.windowBytes [] tid t off n)

/-- The place of element `k` of row `i` in the layouts of ACCST and ACCLD: offset and size (R344). -/
def accPlace (f : AccFmt) (off i k : Nat) : Nat × Nat :=
  match f with
  | .f32 | .s32 => (off + 2048 * (k / 16) + 64 * i + 4 * (k % 16), 4)
  | .f64 => (off + 2048 * (k / 8) + 64 * i + 8 * (k % 8), 8)
  | .bf16 | .f16 => (off + 64 * i + 2 * k, 2)
  | .e4m3 | .e5m2 => (off + 64 * i + k, 1)

/-! ### The hurdle array (R346–R353) -/

/-- A cell's test holds for a sample (R347, R351): the missing direction decides a feature that is not present or is NaN; otherwise the
feature is compared with the threshold exactly. -/
def Cell.holds (c : Cell) (cfg : W64) (x : Nat → Nat) : Prop :=
  let missing := cfgFeatures cfg < c.feat ∨ fp32.nanCode (x c.feat)
  (missing → c.miss = true) ∧ (¬ missing → match cfgFormat cfg with
    | 0 => fp32.truth .le (x c.feat) c.thr
    | 1 => fp32.truth .le (x c.feat) (c.thr / 2 ^ 16 * 2 ^ 16)
    | _ => fp32.units (x c.feat) ≤ ((BitVec.ofNat 16 c.thr).toInt) * fp32.one)

/-- Leaf `i` of a tree stays when every VALID cell whose test fails holds it in its FMASK, a cell speaking of the leaves of its own column
(R348, R351). -/
def Tree.keeps (t : Tree) (cfg : W64) (x : Nat → Nat) (i : Nat) : Prop :=
  ∀ c ∈ t.cells, c.1 = i / 64 → ¬ c.2.holds cfg x → c.2.fmask.getLsbD (i % 64) = true

/-- The byte of column `k` of a tree in an exit row (R351): the exit is the lowest leaf that stays. -/
def Tree.exitByte (t : Tree) (cfg : W64) (x : Nat → Nat) (k v : Nat) : Prop :=
  let exit (i : Nat) : Prop := i < 64 * t.cols ∧ t.keeps cfg x i ∧ ∀ j, j < i → ¬ t.keeps cfg x j
  let malformed : Prop := ∀ i, i < 64 * t.cols → ¬ t.keeps cfg x i
  if t.cells = [] then v = if t.cols = 1 then 0xFD else if k = 0 then 0 else if k = 1 then 0xFD else 0xFE
  else if k = 0 then exit v ∨ malformed ∧ v = if t.cols = 1 then 0xFF else 0
  else if k = 1 then ¬ malformed ∧ v = 0xFE ∨ malformed ∧ v = 0xFF
  else v = 0xFE

/-- The leaf that an exit row selects in a tree; none where the row counts as malformed (R353). -/
def Tree.leafIn (t : Tree) (row : Nat → Nat) : Option Nat :=
  if t.cols = 1 then (if row t.lead ≤ 63 then some (row t.lead) else none)
  else if row (t.lead + 1) = 0xFE ∧ row t.lead < 64 * t.cols then some (row t.lead) else none

/-- The sum of the leaves that an exit row selects, tree after tree (R353): the value and its flags. -/
def leafSum (row : Nat → Nat) (leaf : Nat → Nat) : List Tree → Nat × Flags → Nat × Flags
  | [], r => r
  | t :: ts, r =>
    if t.cells = [] then leafSum row leaf ts r
    else match t.leafIn row with
      | none => leafSum row leaf ts ((fp32.add .rne r.1 0x7FC00000).1, r.2 ||| fNV)
      | some i =>
        let y := fp32.add .rne r.1 (leaf (256 * t.lead + 4 * i))
        leafSum row leaf ts (y.1, r.2 ||| y.2)

/-- A word of group A executes in a team that holds the hurdle claim (R354). -/
structure OnHurdle (s : State) (i : Instr) (h : Head) (e : Env) (t : Team) : Prop where
  executes : Executes s i h e
  runs : e.exec ≠ 0
  team : s.teamOf e.w = some t
  claim : t.hurdle = true ∧ t.task = false

/-! ### The bell (R180–R185) -/

/-- A bell finds nothing more to do where its one agent `n` stands as `w`: no action of it is left, its team runs and is not pre-empted, and
nothing of its launch waits to be placed, to be committed or to claim. -/
def QuietBell (v : State) (lid n : Nat) (w : Wave) : Prop :=
  ∃ l o, v.launch? lid = some l ∧ v.owner? l.owner = some o ∧ v.wave? n = some w ∧ v.agentsOf lid = [(n, w)] ∧ w.life = .running ∧
    w.buffer = [] ∧ (∀ x ∈ v.teamsOfLaunch lid, v.team? x.1 = some x.2 ∧ v.teamRuns x.2 = true ∧ x.2.preempt = none) ∧
    v.nextUnit l = none ∧ o.commits = [] ∧ (∀ r, (roundRecords lid o).head? = some r → v.taskCore l o r.2 = none) ∧
    ∀ x ∈ v.waves, ∀ p ∈ x.2.splits, p.2.claims = false

/-- What such a bell leaves as its agent's actions have left it. -/
def AfterBell (v u : State) : Prop :=
  u.mem = v.mem ∧ (∀ c, u.core c = v.core c) ∧ u.engines = v.engines ∧ (∀ j, u.team? j = v.team? j) ∧ (∀ j, u.owner? j = v.owner? j) ∧
    u.atBell = false

end Sys2Proof.Machine
end

