-- ==== Sys2Proof/Safety/Work.lean ====
section
/-!
DEFINITION. The words claims about tasks, launches from a program, budgets and handlers are stated in.
-/
namespace Sys2Proof.Machine

/-- A record of `n` bytes that an agent reads stands at home, is aligned and readable, and none of its sectors is uncorrectable
(R145, R312). -/
def ReadableRecord (s : State) (w : Wave) (o : Owner) (a n : Nat) : Prop :=
  (∀ i, i < n / 8 → o.checkGlobal (a + 8 * i) 8 .load = none ∧ o.remoteAt (a + 8 * i) = none) ∧ s.badGlobal (s.dieOf w) o a n = false

/-- The task record at an address as an agent's loads see it (R83, R181). -/
def State.cardAt (s : State) (w : Wave) (o : Owner) (a : Nat) : TaskRec := cardOf (o.bytes w.owner (s.viewOf w) a 32)

/-- POST and SPAWN accept a record: KIND is 0 or 1, and its reserved bits are zero (R85). -/
def TaskRec.postable (r : TaskRec) : Prop := r.kind < 2 ∧ r.reservedOk = true

/-- The queue a target names: in round mode always the queue of die 0 (R90, R356). -/
def TargetIs (s : State) (e : Env) (o : Owner) (tg : PostTarget) (c : Operand) (q : Nat) : Prop :=
  let core := s.coreOf e.w
  if s.isRound e.w then q = 512
  else match tg with
  | .own => q = core
  | .die => q = 512 + core / 64
  | .neighbour =>
    let at' (k : Nat) : Nat := core / 8 * 8 + (core + k) % 8
    (∃ k, 1 ≤ k ∧ k < 8 ∧ q = at' k ∧ q ∈ o.placement ∧ ∀ j, 1 ≤ j → j < k → at' j ∉ o.placement) ∨
    (q = core ∧ ∀ j, 1 ≤ j → j < 8 → at' j ∉ o.placement)
  | .core => q = (s.uni e c).toNat ∧ q ∈ o.placement

/-- A committed record is the copy of a card that an agent posts (R80, R85, R87, R90). -/
structure PostedAs (s : State) (e : Env) (o : Owner) (card : TaskRec) (depth : W32) (index : W64) (r : QueueRec) : Prop where
  type : r.type = 2 ∧ r.len = 40 ∧ r.committed = true ∧ r.held = false ∧ r.released = false
  producer : r.ptag = 2 ^ 15 + s.coreOf e.w
  kept : r.card.kind = card.kind ∧ r.card.entry = card.entry ∧ r.card.arg = card.arg ∧ r.card.join = card.join
  filled : r.card.ownerTag = BitVec.ofNat 32 e.w.owner ∧ r.card.rnd = s.isRound e.w ∧ r.card.prio = min card.prio o.ceiling ∧ r.card.depth = depth
  index : r.index = index
  launch : r.launch = e.w.launch

/-- An agent posts some cards to a queue, one after another: each takes a pool entry and the next task index (R85, R88, R90). -/
def Posts (s u : State) (e : Env) (o : Owner) (q : Nat) (cards : List (TaskRec × W32)) : Prop :=
  ∃ o' Q Q' rs, u.owner? e.w.owner = some o' ∧ Tab.find o.queues q = some Q ∧ Tab.find o'.queues q = some Q' ∧
    { o' with pool := o.pool, taskCounter := o.taskCounter, queues := o.queues } = o ∧
    o'.pool = o.pool + cards.length ∧ o'.taskCounter = o.taskCounter + BitVec.ofNat 64 cards.length ∧
    (∀ j, j ≠ q → Tab.find o'.queues j = Tab.find o.queues j) ∧
    Q'.recs.filter (fun r => r.type != 0) = Q.recs.filter (fun r => r.type != 0) ++ rs ∧ rs.length = cards.length ∧
    (∀ (i : Nat) c r, cards[i]? = some c → rs[i]? = some r → PostedAs s e o c.1 c.2 (o.taskCounter + BitVec.ofNat 64 i) r) ∧
    Beside { s with owners := u.owners } u e.n ∧ ∀ j, j ≠ e.w.owner → u.owner? j = s.owner? j

/-- The lanes that may post: those whose depth the nesting limit allows, while the pool holds (R88, R357). -/
def postingLanes (w : Wave) (o : Owner) : List Nat → Nat → List Nat
  | [], _ => []
  | l :: r, pool =>
    if (w.depthOf l + 1).toNat ≤ o.nesting ∧ pool < o.poolQuota then l :: postingLanes w o r (pool + 1) else postingLanes w o r pool

/-- The decrements of some lanes at the join objects they name, one after another (R86, R360). -/
def State.decrementAll (s : State) (w : Wave) (addr : Nat → W64) (lanes : List Nat) : State :=
  lanes.foldl (fun u l => (u.decrement (u.writer w) w.owner (addr l).toNat (u.continuationQueue w) w.launch).2) s

/-- Some lane's decrement finds a count of zero. -/
def State.findsZero (s : State) (w : Wave) (addr : Nat → W64) : List Nat → Bool
  | [] => false
  | l :: r =>
    let x := s.decrement (s.writer w) w.owner (addr l).toNat (s.continuationQueue w) w.launch
    x.1 || State.findsZero x.2 w addr r

/-- RTU and PACK find what they need of a user handler: its context, and for RTU a single split with nothing open (R215, R366). -/
def InHandler (e : Env) (c : TrapCtx) : Prop := e.w.trapCtx = some c ∧ e.w.hmode = .user

/-- A split at its word, which executes again in some lanes: from a carry and popped values it held, or with its pops taken anew.
`counted` tells that the word has retired already (R134). -/
def Split.again (p : Split) (lanes : W32) (counted : Bool) (carry : W64) (repop : Bool) (pops : Tab W64) (mask : W32) : Split :=
  { p with waiting := .none,
           retry := some { lanes := lanes, skip := false, counted := counted, carry := carry, repop := repop, pops := pops,
                           replies := [], execMask := mask, owed := none } }

/-- A split at its word, which is to pass it by, its lanes counting as guarded off: the word still retires where it has not
`counted` already, and where its chain input is `taken` it hands on the carry it held (R132, R215). -/
def Split.past (p : Split) (counted taken : Bool) (carry : W64) (mask : W32) : Split :=
  { p with waiting := .none,
           retry := some { lanes := 0, skip := true, counted := counted, carry := carry, repop := !taken, pops := [],
                           replies := [], execMask := mask, owed := none } }

/-- A split of the wave stands at its trapping word after a return under mode retry (R133, R134, R215): a precise trap takes the word
again, a suppressing one the faulting and the deferred lanes anew, a resuming one the faulting lanes with the carry and the popped values it
held, and a trap after the word leaves it where it stood. What the split has fetched from a home package it fetches again. -/
def RetriedSplit (c : TrapCtx) (p q : Split) : Prop :=
  let p := { p with fetched := [] }
  match c.kind with
  | 0 => if c.cause = 0x31 then q = { p with skipBreak := true } else q = p
  | 1 => q = p.again (c.faultMask ||| c.deferred) true c.carry true [] c.execMask
  | 2 => q = p.again c.faultMask p.counted c.carry false c.pops c.execMask
  | _ => q = p

/-- The wave leaves its user handler: its splits, its turn and L are those of the trap context, but for the trapping split, which is
`q`. -/
def Returned (s u : State) (e : Env) (c : TrapCtx) (q : Split) : Prop :=
  ∃ w', u.wave? e.n = some w' ∧ Beside s u e.n ∧ u.cur = none ∧ w'.trapCtx = none ∧ w'.hmode = .none ∧ w'.latch = c.latch ∧
    w'.nextSplit = c.turn ∧ w'.begun = c.begun ∧ Tab.find w'.splits c.split = some q ∧ (∀ j, j ≠ c.split → Tab.find w'.splits j = Tab.find c.splits j) ∧
    ({ w' with trapCtx := e.w.trapCtx, hmode := e.w.hmode, latch := e.w.latch } : Wave).idle = e.w.idle

end Sys2Proof.Machine
end

