-- ==== Sys2Proof/Safety/Device.lean ====
section
/-!
DEFINITION. The words claims about the module, its ports and its owners' commands are stated in.
-/
namespace Sys2Proof.Machine

/-- The choice between two flash slots (R17, R58): the valid one; of two, the one with the higher version, slot 0 at equal versions. -/
def Chosen (ok0 ok1 : Prop) (v0 v1 : Nat) (r : Option Nat) : Prop :=
  (ok0 → ok1 → r = if v0 < v1 then some 1 else some 0) ∧ (ok0 → ¬ ok1 → r = some 0) ∧ (¬ ok0 → ok1 → r = some 1) ∧
  (¬ ok0 → ¬ ok1 → r = none)

/-- The device event goes to a next state, of which `P` holds. -/
def Gives (s : State) (i : Instr) (P : State → Prop) : Prop := ∃ u, exec i s = .next u ∧ P u

/-- A message between packages reaches an open owner: it arrives whole, its authentication verifies, and its nonce is new (R30). -/
structure Heard (s : State) (id : Nat) (o : Owner) (e : Envelope) : Prop where
  owner : s.owner? id = some o
  receives : s.receives e.port e.frame = true
  authentic : e.authentic = true
  fresh : e.nonce ∉ o.nonces

/-- The state with the nonce of a message taken (R30). -/
def State.hears (s : State) (id : Nat) (e : Envelope) : State :=
  s.updOwner id fun x => { x with nonces := x.nonces ++ [e.nonce] }

/-- An access of another package ends, with an answer or with none (R33, R34): its request is gone, the answer stands where the copy, the
command or the split that asked looks for it, and a posted access that failed is counted at its wave. `t` is the machine once the
message is taken. -/
def RemoteEnds (s t : State) (i : Instr) (n : Nat) (r : RemoteReq) (ok : Bool) (data : List Byte) : Prop :=
  let t : State := { t with remote := Tab.drop s.remote n }
  let more (p : Split) (x : Retry) : Split := { p with retry := some { x with replies := x.replies ++ [{ lane := r.lane, ok := ok, data := data }] } }
  let asks (P : Prop) : Prop := r.engine = none → r.posted = false → P
  let splitAsks (P : Wave → Prop) : Prop := asks (∀ w, s.wave? r.wave = some w → w.buffer = [] → P w)
  let goes (P : Wave → Prop) : Prop := Gives s i fun u => u = { t with waves := u.waves } ∧ ∃ w', u.wave? r.wave = some w' ∧ P w'
  (∀ id y c, r.engine = some id → s.engine? id = some y → y.op = .copy c → c.asked = some n → Gives s i fun u =>
    u = { t with engines := u.engines } ∧ u.engine? id = some { y with op := .copy { c with answer := some (ok, data) } }) ∧
  (∀ w, r.engine = none → r.posted = true → r.lane ≠ 35 → s.wave? r.wave = some w → Gives s i fun u =>
    u = { t with waves := u.waves, saved := u.saved } ∧
      u.wave? r.wave = some { w with failedStp := w.failedStp + if ok then 0 else 1 }) ∧
  (r.lane < 32 → splitAsks fun w => ∀ p x, r.handler = w.trapCtx.isSome → Tab.find w.splits r.split = some p → p.retry = some x →
    goes fun w' => Tab.find w'.splits r.split = some (more p x)) ∧
  (r.lane < 32 → splitAsks fun w => ∀ c p x, r.handler = false → w.trapCtx = some c → Tab.find c.splits r.split = some p →
    p.retry = some x → goes fun w' => w'.splits = w.splits ∧ ∃ c', w'.trapCtx = some c' ∧ Tab.find c'.splits r.split = some (more p x)) ∧
  (r.lane = 37 → splitAsks fun w => ∀ p a, r.handler = w.trapCtx.isSome → Tab.find w.splits r.split = some p → p.fetchAt = some a →
    goes fun w' => Tab.find w'.splits r.split = some { p with
      fetched := p.fetched ++ [(a, if ok then some (BitVec.ofNat 64 (ofLe data)) else none)], fetchAt := none, waiting := .none }) ∧
  (r.lane = 38 → asks (∀ c, s.cmd? r.owner r.split = some c → c.asked = some n → Gives s i fun u =>
    u = { t with owners := u.owners } ∧ u.cmd? r.owner r.split = some { c with asked := none, answer := some (ok, data) }))

/-- The machine after `k` times `n` frames are taken from the storage; none where it runs out (R149). -/
def State.takesFrames (s : State) (n : Nat) (die : Option Nat) : Nat → Option State
  | 0 => some s
  | k + 1 => (s.takeFrames n die).bind fun x => State.takesFrames x.2 n die k

/-- A dispatched command of an open owner, whose effect has not begun: no answer of a home package and no piece of an image is there
for it (R47). -/
structure Acts (s : State) (id k code : Nat) (o : Owner) (c : Cmd) : Prop where
  owner : s.owner? id = some o
  cmd : Tab.find o.cmds k = some c
  code : c.code = code
  phase : c.phase = .dispatched
  fresh : c.answer = none ∧ c.got = []
  up : s.phase ≠ .tripped

/-- A command has performed its last event with a status and its results (R47, R51). -/
def Finished (u : State) (id k status : Nat) (r0 r1 r2 : W64) : Prop :=
  ∃ y, u.cmd? id k = some y ∧ y.phase = .performed ∧ y.status = status ∧ y.r0 = r0 ∧ y.r1 = r1 ∧ y.r2 = r2

/-- A command fails a check, and nothing of it takes effect: the one change is that it is performed with the status (R398). -/
def Refuses (s : State) (i : Instr) (id k status : Nat) : Prop :=
  Gives s i fun u => Finished u id k status 0 0 0 ∧
    ∃ o o', s.owner? id = some o ∧ u.owner? id = some o' ∧ { o' with cmds := o.cmds } = o ∧
      (∀ j, j ≠ k → Tab.find o'.cmds j = Tab.find o.cmds j) ∧ (∀ j, j ≠ id → u.owner? j = s.owner? j) ∧ { u with owners := s.owners } = s

/-- A record of `len` bytes fits a ring, after a skip record of `skip` bytes where the region ends (R79, R81). -/
def Fits (r : RingCtl) (len skip : Nat) : Prop :=
  skip = (if 2 ^ r.log2 < r.reserve % 2 ^ r.log2 + len then 2 ^ r.log2 - r.reserve % 2 ^ r.log2 else 0) ∧
  r.reserve + skip + len ≤ r.release + 2 ^ r.log2

/-- A completion record fits the host ring, after a skip record of `skip` bytes where the region ends (R51). -/
def HostFits (s : State) (h : HostRing) (skip : Nat) : Prop :=
  skip = (if 2 ^ h.log2 < h.reserve % 2 ^ h.log2 + 48 then 2 ^ h.log2 - h.reserve % 2 ^ h.log2 else 0) ∧
  h.reserve + skip + 48 ≤ ofLe (s.hostBytes (h.control + 40) 8) + 2 ^ h.log2

/-- A completion record has been written and committed at an owner's host ring (R51): its bytes stand at its place, and both
counters of the control block have moved past it. The host keeps the control block outside the region. -/
structure RecordWritten (u : State) (id : Nat) (h : HostRing) (skip : Nat) (c : Completion) : Prop where
  ring : ∃ o, u.owner? id = some o ∧ o.completions = [] ∧
    o.hostRing = { h with reserve := h.reserve + skip + 48, commit := h.reserve + skip + 48 }
  counters : u.hostBytes (h.control + 16) 8 = leBytes 8 (h.reserve + skip + 48) ∧
    u.hostBytes (h.control + 24) 8 = leBytes 8 (h.reserve + skip + 48)
  bytes : (h.base + 2 ^ h.log2 + 48 ≤ h.control ∨ h.control + 64 ≤ h.base) →
    u.hostBytes (h.base + (h.reserve + skip) % 2 ^ h.log2) 48 = c.bytes

/-- A received message has been appended to its owner's command ring as a record, and is a command now (R31, R42). -/
def Appended (s u : State) (id : Nat) (o : Owner) (m : RxMessage) (skip : Nat) : Prop :=
  let n := o.cmdRing.reserve + skip + recordLength m
  u.rx = s.rx.erase m ∧ ∃ o', u.owner? id = some o' ∧ o'.cmdRing = { o.cmdRing with reserve := n, commit := n } ∧
    Tab.find o'.cmds o.nextCmd = some (Cmd.ofMessage m) ∧ o'.nextCmd = o.nextCmd + 1 ∧
    ∀ j, j ≠ o.nextCmd → Tab.find o'.cmds j = Tab.find o.cmds j

/-- What a newly opened owner holds (R39, R44, R45): the fields of its message, its keys, and nothing else. -/
structure OpenedAs (u : State) (id : Nat) (b : List Byte) (keys : OwnerKeys) : Prop where
  owner : ∃ o, u.owner? id = some o ∧ o.keys = keys ∧ o.nesting = leAt b 28 1 ∧ o.ceiling = leAt b 29 1 ∧
    o.protectedOnly = (leAt b 20 4).testBit 0 ∧ o.ownPackage = leAt b 268 4 ∧ o.peers.length = leAt b 264 4 ∧
    o.deadlineUs = (if leAt b 44 4 = 0 then 100 else leAt b 44 4) ∧ o.spanUs = (if leAt b 48 4 = 0 then 10000 else leAt b 48 4) ∧
    o.cmds = [] ∧ o.closing = false ∧ o.sets = [] ∧ o.joins = [] ∧ o.pool = 0

end Sys2Proof.Machine
end

