-- ==== Sys2Proof/Certificates/Slice0/Obligations.lean ====
section
/-!
DEFINITION. What is claimed of the KN-8 model: each statement formalises rules of the spec.
-/
section Statements

open Sys2Proof Sys2Proof.Machine

/-! ### The machine as a whole (R118, R224–R250) -/

/-- R228, R230–R250: the word an instruction is encoded in, with the literals its LIT operands take in order, decodes to it, with every
operand and modifier at every value its encoding admits; every instruction word has an encoding, and takes at most two literals (R232). -/
def Obligations.EncodedWordDecodes : Prop :=
  ∀ (i : Instr), i.wellFormed = true →
    (∀ w lits, encode i = some (w, lits) → decodeWord w lits = .ok i ∧ lits.length ≤ 2) ∧ (i.head?.isSome = true → (encode i).isSome = true)

/-- R228, R230, R238–R250: a few words written out from the encoding tables decode to the instructions they stand for; where an unused
field holds anything or a reserved modifier is set, the word is none. -/
def Obligations.SpecWordsDecode : Prop :=
  let h : Head := { gp := 7, gn := false, la := 0 }
  let guard1 : Head := { gp := 1, gn := false, la := 0 }
  (∀ x ∈ ([(0x00B8_0020_0740_0000, .iadd h .s32 (.v 2) (.v 1) (.prev 0)),
      (0x0338_3490_0B50_0010, .icmp h .s32 .lt (.p 1) (.v 2) .zero),
      (0x20F8_1020_1E00_D140, .ffma h .f32 .rne (.o 2) (.v 7) .l (.q 1)),
      (0x3078_0080_1000_0030, .cvtfi h .s32 .f32 .rd (.v 8) (.v 4)),
      (0x4048_307D_2800_0002, .voteMask guard1 (.s 7) (.p 2)),
      (0x5138_30A0_0000_0140, .call h 5 (.s 10)),
      (0x6078_0000_1807_D409, .st h .scratch .b32 (.v 6) (.v 7) .zero),
      (0x6138_0040_2005_D420, .atom h .addU32 .device (.v 4) (.v 8) (.v 5) .zero),
      (0x7038_000F_8FE4_D401, .bari h true (.imm 0x23) (.imm 0x24) .zero),
      (0x8038_000C_1305_F8C8, .cpin h 1 0 (.s 4) (.s 5) (.imm 0x23)),
      (0x9038_380C_1305_C18A, .mma h .bf16 true (.acc 0) (.s 4) (.s 5) (.s 6)),
      (0xA0B8_000C_330D_C390, .hrun h 2 (.s 12) (.s 13) (.s 14)),
      (0xB178_34AF_9000_0001, .claim h true false (.p 2) (.imm 0x24)),
      (0xC038_31EF_F000_0000, .srd h (.s 30) (.imm 0x3C))] : List (Nat × Instr)), decodeTableWord 64 x.1 = some x.2) ∧
  decodeTableWord 128 (0x28 * 2 ^ 64 + 0x71B8_30AC_2F51_F841) = some (.rqres h true (.s 10) (.s 11) (.lit 0x28) (.imm 0x21)) ∧
  (∀ x ∈ ([0x00B8_0020_0740_0001 + 2 ^ 3, 0x72B8_0000_0000_0040, 0x00B8_0020_0740_0040, 0xD000_0000_0000_0000] : List Nat),
    decodeTableWord 64 x = none)

/-- R118, R224–R227: where a wave's split stands at a word of its clause and can go on, and no input and no choice from outside comes first,
one step is `exec` of the instruction that the word decodes to with its literals; the debug agent holds a wave again that it let issue one
word (`State.stepped`), and one unit of time passes. Where an input is due, one step is that device step. The time that passes counts the clock, the sleeps
and since when a split's clause has been ready, and changes nothing else. -/
def Obligations.StepRunsDecodedWord : Prop :=
  ∀ (s : State) (i : Instr),
    (∀ n k w p, s.inputs = [] → s.sched = [] → s.cur = some (n, k) → s.wave? n = some w → Tab.find w.splits k = some p → p.clause ≠ [] →
      s.ready n k w p = true → decodeWord p.current (literalsOf (p.clause.headD 0) p.words p.word) = .ok i →
      (∀ t, exec i s = .next t → step s = .next (t.stepped n k p).tick) ∧
      (∀ x, exec i s = .fault x → step s = .fault x) ∧ (∀ x, exec i s = .refused x → step s = .refused x)) ∧
    (∀ r, s.inputs = i :: r → i.head? = none →
      (∀ t, exec i { s with inputs := r } = .next t → step s = .next t.tick) ∧
      (∀ x, exec i { s with inputs := r } = .fault x → step s = .fault x) ∧
      (∀ x, exec i { s with inputs := r } = .refused x → step s = .refused x)) ∧
    s.tick.clock = s.clock + 1 ∧ { s.tick with clock := s.clock, waves := s.waves } = s ∧
    let timeless (w : Wave) : Wave := { w with sleep := 0, splits := Tab.mapVal (fun _ p => { p with readySince := none }) w.splits }
    ∀ n, (s.tick.wave? n).map timeless = (s.wave? n).map timeless

/-- R20, R21, R56: after reset the device is off, no owner is open, no wave runs and no host command is under way; memory and every core's
storage stand in their forms. Memory that lists nothing is the model's form of an unwritten memory. -/
def Obligations.ResetMeetsInvariants : Prop :=
  State.reset.memWf ∧ State.reset.Tagged ∧ State.reset.phase = .off ∧ State.reset.mem = [] ∧
  (∀ n, State.reset.owner? n = none ∧ State.reset.wave? n = none ∧ State.reset.team? n = none ∧ State.reset.launch? n = none ∧
    State.reset.engine? n = none)

/-- Every step keeps the memory of the device, and the snapshot of every launch's round (R180), in the canonical form: addresses rise
strictly. -/
def Obligations.StepKeepsMemoryCanonical : Prop :=
  ∀ (s t : State), s.memWf → step s = .next t → t.memWf

/-- R56, R67: every step keeps a core's storage under its tags: no scratchpad byte and no accumulator element holds a value in a granule or
row that no owner's tag speaks of. -/
def Obligations.StepKeepsStorageTagged : Prop :=
  ∀ (s t : State), s.Tagged → step s = .next t → t.Tagged

/-! ### Integer instructions (R261–R267) -/

/-- R262: IADD, ISUB, IMUL, IMULH, IMAD, IABS and INEG compute the exact integer result modulo 2^w, in every lane that executes,
along a chain, or once into an S register. -/
def Obligations.IntegerArithmeticWraps : Prop :=
  ∀ (s : State) (h : Head) (e : Env) (t : IntTy) (w64 : Bool) (d a b c : Operand),
    Computes s (.iadd h t d a b) h e d t.regs (t == .s32)
      (fun l p => (wrap t.bits (s.intAt e t a l p + s.intAt e t b l p), 0)) ∧
    Computes s (.isub h t d a b) h e d t.regs (t == .s32)
      (fun l p => (wrap t.bits (s.intAt e t a l p - s.intAt e t b l p), 0)) ∧
    Computes s (.imul h t d a b) h e d t.regs (t == .s32)
      (fun l p => (wrap t.bits (s.intAt e t a l p * s.intAt e t b l p), 0)) ∧
    Computes s (.imulh h t d a b) h e d t.regs (t == .s32)
      (fun l p => (wrap t.bits ((s.intAt e t a l p * s.intAt e t b l p) >>> t.bits), 0)) ∧
    Computes s (.imad h t d a b c) h e d t.regs (t == .s32)
      (fun l p => (wrap t.bits (s.intAt e t a l p * s.intAt e t b l p + s.intAt e t c l p), 0)) ∧
    Computes s (.iabs h w64 d a) h e d (regsOf w64) (!w64)
      (fun l p => (wrap (widthOf w64) (s.intAt e (signedTy w64) a l p).natAbs, 0)) ∧
    Computes s (.ineg h w64 d a) h e d (regsOf w64) (!w64)
      (fun l p => (wrap (widthOf w64) (-s.intAt e (signedTy w64) a l p), 0))

/-- R262, R263, R265, R266: IMIN, IMAX, ICLAMP, IADDS, MOV and ISEL. IADDS limits the exact sum and raises IOV in a lane whose sum
lies outside the range; MOV.first takes the value of the lowest active lane into an S register. R264, R267: LEA adds the shifted index, extended from 32 bits, modulo 2^64; IDOT4 adds four byte products to C modulo
2^32, each byte extended as its modifier says. -/
def Obligations.IntegerSelectionAndAddressValues : Prop :=
  (∀ (s : State) (h : Head) (e : Env) (t : IntTy) (w64 : Bool) (d a b c : Operand),
      Computes s (.imin h t d a b) h e d t.regs (t == .s32)
        (fun l p => (wrap t.bits (min (s.intAt e t a l p) (s.intAt e t b l p)), 0)) ∧
      Computes s (.imax h t d a b) h e d t.regs (t == .s32)
        (fun l p => (wrap t.bits (max (s.intAt e t a l p) (s.intAt e t b l p)), 0)) ∧
      Computes s (.iclamp h t d a b c) h e d t.regs (t == .s32)
        (fun l p => (wrap t.bits (min (max (s.intAt e t a l p) (s.intAt e t b l p)) (s.intAt e t c l p)), 0)) ∧
      Computes s (.iadds h t d a b) h e d t.regs (t == .s32)
        (fun l p =>
          let sum := s.intAt e t a l p + s.intAt e t b l p
          (wrap t.bits (min (max sum t.min) t.max), if sum < t.min ∨ t.max < sum then fIOV else 0)) ∧
      Computes s (.mov h w64 false d a) h e d (regsOf w64) false (fun l p => (s.readInt e (regsOf w64) a l p, 0)) ∧
      (Executes s (.mov h w64 true d a) h e → Completes s (.mov h w64 true d a) e fun t w' => Beside s t e.n ∧
        w'.idle = (if e.exec.getLsbD e.first then e.w.writeS d (s.readInt e (regsOf w64) a e.first 0) else e.w).idle) ∧
      Computes s (.isel h w64 d a b c) h e d (regsOf w64) false
        (fun l p => (if e.w.readPred c l then s.readInt e (regsOf w64) a l p else s.readInt e (regsOf w64) b l p, 0))) ∧
  (∀ (s : State) (h : Head) (e : Env) (sh : BitVec 3) (zx sa sb : Bool) (d a b c : Operand),
      let byte (signed : Bool) (x : Operand) (l : Nat) (p : W64) (i : Nat) : Int :=
        let v := s.countAt e x l p / 256 ^ i % 256
        if signed ∧ 128 ≤ v then (v : Int) - 256 else v
      Computes s (.lea h sh zx d a b) h e d 2 false
        (fun l p => (wrap 64 ((s.read64 e a l p).toNat +
          s.intAt e (if zx then .u32 else .s32) b l p * 2 ^ sh.toNat), 0)) ∧
      Computes s (.idot4 h sa sb d a b c) h e d 1 false
        (fun l p => (wrap 32 (s.countAt e c l p + byte sa a l p 0 * byte sb b l p 0 + byte sa a l p 1 * byte sb b l p 1 +
          byte sa a l p 2 * byte sb b l p 2 + byte sa a l p 3 * byte sb b l p 3), 0)))

/-! ### Logic and bit instructions (R268–R271) -/

/-- R268: AND, OR, XOR, ANDN, NOT and BREV, bit by bit. R269: SHL and SHR bring in zeros and give 0 from a count of w on; SAR brings in copies of bit w − 1, whatever the count;
ROL rotates by the count modulo w. The count is B as an unsigned 32-bit value. R268, R270, R271: POPC, CLZ and CTZ count; BFX takes a field, zeros beyond the width, and fills with its top bit under
.sx; BFI replaces a field; PRMB selects bytes. -/
def Obligations.BitInstructionsByBit : Prop :=
  (∀ (s : State) (h : Head) (e : Env) (w64 : Bool) (d a b : Operand),
      ComputesBits s (.land h w64 d a b) h e d w64 (fun l p i => s.bitAt e w64 a l p i && s.bitAt e w64 b l p i) ∧
      ComputesBits s (.lor h w64 d a b) h e d w64 (fun l p i => s.bitAt e w64 a l p i || s.bitAt e w64 b l p i) ∧
      ComputesBits s (.lxor h w64 d a b) h e d w64 (fun l p i => s.bitAt e w64 a l p i != s.bitAt e w64 b l p i) ∧
      ComputesBits s (.andn h w64 d a b) h e d w64 (fun l p i => s.bitAt e w64 a l p i && !s.bitAt e w64 b l p i) ∧
      ComputesBits s (.lnot h w64 d a) h e d w64 (fun l p i => !s.bitAt e w64 a l p i) ∧
      ComputesBits s (.brev h w64 d a) h e d w64 (fun l p i => s.bitAt e w64 a l p (widthOf w64 - 1 - i))) ∧
  (∀ (s : State) (h : Head) (e : Env) (w64 : Bool) (d a b : Operand),
      let w := widthOf w64
      ComputesBits s (.shl h w64 d a b) h e d w64 (fun l p i =>
        let k := s.countAt e b l p
        decide (k ≤ i) && s.bitAt e w64 a l p (i - k)) ∧
      ComputesBits s (.shr h w64 d a b) h e d w64 (fun l p i => s.bitAt e w64 a l p (i + s.countAt e b l p)) ∧
      ComputesBits s (.sar h w64 d a b) h e d w64 (fun l p i => s.bitAt e w64 a l p (min (i + s.countAt e b l p) (w - 1))) ∧
      ComputesBits s (.rol h w64 d a b) h e d w64 (fun l p i => s.bitAt e w64 a l p ((i + w - s.countAt e b l p % w) % w))) ∧
  (∀ (s : State) (h : Head) (e : Env) (w64 sx : Bool) (d a b c : Operand),
      let w := widthOf w64
      (∃ f : Nat → W64 → W64,
        (∀ l p, (f l p).toNat = countTrue w (s.bitAt e w64 a l p)) ∧
        Computes s (.popc h w64 d a) h e d 1 false (fun l p => (f l p, 0))) ∧
      (∃ f : Nat → W64 → W64,
        (∀ l p, (f l p).toNat ≤ w ∧ (∀ i, w - (f l p).toNat ≤ i → i < w → s.bitAt e w64 a l p i = false) ∧
          ((f l p).toNat < w → s.bitAt e w64 a l p (w - 1 - (f l p).toNat) = true)) ∧
        Computes s (.clz h w64 d a) h e d 1 false (fun l p => (f l p, 0))) ∧
      (∃ f : Nat → W64 → W64,
        (∀ l p, (f l p).toNat ≤ w ∧ (∀ i, i < (f l p).toNat → s.bitAt e w64 a l p i = false) ∧
          ((f l p).toNat < w → s.bitAt e w64 a l p (f l p).toNat = true)) ∧
        Computes s (.ctz h w64 d a) h e d 1 false (fun l p => (f l p, 0))) ∧
      ComputesBits s (.bfx h w64 sx d a c) h e d w64 (fun l p i =>
        let off := s.countAt e c l p % 128
        let n := min (s.countAt e c l p / 256 % 128) w
        if i < n then s.bitAt e w64 a l p (off + i) else sx && decide (0 < n) && s.bitAt e w64 a l p (off + (n - 1))) ∧
      ComputesBits s (.bfi h w64 d a b c) h e d w64 (fun l p i =>
        let off := s.countAt e c l p % 128
        let n := min (s.countAt e c l p / 256 % 128) w
        if off ≤ i ∧ i < off + n then s.bitAt e w64 b l p (i - off) else s.bitAt e w64 a l p i) ∧
      ComputesBits s (.prmb h w64 d a b c) h e d w64 (fun l p i =>
        let pool (j k : Nat) : Bool := if j < w / 8 then s.bitAt e w64 a l p (8 * j + k) else s.bitAt e w64 b l p (8 * j + k - w)
        let sel := s.countAt e c l p / 16 ^ (i / 8) % 16
        if w64 then pool sel (i % 8)
        else if 8 ≤ sel then pool (sel - 8) 7 else pool sel (i % 8)))

/-! ### Lanes and predicates (R266, R272–R275) -/

/-- R266, R273, R275: ICMP, PLOP, PMOV to a predicate, ELECT, VOTE.same and VOTE.quorum set their predicate in every executing
lane and leave every other predicate bit; a quorum of more than 32 lanes is an illegal operand. -/
def Obligations.PredicatesSetPerLane : Prop :=
  ∀ (s : State) (h : Head) (e : Env) (t : IntTy) (cond : IntCond) (op1 op2 : PredOp) (neg w64 : Bool) (d a b c : Operand),
    let holds (op : PredOp) (x y : Bool) : Bool :=
      match op with
      | .and => x && y
      | .or => x || y
      | .xor => Bool.xor x y
      | .andn => x && !y
    let raise (f : Nat → Bool) (l : Nat) : Bool × Flags := (f l, 0)
    (Executes s (.icmp h t cond d a b) h e → ∃ f : Nat → Bool, PredRule s (.icmp h t cond d a b) d e (raise f) ∧
      ∀ l, f l = true ↔ intTruth cond (s.intAt e t a l 0) (s.intAt e t b l 0)) ∧
    (Executes s (.plop h op1 op2 neg d a b c) h e → PredRule s (.plop h op1 op2 neg d a b c) d e (raise fun l =>
      Bool.xor neg (holds op2 (holds op1 (e.w.readPred a l) (e.w.readPred b l)) (e.w.readPred c l)))) ∧
    (Executes s (.pmov h false d a) h e → PredRule s (.pmov h false d a) d e (raise fun l => s.countAt e a l 0 != 0)) ∧
    (Executes s (.elect h d) h e → PredRule s (.elect h d) d e (raise fun l =>
      decide (∀ j, j < l → j ∉ lanesOf e.exec))) ∧
    (Executes s (.voteSame h w64 d a) h e → PredRule s (.voteSame h w64 d a) d e (raise fun _ =>
      decide (∀ j ∈ lanesOf e.exec, ∀ k ∈ lanesOf e.exec,
        s.readInt e (regsOf w64) a j 0 = s.readInt e (regsOf w64) a k 0))) ∧
    (Executes s (.voteQuorum h d a b) h e → (s.uni e b).toNat ≤ 32 → PredRule s (.voteQuorum h d a b) d e (raise fun _ =>
      decide ((s.uni e b).toNat ≤ countTrue 32 fun j => decide (j ∈ lanesOf e.exec) && e.w.readPred a j))) ∧
    (Executes s (.voteQuorum h d a b) h e → e.exec ≠ 0 → 32 < (s.uni e b).toNat → Raises s (.voteQuorum h d a b) e (e.trap 0x02))

/-- R272–R275: SHFL takes the value of the lane its mode names within its segment where that lane executes, else its own; MATCH
writes the lowest lane of its value; VOTE.count and VOTE.mask write the number and the mask of the executing lanes that hold the
predicate; PMOV from a predicate writes 1 or 0. -/
def Obligations.LanesExchangeValues : Prop :=
  ∀ (s : State) (h : Head) (e : Env) (mode : ShuffleMode) (w64 : Bool) (d a b : Operand),
    (Executes s (.shfl h mode w64 d a b) h e → LaneWrites s (.shfl h mode w64 d a b) d (regsOf w64) e fun l =>
      let k := s.countAt e b l 0 % 32
      let code := s.countAt e b l 0 / 256 % 8
      let sw := if code ≤ 5 then 32 / 2 ^ code else 1
      let r := l % sw
      let j := match mode with
        | .lane => l / sw * sw + k % sw
        | .rot => l / sw * sw + (((r : Int) - k) % sw).toNat
        | .xor => l / sw * sw + (r ^^^ k) % sw
        | .rev => l / sw * sw + (sw - 1 - r)
      s.readInt e (regsOf w64) a (if j ∈ lanesOf e.exec then j else l) 0) ∧
    (Executes s (.matchLanes h w64 d a) h e → ∃ f : Nat → Nat,
      LaneWrites s (.matchLanes h w64 d a) d 1 e (fun l => BitVec.ofNat 64 (f l)) ∧
      ∀ l, e.executes l → e.executes (f l) ∧ s.readInt e (regsOf w64) a (f l) 0 = s.readInt e (regsOf w64) a l 0 ∧
        ∀ j, e.executes j → s.readInt e (regsOf w64) a j 0 = s.readInt e (regsOf w64) a l 0 → f l ≤ j) ∧
    (Executes s (.voteCount h d a) h e → WritesOnce s (.voteCount h d a) d 1 e
      (BitVec.ofNat 64 (countTrue 32 fun j => decide (j ∈ lanesOf e.exec) && e.w.readPred a j))) ∧
    (Executes s (.voteMask h d a) h e → ∃ m : W64, WritesOnce s (.voteMask h d a) d 1 e m ∧
      ∀ j, m.getLsbD j = (decide (j ∈ lanesOf e.exec) && e.w.readPred a j)) ∧
    (Executes s (.pmov h true d a) h e → LaneWrites s (.pmov h true d a) d 1 e fun l => if e.w.readPred a l then 1 else 0)

/-! ### Floating point (R288–R297) -/

/-- R288, R290, R294: FADD, FSUB, FMUL, FFMA and FSCALE complete with the arithmetic of their format. What that arithmetic is,
`Obligations.ArithmeticRoundsOnce` says. R204, R205, R295–R297: the functions complete in every executing lane with the function of their format; FSMX steps the pair of
maximum and sum; FRCPV, its threshold zero or normal, writes the guarded reciprocal, and its flag into every executing lane's
predicate. R199: the functions at zeros, infinities, NaNs, negative numbers, powers of two, integers and halves; R294: FSCALE rounds the exact
product once; R204: what FRCPV takes the reciprocal of; R205: the rows of its table. -/
def Obligations.FloatInstructionsComplete : Prop :=
  (∀ (s : State) (h : Head) (e : Env) (t : FloatTy) (rm : Rounding) (d a b c : Operand),
      let rd := s.readFloat e t.fmt
      Computes s (.fadd h t rm d a b) h e d t.regs false (fun l p => bits64 (t.fmt.add rm (rd a l p) (rd b l p))) ∧
      Computes s (.fsub h t rm d a b) h e d t.regs false (fun l p => bits64 (t.fmt.sub rm (rd a l p) (rd b l p))) ∧
      Computes s (.fmul h t rm d a b) h e d t.regs false (fun l p => bits64 (t.fmt.mul rm (rd a l p) (rd b l p))) ∧
      Computes s (.ffma h t rm d a b c) h e d t.regs false
        (fun l p => bits64 (t.fmt.fma rm (rd a l p) (rd b l p) (rd c l p))) ∧
      Computes s (.fscale h t d a b) h e d t.regs false
        (fun l p => bits64 (t.fmt.scale (rd a l p) (s.intAt e .s32 b l p)))) ∧
  (∀ (s : State) (h : Head) (e : Env) (f64 : Bool) (d a b c : Operand),
      let f := fmtOf f64
      let rd := s.readFloat e f a
      let rd32 := s.readFloat e fp32
      Computes s (.frcp h f64 d a) h e d (regsOf f64) false (fun l p => bits64 (f.rcp (rd l p))) ∧
      Computes s (.frsq h f64 d a) h e d (regsOf f64) false (fun l p => bits64 (f.rsqrt (rd l p))) ∧
      Computes s (.fsqrt h f64 d a) h e d (regsOf f64) false (fun l p => bits64 (f.sqrt (rd l p))) ∧
      Computes s (.fexp2 h d a) h e d 1 false (fun l p => bits64 (fexp2 (rd32 a l p))) ∧
      Computes s (.flog2 h d a) h e d 1 false (fun l p => bits64 (flog2 (rd32 a l p))) ∧
      Computes s (.fsinp h d a) h e d 1 false (fun l p => bits64 (fsinp (rd32 a l p))) ∧
      Computes s (.fcosp h d a) h e d 1 false (fun l p => bits64 (fcosp (rd32 a l p))) ∧
      Computes s (.fsmx h d a b) h e d 2 false (fun l p =>
        let r := softmaxStep ((s.read64 e a l p).toNat % 2 ^ 32) ((s.read64 e a l p).toNat / 2 ^ 32) (rd32 b l p)
        (BitVec.ofNat 64 (r.1 + r.2.1 * 2 ^ 32), r.2.2)) ∧
      (Executes s (.frcpv h f64 d a b c) h e →
        let tau := (s.uni e b).toNat % 2 ^ (f.bits - 1)
        tau = 0 ∨ (2 ^ f.fbits ≤ tau ∧ ¬ f.topExp tau) →
        Completes s (.frcpv h f64 d a b c) e fun t w' =>
          (if (Instr.frcpv h f64 d a b c).chainSlot.isSome then BesideChain s t e.n
            else Beside s t e.n ∧ w'.chains = e.w.chains) ∧
          PivotResults e (.frcpv h f64 d a b c) d c (regsOf f64)
            (fun l p => f.rcpGuarded (rd l p) ((s.uni e b).toNat % 2 ^ f.bits)) w')) ∧
  (∀ (f64 : Bool) (a t n : Nat),
      let f := fmtOf f64
      let nan : Nat := if f64 then 0x7FF8000000000000 else 0x7FC00000
      let top := 2 ^ (f.bits - 1)
      let inf := f.infCode false
      let bias := 2 ^ (f.ebits - 1) - 1
      let power (k : Nat) : Nat × Flags := (k * 2 ^ f.fbits, 0)
      let tau := t % top
      a < 2 ^ f.bits → t < 2 ^ f.bits →
      (f.nanCode a → (∀ r ∈ [f.rcp a, f.rsqrt a, f.sqrt a], f.GivesNan nan [a] r) ∧ (f.rcpGuarded a t).2.2 = true ∧
        f.GivesNan nan [a] ((f.rcpGuarded a t).1, (f.rcpGuarded a t).2.1)) ∧
      (f.negCode a = true → ¬ f.nanCode a → a ≠ top → f.rsqrt a = (nan, fNV) ∧ f.sqrt a = (nan, fNV)) ∧
      (f.rcp 0 = (inf, fDZ) ∧ f.rcp top = (top + inf, fDZ) ∧ f.rcp inf = (0, 0) ∧ f.rcp (top + inf) = (top, 0)) ∧
      (f.rsqrt 0 = (inf, fDZ) ∧ f.rsqrt top = (top + inf, fDZ) ∧ f.rsqrt inf = (0, 0)) ∧
      (f.sqrt 0 = (0, 0) ∧ f.sqrt top = (top, 0) ∧ f.sqrt inf = (inf, 0)) ∧
      (1 ≤ n → n < 2 * bias → f.rcp (n * 2 ^ f.fbits) = power (2 * bias - n)) ∧
      (1 ≤ n → n ≤ 2 * bias → (n + bias) % 2 = 0 → f.sqrt (n * 2 ^ f.fbits) = power ((n + bias) / 2) ∧
        f.rsqrt (n * 2 ^ f.fbits) = power ((3 * bias - n) / 2)) ∧
      (¬ f.nanCode a → tau = 0 ∨ 2 ^ f.fbits ≤ tau ∧ ¬ f.topExp tau →
        let replaced := decide (tau ≠ 0 ∧ a % top < tau)
        let r := f.rcp (if replaced then tau + (if f.negCode a then top else 0) else a)
        f.rcpGuarded a t = (r.1, r.2, replaced || decide (tau = 0 ∧ a % top = 0)))) ∧
  (∀ (t : FloatTy) (a : Nat) (n : Int),
      let f := t.fmt
      (a < 2 ^ f.bits → f.nanCode a → f.GivesNan t.canonicalNan [a] (f.scale a n)) ∧
      (a < 2 ^ f.bits → ¬ f.nanCode a → f.topExp a ∨ f.units a = 0 → f.scale a n = (a, 0)) ∧
      (f.finiteCode a → f.RoundsTo .rne (f.one * 2 ^ (-n).toNat) (f.units a * f.one * 2 ^ n.toNat) (f.scale a n))) ∧
  (∀ (a n : Nat) (k : Int),
      let inf := 0x7F800000
      let minus := 0x80000000
      let nan := 0x7FC00000
      let one := 0x3F800000
      let is (v : Int) : Prop := fp32.finiteCode a ∧ fp32.units a = v * fp32.one
      let isHalf : Prop := fp32.finiteCode a ∧ 2 * fp32.units a = (2 * k + 1) * fp32.one
      let unit (neg : Bool) : Nat × Flags := (if neg then minus + one else one, 0)
      let odd := decide (k % 2 ≠ 0)
      (a < 2 ^ 32 → fp32.nanCode a → ∀ r ∈ [fexp2 a, flog2 a, fsinp a, fcosp a], fp32.GivesNan nan [a] r) ∧
      (fexp2 inf = (inf, 0) ∧ fexp2 (minus + inf) = (0, 0) ∧ flog2 inf = (inf, 0) ∧ flog2 (minus + inf) = (nan, fNV)) ∧
      (∀ x ∈ [inf, minus + inf], fsinp x = (nan, fNV) ∧ fcosp x = (nan, fNV)) ∧
      (flog2 0 = (minus + inf, fDZ) ∧ flog2 minus = (minus + inf, fDZ)) ∧
      (a < 2 ^ 32 → minus < a → ¬ fp32.nanCode a → flog2 a = (nan, fNV)) ∧
      (is k → -126 ≤ k → k ≤ 127 → fexp2 a = ((k + 127).toNat * 2 ^ 23, 0)) ∧
      (is k → 128 ≤ k → fexp2 a = (inf, fOF ||| fNX)) ∧
      (1 ≤ n → n ≤ 254 → (flog2 (n * 2 ^ 23)).2 = 0 ∧ fp32.units (flog2 (n * 2 ^ 23)).1 = ((n : Int) - 127) * fp32.one ∧
        (n = 127 → flog2 (n * 2 ^ 23) = (0, 0))) ∧
      (is k → fsinp a = (a / minus * minus, 0) ∧ fcosp a = unit odd) ∧
      (isHalf → fsinp a = unit odd ∧ fcosp a = (0, 0))) ∧
  (∀ (m s x : Nat),
      let inf := 0x7F800000
      let minus := 0x80000000
      let nan := 0x7FC00000
      let plus (y : Nat) : Nat × Flags := fp32.add .rne s y
      m < 2 ^ 32 → s < 2 ^ 32 → x < 2 ^ 32 →
      (fp32.nanCode m ∨ fp32.nanCode s ∨ fp32.nanCode x → (softmaxStep m s x).1 = nan ∧
        fp32.GivesNan nan [m, s, x] ((softmaxStep m s x).2.1, (softmaxStep m s x).2.2)) ∧
      (¬ fp32.nanCode m → ¬ fp32.nanCode s →
        softmaxStep m s (minus + inf) = (m, (plus 0).1, (plus 0).2) ∧
        (¬ fp32.nanCode x → x = m → ¬ fp32.topExp x → softmaxStep m s x = (m, (plus 0x3F800000).1, (plus 0x3F800000).2)) ∧
        (m = inf → softmaxStep m s inf = (inf, (plus 0x3F800000).1, (plus 0x3F800000).2)) ∧
        (m ≠ inf → softmaxStep m s inf = (inf, 0x3F800000, 0)) ∧
        (m = inf → ¬ fp32.topExp x → softmaxStep m s x = (inf, (plus 0).1, (plus 0).2))))

/-- R195, R196, R290: over finite operands the sum, the difference, the product, and the product plus a third operand are the exact
value rounded once under the mode, in every format, with the overflow of each mode and with the flags of R196; so is the conversion of an
integer (R197). A zero result has the sign the rules give it. A NaN operand, infinities of opposite sign in a sum and zero times infinity give
the canonical NaN, the last also where the third operand is a NaN, and any other operation on an infinity the infinity. -/
def Obligations.ArithmeticRoundsOnce : Prop :=
  (∀ (t : FloatTy) (rm : Rounding) (a b c : Nat) (n : Int),
    let f := t.fmt
    let zero (neg : Bool) : Nat × Flags := (f.zeroCode neg, 0)
    let sa := f.negCode a
    let sb := f.negCode b
    f.finiteCode a → f.finiteCode b → f.finiteCode c →
      f.RoundsOnce rm ((f.units a + f.units b) * f.one) (f.add rm a b) ∧
      f.RoundsOnce rm ((f.units a - f.units b) * f.one) (f.sub rm a b) ∧
      f.RoundsOnce rm (f.units a * f.units b) (f.mul rm a b) ∧
      f.RoundsOnce rm (f.units a * f.units b + f.units c * f.one) (f.fma rm a b c) ∧
      f.RoundsOnce rm (n * f.one * f.one) (f.ofInt rm n) ∧
      (f.units a + f.units b = 0 → f.add rm a b = zero (zeroSign rm sa sb)) ∧
      (f.units a - f.units b = 0 → f.sub rm a b = zero (zeroSign rm sa (!sb))) ∧
      (f.units a * f.units b = 0 → f.mul rm a b = zero (sa != sb)) ∧
      (f.units a * f.units b + f.units c * f.one = 0 → f.fma rm a b c = zero (zeroSign rm (sa != sb) (f.negCode c))) ∧
      f.ofInt rm 0 = zero false) ∧
  (∀ (t : FloatTy) (rm : Rounding) (a b c : Nat),
    let f := t.fmt
    let nan := t.canonicalNan
    let inf (x : Nat) : Prop := f.topExp x ∧ ¬ f.nanCode x
    let zero (x : Nat) : Prop := ¬ f.topExp x ∧ f.units x = 0
    let invalid : Prop := inf a ∧ zero b ∨ zero a ∧ inf b
    let product : Prop := inf a ∧ ¬ f.nanCode b ∧ ¬ zero b ∨ inf b ∧ ¬ f.nanCode a ∧ ¬ zero a
    let sign := f.negCode a != f.negCode b
    let r := f.fma rm a b c
    a < 2 ^ f.bits → b < 2 ^ f.bits → c < 2 ^ f.bits →
      f.SumSpecial nan a b (f.negCode b) (f.add rm a b) ∧
      f.SumSpecial nan a b (!f.negCode b) (f.sub rm a b) ∧
      f.ProductSpecial nan a b (f.mul rm a b) ∧
      (invalid → r = (nan, fNV)) ∧
      (¬ invalid → f.nanCode a ∨ f.nanCode b ∨ f.nanCode c → f.GivesNan nan [a, b, c] r) ∧
      (product → inf c → f.negCode c ≠ sign → r = (nan, fNV)) ∧
      (product → ¬ f.nanCode c → (inf c → f.negCode c = sign) → r = (f.infCode sign, 0)) ∧
      (¬ f.topExp a → ¬ f.topExp b → inf c → r = (f.infCode (f.negCode c), 0)))

/-- R193, R194, R291–R293: FMIN and FMAX select by the order in which −0 lies below +0, and give the canonical NaN where an operand is
NaN; FABS and FNEG clear and invert the sign bit of what is not NaN; FCLASS sets the one bit of the operand's class; FCMP sets the
truth of its condition, and its flags are those of R194. -/
def Obligations.FloatSelectionAndClasses : Prop :=
  ∀ (s : State) (h : Head) (e : Env) (t : FloatTy) (cond : FloatCond) (d a b : Operand),
    let f := t.fmt
    let rd := s.readFloat e f
    let top := 2 ^ (f.bits - 1)
    let above (greater : Bool) (x y : Nat) : Prop :=
      if greater then f.units y < f.units x ∨ (f.units y = f.units x ∧ x / top ≤ y / top)
      else f.units x < f.units y ∨ (f.units x = f.units y ∧ y / top ≤ x / top)
    let selects (greater : Bool) (l : Nat) (p : W64) (r : Nat × Flags) : Prop :=
      let x := rd a l p
      let y := rd b l p
      (f.nanCode x ∨ f.nanCode y → r.1 = t.canonicalNan ∧ (r.2 = fNV ∧ (f.snanCode x ∨ f.snanCode y) ∨
        r.2 = 0 ∧ ¬ f.snanCode x ∧ ¬ f.snanCode y)) ∧
      (¬ f.nanCode x ∧ ¬ f.nanCode y → (r.1 = x ∨ r.1 = y) ∧ r.2 = 0 ∧ above greater r.1 x ∧ above greater r.1 y)
    ComputesFloat s (.fmin h t d a b) h e d t.regs (selects false) ∧
    ComputesFloat s (.fmax h t d a b) h e d t.regs (selects true) ∧
    ComputesFloat s (.fabs h t d a) h e d t.regs (fun l p r => r.2 = 0 ∧
      (f.nanCode (rd a l p) → r.1 = t.canonicalNan) ∧ (¬ f.nanCode (rd a l p) → r.1 = rd a l p % top)) ∧
    ComputesFloat s (.fneg h t d a) h e d t.regs (fun l p r => r.2 = 0 ∧
      (f.nanCode (rd a l p) → r.1 = t.canonicalNan) ∧ (¬ f.nanCode (rd a l p) → r.1 = (rd a l p + top) % (2 * top))) ∧
    ComputesFloat s (.fclass h t d a) h e d 1 (fun l p r =>
      let x := rd a l p
      let neg := x / top % 2 = 1
      let ef := x / 2 ^ f.fbits % 2 ^ f.ebits
      let fr := x % 2 ^ f.fbits
      r.2 = 0 ∧ (f.snanCode x → r.1 = 1) ∧ (f.nanCode x ∧ ¬ f.snanCode x → r.1 = 2) ∧
      (f.topExp x ∧ fr = 0 → r.1 = if neg then 4 else 512) ∧
      (¬ f.topExp x ∧ ef ≠ 0 → r.1 = if neg then 8 else 256) ∧
      (ef = 0 ∧ fr ≠ 0 → r.1 = if neg then 16 else 128) ∧
      (ef = 0 ∧ fr = 0 → r.1 = if neg then 32 else 64)) ∧
    (Executes s (.fcmp h t cond d a b) h e → ∃ g : Nat → Bool × Flags, PredRule s (.fcmp h t cond d a b) d e g ∧
      ∀ l, let x := rd a l 0
        let y := rd b l 0
        ((g l).1 = true ↔ f.truth cond x y) ∧
        ((g l).2 = fNV ∧ (f.snanCode x ∨ f.snanCode y ∨ cond.ordering = true ∧ (f.nanCode x ∨ f.nanCode y)) ∨
          (g l).2 = 0 ∧ ¬ f.snanCode x ∧ ¬ f.snanCode y ∧ (cond.ordering = true → ¬ f.nanCode x ∧ ¬ f.nanCode y)))

/-! ### Conversions (R298–R300) -/

/-- R197, R298: CVTFI rounds under its mode and saturates, NaN gives 0, and its flags are those of R197; FRND rounds to an integral
value of the same sign and raises no inexact; CVTIF and CVTFF complete with the conversion of their formats. R299, R300: PACKQ puts two rounded bytes below the low half of C, and UNPKQ takes the byte its B names modulo 4; BPEXT and BPINS
move bit 7 − p of each byte, and a plane above 7 gives 0 or changes nothing. -/
def Obligations.ConversionsRoundAndPack : Prop :=
  (∀ (s : State) (h : Head) (e : Env) (it : IntTy) (t u : FloatTy) (rm : Rounding) (d a : Operand),
      let f := t.fmt
      let top := 2 ^ (f.bits - 1)
      (∃ g : Nat → W64 → Int × Flags,
        Computes s (.cvtfi h it t rm d a) h e d it.regs false (fun l p => (wrap it.bits (g l p).1, (g l p).2)) ∧
        ∀ l p, let x := s.readFloat e f a l p
          (f.nanCode x → g l p = (0, fNV)) ∧
          (f.topExp x ∧ ¬ f.nanCode x → g l p = (if x / top % 2 = 1 then it.min else it.max, fNV)) ∧
          (¬ f.topExp x → ∃ n, RoundsToInt rm (f.units x) f.one n ∧ (g l p).1 = min (max n it.min) it.max ∧
            (g l p).2 = if n < it.min ∨ it.max < n then fNV else if n * f.one = f.units x then 0 else fNX)) ∧
      ComputesFloat s (.frnd h t rm d a) h e d t.regs (fun l p r =>
        let x := s.readFloat e f a l p
        (f.nanCode x → r.1 = t.canonicalNan ∧ (r.2 = fNV ∧ f.snanCode x ∨ r.2 = 0 ∧ ¬ f.snanCode x)) ∧
        (f.topExp x ∧ ¬ f.nanCode x → r = (x, 0)) ∧
        (¬ f.topExp x → r.2 = 0 ∧ r.1 / top = x / top ∧ ∃ n, RoundsToInt rm (f.units x) f.one n ∧ f.units r.1 = n * f.one)) ∧
      Computes s (.cvtif h it t rm d a) h e d t.regs false (fun l p => bits64 (f.ofInt rm (s.intAt e it a l p))) ∧
      Computes s (.cvtff h t u rm d a) h e d t.regs false
        (fun l p => bits64 (convert u.fmt f rm (s.readFloat e u.fmt a l p)))) ∧
  (∀ (s : State) (h : Head) (e : Env) (e5 : Bool) (d a b c : Operand),
      let q := if e5 then e5m2 else e4m3
      let rd := s.readFloat e fp32
      Computes s (.packq h e5 d a b c) h e d 1 false (fun l p =>
        let x := convert fp32 q .rne (rd a l p)
        let y := convert fp32 q .rne (rd b l p)
        (BitVec.ofNat 64 (x.1 + y.1 * 256 + s.countAt e c l p % 65536 * 65536), x.2 ||| y.2)) ∧
      Computes s (.unpkq h e5 d a b) h e d 1 false (fun l p =>
        bits64 (convert q fp32 .rne (s.countAt e a l p / 256 ^ (s.countAt e b l p % 4) % 256))) ∧
      ComputesBits s (.bpext h d a b) h e d false (fun l p i =>
        let k := s.countAt e b l p
        decide (i < 4) && decide (k ≤ 7) && s.bitAt e false a l p (8 * i + 7 - k)) ∧
      ComputesBits s (.bpins h d a b c) h e d false (fun l p i =>
        let k := s.countAt e c l p
        if k ≤ 7 ∧ i % 8 = 7 - k then s.bitAt e false b l p (i / 8) else s.bitAt e false a l p i))

/-! ### Chains (R276–R278) -/

/-- R276–R278: CHSEED sets the seed of a wave that is in no closed ring and appends to the queue of one that is; CHLINK of −1 makes a
head, and a link to an existing wave that has no other successor names the predecessor; to name it again changes nothing. A link to a wave
that does not exist, or has another successor, and a ring closed from a wave that is no head are illegal operands. CHOUT writes the slot's
output. Every other slot stands. -/
def Obligations.ChainInstructionsSetSlots : Prop :=
  ∀ (s : State) (h : Head) (e : Env) (slot : BitVec 2) (d a : Operand) (t : Team),
    s.teamOf e.w = some t →
    let c := slot.toNat
    let v := s.uni e a
    let x := e.w.chain c
    let sets (i : Instr) (y : ChainSlot) : Prop := Completes s i e fun u w' => Beside s u e.n ∧
      (∀ j, w'.chain j = if j = c then y else e.w.chain j) ∧ w'.idle.sansChains = e.w.idle.sansChains
    (Executes s (.chseed h slot a) h e → e.exec ≠ 0 →
      let ring := s.linkReaches t c e.w.index e.w.index 32
      (ring = false → sets (.chseed h slot a) { x with seed := v }) ∧
      (ring = true → x.queue.length < 4 → sets (.chseed h slot a) { x with queue := x.queue ++ [v] }) ∧
      (ring = true → 4 ≤ x.queue.length → Waits s (.chseed h slot a) e (.seedFull c))) ∧
    (Executes s (.chlink h slot false a) h e → e.exec ≠ 0 →
      (v.toInt = -1 → sets (.chlink h slot false a) { x with link := none }) ∧
      (∀ p : Nat, v.toInt = p → (s.waveWithIndex t p).isSome = true → s.successor t c p = none →
        sets (.chlink h slot false a) { x with link := some p }) ∧
      (∀ (p : Nat) m, v.toInt = p → (s.waveWithIndex t p).isSome = true → s.successor t c p = some m → m.1 = e.n →
        OnlyRetires s (.chlink h slot false a) e) ∧
      (v.toInt < -1 ∨ (∃ p : Nat, v.toInt = p ∧ (s.waveWithIndex t p = none ∨ ∃ m, s.successor t c p = some m ∧ m.1 ≠ e.n)) →
        Raises s (.chlink h slot false a) e (e.trap 0x02))) ∧
    (Executes s (.chlink h slot true a) h e → e.exec ≠ 0 →
      (x.link = none → sets (.chlink h slot true a) { x with link := some (s.tailFrom t c e.w.index 32) }) ∧
      (x.link ≠ none → Raises s (.chlink h slot true a) e (e.trap 0x02))) ∧
    (Executes s (.chout h slot d) h e → WritesOnce s (.chout h slot d) d 2 e x.out)

/-! ### Control flow (R136–R140, R279–R286) -/

/-- R136, R280, R281, R283: the uniform branches jump when their guard holds in every active lane, fall through when it holds in none,
and raise 0x05 when the lanes disagree; CALL writes the address of the following header and jumps, RET jumps to what was written, a
drover keeps return addresses on its stack; DBNZ decrements modulo 2^64 and jumps unless the counter is then 0. -/
def Obligations.BranchesTransfer : Prop :=
  ∀ (s : State) (h : Head) (e : Env) (off : BitVec 20) (a d : Operand),
    let target : W64 := BitVec.ofInt 64 (e.sp.pc.toNat + 8 * off.toInt)
    let next : W64 := BitVec.ofNat 64 (e.sp.pc.toNat + 8 * ((headerOf (e.sp.clause.headD 0)).count.toNat + 2))
    let jumps (i : Instr) (dest : W64) (w1 : Wave) : Prop :=
      GoesTo s i e dest e.sp e.w.splits fun t w' => Beside s t e.n ∧ w'.idle = w1.idle
    let uniform (i : Instr) (dest : W64) : Prop :=
      (e.exec = 0 → OnlyRetires s i e) ∧
      (e.exec ≠ 0 → e.exec = e.active → HeaderAt s e dest → jumps i dest e.w) ∧
      (e.exec ≠ 0 → e.exec ≠ e.active → Raises s i e (e.trap 0x05))
    (Executes s (.bra h off) h e → uniform (.bra h off) target) ∧
    (Executes s (.brx h a) h e → uniform (.brx h a) (s.uni e a)) ∧
    (Executes s (.call h off d) h e → e.exec ≠ 0 → HeaderAt s e target →
      (e.w.drover = false → jumps (.call h off d) target (e.w.writeS d next)) ∧
      (e.w.drover = true → e.w.rstack.length < 16 →
        jumps (.call h off d) target { e.w with rstack := next :: e.w.rstack })) ∧
    (Executes s (.ret h a) h e → e.exec ≠ 0 →
      (e.w.drover = false → HeaderAt s e (s.uni e a) → jumps (.ret h a) (s.uni e a) e.w) ∧
      (e.w.drover = true → ∀ x r, e.w.rstack = x :: r → HeaderAt s e x → jumps (.ret h a) x { e.w with rstack := r })) ∧
    (Executes s (.dbnz h off d) h e →
      let count : W64 := BitVec.ofNat 64 ((s.uni e d).toNat + (2 ^ 64 - 1))
      (e.exec.getLsbD e.first = false → OnlyRetires s (.dbnz h off d) e) ∧
      (e.exec.getLsbD e.first = true → (s.uni e d).toNat = 1 →
        Completes s (.dbnz h off d) e fun t w' => Beside s t e.n ∧ w'.idle = (e.w.writeS d 0).idle) ∧
      (e.exec.getLsbD e.first = true → (s.uni e d).toNat ≠ 1 → HeaderAt s e target →
        jumps (.dbnz h off d) target (e.w.writeS d count)))

/-- R136: a branch that transfers control to an address that is not canonical, not aligned, or holds no clause header raises 0x04,
and nothing of it takes effect. R210, R286: TRAP retires and raises 0x30 with its operand as the argument, at no lane; BKPT raises 0x31 precisely, and retires
where the split is resumed from its own trap. -/
def Obligations.TrapsRaised : Prop :=
  (∀ (s : State) (h : Head) (e : Env) (a : Operand),
      Executes s (.brx h a) h e → e.exec ≠ 0 → e.exec = e.active →
      ((2 ^ 56 ≤ (s.uni e a).toNat ∨ (s.uni e a).toNat % 8 ≠ 0) → Raises s (.brx h a) e (e.trap 0x04)) ∧
      ((s.uni e a).toNat < 2 ^ 56 → (s.uni e a).toNat % 8 = 0 →
        ∀ x, s.fetchWord (s.dieOf e.w) e.sp.fetched e.w.owner (s.uni e a).toNat = .word x → x.extractLsb' 60 4 ≠ 0xD#4 →
          Raises s (.brx h a) e (e.trap 0x04))) ∧
  (∀ (s : State) (h : Head) (e : Env) (a : Operand),
      (Executes s (.trap h a) h e → e.exec ≠ 0 → ∃ u wu, u.wave? e.n = some wu ∧ GoesOn e u wu ∧ wu.idle = e.w.idle ∧ Beside s u e.n ∧
        exec (.trap h a) s = .next (u.raise e.n
          { e.trap 0x30 with kind := 3, resume := 32, fault := 0, argument := s.uni e a })) ∧
      (Executes s (.bkpt h) h e → e.exec ≠ 0 →
        (e.sp.skipBreak = false → Raises s (.bkpt h) e { e.trap 0x31 with fault := 0 }) ∧
        (e.sp.skipBreak = true → OnlyRetires s (.bkpt h) e)))

/-- R137, R138, R140: BRD with lanes on both paths gives the taken lanes a split of their own while one is free, the lowest, and pushes an
entry otherwise; both splits carry the join address, and a split that waited at a JOIN for the one that diverges, and for no other, goes on.
A push onto a full stack raises 0x06. JOIN takes up a pending entry of its address, pops a returned one, and has no effect where the split
holds nothing of its address. A split waits at the JOIN of its context while another of the same context has not arrived; the last to
arrive merges them into the lowest of them, which goes on behind the JOIN without the address, and the others are free. One that is not
the lowest and arrives with entries on its stack raises 0x04. -/
def Obligations.DivergentLanesReconverge : Prop :=
  ∀ (s : State) (h : Head) (e : Env) (off : BitVec 20) (a : Operand),
    let target : W64 := BitVec.ofInt 64 (e.sp.pc.toNat + 8 * off.toInt)
    let join : W64 := BitVec.ofInt 64 (e.sp.pc.toNat + 8 * (s.uni e a).toInt)
    let next : W64 := BitVec.ofNat 64 (e.sp.pc.toNat + 8 * ((headerOf (e.sp.clause.headD 0)).count.toNat + 2))
    let rest : W32 := e.active &&& ~~~e.exec
    (Executes s (.brd h off a) h e →
      (e.exec = 0 → OnlyRetires s (.brd h off a) e) ∧
      (e.exec ≠ 0 → rest = 0 → HeaderAt s e target → JumpsTo s (.brd h off a) e target) ∧
      (e.exec ≠ 0 → rest ≠ 0 → HeaderAt s e target → ∀ k, k < 4 → Tab.find e.w.splits k = none →
        (∀ j, j < k → (Tab.find e.w.splits j).isSome = true) → (∀ j q, j ≠ e.k → Tab.find e.w.splits j = some q → q.arrived = none) →
        ∃ t w', exec (.brd h off a) s = .next t ∧ t.wave? e.n = some w' ∧ Beside s t e.n ∧ w'.idle = e.w.idle ∧
          Tab.find w'.splits k = some { Split.start target e.exec with context := e.sp.context ++ [join] } ∧
          (∃ p, Tab.find w'.splits e.k = some p ∧ p.lanesAndStack =
            ({ e.sp with mask := rest, context := e.sp.context ++ [join] } : Split).lanesAndStack ∧
            (e.sp.atLast = true → p.pc = next ∧ p.clause = [])) ∧
          ∀ j, j ≠ k → j ≠ e.k → Tab.find w'.splits j = Tab.find e.w.splits j) ∧
      (e.exec ≠ 0 → rest ≠ 0 → HeaderAt s e target → Tab.wf e.w.splits = true → e.sp.arrived = none → ∀ j q, j ≠ e.k →
        Tab.find e.w.splits j = some q → q.arrived.isSome = true → q.context = e.sp.context →
        (∀ i, i ≠ e.k → i ≠ j → Tab.find e.w.splits i = none) →
        ∃ t w', exec (.brd h off a) s = .next t ∧ t.wave? e.n = some w' ∧ Beside s t e.n ∧ w'.idle = e.w.idle ∧
          (Tab.find w'.splits j).map (fun y => (y.mask, y.arrived, y.context)) = some (q.mask, none, q.context.dropLast)) ∧
      (e.exec ≠ 0 → rest ≠ 0 → (∀ k, k < 4 → (Tab.find e.w.splits k).isSome = true) → 16 ≤ e.sp.stack.length →
        Raises s (.brd h off a) e { e.trap 0x06 with fault := 0 }) ∧
      (e.exec ≠ 0 → rest ≠ 0 → HeaderAt s e target → (∀ k, k < 4 → (Tab.find e.w.splits k).isSome = true) →
        e.sp.stack.length < 16 → GoesTo s (.brd h off a) e target
          { e.sp with mask := e.exec, stack := { join := join, mask := rest, fall := next, returned := false } :: e.sp.stack }
          e.w.splits fun t w' => Beside s t e.n ∧ w'.idle = e.w.idle)) ∧
    (Executes s (.join h) h e →
      (∀ t r, e.sp.stack = t :: r → t.join = e.sp.pc → t.returned = false →
        GoesTo s (.join h) e t.fall { e.sp with mask := t.mask, stack := { t with mask := e.sp.mask, returned := true } :: r }
          e.w.splits fun u w' => Beside s u e.n ∧ w'.idle = e.w.idle) ∧
      (∀ t r, e.sp.stack = t :: r → t.join = e.sp.pc → t.returned = true → e.sp.spill = [] →
        ∃ u w' p, exec (.join h) s = .next u ∧ u.wave? e.n = some w' ∧ Beside s u e.n ∧ w'.idle = e.w.idle ∧
          Tab.find w'.splits e.k = some p ∧
          p.lanesAndStack = ({ e.sp with mask := e.sp.mask ||| t.mask, stack := r } : Split).lanesAndStack) ∧
      (e.sp.stack.head?.map (·.join) ≠ some e.sp.pc → e.sp.context.getLast? ≠ some e.sp.pc → OnlyRetires s (.join h) e) ∧
      (e.sp.stack = [] → e.sp.spill = [] → e.sp.context.getLast? = some e.sp.pc →
        (∃ j q, j ≠ e.k ∧ Tab.find e.w.splits j = some q ∧ q.context = e.sp.context ∧ q.arrived ≠ some e.sp.pc) →
        ∃ u w', exec (.join h) s = .next u ∧ u.cur = none ∧ u.wave? e.n = some w' ∧ Beside s u e.n ∧ w'.idle = e.w.idle ∧
          (Tab.find w'.splits e.k).map (·.arrived) = some (some e.sp.pc) ∧
          ∀ j, j ≠ e.k → Tab.find w'.splits j = Tab.find e.w.splits j) ∧
      (e.sp.stack.head?.map (·.join) ≠ some e.sp.pc → e.sp.stack ≠ [] ∨ e.sp.spill ≠ [] → e.sp.context.getLast? = some e.sp.pc →
        (∃ j q, j < e.k ∧ Tab.find e.w.splits j = some q ∧ q.context = e.sp.context) → Raises s (.join h) e (e.trap 0x04)) ∧
      (e.sp.stack = [] → e.sp.spill = [] → e.sp.context.getLast? = some e.sp.pc → Tab.wf e.w.splits = true →
        (∀ j q, j ≠ e.k → Tab.find e.w.splits j = some q → q.context = e.sp.context → q.arrived = some e.sp.pc) →
        let mine (j : Nat) (q : Split) : Prop := Tab.find e.w.splits j = some q ∧ q.context = e.sp.context
        ∀ low x, mine low x → (∀ j q, mine j q → low ≤ j) →
        ∃ u w' p, exec (.join h) s = .next u ∧ u.wave? e.n = some w' ∧ Beside s u e.n ∧ w'.idle = e.w.idle ∧
          Tab.find w'.splits low = some p ∧ p.context = e.sp.context.dropLast ∧ p.arrived = none ∧ p.stack = x.stack ∧ p.spill = x.spill ∧
          (∀ l, p.mask.getLsbD l = true ↔ ∃ j q, mine j q ∧ q.mask.getLsbD l = true) ∧
          (∀ j q, mine j q → j ≠ low → Tab.find w'.splits j = none) ∧
          ∀ j, (∀ q, ¬ mine j q) → Tab.find w'.splits j = Tab.find e.w.splits j))

/-- R118, R282, R284, R285: EXIT ends the executing lanes, and a wave whose last lane exits runs no longer; SLEEP sets the wave's count of issue
opportunities to the low 16 bits of its operand, and while it sleeps no clause of it issues. Each opportunity of its core counts its sleep
down by one, and that of another core does not; which events are opportunities, and that the count ends in an event of its own, is the
model's choice (log entry 86). YIELD gives up the turn, WAITT goes on where no named token is busy or holds an error, and waits where one is busy. -/
def Obligations.LanesExitAndWait : Prop :=
  ∀ (s : State) (h : Head) (e : Env) (a : Operand),
    (Executes s (.exit h) h e → e.w.drover = false → e.exec ≠ 0 → (e.w.liveLanes &&& ~~~e.exec ≠ 0 ∨ s.matrixOut e.n = false) →
      (e.sp.mask &&& ~~~e.exec ≠ 0 → ∃ t w' p, exec (.exit h) s = .next t ∧ t.cur = none ∧ t.wave? e.n = some w' ∧
        Beside s t e.n ∧ w'.idle = e.w.idle ∧ Tab.find w'.splits e.k = some p ∧ p.mask = e.sp.mask &&& ~~~e.exec ∧
        ∀ j, j ≠ e.k → Tab.find w'.splits j = Tab.find e.w.splits j) ∧
      (e.sp.mask &&& ~~~e.exec = 0 → e.sp.stack = [] → e.sp.spill = [] → e.w.splits = [(e.k, e.sp)] →
        ∃ t, exec (.exit h) s = .next t ∧ ∀ w', t.wave? e.n = some w' → w'.life = .exited)) ∧
    (Executes s (.sleep h a) h e → e.exec ≠ 0 → Completes s (.sleep h a) e fun t w' => Beside s t e.n ∧
      let k := (s.uni e a).toNat % 2 ^ 16
      w'.idle = ({ e.w with sleep := if k = 0 then 0 else k + 1 } : Wave).idle) ∧
    (∀ n w k p, w.sleep ≠ 0 → p.clause = [] → s.ready n k w p = false ∧ s.fetches w k p = false) ∧
    (∀ core, { s.passSleep core with waves := s.waves } = s ∧ ∀ n w, s.wave? n = some w →
      (s.passSleep core).wave? n = some { w with sleep := if 1 < w.sleep ∧ s.coreOf w = core then w.sleep - 1 else w.sleep }) ∧
    (Executes s (.yield h) h e → e.exec ≠ 0 → Completes s (.yield h) e fun t w' => Beside s t e.n ∧ w'.idle = e.w.idle ∧
      w'.yielded = true) ∧
    (Executes s (.waitt h a) h e → e.exec ≠ 0 → (s.uni e a).toNat < 256 →
      let m : BitVec 8 := BitVec.ofNat 8 (s.uni e a).toNat
      (e.w.busy &&& m = 0 → e.w.tokenErrors &&& m = 0 → OnlyRetires s (.waitt h a) e) ∧
      (e.w.busy &&& m ≠ 0 → s.isRound e.w = false → Waits s (.waitt h a) e (.tokens m)))

/-- R229, R262, R285, R309, R367, R368: NOP, PREF, REND outside round mode and TLBINV retire with no effect (that TLBINV finds nothing to
discard, since the model holds no TLB, is log entry 103); so does a word of YIELD, SLEEP, WAITT,
TRAP, BKPT, CHSEED, CHLINK or a fence whose guard holds in no active lane. -/
def Obligations.WordsWithoutEffectRetire : Prop :=
  ∀ (s : State) (h : Head) (e : Env) (l1 : Bool) (slot : BitVec 2) (ring : Bool) (a b c : Operand),
    (Executes s (.nop h) h e → OnlyRetires s (.nop h) e) ∧
    (Executes s (.pref h l1 a c) h e → OnlyRetires s (.pref h l1 a c) e) ∧
    (Executes s (.tlbinv h a b) h e → OnlyRetires s (.tlbinv h a b) e) ∧
    (Executes s (.rend h) h e → s.isRound e.w = false → OnlyRetires s (.rend h) e) ∧
    ∀ i ∈ [Instr.yield h, .sleep h a, .waitt h a, .trap h a, .bkpt h, .chseed h slot a, .chlink h slot ring a, .fenceR h, .fenceH h,
      .fenceE h], Executes s i h e → e.exec = 0 → OnlyRetires s i e

/-! ### Traps (R208–R215, R286) -/

/-- R208, R212, R213: a user-class trap of a wave outside any handler, its handler given and its trap area writable, writes its record
as stores of the wave and enters the handler: the split state, L and the resume values move into the trap context, and the wave
continues as split 0 at the handler with every lane that has not exited. -/
def Obligations.TrapEntersUserHandler : Prop :=
  ∀ (s : State) (n : Nat) (w : Wave) (tr : Trap),
    s.wave? n = some w → w.drover = false → w.trapCtx = none → w.hmode = .none → w.utvec ≠ 0 → s.atBell = false →
    s.isRound w = false → Recordable s w → tr.counted = false → tr.fatal = false → tr.cause ∉ [0x06, 0x18, 0x20] →
    (tr.cause = 0x31 → ∀ a, (w.owner, a) ∉ s.ivgil.breaks) →
    ∃ t w' c, s.raise n tr = t ∧ t.cur = none ∧ t.wave? n = some w' ∧ w'.hmode = .user ∧ w'.trapCtx = some c ∧
      w'.splits = [(0, Split.start w.utvec w.liveLanes)] ∧
      c.cause = tr.cause ∧ c.kind = tr.kind ∧ c.split = tr.split ∧ c.resumeLane = tr.resume ∧ c.faultMask = tr.fault ∧
      c.execMask = tr.exec ∧ c.deferred = tr.deferred ∧ c.carry = tr.carry ∧ c.pops = tr.pops ∧
      c.splits = w.splits ∧ c.latch = w.latch ∧
      ({ w' with splits := w.splits, trapCtx := none, hmode := .none } : Wave).idle = ({ w with pending := none, sleep := 0 } : Wave).idle ∧
      t.mem = (s.clearCur.putBytes (s.writer w) w.owner (s.trecOf w).toNat (s.trapRecord w tr)).mem ∧
      (s.trapRecord w tr).length = 640

/-! ### Memory (R145, R156, R302–R312) -/

/-- R303, R312: a load whose accesses land writes in every executing lane the bytes at its address, zero- or sign-extended, a quad for
b128; LDU writes one value into its S register. Nothing of memory changes. -/
def Obligations.LoadsReadBytes : Prop :=
  ∀ (s : State) (h : Head) (e : Env) (sp : Space) (sz : Size) (sx : Bool) (d a c : Operand) (at' : Nat → Target),
    let n := sz.bytes
    (Executes s (.ld h sp sz sx d a c) h e → Lands s e sp n .load true (lanesOf e.exec) (s.laneEa e sp a c) at' →
      (sz ≠ .b128 → LaneWrites s (.ld h sp sz sx d a c) d sz.regs e fun l =>
        BitVec.ofInt 64 (signExtended sx n (s.seenAt e.w (at' l) n))) ∧
      (sz = .b128 → QuadWrites s (.ld h sp sz sx d a c) d e fun l => BitVec.ofNat 128 (s.seenAt e.w (at' l) n))) ∧
    (Executes s (.ldu h sp sz sx d a c) h e →
      (e.exec = 0 → OnlyRetires s (.ldu h sp sz sx d a c) e) ∧
      (e.exec ≠ 0 → Lands s e sp n .load true [e.firstExec] (fun _ => s.uniEa e sp a c) at' →
        Completes s (.ldu h sp sz sx d a c) e fun t w' => Beside s t e.n ∧
          w'.idle = (e.w.writeS d (BitVec.ofInt 64 (signExtended sx n (s.seenAt e.w (at' e.firstExec) n)))).idle))

/-- R156, R181, R182, R304, R305, R312: a store whose accesses land stores exactly the bytes it names, in lane order, and changes no
register and no other byte; in round mode it goes into the wave's buffer as one entry, told from the entry before it by the time it was
made, and memory stands until the bell. R156, R169: every byte of a store reads back as it was stored, in global memory where the bytes lie in frames of their own, and in
a window. -/
def Obligations.StoresWriteBytesThatReadBack : Prop :=
  (∀ (s : State) (h : Head) (e : Env) (sp : Space) (sz : Size) (a b c : Operand) (at' : Nat → Target),
      let n := sz.bytes
      let bytes (l : Nat) : List Byte := leBytes n (s.storedValue e sz b l)
      let stores (i : Instr) (lanes : List Nat) (data : Nat → List Byte) : Prop :=
        (s.isRound e.w = false → Completes s i e fun t w' => Beside (s.storedBy e.w lanes at' data) t e.n ∧ w'.idle = e.w.idle ∧
          MemFrame s t e.w (lanes.map at') n) ∧
        (s.isRound e.w = true → s.atBell = false → e.w.laneStores + lanes.length ≤ 4096 →
          (∀ tag u ls, e.w.buffer.getLast? = some (.stores tag u ls) → tag ≠ s.clock) →
          ∃ (tr : Trap) (f : Nat → LaneFault),
          let entry : Act := .stores s.clock tr (lanes.map fun l => { access := f l, place := (at' l).place e.w, data := data l })
          Completes s i e fun t w' => Beside s t e.n ∧
            w'.idle = ({ e.w with buffer := e.w.buffer ++ (if lanes = [] then [] else [entry]),
                                  laneStores := e.w.laneStores + lanes.length } : Wave).idle)
      (Executes s (.st h sp sz a b c) h e → Lands s e sp n .store false (lanesOf e.exec) (s.laneEa e sp a c) at' →
        stores (.st h sp sz a b c) (lanesOf e.exec) bytes) ∧
      (Executes s (.stp h sz a b c) h e → Lands s e .global n .stp false (lanesOf e.exec) (s.laneEa e .global a c) at' →
        stores (.stp h sz a b c) (lanesOf e.exec) bytes) ∧
      (Executes s (.stu h sp sz a b c) h e → e.exec ≠ 0 →
        Lands s e sp n .store false [e.firstExec] (fun _ => s.uniEa e sp a c) at' →
        stores (.stu h sp sz a b c) [e.firstExec] fun _ => leBytes n (s.uni e b).toNat)) ∧
  (∀ (s : State) (w : Wave) (data : List Byte),
      (∀ va, (∀ i, i < data.length → (s.byteOf w (.global va) i).isSome = true) →
        (∀ i j, i < data.length → j < data.length → s.byteOf w (.global va) i = s.byteOf w (.global va) j → i = j) →
        ∀ i k, i < data.length → s.byteOf w (.global va) i = some k →
          (s.writeTarget w (.global va) data).mem.read k = data[i]?) ∧
      (∀ id t off epoch i, i < data.length →
        some (((s.writeTarget w (.window id t off) data).core t.core).readS t.owner epoch (t.windowBase + off + i)) = data[i]?))

/-- R159, R306–R308: each executing lane performs one event that reads the old value and writes the new one, in lane order; ATOM and
ATOMC write the old value into their destination, RED changes no register, and ATOMC writes memory only where the old value equals
its compare operand. R183, R184: in round mode they are left to the bell, which performs them so. What each of the sixteen operations writes over the old value, and which are of 64 bits, is the table of R306, with
the sum of R290 and the selection of R194. -/
def Obligations.AtomicsReadAndWriteOnce : Prop :=
  ∀ (s : State) (h : Head) (e : Env) (op : AtomOp) (sc : Scope) (w64 : Bool) (d a b c : Operand) (at' : Nat → Target),
    let sp := scopeSpace sc
    let n := if op.wide then 8 else 4
    let m := if w64 then 8 else 4
    let lanes := lanesOf e.exec
    let written (old b : W64) : W64 :=
      let x : W32 := old.setWidth 32
      let y : W32 := b.setWidth 32
      let wide (r : W32) : W64 := r.setWidth 64
      match op with
      | .addU32 => wide (x + y)
      | .addU64 => old + b
      | .minS32 => wide (if x.toInt ≤ y.toInt then x else y)
      | .maxS32 => wide (if x.toInt ≤ y.toInt then y else x)
      | .minU32 => wide (if x.toNat ≤ y.toNat then x else y)
      | .maxU32 => wide (if x.toNat ≤ y.toNat then y else x)
      | .and => wide (x &&& y)
      | .or => wide (x ||| y)
      | .xor => wide (x ^^^ y)
      | .exchB32 => wide y
      | .exchB64 => b
      | .incwU32 => wide (if y.toNat ≤ x.toNat then 0 else x + 1)
      | .faddF32 => BitVec.ofNat 64 (fp32.add .rne x.toNat y.toNat).1
      | .faddF64 => BitVec.ofNat 64 (fp64.add .rne old.toNat b.toNat).1
      | .fminF32 => BitVec.ofNat 64 (fp32.select false x.toNat y.toNat).1
      | .fmaxF32 => BitVec.ofNat 64 (fp32.select true x.toNat y.toNat).1
    let new (l : Nat) (old : W64) : Option W64 := some (written old (s.atomOperand e op b l))
    let swap (l : Nat) (old : W64) : Option W64 :=
      if old = s.readInt e (regsOf w64) b l 0 then some (s.readInt e (regsOf w64) c l 0) else none
    op.wide = decide (op = .addU64 ∨ op = .exchB64 ∨ op = .faddF64) ∧
    (Performs s (.atom h op sc d a b c) h e → Lands s e sp n .atomic true lanes (s.laneEa e sp a c) at' →
      Completes s (.atom h op sc d a b c) e fun t w' => Beside (s.atomicBy e.w n at' new lanes) t e.n ∧ w'.chains = e.w.chains ∧
        LaneResults e (.atom h op sc d a b c) d (regsOf op.wide) (fun l _ => (s.oldAt e.w n at' new lanes l, 0)) w' ∧
        MemFrame s t e.w (lanes.map at') n) ∧
    (Performs s (.red h op sc a b c) h e → Lands s e sp n .atomic true lanes (s.laneEa e sp a c) at' →
      Completes s (.red h op sc a b c) e fun t w' => Beside (s.atomicBy e.w n at' new lanes) t e.n ∧ w'.idle = e.w.idle ∧
        MemFrame s t e.w (lanes.map at') n) ∧
    (Performs s (.atomc h w64 sc d a b c) h e → Lands s e sp m .atomic true lanes (s.laneEa e sp a .zero) at' →
      Completes s (.atomc h w64 sc d a b c) e fun t w' => Beside (s.atomicBy e.w m at' swap lanes) t e.n ∧ w'.chains = e.w.chains ∧
        LaneResults e (.atomc h w64 sc d a b c) d (regsOf w64) (fun l _ => (s.oldAt e.w m at' swap lanes l, 0)) w' ∧
        MemFrame s t e.w (lanes.map at') m) ∧
    let passes (size : Nat) (off : Operand) : Prop := ∀ l ∈ lanes, ∃ x, s.checkAccess e.w sp (s.laneEa e sp a off l) size .atomic = .ok x
    e.exec ≠ 0 →
    (∀ i ∈ [Instr.atom h op sc d a b c, .red h op sc a b c], InRound s i h e → passes n c → Defers s i e e.exec) ∧
    (InRound s (.atomc h w64 sc d a b c) h e → passes m .zero → Defers s (.atomc h w64 sc d a b c) e e.exec)

/-- R145, R151, R152: the checks of an access, each with its cause, in the order the spec gives them: in global memory non-canonical,
misaligned, translation not present, permission; in a window misaligned, outside the window, the control area for a write. R134, R214: a load whose executing lanes all fault, none for want of a translation, writes nothing: it retires and raises a
suppressing trap of the lowest lane's cause, with every executing lane in its fault mask and a lane record for each. -/
def Obligations.AccessesCheckedInOrder : Prop :=
  (∀ (s : State) (w : Wave) (o : Owner) (t : Team) (ea : Nat) (sz : Size) (k : AccKind),
      let n := sz.bytes
      let glob := s.checkAccess w .global ea n k
      let win := s.checkAccess w .scratch ea n k
      let writes := k = .store ∨ k = .stp ∨ k = .atomic
      s.owner? w.owner = some o → s.teamOf w = some t →
      (2 ^ 56 ≤ ea → glob = .fault 0x13) ∧
      (ea < 2 ^ 56 → ea % n ≠ 0 → glob = .fault 0x10) ∧
      (ea < 2 ^ 56 → ea % n = 0 → (∀ p, o.pageAt ea = some p → p.frame = none ∧ p.remote = none) → glob = .fault 0x18) ∧
      (∀ p, ea < 2 ^ 56 → ea % n = 0 → o.pageAt ea = some p → (p.frame.isSome = true ∨ p.remote.isSome = true) →
        (((k = .load ∨ k = .foldRead) ∧ p.r = false ∨ (k = .store ∨ k = .stp) ∧ p.w = false ∨
          k = .atomic ∧ (p.r && p.w) = false ∨ k = .fetch ∧ p.x = false) → glob = .fault 0x12) ∧
        (((k = .load ∨ k = .foldRead) ∧ p.r = true ∨ (k = .store ∨ k = .stp) ∧ p.w = true ∨
          k = .atomic ∧ (p.r && p.w) = true ∨ k = .fetch ∧ p.x = true) → glob = .ok (.global ea))) ∧
      (ea % n ≠ 0 → win = .fault 0x10) ∧
      (ea % n = 0 → 4096 * t.windowUnits < ea + n → win = .fault 0x11) ∧
      (ea % n = 0 → ea + n ≤ 4096 * t.windowUnits → writes → 0x800 < ea + n → ea < 0x1000 → win = .fault 0x12) ∧
      (ea % n = 0 → ea + n ≤ 4096 * t.windowUnits → ¬ (writes ∧ 0x800 < ea + n ∧ ea < 0x1000) → win = .ok (.window w.team t ea))) ∧
  (∀ (s : State) (h : Head) (e : Env) (sp : Space) (sz : Size) (sx : Bool) (d a c : Operand) (cause : Nat → Nat),
      let f (l : Nat) : LaneFault :=
        { lane := l, cause := cause l, address := BitVec.ofInt 64 (s.laneEa e sp a c l), size := sz.bytes, kind := 0,
          space := match sp with | .global => 0 | .scratch => 1 | .peer => 2 }
      Executes s (.ld h sp sz sx d a c) h e → e.exec ≠ 0 →
      (∀ l, e.executes l → s.checkAccess e.w sp (s.laneEa e sp a c l) sz.bytes .load = .fault (cause l) ∧ cause l ≠ 0x18) →
      ∃ u wu, u.wave? e.n = some wu ∧ wu.idle = e.w.idle ∧ Beside s u e.n ∧
        exec (.ld h sp sz sx d a c) s = .next (u.raise e.n { e.trap (cause e.firstExec) with
          kind := 1, fault := e.exec, resume := 32, lanes := (lanesOf e.exec).map f }))

/-- R33, R34, R177: an access of a remote page asks the home package: a load waits for the answer, a posted store goes on; a package
whose peer table entry is empty, or whose port lies beyond a boundary that is down, ends the load in a machine check. R178: a fence with nothing outstanding retires; FENCE.R and FENCE.H wait for posted stores, FENCE.E and FENCE.H for engine
operations; posted stores that have failed since the last such fence end it in an engine error that counts them. R183, R184: in round mode the bell
performs remote accesses and fences. -/
def Obligations.RemoteAccessesAndFencesWait : Prop :=
  (∀ (s : State) (h : Head) (e : Env) (sz : Size) (sx : Bool) (d a b c : Operand) (o : Owner) (lane va home : Nat),
      let n := sz.bytes
      let addr : W64 := BitVec.ofNat 64 va
      let asked (posted : Bool) (op : RemoteOp) (u : State) : Prop :=
        u.tx = s.tx ++ [.remote s.nextRequest home addr op] ∧ u.nextRequest = s.nextRequest + 1 ∧
        Tab.find u.remote s.nextRequest = some
          { owner := e.w.owner, engine := none, wave := e.n, split := e.k, lane := lane, posted := posted,
            handler := e.w.trapCtx.isSome, launch := e.w.launch, others := (s.teamOf e.w).elim [] (·.others) }
      let cut := s.cutDies (dieOfCore (s.coreOf e.w)) (dieOfPort (flowPort e.w.owner home))
      lanesOf e.exec = [lane] → s.owner? e.w.owner = some o →
      s.laneEa e .global a c lane = va → o.remoteAt va = some home →
      (s.checkAccess e.w .global va n .load = .ok (.global va) → InRound s (.ld h .global sz sx d a c) h e →
        Defers s (.ld h .global sz sx d a c) e e.exec) ∧
      (s.checkAccess e.w .global va n .stp = .ok (.global va) → InRound s (.stp h sz a b c) h e → e.w.laneStores ≤ 4096 →
        Defers s (.stp h sz a b c) e e.exec) ∧
      (Performs s (.ld h .global sz sx d a c) h e → s.checkAccess e.w .global va n .load = .ok (.global va) →
        ((o.peer? home).isSome = true → cut = false → ∃ t w', exec (.ld h .global sz sx d a c) s = .next t ∧ asked false (.load n) t ∧ t.mem = s.mem ∧
          t.wave? e.n = some w' ∧ w'.idle = e.w.idle ∧ (Tab.find w'.splits e.k).map (·.waiting) = some .remote) ∧
        (o.peer? home = none ∨ cut = true → s.isRound e.w = false → exec (.ld h .global sz sx d a c) s = .next ((s.popQueues e.w.team (Instr.ld h .global sz sx d a c).queues).raise e.n
          (e.resuming 0x20 lane 0 none [{ lane := lane, cause := 0x20, address := addr, size := n, kind := 0, space := 0 }])))) ∧
      (Performs s (.stp h sz a b c) h e → s.checkAccess e.w .global va n .stp = .ok (.global va) →
        (o.peer? home).isSome = true → cut = false → Completes s (.stp h sz a b c) e fun t w' => asked true (.store (leBytes n (s.storedValue e sz b lane))) t ∧ t.mem = s.mem ∧
          w'.idle = e.w.idle)) ∧
  (∀ (s : State) (h : Head) (e : Env) (i : Instr) (posted engines : Bool),
      (i, posted, engines) ∈ [(Instr.fenceR h, true, false), (.fenceH h, true, true), (.fenceE h, false, true)] →
      e.exec ≠ 0 →
      (InRound s i h e → (engines = true → s.matrixOut e.n = false) → Defers s i e e.exec) ∧
      (Performs s i h e →
      ((posted = true → s.postedOut e.n = false ∧ e.w.failedStp = 0) → (engines = true → s.enginesOut e.n = false) → OnlyRetires s i e) ∧
      (posted = true → s.postedOut e.n = true → (engines = true → s.matrixOut e.n = false) →
        Waits s i e .posted) ∧
      (engines = true → s.enginesOut e.n = true → s.matrixOut e.n = false → (posted = true → s.postedOut e.n = false) →
        Waits s i e .engines) ∧
      (posted = true → s.postedOut e.n = false → (engines = true → s.enginesOut e.n = false) → 0 < e.w.failedStp →
        ∃ u wu, u.wave? e.n = some wu ∧ GoesOn e u wu ∧ wu.idle = ({ e.w with failedStp := 0 } : Wave).idle ∧ Beside s u e.n ∧
          exec i s = .next (u.raise e.n { e.engineError 3 0 with failed := e.w.failedStp }))))

/-- R160–R164, R310, R311: FDEF stores its descriptor as 16 bytes of the wave's own window; LDF writes in every executing lane the fold
of the members' elements, its predicate where every member is present, and the mask of the absent ones into %fabs. -/
def Obligations.FoldGroups : Prop :=
  ∀ (s : State) (h : Head) (e : Env) (op : FoldOp) (ty : FoldTy) (d a b c : Operand) (x : Launch) (t : Team),
    s.launchOf e.w = some x → s.teamOf e.w = some t → e.w.task = false →
    (Executes s (.fdef h a b c) h e → e.exec ≠ 0 → s.isRound e.w = false →
      let idx := (s.uni e a).toNat
      let first := (s.uni e b).toNat % 2 ^ 32
      let stride := (s.uni e b).toNat / 2 ^ 32
      let n := (s.uni e c).toNat
      idx ≤ 15 → 2 ≤ n → n ≤ 512 → stride ≠ 0 → first + (n - 1) * stride < x.lr.teamCount →
      (x.lr.spanned = true → ∀ m, m < n → x.lr.field5 (first + m * stride) = x.lr.field5 t.index) →
      Completes s (.fdef h a b c) e fun u w' => w'.idle = e.w.idle ∧ Beside (s.writeTarget e.w (.window e.w.team t (0x800 + 16 * idx))
        (leBytes 4 first ++ leBytes 4 stride ++ leBytes 4 n ++ leBytes 4 1)) u e.n) ∧
    (Executes s (.ldf h op ty d a c) h e → e.exec ≠ 0 →
      let n := ty.bytes
      let fa (l : Nat) : Nat := s.countAt e a l 0
      let desc (l : Nat) : FoldDesc :=
        foldDescOf (s.windowBytes (s.viewOf e.w).buf e.w.team t (0x800 + 16 * (fa l / 2 ^ 24 % 16)) 16)
      let read (l : Nat) : FoldRead :=
        { lane := l, off := fa l % 2 ^ 24, members := s.foldMembers (e.w.launch.getD 0) x (desc l) }
      let elems (l : Nat) : List (Option Nat) := (read l).members.map fun m => match m with
        | .present id u => some (ofLe (s.windowBytes [] id u (fa l % 2 ^ 24) n))
        | .kept window => some (ofLe (slice window (fa l % 2 ^ 24) n))
        | _ => none
      (∀ l, e.executes l → s.badWindow t (0x800 + 16 * (fa l / 2 ^ 24 % 16)) 16 = false ∧ (desc l).valid = true ∧ fa l % n = 0 ∧ fa l < 2 ^ 28 ∧ fa l % 2 ^ 24 + n ≤ t.windowSize ∧
        (read l).pending = false ∧ s.foldBad (dieOfCore t.core) (read l) n = false) →
      Completes s (.ldf h op ty d a c) e fun u w' => Beside s u e.n ∧
        (∀ l, e.executes l → w'.shows d (regsOf (n == 8)) l = cut (regsOf (n == 8)) (BitVec.ofNat 64 (foldResult op ty (elems l)).1) ∧
          w'.lreg l = w'.shows d (regsOf (n == 8)) l ∧ Tab.getD w'.fabs l 0 = absentMask (elems l)) ∧
        (∀ m l, l < 32 → w'.pbit m l = if c = .p (BitVec.ofNat 3 m) ∧ m < 7 ∧ e.executes l then (elems l).all (·.isSome)
          else e.w.pbit m l) ∧
        w'.fstat = (lanesOf e.exec).foldl (fun g l => g ||| (foldResult op ty (elems l)).2) e.w.fstat ∧
        (∀ m l, l < 32 → (¬ e.executes l ∨ RegName.v m ∉ operandRegs (regsOf (n == 8)) d) → w'.vreg m l = e.w.vreg m l) ∧
        (∀ m l, l < 32 → (¬ e.executes l ∨ RegName.o m ∉ operandRegs (regsOf (n == 8)) d) → w'.oreg m l = e.w.oreg m l) ∧
        (∀ l, l < 32 → ¬ e.executes l → w'.lreg l = e.w.lreg l ∧ Tab.getD w'.fabs l 0 = Tab.getD e.w.fabs l 0))

/-! ### Barriers and rings (R78–R82, R313–R322) -/

/-- R143, R313–R316, R318: BARI sets an uninitialised barrier, leaves one of the same parameters, and replaces the parameters of one whose
phase has counted nothing; otherwise it raises 0x02. BARV counts its arrivals and writes the phase they are counted in; BARA counts
bytes; BARX lowers the expected arrivals, and a barrier it empties is uninitialised. A peer's uninitialised barrier is waited for. R173, R219, R317, R318: BARW waits while the phase bit equals φ and retires once it differs; BART writes whether it differs; an
observation of a failed phase raises an engine error that names the barrier; an uninitialised barrier is an illegal operand. R183, R185: in
round mode BARI, BARA and BARX wait in the buffer for the bell, BARV is performed at it, and a BARW on a phase that is not complete, or on
a barrier whose BARI waits in the wave's own buffer, ends the round before itself. -/
def Obligations.BarriersCountAndObserve : Prop :=
  (∀ (s : State) (h : Head) (e : Env) (units peer : Bool) (d a b c : Operand) (tid n : Nat) (t : Team),
      let x := t.barrier n
      let ea := (s.uni e b).toNat
      let eb := (s.uni e c).toNat
      let fresh : Barrier := { x with init := true, waveUnits := units, ea := ea, eb := eb, arrivals := 0, bytes := 0, failed := false }
      e.exec ≠ 0 → NamesBarrier s e peer a tid t n →
      (peer = false → Executes s (.bari h units a b c) h e →
        let i := Instr.bari h units a b c
        let same := x.waveUnits = units ∧ x.ea = ea ∧ x.eb = eb
        let valid := ea ≤ 65535 ∧ eb < 2 ^ 40 ∧ ¬ (ea = 0 ∧ eb = 0)
        (valid → s.isRound e.w = true → Buffers s i e [.bari n units ea eb e.late]) ∧
        (¬ valid → Raises s i e (e.trap 0x02)) ∧
        (s.isRound e.w = false →
        (valid → (x.init = false ∨ ¬ same ∧ x.arrivals = 0 ∧ x.bytes = 0) →
          SetsBarrier s i e tid n fresh fun w' => w'.idle = e.w.idle) ∧
        (valid → x.init = true → same → SetsBarrier s i e tid n x fun w' => w'.idle = e.w.idle) ∧
        (valid → x.init = true ∧ ¬ same ∧ ¬ (x.arrivals = 0 ∧ x.bytes = 0) → Raises s i e (e.trap 0x02)))) ∧
      (InRound s (.barv h peer d a) h e → s.matrixOut e.n = false → Defers s (.barv h peer d a) e e.exec) ∧
      (Performs s (.barv h peer d a) h e → s.matrixOut e.n = false → x.init = true → SetsBarrier s (.barv h peer d a) e tid n
          (x.counted (if e.w.drover ∨ x.waveUnits then 1 else (lanesOf e.exec).length) 0) (PredResults e d fun _ => (x.phase, 0))) ∧
      (Executes s (.barv h peer d a) h e → s.isRound e.w = false → s.matrixOut e.n = false →
        (x.init = false → tid = e.w.team → Raises s (.barv h peer d a) e (e.trap 0x02)) ∧
        (x.init = false → tid ≠ e.w.team → Waits s (.barv h peer d a) e .peerBarrier)) ∧
      (Executes s (.bara h peer a b) h e →
        (2 ^ 40 ≤ ea → Raises s (.bara h peer a b) e (e.trap 0x02)) ∧
        (ea < 2 ^ 40 → s.isRound e.w = true → Buffers s (.bara h peer a b) e
          [.bara (if peer then some ((s.uni e a).toNat / 2 ^ 10) else none) n ea e.late]) ∧
        (ea < 2 ^ 40 → s.isRound e.w = false → x.init = true →
          SetsBarrier s (.bara h peer a b) e tid n (x.counted 0 ea) fun w' => w'.idle = e.w.idle) ∧
        (ea < 2 ^ 40 → s.isRound e.w = false → x.init = false → tid = e.w.team → Raises s (.bara h peer a b) e (e.trap 0x02)) ∧
        (ea < 2 ^ 40 → s.isRound e.w = false → x.init = false → tid ≠ e.w.team → Waits s (.bara h peer a b) e .peerBarrier)) ∧
      (peer = false → Executes s (.barx h a b) h e →
        let y := ({ x with ea := x.ea - ea } : Barrier).counted 0 0
        (s.isRound e.w = true → Buffers s (.barx h a b) e [.barx n ea e.late]) ∧
        (s.isRound e.w = false →
        (x.init = true → ea ≤ x.ea → SetsBarrier s (.barx h a b) e tid n
          (if y.ea = 0 ∧ y.eb = 0 then { y with init := false } else y) fun w' => w'.idle = e.w.idle) ∧
        (x.init = false ∨ x.ea < ea → Raises s (.barx h a b) e (e.trap 0x02))))) ∧
  (∀ (s : State) (h : Head) (e : Env) (d a b : Operand) (n : Nat) (t : Team),
      let x := t.barrier n
      let phi := e.w.readPred b e.firstExec
      let failed : Trap := e.engineError 2 n
      e.exec ≠ 0 → NamesBarrier s e false a e.w.team t n →
      (Executes s (.barw h a b) h e →
        (x.init = true → x.phase = phi → s.isRound e.w = false → Waits s (.barw h a b) e (.barrier n phi)) ∧
        (x.init = true → x.phase = phi → s.isRound e.w = true → EndsRound s (.barw h a b) e (.barrier n phi)) ∧
        (x.init = false → e.sp.waiting = .none → e.w.initPending n = true → EndsRound s (.barw h a b) e .none) ∧
        (x.init = true → x.phase ≠ phi → x.observedFailed = false → OnlyRetires s (.barw h a b) e) ∧
        (x.init = true → x.phase ≠ phi → x.observedFailed = true →
          RaisesAfter s (.barw h a b) e failed fun u w' => Beside s u e.n ∧ w'.idle = e.w.idle) ∧
        (x.init = false → e.sp.waiting = .none → e.w.initPending n = false → Raises s (.barw h a b) e (e.trap 0x02))) ∧
      (Executes s (.bart h d a b) h e →
        let sets (u : State) (w' : Wave) : Prop := Beside s u e.n ∧ PredResults e d (fun _ => (x.phase != phi, 0)) w'
        (x.init = true → ¬ (x.phase ≠ phi ∧ x.observedFailed = true) → Completes s (.bart h d a b) e sets) ∧
        (x.init = true → x.phase ≠ phi → x.observedFailed = true → RaisesAfter s (.bart h d a b) e failed sets) ∧
        (x.init = false → Raises s (.bart h d a b) e (e.trap 0x02))))

/-- R78, R319–R321: RQRES reserves a record where it fits, writes its address and enters it in the reservation table; where it does not
fit it waits under .wait and writes 0 otherwise. RQCMT and RQREL take effect on an entry of their table and remove it; RQTAKE enters
what it takes in the hold table, and a malformed record it passes is reported after it where it does not wait. Operands outside their limits, a full table,
and an address that no entry names raise 0x02. `State.ringReserve`, `State.ringMark` and `State.ringTake` are the actions at the
ring, which `Obligations.RingActionsMoveCounters` speaks of. R184, R319: in round mode they are left to the bell, which performs them so.
The rings lie in this package, and no earlier action on them is under way. -/
def Obligations.RingInstructionsActOnRings : Prop :=
  ∀ (s u : State) (h : Head) (e : Env) (wait : Bool) (d a b c : Operand) (r : Ring) (x : RingEntry) (at' : Nat),
    let by' := s.writer e.w
    let o := e.w.owner
    let v := (s.uni e a).toNat
    let len := (s.uni e b).toNat
    let type := (s.uni e c).toNat
    let opened (cb : Nat) : Except RingError Ring := s.openRing (s.dieOf e.w) [] 0 by' o cb
    let waits (i : Instr) (cb : Nat) : Prop := InRound s i h e → (∃ z, s.owner? o = some z ∧ z.checkGlobal cb 64 .atomic = none) →
      Defers s i e e.exec
    e.exec ≠ 0 →
    (1 ≤ type → type ≤ 4 → 8 ≤ len → len % 8 = 0 → e.w.reserved.length < 8 → waits (.rqres h wait d a b c) v) ∧
    (e.w.reserved.find? (fun y => y.record == v) = some x → waits (.rqcmt h a) x.control) ∧
    (e.w.holds.find? (fun y => y.record == v) = some x → waits (.rqrel h a) x.control) ∧
    (e.w.holds.length < 8 → waits (.rqtake h wait d a) v) ∧
    (s.ringBusy o v = false → s.ringBusy o x.control = false →
    (Executes s (.rqres h wait d a b c) h e →
      let i := Instr.rqres h wait d a b c
      let valid := 8 ≤ len ∧ len % 8 = 0 ∧ 1 ≤ type ∧ type ≤ 4 ∧ e.w.reserved.length < 8
      (¬ valid → Raises s i e (e.trap 0x02)) ∧
      (s.isRound e.w = false → valid → opened v = .error .malformed → Raises s i e (e.trap 0x02)) ∧
      (s.isRound e.w = false → valid → opened v = .ok r → r.size / 2 < len → Raises s i e (e.trap 0x02))) ∧
    (Performs s (.rqres h wait d a b c) h e →
      let i := Instr.rqres h wait d a b c
      let valid := 8 ≤ len ∧ len % 8 = 0 ∧ 1 ≤ type ∧ type ≤ 4 ∧ e.w.reserved.length < 8
      (valid → opened v = .ok r → len ≤ r.size / 2 →
        (s.ringReserve by' o r len type (2 ^ 15 + s.coreOf e.w) = .ok (some (at', u)) → Completes s i e fun t w' => Beside u t e.n ∧
          w'.idle = (({ e.w with reserved := e.w.reserved ++ [{ record := at', control := v }] } : Wave).writeS d
            (BitVec.ofNat 64 at')).idle) ∧
        (s.ringReserve by' o r len type (2 ^ 15 + s.coreOf e.w) = .ok none →
          (wait = true → s.isRound e.w = false → Waits s i e .ringSpace) ∧
          (wait = false → Completes s i e fun t w' => Beside s t e.n ∧ w'.idle = (e.w.writeS d 0).idle)))) ∧
    (Executes s (.rqcmt h a) h e → (∀ y ∈ e.w.reserved, y.record ≠ v) → Raises s (.rqcmt h a) e (e.trap 0x02)) ∧
    (Performs s (.rqcmt h a) h e →
      (e.w.reserved.find? (fun y => y.record == v) = some x → opened x.control = .ok r →
        s.ringMark by' o r (r.counterOf r.commit v) 40 = .ok u → Completes s (.rqcmt h a) e fun t w' => Beside u t e.n ∧
          w'.idle = ({ e.w with reserved := e.w.reserved.erase x } : Wave).idle)) ∧
    (Executes s (.rqrel h a) h e → (∀ y ∈ e.w.holds, y.record ≠ v) → Raises s (.rqrel h a) e (e.trap 0x02)) ∧
    (Performs s (.rqrel h a) h e →
      (e.w.holds.find? (fun y => y.record == v) = some x → opened x.control = .ok r →
        s.ringMark by' o r (r.counterOf r.release v) 42 = .ok u → Completes s (.rqrel h a) e fun t w' => Beside u t e.n ∧
          w'.idle = ({ e.w with holds := e.w.holds.erase x } : Wave).idle)) ∧
    (Executes s (.rqtake h wait d a) h e → 8 ≤ e.w.holds.length → Raises s (.rqtake h wait d a) e (e.trap 0x02)) ∧
    (Performs s (.rqtake h wait d a) h e →
      let i := Instr.rqtake h wait d a
      let took (t : State) (w' : Wave) : Prop := Beside u t e.n ∧
        w'.idle = (({ e.w with holds := e.w.holds ++ [{ record := at', control := v }] } : Wave).writeS d (BitVec.ofNat 64 at')).idle
      (e.w.holds.length < 8 → opened v = .ok r →
        let takes (record bad : Option Nat) : Prop := s.ringTake by' o r (s.coreOf e.w) false = .ok ({ record := record, bad := bad }, u)
        let none' (t : State) (w' : Wave) : Prop := Beside u t e.n ∧ w'.idle = (e.w.writeS d 0).idle
        let reports (y : Nat) (P : State → Wave → Prop) : Prop :=
          RaisesAfter s i e { e.engineError 0 0 with argument := BitVec.ofNat 64 y } P
        (takes (some at') none → Completes s i e took) ∧
        (∀ y, takes (some at') (some y) → reports y took) ∧
        (takes none none → wait = false → Completes s i e none') ∧
        (∀ y, takes none (some y) → wait = false → reports y none') ∧
        (∀ y, takes none y → wait = true → s.isRound e.w = false → Waits s i e .ringTake))))

/-- R78–R82, R320, R321: what the ring actions do, in a ring whose control block and region lie in storage of their own. A record is
reserved where it and a skip record before it fit between the reserve and the release counter; its header holds LEN, TYPE and PTAG
with C, H and X clear, and the reserve counter passes it; the skip record before it, where there is one, is committed, and the commit counter
passes it where nothing before it is open. A commit sets C and a release sets X in the record's header. A take answers a committed record that is neither
skipped, malformed, held nor released, and sets H. The record and the ring are in this package. -/
def Obligations.RingActionsMoveCounters : Prop :=
  ∀ (s u : State) (w : Wave) (o : Owner) (r : Ring) (die : Option Nat) (by' : Writer) (len type ptag core ctr at' : Nat),
    let place (a i : Nat) : Option Nat := s.byteOf w (.global a) i
    let word (m : Memory) (a : Nat) : Nat := ofLe (o.bytes w.owner { mem := m, pages := none, buf := [] } a 8)
    let skip := if r.reserve % r.size + len > r.size then r.size - r.reserve % r.size else 0
    let start := r.reserve + skip
    s.owner? w.owner = some o → s.openRing die [] 0 by' w.owner r.cb = .ok r → r.base % 64 = 0 → r.base + r.size ≤ 2 ^ 56 → start + len < 2 ^ 63 →
    (∀ i, i < 64 → (place r.cb i).isSome = true) → (∀ i, i < r.size → (place r.base i).isSome = true) →
    (∀ i j, i < 64 → j < 64 → place r.cb i = place r.cb j → i = j) →
    (∀ i j, i < r.size → j < r.size → place r.base i = place r.base j → i = j) →
    (∀ i j, i < 64 → j < r.size → place r.cb i ≠ place r.base j) →
    r.reserve % 8 = 0 → len % 8 = 0 → 8 ≤ len → len ≤ r.size / 2 → type ≤ 4 → ptag < 2 ^ 16 → core < 2 ^ 15 →
    (s.ringReserve by' w.owner r len type ptag = .ok none ↔ r.size < start + len - r.release) ∧
    (s.ringReserve by' w.owner r len type ptag = .ok (some (at', u)) →
      at' = r.base + start % r.size ∧ word u.mem at' = len + type * 2 ^ 32 + ptag * 2 ^ 48 ∧ word u.mem (r.cb + 16) = start + len ∧
      word u.mem (r.cb + 24) = (if r.commit = r.reserve then start else r.commit) ∧
      (0 < skip → word u.mem (r.base + r.reserve % r.size) = skip + 2 ^ 40)) ∧
    (∀ bit, bit = 40 ∨ bit = 42 → s.ringMark by' w.owner r ctr bit = .ok u →
      word u.mem (r.base + ctr % r.size) = word s.mem (r.base + ctr % r.size) ||| 2 ^ bit) ∧
    (∀ bad, s.ringTake by' w.owner r core false = .ok ({ record := some at', bad := bad }, u) → ∃ c, r.release ≤ c ∧ c < r.commit ∧ at' = r.base + c % r.size ∧
      let hd := word s.mem at'
      hType hd ≠ 0 ∧ hMalformed hd = false ∧ hd.testBit 41 = false ∧ hd.testBit 42 = false ∧ (word u.mem at').testBit 41 = true)

/-! ### Copies (R169–R175, R323–R332) -/

/-- R323, R324, R326–R331: a copy whose descriptor and operands pass the checks at issue starts, with its operands as they are read now;
its token becomes busy and its channel's write pointer is 0. In round mode it waits for the bell. A descriptor index above 63, a
descriptor of reserved values, and one outside the limits of the instruction raise 0x02. PUB of a shadow set of the owner starts the
publish. R171, R332: CPWP writes the write pointer of its channel; CPCAN ends every copy of the agent on its channel and no other engine
operation, and performs none of their remaining writes but one that is under way at its home package; in round mode it cancels
nothing. -/
def Obligations.CopiesStartAndStop : Prop :=
  (∀ (s : State) (h : Head) (e : Env) (tok : BitVec 3) (ch : BitVec 2) (a b c : Operand) (t : Team) (o : Owner) (set n : Nat),
      let g := (s.uni e a).toNat
      let off := (s.uni e b).toNat
      let k := (s.uni e c).toNat
      let desc := copyDescOf (s.windowBytes (s.viewOf e.w).buf e.w.team t (32 * k) 32)
      let base : CopyArgs := { kind := .cpin, g := g, s := off, dest := 0, mask := 0, quant := none, index := .list 0 }
      let starts (i : Instr) (x : CopyArgs) : Prop := Executes s i h e → e.exec ≠ 0 →
        let wp := Tab.setD e.w.wp 0 ch.toNat 0
        (63 < k → Raises s i e (e.trap 0x02)) ∧
        (k ≤ 63 → s.badWindow t (32 * k) 32 = false →
          (desc = none → Raises s i e (e.trap 0x02)) ∧
          ∀ d, desc = some d →
            (¬ d.Fits x.kind → Raises s i e (e.trap 0x02)) ∧
            (CopyPasses s e t o d x set →
              (s.isRound e.w = false → StartsEngine s i e (s.copyEngine e t d x set tok.toNat ch.toNat) wp) ∧
              (s.isRound e.w = true → s.atBell = false → BuffersEngine s i e (s.copyEngine e t d x set tok.toNat ch.toNat) wp)))
      s.teamOf e.w = some t → s.owner? e.w.owner = some o →
      starts (.cpin h tok ch a b c) base ∧
      starts (.cpsh h tok ch a b c) { base with kind := .cpsh } ∧
      starts (.cpout h tok ch .zero a b c) { base with kind := .cpout } ∧
      starts (.cpout h tok ch (.s (BitVec.ofNat 6 n)) a b c) { base with
        kind := .cpout, quant := some (lo32 (s.uni e (.s (BitVec.ofNat 6 n)))) } ∧
      (∀ d, starts (.cppeer h tok ch d a b c) { base with kind := .cppeer, g := 0, mask := g, dest := (s.uni e d).toNat }) ∧
      starts (.cpgath h tok ch (.q (BitVec.ofNat 2 n)) a b c) { base with kind := .cpgath, index := .queue (n % 4) } ∧
      starts (.cpgath h tok ch (.s (BitVec.ofNat 6 n)) a b c) { base with
        kind := .cpgath, index := .list (s.uni e (.s (BitVec.ofNat 6 n))).toNat } ∧
      (Executes s (.pub h tok a) h e → e.exec ≠ 0 → s.isRound e.w = false →
        ((Tab.find o.sets g).isSome = true → StartsEngine s (.pub h tok a) e
          { wave := e.n, team := e.w.team, token := some tok.toNat, channel := none, op := .publish g, pageWait := none } e.w.wp) ∧
        (Tab.find o.sets g = none → Raises s (.pub h tok a) e (e.trap 0x02)))) ∧
  (∀ (s : State) (h : Head) (e : Env) (ch : BitVec 2) (d : Operand) (t : Team),
      (Executes s (.cpwp h ch d) h e → WritesOnce s (.cpwp h ch d) d 2 e (Tab.getD e.w.wp ch.toNat 0)) ∧
      (Executes s (.cpcan h ch) h e → e.exec ≠ 0 → s.teamOf e.w = some t → s.teamRuns t = true → Tab.wf s.engines = true →
        (∀ k x, s.engine? k = some x → x.wave = e.n → x.team = e.w.team) → (∀ j b, Part.barrier j b ∉ s.badParts) →
        (s.isRound e.w = true → OnlyRetires s (.cpcan h ch) e) ∧
        (s.isRound e.w = false → Completes s (.cpcan h ch) e fun u w' => u.mem = s.mem ∧ u.cores = s.cores ∧ w'.wp = e.w.wp ∧
          (∀ k x, ¬ x.copyOn e.n ch.toNat → (u.engine? k = some x ↔ s.engine? k = some x)) ∧
          ∀ k x c, s.engine? k = some x → x.wave = e.n → x.channel = some ch.toNat → x.op = .copy c →
            u.engine? k = if c.phase = 2 ∧ c.asked.isSome = true then
              some { x with op := .copy { c with cancelled := true, writes := c.writes.take 1 } } else none)))

/-- R169, R170, R172, R325, R327: the step in which a CPIN of raw bytes completes moves its rows, at their stride in global memory, into
the team's window, packed; every other byte of the scratchpad stands, memory stands, and its token is complete. The rows are mapped,
readable and at home, none of their sectors is uncorrectable, and no boundary that is down lies before them. The rules make a copy a series
of events: that one step of `copyCompletion` performs all that are left is log entry 108, their pieces log entry 107. R175, R331: a publish whose CPSH writes are performed exchanges the sides of its set in one event: each visible page takes the hidden
frame of its place, the hidden side takes the visible frames, no other page and no byte of memory changes, and its token completes.
With such a write outstanding it waits. -/
def Obligations.CopyInMovesRowsAndPublishSwaps : Prop :=
  (∀ (s : State) (id : Nat) (x : Engine) (c : CopyOp) (t : Team) (o : Owner),
      let d := c.desc
      s.engine? id = some x → x.op = .copy c → s.team? x.team = some t → s.owner? t.owner = some o → s.teamRuns t = true →
      s.engineActs x = true → s.headOfChannel id x = true → d.format = 0 → d.qmode = 0 → d.barrier = none →
      d.rows ≤ 65535 → d.rowb ≤ 2 ^ 20 → 1 ≤ d.rows → 1 ≤ d.rowb →
      c = { kind := .cpin, desc := d, g := c.g, s := c.s, dest := c.dest, peers := c.peers, scale := c.scale, index := c.index,
            set := c.set, phase := 0, reads := [], got := [], writes := [], written := 0, row := 0, cancelled := false, asked := none,
            answer := none } →
      (∀ i b, i < d.rows → b < d.rowb → c.g + i * d.gstride + b < 2 ^ 56 ∧ ∃ p f, o.pageAt (c.g + i * d.gstride + b) = some p ∧
        p.frame = some f ∧ p.remote = none ∧ p.r = true ∧ s.badGlobal (some (dieOfCore t.core)) o (c.g + i * d.gstride + b) 1 = false) →
      (s.core t.core).badSpad = [] → (s.core t.core).Tagged →
      ∃ u, exec (.copyCompletion id) s = .next u ∧ EngineEnds s u id x false ∧ u.mem = s.mem ∧
        (∀ i b, i < d.rows → b < d.rowb → u.windowHeld x.team t (c.s + i * d.rowb + b) 1 =
          ofLe (o.bytes t.owner s.now (c.g + i * d.gstride + b) 1)) ∧
        (∀ j y ep, (j ≠ t.core ∨ y < t.windowBase + c.s ∨ t.windowBase + c.s + d.rows * d.rowb ≤ y) →
          (u.core j).readS t.owner ep y = (s.core j).readS t.owner ep y)) ∧
  (∀ (s : State) (id set : Nat) (x : Engine) (t : Team) (o : Owner) (y : ShadowSet),
      let vis := sortBy (fun (p : Page) => p.va) (o.pages.filter fun p => p.set == some set)
      s.engine? id = some x → x.op = .publish set → s.team? x.team = some t → s.owner? t.owner = some o → Tab.find o.sets set = some y →
      s.teamRuns t = true → s.engineActs x = true → (vis.map (·.va)).Nodup → vis.length = y.shadow.length →
      ((∀ k z c, s.engine? k = some z → k < id → z.wave = x.wave → z.op = .copy c → ¬ (c.kind = .cpsh ∧ c.set = set)) →
        Tab.wf s.engines = true →
        ∃ u, exec (.pubSwap id) s = .next u ∧ EngineEnds s u id x false ∧ u.mem = s.mem ∧ ∃ o' give, u.owner? t.owner = some o' ∧
          o'.pages = o.pages.map give ∧ (∀ p, p.set ≠ some set → give p = p) ∧
          (∀ (i : Nat) p f, vis[i]? = some p → y.shadow[i]? = some f → give p = { p with frame := some f.1, epoch := f.2 }) ∧
          Tab.find o'.sets set = some { y with shadow := vis.map fun p => (p.frame.getD 0, p.epoch) } ∧
          ∀ j, j ≠ set → Tab.find o'.sets j = Tab.find o.sets j) ∧
      ((∃ k z c, (k, z) ∈ s.engines ∧ k < id ∧ z.wave = x.wave ∧ z.op = .copy c ∧ c.kind = .cpsh ∧ c.set = set) →
        exec (.pubSwap id) s = .next s))

/-! ### The matrix engine and the accumulators (R334–R345) -/

/-- R335, R337, R339–R342: MMA, MMAX and MMAP check their handles, read their tiles whole and start; the destination is updated later. A
handle with reserved bits raises 0x02. -/
def Obligations.MultipliesStart : Prop :=
  ∀ (s : State) (h : Head) (e : Env) (ty : MmaTy) (accum fa fb centre signed : Bool) (planes : BitVec 3) (d a b c : Operand) (n : BitVec 6)
    (t : Team) (tiles : List Nat) (x y : Handle) (ta tb sa sb : List Byte),
    let starts (i : Instr) (m : MatOp) (pair : Bool) : Prop := OnTiles s i h e t pair d tiles →
      (handleOf (s.uni e a) = none ∨ handleOf (s.uni e b) = none → Raises s i e (e.trap 0x02)) ∧
      (handleOf (s.uni e a) = some x → handleOf (s.uni e b) = some y →
        s.handleFault e t x m.sidecar = none → s.handleFault e t y m.sidecar = none →
        s.handleRead e t x m.sidecar = (ta, sa) → s.handleRead e t y m.sidecar = (tb, sb) →
        s.handleErrors e t x m.sidecar = [] → s.handleErrors e t y m.sidecar = [] →
        (m.accum = true → ∀ l, e.executes l → (s.core t.core).badRow tiles l = false) →
        StartsEngine s i e { wave := e.n, team := e.w.team, token := none, channel := none, pageWait := none,
                             op := .matrix m tiles e.exec ta tb sa sb } e.w.wp)
    starts (.mma h ty accum d a b c) (.mma ty accum (lo32 (s.uni e c))) (ty == .f64) ∧
    starts (.mmax h fa fb accum d a b (.s n)) (.mmax fa fb accum (lo32 (e.w.sreg n.toNat)) (lo32 (e.w.sreg (n.toNat + 1)))) false ∧
    starts (.mmap h planes accum centre signed d a b) (.mmap (planes.toNat + 1) accum centre signed) false

/-- R336, R337, R339: the completion of a multiply writes every executing row of its destination in one event, element by element from the
tiles it read and the old element where it accumulates; every other row stands, its flags stick, and it is complete. R191, R200, R201, R340–R342: an element of MMA.f32 or MMA.f64 is a chain of fused multiply-adds in ascending k, each rounded to nearest;
one of MMA.bf16 or MMA.f16 is the exact sum of the starting value and of the scaled dot product, and one of MMAX that of the starting value
and of the block-scaled dot products times both scales, each rounded once, a block scale that is a NaN or has its sign bit set giving the
canonical NaN; one of MMAP is the exact integer sum over 64 products of plane values and bytes, wrapped to 32 bits, and raises IOV where the sum lies
outside them. -/
def Obligations.MultipliesComplete : Prop :=
  (∀ (s : State) (id : Nat) (x : Engine) (m : MatOp) (t : Team) (tiles : List Nat) (mask : W32) (a b sa sb : List Byte) (w : Wave),
      s.engine? id = some x → x.op = .matrix m tiles mask a b sa sb → s.team? x.team = some t → s.teamRuns t = true →
      s.wave? x.wave = some w → tiles.Nodup → tiles.length = (if m.pair then 2 else 1) →
      let out (i j : Nat) : Nat × Flags :=
        m.element a.toArray b.toArray sa.toArray sb.toArray (if m.accum then s.accAt t x.team tiles i j else m.start) i j
      ∃ u w', exec (.matrixCompletion id) s = .next u ∧ EngineEnds s u id x false ∧ u.wave? x.wave = some w' ∧
        (∀ i j, i ∈ lanesOf mask → j < 32 → u.accAt t x.team tiles i j = (out i j).1 % 2 ^ (32 * tiles.length)) ∧
        AccFrame s u t tiles (fun i _ => i ∉ lanesOf mask) ∧
        (w.drover = false → w'.fstat = (lanesOf mask).foldl (fun f i => (List.range 32).foldl (fun f j => f ||| (out i j).2) f) w.fstat) ∧
        u.mem = s.mem ∧ w'.v = w.v ∧ w'.o = w.o ∧ w'.p = w.p ∧ w'.s = w.s) ∧
  (∀ (a b sa sb : Array Byte) (accum centre signed : Bool) (scale : W32) (planes c0 i j : Nat),
      let elem (x : Array Byte) (n r k : Nat) : Nat := ofLe ((List.range n).map fun q => x.getD (64 * r + n * k + q) 0)
      let chain (f : Fmt) (n : Nat) : Nat × Flags := (List.range (64 / n)).foldl (fun r k =>
        let y := f.fma .rne (elem a n i k) (elem b n j k) r.1
        (y.1, r.2 ||| y.2)) (c0, 0)
      (MatOp.mma .f32 accum scale).element a b sa sb c0 i j = chain fp32 4 ∧
      let inner (f g : Fmt) (n : Nat) (ks : List Nat) : Exact := Exact.sum (ks.map fun k => (f.exact (elem a n i k)).mul (g.exact (elem b n j k)))
      let delivered (unit : Int) (term : Exact) : Nat × Flags → Prop :=
        fp32.Delivers 0x7FC00000 unit (Exact.sum [(fp32.exact c0).finer unit, term])
      let half (f : Fmt) : Exact := (fp32.exact scale.toNat).mul (inner f f 2 (List.range 32))
      (c0 < 2 ^ 32 →
        delivered (bf16.one ^ 2) (half bf16) ((MatOp.mma .bf16 accum scale).element a b sa sb c0 i j) ∧
        delivered (fp16.one ^ 2) (half fp16) ((MatOp.mma .f16 accum scale).element a b sa sb c0 i j)) ∧
      (∀ (fa fb : Bool) (ka kb : W32), c0 < 2 ^ 32 →
        let f := if fa then e5m2 else e4m3
        let g := if fb then e5m2 else e4m3
        let scales := [sa.getD (2 * i) 0, sa.getD (2 * i + 1) 0, sb.getD (2 * j) 0, sb.getD (2 * j + 1) 0]
        let block (q : Nat) : Exact := ((e4m3.exact (sa.getD (2 * i + q) 0).toNat).mul (e4m3.exact (sb.getD (2 * j + q) 0).toNat)).mul
          (inner f g 1 ((List.range 32).map fun k => 32 * q + k))
        let term := ((fp32.exact ka.toNat).mul (fp32.exact kb.toNat)).mul (Exact.sum [block 0, block 1])
        let r := (MatOp.mmax fa fb accum ka kb).element a b sa sb c0 i j
        ((∃ x ∈ scales, 0x7F ≤ x.toNat) → r = (0x7FC00000, fNV)) ∧
        ((∀ x ∈ scales, x.toNat < 0x7F) → delivered (fp32.one * e4m3.one ^ 2 * f.one * g.one) term r)) ∧
      (MatOp.mma .f64 accum scale).element a b sa sb c0 i j = chain fp64 8 ∧
      (1 ≤ planes → planes ≤ 8 → c0 < 2 ^ 32 →
        let bit (k p : Nat) : Int := if (a.getD (256 * p + 8 * i + k / 8) 0).getLsbD (k % 8) then 1 else 0
        let av (k : Nat) : Int := ((List.range planes).map fun p => if p = 0 then -128 * bit k 0 else 2 ^ (7 - p) * bit k p).sum +
          if centre ∧ planes < 8 then 2 ^ (7 - planes) else 0
        let bv (k : Nat) : Int := if signed then (b.getD (64 * j + k) 0).toInt else (b.getD (64 * j + k) 0).toNat
        let sum : Int := (BitVec.ofNat 32 c0).toInt + ((List.range 64).map fun k => av k * bv k).sum
        (MatOp.mmap planes accum centre signed).element a b sa sb c0 i j =
          ((BitVec.ofInt 32 sum).toNat, if sum < -2 ^ 31 ∨ 2 ^ 31 ≤ sum then fIOV else 0)))

/-- R336, R343: ACCZ clears the rows of the executing lanes; ACCRD reads a column into a V or O register, and ACCWR writes one; a column
beyond 31 raises 0x02. Every other element stands. R344, R345: ACCST stores each executing row of its tile at the places of its format, converted or quantised with one block scale a row,
and nothing else of the window; ACCLD loads the rows back from the same places and widens the 16-bit formats. What the issue checks
refuse is a suppressing trap, and an invalid per-tensor scale 0x02. R185: in round mode the stores of ACCST wait in the wave's buffer, where
its loads see them. That the check spans the whole region of the format is log entry 49, and that the recorded size is 16 log entry 46. -/
def Obligations.AccumulatorsMove : Prop :=
  (∀ (s : State) (h : Head) (e : Env) (pair : Bool) (d a b : Operand) (t : Team) (tiles : List Nat),
      let col := (s.uni e b).toNat
      let core := s.core t.core
      (OnTiles s (.accz h pair d) h e t pair d tiles → Completes s (.accz h pair d) e fun u w' => w'.idle = e.w.idle ∧
        BesideAcc s u t e.n ∧ AccFrame s u t tiles (fun i _ => ¬ e.executes i) ∧
        ∀ i j, e.executes i → j < 32 → u.accAt t e.w.team tiles i j = 0) ∧
      (OnTiles s (.accrd h pair d a b) h e t pair a tiles →
        (31 < col → Raises s (.accrd h pair d a b) e (e.trap 0x02)) ∧
        (col ≤ 31 → (∀ x ∈ tiles, ∀ i, e.executes i → (32 * x + i) * 32 + col ∉ core.badAcc) →
          LaneWrites s (.accrd h pair d a b) d (regsOf pair) e fun i => BitVec.ofNat 64 (s.accAt t e.w.team tiles i col))) ∧
      (OnTiles s (.accwr h pair d a b) h e t pair d tiles →
        (31 < col → Raises s (.accwr h pair d a b) e (e.trap 0x02)) ∧
        (col ≤ 31 → Completes s (.accwr h pair d a b) e fun u w' => w'.idle = e.w.idle ∧ BesideAcc s u t e.n ∧
          AccFrame s u t tiles (fun i j => ¬ (e.executes i ∧ j = col)) ∧
          ∀ i, e.executes i → u.accAt t e.w.team tiles i col = (s.readInt e (regsOf pair) a i 0).toNat))) ∧
  (∀ (s : State) (h : Head) (e : Env) (fmt : AccFmt) (d a b c : Operand) (t : Team) (tiles : List Nat),
      let place (off i k : Nat) := accPlace fmt off i k
      (OnTiles s (.accst h fmt d a b c) h e t (fmt == .f64) a tiles →
        let i := Instr.accst h fmt d a b c
        let scale := lo32 (s.uni e d)
        let off := (lo32 (s.uni e b)).toNat
        let side := (lo32 (s.uni e c)).toNat
        let row (r : Nat) : List Nat := (List.range 32).map fun k => s.accAt t e.w.team tiles r k
        let quant (r : Nat) := quantise (fmt == .e5m2) scale.toNat (row r)
        let narrow (r k : Nat) : Nat × Flags := convert fp32 (if fmt = .f16 then fp16 else bf16) .rne (s.accAt t e.w.team tiles r k)
        let value (r k : Nat) : Nat := match fmt with
          | .f32 | .s32 | .f64 => s.accAt t e.w.team tiles r k
          | .bf16 | .f16 => (narrow r k).1
          | .e4m3 | .e5m2 => (quant r).1.getD k 0
        let flags (r : Nat) : Flags := match fmt with
          | .f32 | .s32 | .f64 => 0
          | .bf16 | .f16 => (List.range 32).foldl (fun f k => f ||| (narrow r k).2) 0
          | .e4m3 | .e5m2 => (quant r).2.2
        let sideOf (r : Nat) : Nat := side + 2 * r + off % 64 / 32
        let stored : List Target := (lanesOf e.exec).flatMap fun r =>
          ((List.range 32).flatMap fun k => (List.range (place off r k).2).map fun q => .window e.w.team t ((place off r k).1 + q)) ++
          if fmt.quant then [.window e.w.team t (sideOf r)] else []
        (fmt.quant = true → tensorScaleOk scale.toNat = false → Raises s i e (e.trap 0x02)) ∧
        ((fmt.quant = true → tensorScaleOk scale.toNat = true) →
          (∀ f, accFault fmt t.windowSize off side e.exec true = some f →
            RaisesSuppressing s i e (e.onceFault f.1 (BitVec.ofNat 64 f.2) 16 AccKind.store.code 1)) ∧
          (accFault fmt t.windowSize off side e.exec true = none → (∀ r, e.executes r → (s.core t.core).badRow tiles r = false) →
            (s.core t.core).badSpad.Nodup → (fmt.quant = true → side + 64 ≤ off ∨ off + 2016 ≤ side) →
            (s.isRound e.w = true → s.atBell = false → Completes s i e fun u w' => Beside s u e.n ∧
              (∃ acts, ({ w' with buffer := e.w.buffer } : Wave).idle =
                  { e.w.idle with fstat := (lanesOf e.exec).foldl (fun f r => f ||| flags r) e.w.fstat } ∧ w'.buffer = e.w.buffer ++ acts ∧
                ∀ x ∈ acts, ∃ y bs, x = .store (.scratch t.core (t.windowBase + y)) bs) ∧
              (∀ r k, e.executes r → k < 32 →
                u.windowSeen { e with w := w' } t (place off r k).1 (place off r k).2 = value r k % 2 ^ (8 * (place off r k).2)) ∧
              (fmt.quant = true → ∀ r, e.executes r → u.windowSeen { e with w := w' } t (sideOf r) 1 = (quant r).2.1 % 256)) ∧
            (s.isRound e.w = false → Completes s i e fun u w' => Beside { s with cores := u.cores, free := u.free } u e.n ∧
              w'.idle = { e.w.idle with fstat := (lanesOf e.exec).foldl (fun f r => f ||| flags r) e.w.fstat } ∧
              (∀ r k, e.executes r → k < 32 →
                u.windowHeld e.w.team t (place off r k).1 (place off r k).2 = value r k % 2 ^ (8 * (place off r k).2)) ∧
              (fmt.quant = true → ∀ r, e.executes r → u.windowHeld e.w.team t (sideOf r) 1 = (quant r).2.1 % 256) ∧
              MemFrame s u e.w stored 1)))) ∧
      (OnTiles s (.accld h fmt d a) h e t (fmt == .f64) d tiles →
        let i := Instr.accld h fmt d a
        let off := (lo32 (s.uni e a)).toNat
        let held (r k : Nat) : Nat := s.windowSeen e t (place off r k).1 (place off r k).2
        let wide (r k : Nat) : Nat × Flags := match fmt with
          | .bf16 => convert bf16 fp32 .rne (held r k)
          | .f16 => convert fp16 fp32 .rne (held r k)
          | _ => (held r k, 0)
        (∀ f, accFault fmt t.windowSize off 0 e.exec false = some f →
          RaisesSuppressing s i e (e.onceFault f.1 (BitVec.ofNat 64 f.2) 16 AccKind.load.code 1)) ∧
        (accFault fmt t.windowSize off 0 e.exec false = none →
          (∀ r, e.executes r → (fmt.runs off r).all (fun x => !(s.badWindow t x.1 x.2)) = true) →
          Completes s i e fun u w' => BesideAcc s u t e.n ∧ AccFrame s u t tiles (fun r _ => ¬ e.executes r) ∧
            w'.idle = { e.w.idle with fstat := (lanesOf e.exec).foldl (fun f r =>
              f ||| (List.range 32).foldl (fun g k => g ||| (wide r k).2) 0) e.w.fstat } ∧
            ∀ r k, e.executes r → k < 32 → u.accAt t e.w.team tiles r k = (wide r k).1)))

/-! ### The hurdle array (R346–R353) -/

/-- R346, R347, R349–R351, R354: HCFG sets the configuration, HLD loads cell images and HCLR clears cells, and nothing else of the array;
HRUN starts with its operands. Each raises 0x02 on the values its rule forbids, and in a team without the hurdle claim. R353: HGATH sums, in every executing lane, the leaves its exit row selects, tree after tree from −0, each sum rounded; HEXIT writes the
byte of its column. An undefined configuration and a column above 63 raise 0x02. -/
def Obligations.HurdleArrayLoadedAndGathered : Prop :=
  (∀ (s : State) (h : Head) (e : Env) (tok : BitVec 3) (a b c : Operand) (t : Team),
      let x := s.uni e a
      let core := s.core t.core
      let loads (i : Instr) (first n : Nat) (image : Nat → BitVec 128) : Prop := Completes s i e fun u w' => w'.idle = e.w.idle ∧
        (∃ cells tag bad, (∀ p ∈ bad, p ∈ s.badParts) ∧
          Beside { s.updCore t.core fun q => { q with cells := cells, cellTag := tag } with badParts := bad } u e.n) ∧
        ∀ ep k, (u.core t.core).readCell t.owner ep k =
          if first ≤ k ∧ k < first + n then image (k - first) else core.readCell t.owner ep k
      let round := s.isRound e.w = true
      (∀ i ∈ [Instr.hcfg h a, .hld h a b c, .hclr h a b, .hrun h tok a b c], Executes s i h e → e.exec ≠ 0 → s.teamOf e.w = some t →
        (t.hurdle = false ∨ t.task = true) → Raises s i e (e.trap 0x02)) ∧
      (OnHurdle s (.hcfg h a) h e t →
        let valid := x.toNat / 2 ^ 10 % 16 = 0 ∧ x.toNat / 2 ^ 14 % 4 ≠ 3
        (¬ valid → Raises s (.hcfg h a) e (e.trap 0x02)) ∧
        (valid → round → Buffers s (.hcfg h a) e [.hcfg x]) ∧
        (valid → ¬ round → s.hrunOut e.w.team = true → Waits s (.hcfg h a) e .engines) ∧
        (valid → ¬ round → s.hrunOut e.w.team = false → Completes s (.hcfg h a) e fun u w' => w'.idle = e.w.idle ∧
          Beside (s.updCore t.core fun q => { q with config := some x }) u e.n)) ∧
      (OnHurdle s (.hld h a b c) h e t →
        let src := x.toNat % 2 ^ 32
        let first := (s.uni e b).toNat
        let n := (s.uni e c).toNat
        let image (k : Nat) : BitVec 128 := BitVec.ofNat 128 (s.windowSeen e t (src + 16 * k) 16)
        let reserved (k : Nat) : BitVec 20 := (image k).extractLsb' 44 20
        (n < 1 ∨ 4096 < first + n → Raises s (.hld h a b c) e (e.trap 0x02)) ∧
        (1 ≤ n → first + n ≤ 4096 → src % 16 = 0 → src + 16 * n ≤ t.windowSize → s.badWindow t src (16 * n) = false →
          ((∃ k, k < n ∧ reserved k ≠ 0) → Raises s (.hld h a b c) e (e.trap 0x02)) ∧
          ((∀ k, k < n → reserved k = 0) → round → Buffers s (.hld h a b c) e [.cells first ((List.range n).map image)]) ∧
          ((∀ k, k < n → reserved k = 0) → ¬ round → s.hrunOut e.w.team = false → loads (.hld h a b c) first n image))) ∧
      (OnHurdle s (.hclr h a b) h e t →
        let first := x.toNat
        let n := (s.uni e b).toNat
        (n < 1 ∨ 4096 < first + n → Raises s (.hclr h a b) e (e.trap 0x02)) ∧
        (1 ≤ n → first + n ≤ 4096 → round → Buffers s (.hclr h a b) e [.cells first (List.replicate n 0)]) ∧
        (1 ≤ n → first + n ≤ 4096 → ¬ round → s.hrunOut e.w.team = false → loads (.hclr h a b) first n fun _ => 0)) ∧
      (OnHurdle s (.hrun h tok a b c) h e t → e.w.buffer = [] →
        let i := Instr.hrun h tok a b c
        let base := x.toNat % 2 ^ 32
        let stride := (s.uni e b).toNat % 2 ^ 32
        let exits := (s.uni e c).toNat % 2 ^ 32
        (core.config = none → Raises s i e (e.trap 0x02)) ∧
        ∀ cfg, core.config = some cfg →
          let size := 4 * (cfgFeatures cfg + 1)
          (2 ^ 20 < stride → Raises s i e (e.trap 0x02)) ∧
          (stride ≤ 2 ^ 20 → base % 4 = 0 → stride % 4 = 0 → exits % 64 = 0 →
            (∀ l, e.executes l → base + l * stride + size ≤ t.windowSize ∧ exits + 64 * l + 64 ≤ t.windowSize ∧
              ¬ (exits + 64 * l < 0x1000 ∧ 0x800 < exits + 64 * l + 64)) →
            let run : Engine := { wave := e.n, team := e.w.team, token := some tok.toNat, channel := none, pageWait := none,
                                  op := .hrun base stride exits e.exec }
            (¬ round → StartsEngine s i e run e.w.wp) ∧ (round → s.atBell = false → BuffersEngine s i e run e.w.wp)))) ∧
  (∀ (s : State) (h : Head) (e : Env) (d a b : Operand) (t : Team),
      let exits := (s.uni e a).toNat % 2 ^ 32
      let row (l k : Nat) : Nat := s.windowSeen e t (exits + 64 * l + k) 1
      (OnHurdle s (.hgath h d a b) h e t →
        let leaves := (s.uni e b).toNat % 2 ^ 32
        ((s.core t.core).config = none → Raises s (.hgath h d a b) e (e.trap 0x02)) ∧
        ∀ cfg, (s.core t.core).config = some cfg →
          let trees := (s.core t.core).trees t.owner e.w.team cfg
          exits % 64 = 0 → leaves % 4 = 0 →
          (∀ l, e.executes l → exits + 64 * l + 64 ≤ t.windowSize ∧ s.badWindow t (exits + 64 * l) 64 = false) →
          (∀ tr ∈ trees, tr.cells ≠ [] → leaves + 256 * (tr.lead + tr.cols) ≤ t.windowSize ∧
            s.badWindow t (leaves + 256 * tr.lead) (256 * tr.cols) = false) →
          let sum (l : Nat) : Nat × Flags := leafSum (row l) (fun off => s.windowSeen e t (leaves + off) 4) trees (0x80000000, 0)
          Completes s (.hgath h d a b) e fun u w' => Beside s u e.n ∧ w'.chains = e.w.chains ∧
            LaneResults e (.hgath h d a b) d 1 (fun l _ => bits64 (sum l)) w') ∧
      (OnHurdle s (.hexit h d a b) h e t →
        let col := (s.uni e b).toNat
        (63 < col → Raises s (.hexit h d a b) e (e.trap 0x02)) ∧
        (col ≤ 63 → (∀ l, e.executes l → exits + 64 * l + col < t.windowSize ∧ s.badWindow t (exits + 64 * l + col) 1 = false) →
          LaneWrites s (.hexit h d a b) d 1 e fun l => BitVec.ofNat 64 (row l col))))

/-- R347, R348, R351, R352: an HRUN completes with an exit row for each of its lanes, in which the byte of a tree's lead column is the
lowest leaf that no failed test of the tree clears, 0xFD marks an empty tree and 0xFF one without a leaf; the lanes of malformed trees
stick in %hstat, and its token completes. -/
def Obligations.HurdleRunWritesExits : Prop :=
  ∀ (s : State) (id : Nat) (x : Engine) (t : Team) (w : Wave) (base stride exits : Nat) (mask : W32) (cfg : W64),
    let trees := (s.core t.core).trees t.owner x.team cfg
    let size := 4 * (cfgFeatures cfg + 1)
    let lanes := lanesOf mask
    let feature (l f : Nat) : Nat := s.windowHeld x.team t (base + l * stride + 4 * f) 4
    s.engine? id = some x → x.op = .hrun base stride exits mask → s.team? x.team = some t → s.teamRuns t = true →
    s.wave? x.wave = some w → (s.core t.core).config = some cfg → s.engineActs x = true → (s.core t.core).Tagged →
    (∀ k y b r q m, (k, y) ∈ s.engines → k < id → y.team = x.team → y.op ≠ .hrun b r q m) →
    (∀ l ∈ lanes, s.badWindow t (base + l * stride) size = false) → (s.core t.core).badSpad = [] →
    (∀ k, Part.cell t.core k ∉ s.badParts) →
    (∀ l ∈ lanes, ∀ k ∈ lanes, base + l * stride + size ≤ exits + 64 * k ∨ exits + 64 * k + 64 ≤ base + l * stride) →
    ∃ u w', exec (.hrunCompletion id) s = .next u ∧ EngineEnds s u id x false ∧ u.mem = s.mem ∧ u.wave? x.wave = some w' ∧
      w'.fstat = w.fstat ∧
      (∀ l ∈ lanes, ∀ tr ∈ trees, ∀ k, k < tr.cols →
        tr.exitByte cfg (feature l) k (u.windowHeld x.team t (exits + 64 * l + tr.lead + k) 1)) ∧
      (∀ l, l < 32 → (w'.hstat.getLsbD l = true ↔ w.hstat.getLsbD l = true ∨
        l ∈ lanes ∧ ∃ tr ∈ trees, tr.cells ≠ [] ∧ ∀ i, i < 64 * tr.cols → ¬ tr.keeps cfg (feature l) i)) ∧
      (∀ j y ep, (j ≠ t.core ∨ ∀ l ∈ lanes, y < t.windowBase + exits + 64 * l ∨ t.windowBase + exits + 64 * l + 64 ≤ y) →
        (u.core j).readS t.owner ep y = (s.core j).readS t.owner ep y)

/-! ### Tasks, launches and budgets (R83–R90, R108–R116, R355–R364) -/

/-- R85, R88, R355–R357: POST and SPAWN read their cards and commit copies to the queue of their target, filled by R85; a lane posts where its
depth and the pool allow, in lane order, and the predicate tells which lanes did. A card that R85 refuses and a core outside the
placement set raise 0x02 before any lane posts. R90, R184: in round mode the bell posts them, to the queue of die 0. -/
def Obligations.CardsPosted : Prop :=
  ∀ (s : State) (h : Head) (e : Env) (tg : PostTarget) (d a c : Operand) (o : Owner) (q : Nat) (Q : TaskQueue),
    s.owner? e.w.owner = some o → e.exec ≠ 0 → e.carry = 0 → o.commits = [] →
    (∀ i ∈ [Instr.postInstruction h .core d a c, .spawn h .core d a c], Executes s i h e → s.isRound e.w = false → (s.uni e c).toNat ∉ o.placement →
      Raises s i e (e.trap 0x02)) ∧
    (TargetIs s e o tg c q → Tab.find o.queues q = some Q → Q.ctl.reserve + 80 * 32 ≤ Q.ctl.release + 2 ^ Q.ctl.log2 →
      (∀ i, i = Instr.postInstruction h tg d a c →
        let card := s.cardAt e.w o (s.uni e a).toNat
        let depth := e.w.depthOf e.firstExec + 1
        let fits := depth.toNat ≤ o.nesting ∧ o.pool < o.poolQuota
        ReadableRecord s e.w o (s.uni e a).toNat 32 →
        (Executes s i h e → ¬ card.postable → Raises s i e (e.trap 0x02)) ∧
        (InRound s i h e → card.postable → Defers s i e e.exec) ∧
        (Performs s i h e → card.postable → fits → Completes s i e fun u w' => Posts s u e o q [(card, depth)] ∧ PredResults e d (fun _ => (true, 0)) w') ∧
        (Performs s i h e → card.postable → ¬ fits → Completes s i e fun u w' => Beside s u e.n ∧ PredResults e d (fun _ => (false, 0)) w')) ∧
      (∀ i, i = Instr.spawn h tg d a c →
        let card (l : Nat) : TaskRec := s.cardAt e.w o (s.read64 e a l 0).toNat
        let go := postingLanes e.w o (lanesOf e.exec) o.pool
        (∀ l, e.executes l → ReadableRecord s e.w o (s.read64 e a l 0).toNat 32) →
        (Executes s i h e → (∃ l, e.executes l ∧ ¬ (card l).postable) → Raises s i e (e.trap 0x02)) ∧
        (InRound s i h e → (∀ l, e.executes l → (card l).postable) → Defers s i e e.exec) ∧
        (Performs s i h e → (∀ l, e.executes l → (card l).postable) → Completes s i e fun u w' =>
          PredResults e d (fun l => (decide (l ∈ go), 0)) w' ∧ (go = [] → Beside s u e.n) ∧
          (go ≠ [] → Posts s u e o q (go.map fun l => (card l, e.w.depthOf l + 1))))))

/-- R86, R88, R359, R360: JINIT writes the count and the continuation into an object whose count is 0 and charges one pool entry; a count
that is 0 or beyond 32 bits, a record that R85 refuses, and an object in use raise 0x02; it waits while the package holds 65 536 entries. TEND decrements the
object each lane names, in lane order, and a count found at zero is an engine error after it. A decrement writes the count less one, and
the one from 1 posts the continuation and frees the object's entry for it, unless the launch that initialised the object has completed:
then it is never posted. R184, R358: in round mode the bell performs both. -/
def Obligations.JoinObjectsCount : Prop :=
  (∀ (s : State) (h : Head) (e : Env) (a b c : Operand) (o : Owner), s.owner? e.w.owner = some o → e.exec ≠ 0 →
    (∀ i, i = Instr.jinit h a b c →
      let obj := (s.uni e a).toNat
      let count := (s.uni e b).toNat
      let card := s.cardAt e.w o (s.uni e c).toNat
      let valid := 1 ≤ count ∧ count < 2 ^ 32
      (Executes s i h e → ¬ valid → Raises s i e (e.trap 0x02)) ∧
      (valid → ReadableRecord s e.w o (s.uni e c).toNat 32 →
        (Executes s i h e → ¬ card.postable → Raises s i e (e.trap 0x02)) ∧
        (card.postable → o.checkGlobal obj 64 .atomic = none → o.remoteAt obj = none → s.badGlobal (s.dieOf e.w) o obj 64 = false →
          let held := ofLe (o.bytes e.w.owner s.now obj 4)
          (InRound s i h e → Defers s i e e.exec) ∧
          (Performs s i h e → held ≠ 0 → Raises s i e (e.trap 0x02)) ∧
          (Performs s i h e → held = 0 → 65536 ≤ s.poolTotal → Waits s i e .poolMax) ∧
          (Performs s i h e → held = 0 → s.poolTotal < 65536 → Completes s i e fun u w' => w'.idle = e.w.idle ∧ ∃ (o' : Owner) (r : TaskRec), u.owner? e.w.owner = some o' ∧
            Beside (s.putBytes (s.writer e.w) e.w.owner obj (leBytes 4 count ++ leBytes 4 0 ++ TaskRec.bytes r ++ leBytes 24 0)) { u with owners := s.owners } e.n ∧
            o'.pool = o.pool + 1 ∧ { o' with pool := o.pool, joins := o.joins, deadJoins := o.deadJoins } = o ∧
            o'.deadJoins = o.deadJoins.filter (fun j => j != obj) ∧
            o'.joins = (o.joins.filter fun j => j.address != obj) ++ [{ address := obj, launch := e.w.launch }] ∧
            (∀ j, j ≠ e.w.owner → u.owner? j = s.owner? j) ∧
            r.kind = 1 ∧ r.prio = min card.prio o.ceiling ∧ r.rnd = s.isRound e.w ∧ r.entry = card.entry ∧ r.arg = card.arg ∧ r.join = card.join ∧
            r.depth = e.w.depthOf e.firstExec ∧ r.ownerTag = BitVec.ofNat 32 e.w.owner)))) ∧
    (∀ i, i = Instr.tend h a →
      let addr (l : Nat) : W64 := s.read64 e a l 0
      let lanes := (lanesOf e.exec).filter fun l => addr l != 0
      let done (u : State) (w' : Wave) : Prop := Beside (s.decrementAll e.w addr lanes) u e.n ∧ w'.idle = e.w.idle
      (InRound s i h e → (∀ l ∈ lanes, ∃ x, s.checkAccess e.w .global (addr l).toNat 64 .atomic = .ok x) →
        Defers s i e (if lanes = [] then e.exec else maskOf lanes)) ∧
      (Performs s i h e → lanes = [] → OnlyRetires s i e) ∧
      (Performs s i h e → lanes ≠ [] → Lands s e .global 64 .atomic true lanes (fun l => (addr l).toNat) (fun l => .global (addr l).toNat) →
        (s.findsZero e.w addr lanes = false → Completes s i e done) ∧
        (s.findsZero e.w addr lanes = true → RaisesAfter s i e (e.engineError 0 0) done)))) ∧
  (∀ (s : State) (by' : Writer) (id va q : Nat) (l : Option Nat) (o : Owner), s.owner? id = some o →
    let b := o.bytes id s.now va 64
    let count := leAt b 0 4
    let r := s.decrement by' id va q l
    (count = 0 → r = (true, s)) ∧
    (1 < count → r = (false, s.putBytes by' id va (leBytes 4 (count - 1)))) ∧
    (count = 1 → va ∉ o.deadJoins → r.1 = false ∧ r.2.mem = (s.putBytes by' id va (leBytes 4 0)).mem ∧ ∃ o', r.2.owner? id = some o' ∧
      (∀ j ∈ o'.joins, j.address ≠ va) ∧
      o'.pool = (if o.joins.any fun j => j.address == va then o.pool - 1 else o.pool) + 1) ∧
    (count = 1 → va ∈ o.deadJoins → r.1 = false ∧
      { r.2 with owners := s.owners } = { s.putBytes by' id va (leBytes 4 0) with owners := s.owners } ∧
      ∃ o', r.2.owner? id = some o' ∧ { o' with deadJoins := o.deadJoins } = o ∧ va ∉ o'.deadJoins))

/-- R69, R70, R88, R361: LAUNCH accepts a valid record where the pool, the nesting limit and checks 3 to 5 allow: a launch of the owner's
next sequence number, one level deeper, that belongs to the issuing wave's launch and holds a pool entry, and the predicate is true;
where they do not, the predicate is false and nothing is launched. A record that breaks check 2 or is spanned raises 0x02. R184: in round mode the bell performs it. -/
def Obligations.LaunchesFromPrograms : Prop :=
  ∀ (s : State) (h : Head) (e : Env) (d a : Operand) (o : Owner),
    let i := Instr.launchInstruction h d a
    let b := o.bytes e.w.owner (s.viewOf e.w) (s.uni e a).toNat 128
    let r := launchRecOf b
    let depth := e.w.depthOf e.firstExec + 1
    let accepted := o.launchStatus r = none ∧ depth.toNat ≤ o.nesting ∧ o.pool < o.poolQuota
    e.exec ≠ 0 → s.owner? e.w.owner = some o →
    ReadableRecord s e.w o (s.uni e a).toNat 128 →
    (Executes s i h e → launchRecOk b = false ∨ r.spanned = true → Raises s i e (e.trap 0x02)) ∧
    (InRound s i h e → launchRecOk b = true → r.spanned = false → Defers s i e e.exec) ∧
    (Performs s i h e → launchRecOk b = true → r.spanned = false → ¬ accepted →
      Completes s i e fun u w' => Beside s u e.n ∧ PredResults e d (fun _ => (false, 0)) w') ∧
    (Performs s i h e → launchRecOk b = true → r.spanned = false → accepted → Completes s i e fun u w' => PredResults e d (fun _ => (true, 0)) w' ∧
      u.owner? e.w.owner = some { o with launchSeq := o.launchSeq + 1, pool := o.pool + 1 } ∧ u.nextId = s.nextId + 1 ∧ u.mem = s.mem ∧
      (∀ j, u.team? j = s.team? j) ∧ ∃ l, u.launch? s.nextId = some l ∧ l.owner = e.w.owner ∧ l.seq = o.launchSeq ∧ l.lr = r ∧ l.depth = depth ∧
        l.parent = e.w.launch ∧ l.charged = true ∧ l.placed = 0 ∧ l.status = 0 ∧ l.round = r.round ∧ l.complete = false)

/-- R108, R109, R113, R114, R362–R364: CLAIM is granted from the team's spare first and then from the core's free units or tiles, the new
tiles read zero, and its predicate is true; one that does not fit and does not wait leaves everything and its predicate is false. GIVE
moves the wave's highest units or the team's highest tiles to the team's spare, and waits while a result for one of them is to come. DPUSH appends to an open queue, waits while it holds 64
entries, and raises 0x02 at a closed one; DCLOSE closes its queue. R110, R183: in round mode the bell performs CLAIM and GIVE, and a CLAIM
then draws on the spare alone. -/
def Obligations.BudgetsAndQueuesMove : Prop :=
  ∀ (s : State) (h : Head) (e : Env) (wait : Bool) (d a : Operand) (q : BitVec 2) (t : Team),
    let n := (s.uni e a).toNat
    let free := s.claimTiles t.core
    let ordinary := s.isRound e.w = false
    s.teamOf e.w = some t → e.exec ≠ 0 → e.carry = 0 →
    (∀ tiles, Executes s (.claim h wait tiles d a) h e →
      let i := Instr.claim h wait tiles d a
      let limit := if tiles then t.tiles.length + n ≤ 64 else e.w.units + n ≤ 32
      (n < 1 ∨ ¬ limit → Raises s i e (e.trap 0x02)) ∧
      (1 ≤ n → limit → InRound s i h e → Defers s i e e.exec)) ∧
    (∀ tiles, AtBell s (.claim h wait tiles d a) e → 1 ≤ n → (if tiles then t.tiles.length + n ≤ 64 else e.w.units + n ≤ 32) →
      let i := Instr.claim h wait tiles d a
      let spare := if tiles then t.spareTiles.length else t.spareUnits
      let new := t.spareTiles.take n
      (n ≤ spare → tiles = false → Completes s i e fun u w' => Beside (s.updTeam e.w.team fun x => { x with spareUnits := x.spareUnits - n }) u e.n ∧
        w'.units = e.w.units + n ∧ PredResults { e with w := { e.w with units := w'.units } } d (fun _ => (true, 0)) w') ∧
      (n ≤ spare → tiles = true → new.Nodup → (∀ x ∈ new, x < 64) → Completes s i e fun u w' =>
        Beside { s.updTeam e.w.team (fun x => { x with tiles := x.tiles ++ new, spareTiles := x.spareTiles.drop n }) with cores := u.cores } u e.n ∧
          AccFrame s u t new (fun _ _ => False) ∧ (∀ x ∈ new, ∀ ep i j, i < 32 → j < 32 → (u.core t.core).readAcc t.owner ep x i j = 0) ∧
          PredResults e d (fun _ => (true, 0)) w') ∧
      (spare < n → wait = false → Completes s i e fun u w' => Beside s u e.n ∧ PredResults e d (fun _ => (false, 0)) w') ∧
      (spare < n → wait = true → Waits s i e .claim)) ∧
    (ordinary → Executes s (.claim h wait false d a) h e → 1 ≤ n → e.w.units + n ≤ 32 → (s.core t.core).claims = [] →
      let i := Instr.claim h wait false d a
      (n ≤ t.spareUnits + s.freeUnits t.core → Completes s i e fun u w' =>
        Beside { s.updTeam e.w.team (fun x => { x with spareUnits := x.spareUnits - n }) with cores := u.cores } u e.n ∧
          (∀ c, u.core c = s.core c) ∧ w'.units = e.w.units + n ∧ PredResults { e with w := { e.w with units := w'.units } } d (fun _ => (true, 0)) w') ∧
      (t.spareUnits + s.freeUnits t.core < n → wait = false →
        Completes s i e fun u w' => Beside s u e.n ∧ PredResults e d (fun _ => (false, 0)) w')) ∧
    (ordinary → Executes s (.claim h wait true d a) h e → 1 ≤ n → t.tiles.length + n ≤ 64 → (s.core t.core).claims = [] →
      let i := Instr.claim h wait true d a
      let new := (t.spareTiles ++ free).take n
      (n ≤ (t.spareTiles ++ free).length → new.Nodup → (∀ x ∈ new, x < 64) → Completes s i e fun u w' =>
        Beside { s.updTeam e.w.team (fun x => { x with tiles := x.tiles ++ new, spareTiles := x.spareTiles.drop n }) with cores := u.cores } u e.n ∧
          AccFrame s u t new (fun _ _ => False) ∧ (∀ x ∈ new, ∀ ep i j, i < 32 → j < 32 → (u.core t.core).readAcc t.owner ep x i j = 0) ∧
          PredResults e d (fun _ => (true, 0)) w') ∧
      ((t.spareTiles ++ free).length < n → wait = false →
        Completes s i e fun u w' => Beside s u e.n ∧ PredResults e d (fun _ => (false, 0)) w')) ∧
    (∀ i, i = Instr.give h false a →
      (Executes s i h e → n < 1 ∨ e.w.units < n + 1 → Raises s i e (e.trap 0x02)) ∧
      (Executes s i h e → 1 ≤ n → n + 1 ≤ e.w.units → e.w.awaited e.k (8 * (e.w.units - n)) = true → Waits s i e .tile) ∧
      (InRound s i h e → 1 ≤ n → n + 1 ≤ e.w.units → e.w.awaited e.k (8 * (e.w.units - n)) = false → Defers s i e e.exec) ∧
      (Performs s i h e → 1 ≤ n → n + 1 ≤ e.w.units → e.w.awaited e.k (8 * (e.w.units - n)) = false → Completes s i e fun u w' =>
        Beside (s.updTeam e.w.team fun x => { x with spareUnits := x.spareUnits + n }) u e.n ∧ w'.units = e.w.units - n ∧
          (∀ r l, l < 32 → r < 8 * (e.w.units - n) → w'.vreg r l = e.w.vreg r l) ∧
          ({ w' with units := e.w.units, v := e.w.v, bad := e.w.bad } : Wave).idle = e.w.idle)) ∧
    (∀ i, i = Instr.give h true a →
      let gone := t.tiles.drop (t.tiles.length - n)
      (Executes s i h e → n < 1 ∨ t.tiles.length < n → Raises s i e (e.trap 0x02)) ∧
      (InRound s i h e → 1 ≤ n → n ≤ t.tiles.length → (∀ m ∈ t.waves, s.tileBusy m gone = false) → Defers s i e e.exec) ∧
      (Executes s i h e → 1 ≤ n → n ≤ t.tiles.length → (∃ m ∈ t.waves, s.tileBusy m gone = true) → Waits s i e .tile) ∧
      (Performs s i h e → 1 ≤ n → n ≤ t.tiles.length → (∀ m ∈ t.waves, s.tileBusy m gone = false) → Completes s i e fun u w' => w'.idle = e.w.idle ∧
        Beside (s.updTeam e.w.team fun x => { x with tiles := t.tiles.take (t.tiles.length - n), spareTiles := gone ++ x.spareTiles })
          u e.n)) ∧
    (Executes s (.dpush h q a) h e →
      let i := Instr.dpush h q a
      let x := t.queue q.toNat
      (x.closed = true → Raises s i e (e.trap 0x02)) ∧
      (x.closed = false → 64 ≤ x.entries.length → Waits s i e (.pushFull q.toNat)) ∧
      (x.closed = false → x.entries.length < 64 → ∃ u w' t', exec i s = .next u ∧ u.wave? e.n = some w' ∧ GoesOn e u w' ∧
        w'.idle = e.w.idle ∧ Beside s u e.n ∧ u.team? e.w.team = some t' ∧
        (t'.queue q.toNat) = { x with entries := x.entries ++ [s.uni e a] } ∧ ∀ j, j ≠ q.toNat → t'.queue j = t.queue j)) ∧
    (Executes s (.dclose h q) h e → ∃ u w' t', exec (.dclose h q) s = .next u ∧ u.wave? e.n = some w' ∧ GoesOn e u w' ∧
      w'.idle = e.w.idle ∧ Beside s u e.n ∧ u.team? e.w.team = some t' ∧
      (t'.queue q.toNat) = { t.queue q.toNat with closed := true } ∧ ∀ j, j ≠ q.toNat → t'.queue j = t.queue j)

/-! ### Special registers and handlers (R102, R206, R209, R215, R365–R368) -/

/-- R66, R102, R206, R209, R365: SRD reads a register of R102 by number, %trec, %depth, %owner and %hmode, once into an S register or in every
executing lane of a V register or an even pair; SWR writes the writable registers and nothing else. A number from 0x100 up, a register
per lane into S, an odd pair, a register that is not writable, and a value a register refuses raise 0x02; a system register in user mode
raises 0x08. In system mode the registers from 0x20 to 0xFF are the firmware's: that a read gives a free value is log entry 2, that a write
has no effect in the model log entry 154. %clk in ordinary mode is a free value too. -/
def Obligations.SpecialRegistersReadAndWritten : Prop :=
  ∀ (s : State) (h : Head) (e : Env) (d a b : Operand),
    e.exec ≠ 0 →
    (Executes s (.srd h d a) h e →
      let i := Instr.srd h d a
      let num := (s.uni e a).toNat
      let pair := num ∈ [0x02, 0x0C, 0x0D, 0x0E, 0x0F, 0x10, 0x11, 0x12, 0x13, 0x17, 0x19, 0x1A, 0x1B, 0x1C]
      let perLane := num ∈ [0x00, 0x07, 0x08, 0x16, 0x1D]
      let nat (n : Nat) : W64 := BitVec.ofNat 64 n
      let ofTeam (f : Team → Nat) : W64 := ((s.teamOf e.w).map fun t => nat (f t)).getD 0
      let wid (l : Nat) : W64 := if e.w.task then Tab.getD e.w.taskIndex l 0 else e.w.widBase + nat l
      let value (l : Nat) : W64 := match num with
        | 0x00 => nat l
        | 0x01 => nat e.w.index
        | 0x02 => ofTeam (·.index)
        | 0x03 => ofTeam (·.core % 64)
        | 0x04 => ofTeam (·.core / 64)
        | 0x05 => ((s.launchOf e.w).map fun x =>
            if x.lr.spanned then nat (e.w.widBase.toNat / 2 ^ ((x.lr.widths.take 5).foldl (· + ·) 0)) else 0).getD 0
        | 0x06 => nat e.w.role
        | 0x07 => (lo32 (wid l)).setWidth 64
        | 0x08 => (hi32 (wid l)).setWidth 64
        | 0x09 => e.active.setWidth 64
        | 0x0A => e.w.emask.setWidth 64
        | 0x0B => ofTeam (·.waves.length)
        | 0x0C | 0x0D | 0x0E | 0x0F => Tab.getD e.w.wp (num - 0x0C) 0
        | 0x10 | 0x11 | 0x12 | 0x13 => (e.w.chain (num - 0x10)).out
        | 0x14 => e.w.fstat.setWidth 64
        | 0x15 => e.w.hstat.setWidth 64
        | 0x16 => (Tab.getD e.w.fabs l 0).setWidth 64
        | 0x17 => e.w.round
        | 0x18 => nat e.w.lt
        | 0x19 => if s.isRound e.w then e.w.retired else Config.freeClock s.clock
        | 0x1A => e.w.utvec
        | 0x1B => e.w.trapArea
        | 0x1C => s.trecOf e.w
        | 0x1D => (e.w.depthOf l).setWidth 64
        | 0x1E => nat e.w.owner
        | _ => match e.w.hmode with
          | .none => 0
          | .user => 1
          | .system => 2
      (0x100 ≤ num → Raises s i e (e.trap 0x02)) ∧
      (0x20 ≤ num → num < 0x100 → e.w.hmode = .system → ∃ x : W64, Completes s i e fun u w' =>
        Beside { s with free := s.free + 1 } u e.n ∧ (∀ n, d = .s n → w'.idle = (e.w.setS n.toNat x).idle) ∧
        (∀ n l, d = .v n → e.executes l → w'.vreg n.toNat l = lo32 x)) ∧
      (∀ n, d = .s n → num < 0x20 → (perLane → Raises s i e (e.trap 0x02)) ∧
        (¬ perLane → Completes s i e fun u w' => Beside s u e.n ∧ w'.idle = (e.w.setS n.toNat (value e.first)).idle)) ∧
      (∀ n, d = .v n → num < 0x20 →
        (pair → n.toNat % 2 = 1 → Raises s i e (e.trap 0x02)) ∧
        (pair → n.toNat % 2 = 0 → n.toNat + 1 < 8 * e.w.units → LaneWrites s i d 2 e value) ∧
        (¬ pair → LaneWrites s i d 1 e value))) ∧
    (Executes s (.swr h a b) h e →
      let i := Instr.swr h a b
      let num := (s.uni e a).toNat
      let x := s.uni e b
      let sets (w : Wave) : Prop := Completes s i e fun u w' => Beside s u e.n ∧ w'.idle = w.idle
      (num = 0x14 → (lo32 x).toNat < 64 → sets { e.w with fstat := lo32 x }) ∧
      (num = 0x14 → 64 ≤ (lo32 x).toNat → Raises s i e (e.trap 0x02)) ∧
      (num = 0x15 → sets { e.w with hstat := lo32 x }) ∧
      (num = 0x1A → sets { e.w with utvec := x }) ∧
      (num = 0x1B → e.w.task = false → x ≠ 0 → x.toNat % 64 = 0 → sets { e.w with trapArea := x }) ∧
      (num = 0x1B → (x = 0 ∨ x.toNat % 64 ≠ 0) → Raises s i e (e.trap 0x02)) ∧
      ((num < 0x20 ∨ 0x100 ≤ num) → num ∉ [0x14, 0x15, 0x1A, 0x1B] → Raises s i e (e.trap 0x02)) ∧
      (0x20 ≤ num → num < 0x100 → e.w.hmode = .system → OnlyRetires s i e)) ∧
    (∀ i ∈ [Instr.srd h d a, .swr h a b], Issued s h e → i.codesOk = true → e.w.outside i = false → a.uniform = true →
      popsFor (s.teamOf e.w) i = .values e.pops → e.w.hmode ≠ .system → 0x20 ≤ (s.uni e a).toNat → (s.uni e a).toNat < 0x100 →
      Raises s i e (e.trap 0x08))

/-- R96, R133, R134, R215, R216, R366, R367: RTU restores the trap context and continues the trapping split as its mode states: retry, next,
remove, which ends the lanes of the fault mask, and term, which terminates the team. PACK in a handler for 0x40 ends the wave's part of
its team with the save area and the entry it names. Each raises 0x01 where its handler's conditions do not hold. That a retried suppressing
word takes its pops anew and is not counted again is log entry 34, that a word which is passed by pops nothing log entry 33. -/
def Obligations.HandlersReturnAndPack : Prop :=
  ∀ (s : State) (h : Head) (e : Env) (a b : Operand) (c : TrapCtx) (p : Split),
    e.exec ≠ 0 → s.isRound e.w = false → c.late = false →
    (∀ m, Executes s (.rtu h m) h e →
      let i := Instr.rtu h m
      let alone := e.w.splits = [(e.k, e.sp)] ∧ e.sp.stack = [] ∧ e.sp.spill = [] ∧ e.sp.context = []
      (e.w.trapCtx = none → Raises s i e (e.trap 0x01)) ∧
      (InHandler e c → (e.w.splits.length ≠ 1 ∨ e.sp.stack ≠ [] ∨ e.sp.spill ≠ [] ∨ e.sp.context ≠ []) → Raises s i e (e.trap 0x01)) ∧
      (InHandler e c → alone → Tab.find c.splits c.split = some p →
        (m = .retry → ∃ u q, exec i s = .next u ∧ RetriedSplit c p q ∧ Returned s u e c q) ∧
        let past := if c.kind ≤ 2 then p.past (c.kind == 1 || p.counted) (c.kind == 2) c.carry c.execMask else p
        (m = .next → ∃ u, exec i s = .next u ∧ Returned s u e c past) ∧
        (m = .remove → ¬ (c.kind = 1 ∧ c.deferred ≠ 0) → p.mask &&& ~~~c.faultMask ≠ 0 →
          ∃ u, exec i s = .next u ∧ Returned s u e c { past with mask := p.mask &&& ~~~c.faultMask }) ∧
        (m = .remove → c.kind = 1 → c.deferred ≠ 0 → p.mask &&& ~~~c.faultMask ≠ 0 → ∃ u, exec i s = .next u ∧
          Returned s u e c { p.again c.deferred true c.carry true [] c.execMask with mask := p.mask &&& ~~~c.faultMask }) ∧
        (m = .term → ∀ t, s.teamOf e.w = some t → t.launch = e.w.launch → ∃ u, exec i s = .next u ∧ u.team? e.w.team = none ∧
          ∀ l x, t.launch = some l → s.launch? l = some x → x.status < 0x21 →
            (u.launch? l).map (fun y => (y.status, y.cause)) = some (0x21, c.cause)))) ∧
    (Executes s (.pack h a b) h e →
      let i := Instr.pack h a b
      let entry := s.uni e b
      ((e.w.trapCtx = none ∨ ∃ x, e.w.trapCtx = some x ∧ x.cause ≠ 0x40) → Raises s i e (e.trap 0x01)) ∧
      (InHandler e c → c.cause = 0x40 → (entry.toNat % 8 ≠ 0 ∨ 2 ^ 56 ≤ entry.toNat) → Raises s i e (e.trap 0x02)) ∧
      (InHandler e c → c.cause = 0x40 → entry.toNat % 8 = 0 → entry.toNat < 2 ^ 56 → s.matrixOut e.n = false → e.resultsOut = false →
        ∀ t, s.teamOf e.w = some t →
        t.launch = e.w.launch →
        ((∃ m ∈ t.waves, m ≠ e.n ∧ (s.wave? m).map (·.life) = some .running) → ∃ u w', exec i s = .next u ∧ u.wave? e.n = some w' ∧
          u.cur = none ∧ w'.life = .packed ∧ w'.resumeAt = some (s.uni e a, entry) ∧ w'.splits = [] ∧ w'.trapCtx = none ∧
          w'.hmode = .none ∧ w'.reserved = [] ∧ w'.holds = [] ∧ w'.s = e.w.s ∧ w'.chains = e.w.chains ∧ (u.team? e.w.team).isSome = true) ∧
        (e.n ∈ t.waves → (∀ m ∈ t.waves, m ≠ e.n → (s.wave? m).map (·.life) ≠ some .running) → t.task = false → t.preempt.isSome = true →
          (∀ x ∈ s.engines, x.2.team ≠ e.w.team) → ∃ u v k, exec i s = .next u ∧ u.team? e.w.team = none ∧ Tab.find u.saved k = some v ∧
            v.id = e.w.team ∧ v.forced = false ∧ (Tab.find v.waves e.n).map (·.resumeAt) = some (some (s.uni e a, entry)))))

/-- R140, R208–R210, R220, R368: in system mode STKSV, STKLD and RTS complete, and in user mode they and TLBINV raise 0x08. STKSV stores a
split's stack as 256 bytes and leaves it empty, and STKLD of those bytes brings the stack back; that the bytes are free, that they stand for
the stack kept beside them, and that other bytes give a free stack of at most sixteen entries is log entry 54. RTS ends the handler: as a retry for 0x06 and 0x18, into the user
handler for 0x01, 0x02 and a machine check where there is one to go to, and into termination otherwise. -/
def Obligations.SystemHandlerInstructions : Prop :=
  ∀ (s : State) (h : Head) (e : Env) (sp : BitVec 2) (a b : Operand) (o : Owner) (pg : Page) (f : Nat),
    let x := (s.uni e a).toNat
    let k := pg.place f x
    let bare (q : Split) : Split := { q with windows := [], stack := [] }
    let goes (u : State) (w' : Wave) : Prop := u.cur = (if e.sp.atLast then none else some (e.n, e.k)) ∧ w'.idle = e.w.idle ∧
      (Tab.find w'.splits e.k).map bare = some (bare e.sp.advance) ∧
      ∀ j, j ≠ e.k → j ≠ sp.toNat → Tab.find w'.splits j = Tab.find e.w.splits j
    Issued s h e → e.exec ≠ 0 → e.w.drover = false →
    (∀ i ∈ [Instr.stksv h sp a, .stkld h sp a, .rts h, .tlbinv h a b], i.codesOk = true → e.w.hmode ≠ .system →
      Raises s i e { e.trap 0x08 with counted := false }) ∧
    (e.w.hmode = .system → s.isRound e.w = false → s.owner? e.w.owner = some o → (∀ i, i < 4 → o.checkGlobal (x + 64 * i) 64 .store = none ∧
        o.checkGlobal (x + 64 * i) 64 .load = none) → o.pageAt x = some pg → pg.frame = some f →
        pg.remote = none → s.badGlobal (s.dieOf e.w) o x 256 = false →
      (Executes s (.stksv h sp a) h e →
        (Tab.find e.w.splits sp.toNat = none → Raises s (.stksv h sp a) e (e.trap 0x02)) ∧
        (∀ p, Tab.find e.w.splits sp.toNat = some p → ∃ u w' bs, exec (.stksv h sp a) s = .next u ∧ u.wave? e.n = some w' ∧
          goes u w' ∧ bs.length = 256 ∧ u.mem = ({ s with free := s.free + 256 }.writeTarget e.w (.global x) bs).mem ∧
          Tab.find u.savedStacks k = some (p.stack, bs) ∧ (Tab.find w'.splits sp.toNat).map (·.stack) = some [])) ∧
      (Executes s (.stkld h sp a) h e →
        (Tab.find e.w.splits sp.toNat = none → Raises s (.stkld h sp a) e (e.trap 0x02)) ∧
        (∀ p st bs, Tab.find e.w.splits sp.toNat = some p → Tab.find s.savedStacks k = some (st, bs) →
          o.bytes e.w.owner (s.viewOf e.w) x 256 = bs → ∃ u w', exec (.stkld h sp a) s = .next u ∧ u.wave? e.n = some w' ∧
            goes u w' ∧ Beside s u e.n ∧ (Tab.find w'.splits sp.toNat).map (·.stack) = some st) ∧
        (∀ p, Tab.find e.w.splits sp.toNat = some p → (∀ y, Tab.find s.savedStacks k = some y → y.2 ≠ o.bytes e.w.owner (s.viewOf e.w) x 256) →
          ∃ u w' st, exec (.stkld h sp a) s = .next u ∧ u.wave? e.n = some w' ∧
          goes u w' ∧ u.mem = s.mem ∧ (Tab.find w'.splits sp.toNat).map (·.stack) = some st ∧ st.length ≤ 16))) ∧
    (Executes s (.rts h) h e → e.w.hmode = .system → s.isRound e.w = false →
      (e.w.sysCtx = none → Raises s (.rts h) e (e.trap 0x01)) ∧
      (∀ c, e.w.sysCtx = some c → c.toUser = none → ∃ u w', exec (.rts h) s = .next u ∧ u.wave? e.n = some w' ∧ u.mem = s.mem ∧
        w'.sysCtx = none ∧ w'.hmode = (if e.w.trapCtx.isSome then .user else .none) ∧ w'.trapCtx = e.w.trapCtx) ∧
      (∀ c y p, e.w.sysCtx = some c → c.toUser = some y → (c.cause = 0x06 ∨ c.cause = 0x18) → y.late = false → Tab.find y.splits y.split = some p →
        ∃ u w' q, exec (.rts h) s = .next u ∧ u.wave? e.n = some w' ∧ RetriedSplit y p q ∧ Tab.find w'.splits y.split = some q ∧
          w'.latch = y.latch ∧ w'.sysCtx = none ∧ w'.trapCtx = e.w.trapCtx ∧
          w'.hmode = if e.w.trapCtx.isSome then .user else .none) ∧
      (∀ c y, e.w.sysCtx = some c → c.toUser = some y → c.cause ∈ [0x01, 0x02, 0x20] → e.w.utvec ≠ 0 → e.w.trapCtx = none →
        ∃ u w', exec (.rts h) s = .next u ∧ u.wave? e.n = some w' ∧ w'.trapCtx = some y ∧ w'.hmode = .user ∧ w'.sysCtx = none ∧
          ∃ m, w'.splits = [(0, Split.start e.w.utvec m)]) ∧
      (∀ c y t, e.w.sysCtx = some c → c.toUser = some y → s.teamOf e.w = some t → t.launch = e.w.launch → c.cause ∉ [0x06, 0x18] →
        (c.cause ∈ [0x01, 0x02, 0x20] → e.w.utvec = 0 ∨ e.w.trapCtx.isSome = true) → ∃ u, exec (.rts h) s = .next u ∧ u.team? e.w.team = none))

/-! ### The module (R7–R24) -/

/-- R17, R19, R20, R21: start-up chooses the configuration record, which both port dies must choose, and the firmware images; without a
record or a Talaz firmware the module is in the recovery state, where no boundary is up; otherwise it runs once boundaries, stacks and
ports are up, and is off where they do not come up (log entry 56). No owner is open, nothing runs, and nothing of HBM is defined. R15: a tripped module starts at a power cycle only. Which
root key and which slots count where no record is chosen is the model's choice (log entries 120, 121); the bytes by which the port dies tell
each other what they chose are log entry 150. No record can be shown valid in a witness, since the mask ROM's hash is opaque (log entry 6). -/
def Obligations.ModuleStartsOrRecovers : Prop :=
  ∀ (s : State) (inp : StartInputs),
    let f := s.flash
    let key := (keyPairOf 0).point
    let valid (b : List Byte) (slot : Nat) (misread : List Nat) : Prop := recordOk b key = true ∧ slot ∉ misread
    (s.phase = .tripped → inp.powerCycle = false → Gives s (.moduleStart inp) fun u => u = s) ∧
    ((s.phase = .tripped → inp.powerCycle = true) → Gives s (.moduleStart inp) fun u => ∃ c0 c1 c t y,
      Chosen (valid f.config0 0 inp.misread0) (valid f.config1 1 inp.misread0) (imageVersion f.config0) (imageVersion f.config1) c0 ∧
      Chosen (valid f.config0 0 inp.misread1) (valid f.config1 1 inp.misread1) (imageVersion f.config0) (imageVersion f.config1) c1 ∧
      c = (if c0 = c1 ∧ verdictAccepted (keyPairOf 1) (keyPairOf 1).point s.free c1 = true then c0 else none) ∧
      let root := { f with configUsed := c }.rootKey
      (c = none → t = none) ∧
      (c ≠ none → Chosen (imageOk root 1 f.talaz0 = true) (imageOk root 1 f.talaz1 = true) (imageVersion f.talaz0) (imageVersion f.talaz1) t) ∧
      Chosen (imageOk root 2 f.security0 = true) (imageOk root 2 f.security1 = true) (imageVersion f.security0) (imageVersion f.security1) y ∧
      u.flash = { f with configUsed := c, talazUsed := t, securityUsed := y } ∧
      u.owners = [] ∧ u.launches = [] ∧ u.teams = [] ∧ u.waves = [] ∧ u.engines = [] ∧ u.saved = [] ∧ u.mem = [] ∧
      (c = none ∨ t = none → u.phase = .recovery ∧ u.boundaries = []) ∧
      (c ≠ none → t ≠ none → inp.trained = true → inp.portsUp = true → u.phase = .up ∧
        (∀ b, b < 14 → Tab.find u.boundaries b = some Boundary.fresh)) ∧
      (c ≠ none → t ≠ none → inp.trained = false ∨ inp.portsUp = false → u.phase = .off) ∧
      (u.phase ≠ .off → u.ports.length = 16 ∧ ∀ p ∈ u.ports, p.up = true ∧ p.powered = p.speed.lanes) ∧
      (c ≠ none → u.serial.toNat = leAt u.flash.config 16 8 ∧ u.alarmHours = leAt u.flash.config 12 4 ∧
        ∀ (d n : Nat), d < 8 → (n ∈ u.repair.getD d [] ↔ n < 68 ∧ (leAt u.flash.config (24 + 16 * d) 16).testBit n = true) ∧
          (u.trim.getD d 0).toNat = leAt u.flash.config (152 + 8 * d) 8) ∧
      u.measurements[3]? = some (sha256 u.flash.config))

/-- R7: a flit is delivered where its CRC holds and it bears the expected tag, and discarded otherwise; the other direction and every other
boundary keep theirs. R8: after 16 consecutive failures on one direction a boundary retrains; after a third failed retraining it goes down,
and a boundary that is down delivers nothing and never comes up. R12: a patrol step corrects a sector and changes no data. R13: withholding issue slots changes no result. R15: at 95 °C a die is
throttled and at 92 °C released; at 110 °C the device trips, and every running host launch completes with "thermal trip" (0x31). R93, R164:
a core that is reset stops and loses what it stores. That a retraining which succeeds keeps the count of failed ones is log entry 51, that
the teams of a reset core stay log entry 52, that a trip keeps the commands received log entry 133. R22, R23: a recomputation replaces the whole report and takes the next sequence
number. -/
def Obligations.BoundariesAndModuleEventsAct : Prop :=
  (∀ (s : State) (k : Nat) (b : Boundary) (dir crc success : Bool) (tag : BitVec 16) (x : W64),
      let side (b : Boundary) (d : Bool) : BoundaryDir := if d then b.forth else b.back
      let here (u : State) (P : Boundary → Prop) : Prop := { u with boundaries := s.boundaries } = s ∧
        (∀ j, j ≠ k → Tab.find u.boundaries j = Tab.find s.boundaries j) ∧ ∃ b', Tab.find u.boundaries k = some b' ∧ P b'
      Tab.find s.boundaries k = some b →
        (Gives s (.flitReceive k dir tag crc x) fun u => here u fun b' =>
          (b.down = true → b' = b) ∧
          (b.down = false → b'.failedRetrains = b.failedRetrains ∧ b'.down = false ∧ side b' (!dir) = side b (!dir) ∧
            (crc = true → tag = (side b dir).expected → side b' dir =
              { expected := tag + 1, crcRun := 0, delivered := (side b dir).delivered ++ [x] }) ∧
            (crc = true → tag ≠ (side b dir).expected → side b' dir = { side b dir with crcRun := 0 }) ∧
            (crc = false → side b' dir = { side b dir with crcRun := (side b dir).crcRun + 1 }))) ∧
        (Gives s (.boundaryRetrain k success) fun u => here u fun b' =>
          (∀ d, (side b' d).delivered = (side b d).delivered ∧ (side b' d).expected = (side b d).expected) ∧
          (b.down = true ∨ 3 ≤ b.failedRetrains ∨ (b.forth.crcRun < 16 ∧ b.back.crcRun < 16) → b' = b) ∧
          (b.down = false → b.failedRetrains < 3 → 16 ≤ b.forth.crcRun ∨ 16 ≤ b.back.crcRun →
            if success = true then b'.forth.crcRun = 0 ∧ b'.back.crcRun = 0 ∧ b'.failedRetrains = b.failedRetrains ∧ b'.down = false
            else b'.failedRetrains = b.failedRetrains + 1 ∧ (b'.down = true ↔ b.failedRetrains = 2))) ∧
        (Gives s (.boundaryDown k) fun u => here u fun b' =>
          b' = { b with down := if 3 ≤ b.failedRetrains then true else b.down })) ∧
  (∀ (s : State) (stack sector die temp core : Nat) (withhold : Bool) (dies : List DieReading) (trends : List W32),
      (s.phase = .up → stack < 16 → sector < 2 ^ 30 → Tab.find s.ecc (stack * 2 ^ 30 + sector) = some .correctable →
        Gives s (.patrolStep stack sector) fun u => { u with ecc := s.ecc, corrected := s.corrected } = s ∧ u.corrected = s.corrected + 1 ∧
          Tab.find u.ecc (stack * 2 ^ 30 + sector) = none ∧
          ∀ j, j ≠ stack * 2 ^ 30 + sector → Tab.find u.ecc j = Tab.find s.ecc j) ∧
      (Gives s (.powerLimitWithholding withhold) fun u => u.powerWithheld = withhold ∧ { u with powerWithheld := s.powerWithheld } = s) ∧
      (s.phase = .up → die < 8 → 95 ≤ temp → Gives s (.thermalThrottle die temp) fun u => { u with throttled := s.throttled } = s ∧
        ∀ d, d ∈ u.throttled ↔ d ∈ s.throttled ∨ d = die) ∧
      (temp ≤ 92 → Gives s (.thermalRelease die temp) fun u => { u with throttled := s.throttled } = s ∧
        ∀ d, d ∈ u.throttled ↔ d ∈ s.throttled ∧ d ≠ die) ∧
      (s.phase = .up → die < 8 → 110 ≤ temp → Gives s (.thermalTrip die temp) fun u =>
        u.phase = .tripped ∧ u.launches = [] ∧ u.teams = [] ∧ u.waves = [] ∧ u.engines = [] ∧ u.saved = [] ∧ u.ports = s.ports ∧
        u.mem = s.mem ∧
        (∀ id k c, u.cmd? id k = some c → c.phase = .received ∨ c.phase = .performed ∨ c.code = 0x0E) ∧
        (∀ id k c, s.cmd? id k = some c → c.phase = .received ∨ c.code = 0x0E → (∀ l ∈ s.launches, l.2.cmd ≠ some k) →
          u.cmd? id k = some c) ∧
        ∀ id l k c, s.launch? id = some l → l.complete = false → l.cmd = some k → s.cmd? l.owner k = some c →
          ∃ y, u.cmd? l.owner k = some y ∧ y.phase = .performed ∧ y.status = 0x31) ∧
      (core < 512 → Gives s (.coreResetOrPowerGating core) fun u => { u with cores := s.cores } = s ∧
        (∀ j, j ≠ core → u.core j = s.core j) ∧ (u.core core).off = true ∧ (u.core core).spadLost = true ∧ (u.core core).spad = [] ∧
        (u.core core).acc = [] ∧ (u.core core).cells = [] ∧ (u.core core).config = none ∧ (u.core core).hold = (s.core core).hold) ∧
      (dies.length = 8 → trends.length = 16 → (∀ d ∈ dies, d.low ≤ d.central ∧ d.central ≤ d.high ∧ d.high < 2 ^ 32 ∧ d.limiting < 64) →
        Gives s (.lifeRecompute dies trends) fun u => { u with life := s.life } = s ∧ u.life.seq = s.life.seq + 1 ∧
          u.life.dies = dies ∧ u.life.trends = trends ∧ u.life.timeBase = s.life.timeBase))

/-! ### Ports, command rings and remote accesses (R25–R34, R42–R51) -/

/-- R25: a change of speed drops one port's link and touches no other port, and a frame of more than 9216 bytes is not accepted. R27, R28: a packet of mode UUD is dropped and counted, and
only the RC transport is set up. R30: a protected packet that fails authentication or repeats a nonce is dropped and counted, and one that
passes is received. R31, R32: a message is appended to its owner's ring where it fits, and its acknowledgement is withheld where it does
not. R47, R398, R30, R43: the oldest record is taken and checked for its version, its
framing, its code, a closing owner, its path and its sender, in this order, and the first check that fails decides its status. R21 sets no place
for "device not ready" in that order: it stands after the code (log entry 61). R15: a module that has tripped takes every command but QUERY from
its ring and leaves it unanswered (log entries 53, 133). R53: a closing owner's completes with "owner closing" at once. R51: a completion record is written at its place in the host ring, or waits. -/
def Obligations.PortsAndRingsCarryCommands : Prop :=
  (∀ (s : State) (port owner : Nat) (speed : PortSpeed) (request : RoceRequest), s.phase ≠ .off → port < s.ports.length →
      (Gives s (.portSpeedChange port speed) fun u => { u with ports := s.ports, connections := s.connections } = s ∧
        u.ports[port]? = some { speed := speed, up := true, powered := speed.lanes } ∧ (∀ j, j ≠ port → u.ports[j]? = s.ports[j]?) ∧
        ∀ c, c ∈ u.connections ↔ c ∈ s.connections ∧ c.1 ≠ port) ∧
      (Gives s (.roceConnectionSetup port owner request) fun u =>
        if request = .rc then { u with connections := s.connections } = s ∧ ∀ c, c ∈ u.connections ↔ c ∈ s.connections ∨ c = (port, owner)
        else u = { s with counters := { s.counters with refusedConnections := s.counters.refusedConnections + 1 } })) ∧
  (∀ (s : State) (p : Packet) (o : Owner), s.phase ≠ .off → p.port < s.ports.length → p.endpoint ≠ 1024 → s.owner? p.endpoint = some o →
      (9216 < p.frame → Gives s (.uetPacketReceive p) fun u => u = s) ∧
      (p.frame ≤ 9216 → Gives s (.uetPacketReceive p) fun u =>
        let m : RxMessage := { owner := p.endpoint, port := p.port, flow := p.flow, bytes := p.bytes, held := false }
        match p.flow with
        | .uetUud => u = { s with counters := { s.counters with unsupported := s.counters.unsupported + 1 } }
        | .roce => u = if (p.port, p.endpoint) ∈ s.connections then { s with rx := s.rx ++ [m] } else s
        | .uetPlain _ => u = { s with rx := s.rx ++ [m] }
        | .uetTss _ =>
          (p.authentic = false → u = { s with counters := { s.counters with authFailed := s.counters.authFailed + 1 } }) ∧
          (p.authentic = true → p.nonce ∈ o.nonces → u = { s with counters := { s.counters with replayed := s.counters.replayed + 1 } }) ∧
          (p.authentic = true → p.nonce ∉ o.nonces → u.rx = s.rx ++ [m] ∧ u.owner? p.endpoint = some { o with nonces := o.nonces ++ [p.nonce] }))) ∧
  (∀ (s : State) (id : Nat) (o : Owner) (m : RxMessage) (skip : Nat), s.phase ≠ .off → id ≠ 1024 → s.owner? id = some o →
      s.rx.find? (fun m => m.owner == id) = some m →
      (m.held = false → Fits o.cmdRing (recordLength m) skip → Gives s (.commandAppend id) fun u => Appended s u id o m skip) ∧
      (m.held = true → Fits o.cmdRing (recordLength m) skip → Gives s (.commandRingRoom id) fun u => Appended s u id o m skip) ∧
      (m.held = false → (∀ k, ¬ Fits o.cmdRing (recordLength m) k) →
        Gives s (.commandAppend id) fun u => u.owners = s.owners ∧ u.rx = s.rx.map fun x => if x = m then { m with held := true } else x)) ∧
  (∀ (s : State) (id k : Nat) (o : Owner) (c : Cmd), s.phase ≠ .off → s.owner? id = some o → o.oldest = some (k, c) →
      Tab.find o.cmds k = some c → o.mayDispatch k c = true →
      let field (i n : Nat) : Nat := leAt c.bytes i n
      let code := field 1 1
      let tss : Bool := match c.flow with
        | .uetTss _ => true
        | _ => false
      let failed : Option Nat :=
        if field 0 1 ≠ 1 ∧ field 0 1 ≠ 2 then some 0x12
        else if ¬ (field 4 4 % 8 = 0 ∧ field 4 4 ≤ 8192 ∧ field 4 4 = c.bytes.length ∧ field 2 2 < 2) then some 0x10
        else if ¬ (1 ≤ code ∧ code ≤ 0x10) then some 0x11
        else if s.phase = .recovery ∧ code ≠ 0x0E ∧ code ≠ 0x0F ∧ code ≠ 0x10 then some 0x30
        else if o.closing = true then some 0x20
        else if code ≠ 0x0F ∧ ((id = 0 ∨ code = 0x10) ∧ tss = false ∨ o.protectedOnly = true ∧ c.flow = .roce) then some 0x15
        else if id ≠ 0 ∧ (code = 0x01 ∨ code = 0x10 ∨ code = 0x02 ∧ field 16 4 ≠ id ∨ code = 0x0E ∧ (field 16 1 = 2 ∨ field 16 1 = 3)) then
          some 0x14
        else none
      Gives s (.commandDispatch id) fun u => ∃ o', u.owner? id = some o' ∧
        o'.cmdRing = o.cmdRing.pop c.recordLength ∧
        (failed ≠ some 0x20 → { o' with cmds := o.cmds, cmdRing := o.cmdRing } = o) ∧
        (∀ j, j ≠ k → Tab.find o'.cmds j = Tab.find o.cmds j) ∧
        (s.phase = .tripped → c.code ≠ 0x0E → Tab.find o'.cmds k = none) ∧
        (s.phase ≠ .tripped ∨ c.code = 0x0E → match failed with
          | some st =>
            if st = 0x20 then Tab.find o'.cmds k = none ∧ (∀ skip, o.completions = [] → HostFits s o.hostRing skip →
              RecordWritten u id o.hostRing skip { c.completion with status := 0x20, r0 := 0, r1 := 0, r2 := 0 })
            else Finished u id k st 0 0 0
          | none => Tab.find o'.cmds k = some { c with phase := .dispatched })) ∧
  (∀ (s : State) (id k skip : Nat) (o : Owner) (c : Cmd) (r : Completion), s.owner? id = some o →
      (Tab.find o.cmds k = some c → c.phase = .performed → o.completions = [] →
        (HostFits s o.hostRing skip → Gives s (.commandCompletion id k) fun u =>
          u.cmd? id k = none ∧ RecordWritten u id o.hostRing skip c.completion) ∧
        ((∀ k, ¬ HostFits s o.hostRing k) → Gives s (.commandCompletion id k) fun u => u.cmd? id k = none ∧ u.hostMem = s.hostMem ∧
          (u.owner? id).map (·.completions) = some [c.completion])) ∧
      (o.completions = [r] → HostFits s o.hostRing skip → Gives s (.completionRingRoom id) fun u => RecordWritten u id o.hostRing skip r))

/-- R30, R33, R34: an access of another package that fails authentication or repeats a nonce is dropped and counted. Another is performed under
the owner's tables here and answered; one that has no page here, or none that permits it, or that consumes an uncorrectable sector, and
(R8) one beyond a boundary that is down, writes nothing and is answered with an error. At the requester, an answer goes to the lane or the
copy that asked, also where a handler has begun since, and a failed STP is counted; what the retry limit ends has failed. R33: a ring
action is performed here whole, and answered with the records it found. -/
def Obligations.RemoteAccessesServed : Prop :=
  (∀ (s : State) (env : Envelope) (id pkg : Nat) (a : W64) (posted : Bool) (o : Owner), s.phase = .up → s.owner? id = some o →
      s.receives env.port env.frame = true →
      let x := a.toNat
      let die := some (dieOfPort env.port)
      let i (op : RemoteOp) : Instr := .remoteAccess env id pkg a op posted
      let old (n : Nat) : List Byte := o.bytes id s.now x n
      let serves (op : RemoteOp) (data new : List Byte) : Prop := Gives s (i op) fun u =>
        u.mem = (s.putBytes none id x new).mem ∧ u.tx = s.tx ++ [.remoteAnswer pkg true (if posted then [] else data)]
      let free (n : Nat) (k : AccKind) : Prop := o.remoteOk x n k = true ∧ s.badGlobal die o x n = false
      (∀ op, env.authentic = false → Gives s (i op) fun u =>
        u = { s with counters := { s.counters with authFailed := s.counters.authFailed + 1 } }) ∧
      (∀ op, env.authentic = true → env.nonce ∈ o.nonces → Gives s (i op) fun u =>
        u = { s with counters := { s.counters with replayed := s.counters.replayed + 1 } }) ∧
      (env.authentic = true → env.nonce ∉ o.nonces →
      (∀ n, free n .load → serves (.load n) (old n) []) ∧
      (free 8 .fetch → serves .fetch (old 8) []) ∧
      (∀ d, o.remoteOk x d.length .store = true → s.cutOff die o x d.length = false → serves (.store d) [] d) ∧
      (∀ op b, free (atomBytes op) .atomic → serves (.atomic op b) (old (atomBytes op))
        (leBytes (atomBytes op) (AtomOp.apply op (BitVec.ofNat 64 (ofLe (old (atomBytes op)))) b).toNat)) ∧
      (∀ w64 c n, free (if w64 then 8 else 4) .atomic → serves (.compareSwap w64 c n) (old (if w64 then 8 else 4))
        (if ofLe (old (if w64 then 8 else 4)) = c.toNat % 2 ^ (if w64 then 64 else 32) then leBytes (if w64 then 8 else 4) n.toNat else [])) ∧
      (∀ img, free 64 .atomic → serves (.initJoin img) (old 4) (if leAt (old 4) 0 4 = 0 then img else [])) ∧
      (free 64 .atomic → serves .decrement (old 64 ++ [if o.deadJoins.contains x then 0 else 1])
        (if leAt (old 64) 0 4 = 0 then [] else leBytes 4 (leAt (old 64) 0 4 - 1))) ∧
      (∀ op, (o.remoteOk x (remoteShape op).1 (remoteShape op).2 = false ∨ s.cutOff die o x (remoteShape op).1 = true) →
        Gives s (i op) fun u => u = { s.hears id env with tx := s.tx ++ [.remoteAnswer pkg false []] }) ∧
      (∀ op, (∀ d, op ≠ .store d) → s.badGlobal die o x (remoteShape op).1 = true →
        Gives s (i op) fun u => u.mem = s.mem ∧ u.tx = s.tx ++ [.remoteAnswer pkg false []]) ∧
      (∀ op, free 64 .atomic → s.ringBusy id x = false →
        let done := (s.hears id env).ringPerform die [] 0 none id x op
        (∀ y t, done = .ok (y, t) → Gives s (i (.ring op)) fun u =>
          u = { t with tx := t.tx ++ [.remoteAnswer pkg true (if posted then [] else y.bytes)] }) ∧
        (done = .error .malformed → Gives s (i (.ring op)) fun u =>
          u = { s.hears id env with tx := s.tx ++ [.remoteAnswer pkg true malformedAnswer] })))) ∧
  (∀ (s : State) (env : Envelope) (n : Nat) (r : RemoteReq) (ok : Bool) (data : List Byte) (o : Owner), Tab.find s.remote n = some r →
      env.owner = r.owner → Heard s r.owner o env →
      exec (.transportRetryLimitExhausted n) (s.hears r.owner env) = exec (.remoteAcknowledgement env n false []) s ∧
      RemoteEnds s (s.hears r.owner env) (.remoteAcknowledgement env n ok data) n r ok data) ∧
  (∀ (s : State) (n : Nat) (r : RemoteReq), Tab.find s.remote n = some r →
      RemoteEnds s s (.transportRetryLimitExhausted n) n r false []) ∧
  (∀ (s : State) (env : Envelope) (n : Nat) (ok : Bool) (data : List Byte) (o : Owner), Heard s env.owner o env →
      (∀ r, Tab.find s.remote n = some r → r.owner ≠ env.owner) →
      Gives s (.remoteAcknowledgement env n ok data) fun u => u = s.hears env.owner env)

/-! ### Opening and closing owners, and their memory (R40–R54, R147–R149, R175) -/

/-- R19, R40, R44, R45: CTX_OPEN opens an owner with the fields of its message and the keys that the identity key unwraps from it, and result
0 names it; a field outside its limits, a quota that what is unclaimed cannot hold, an id that is open and keys that cannot be unwrapped
are refused in that order. Where no way leads to the identity key it waits (log entry 123). R53: CTX_CLOSE first ends all that the owner
runs, and once its other commands have completed and no message for it waits to become one its id is free, also its own. -/
def Obligations.OwnersOpenAndClose : Prop :=
  (∀ (s : State) (b : List Byte) (boot : Bool),
      let want := leAt b 16 4
      let recovery := s.phase = .recovery
      let refused (st : Nat) : Prop := s.openOwner b boot = .refused st
      let excess : Prop := ¬ recovery ∧ (s.unclaimed.1 < leAt b 24 4 ∨ s.unclaimed.2.1 < leAt b 30 2 ∨ s.unclaimed.2.2 < leAt b 32 8)
      let idOk : Prop := if boot then want = 0 else (1 ≤ want ∧ want ≤ 1023) ∨ want = 0xFFFFFFFF
      let fields : Prop := openFieldsOk b (decide recovery) = true ∧ idOk
      (¬ fields → refused 0x10) ∧ (fields → excess → refused 0x17) ∧
      (fields → ¬ excess → boot = false → 1 ≤ want → want ≤ 1023 → (s.owner? want).isSome = true → refused 0x14) ∧
      (fields → ¬ excess → boot = false → want = 0xFFFFFFFF → (∀ i, 1 ≤ i → i < 1024 → (s.owner? i).isSome = true) → refused 0x17) ∧
      (fields → ¬ excess → (boot = true ∨ (want ≤ 1023 ∧ s.owner? want = none)) →
        s.ownerKeys b = none ∨ onCurve (slice b 88 64) = false → refused 0x19)) ∧
  (∀ (s : State) (m : RxMessage) (ks : OwnerKeys), s.bootWaiting 0x01 = some m → s.phase = .up ∨ s.phase = .recovery → s.owner? 0 = none →
      bootStatus (Cmd.ofMessage m) = none → s.ownerKeys m.bytes = some ks → (∀ st, s.openOwner m.bytes true ≠ .refused st) →
      Gives s .bootstrapCtxOpen fun u => OpenedAs u 0 m.bytes ks ∧ u.rx = s.rx.erase m ∧
        u.tx = s.tx ++ [.reply m.flow m.port (bootCompletion (Cmd.ofMessage m) 0 0).bytes]) ∧
  (∀ (s : State) (id k : Nat) (o : Owner) (c : Cmd) (ks : OwnerKeys), Acts s id k 0x01 o c →
      (s.identityWay c.port = none → Gives s (.ctxOpen id k) fun u => u = s) ∧
      (∀ st, (s.identityWay c.port).isSome = true → s.openOwner c.bytes false = .refused st → Refuses s (.ctxOpen id k) id k st) ∧
      ((s.identityWay c.port).isSome = true → s.ownerKeys c.bytes = some ks → (∀ st, s.openOwner c.bytes false ≠ .refused st) →
        Gives s (.ctxOpen id k) fun u => ∃ n : Nat,
        Finished u id k 0 (BitVec.ofNat 64 n) 0 0 ∧ s.owner? n = none ∧ OpenedAs u n c.bytes ks ∧ 1 ≤ n ∧ n ≤ 1023 ∧
        (leAt c.bytes 16 4 = n ∨ leAt c.bytes 16 4 = 0xFFFFFFFF ∧ ∀ i, 1 ≤ i → i < n → (s.owner? i).isSome = true))) ∧
  (∀ (s : State) (id k : Nat) (o x : Owner) (c : Cmd),
      let target := c.nat 16 4
      (Acts s id k 0x02 o c → c.bytes.length = 24 → c.nat 20 4 = 0 → target ≤ 1023 →
        (s.owner? target = none ∨ target = 0 → Refuses s (.ctxClose id k) id k 0x14) ∧
        (target ≠ 0 → s.owner? target = some x → x.closing = false → Gives s (.ctxClose id k) fun u =>
          (u.owner? target).map (·.closing) = some true ∧ (∀ t ∈ u.teams, t.2.owner ≠ target) ∧ (∀ l ∈ u.launches, l.2.owner ≠ target) ∧
          (∀ z ∈ u.saved, z.2.team.owner ≠ target) ∧ (u.cmd? id k).map (·.phase) = some .running ∧ u.mem = s.mem)) ∧
      (s.owner? id = some o → Tab.find o.cmds k = some c → c.code = 0x02 → c.phase = .running → c.pageWait = none → c.asked = none →
        s.phase ≠ .tripped →
        (target ≠ id → s.owner? target = some x → x.cmds = [] → s.waitingMessage target = none →
          Gives s (.ctxClose id k) fun u => u.owner? target = none ∧ Finished u id k 0 0 0 0 ∧ (∀ z ∈ u.connections, z.2 ≠ target) ∧
            ∀ j, j ≠ target → j ≠ id → u.owner? j = s.owner? j) ∧
        (target = id → o.cmds = [(k, c)] → s.waitingMessage id = none → Gives s (.ctxClose id k) fun u => u.owner? id = none ∧ (∀ z ∈ u.connections, z.2 ≠ id) ∧
          ∀ j, j ≠ id → u.owner? j = s.owner? j)))

/-- R46, R52, R149: MAP gives the range pages of the asked size and permissions, with frames unless they are on demand or remote, or changes
nothing; UNMAP removes the pages of its range. R175: SHADOW makes its pages the visible side of a new set with hidden pages beside them.
R46, R147, R169: COPY_IN and COPY_OUT move their bytes in naturally aligned events of at most 16 bytes, and end at an address without a
page. Of what the statement says these are the model's choices: an overlap with an on-demand page is a bad address (log entry 41), a
reserved permission bit is malformed (124), a range beyond the canonical addresses is a bad address (125), storage without fitting free
frames is answered 0x17 with nothing changed (126), and SHADOW charges its hidden pages to the quota, which answers 0x18 (127). -/
def Obligations.MemoryCommandsAct : Prop :=
  ∀ (s : State) (id k : Nat) (o : Owner) (c : Cmd),
    let a := c.nat 16 8
    let n := c.nat 24 8
    let lg := c.pageLog2
    let count := n / 2 ^ lg
    let now : Prop := (c.nat 34 1).testBit 1 = false ∧ (c.nat 34 1).testBit 2 = false
    let die : Option Nat := if (c.nat 34 1).testBit 0 then some (c.nat 35 1) else none
    let fits : Prop := o.framesUsed + count * 2 ^ (lg - 16) ≤ o.frameQuota
    (Acts s id k 0x03 o c →
      (c.mapFieldsOk = false → Refuses s (.map id k) id k 0x10) ∧
      (c.mapFieldsOk = true → o.mapBad c = true → Refuses s (.map id k) id k 0x16) ∧
      (c.mapFieldsOk = true → o.mapBad c = false → now → o.frameQuota < o.framesUsed + count * 2 ^ (lg - 16) →
        Refuses s (.map id k) id k 0x18) ∧
      (c.mapFieldsOk = true → o.mapBad c = false → now → fits → s.takesFrames (2 ^ (lg - 16)) die count = none →
        Refuses s (.map id k) id k 0x17) ∧
      (c.mapFieldsOk = true → o.mapBad c = false → now → fits → s.takesFrames (2 ^ (lg - 16)) die count ≠ none →
        Gives s (.map id k) fun u => Finished u id k 0 (BitVec.ofNat 64 count) 0 0 ∧
          ∃ o', u.owner? id = some o' ∧ o'.framesUsed = o.framesUsed + count * 2 ^ (lg - 16) ∧
            (∀ x, x < a ∨ a + n ≤ x → o'.pageAt x = o.pageAt x) ∧
            ∀ i, i < count → ∃ p, o'.pageAt (a + i * 2 ^ lg) = some p ∧ p.va = a + i * 2 ^ lg ∧ p.log2 = lg ∧ p.frame.isSome = true ∧
              p.r = (c.nat 33 1).testBit 0 ∧ p.w = (c.nat 33 1).testBit 1 ∧ p.x = (c.nat 33 1).testBit 2) ∧
      (c.mapFieldsOk = true → o.mapBad c = false → ¬ now → (∀ x ∈ s.pageWaits id, x.va < a ∨ a + n ≤ x.va) →
        Gives s (.map id k) fun u => Finished u id k 0 (BitVec.ofNat 64 count) 0 0 ∧ u.mem = s.mem ∧
          ∃ o', u.owner? id = some o' ∧ o'.framesUsed = o.framesUsed ∧
            o'.pages = o.pages ++ c.newPages)) ∧
    (Acts s id k 0x04 o c → c.bytes.length = 32 → n ≠ 0 →
      (a % 65536 ≠ 0 ∨ n % 65536 ≠ 0 ∨ (∃ p ∈ o.pages, runsMeet a n p.va (2 ^ p.log2) = true ∧ p.inside a n = false) →
        Refuses s (.unmap id k) id k 0x16) ∧
      (a % 65536 = 0 → n % 65536 = 0 → o.touchesTrapArea a n = false →
        (∀ p ∈ o.pages, runsMeet a n p.va (2 ^ p.log2) = true → p.inside a n = true) → (∀ p ∈ o.pages, p.inside a n = true → p.set = none) →
        Gives s (.unmap id k) fun u => Finished u id k 0 (BitVec.ofNat 64 (o.pages.filter (·.inside a n)).length) 0 0 ∧
          ∃ o', u.owner? id = some o' ∧ o'.pages = o.pages.filter fun p => !p.inside a n)) ∧
    (Acts s id k 0x05 o c → c.bytes.length = 32 → a % 65536 = 0 → n % 65536 = 0 → 1 ≤ n / 65536 → n / 65536 ≤ 256 →
      o.touchesTrapArea a n = false →
      (∀ i, i < n / 65536 → ∃ p, o.pageAt (a + 65536 * i) = some p ∧ p.log2 = 16 ∧ p.frame.isSome = true ∧ p.set = none) →
      (o.frameQuota < o.framesUsed + n / 65536 → Refuses s (.shadow id k) id k 0x18) ∧
      (o.framesUsed + n / 65536 ≤ o.frameQuota → s.takesFrames 1 none (n / 65536) = none → Refuses s (.shadow id k) id k 0x17) ∧
      (o.framesUsed + n / 65536 ≤ o.frameQuota → s.takesFrames 1 none (n / 65536) ≠ none → Gives s (.shadow id k) fun u =>
        ∃ o' x set, Finished u id k 0 (BitVec.ofNat 64 set) 0 0 ∧ u.owner? id = some o' ∧ o'.framesUsed = o.framesUsed + n / 65536 ∧
          Tab.find o.sets set = none ∧ Tab.find o'.sets set = some x ∧ x.va = a ∧ x.pages = n / 65536 ∧ x.shadow.length = n / 65536 ∧
          ∀ p ∈ o'.pages, p.inside a n = true → p.set = some set)) ∧
    (∀ (input : Bool) (p : Page),
      let place := a + c.progress
      let m := pieceSize place (n - c.progress)
      let i : Instr := if input then .copyIn id k else .copyOut id k
      let host := c.nat 32 8 + c.progress
      Acts s id k (if input then 0x06 else 0x07) o c → c.copyFieldsOk = true →
      (o.pageAt place = none → Gives s i fun u => Finished u id k 0x16 (BitVec.ofNat 64 c.progress) 0 0 ∧ u.mem = s.mem) ∧
      (o.pageAt place = some p → p.remote = none → p.frame.isSome = true → p.permits (if input then .store else .load) = true →
        (input = false → s.badGlobal none o place m = false) → s.cutOff c.die o place m = false → Gives s i fun u =>
          (if input then u.mem = (s.putBytes none id place (s.hostBytes host m)).mem ∧ u.hostMem = s.hostMem
            else u.mem = s.mem ∧ u.hostBytes host m = o.bytes id s.now place m) ∧
          (n ≤ c.progress + m → Finished u id k 0 (BitVec.ofNat 64 (c.progress + m)) 0 0) ∧
          (c.progress + m < n → (u.cmd? id k).map (fun y => (y.phase, y.progress)) = some (.running, c.progress + m))))

/-! ### Commands on work, events, reports and images (R46, R57–R60, R69, R77, R85–R88, R95, R179) -/

/-- R69, R70: LAUNCH accepts a valid record as the owner's next launch and refuses another with nothing of it run. R46, R85, R87, R88: POST
charges one pool entry and commits its card to a die queue, or waits there for room. R46, R77, R95: PREEMPT and RESUME count the teams
they affect; a resident team has a pre-emption pending then, and teams not yet placed are held. R46, R179: SIGNAL adds once, and WAITEV
completes where the word has reached the threshold, at a later read, or when its timeout has passed. That PREEMPT and RESUME of a sequence
number of no running launch complete with ok and 0 is log entry 129, that the task waves of a launch count among its teams log entry 76. -/
def Obligations.WorkCommandsAct : Prop :=
  (∀ (s : State) (id k : Nat) (o : Owner) (c : Cmd), Acts s id k 0x08 o c →
      let b := slice c.bytes 16 128
      let r := launchRecOf b
      (c.bytes.length ≠ 144 → Refuses s (.launch id k) id k 0x10) ∧
      (c.bytes.length = 144 → c.version = 1 → r.round = true ∨ r.spanned = true → Refuses s (.launch id k) id k 0x13) ∧
      (c.bytes.length = 144 → c.version = 2 → launchRecOk b = false → Refuses s (.launch id k) id k 0x10) ∧
      (c.bytes.length = 144 → c.version = 2 → launchRecOk b = true →
        (o.ceiling < r.priority → Refuses s (.launch id k) id k 0x18) ∧
        (o.launchStatus r = none → r.spanned = false → Gives s (.launch id k) fun u => ∃ l o', u.launch? s.nextId = some l ∧
          l.owner = id ∧ l.seq = o.launchSeq ∧ l.lr = r ∧ l.cmd = some k ∧ l.parent = none ∧ l.next = 0 ∧ l.placed = 0 ∧ l.status = 0 ∧
          l.complete = false ∧ u.owner? id = some o' ∧ o'.launchSeq = o.launchSeq + 1 ∧
          (u.cmd? id k).map (fun y => (y.phase, y.launch)) = some (.running, some s.nextId)))) ∧
  (∀ (s : State) (id k skip : Nat) (o : Owner) (c : Cmd) (Q : TaskQueue), Acts s id k 0x09 o c →
      let card := cardOf (slice c.bytes 16 32)
      let malformed : Prop := c.bytes.length ≠ 56 ∨ 7 < c.nat 48 1 ∨ c.nat 49 7 ≠ 0 ∨ 2 ≤ card.kind ∨ card.reservedOk = false ∨ card.rnd = true
      let excess : Prop := o.nesting < card.depth.toNat ∨ o.poolQuota ≤ o.pool
      let q := 512 + c.nat 48 1
      (malformed → Refuses s (.post id k) id k 0x10) ∧ (¬ malformed → excess → Refuses s (.post id k) id k 0x18) ∧
      (¬ malformed → ¬ excess → o.commits = [] → Tab.find o.queues q = some Q →
        (Fits Q.ctl 40 skip → Gives s (.post id k) fun u => Finished u id k 0 0 0 0 ∧ ∃ o' Q' r, u.owner? id = some o' ∧
          o'.pool = o.pool + 1 ∧ o'.taskCounter = o.taskCounter + 1 ∧ o'.commits = [] ∧ Tab.find o'.queues q = some Q' ∧
          (∀ j, j ≠ q → Tab.find o'.queues j = Tab.find o.queues j) ∧
          Q'.recs.filter (fun r => r.type != 0) = Q.recs.filter (fun r => r.type != 0) ++ [r] ∧ r.type = 2 ∧ r.committed = true ∧
          r.held = false ∧ r.released = false ∧ r.ptag = c.port ∧ r.launch = none ∧ r.index = o.taskCounter ∧ r.card.kind = card.kind ∧
          r.card.entry = card.entry ∧ r.card.arg = card.arg ∧ r.card.join = card.join ∧ r.card.depth = card.depth ∧
          r.card.prio = min card.prio o.ceiling ∧ r.card.ownerTag = BitVec.ofNat 32 id ∧ r.card.rnd = false) ∧
        ((∀ x, ¬ Fits Q.ctl 40 x) → Gives s (.post id k) fun u => ∃ o' w, u.owner? id = some o' ∧ o'.pool = o.pool + 1 ∧
          o'.commits = [w] ∧ w.queue = q ∧ w.cmd = some k ∧ o'.queues = o.queues ∧ (u.cmd? id k).map (·.phase) = some .running))) ∧
  (∀ (s : State) (id k : Nat) (o : Owner) (c : Cmd), c.bytes.length = 32 → c.nat 28 4 = 0 →
      (Acts s id k 0x0C o c →
        (s.launchBySeq id (c.nat 16 8) = none → Gives s (.preempt id k) fun u => Finished u id k 0 0 0 0) ∧
        (∀ lid l, s.launchBySeq id (c.nat 16 8) = some (lid, l) → s.launch? lid = some l →
          let wait := (s.waitingTeams l).filter fun i => c.namesGroup l.lr (l.lr.groupOf i)
          let held := l.heldTeams.filter fun i => c.namesGroup l.lr (l.lr.groupOf i)
          Gives s (.preempt id k) fun u =>
            Finished u id k 0 (BitVec.ofNat 64 ((s.namedTeams lid l c).length + (s.namedSaved lid l c).length + wait.length + held.length)) 0 0 ∧
            (u.launch? lid).map (·.heldTeams) = some (l.heldTeams ++ wait) ∧
            ∀ tid ∈ s.namedTeams lid l c, ∀ t, u.team? tid = some t → t.preempt.isSome = true)) ∧
      (Acts s id k 0x0D o c →
        (s.launchBySeq id (c.nat 16 8) = none → Gives s (.resume id k) fun u => Finished u id k 0 0 0 0) ∧
        (∀ lid l, s.launchBySeq id (c.nat 16 8) = some (lid, l) → s.launch? lid = some l →
          (∀ tid ∈ s.namedTeams lid l c, ∃ t, s.team? tid = some t ∧ t.preempt = none) →
          let held := l.heldTeams.filter fun i => c.namesGroup l.lr (l.lr.groupOf i)
          Gives s (.resume id k) fun u =>
            Finished u id k 0 (BitVec.ofNat 64 ((s.namedSaved lid l c).length + held.length)) 0 0 ∧
            (u.launch? lid).map (·.heldTeams) = some (l.heldTeams.filter fun i => !(c.namesGroup l.lr (l.lr.groupOf i))) ∧
            ∀ x v, Tab.find s.saved x = some v → x ∈ s.namedSaved lid l c → Tab.find u.saved x = some { v with ready := true }))) ∧
  (∀ (s : State) (id k : Nat) (o : Owner) (c : Cmd) (p : Page),
      let a := c.nat 16 8
      let v := ofLe (o.bytes id s.now a 8)
      a % 8 = 0 → o.pageAt a = some p → p.remote = none → p.frame.isSome = true → s.badGlobal none o a 8 = false →
      s.cutOff c.die o a 8 = false →
      (Acts s id k 0x0A o c → c.bytes.length = 32 → p.r = true → p.w = true → Gives s (.signal id k) fun u =>
        Finished u id k 0 (BitVec.ofNat 64 ((v + c.nat 24 8) % 2 ^ 64)) 0 0 ∧
        u.mem = (s.putBytes none id a (leBytes 8 ((v + c.nat 24 8) % 2 ^ 64))).mem) ∧
      (Acts s id k 0x0B o c → c.bytes.length = 40 → c.nat 36 4 = 0 → p.r = true → Gives s (.waitev id k) fun u => u.mem = s.mem ∧
        if c.nat 24 8 ≤ v then Finished u id k 0 (BitVec.ofNat 64 v) 0 0
        else (u.cmd? id k).map (fun y => (y.phase, y.pageWait, y.r0)) = some (.running, none, BitVec.ofNat 64 v)) ∧
      (s.owner? id = some o → Tab.find o.cmds k = some c → c.code = 0x0B → c.phase = .running → c.pageWait = none → s.phase ≠ .tripped →
        c.asked = none → c.answer = none →
        (p.r = true → c.nat 24 8 ≤ v → Gives s (.waitevSatisfied id k) fun u => Finished u id k 0 (BitVec.ofNat 64 v) 0 0) ∧
        (c.nat 32 4 ≠ 0 → Gives s (.waitevTimeout id k) fun u => Finished u id k 0x01 c.r0 0 0)))

/-- R46: QUERY writes a report of at most the host's maximum to host memory, sets the time base, or clears the counts. R23, R24: the life
report holds its sequence number, the dates the time base and the smallest figures give, and each die's and each stack's entry. The
length and the bytes of the status report are the model's free values (log entry 18). R17, R21, R58: FWLOAD reads its image from owner 0's memory, or from host memory in the recovery state, and writes a well-formed, rightly
signed image that is not older than the one in use into the slot of its kind that is not in use; another is refused with 0x1A or 0x1B,
and the slot in use is never written. Which slot is written where none is in use is log entry 121, what a count beyond 16 bits and a date
without a time base read log entry 122, that form 3 clears every owner's counts log entry 85. The clause of a valid image has no witness,
since the mask ROM's hash is opaque (log entry 6). -/
def Obligations.QueriesReportAndImagesLoaded : Prop :=
  ((∀ (s : State) (id k : Nat) (o : Owner) (c : Cmd),
        let a := c.nat 24 8
        let most := c.nat 32 4
        let form (n : Nat) : Prop := Acts s id k 0x0E o c ∧ c.queryFieldsOk = true ∧ c.nat 16 1 = n
        let reports (i : Instr) (r : List Byte) : Prop := Gives s i fun u => Finished u id k 0 (BitVec.ofNat 64 (min most r.length)) 0 0 ∧
          u.mem = s.mem ∧ u.hostBytes a (min most r.length) = r.take most ∧
          ∀ x, x < a ∨ a + min most r.length ≤ x → u.hostByte x = s.hostByte x
        (form 0 → reports (.queryStatus id k) s.statusReport) ∧
        (form 1 → reports (.queryLife id k) (if s.life.dies = [] then s.firstReport s.free else s.lifeReport)) ∧
        (form 2 → Gives s (.querySetTimeBase id k) fun u => Finished u id k 0 0 0 0 ∧ u.life = { s.life with timeBase := some (BitVec.ofNat 64 a) }) ∧
        (form 3 → Gives s (.queryClearCounters id k) fun u => Finished u id k 0 0 0 0 ∧ u.corrected = 0 ∧
          u.counters = { authFailed := 0, replayed := 0, unsupported := 0, bootstrapDropped := 0, refusedConnections := 0 } ∧
          ∀ j o', u.owner? j = some o' → o'.illegalCount = 0 ∧ o'.malformedCount = 0)) ∧
    (∀ (s : State), s.life.dies.length = 8 →
        let r := s.lifeReport
        let least (f : DieReading → Nat) (m : Nat) : Prop := m < 2 ^ 32 ∧ (∃ d ∈ s.life.dies, f d = m) ∧ ∀ d ∈ s.life.dies, m ≤ f d
        r.length = 288 ∧ leAt r 0 4 = s.life.seq.toNat ∧ ((leAt r 4 4).testBit 2 = s.life.timeBase.isSome) ∧
        (s.life.timeBase = none → leAt r 8 8 = 0 ∧ leAt r 16 8 = 0 ∧ leAt r 24 8 = 0) ∧
        (∀ t x y z, s.life.timeBase = some t → least (·.central) x → least (·.low) y → least (·.high) z →
          leAt r 8 8 = (t.toNat + x * 3600) % 2 ^ 64 ∧ leAt r 16 8 = (t.toNat + y * 3600) % 2 ^ 64 ∧
          leAt r 24 8 = (t.toNat + z * 3600) % 2 ^ 64) ∧
        (∀ (i : Nat) (d : DieReading), s.life.dies[i]? = some d → leAt r (32 + 16 * i) 4 = d.central % 2 ^ 32 ∧
          leAt r (36 + 16 * i) 4 = d.low % 2 ^ 32 ∧ leAt r (40 + 16 * i) 4 = d.high % 2 ^ 32 ∧ leAt r (44 + 16 * i) 1 = d.limiting % 256 ∧
          leAt r (45 + 16 * i) 1 = if d.low < s.alarmHours then 1 else 0) ∧
        (∀ i, i < 16 → leAt r (160 + 8 * i) 4 = (s.life.trends.getD i 0).toNat ∧
          leAt r (164 + 8 * i) 2 = s.life.uncorrectable.getD i 0 % 2 ^ 16)) ∧
    (∀ (s : State) (n : Nat),
        let r := s.firstReport n
        r.length = 288 ∧ leAt r 4 4 < 8 ∧ ((leAt r 4 4).testBit 2 = s.life.timeBase.isSome) ∧
        (s.life.timeBase = none → leAt r 8 8 = 0 ∧ leAt r 16 8 = 0 ∧ leAt r 24 8 = 0))) ∧
  (∀ (s : State) (id k kind : Nat) (o : Owner) (c : Cmd) (b : List Byte),
      let i : Instr := if kind = 0 then .fwloadConfigurationRecord id k
        else if kind = 1 then .fwloadTalazFirmware id k else .fwloadSecurityFirmware id k
      let a := c.nat 24 8
      let n := c.nat 20 4
      let used := (s.flash.inUse kind).1
      let slot := if used = none then s.loadSlot kind else if used = some 0 then 1 else 0
      let valid : Prop := b.length = imageLength b ∧ (if kind = 0 then recordOk b s.identityKey else imageOk s.flash.rootKey kind b) = true
      let older : Prop := used ≠ none ∧ imageVersion b < imageVersion (s.flash.inUse kind).2
      Acts s id k 0x10 o c → c.bytes.length = 32 → kind ≤ 2 → c.nat 16 4 = kind → c.progress = 0 →
      (if s.phase = .recovery then b = s.hostBytes a n
        else (∀ x, a ≤ x → x < a + n → ∃ p, o.pageAt x = some p ∧ p.remote = none ∧ p.frame.isSome = true ∧ p.r = true) ∧
          s.badGlobal none o a n = false ∧ s.cutOff c.die o a n = false ∧ b = o.bytes id s.now a n) →
      (valid → ¬ older → Gives s i fun u => Finished u id k 0 (BitVec.ofNat 64 slot) 0 0 ∧
        u.flash = s.flash.store kind slot b) ∧
      (valid → older → Gives s i fun u => Finished u id k 0x1B 0 0 0 ∧
        u.flash = if s.phase = .recovery then s.flash.store kind slot [] else s.flash) ∧
      (¬ valid → Gives s i fun u => Finished u id k 0x1A 0 0 0 ∧
        u.flash = if s.phase = .recovery then s.flash.store kind slot [] else s.flash))

/-- R59, R60: an ATTEST, as a command or at the bootstrap endpoint, is answered with the response of its SPDM request, cut to the host's
maximum with status "malformed" where it is longer: GET_VERSION with version 1.3, a request that is not supported with an error, and
GET_MEASUREMENTS with the digest of each index; a challenge and signed measurements end in a signature with the identity key. The places of
the fields in an SPDM message, and what a signature covers, are presumed (log entry 19). -/
def Obligations.AttestAnswersRequests : Prop :=
  (∀ (s : State) (id k : Nat) (m : RxMessage) (o : Owner) (c : Cmd) (f : SpdmVia → Instr) (code : Nat) (part : SpdmPart) (b : List Byte),
      let q := c.request
      let n := s.free + 1
      (f, code, part, b) ∈ [(Instr.getVersion, 0x84, SpdmPart.version, versionResponse),
        (Instr.getCapabilities, 0xE1, SpdmPart.terms, capabilitiesResponse n),
        (Instr.negotiateAlgorithms, 0xE3, SpdmPart.terms, algorithmsResponse n),
        (Instr.getDigests, 0x81, SpdmPart.certificate, s.digestsResponse),
        (Instr.getCertificate, 0x82, SpdmPart.certificate, s.certificateResponse q),
        (Instr.challenge, 0x83, SpdmPart.challenge, s.challengeResponse q n),
        (Instr.getMeasurements, 0xE0, SpdmPart.measurement, s.measurementsResponse q n),
        (Instr.spdmUnsupportedRequest, leAt q 1 1, SpdmPart.other, spdmError 0x07 (leAt q 1 1))] →
      leAt q 1 1 = code → (f = Instr.spdmUnsupportedRequest → code ∉ spdmCodes) → c.attestOk = true →
      let signed : Prop := leAt b 1 1 ≠ 0x7F ∧ (part = .challenge ∨ part = .measurement ∧ (leAt q 2 1).testBit 0 = true)
      let answer (key : Nat) (whole : List Byte) : Prop :=
        (signed → whole = b ++ s.identitySign n (signedMessage part ((s.spdmLog key).covered part (q ++ b)))) ∧ (¬ signed → whole = b)
      let status (whole : List Byte) : Nat := if c.nat 24 4 < whole.length then 0x10 else 0
      (Acts s id k 0x0F o c → (s.identityWay c.port).isSome = true → Gives s (f (.command id k)) fun u => ∃ whole, answer id whole ∧
        let sent := whole.take (c.nat 24 4)
        Finished u id k (status whole) (BitVec.ofNat 64 sent.length) 0 0 ∧ u.hostBytes (c.nat 16 8) sent.length = sent) ∧
      (s.bootWaiting 0x0F = some m → c = Cmd.ofMessage m → s.phase = .up ∨ s.phase = .recovery → bootStatus c = none →
        Gives s (f .bootstrap) fun u => u.rx = s.rx.erase m ∧ ∃ whole, answer 1024 whole ∧
          let sent := whole.take (c.nat 24 4)
          u.tx = s.tx ++ [.reply m.flow m.port ((bootCompletion c (status whole) (BitVec.ofNat 64 sent.length)).bytes ++ sent)])) ∧
  (∀ (s : State) (q : List Byte) (n i : Nat), 1 ≤ i → i ≤ 4 → leAt q 3 1 = i →
      let r := s.measurementsResponse q n
      leAt r 0 1 = 0x13 ∧ leAt r 1 1 = 0x60 ∧ leAt r 4 1 = 1 ∧ leAt r 8 1 = i ∧
      slice r 15 32 = digestBytes (s.measurements.getD (i - 1) 0)) ∧
  versionResponse.length = 8 ∧ leAt versionResponse 1 1 = 0x04 ∧ leAt versionResponse 6 2 = 0x1300

/-! ### Spanned launches (R35–R38) -/

/-- R30, R35–R38: a peer reserves and acknowledges an offer it can take, and refuses another; once every peer has acknowledged, the lead's start
barrier takes the generation and SPAN_GO is sent; a refusal or a silent peer aborts the span at every package with one completion that
names the package; SPAN_DONE is kept, and a package that alone has not reported is lost. Which earlier commands a peer's start waits for is
log entry 114, and that SPAN_DONE carries a status, a count of teams and a cause, a lost package none, log entry 115. -/
def Obligations.SpansExchange : Prop :=
  (∀ (s : State) (env : Envelope) (id lead : Nat) (g : W32) (b : List Byte) (o : Owner), s.phase = .up → Heard s id o env → o.closing = false →
      let t := s.hears id env
      let i : Instr := .spanOffer env id lead g b
      let r := launchRecOf b
      let bad : Prop := b.length ≠ 128 ∨ launchRecOk b = false ∨ r.spanned = false ∨ r.generation ≠ g ∨ o.ownPackage ∉ r.peers ∨
        g.toNat ≤ o.lastGeneration.toNat ∨ o.launchStatus r ≠ none
      let again : Prop := g = o.lastGeneration ∧ o.lastOffer = some (lead, b)
      (again → Gives s i fun u => u = t) ∧
      (¬ again → bad ∨ t.acceptSpan id r none false = none → Gives s i fun u => u = { t with tx := s.tx ++ [.spanNak id lead g] }) ∧
      (¬ again → ¬ bad → t.acceptSpan id r none false ≠ none → Gives s i fun u =>
        u.tx = s.tx ++ [.spanAck id lead g] ∧ (u.owner? id).map (fun y => (y.lastGeneration, y.lastOffer)) = some (g, some (lead, b)) ∧
        ∃ l x, u.launch? s.nextId = some l ∧ l.owner = id ∧ l.lr = r ∧ l.span = some x ∧ x.lead = false ∧ x.generation = g ∧
          x.barrier = some 0 ∧
          ∀ k, k ∈ x.before ↔ ∃ c, (k, c) ∈ o.cmds ∧ c.code ∈ [0x03, 0x04, 0x05, 0x06, 0x0A, 0x10] ∧ c.phase ≠ .performed)) ∧
  (∀ (s : State) (env : Envelope) (lid peer : Nat) (g : W32) (status : PartEnd) (cause : Nat) (l : Launch) (x : Span) (o : Owner), s.phase = .up →
      s.launch? lid = some l → l.span = some x → env.owner = l.owner → Heard s l.owner o env → x.lead = true → x.generation = g → x.aborted = false → peer ∈ l.lr.peers →
      let others (u : State) : Prop := ∀ j, j ≠ lid → u.launch? j = s.launch? j
      let aborts (u : State) (p : Nat) : Prop := u.launch? lid = none ∧ u.tx = s.tx ++ l.lr.peers.map (fun q => .spanAbort l.owner q g) ∧
        ∀ k c, l.cmd = some k → s.cmd? l.owner k = some c → Finished u l.owner k 0x23 (BitVec.ofNat 64 l.seq) 0 (BitVec.ofNat 64 p)
      (x.barrier = some 0 → peer ∉ x.acked →
        (Gives s (.spanAck env lid peer g) fun u => others u ∧
          if ∀ p ∈ l.lr.peers, p ∈ x.acked ∨ p = peer then
            u.launch? lid = some { l with span := some { x with acked := x.acked ++ [peer], barrier := some g } } ∧
            u.tx = s.tx ++ l.lr.peers.map fun q => .spanGo l.owner q g
          else u.launch? lid = some { l with span := some { x with acked := x.acked ++ [peer] } } ∧ u.tx = s.tx) ∧
        (Gives s (.spanNak env lid peer g) fun u => aborts u peer) ∧
        ((∀ p ∈ l.lr.peers, p ∈ x.acked ∨ p = peer) → Gives s (.spanTimeout lid) fun u => aborts u peer)) ∧
      (x.barrier ≠ some 0 → (∀ d ∈ x.done, d.1 ≠ peer) →
        (Gives s (.spanDone env lid peer g status cause) fun u => others u ∧ u.tx = s.tx ∧
          u.launch? lid = some { l with span := some { x with done := x.done ++ [(peer, status, cause)] } }) ∧
        (x.ownDone = true → l.lr.peers.filter (fun p => !(x.done.any fun d => d.1 == p)) = [peer] → Gives s (.spanTimeout lid) fun u =>
          u.launch? lid = some { l with span := some { x with aborted := true, done := x.done ++ [(peer, { status := 0x24, placed := 0 }, 0)] } } ∧
          u.tx = s.tx ++ l.lr.peers.map fun q => .spanAbort l.owner q g))) ∧
  (∀ (s : State) (env : Envelope) (id lid : Nat) (g : W32) (l : Launch) (x : Span) (o : Owner), s.phase = .up → Heard s id o env →
      s.peerLaunch id g = some (lid, l) → s.launch? lid = some l → l.span = some x →
      (Gives s (.spanGo env id g) fun u => u.launch? lid = some { l with span := some { x with barrier := some g } } ∧
        ∀ j, j ≠ lid → u.launch? j = s.launch? j) ∧
      (Gives s (.spanAbort env id g) fun u => u.launch? lid = none ∧ (∀ t ∈ u.teams, t.2.launch ≠ some lid) ∧ u.mem = s.mem))

/-! ### Placement, bells and completion (R50, R71–R76, R90, R95–R98, R180–R184, R222) -/

/-- R67, R71, R73: a unit of a launch is placed on given cores of the owner's set that have its resources: each of its waves starts at the
entry, with its entry mask, its argument and the launch's sequence number, and every other register zero. R75: a round-mode launch is
placed at its start. R95: the policy pre-empts its victim. R96, R211: a wave of a pre-empted team traps with 0x40. R98: a forced save
takes the team off its core whole. R50, R76: a launch whose work is done decrements its join object and completes. -/
def Obligations.TeamsPlacedAndSaved : Prop :=
  (∀ (s : State) (lid i : Nat) (l : Launch) (o : Owner) (is cores : List Nat), s.phase = .up → s.launch? lid = some l →
      s.owner? l.owner = some o → s.nextUnit l = some (i, .fresh is) → l.complete = false → o.closing = false → s.heldBack lid l = false →
      (l.round = false → s.coresOk lid l o (.fresh is) cores = true → Gives s (.teamPlacement lid cores) fun u =>
        (u.launch? lid).map (·.placed) = some (l.placed + is.length) ∧ u.mem = s.mem ∧
        ∀ (j index core : Nat), is[j]? = some index → cores[j]? = some core → ∃ tid t, u.team? tid = some t ∧ t.launch = some lid ∧
          t.owner = l.owner ∧ t.index = index ∧ t.core = core ∧ t.waves.length = l.lr.waves.length ∧
          ∀ (m n x : Nat), t.waves[m]? = some n → l.lr.waves[m]? = some x → ∃ w, u.wave? n = some w ∧ w.team = tid ∧ w.index = x ∧
            w.emask = l.lr.entryMask x ∧ w.splits = [(0, Split.start l.lr.entry (l.lr.entryMask x))] ∧ w.v = [] ∧ w.o = [] ∧ w.p = [] ∧
            w.latch = [] ∧ w.sreg 0 = l.lr.arg ∧ w.sreg 1 = BitVec.ofNat 64 l.seq ∧ (∀ r, 2 ≤ r → w.sreg r = 0) ∧
            w.utvec = l.lr.utvec ∧ w.trapArea = l.lr.trapArea ∧ w.life = .running ∧ w.hmode = .none) ∧
      (l.round = true → l.started = false → Gives s (.teamPlacement lid cores) fun u =>
        (u.launch? lid).map (fun x => (x.started, x.snapshot)) = some (true, s.mem))) ∧
  (∀ (s : State) (lid tid : Nat) (l : Launch) (t : Team), s.phase = .up → s.launch? lid = some l → s.team? tid = some t → t.preempt = none →
      (∀ i, s.victim lid l = some (tid, i) → Gives s (.priorityPreemption lid tid) fun u =>
        ∀ t', u.team? tid = some t' → ∃ p, t'.preempt = some p ∧ p.byPolicy = true ∧ p.waiting = some (lid, i))) ∧
  (∀ (s : State) (n : Nat) (w : Wave) (t : Team), s.wave? n = some w → s.teamOf w = some t → s.preemptDue n w = true → w.splits ≠ [] →
      ∃ (u : State) (w' : Wave) (tr : Trap), exec (.preemptionTrap n) s = .next (u.raise n tr) ∧ u.wave? n = some w' ∧ w'.latch = w.latch ∧ w'.v = w.v ∧ w'.s = w.s ∧
        u.mem = s.mem ∧ tr.cause = 0x40 ∧ tr.kind = 4 ∧ tr.argument = t.preemptArgument ∧ tr.fault = 0) ∧
  (∀ (s : State) (tid : Nat) (t : Team), s.team? tid = some t → s.saveable tid t = true → s.partsLost tid t = [] →
      (s.charge t.owner (s.saveFrames t - ((t.preempt.map (·.charged)).getD 0))).isSome = true →
      Gives s (.forcedSave tid) fun u => u.team? tid = none ∧ u.mem = s.mem ∧ ∃ v, Tab.find u.saved s.nextId = some v ∧ v.id = tid ∧
        v.forced = true ∧ v.team = { t with preempt := none } ∧
        (∀ n w, n ∈ t.agents → s.wave? n = some w → w.owesTrap = true → v.request = t.preempt) ∧ v.window = s.windowBytes [] tid t 0 t.windowSize ∧
        ∀ n ∈ t.agents, ∀ w, s.wave? n = some w → ∃ w', Tab.find v.waves n = some w' ∧ w'.v = w.v ∧ w'.o = w.o ∧ w'.s = w.s ∧ w'.p = w.p ∧
          w'.latch = w.latch ∧ w'.chains = w.chains ∧ w'.trapCtx = w.trapCtx) ∧
  (∀ (s : State) (lid : Nat) (l : Launch) (o : Owner), s.phase = .up → s.launch? lid = some l → s.launchIdle lid l = true → l.span = none →
      l.dirty = [] → s.owner? l.owner = some o →
      (l.lr.join = 0 → Gives s (.launchCompletion lid) fun u => u.launch? lid = none ∧ u.mem = s.mem ∧
        ∀ k c, l.cmd = some k → s.cmd? l.owner k = some c → Finished u l.owner k l.status (BitVec.ofNat 64 l.seq) (BitVec.ofNat 64 l.placed)
          (BitVec.ofNat 64 l.cause)) ∧
      (l.lr.join ≠ 0 → l.joining = .toDo → o.checkGlobal l.lr.join.toNat 64 .atomic = none → o.remoteAt l.lr.join.toNat = none →
        s.badGlobal none o l.lr.join.toNat 64 = false → Gives s (.launchCompletion lid) fun u => u.launch? lid = none ∧
          u.mem = (s.decrement none l.owner l.lr.join.toNat 512 l.parent).2.mem))

/-- R102, R180–R182: a bell that is due rings: every running agent of the launch begins its next round, the snapshot of that round is what
memory then holds, and nothing else of the agents changes. Where an agent has buffered stores they are performed, those of one
instruction in lane order; a bell that is not due changes nothing. R184, R185: so are a barrier action, whose refusal is delivered as the next
round starts, a configuration and cells of the hurdle array, an engine operation whole, and the word of an instruction that issue has
left to the bell, as `exec` performs it; one that must wait is tried again at the next bell. -/
def Obligations.BellPerformsStores : Prop :=
  (∀ (s : State) (lid : Nat) (l : Launch) (o : Owner), s.launch? lid = some l →
    (s.bellDue lid l = false → Gives s (.bell lid) fun u => u = s) ∧
    (s.bellDue lid l = true → l.ringing = [] → s.owner? l.owner = some o → ((s.agentsOf lid).map (·.1)).Nodup →
      (∀ x ∈ s.agentsOf lid, s.wave? x.1 = some x.2 ∧ x.2.buffer = [] ∧ x.2.bellSplit = none ∧
        (x.2.life ≠ .running → x.2.reserved = [] ∧ x.2.holds = [])) →
      (∀ x ∈ s.teamsOfLaunch lid, s.team? x.1 = some x.2 ∧ s.teamRuns x.2 = true ∧ x.2.preempt = none) →
      (∀ x ∈ s.waves, ∀ p ∈ x.2.splits, p.2.claims = false) →
      s.nextUnit l = none → roundRecords lid o = [] → o.commits = [] →
      Gives s (.bell lid) fun u => u.mem = s.mem ∧ u.atBell = false ∧
        (u.launch? lid).map (fun x => (x.snapshot, x.fresh, x.ringing)) = some (s.mem, false, []) ∧
        (∀ x ∈ s.agentsOf lid, x.2.life = .running →
          u.wave? x.1 = some { x.2 with round := x.2.round + 1, lt := 0, laneStores := 0, roundEnded := false }) ∧
        (∀ x ∈ s.agentsOf lid, x.2.life ≠ .running → u.wave? x.1 = some x.2) ∧
        (∀ n, (∀ x ∈ s.agentsOf lid, x.1 ≠ n) → u.wave? n = s.wave? n))) ∧
  (∀ (s : State) (lid n : Nat) (l : Launch) (w : Wave) (o : Owner), s.launch? lid = some l → s.bellDue lid l = true → l.ringing = [] →
    s.owner? l.owner = some o → s.agentsOf lid = [(n, w)] → s.wave? n = some w → w.life = .running → w.bellSplit = none → w.trapCtx = none →
    (∀ x ∈ s.teamsOfLaunch lid, s.team? x.1 = some x.2 ∧ s.teamRuns x.2 = true ∧ x.2.preempt = none) → s.nextUnit l = none → roundRecords lid o = [] →
    o.commits = [] →
    let plain (va : Nat) (d : List Byte) : Prop := w.owner = l.owner ∧ d ≠ [] ∧ o.checkGlobal va 1 .store = none ∧
      o.checkGlobal (va + d.length - 1) 1 .store = none ∧ o.remoteAt va = none ∧ s.cutOff (s.dieOf w) o va d.length = false
    let begins (u : State) : Prop := (u.launch? lid).map (fun x => (x.snapshot, x.fresh, x.ringing)) = some (u.mem, false, []) ∧
      ∃ w', u.wave? n = some w' ∧ w'.round = w.round + 1 ∧ w'.buffer = [] ∧ w'.roundEnded = false ∧ w'.lt = 0 ∧ w'.laneStores = 0
    (w.buffer = [] → Gives s (.bell lid) fun u => u.mem = s.mem ∧ begins u) ∧
    (∀ va d, w.buffer = [.store (.global w.owner va) d] → plain va d → Gives s (.bell lid) fun u =>
      u.mem = (s.putBytes (s.writer w) w.owner va d).mem ∧ begins u) ∧
    (∀ tag t ls, w.buffer = [.stores tag t ls] → ls.Pairwise (fun x y => x.access.lane < y.access.lane) →
      (∀ x ∈ ls, ∃ va, x.place = .global w.owner va ∧ plain va x.data) → Gives s (.bell lid) fun u =>
        u.mem = (ls.foldl (fun t x => t.writePlace w x.place x.data) s).mem ∧ begins u) ∧
    (∀ x, w.buffer = [.hcfg x] → Gives s (.bell lid) fun u => u.mem = s.mem ∧ begins u ∧ (u.core (s.coreOf w)).config = some x) ∧
    (∀ first images, w.buffer = [.cells first images] → Gives s (.bell lid) fun u => u.mem = s.mem ∧ begins u ∧ ∀ ep k,
      (u.core (s.coreOf w)).readCell w.owner ep k =
        if first ≤ k ∧ k < first + images.length then images.getD (k - first) 0 else (s.core (s.coreOf w)).readCell w.owner ep k) ∧
    (∀ (act : Act) (tr : Trap) (tid b : Nat) (t : Team), w.buffer = [act] → s.cur = none → w.pending = none → w.hmode = .none →
      s.team? tid = some t → Part.barrier tid b ∉ s.badParts →
      let x := t.barrier b
      let sets (y : Barrier) : Prop := Gives s (.bell lid) fun u => u.mem = s.mem ∧ begins u ∧ ∃ t', u.team? tid = some t' ∧
        t'.barrier b = y ∧ ∀ j, j ≠ b → t'.barrier j = t.barrier j
      let refused : Prop := ∃ (u : State) (w' : Wave), exec (.bell lid) s = .next { u.raiseNow n tr with atBell := false, cur := none } ∧ u.mem = s.mem ∧
        u.wave? n = some w' ∧ w'.round = w.round + 1 ∧ w'.buffer = [] ∧ w'.redo = some act
      (∀ units ea eb, act = .bari b units ea eb tr → tid = w.team →
        let same := x.waveUnits = units ∧ x.ea = ea ∧ x.eb = eb
        let counting := x.arrivals ≠ 0 ∨ x.bytes ≠ 0
        (x.init = false ∨ ¬ same ∧ ¬ counting →
          sets { x with init := true, waveUnits := units, ea := ea, eb := eb, arrivals := 0, bytes := 0, failed := false }) ∧
        (x.init = true → same → sets x) ∧ (x.init = true → ¬ same → counting → refused)) ∧
      (∀ k, act = .barx b k tr → tid = w.team →
        let y := ({ x with ea := x.ea - k } : Barrier).counted 0 0
        (x.init = true → k ≤ x.ea → sets (if y.ea = 0 ∧ y.eb = 0 then { y with init := false } else y)) ∧
        (x.init = false ∨ x.ea < k → refused)) ∧
      (∀ peer bytes, act = .bara peer b bytes tr → s.baraTeam w peer = some (tid, t) →
        (x.init = true → sets (x.counted 0 bytes)) ∧ (x.init = false → tid = w.team → refused))) ∧
    (∀ (x : Engine) (v : State) (wv : Wave), w.buffer = [.engine x] → w.roundEnded = true → Tab.wf s.waves = true → QuietBell v lid n wv →
      wv.bellSplit = none → v.engine? s.nextId = none → (∀ m tiles mask a b sa sb, x.op ≠ .matrix m tiles mask a b sa sb) →
      let i : Instr := match x.op with
        | .hrun .. => .hrunCompletion s.nextId
        | .publish _ => .pubSwap s.nextId
        | _ => .copyCompletion s.nextId
      let begun : State := { s.setWave n { w with buffer := [] } with engines := Tab.put s.engines s.nextId x, nextId := s.nextId + 1 }
      exec i { begun with atBell := true, cur := none } = .next v →
      Gives s (.bell lid) fun u => AfterBell v u ∧
        u.wave? n = some { wv with round := wv.round + 1, lt := 0, laneStores := 0, roundEnded := false })) ∧
  ∀ (s : State) (lid n k : Nat) (l : Launch) (w : Wave) (p : Split) (i : Instr) (v : State) (x : Wave), s.launch? lid = some l →
    s.bellDue lid l = true → l.ringing = [] → s.agentsOf lid = [(n, w)] → s.wave? n = some w → Tab.wf s.waves = true → w.life = .running →
    w.roundEnded = true → w.buffer = [] → w.bellSplit = some k → Tab.find w.splits k = some p → p.waiting ≠ .remote → p.waiting ≠ .posted →
    decodeWord p.current p.literals = .ok i →
    (i.endsRound = true ∧ ∀ h, i ≠ .rend h) ∨ (∃ h sp sz sx d a c, i = .ld h sp sz sx d a c) ∨ (∃ h sp sz a b c, i = .st h sp sz a b c) →
    exec i { (s.updSplit n k fun q => { q with waiting := .none }) with cur := some (n, k), atBell := true } = .next v →
    QuietBell v lid n x →
    let stays := ∃ q, Tab.find x.splits k = some q ∧ q.waiting.atBells = true
    (¬ stays → Gives s (.bell lid) fun u => AfterBell v u ∧
      u.wave? n = some { x with bellSplit := none, round := x.round + 1, lt := 0, laneStores := 0, roundEnded := false }) ∧
    (stays → (∀ q, Tab.find x.splits k = some q → q.waiting ≠ .remote ∧ q.waiting ≠ .posted) → Gives s (.bell lid) fun u => AfterBell v u ∧
      u.wave? n = some { x with bellSplit := some k, round := x.round + 1, lt := 0, laneStores := 0, roundEnded := true })

/-! ### Queues, claims, issue and waits (R87–R93, R109, R111, R119, R223, R226, R285, R320, R321, R359) -/

/-- R89: a core takes the records of one wave from its own queue: it holds them, and then forms the wave, whose lane i holds the argument, the
index and the depth of record i. R92: a core whose window is empty takes them from the first queue of its order that has some. R93:
records of a dead holder become task records again. R87: a waiting commit goes when there is room. R109, R362: a waiting CLAIM is granted
whole, and executes again where another has reached the limit meanwhile. R111: a deadlock fails the youngest claimant's CLAIM. -/
def Obligations.QueuesGatherAndGrant : Prop :=
  (∀ (s : State) (id core k : Nat) (o : Owner) (Q : TaskQueue) (lead : QueueRec), s.canGather id core = true → s.owner? id = some o →
      Tab.find o.queues k = some Q → leadOf (s.window core k Q) = some lead →
      let takes (i : Instr) : Prop := Gives s i fun u => (u.core core).hold = some (id, k, lead.pos) ∧ ∃ o' Q', u.owner? id = some o' ∧
        Tab.find o'.queues k = some Q' ∧ (∀ j, j ≠ k → Tab.find o'.queues j = Tab.find o.queues j) ∧ Q'.recs.length = Q.recs.length ∧
        ∀ (j : Nat) (r r' : QueueRec), Q.recs[j]? = some r → Q'.recs[j]? = some r' →
          (if r.pos ∈ (gatherSet (s.window core k Q) lead).map (·.pos) then r' = { r with held := true, type := 3, ptag := 2 ^ 15 + core }
            else { r' with passed := r.passed } = r)
      (s.core core).hold = none →
      (k = core → takes (.gather id core)) ∧
      ((∀ q, Tab.find o.queues core = some q → s.window core core q = []) →
        (o.stealOrder core).find? (fun j => match Tab.find o.queues j with | some q => !(s.window core j q).isEmpty | none => false) = some k →
        takes (.steal id core))) ∧
  (∀ (s : State) (id core k pos : Nat) (o : Owner) (Q : TaskQueue) (lead : QueueRec), s.canGather id core = true → s.owner? id = some o →
      (s.core core).hold = some (id, k, pos) → Tab.find o.queues k = some Q →
      let recs := Q.heldBy core
      recs.head? = some lead → recs.length ≤ 32 → (∀ r ∈ recs, r.card.kind ≠ 2 ∧ r.parked = none) →
      Gives s (if k = core then .gather id core else .steal id core) fun u => ∃ tid n t w o', u.team? tid = some t ∧ t.task = true ∧
        t.core = core ∧ t.owner = id ∧ t.launch = lead.launch ∧ t.waves = [n] ∧ u.wave? n = some w ∧ w.task = true ∧
        w.emask = maskOf (List.range recs.length) ∧ w.splits = [(0, Split.start lead.card.entry w.emask)] ∧ w.sreg 0 = lead.card.arg ∧
        (∀ (i : Nat) (r : QueueRec), recs[i]? = some r → w.vreg 0 i = lo32 r.card.arg ∧ w.vreg 1 i = hi32 r.card.arg ∧
          w.vreg 2 i = lo32 r.index ∧ w.vreg 3 i = hi32 r.index ∧ w.vreg 4 i = r.card.depth) ∧
        (u.core core).hold = none ∧ u.owner? id = some o' ∧ o'.pool = o.pool - recs.length) ∧
  (∀ (s : State) (id k skip : Nat) (o : Owner) (Q : TaskQueue) (c : WaitingCommit), s.owner? id = some o → Tab.find o.queues k = some Q →
      (Gives s (.holdRevert id k) fun u => ∃ o' Q', u.owner? id = some o' ∧ Tab.find o'.queues k = some Q' ∧ Q'.ctl = Q.ctl ∧
        Q'.recs = Q.recs.map fun r =>
          if r.type = 3 ∧ r.released = false ∧ 2 ^ 15 ≤ r.ptag ∧ (s.core (r.ptag % 512)).off = true then { r with type := 2, held := false } else r) ∧
      (o.commits = [c] → c.queue = k → c.launch = none → Fits Q.ctl 40 skip → Gives s (.queueCommitRoom id k) fun u =>
        ∃ o' Q' r, u.owner? id = some o' ∧ o'.commits = [] ∧ Tab.find o'.queues k = some Q' ∧
          Q'.recs.filter (fun r => r.type != 0) = Q.recs.filter (fun r => r.type != 0) ++ [r] ∧ r.card = c.card ∧ r.committed = true)) ∧
  (∀ (s : State) (core n k m : Nat) (w : Wave) (p : Split) (r : Retry) (t : Team), s.wave? n = some w → Tab.find w.splits k = some p →
      p.retry = some r → s.teamOf w = some t → t.core = core →
      let ends (u : State) (mark : W64) (w' : Wave) : Prop := u.wave? n = some w' ∧ n ∉ (u.core core).claims ∧
        Tab.find w'.splits k = some { p with retry := some { r with carry := mark }, waiting := .none }
      (s.youngestClaimant core = some (n, k) → s.deadlocked core = true → s.isRound w = false → (s.core core).claims.Nodup →
        Gives s (.deadlockBreak core) fun u => ∃ w', ends u 2 w' ∧ u.mem = s.mem) ∧
      (∀ tiles, (s.core core).claims = [n] → w.waitingClaim = some (k, tiles, m) → w.claimOk t tiles m = false →
        Gives s (.claimGrant core) fun u => ∃ w', ends u 0 w' ∧ w'.units = w.units ∧ u.teams = s.teams) ∧
      ((s.core core).claims = [n] → w.waitingClaim = some (k, false, m) → w.claimOk t false m = true → m ≤ t.spareUnits + s.freeUnits core →
        Gives s (.claimGrant core) fun u => ∃ w', ends u 1 w' ∧ w'.units = w.units + m) ∧
      ((s.core core).claims = [n] → w.waitingClaim = some (k, true, m) → w.claimOk t true m = true →
        m ≤ t.spareTiles.length → Gives s (.claimGrant core) fun u =>
        ∃ w' t', ends u 1 w' ∧ u.team? w.team = some t' ∧ t'.tiles = t.tiles ++ t.spareTiles.take m ∧ t'.spareTiles = t.spareTiles.drop m))

/-- R223, R226, R227: a split fetches its clause, whole; where it passes the checks and its tokens are not busy, its first word issues next, and
where it breaks a condition the wave traps with 0x01 at the first offending word and no word of it issues; R33, R146: a word on a
remote page is asked of its home package. R119: a wave that has missed 1024 opportunities is offered the next. R285, R320, R321, R359: a sleep ends, and a word that waits for room, a record or the pool is
tried again. -/
def Obligations.SplitsFetchAndWaitsEnd : Prop :=
  ∀ (s : State) (n k : Nat) (w : Wave) (p : Split), s.wave? n = some w → Tab.find w.splits k = some p →
    (s.cur = none → s.fetches w k p = true → (w.owner, p.pc) ∉ s.ivgil.breaks →
      let m : W32 := if w.drover then 1 else p.mask
      (∀ c, s.fetchWord (s.dieOf w) p.fetched w.owner p.pc.toNat = .fault c → ∃ tr, exec (.clauseFetch n k) s = .next (s.raise n tr) ∧ tr.cause = c ∧
        tr.active = m ∧ tr.header = p.pc) ∧
      (∀ home, s.fetchWord (s.dieOf w) p.fetched w.owner p.pc.toNat = .ask home → ∀ q t,
        s.sendRemote w n k 37 false home (BitVec.ofNat 64 p.pc.toNat) .fetch = some (q, t) → Gives s (.clauseFetch n k) fun u =>
          u.tx = t.tx ∧ u.cur = none ∧ u.mem = s.mem ∧ ∃ w', u.wave? n = some w' ∧
            Tab.find w'.splits k = some { p with fetchAt := some p.pc.toNat, waiting := .remote }) ∧
      (∀ hw, s.fetchWord (s.dieOf w) p.fetched w.owner p.pc.toNat = .word hw →
        ((headerOf hw).ok = false → ∃ tr, exec (.clauseFetch n k) s = .next (s.raise n tr) ∧ tr.cause = 0x01 ∧ tr.counted = true ∧
          tr.header = p.pc) ∧
        (∀ ws, (headerOf hw).ok = true → s.fetchWords (s.dieOf w) p.fetched w.owner (p.pc.toNat + 8) (headerOf hw).words = .inl ws →
          (∀ i, clauseFault hw ws = some i → ∃ tr, exec (.clauseFetch n k) s = .next (s.raise n tr) ∧ tr.cause = 0x01 ∧ tr.index = i ∧
            tr.counted = true ∧ tr.fault = m ∧ tr.header = p.pc) ∧
          (∀ j, clauseFault hw ws = none → w.busy &&& (headerOf hw).twait = 0 → w.tokenErrors &&& (headerOf hw).twait = 0 →
            nextWord (headerOf hw) ws.length p.word ws.length = some j → Gives s (.clauseFetch n k) fun u => u.cur = some (n, k) ∧
              { u with waves := s.waves, cur := s.cur } = s ∧ (∀ i, i ≠ n → u.wave? i = s.wave? i) ∧
              ∃ w', u.wave? n = some w' ∧
                Tab.find w'.splits k = some { p with clause := hw :: ws, word := j, waiting := .none, skipBreak := false, fetched := [] } ∧
                { w' with splits := w.splits, begun := w.begun } = w) ∧
          (clauseFault hw ws = none → w.busy &&& (headerOf hw).twait ≠ 0 → p.tokensMet = false → s.isRound w = false →
            Gives s (.clauseFetch n k) fun u => { u with waves := s.waves } = s ∧ ∃ w', u.wave? n = some w' ∧
              Tab.find w'.splits k = some { p with waiting := .tokens (headerOf hw).twait })))) ∧
    (1024 ≤ w.missed → w.life = .running → w.drover = false → Gives s (.issueGuarantee n) fun u =>
      u.sched = .wave n (match w.dueSplit with | some x => x.1 | none => w.nextSplit) :: s.sched ∧ { u with sched := s.sched } = s) ∧
    (Gives s (.sleepExpiry n) fun u => u.wave? n = some { w with sleep := if w.sleep = 1 then 0 else w.sleep } ∧
      { u with waves := s.waves } = s) ∧
    (s.isRound w = false →
      let retries (i : Instr) (x : Wait) : Prop := p.waiting = x → Gives s i fun u => { u with waves := s.waves } = s ∧
        ∃ w', u.wave? n = some w' ∧ { w' with splits := w.splits } = w ∧ Tab.find w'.splits k = some { p with waiting := .none }
      retries (.rqresWaitRetry n) .ringSpace ∧ retries (.rqtakeWaitRetry n) .ringTake ∧ retries (.jinitPoolWait n) .poolMax)

/-! ### The debug agent (R216, R384–R392) -/

/-- R384: a breakpoint stops a wave before word 0 of its clause issues; `run` lets every stopped wave of the owner go on past it, and `step`
lets one word issue: the wave is held again after it, or where the word waits once that wait has ended, and the agent tells which. R386, R388, R392: what the agent reads is reported, and nothing else of the machine changes. R390: it is armed for a
cause in the owner's next launch. R221: it sees the trap record of a wave in a round as the wave does. The codes of a report are the model's
own (log entry 151 for a join object in another package). -/
def Obligations.DebugAgentReadsAndHolds : Prop :=
  ∀ (s : State) (owner n k r : Nat) (a cause : Nat) (clause : W64) (w : Wave) (p : Split) (t : Team) (tid bar : Nat) (o : Owner),
    let reports (i : Instr) (l : List W64) : Prop := Gives s i fun u => u.ivgil.report = l ∧ { u with ivgil := s.ivgil } = s ∧
      { u.ivgil with report := s.ivgil.report } = s.ivgil
    let held (u : State) (x : Wave) : Prop := u.wave? n = some x ∧ { u with waves := s.waves, sched := s.sched } = s
    s.wave? n = some w → Tab.find w.splits k = some p → s.team? tid = some t → s.owner? owner = some o →
    (Gives s (.ivgilBreak owner clause) fun u => (∀ x, x ∈ u.ivgil.breaks ↔ x ∈ s.ivgil.breaks ∨ x = (owner, clause)) ∧
      { u with ivgil := s.ivgil } = s ∧ { u.ivgil with breaks := s.ivgil.breaks } = s.ivgil) ∧
    (s.cur = none → s.fetches w k p = true → w.drover = false → p.skipBreak = false → (w.owner, p.pc) ∈ s.ivgil.breaks →
      Gives s (.clauseFetch n k) fun u => held u { w with stopped := .breakpoint k }) ∧
    (w.owner = owner → (∀ j, w.stopped ≠ .breakpoint j) → Gives s (.ivgilRun owner) fun u => u.wave? n = some { w with stopped := .no }) ∧
    (w.owner = owner → w.stopped = .breakpoint k → Gives s (.ivgilRun owner) fun u => ∃ x, u.wave? n = some x ∧ x.stopped = .no ∧
      Tab.find x.splits k = some { p with skipBreak := true } ∧ { x with splits := w.splits, stopped := w.stopped } = w) ∧
    (w.stopped = .breakpoint k → Gives s (.ivgilStep n) fun u => u.sched = .step n :: s.sched ∧ ∃ x, held u x ∧ x.stopped = .stepping (some k) ∧
      Tab.find x.splits k = some { p with skipBreak := true }) ∧
    (w.stopped = .held → Gives s (.ivgilStep n) fun u => u.sched = .step n :: s.sched ∧ held u { w with stopped := .stepping none }) ∧
    (w.stopped = .no → Gives s (.ivgilStep n) fun u => u = s) ∧
    (∀ (b : Split) (j : Option Nat), w.stopped = .stepping j →
      let u := s.stepped n k b
      let told (waits : W64) : Prop := u.cur = none ∧ u.ivgil.report = [waits, BitVec.ofNat 64 k, BitVec.ofNat 64 b.word]
      (p.pc ≠ b.pc ∨ p.word ≠ b.word ∨ p.clause = [] ∨ p.waiting = .none → u.wave? n = some { w with stopped := .held } ∧ told 0) ∧
      (p.pc = b.pc → p.word = b.word → p.clause ≠ [] → p.waiting ≠ .none → w.bellSplit = none →
        u.wave? n = some { w with stopped := .waits k b.pc b.word } ∧ told 1)) ∧
    reports (.ivgilTiming n) [] ∧
    reports (.ivgilPrint (.vector n r)) ((List.range 32).map fun l => (w.vreg r l).setWidth 64) ∧
    reports (.ivgilPrint (.scalar n r)) [w.sreg r] ∧
    (∃ m : W32, reports (.ivgilPrint (.predicate n r)) [m.setWidth 64] ∧ ∀ l, l < 32 → m.getLsbD l = w.pbit r l) ∧
    (∀ off rows pitch size count guard : Nat, reports (.ivgilPrint (.scratch tid off rows pitch size count guard))
      ((List.range rows).flatMap fun i => (BitVec.ofNat 64 i - BitVec.ofNat 64 guard) :: BitVec.ofNat 64 (off + i * pitch) ::
        (List.range count).map fun j => BitVec.ofNat 64 (s.windowHeld tid t (off + i * pitch + size * j) size))) ∧
    reports (.ivgilPrint (.memory owner a k)) ((List.range k).map fun i => (o.byteAt s.mem (a + i)).setWidth 64) ∧
    reports (.ivgilLanes n) (w.emask.setWidth 64 :: BitVec.ofNat 64 w.splits.length ::
      w.splits.flatMap fun x => [BitVec.ofNat 64 x.1, x.2.mask.setWidth 64, x.2.pc, BitVec.ofNat 64 x.2.stack.length]) ∧
    (∀ slot, reports (.ivgilChain n slot) ((w.chain slot).seed :: ((w.chain slot).link.map (BitVec.ofNat 64)).getD (BitVec.allOnes 64) ::
      (w.chain slot).out :: (if (w.chain slot).produced then 1 else 0) :: (w.chain slot).queue)) ∧
    reports (.ivgilTokens n) [w.busy.setWidth 64, w.tokenErrors.setWidth 64] ∧
    reports (.ivgilBarrier tid bar) [if (t.barrier bar).init then 1 else 0, if (t.barrier bar).waveUnits then 1 else 0,
      BitVec.ofNat 64 (t.barrier bar).ea, BitVec.ofNat 64 (t.barrier bar).eb, if (t.barrier bar).phase then 1 else 0,
      BitVec.ofNat 64 (t.barrier bar).arrivals, BitVec.ofNat 64 (t.barrier bar).bytes, if (t.barrier bar).failed then 1 else 0,
      if (t.barrier bar).observedFailed then 1 else 0] ∧
    (Gives s (.ivgilCatch owner cause) fun u => u.ivgil.catching = s.ivgil.catching ++ [(owner, cause)] ∧ { u with ivgil := s.ivgil } = s) ∧
    (∀ o', s.owner? w.owner = some o' → ∃ l, reports (.ivgilTrap n) l ∧ l.length = 80 ∧ ∀ i, i < 80 →
      (l.getD i 0).toNat = leAt (s.readTarget w (s.viewOf w) (.global (s.trecOf w).toNat) 640) (8 * i) 8 ∧
      (s.isRound w = false → (l.getD i 0).toNat =
        ofLe ((List.range 8).map fun j => o'.byteAt s.mem ((s.trecOf w).toNat + 8 * i + j)))) ∧
    ((∀ j ∈ o.joins, ∀ x, o.pageAt j.address = some x → x.remote = none) → ∃ l, reports (.ivgilPrintPool owner) l ∧
      l.take 4 = [BitVec.ofNat 64 o.pool, BitVec.ofNat 64 o.poolQuota, BitVec.ofNat 64 o.nesting, BitVec.ofNat 64 o.joins.length] ∧
      (∀ i x, o.joins[i]? = some x → l[4 + 2 * i]? = some (BitVec.ofNat 64 x.address) ∧
        l[5 + 2 * i]? = some (BitVec.ofNat 64 (ofLe (o.bytes owner s.now x.address 4)))) ∧
      l.length = 4 + 2 * o.joins.length + 4 * ((o.queues.map fun q =>
        (q.2.recs.filter fun r => !r.released && r.type != 0 && r.card.kind != 2).length).sum +
        (o.commits.filter fun c => c.card.kind != 2).length))

end Statements
end

