-- ==== Sys2Proof/Laws/Tab.lean ====
section
/-!
SUPPORT. Tables: what reading one gives after each operation, on any table, and that each operation keeps the canonical form.
-/
namespace Sys2Proof.Machine

variable {β γ : Type}

/-! ### Reading after an operation -/

@[simp] theorem Tab.find_nil (k : Nat) : Tab.find ([] : Tab β) k = none := rfl

theorem Tab.find_cons (j : Nat) (v : β) (r : Tab β) (k : Nat) :
    Tab.find ((j, v) :: r) k = if j = k then some v else Tab.find r k := rfl

theorem Tab.find_put (t : Tab β) (k j : Nat) (v : β) :
    Tab.find (Tab.put t k v) j = if j = k then some v else Tab.find t j := by
  induction t with
  | nil => grind [Tab.put, Tab.find]
  | cons x r ih => grind [Tab.put, Tab.find]

@[simp] theorem Tab.find_put_self (t : Tab β) (k : Nat) (v : β) : Tab.find (Tab.put t k v) k = some v := by
  simp [Tab.find_put]

theorem Tab.find_put_ne (t : Tab β) {k j : Nat} (v : β) (h : j ≠ k) : Tab.find (Tab.put t k v) j = Tab.find t j := by
  simp [Tab.find_put, h]

theorem Tab.find_drop (t : Tab β) (k j : Nat) :
    Tab.find (Tab.drop t k) j = if j = k then none else Tab.find t j := by
  induction t with
  | nil => grind [Tab.drop, Tab.find]
  | cons x r ih => grind [Tab.drop, Tab.find]

theorem Tab.find_upd (t : Tab β) (k j : Nat) (f : β → β) :
    Tab.find (Tab.upd t k f) j = if j = k then (Tab.find t k).map f else Tab.find t j := by
  unfold Tab.upd
  cases h : Tab.find t k with
  | none => split <;> simp_all
  | some v => simp [Tab.find_put]

@[simp] theorem Tab.find_upd_self (t : Tab β) (k : Nat) (f : β → β) :
    Tab.find (Tab.upd t k f) k = (Tab.find t k).map f := by simp [Tab.find_upd]

theorem Tab.find_upd_ne (t : Tab β) {k j : Nat} (f : β → β) (h : j ≠ k) :
    Tab.find (Tab.upd t k f) j = Tab.find t j := by simp [Tab.find_upd, h]

theorem Tab.find_keep (f : Nat → Bool) (t : Tab β) (k : Nat) :
    Tab.find (Tab.keep f t) k = if f k then Tab.find t k else none := by
  induction t with
  | nil => grind [Tab.keep, Tab.find]
  | cons x r ih => grind [Tab.keep, Tab.find]

theorem Tab.find_mapVal (f : Nat → β → γ) (t : Tab β) (k : Nat) :
    Tab.find (Tab.mapVal f t) k = (Tab.find t k).map (f k) := by
  induction t with
  | nil => rfl
  | cons x r ih =>
    obtain ⟨i, u⟩ := x
    simp only [Tab.mapVal, Tab.find_cons, ih]
    split <;> simp_all

theorem Tab.getD_put (t : Tab β) (k j : Nat) (v d : β) :
    Tab.getD (Tab.put t k v) j d = if j = k then v else Tab.getD t j d := by
  simp only [Tab.getD, Tab.find_put]; split <;> simp

theorem Tab.getD_setD [DecidableEq β] (t : Tab β) (d : β) (k j : Nat) (v : β) :
    Tab.getD (Tab.setD t d k v) j d = if j = k then v else Tab.getD t j d := by
  simp only [Tab.getD, Tab.setD]
  split
  · rw [Tab.find_drop]; split <;> simp_all
  · rw [Tab.find_put]; split <;> simp_all

theorem Tab.getD_keep (f : Nat → Bool) (t : Tab β) (k : Nat) (d : β) :
    Tab.getD (Tab.keep f t) k d = if f k then Tab.getD t k d else d := by
  simp only [Tab.getD, Tab.find_keep]; split <;> simp

/-! ### The canonical form -/

theorem Tab.above_mono {k j : Nat} (h : k ≤ j) : {t : Tab β} → Tab.above j t = true → Tab.above k t = true
  | [], _ => rfl
  | (i, _) :: _, ht => by
    simp only [Tab.above, Bool.and_eq_true, decide_eq_true_eq] at *; exact ⟨by omega, ht.2⟩

theorem Tab.above_put {k j : Nat} {v : β} (h : k < j) : {t : Tab β} → Tab.above k t = true → Tab.above k (Tab.put t j v) = true
  | [], _ => by simp [Tab.put, Tab.above, h]
  | (i, u) :: r, ht => by
    simp only [Tab.above, Bool.and_eq_true, decide_eq_true_eq] at ht
    simp only [Tab.put]
    split
    · simp [Tab.above, *]
    · split
      · simp only [Tab.above, Bool.and_eq_true, decide_eq_true_eq]; exact ⟨h, Tab.above_mono (by omega) ht.2⟩
      · simp only [Tab.above, Bool.and_eq_true, decide_eq_true_eq]
        exact ⟨ht.1, Tab.above_put (by omega) ht.2⟩

theorem Tab.above_drop {k j : Nat} : {t : Tab β} → Tab.above k t = true → Tab.above k (Tab.drop t j) = true
  | [], _ => rfl
  | (i, u) :: r, ht => by
    simp only [Tab.above, Bool.and_eq_true, decide_eq_true_eq] at ht
    simp only [Tab.drop]
    split
    · exact Tab.above_drop (Tab.above_mono (by omega) ht.2)
    · simp only [Tab.above, Bool.and_eq_true, decide_eq_true_eq]; exact ⟨ht.1, Tab.above_drop ht.2⟩

theorem Tab.above_keep {f : Nat → Bool} {k : Nat} : {t : Tab β} → Tab.above k t = true → Tab.above k (Tab.keep f t) = true
  | [], _ => rfl
  | (i, u) :: r, ht => by
    simp only [Tab.above, Bool.and_eq_true, decide_eq_true_eq] at ht
    simp only [Tab.keep]
    split
    · simp only [Tab.above, Bool.and_eq_true, decide_eq_true_eq]; exact ⟨ht.1, Tab.above_keep ht.2⟩
    · exact Tab.above_keep (Tab.above_mono (by omega) ht.2)

theorem Tab.wf_of_above {k : Nat} : {t : Tab β} → Tab.above k t = true → Tab.wf t = true
  | [], _ => rfl
  | (i, _) :: _, ht => by simp only [Tab.above, Bool.and_eq_true] at ht; exact ht.2

theorem Tab.wf_put {t : Tab β} {k : Nat} {v : β} (h : Tab.wf t = true) : Tab.wf (Tab.put t k v) = true := by
  cases t with
  | nil => rfl
  | cons x r =>
    obtain ⟨i, u⟩ := x
    simp only [Tab.wf] at h
    simp only [Tab.put]
    split
    · simp [Tab.wf, Tab.above, *]
    · split
      · simp only [Tab.wf]; exact Tab.above_mono (by omega) h
      · simp only [Tab.wf]; exact Tab.above_put (by omega) h

theorem Tab.wf_drop {t : Tab β} {k : Nat} (h : Tab.wf t = true) : Tab.wf (Tab.drop t k) = true := by
  cases t with
  | nil => rfl
  | cons x r =>
    obtain ⟨i, u⟩ := x
    simp only [Tab.wf] at h
    simp only [Tab.drop]
    split
    · exact Tab.wf_of_above (Tab.above_drop h)
    · simp only [Tab.wf]; exact Tab.above_drop h

theorem Tab.wf_keep {t : Tab β} {f : Nat → Bool} (h : Tab.wf t = true) : Tab.wf (Tab.keep f t) = true := by
  cases t with
  | nil => rfl
  | cons x r =>
    obtain ⟨i, u⟩ := x
    simp only [Tab.wf] at h
    simp only [Tab.keep]
    split
    · simp only [Tab.wf]; exact Tab.above_keep h
    · exact Tab.wf_of_above (Tab.above_keep h)

theorem Tab.wf_setD [DecidableEq β] {t : Tab β} {d : β} {k : Nat} {v : β} (h : Tab.wf t = true) :
    Tab.wf (Tab.setD t d k v) = true := by
  unfold Tab.setD; split
  · exact Tab.wf_drop h
  · exact Tab.wf_put h

/-! ### Membership, for facts about every entry -/

theorem Tab.mem_put {t : Tab β} {k : Nat} {v : β} {x : Nat × β} (h : x ∈ Tab.put t k v) : x = (k, v) ∨ x ∈ t := by
  induction t with
  | nil => grind [Tab.put]
  | cons y r ih => grind [Tab.put]

theorem Tab.mem_drop {t : Tab β} {k : Nat} {x : Nat × β} (h : x ∈ Tab.drop t k) : x ∈ t := by
  induction t with
  | nil => grind [Tab.drop]
  | cons y r ih => grind [Tab.drop]

theorem Tab.mem_of_find {t : Tab β} {k : Nat} {v : β} (h : Tab.find t k = some v) : (k, v) ∈ t := by
  induction t with
  | nil => simp at h
  | cons y r ih =>
    obtain ⟨i, u⟩ := y
    rw [Tab.find_cons] at h
    split at h
    · simp_all
    · exact List.mem_cons_of_mem _ (ih h)

/-- A fact about every entry stands after one entry is changed where the change keeps it. -/
theorem Tab.all_upd {P : β → Prop} {t : Tab β} {k : Nat} {f : β → β} (h : ∀ x ∈ t, P x.2) (hf : ∀ v, P v → P (f v)) :
    ∀ x ∈ Tab.upd t k f, P x.2 := by
  unfold Tab.upd
  cases hv : Tab.find t k with
  | none => exact h
  | some v =>
    intro x hx
    rcases Tab.mem_put hx with rfl | hx
    · exact hf v (h _ (Tab.mem_of_find hv))
    · exact h x hx

end Sys2Proof.Machine
end

