-- ==== Sys2Proof/Laws/State.lean ====
section
/-!
SUPPORT. What each update of one record of the device leaves as it was, field by field, and what reading a record gives after
it.
-/
namespace Sys2Proof.Machine

/-! ### `State.updOwner` -/

@[simp] theorem State.updOwner_phase (s : State) (o : Nat) (f : Owner → Owner) : (s.updOwner o f).phase = s.phase := rfl
@[simp] theorem State.updOwner_flash (s : State) (o : Nat) (f : Owner → Owner) : (s.updOwner o f).flash = s.flash := rfl
@[simp] theorem State.updOwner_repair (s : State) (o : Nat) (f : Owner → Owner) : (s.updOwner o f).repair = s.repair := rfl
@[simp] theorem State.updOwner_serial (s : State) (o : Nat) (f : Owner → Owner) : (s.updOwner o f).serial = s.serial := rfl
@[simp] theorem State.updOwner_alarmHours (s : State) (o : Nat) (f : Owner → Owner) : (s.updOwner o f).alarmHours = s.alarmHours := rfl
@[simp] theorem State.updOwner_trim (s : State) (o : Nat) (f : Owner → Owner) : (s.updOwner o f).trim = s.trim := rfl
@[simp] theorem State.updOwner_identity (s : State) (o : Nat) (f : Owner → Owner) : (s.updOwner o f).identity = s.identity := rfl
@[simp] theorem State.updOwner_sidebandKey (s : State) (o : Nat) (f : Owner → Owner) : (s.updOwner o f).sidebandKey = s.sidebandKey := rfl
@[simp] theorem State.updOwner_measurements (s : State) (o : Nat) (f : Owner → Owner) : (s.updOwner o f).measurements = s.measurements := rfl
@[simp] theorem State.updOwner_spdm (s : State) (o : Nat) (f : Owner → Owner) : (s.updOwner o f).spdm = s.spdm := rfl
@[simp] theorem State.updOwner_boundaries (s : State) (o : Nat) (f : Owner → Owner) : (s.updOwner o f).boundaries = s.boundaries := rfl
@[simp] theorem State.updOwner_ecc (s : State) (o : Nat) (f : Owner → Owner) : (s.updOwner o f).ecc = s.ecc := rfl
@[simp] theorem State.updOwner_corrected (s : State) (o : Nat) (f : Owner → Owner) : (s.updOwner o f).corrected = s.corrected := rfl
@[simp] theorem State.updOwner_throttled (s : State) (o : Nat) (f : Owner → Owner) : (s.updOwner o f).throttled = s.throttled := rfl
@[simp] theorem State.updOwner_powerWithheld (s : State) (o : Nat) (f : Owner → Owner) : (s.updOwner o f).powerWithheld = s.powerWithheld := rfl
@[simp] theorem State.updOwner_life (s : State) (o : Nat) (f : Owner → Owner) : (s.updOwner o f).life = s.life := rfl
@[simp] theorem State.updOwner_errorLog (s : State) (o : Nat) (f : Owner → Owner) : (s.updOwner o f).errorLog = s.errorLog := rfl
@[simp] theorem State.updOwner_badParts (s : State) (o : Nat) (f : Owner → Owner) : (s.updOwner o f).badParts = s.badParts := rfl
@[simp] theorem State.updOwner_ports (s : State) (o : Nat) (f : Owner → Owner) : (s.updOwner o f).ports = s.ports := rfl
@[simp] theorem State.updOwner_connections (s : State) (o : Nat) (f : Owner → Owner) : (s.updOwner o f).connections = s.connections := rfl
@[simp] theorem State.updOwner_counters (s : State) (o : Nat) (f : Owner → Owner) : (s.updOwner o f).counters = s.counters := rfl
@[simp] theorem State.updOwner_bootNonces (s : State) (o : Nat) (f : Owner → Owner) : (s.updOwner o f).bootNonces = s.bootNonces := rfl
@[simp] theorem State.updOwner_rx (s : State) (o : Nat) (f : Owner → Owner) : (s.updOwner o f).rx = s.rx := rfl
@[simp] theorem State.updOwner_tx (s : State) (o : Nat) (f : Owner → Owner) : (s.updOwner o f).tx = s.tx := rfl
@[simp] theorem State.updOwner_remote (s : State) (o : Nat) (f : Owner → Owner) : (s.updOwner o f).remote = s.remote := rfl
@[simp] theorem State.updOwner_nextRequest (s : State) (o : Nat) (f : Owner → Owner) : (s.updOwner o f).nextRequest = s.nextRequest := rfl
@[simp] theorem State.updOwner_ringJobs (s : State) (o : Nat) (f : Owner → Owner) : (s.updOwner o f).ringJobs = s.ringJobs := rfl
@[simp] theorem State.updOwner_mem (s : State) (o : Nat) (f : Owner → Owner) : (s.updOwner o f).mem = s.mem := rfl
@[simp] theorem State.updOwner_hostMem (s : State) (o : Nat) (f : Owner → Owner) : (s.updOwner o f).hostMem = s.hostMem := rfl
@[simp] theorem State.updOwner_nextFrame (s : State) (o : Nat) (f : Owner → Owner) : (s.updOwner o f).nextFrame = s.nextFrame := rfl
@[simp] theorem State.updOwner_nextLocal (s : State) (o : Nat) (f : Owner → Owner) : (s.updOwner o f).nextLocal = s.nextLocal := rfl
@[simp] theorem State.updOwner_freeFrames (s : State) (o : Nat) (f : Owner → Owner) : (s.updOwner o f).freeFrames = s.freeFrames := rfl
@[simp] theorem State.updOwner_epoch (s : State) (o : Nat) (f : Owner → Owner) : (s.updOwner o f).epoch = s.epoch := rfl
@[simp] theorem State.updOwner_savedStacks (s : State) (o : Nat) (f : Owner → Owner) : (s.updOwner o f).savedStacks = s.savedStacks := rfl
@[simp] theorem State.updOwner_launches (s : State) (o : Nat) (f : Owner → Owner) : (s.updOwner o f).launches = s.launches := rfl
@[simp] theorem State.updOwner_teams (s : State) (o : Nat) (f : Owner → Owner) : (s.updOwner o f).teams = s.teams := rfl
@[simp] theorem State.updOwner_waves (s : State) (o : Nat) (f : Owner → Owner) : (s.updOwner o f).waves = s.waves := rfl
@[simp] theorem State.updOwner_engines (s : State) (o : Nat) (f : Owner → Owner) : (s.updOwner o f).engines = s.engines := rfl
@[simp] theorem State.updOwner_saved (s : State) (o : Nat) (f : Owner → Owner) : (s.updOwner o f).saved = s.saved := rfl
@[simp] theorem State.updOwner_cores (s : State) (o : Nat) (f : Owner → Owner) : (s.updOwner o f).cores = s.cores := rfl
@[simp] theorem State.updOwner_nextId (s : State) (o : Nat) (f : Owner → Owner) : (s.updOwner o f).nextId = s.nextId := rfl
@[simp] theorem State.updOwner_inputs (s : State) (o : Nat) (f : Owner → Owner) : (s.updOwner o f).inputs = s.inputs := rfl
@[simp] theorem State.updOwner_sched (s : State) (o : Nat) (f : Owner → Owner) : (s.updOwner o f).sched = s.sched := rfl
@[simp] theorem State.updOwner_cur (s : State) (o : Nat) (f : Owner → Owner) : (s.updOwner o f).cur = s.cur := rfl
@[simp] theorem State.updOwner_atBell (s : State) (o : Nat) (f : Owner → Owner) : (s.updOwner o f).atBell = s.atBell := rfl
@[simp] theorem State.updOwner_clock (s : State) (o : Nat) (f : Owner → Owner) : (s.updOwner o f).clock = s.clock := rfl
@[simp] theorem State.updOwner_free (s : State) (o : Nat) (f : Owner → Owner) : (s.updOwner o f).free = s.free := rfl
@[simp] theorem State.updOwner_ivgil (s : State) (o : Nat) (f : Owner → Owner) : (s.updOwner o f).ivgil = s.ivgil := rfl

/-! ### `State.updLaunch` -/

@[simp] theorem State.updLaunch_phase (s : State) (l : Nat) (f : Launch → Launch) : (s.updLaunch l f).phase = s.phase := rfl
@[simp] theorem State.updLaunch_flash (s : State) (l : Nat) (f : Launch → Launch) : (s.updLaunch l f).flash = s.flash := rfl
@[simp] theorem State.updLaunch_repair (s : State) (l : Nat) (f : Launch → Launch) : (s.updLaunch l f).repair = s.repair := rfl
@[simp] theorem State.updLaunch_serial (s : State) (l : Nat) (f : Launch → Launch) : (s.updLaunch l f).serial = s.serial := rfl
@[simp] theorem State.updLaunch_alarmHours (s : State) (l : Nat) (f : Launch → Launch) : (s.updLaunch l f).alarmHours = s.alarmHours := rfl
@[simp] theorem State.updLaunch_trim (s : State) (l : Nat) (f : Launch → Launch) : (s.updLaunch l f).trim = s.trim := rfl
@[simp] theorem State.updLaunch_identity (s : State) (l : Nat) (f : Launch → Launch) : (s.updLaunch l f).identity = s.identity := rfl
@[simp] theorem State.updLaunch_sidebandKey (s : State) (l : Nat) (f : Launch → Launch) : (s.updLaunch l f).sidebandKey = s.sidebandKey := rfl
@[simp] theorem State.updLaunch_measurements (s : State) (l : Nat) (f : Launch → Launch) : (s.updLaunch l f).measurements = s.measurements := rfl
@[simp] theorem State.updLaunch_spdm (s : State) (l : Nat) (f : Launch → Launch) : (s.updLaunch l f).spdm = s.spdm := rfl
@[simp] theorem State.updLaunch_boundaries (s : State) (l : Nat) (f : Launch → Launch) : (s.updLaunch l f).boundaries = s.boundaries := rfl
@[simp] theorem State.updLaunch_ecc (s : State) (l : Nat) (f : Launch → Launch) : (s.updLaunch l f).ecc = s.ecc := rfl
@[simp] theorem State.updLaunch_corrected (s : State) (l : Nat) (f : Launch → Launch) : (s.updLaunch l f).corrected = s.corrected := rfl
@[simp] theorem State.updLaunch_throttled (s : State) (l : Nat) (f : Launch → Launch) : (s.updLaunch l f).throttled = s.throttled := rfl
@[simp] theorem State.updLaunch_powerWithheld (s : State) (l : Nat) (f : Launch → Launch) : (s.updLaunch l f).powerWithheld = s.powerWithheld := rfl
@[simp] theorem State.updLaunch_life (s : State) (l : Nat) (f : Launch → Launch) : (s.updLaunch l f).life = s.life := rfl
@[simp] theorem State.updLaunch_errorLog (s : State) (l : Nat) (f : Launch → Launch) : (s.updLaunch l f).errorLog = s.errorLog := rfl
@[simp] theorem State.updLaunch_badParts (s : State) (l : Nat) (f : Launch → Launch) : (s.updLaunch l f).badParts = s.badParts := rfl
@[simp] theorem State.updLaunch_ports (s : State) (l : Nat) (f : Launch → Launch) : (s.updLaunch l f).ports = s.ports := rfl
@[simp] theorem State.updLaunch_connections (s : State) (l : Nat) (f : Launch → Launch) : (s.updLaunch l f).connections = s.connections := rfl
@[simp] theorem State.updLaunch_counters (s : State) (l : Nat) (f : Launch → Launch) : (s.updLaunch l f).counters = s.counters := rfl
@[simp] theorem State.updLaunch_bootNonces (s : State) (l : Nat) (f : Launch → Launch) : (s.updLaunch l f).bootNonces = s.bootNonces := rfl
@[simp] theorem State.updLaunch_rx (s : State) (l : Nat) (f : Launch → Launch) : (s.updLaunch l f).rx = s.rx := rfl
@[simp] theorem State.updLaunch_tx (s : State) (l : Nat) (f : Launch → Launch) : (s.updLaunch l f).tx = s.tx := rfl
@[simp] theorem State.updLaunch_remote (s : State) (l : Nat) (f : Launch → Launch) : (s.updLaunch l f).remote = s.remote := rfl
@[simp] theorem State.updLaunch_nextRequest (s : State) (l : Nat) (f : Launch → Launch) : (s.updLaunch l f).nextRequest = s.nextRequest := rfl
@[simp] theorem State.updLaunch_ringJobs (s : State) (l : Nat) (f : Launch → Launch) : (s.updLaunch l f).ringJobs = s.ringJobs := rfl
@[simp] theorem State.updLaunch_mem (s : State) (l : Nat) (f : Launch → Launch) : (s.updLaunch l f).mem = s.mem := rfl
@[simp] theorem State.updLaunch_hostMem (s : State) (l : Nat) (f : Launch → Launch) : (s.updLaunch l f).hostMem = s.hostMem := rfl
@[simp] theorem State.updLaunch_nextFrame (s : State) (l : Nat) (f : Launch → Launch) : (s.updLaunch l f).nextFrame = s.nextFrame := rfl
@[simp] theorem State.updLaunch_nextLocal (s : State) (l : Nat) (f : Launch → Launch) : (s.updLaunch l f).nextLocal = s.nextLocal := rfl
@[simp] theorem State.updLaunch_freeFrames (s : State) (l : Nat) (f : Launch → Launch) : (s.updLaunch l f).freeFrames = s.freeFrames := rfl
@[simp] theorem State.updLaunch_epoch (s : State) (l : Nat) (f : Launch → Launch) : (s.updLaunch l f).epoch = s.epoch := rfl
@[simp] theorem State.updLaunch_savedStacks (s : State) (l : Nat) (f : Launch → Launch) : (s.updLaunch l f).savedStacks = s.savedStacks := rfl
@[simp] theorem State.updLaunch_owners (s : State) (l : Nat) (f : Launch → Launch) : (s.updLaunch l f).owners = s.owners := rfl
@[simp] theorem State.updLaunch_teams (s : State) (l : Nat) (f : Launch → Launch) : (s.updLaunch l f).teams = s.teams := rfl
@[simp] theorem State.updLaunch_waves (s : State) (l : Nat) (f : Launch → Launch) : (s.updLaunch l f).waves = s.waves := rfl
@[simp] theorem State.updLaunch_engines (s : State) (l : Nat) (f : Launch → Launch) : (s.updLaunch l f).engines = s.engines := rfl
@[simp] theorem State.updLaunch_saved (s : State) (l : Nat) (f : Launch → Launch) : (s.updLaunch l f).saved = s.saved := rfl
@[simp] theorem State.updLaunch_cores (s : State) (l : Nat) (f : Launch → Launch) : (s.updLaunch l f).cores = s.cores := rfl
@[simp] theorem State.updLaunch_nextId (s : State) (l : Nat) (f : Launch → Launch) : (s.updLaunch l f).nextId = s.nextId := rfl
@[simp] theorem State.updLaunch_inputs (s : State) (l : Nat) (f : Launch → Launch) : (s.updLaunch l f).inputs = s.inputs := rfl
@[simp] theorem State.updLaunch_sched (s : State) (l : Nat) (f : Launch → Launch) : (s.updLaunch l f).sched = s.sched := rfl
@[simp] theorem State.updLaunch_cur (s : State) (l : Nat) (f : Launch → Launch) : (s.updLaunch l f).cur = s.cur := rfl
@[simp] theorem State.updLaunch_atBell (s : State) (l : Nat) (f : Launch → Launch) : (s.updLaunch l f).atBell = s.atBell := rfl
@[simp] theorem State.updLaunch_clock (s : State) (l : Nat) (f : Launch → Launch) : (s.updLaunch l f).clock = s.clock := rfl
@[simp] theorem State.updLaunch_free (s : State) (l : Nat) (f : Launch → Launch) : (s.updLaunch l f).free = s.free := rfl
@[simp] theorem State.updLaunch_ivgil (s : State) (l : Nat) (f : Launch → Launch) : (s.updLaunch l f).ivgil = s.ivgil := rfl

/-! ### `State.updTeam` -/

@[simp] theorem State.updTeam_phase (s : State) (t : Nat) (f : Team → Team) : (s.updTeam t f).phase = s.phase := rfl
@[simp] theorem State.updTeam_flash (s : State) (t : Nat) (f : Team → Team) : (s.updTeam t f).flash = s.flash := rfl
@[simp] theorem State.updTeam_repair (s : State) (t : Nat) (f : Team → Team) : (s.updTeam t f).repair = s.repair := rfl
@[simp] theorem State.updTeam_serial (s : State) (t : Nat) (f : Team → Team) : (s.updTeam t f).serial = s.serial := rfl
@[simp] theorem State.updTeam_alarmHours (s : State) (t : Nat) (f : Team → Team) : (s.updTeam t f).alarmHours = s.alarmHours := rfl
@[simp] theorem State.updTeam_trim (s : State) (t : Nat) (f : Team → Team) : (s.updTeam t f).trim = s.trim := rfl
@[simp] theorem State.updTeam_identity (s : State) (t : Nat) (f : Team → Team) : (s.updTeam t f).identity = s.identity := rfl
@[simp] theorem State.updTeam_sidebandKey (s : State) (t : Nat) (f : Team → Team) : (s.updTeam t f).sidebandKey = s.sidebandKey := rfl
@[simp] theorem State.updTeam_measurements (s : State) (t : Nat) (f : Team → Team) : (s.updTeam t f).measurements = s.measurements := rfl
@[simp] theorem State.updTeam_spdm (s : State) (t : Nat) (f : Team → Team) : (s.updTeam t f).spdm = s.spdm := rfl
@[simp] theorem State.updTeam_boundaries (s : State) (t : Nat) (f : Team → Team) : (s.updTeam t f).boundaries = s.boundaries := rfl
@[simp] theorem State.updTeam_ecc (s : State) (t : Nat) (f : Team → Team) : (s.updTeam t f).ecc = s.ecc := rfl
@[simp] theorem State.updTeam_corrected (s : State) (t : Nat) (f : Team → Team) : (s.updTeam t f).corrected = s.corrected := rfl
@[simp] theorem State.updTeam_throttled (s : State) (t : Nat) (f : Team → Team) : (s.updTeam t f).throttled = s.throttled := rfl
@[simp] theorem State.updTeam_powerWithheld (s : State) (t : Nat) (f : Team → Team) : (s.updTeam t f).powerWithheld = s.powerWithheld := rfl
@[simp] theorem State.updTeam_life (s : State) (t : Nat) (f : Team → Team) : (s.updTeam t f).life = s.life := rfl
@[simp] theorem State.updTeam_errorLog (s : State) (t : Nat) (f : Team → Team) : (s.updTeam t f).errorLog = s.errorLog := rfl
@[simp] theorem State.updTeam_badParts (s : State) (t : Nat) (f : Team → Team) : (s.updTeam t f).badParts = s.badParts := rfl
@[simp] theorem State.updTeam_ports (s : State) (t : Nat) (f : Team → Team) : (s.updTeam t f).ports = s.ports := rfl
@[simp] theorem State.updTeam_connections (s : State) (t : Nat) (f : Team → Team) : (s.updTeam t f).connections = s.connections := rfl
@[simp] theorem State.updTeam_counters (s : State) (t : Nat) (f : Team → Team) : (s.updTeam t f).counters = s.counters := rfl
@[simp] theorem State.updTeam_bootNonces (s : State) (t : Nat) (f : Team → Team) : (s.updTeam t f).bootNonces = s.bootNonces := rfl
@[simp] theorem State.updTeam_rx (s : State) (t : Nat) (f : Team → Team) : (s.updTeam t f).rx = s.rx := rfl
@[simp] theorem State.updTeam_tx (s : State) (t : Nat) (f : Team → Team) : (s.updTeam t f).tx = s.tx := rfl
@[simp] theorem State.updTeam_remote (s : State) (t : Nat) (f : Team → Team) : (s.updTeam t f).remote = s.remote := rfl
@[simp] theorem State.updTeam_nextRequest (s : State) (t : Nat) (f : Team → Team) : (s.updTeam t f).nextRequest = s.nextRequest := rfl
@[simp] theorem State.updTeam_ringJobs (s : State) (t : Nat) (f : Team → Team) : (s.updTeam t f).ringJobs = s.ringJobs := rfl
@[simp] theorem State.updTeam_mem (s : State) (t : Nat) (f : Team → Team) : (s.updTeam t f).mem = s.mem := rfl
@[simp] theorem State.updTeam_hostMem (s : State) (t : Nat) (f : Team → Team) : (s.updTeam t f).hostMem = s.hostMem := rfl
@[simp] theorem State.updTeam_nextFrame (s : State) (t : Nat) (f : Team → Team) : (s.updTeam t f).nextFrame = s.nextFrame := rfl
@[simp] theorem State.updTeam_nextLocal (s : State) (t : Nat) (f : Team → Team) : (s.updTeam t f).nextLocal = s.nextLocal := rfl
@[simp] theorem State.updTeam_freeFrames (s : State) (t : Nat) (f : Team → Team) : (s.updTeam t f).freeFrames = s.freeFrames := rfl
@[simp] theorem State.updTeam_epoch (s : State) (t : Nat) (f : Team → Team) : (s.updTeam t f).epoch = s.epoch := rfl
@[simp] theorem State.updTeam_savedStacks (s : State) (t : Nat) (f : Team → Team) : (s.updTeam t f).savedStacks = s.savedStacks := rfl
@[simp] theorem State.updTeam_owners (s : State) (t : Nat) (f : Team → Team) : (s.updTeam t f).owners = s.owners := rfl
@[simp] theorem State.updTeam_launches (s : State) (t : Nat) (f : Team → Team) : (s.updTeam t f).launches = s.launches := rfl
@[simp] theorem State.updTeam_waves (s : State) (t : Nat) (f : Team → Team) : (s.updTeam t f).waves = s.waves := rfl
@[simp] theorem State.updTeam_engines (s : State) (t : Nat) (f : Team → Team) : (s.updTeam t f).engines = s.engines := rfl
@[simp] theorem State.updTeam_saved (s : State) (t : Nat) (f : Team → Team) : (s.updTeam t f).saved = s.saved := rfl
@[simp] theorem State.updTeam_cores (s : State) (t : Nat) (f : Team → Team) : (s.updTeam t f).cores = s.cores := rfl
@[simp] theorem State.updTeam_nextId (s : State) (t : Nat) (f : Team → Team) : (s.updTeam t f).nextId = s.nextId := rfl
@[simp] theorem State.updTeam_inputs (s : State) (t : Nat) (f : Team → Team) : (s.updTeam t f).inputs = s.inputs := rfl
@[simp] theorem State.updTeam_sched (s : State) (t : Nat) (f : Team → Team) : (s.updTeam t f).sched = s.sched := rfl
@[simp] theorem State.updTeam_cur (s : State) (t : Nat) (f : Team → Team) : (s.updTeam t f).cur = s.cur := rfl
@[simp] theorem State.updTeam_atBell (s : State) (t : Nat) (f : Team → Team) : (s.updTeam t f).atBell = s.atBell := rfl
@[simp] theorem State.updTeam_clock (s : State) (t : Nat) (f : Team → Team) : (s.updTeam t f).clock = s.clock := rfl
@[simp] theorem State.updTeam_free (s : State) (t : Nat) (f : Team → Team) : (s.updTeam t f).free = s.free := rfl
@[simp] theorem State.updTeam_ivgil (s : State) (t : Nat) (f : Team → Team) : (s.updTeam t f).ivgil = s.ivgil := rfl

/-! ### `State.updWave` -/

@[simp] theorem State.updWave_phase (s : State) (n : Nat) (f : Wave → Wave) : (s.updWave n f).phase = s.phase := rfl
@[simp] theorem State.updWave_flash (s : State) (n : Nat) (f : Wave → Wave) : (s.updWave n f).flash = s.flash := rfl
@[simp] theorem State.updWave_repair (s : State) (n : Nat) (f : Wave → Wave) : (s.updWave n f).repair = s.repair := rfl
@[simp] theorem State.updWave_serial (s : State) (n : Nat) (f : Wave → Wave) : (s.updWave n f).serial = s.serial := rfl
@[simp] theorem State.updWave_alarmHours (s : State) (n : Nat) (f : Wave → Wave) : (s.updWave n f).alarmHours = s.alarmHours := rfl
@[simp] theorem State.updWave_trim (s : State) (n : Nat) (f : Wave → Wave) : (s.updWave n f).trim = s.trim := rfl
@[simp] theorem State.updWave_identity (s : State) (n : Nat) (f : Wave → Wave) : (s.updWave n f).identity = s.identity := rfl
@[simp] theorem State.updWave_sidebandKey (s : State) (n : Nat) (f : Wave → Wave) : (s.updWave n f).sidebandKey = s.sidebandKey := rfl
@[simp] theorem State.updWave_measurements (s : State) (n : Nat) (f : Wave → Wave) : (s.updWave n f).measurements = s.measurements := rfl
@[simp] theorem State.updWave_spdm (s : State) (n : Nat) (f : Wave → Wave) : (s.updWave n f).spdm = s.spdm := rfl
@[simp] theorem State.updWave_boundaries (s : State) (n : Nat) (f : Wave → Wave) : (s.updWave n f).boundaries = s.boundaries := rfl
@[simp] theorem State.updWave_ecc (s : State) (n : Nat) (f : Wave → Wave) : (s.updWave n f).ecc = s.ecc := rfl
@[simp] theorem State.updWave_corrected (s : State) (n : Nat) (f : Wave → Wave) : (s.updWave n f).corrected = s.corrected := rfl
@[simp] theorem State.updWave_throttled (s : State) (n : Nat) (f : Wave → Wave) : (s.updWave n f).throttled = s.throttled := rfl
@[simp] theorem State.updWave_powerWithheld (s : State) (n : Nat) (f : Wave → Wave) : (s.updWave n f).powerWithheld = s.powerWithheld := rfl
@[simp] theorem State.updWave_life (s : State) (n : Nat) (f : Wave → Wave) : (s.updWave n f).life = s.life := rfl
@[simp] theorem State.updWave_errorLog (s : State) (n : Nat) (f : Wave → Wave) : (s.updWave n f).errorLog = s.errorLog := rfl
@[simp] theorem State.updWave_badParts (s : State) (n : Nat) (f : Wave → Wave) : (s.updWave n f).badParts = s.badParts := rfl
@[simp] theorem State.updWave_ports (s : State) (n : Nat) (f : Wave → Wave) : (s.updWave n f).ports = s.ports := rfl
@[simp] theorem State.updWave_connections (s : State) (n : Nat) (f : Wave → Wave) : (s.updWave n f).connections = s.connections := rfl
@[simp] theorem State.updWave_counters (s : State) (n : Nat) (f : Wave → Wave) : (s.updWave n f).counters = s.counters := rfl
@[simp] theorem State.updWave_bootNonces (s : State) (n : Nat) (f : Wave → Wave) : (s.updWave n f).bootNonces = s.bootNonces := rfl
@[simp] theorem State.updWave_rx (s : State) (n : Nat) (f : Wave → Wave) : (s.updWave n f).rx = s.rx := rfl
@[simp] theorem State.updWave_tx (s : State) (n : Nat) (f : Wave → Wave) : (s.updWave n f).tx = s.tx := rfl
@[simp] theorem State.updWave_remote (s : State) (n : Nat) (f : Wave → Wave) : (s.updWave n f).remote = s.remote := rfl
@[simp] theorem State.updWave_nextRequest (s : State) (n : Nat) (f : Wave → Wave) : (s.updWave n f).nextRequest = s.nextRequest := rfl
@[simp] theorem State.updWave_ringJobs (s : State) (n : Nat) (f : Wave → Wave) : (s.updWave n f).ringJobs = s.ringJobs := rfl
@[simp] theorem State.updWave_mem (s : State) (n : Nat) (f : Wave → Wave) : (s.updWave n f).mem = s.mem := rfl
@[simp] theorem State.updWave_hostMem (s : State) (n : Nat) (f : Wave → Wave) : (s.updWave n f).hostMem = s.hostMem := rfl
@[simp] theorem State.updWave_nextFrame (s : State) (n : Nat) (f : Wave → Wave) : (s.updWave n f).nextFrame = s.nextFrame := rfl
@[simp] theorem State.updWave_nextLocal (s : State) (n : Nat) (f : Wave → Wave) : (s.updWave n f).nextLocal = s.nextLocal := rfl
@[simp] theorem State.updWave_freeFrames (s : State) (n : Nat) (f : Wave → Wave) : (s.updWave n f).freeFrames = s.freeFrames := rfl
@[simp] theorem State.updWave_epoch (s : State) (n : Nat) (f : Wave → Wave) : (s.updWave n f).epoch = s.epoch := rfl
@[simp] theorem State.updWave_savedStacks (s : State) (n : Nat) (f : Wave → Wave) : (s.updWave n f).savedStacks = s.savedStacks := rfl
@[simp] theorem State.updWave_owners (s : State) (n : Nat) (f : Wave → Wave) : (s.updWave n f).owners = s.owners := rfl
@[simp] theorem State.updWave_launches (s : State) (n : Nat) (f : Wave → Wave) : (s.updWave n f).launches = s.launches := rfl
@[simp] theorem State.updWave_teams (s : State) (n : Nat) (f : Wave → Wave) : (s.updWave n f).teams = s.teams := rfl
@[simp] theorem State.updWave_engines (s : State) (n : Nat) (f : Wave → Wave) : (s.updWave n f).engines = s.engines := rfl
@[simp] theorem State.updWave_saved (s : State) (n : Nat) (f : Wave → Wave) : (s.updWave n f).saved = s.saved := rfl
@[simp] theorem State.updWave_cores (s : State) (n : Nat) (f : Wave → Wave) : (s.updWave n f).cores = s.cores := rfl
@[simp] theorem State.updWave_nextId (s : State) (n : Nat) (f : Wave → Wave) : (s.updWave n f).nextId = s.nextId := rfl
@[simp] theorem State.updWave_inputs (s : State) (n : Nat) (f : Wave → Wave) : (s.updWave n f).inputs = s.inputs := rfl
@[simp] theorem State.updWave_sched (s : State) (n : Nat) (f : Wave → Wave) : (s.updWave n f).sched = s.sched := rfl
@[simp] theorem State.updWave_cur (s : State) (n : Nat) (f : Wave → Wave) : (s.updWave n f).cur = s.cur := rfl
@[simp] theorem State.updWave_atBell (s : State) (n : Nat) (f : Wave → Wave) : (s.updWave n f).atBell = s.atBell := rfl
@[simp] theorem State.updWave_clock (s : State) (n : Nat) (f : Wave → Wave) : (s.updWave n f).clock = s.clock := rfl
@[simp] theorem State.updWave_free (s : State) (n : Nat) (f : Wave → Wave) : (s.updWave n f).free = s.free := rfl
@[simp] theorem State.updWave_ivgil (s : State) (n : Nat) (f : Wave → Wave) : (s.updWave n f).ivgil = s.ivgil := rfl

/-! ### `State.setWave` -/

@[simp] theorem State.setWave_phase (s : State) (n : Nat) (w : Wave) : (s.setWave n w).phase = s.phase := rfl
@[simp] theorem State.setWave_flash (s : State) (n : Nat) (w : Wave) : (s.setWave n w).flash = s.flash := rfl
@[simp] theorem State.setWave_repair (s : State) (n : Nat) (w : Wave) : (s.setWave n w).repair = s.repair := rfl
@[simp] theorem State.setWave_serial (s : State) (n : Nat) (w : Wave) : (s.setWave n w).serial = s.serial := rfl
@[simp] theorem State.setWave_alarmHours (s : State) (n : Nat) (w : Wave) : (s.setWave n w).alarmHours = s.alarmHours := rfl
@[simp] theorem State.setWave_trim (s : State) (n : Nat) (w : Wave) : (s.setWave n w).trim = s.trim := rfl
@[simp] theorem State.setWave_identity (s : State) (n : Nat) (w : Wave) : (s.setWave n w).identity = s.identity := rfl
@[simp] theorem State.setWave_sidebandKey (s : State) (n : Nat) (w : Wave) : (s.setWave n w).sidebandKey = s.sidebandKey := rfl
@[simp] theorem State.setWave_measurements (s : State) (n : Nat) (w : Wave) : (s.setWave n w).measurements = s.measurements := rfl
@[simp] theorem State.setWave_spdm (s : State) (n : Nat) (w : Wave) : (s.setWave n w).spdm = s.spdm := rfl
@[simp] theorem State.setWave_boundaries (s : State) (n : Nat) (w : Wave) : (s.setWave n w).boundaries = s.boundaries := rfl
@[simp] theorem State.setWave_ecc (s : State) (n : Nat) (w : Wave) : (s.setWave n w).ecc = s.ecc := rfl
@[simp] theorem State.setWave_corrected (s : State) (n : Nat) (w : Wave) : (s.setWave n w).corrected = s.corrected := rfl
@[simp] theorem State.setWave_throttled (s : State) (n : Nat) (w : Wave) : (s.setWave n w).throttled = s.throttled := rfl
@[simp] theorem State.setWave_powerWithheld (s : State) (n : Nat) (w : Wave) : (s.setWave n w).powerWithheld = s.powerWithheld := rfl
@[simp] theorem State.setWave_life (s : State) (n : Nat) (w : Wave) : (s.setWave n w).life = s.life := rfl
@[simp] theorem State.setWave_errorLog (s : State) (n : Nat) (w : Wave) : (s.setWave n w).errorLog = s.errorLog := rfl
@[simp] theorem State.setWave_badParts (s : State) (n : Nat) (w : Wave) : (s.setWave n w).badParts = s.badParts := rfl
@[simp] theorem State.setWave_ports (s : State) (n : Nat) (w : Wave) : (s.setWave n w).ports = s.ports := rfl
@[simp] theorem State.setWave_connections (s : State) (n : Nat) (w : Wave) : (s.setWave n w).connections = s.connections := rfl
@[simp] theorem State.setWave_counters (s : State) (n : Nat) (w : Wave) : (s.setWave n w).counters = s.counters := rfl
@[simp] theorem State.setWave_bootNonces (s : State) (n : Nat) (w : Wave) : (s.setWave n w).bootNonces = s.bootNonces := rfl
@[simp] theorem State.setWave_rx (s : State) (n : Nat) (w : Wave) : (s.setWave n w).rx = s.rx := rfl
@[simp] theorem State.setWave_tx (s : State) (n : Nat) (w : Wave) : (s.setWave n w).tx = s.tx := rfl
@[simp] theorem State.setWave_remote (s : State) (n : Nat) (w : Wave) : (s.setWave n w).remote = s.remote := rfl
@[simp] theorem State.setWave_nextRequest (s : State) (n : Nat) (w : Wave) : (s.setWave n w).nextRequest = s.nextRequest := rfl
@[simp] theorem State.setWave_ringJobs (s : State) (n : Nat) (w : Wave) : (s.setWave n w).ringJobs = s.ringJobs := rfl
@[simp] theorem State.setWave_mem (s : State) (n : Nat) (w : Wave) : (s.setWave n w).mem = s.mem := rfl
@[simp] theorem State.setWave_hostMem (s : State) (n : Nat) (w : Wave) : (s.setWave n w).hostMem = s.hostMem := rfl
@[simp] theorem State.setWave_nextFrame (s : State) (n : Nat) (w : Wave) : (s.setWave n w).nextFrame = s.nextFrame := rfl
@[simp] theorem State.setWave_nextLocal (s : State) (n : Nat) (w : Wave) : (s.setWave n w).nextLocal = s.nextLocal := rfl
@[simp] theorem State.setWave_freeFrames (s : State) (n : Nat) (w : Wave) : (s.setWave n w).freeFrames = s.freeFrames := rfl
@[simp] theorem State.setWave_epoch (s : State) (n : Nat) (w : Wave) : (s.setWave n w).epoch = s.epoch := rfl
@[simp] theorem State.setWave_savedStacks (s : State) (n : Nat) (w : Wave) : (s.setWave n w).savedStacks = s.savedStacks := rfl
@[simp] theorem State.setWave_owners (s : State) (n : Nat) (w : Wave) : (s.setWave n w).owners = s.owners := rfl
@[simp] theorem State.setWave_launches (s : State) (n : Nat) (w : Wave) : (s.setWave n w).launches = s.launches := rfl
@[simp] theorem State.setWave_teams (s : State) (n : Nat) (w : Wave) : (s.setWave n w).teams = s.teams := rfl
@[simp] theorem State.setWave_engines (s : State) (n : Nat) (w : Wave) : (s.setWave n w).engines = s.engines := rfl
@[simp] theorem State.setWave_saved (s : State) (n : Nat) (w : Wave) : (s.setWave n w).saved = s.saved := rfl
@[simp] theorem State.setWave_cores (s : State) (n : Nat) (w : Wave) : (s.setWave n w).cores = s.cores := rfl
@[simp] theorem State.setWave_nextId (s : State) (n : Nat) (w : Wave) : (s.setWave n w).nextId = s.nextId := rfl
@[simp] theorem State.setWave_inputs (s : State) (n : Nat) (w : Wave) : (s.setWave n w).inputs = s.inputs := rfl
@[simp] theorem State.setWave_sched (s : State) (n : Nat) (w : Wave) : (s.setWave n w).sched = s.sched := rfl
@[simp] theorem State.setWave_cur (s : State) (n : Nat) (w : Wave) : (s.setWave n w).cur = s.cur := rfl
@[simp] theorem State.setWave_atBell (s : State) (n : Nat) (w : Wave) : (s.setWave n w).atBell = s.atBell := rfl
@[simp] theorem State.setWave_clock (s : State) (n : Nat) (w : Wave) : (s.setWave n w).clock = s.clock := rfl
@[simp] theorem State.setWave_free (s : State) (n : Nat) (w : Wave) : (s.setWave n w).free = s.free := rfl
@[simp] theorem State.setWave_ivgil (s : State) (n : Nat) (w : Wave) : (s.setWave n w).ivgil = s.ivgil := rfl

/-! ### `State.updSplit` -/

@[simp] theorem State.updSplit_phase (s : State) (n k : Nat) (f : Split → Split) : (s.updSplit n k f).phase = s.phase := rfl
@[simp] theorem State.updSplit_flash (s : State) (n k : Nat) (f : Split → Split) : (s.updSplit n k f).flash = s.flash := rfl
@[simp] theorem State.updSplit_repair (s : State) (n k : Nat) (f : Split → Split) : (s.updSplit n k f).repair = s.repair := rfl
@[simp] theorem State.updSplit_serial (s : State) (n k : Nat) (f : Split → Split) : (s.updSplit n k f).serial = s.serial := rfl
@[simp] theorem State.updSplit_alarmHours (s : State) (n k : Nat) (f : Split → Split) : (s.updSplit n k f).alarmHours = s.alarmHours := rfl
@[simp] theorem State.updSplit_trim (s : State) (n k : Nat) (f : Split → Split) : (s.updSplit n k f).trim = s.trim := rfl
@[simp] theorem State.updSplit_identity (s : State) (n k : Nat) (f : Split → Split) : (s.updSplit n k f).identity = s.identity := rfl
@[simp] theorem State.updSplit_sidebandKey (s : State) (n k : Nat) (f : Split → Split) : (s.updSplit n k f).sidebandKey = s.sidebandKey := rfl
@[simp] theorem State.updSplit_measurements (s : State) (n k : Nat) (f : Split → Split) : (s.updSplit n k f).measurements = s.measurements := rfl
@[simp] theorem State.updSplit_spdm (s : State) (n k : Nat) (f : Split → Split) : (s.updSplit n k f).spdm = s.spdm := rfl
@[simp] theorem State.updSplit_boundaries (s : State) (n k : Nat) (f : Split → Split) : (s.updSplit n k f).boundaries = s.boundaries := rfl
@[simp] theorem State.updSplit_ecc (s : State) (n k : Nat) (f : Split → Split) : (s.updSplit n k f).ecc = s.ecc := rfl
@[simp] theorem State.updSplit_corrected (s : State) (n k : Nat) (f : Split → Split) : (s.updSplit n k f).corrected = s.corrected := rfl
@[simp] theorem State.updSplit_throttled (s : State) (n k : Nat) (f : Split → Split) : (s.updSplit n k f).throttled = s.throttled := rfl
@[simp] theorem State.updSplit_powerWithheld (s : State) (n k : Nat) (f : Split → Split) : (s.updSplit n k f).powerWithheld = s.powerWithheld := rfl
@[simp] theorem State.updSplit_life (s : State) (n k : Nat) (f : Split → Split) : (s.updSplit n k f).life = s.life := rfl
@[simp] theorem State.updSplit_errorLog (s : State) (n k : Nat) (f : Split → Split) : (s.updSplit n k f).errorLog = s.errorLog := rfl
@[simp] theorem State.updSplit_badParts (s : State) (n k : Nat) (f : Split → Split) : (s.updSplit n k f).badParts = s.badParts := rfl
@[simp] theorem State.updSplit_ports (s : State) (n k : Nat) (f : Split → Split) : (s.updSplit n k f).ports = s.ports := rfl
@[simp] theorem State.updSplit_connections (s : State) (n k : Nat) (f : Split → Split) : (s.updSplit n k f).connections = s.connections := rfl
@[simp] theorem State.updSplit_counters (s : State) (n k : Nat) (f : Split → Split) : (s.updSplit n k f).counters = s.counters := rfl
@[simp] theorem State.updSplit_bootNonces (s : State) (n k : Nat) (f : Split → Split) : (s.updSplit n k f).bootNonces = s.bootNonces := rfl
@[simp] theorem State.updSplit_rx (s : State) (n k : Nat) (f : Split → Split) : (s.updSplit n k f).rx = s.rx := rfl
@[simp] theorem State.updSplit_tx (s : State) (n k : Nat) (f : Split → Split) : (s.updSplit n k f).tx = s.tx := rfl
@[simp] theorem State.updSplit_remote (s : State) (n k : Nat) (f : Split → Split) : (s.updSplit n k f).remote = s.remote := rfl
@[simp] theorem State.updSplit_nextRequest (s : State) (n k : Nat) (f : Split → Split) : (s.updSplit n k f).nextRequest = s.nextRequest := rfl
@[simp] theorem State.updSplit_ringJobs (s : State) (n k : Nat) (f : Split → Split) : (s.updSplit n k f).ringJobs = s.ringJobs := rfl
@[simp] theorem State.updSplit_mem (s : State) (n k : Nat) (f : Split → Split) : (s.updSplit n k f).mem = s.mem := rfl
@[simp] theorem State.updSplit_hostMem (s : State) (n k : Nat) (f : Split → Split) : (s.updSplit n k f).hostMem = s.hostMem := rfl
@[simp] theorem State.updSplit_nextFrame (s : State) (n k : Nat) (f : Split → Split) : (s.updSplit n k f).nextFrame = s.nextFrame := rfl
@[simp] theorem State.updSplit_nextLocal (s : State) (n k : Nat) (f : Split → Split) : (s.updSplit n k f).nextLocal = s.nextLocal := rfl
@[simp] theorem State.updSplit_freeFrames (s : State) (n k : Nat) (f : Split → Split) : (s.updSplit n k f).freeFrames = s.freeFrames := rfl
@[simp] theorem State.updSplit_epoch (s : State) (n k : Nat) (f : Split → Split) : (s.updSplit n k f).epoch = s.epoch := rfl
@[simp] theorem State.updSplit_savedStacks (s : State) (n k : Nat) (f : Split → Split) : (s.updSplit n k f).savedStacks = s.savedStacks := rfl
@[simp] theorem State.updSplit_owners (s : State) (n k : Nat) (f : Split → Split) : (s.updSplit n k f).owners = s.owners := rfl
@[simp] theorem State.updSplit_launches (s : State) (n k : Nat) (f : Split → Split) : (s.updSplit n k f).launches = s.launches := rfl
@[simp] theorem State.updSplit_teams (s : State) (n k : Nat) (f : Split → Split) : (s.updSplit n k f).teams = s.teams := rfl
@[simp] theorem State.updSplit_engines (s : State) (n k : Nat) (f : Split → Split) : (s.updSplit n k f).engines = s.engines := rfl
@[simp] theorem State.updSplit_saved (s : State) (n k : Nat) (f : Split → Split) : (s.updSplit n k f).saved = s.saved := rfl
@[simp] theorem State.updSplit_cores (s : State) (n k : Nat) (f : Split → Split) : (s.updSplit n k f).cores = s.cores := rfl
@[simp] theorem State.updSplit_nextId (s : State) (n k : Nat) (f : Split → Split) : (s.updSplit n k f).nextId = s.nextId := rfl
@[simp] theorem State.updSplit_inputs (s : State) (n k : Nat) (f : Split → Split) : (s.updSplit n k f).inputs = s.inputs := rfl
@[simp] theorem State.updSplit_sched (s : State) (n k : Nat) (f : Split → Split) : (s.updSplit n k f).sched = s.sched := rfl
@[simp] theorem State.updSplit_cur (s : State) (n k : Nat) (f : Split → Split) : (s.updSplit n k f).cur = s.cur := rfl
@[simp] theorem State.updSplit_atBell (s : State) (n k : Nat) (f : Split → Split) : (s.updSplit n k f).atBell = s.atBell := rfl
@[simp] theorem State.updSplit_clock (s : State) (n k : Nat) (f : Split → Split) : (s.updSplit n k f).clock = s.clock := rfl
@[simp] theorem State.updSplit_free (s : State) (n k : Nat) (f : Split → Split) : (s.updSplit n k f).free = s.free := rfl
@[simp] theorem State.updSplit_ivgil (s : State) (n k : Nat) (f : Split → Split) : (s.updSplit n k f).ivgil = s.ivgil := rfl

/-! ### `State.updEngine` -/

@[simp] theorem State.updEngine_phase (s : State) (e : Nat) (f : Engine → Engine) : (s.updEngine e f).phase = s.phase := rfl
@[simp] theorem State.updEngine_flash (s : State) (e : Nat) (f : Engine → Engine) : (s.updEngine e f).flash = s.flash := rfl
@[simp] theorem State.updEngine_repair (s : State) (e : Nat) (f : Engine → Engine) : (s.updEngine e f).repair = s.repair := rfl
@[simp] theorem State.updEngine_serial (s : State) (e : Nat) (f : Engine → Engine) : (s.updEngine e f).serial = s.serial := rfl
@[simp] theorem State.updEngine_alarmHours (s : State) (e : Nat) (f : Engine → Engine) : (s.updEngine e f).alarmHours = s.alarmHours := rfl
@[simp] theorem State.updEngine_trim (s : State) (e : Nat) (f : Engine → Engine) : (s.updEngine e f).trim = s.trim := rfl
@[simp] theorem State.updEngine_identity (s : State) (e : Nat) (f : Engine → Engine) : (s.updEngine e f).identity = s.identity := rfl
@[simp] theorem State.updEngine_sidebandKey (s : State) (e : Nat) (f : Engine → Engine) : (s.updEngine e f).sidebandKey = s.sidebandKey := rfl
@[simp] theorem State.updEngine_measurements (s : State) (e : Nat) (f : Engine → Engine) : (s.updEngine e f).measurements = s.measurements := rfl
@[simp] theorem State.updEngine_spdm (s : State) (e : Nat) (f : Engine → Engine) : (s.updEngine e f).spdm = s.spdm := rfl
@[simp] theorem State.updEngine_boundaries (s : State) (e : Nat) (f : Engine → Engine) : (s.updEngine e f).boundaries = s.boundaries := rfl
@[simp] theorem State.updEngine_ecc (s : State) (e : Nat) (f : Engine → Engine) : (s.updEngine e f).ecc = s.ecc := rfl
@[simp] theorem State.updEngine_corrected (s : State) (e : Nat) (f : Engine → Engine) : (s.updEngine e f).corrected = s.corrected := rfl
@[simp] theorem State.updEngine_throttled (s : State) (e : Nat) (f : Engine → Engine) : (s.updEngine e f).throttled = s.throttled := rfl
@[simp] theorem State.updEngine_powerWithheld (s : State) (e : Nat) (f : Engine → Engine) : (s.updEngine e f).powerWithheld = s.powerWithheld := rfl
@[simp] theorem State.updEngine_life (s : State) (e : Nat) (f : Engine → Engine) : (s.updEngine e f).life = s.life := rfl
@[simp] theorem State.updEngine_errorLog (s : State) (e : Nat) (f : Engine → Engine) : (s.updEngine e f).errorLog = s.errorLog := rfl
@[simp] theorem State.updEngine_badParts (s : State) (e : Nat) (f : Engine → Engine) : (s.updEngine e f).badParts = s.badParts := rfl
@[simp] theorem State.updEngine_ports (s : State) (e : Nat) (f : Engine → Engine) : (s.updEngine e f).ports = s.ports := rfl
@[simp] theorem State.updEngine_connections (s : State) (e : Nat) (f : Engine → Engine) : (s.updEngine e f).connections = s.connections := rfl
@[simp] theorem State.updEngine_counters (s : State) (e : Nat) (f : Engine → Engine) : (s.updEngine e f).counters = s.counters := rfl
@[simp] theorem State.updEngine_bootNonces (s : State) (e : Nat) (f : Engine → Engine) : (s.updEngine e f).bootNonces = s.bootNonces := rfl
@[simp] theorem State.updEngine_rx (s : State) (e : Nat) (f : Engine → Engine) : (s.updEngine e f).rx = s.rx := rfl
@[simp] theorem State.updEngine_tx (s : State) (e : Nat) (f : Engine → Engine) : (s.updEngine e f).tx = s.tx := rfl
@[simp] theorem State.updEngine_remote (s : State) (e : Nat) (f : Engine → Engine) : (s.updEngine e f).remote = s.remote := rfl
@[simp] theorem State.updEngine_nextRequest (s : State) (e : Nat) (f : Engine → Engine) : (s.updEngine e f).nextRequest = s.nextRequest := rfl
@[simp] theorem State.updEngine_ringJobs (s : State) (e : Nat) (f : Engine → Engine) : (s.updEngine e f).ringJobs = s.ringJobs := rfl
@[simp] theorem State.updEngine_mem (s : State) (e : Nat) (f : Engine → Engine) : (s.updEngine e f).mem = s.mem := rfl
@[simp] theorem State.updEngine_hostMem (s : State) (e : Nat) (f : Engine → Engine) : (s.updEngine e f).hostMem = s.hostMem := rfl
@[simp] theorem State.updEngine_nextFrame (s : State) (e : Nat) (f : Engine → Engine) : (s.updEngine e f).nextFrame = s.nextFrame := rfl
@[simp] theorem State.updEngine_nextLocal (s : State) (e : Nat) (f : Engine → Engine) : (s.updEngine e f).nextLocal = s.nextLocal := rfl
@[simp] theorem State.updEngine_freeFrames (s : State) (e : Nat) (f : Engine → Engine) : (s.updEngine e f).freeFrames = s.freeFrames := rfl
@[simp] theorem State.updEngine_epoch (s : State) (e : Nat) (f : Engine → Engine) : (s.updEngine e f).epoch = s.epoch := rfl
@[simp] theorem State.updEngine_savedStacks (s : State) (e : Nat) (f : Engine → Engine) : (s.updEngine e f).savedStacks = s.savedStacks := rfl
@[simp] theorem State.updEngine_owners (s : State) (e : Nat) (f : Engine → Engine) : (s.updEngine e f).owners = s.owners := rfl
@[simp] theorem State.updEngine_launches (s : State) (e : Nat) (f : Engine → Engine) : (s.updEngine e f).launches = s.launches := rfl
@[simp] theorem State.updEngine_teams (s : State) (e : Nat) (f : Engine → Engine) : (s.updEngine e f).teams = s.teams := rfl
@[simp] theorem State.updEngine_waves (s : State) (e : Nat) (f : Engine → Engine) : (s.updEngine e f).waves = s.waves := rfl
@[simp] theorem State.updEngine_saved (s : State) (e : Nat) (f : Engine → Engine) : (s.updEngine e f).saved = s.saved := rfl
@[simp] theorem State.updEngine_cores (s : State) (e : Nat) (f : Engine → Engine) : (s.updEngine e f).cores = s.cores := rfl
@[simp] theorem State.updEngine_nextId (s : State) (e : Nat) (f : Engine → Engine) : (s.updEngine e f).nextId = s.nextId := rfl
@[simp] theorem State.updEngine_inputs (s : State) (e : Nat) (f : Engine → Engine) : (s.updEngine e f).inputs = s.inputs := rfl
@[simp] theorem State.updEngine_sched (s : State) (e : Nat) (f : Engine → Engine) : (s.updEngine e f).sched = s.sched := rfl
@[simp] theorem State.updEngine_cur (s : State) (e : Nat) (f : Engine → Engine) : (s.updEngine e f).cur = s.cur := rfl
@[simp] theorem State.updEngine_atBell (s : State) (e : Nat) (f : Engine → Engine) : (s.updEngine e f).atBell = s.atBell := rfl
@[simp] theorem State.updEngine_clock (s : State) (e : Nat) (f : Engine → Engine) : (s.updEngine e f).clock = s.clock := rfl
@[simp] theorem State.updEngine_free (s : State) (e : Nat) (f : Engine → Engine) : (s.updEngine e f).free = s.free := rfl
@[simp] theorem State.updEngine_ivgil (s : State) (e : Nat) (f : Engine → Engine) : (s.updEngine e f).ivgil = s.ivgil := rfl

/-! ### `State.updCore` -/

@[simp] theorem State.updCore_phase (s : State) (c : Nat) (f : Core → Core) : (s.updCore c f).phase = s.phase := rfl
@[simp] theorem State.updCore_flash (s : State) (c : Nat) (f : Core → Core) : (s.updCore c f).flash = s.flash := rfl
@[simp] theorem State.updCore_repair (s : State) (c : Nat) (f : Core → Core) : (s.updCore c f).repair = s.repair := rfl
@[simp] theorem State.updCore_serial (s : State) (c : Nat) (f : Core → Core) : (s.updCore c f).serial = s.serial := rfl
@[simp] theorem State.updCore_alarmHours (s : State) (c : Nat) (f : Core → Core) : (s.updCore c f).alarmHours = s.alarmHours := rfl
@[simp] theorem State.updCore_trim (s : State) (c : Nat) (f : Core → Core) : (s.updCore c f).trim = s.trim := rfl
@[simp] theorem State.updCore_identity (s : State) (c : Nat) (f : Core → Core) : (s.updCore c f).identity = s.identity := rfl
@[simp] theorem State.updCore_sidebandKey (s : State) (c : Nat) (f : Core → Core) : (s.updCore c f).sidebandKey = s.sidebandKey := rfl
@[simp] theorem State.updCore_measurements (s : State) (c : Nat) (f : Core → Core) : (s.updCore c f).measurements = s.measurements := rfl
@[simp] theorem State.updCore_spdm (s : State) (c : Nat) (f : Core → Core) : (s.updCore c f).spdm = s.spdm := rfl
@[simp] theorem State.updCore_boundaries (s : State) (c : Nat) (f : Core → Core) : (s.updCore c f).boundaries = s.boundaries := rfl
@[simp] theorem State.updCore_ecc (s : State) (c : Nat) (f : Core → Core) : (s.updCore c f).ecc = s.ecc := rfl
@[simp] theorem State.updCore_corrected (s : State) (c : Nat) (f : Core → Core) : (s.updCore c f).corrected = s.corrected := rfl
@[simp] theorem State.updCore_throttled (s : State) (c : Nat) (f : Core → Core) : (s.updCore c f).throttled = s.throttled := rfl
@[simp] theorem State.updCore_powerWithheld (s : State) (c : Nat) (f : Core → Core) : (s.updCore c f).powerWithheld = s.powerWithheld := rfl
@[simp] theorem State.updCore_life (s : State) (c : Nat) (f : Core → Core) : (s.updCore c f).life = s.life := rfl
@[simp] theorem State.updCore_errorLog (s : State) (c : Nat) (f : Core → Core) : (s.updCore c f).errorLog = s.errorLog := rfl
@[simp] theorem State.updCore_badParts (s : State) (c : Nat) (f : Core → Core) : (s.updCore c f).badParts = s.badParts := rfl
@[simp] theorem State.updCore_ports (s : State) (c : Nat) (f : Core → Core) : (s.updCore c f).ports = s.ports := rfl
@[simp] theorem State.updCore_connections (s : State) (c : Nat) (f : Core → Core) : (s.updCore c f).connections = s.connections := rfl
@[simp] theorem State.updCore_counters (s : State) (c : Nat) (f : Core → Core) : (s.updCore c f).counters = s.counters := rfl
@[simp] theorem State.updCore_bootNonces (s : State) (c : Nat) (f : Core → Core) : (s.updCore c f).bootNonces = s.bootNonces := rfl
@[simp] theorem State.updCore_rx (s : State) (c : Nat) (f : Core → Core) : (s.updCore c f).rx = s.rx := rfl
@[simp] theorem State.updCore_tx (s : State) (c : Nat) (f : Core → Core) : (s.updCore c f).tx = s.tx := rfl
@[simp] theorem State.updCore_remote (s : State) (c : Nat) (f : Core → Core) : (s.updCore c f).remote = s.remote := rfl
@[simp] theorem State.updCore_nextRequest (s : State) (c : Nat) (f : Core → Core) : (s.updCore c f).nextRequest = s.nextRequest := rfl
@[simp] theorem State.updCore_ringJobs (s : State) (c : Nat) (f : Core → Core) : (s.updCore c f).ringJobs = s.ringJobs := rfl
@[simp] theorem State.updCore_mem (s : State) (c : Nat) (f : Core → Core) : (s.updCore c f).mem = s.mem := rfl
@[simp] theorem State.updCore_hostMem (s : State) (c : Nat) (f : Core → Core) : (s.updCore c f).hostMem = s.hostMem := rfl
@[simp] theorem State.updCore_nextFrame (s : State) (c : Nat) (f : Core → Core) : (s.updCore c f).nextFrame = s.nextFrame := rfl
@[simp] theorem State.updCore_nextLocal (s : State) (c : Nat) (f : Core → Core) : (s.updCore c f).nextLocal = s.nextLocal := rfl
@[simp] theorem State.updCore_freeFrames (s : State) (c : Nat) (f : Core → Core) : (s.updCore c f).freeFrames = s.freeFrames := rfl
@[simp] theorem State.updCore_epoch (s : State) (c : Nat) (f : Core → Core) : (s.updCore c f).epoch = s.epoch := rfl
@[simp] theorem State.updCore_savedStacks (s : State) (c : Nat) (f : Core → Core) : (s.updCore c f).savedStacks = s.savedStacks := rfl
@[simp] theorem State.updCore_owners (s : State) (c : Nat) (f : Core → Core) : (s.updCore c f).owners = s.owners := rfl
@[simp] theorem State.updCore_launches (s : State) (c : Nat) (f : Core → Core) : (s.updCore c f).launches = s.launches := rfl
@[simp] theorem State.updCore_teams (s : State) (c : Nat) (f : Core → Core) : (s.updCore c f).teams = s.teams := rfl
@[simp] theorem State.updCore_waves (s : State) (c : Nat) (f : Core → Core) : (s.updCore c f).waves = s.waves := rfl
@[simp] theorem State.updCore_engines (s : State) (c : Nat) (f : Core → Core) : (s.updCore c f).engines = s.engines := rfl
@[simp] theorem State.updCore_saved (s : State) (c : Nat) (f : Core → Core) : (s.updCore c f).saved = s.saved := rfl
@[simp] theorem State.updCore_nextId (s : State) (c : Nat) (f : Core → Core) : (s.updCore c f).nextId = s.nextId := rfl
@[simp] theorem State.updCore_inputs (s : State) (c : Nat) (f : Core → Core) : (s.updCore c f).inputs = s.inputs := rfl
@[simp] theorem State.updCore_sched (s : State) (c : Nat) (f : Core → Core) : (s.updCore c f).sched = s.sched := rfl
@[simp] theorem State.updCore_cur (s : State) (c : Nat) (f : Core → Core) : (s.updCore c f).cur = s.cur := rfl
@[simp] theorem State.updCore_atBell (s : State) (c : Nat) (f : Core → Core) : (s.updCore c f).atBell = s.atBell := rfl
@[simp] theorem State.updCore_clock (s : State) (c : Nat) (f : Core → Core) : (s.updCore c f).clock = s.clock := rfl
@[simp] theorem State.updCore_free (s : State) (c : Nat) (f : Core → Core) : (s.updCore c f).free = s.free := rfl
@[simp] theorem State.updCore_ivgil (s : State) (c : Nat) (f : Core → Core) : (s.updCore c f).ivgil = s.ivgil := rfl

/-! ### `State.clearCur` -/

@[simp] theorem State.clearCur_phase (s : State) : (s.clearCur).phase = s.phase := rfl
@[simp] theorem State.clearCur_flash (s : State) : (s.clearCur).flash = s.flash := rfl
@[simp] theorem State.clearCur_repair (s : State) : (s.clearCur).repair = s.repair := rfl
@[simp] theorem State.clearCur_serial (s : State) : (s.clearCur).serial = s.serial := rfl
@[simp] theorem State.clearCur_alarmHours (s : State) : (s.clearCur).alarmHours = s.alarmHours := rfl
@[simp] theorem State.clearCur_trim (s : State) : (s.clearCur).trim = s.trim := rfl
@[simp] theorem State.clearCur_identity (s : State) : (s.clearCur).identity = s.identity := rfl
@[simp] theorem State.clearCur_sidebandKey (s : State) : (s.clearCur).sidebandKey = s.sidebandKey := rfl
@[simp] theorem State.clearCur_measurements (s : State) : (s.clearCur).measurements = s.measurements := rfl
@[simp] theorem State.clearCur_spdm (s : State) : (s.clearCur).spdm = s.spdm := rfl
@[simp] theorem State.clearCur_boundaries (s : State) : (s.clearCur).boundaries = s.boundaries := rfl
@[simp] theorem State.clearCur_ecc (s : State) : (s.clearCur).ecc = s.ecc := rfl
@[simp] theorem State.clearCur_corrected (s : State) : (s.clearCur).corrected = s.corrected := rfl
@[simp] theorem State.clearCur_throttled (s : State) : (s.clearCur).throttled = s.throttled := rfl
@[simp] theorem State.clearCur_powerWithheld (s : State) : (s.clearCur).powerWithheld = s.powerWithheld := rfl
@[simp] theorem State.clearCur_life (s : State) : (s.clearCur).life = s.life := rfl
@[simp] theorem State.clearCur_errorLog (s : State) : (s.clearCur).errorLog = s.errorLog := rfl
@[simp] theorem State.clearCur_badParts (s : State) : (s.clearCur).badParts = s.badParts := rfl
@[simp] theorem State.clearCur_ports (s : State) : (s.clearCur).ports = s.ports := rfl
@[simp] theorem State.clearCur_connections (s : State) : (s.clearCur).connections = s.connections := rfl
@[simp] theorem State.clearCur_counters (s : State) : (s.clearCur).counters = s.counters := rfl
@[simp] theorem State.clearCur_bootNonces (s : State) : (s.clearCur).bootNonces = s.bootNonces := rfl
@[simp] theorem State.clearCur_rx (s : State) : (s.clearCur).rx = s.rx := rfl
@[simp] theorem State.clearCur_tx (s : State) : (s.clearCur).tx = s.tx := rfl
@[simp] theorem State.clearCur_remote (s : State) : (s.clearCur).remote = s.remote := rfl
@[simp] theorem State.clearCur_nextRequest (s : State) : (s.clearCur).nextRequest = s.nextRequest := rfl
@[simp] theorem State.clearCur_ringJobs (s : State) : (s.clearCur).ringJobs = s.ringJobs := rfl
@[simp] theorem State.clearCur_mem (s : State) : (s.clearCur).mem = s.mem := rfl
@[simp] theorem State.clearCur_hostMem (s : State) : (s.clearCur).hostMem = s.hostMem := rfl
@[simp] theorem State.clearCur_nextFrame (s : State) : (s.clearCur).nextFrame = s.nextFrame := rfl
@[simp] theorem State.clearCur_nextLocal (s : State) : (s.clearCur).nextLocal = s.nextLocal := rfl
@[simp] theorem State.clearCur_freeFrames (s : State) : (s.clearCur).freeFrames = s.freeFrames := rfl
@[simp] theorem State.clearCur_epoch (s : State) : (s.clearCur).epoch = s.epoch := rfl
@[simp] theorem State.clearCur_savedStacks (s : State) : (s.clearCur).savedStacks = s.savedStacks := rfl
@[simp] theorem State.clearCur_owners (s : State) : (s.clearCur).owners = s.owners := rfl
@[simp] theorem State.clearCur_launches (s : State) : (s.clearCur).launches = s.launches := rfl
@[simp] theorem State.clearCur_teams (s : State) : (s.clearCur).teams = s.teams := rfl
@[simp] theorem State.clearCur_waves (s : State) : (s.clearCur).waves = s.waves := rfl
@[simp] theorem State.clearCur_engines (s : State) : (s.clearCur).engines = s.engines := rfl
@[simp] theorem State.clearCur_saved (s : State) : (s.clearCur).saved = s.saved := rfl
@[simp] theorem State.clearCur_cores (s : State) : (s.clearCur).cores = s.cores := rfl
@[simp] theorem State.clearCur_nextId (s : State) : (s.clearCur).nextId = s.nextId := rfl
@[simp] theorem State.clearCur_inputs (s : State) : (s.clearCur).inputs = s.inputs := rfl
@[simp] theorem State.clearCur_sched (s : State) : (s.clearCur).sched = s.sched := rfl
@[simp] theorem State.clearCur_atBell (s : State) : (s.clearCur).atBell = s.atBell := rfl
@[simp] theorem State.clearCur_clock (s : State) : (s.clearCur).clock = s.clock := rfl
@[simp] theorem State.clearCur_free (s : State) : (s.clearCur).free = s.free := rfl
@[simp] theorem State.clearCur_ivgil (s : State) : (s.clearCur).ivgil = s.ivgil := rfl

/-! ### `State.countIllegal` -/

@[simp] theorem State.countIllegal_phase (s : State) (o : Nat) : (s.countIllegal o).phase = s.phase := rfl
@[simp] theorem State.countIllegal_flash (s : State) (o : Nat) : (s.countIllegal o).flash = s.flash := rfl
@[simp] theorem State.countIllegal_repair (s : State) (o : Nat) : (s.countIllegal o).repair = s.repair := rfl
@[simp] theorem State.countIllegal_serial (s : State) (o : Nat) : (s.countIllegal o).serial = s.serial := rfl
@[simp] theorem State.countIllegal_alarmHours (s : State) (o : Nat) : (s.countIllegal o).alarmHours = s.alarmHours := rfl
@[simp] theorem State.countIllegal_trim (s : State) (o : Nat) : (s.countIllegal o).trim = s.trim := rfl
@[simp] theorem State.countIllegal_identity (s : State) (o : Nat) : (s.countIllegal o).identity = s.identity := rfl
@[simp] theorem State.countIllegal_sidebandKey (s : State) (o : Nat) : (s.countIllegal o).sidebandKey = s.sidebandKey := rfl
@[simp] theorem State.countIllegal_measurements (s : State) (o : Nat) : (s.countIllegal o).measurements = s.measurements := rfl
@[simp] theorem State.countIllegal_spdm (s : State) (o : Nat) : (s.countIllegal o).spdm = s.spdm := rfl
@[simp] theorem State.countIllegal_boundaries (s : State) (o : Nat) : (s.countIllegal o).boundaries = s.boundaries := rfl
@[simp] theorem State.countIllegal_ecc (s : State) (o : Nat) : (s.countIllegal o).ecc = s.ecc := rfl
@[simp] theorem State.countIllegal_corrected (s : State) (o : Nat) : (s.countIllegal o).corrected = s.corrected := rfl
@[simp] theorem State.countIllegal_throttled (s : State) (o : Nat) : (s.countIllegal o).throttled = s.throttled := rfl
@[simp] theorem State.countIllegal_powerWithheld (s : State) (o : Nat) : (s.countIllegal o).powerWithheld = s.powerWithheld := rfl
@[simp] theorem State.countIllegal_life (s : State) (o : Nat) : (s.countIllegal o).life = s.life := rfl
@[simp] theorem State.countIllegal_errorLog (s : State) (o : Nat) : (s.countIllegal o).errorLog = s.errorLog := rfl
@[simp] theorem State.countIllegal_badParts (s : State) (o : Nat) : (s.countIllegal o).badParts = s.badParts := rfl
@[simp] theorem State.countIllegal_ports (s : State) (o : Nat) : (s.countIllegal o).ports = s.ports := rfl
@[simp] theorem State.countIllegal_connections (s : State) (o : Nat) : (s.countIllegal o).connections = s.connections := rfl
@[simp] theorem State.countIllegal_counters (s : State) (o : Nat) : (s.countIllegal o).counters = s.counters := rfl
@[simp] theorem State.countIllegal_bootNonces (s : State) (o : Nat) : (s.countIllegal o).bootNonces = s.bootNonces := rfl
@[simp] theorem State.countIllegal_rx (s : State) (o : Nat) : (s.countIllegal o).rx = s.rx := rfl
@[simp] theorem State.countIllegal_tx (s : State) (o : Nat) : (s.countIllegal o).tx = s.tx := rfl
@[simp] theorem State.countIllegal_remote (s : State) (o : Nat) : (s.countIllegal o).remote = s.remote := rfl
@[simp] theorem State.countIllegal_nextRequest (s : State) (o : Nat) : (s.countIllegal o).nextRequest = s.nextRequest := rfl
@[simp] theorem State.countIllegal_ringJobs (s : State) (o : Nat) : (s.countIllegal o).ringJobs = s.ringJobs := rfl
@[simp] theorem State.countIllegal_mem (s : State) (o : Nat) : (s.countIllegal o).mem = s.mem := rfl
@[simp] theorem State.countIllegal_hostMem (s : State) (o : Nat) : (s.countIllegal o).hostMem = s.hostMem := rfl
@[simp] theorem State.countIllegal_nextFrame (s : State) (o : Nat) : (s.countIllegal o).nextFrame = s.nextFrame := rfl
@[simp] theorem State.countIllegal_nextLocal (s : State) (o : Nat) : (s.countIllegal o).nextLocal = s.nextLocal := rfl
@[simp] theorem State.countIllegal_freeFrames (s : State) (o : Nat) : (s.countIllegal o).freeFrames = s.freeFrames := rfl
@[simp] theorem State.countIllegal_epoch (s : State) (o : Nat) : (s.countIllegal o).epoch = s.epoch := rfl
@[simp] theorem State.countIllegal_savedStacks (s : State) (o : Nat) : (s.countIllegal o).savedStacks = s.savedStacks := rfl
@[simp] theorem State.countIllegal_launches (s : State) (o : Nat) : (s.countIllegal o).launches = s.launches := rfl
@[simp] theorem State.countIllegal_teams (s : State) (o : Nat) : (s.countIllegal o).teams = s.teams := rfl
@[simp] theorem State.countIllegal_waves (s : State) (o : Nat) : (s.countIllegal o).waves = s.waves := rfl
@[simp] theorem State.countIllegal_engines (s : State) (o : Nat) : (s.countIllegal o).engines = s.engines := rfl
@[simp] theorem State.countIllegal_saved (s : State) (o : Nat) : (s.countIllegal o).saved = s.saved := rfl
@[simp] theorem State.countIllegal_cores (s : State) (o : Nat) : (s.countIllegal o).cores = s.cores := rfl
@[simp] theorem State.countIllegal_nextId (s : State) (o : Nat) : (s.countIllegal o).nextId = s.nextId := rfl
@[simp] theorem State.countIllegal_inputs (s : State) (o : Nat) : (s.countIllegal o).inputs = s.inputs := rfl
@[simp] theorem State.countIllegal_sched (s : State) (o : Nat) : (s.countIllegal o).sched = s.sched := rfl
@[simp] theorem State.countIllegal_cur (s : State) (o : Nat) : (s.countIllegal o).cur = s.cur := rfl
@[simp] theorem State.countIllegal_atBell (s : State) (o : Nat) : (s.countIllegal o).atBell = s.atBell := rfl
@[simp] theorem State.countIllegal_clock (s : State) (o : Nat) : (s.countIllegal o).clock = s.clock := rfl
@[simp] theorem State.countIllegal_free (s : State) (o : Nat) : (s.countIllegal o).free = s.free := rfl
@[simp] theorem State.countIllegal_ivgil (s : State) (o : Nat) : (s.countIllegal o).ivgil = s.ivgil := rfl

/-! ### `State.stir` -/

@[simp] theorem State.stir_phase (s : State) (l : Option Nat) : (s.stir l).phase = s.phase := by cases l <;> rfl
@[simp] theorem State.stir_flash (s : State) (l : Option Nat) : (s.stir l).flash = s.flash := by cases l <;> rfl
@[simp] theorem State.stir_repair (s : State) (l : Option Nat) : (s.stir l).repair = s.repair := by cases l <;> rfl
@[simp] theorem State.stir_serial (s : State) (l : Option Nat) : (s.stir l).serial = s.serial := by cases l <;> rfl
@[simp] theorem State.stir_alarmHours (s : State) (l : Option Nat) : (s.stir l).alarmHours = s.alarmHours := by cases l <;> rfl
@[simp] theorem State.stir_trim (s : State) (l : Option Nat) : (s.stir l).trim = s.trim := by cases l <;> rfl
@[simp] theorem State.stir_identity (s : State) (l : Option Nat) : (s.stir l).identity = s.identity := by cases l <;> rfl
@[simp] theorem State.stir_sidebandKey (s : State) (l : Option Nat) : (s.stir l).sidebandKey = s.sidebandKey := by cases l <;> rfl
@[simp] theorem State.stir_measurements (s : State) (l : Option Nat) : (s.stir l).measurements = s.measurements := by cases l <;> rfl
@[simp] theorem State.stir_spdm (s : State) (l : Option Nat) : (s.stir l).spdm = s.spdm := by cases l <;> rfl
@[simp] theorem State.stir_boundaries (s : State) (l : Option Nat) : (s.stir l).boundaries = s.boundaries := by cases l <;> rfl
@[simp] theorem State.stir_ecc (s : State) (l : Option Nat) : (s.stir l).ecc = s.ecc := by cases l <;> rfl
@[simp] theorem State.stir_corrected (s : State) (l : Option Nat) : (s.stir l).corrected = s.corrected := by cases l <;> rfl
@[simp] theorem State.stir_throttled (s : State) (l : Option Nat) : (s.stir l).throttled = s.throttled := by cases l <;> rfl
@[simp] theorem State.stir_powerWithheld (s : State) (l : Option Nat) : (s.stir l).powerWithheld = s.powerWithheld := by cases l <;> rfl
@[simp] theorem State.stir_life (s : State) (l : Option Nat) : (s.stir l).life = s.life := by cases l <;> rfl
@[simp] theorem State.stir_errorLog (s : State) (l : Option Nat) : (s.stir l).errorLog = s.errorLog := by cases l <;> rfl
@[simp] theorem State.stir_badParts (s : State) (l : Option Nat) : (s.stir l).badParts = s.badParts := by cases l <;> rfl
@[simp] theorem State.stir_ports (s : State) (l : Option Nat) : (s.stir l).ports = s.ports := by cases l <;> rfl
@[simp] theorem State.stir_connections (s : State) (l : Option Nat) : (s.stir l).connections = s.connections := by cases l <;> rfl
@[simp] theorem State.stir_counters (s : State) (l : Option Nat) : (s.stir l).counters = s.counters := by cases l <;> rfl
@[simp] theorem State.stir_bootNonces (s : State) (l : Option Nat) : (s.stir l).bootNonces = s.bootNonces := by cases l <;> rfl
@[simp] theorem State.stir_rx (s : State) (l : Option Nat) : (s.stir l).rx = s.rx := by cases l <;> rfl
@[simp] theorem State.stir_tx (s : State) (l : Option Nat) : (s.stir l).tx = s.tx := by cases l <;> rfl
@[simp] theorem State.stir_remote (s : State) (l : Option Nat) : (s.stir l).remote = s.remote := by cases l <;> rfl
@[simp] theorem State.stir_nextRequest (s : State) (l : Option Nat) : (s.stir l).nextRequest = s.nextRequest := by cases l <;> rfl
@[simp] theorem State.stir_ringJobs (s : State) (l : Option Nat) : (s.stir l).ringJobs = s.ringJobs := by cases l <;> rfl
@[simp] theorem State.stir_mem (s : State) (l : Option Nat) : (s.stir l).mem = s.mem := by cases l <;> rfl
@[simp] theorem State.stir_hostMem (s : State) (l : Option Nat) : (s.stir l).hostMem = s.hostMem := by cases l <;> rfl
@[simp] theorem State.stir_nextFrame (s : State) (l : Option Nat) : (s.stir l).nextFrame = s.nextFrame := by cases l <;> rfl
@[simp] theorem State.stir_nextLocal (s : State) (l : Option Nat) : (s.stir l).nextLocal = s.nextLocal := by cases l <;> rfl
@[simp] theorem State.stir_freeFrames (s : State) (l : Option Nat) : (s.stir l).freeFrames = s.freeFrames := by cases l <;> rfl
@[simp] theorem State.stir_epoch (s : State) (l : Option Nat) : (s.stir l).epoch = s.epoch := by cases l <;> rfl
@[simp] theorem State.stir_savedStacks (s : State) (l : Option Nat) : (s.stir l).savedStacks = s.savedStacks := by cases l <;> rfl
@[simp] theorem State.stir_owners (s : State) (l : Option Nat) : (s.stir l).owners = s.owners := by cases l <;> rfl
@[simp] theorem State.stir_teams (s : State) (l : Option Nat) : (s.stir l).teams = s.teams := by cases l <;> rfl
@[simp] theorem State.stir_waves (s : State) (l : Option Nat) : (s.stir l).waves = s.waves := by cases l <;> rfl
@[simp] theorem State.stir_engines (s : State) (l : Option Nat) : (s.stir l).engines = s.engines := by cases l <;> rfl
@[simp] theorem State.stir_saved (s : State) (l : Option Nat) : (s.stir l).saved = s.saved := by cases l <;> rfl
@[simp] theorem State.stir_cores (s : State) (l : Option Nat) : (s.stir l).cores = s.cores := by cases l <;> rfl
@[simp] theorem State.stir_nextId (s : State) (l : Option Nat) : (s.stir l).nextId = s.nextId := by cases l <;> rfl
@[simp] theorem State.stir_inputs (s : State) (l : Option Nat) : (s.stir l).inputs = s.inputs := by cases l <;> rfl
@[simp] theorem State.stir_sched (s : State) (l : Option Nat) : (s.stir l).sched = s.sched := by cases l <;> rfl
@[simp] theorem State.stir_cur (s : State) (l : Option Nat) : (s.stir l).cur = s.cur := by cases l <;> rfl
@[simp] theorem State.stir_atBell (s : State) (l : Option Nat) : (s.stir l).atBell = s.atBell := by cases l <;> rfl
@[simp] theorem State.stir_clock (s : State) (l : Option Nat) : (s.stir l).clock = s.clock := by cases l <;> rfl
@[simp] theorem State.stir_free (s : State) (l : Option Nat) : (s.stir l).free = s.free := by cases l <;> rfl
@[simp] theorem State.stir_ivgil (s : State) (l : Option Nat) : (s.stir l).ivgil = s.ivgil := by cases l <;> rfl

/-! ### Reading a record -/

variable (s : State)

theorem State.updWave_wave? (n m : Nat) (f : Wave → Wave) :
    (s.updWave n f).wave? m = if m = n then (s.wave? n).map f else s.wave? m := Tab.find_upd ..
@[simp] theorem State.updWave_wave?_self (n : Nat) (f : Wave → Wave) :
    (s.updWave n f).wave? n = (s.wave? n).map f := by simp [State.updWave_wave?]
theorem State.setWave_wave? (n m : Nat) (w : Wave) :
    (s.setWave n w).wave? m = if m = n then some w else s.wave? m := Tab.find_put ..
@[simp] theorem State.setWave_wave?_self (n : Nat) (w : Wave) : (s.setWave n w).wave? n = some w := by
  simp [State.setWave_wave?]
theorem State.updSplit_wave? (n k m : Nat) (f : Split → Split) :
    (s.updSplit n k f).wave? m = if m = n then (s.wave? n).map (fun w => w.updSplit k f) else s.wave? m :=
  Tab.find_upd ..
theorem State.updTeam_team? (t j : Nat) (f : Team → Team) :
    (s.updTeam t f).team? j = if j = t then (s.team? t).map f else s.team? j := Tab.find_upd ..
theorem State.updLaunch_launch? (l j : Nat) (f : Launch → Launch) :
    (s.updLaunch l f).launch? j = if j = l then (s.launch? l).map f else s.launch? j := Tab.find_upd ..
theorem State.updOwner_owner? (o j : Nat) (f : Owner → Owner) :
    (s.updOwner o f).owner? j = if j = o then (s.owner? o).map f else s.owner? j := Tab.find_upd ..
theorem State.updEngine_engine? (e j : Nat) (f : Engine → Engine) :
    (s.updEngine e f).engine? j = if j = e then (s.engine? e).map f else s.engine? j := Tab.find_upd ..
theorem State.updCore_core (c j : Nat) (f : Core → Core) :
    (s.updCore c f).core j = if j = c then f (s.core c) else s.core j := by
  unfold State.core State.updCore; exact Tab.getD_put ..

@[simp] theorem State.updOwner_wave? (o : Nat) (f : Owner → Owner) (q : Nat) : (s.updOwner o f).wave? q = s.wave? q := rfl
@[simp] theorem State.updOwner_team? (o : Nat) (f : Owner → Owner) (q : Nat) : (s.updOwner o f).team? q = s.team? q := rfl
@[simp] theorem State.updOwner_launch? (o : Nat) (f : Owner → Owner) (q : Nat) : (s.updOwner o f).launch? q = s.launch? q := rfl
@[simp] theorem State.updOwner_engine? (o : Nat) (f : Owner → Owner) (q : Nat) : (s.updOwner o f).engine? q = s.engine? q := rfl
@[simp] theorem State.updOwner_core (o : Nat) (f : Owner → Owner) (q : Nat) : (s.updOwner o f).core q = s.core q := rfl
@[simp] theorem State.updLaunch_wave? (l : Nat) (f : Launch → Launch) (q : Nat) : (s.updLaunch l f).wave? q = s.wave? q := rfl
@[simp] theorem State.updLaunch_team? (l : Nat) (f : Launch → Launch) (q : Nat) : (s.updLaunch l f).team? q = s.team? q := rfl
@[simp] theorem State.updLaunch_owner? (l : Nat) (f : Launch → Launch) (q : Nat) : (s.updLaunch l f).owner? q = s.owner? q := rfl
@[simp] theorem State.updLaunch_engine? (l : Nat) (f : Launch → Launch) (q : Nat) : (s.updLaunch l f).engine? q = s.engine? q := rfl
@[simp] theorem State.updLaunch_core (l : Nat) (f : Launch → Launch) (q : Nat) : (s.updLaunch l f).core q = s.core q := rfl
@[simp] theorem State.updTeam_wave? (t : Nat) (f : Team → Team) (q : Nat) : (s.updTeam t f).wave? q = s.wave? q := rfl
@[simp] theorem State.updTeam_launch? (t : Nat) (f : Team → Team) (q : Nat) : (s.updTeam t f).launch? q = s.launch? q := rfl
@[simp] theorem State.updTeam_owner? (t : Nat) (f : Team → Team) (q : Nat) : (s.updTeam t f).owner? q = s.owner? q := rfl
@[simp] theorem State.updTeam_engine? (t : Nat) (f : Team → Team) (q : Nat) : (s.updTeam t f).engine? q = s.engine? q := rfl
@[simp] theorem State.updTeam_core (t : Nat) (f : Team → Team) (q : Nat) : (s.updTeam t f).core q = s.core q := rfl
@[simp] theorem State.updWave_team? (n : Nat) (f : Wave → Wave) (q : Nat) : (s.updWave n f).team? q = s.team? q := rfl
@[simp] theorem State.updWave_launch? (n : Nat) (f : Wave → Wave) (q : Nat) : (s.updWave n f).launch? q = s.launch? q := rfl
@[simp] theorem State.updWave_owner? (n : Nat) (f : Wave → Wave) (q : Nat) : (s.updWave n f).owner? q = s.owner? q := rfl
@[simp] theorem State.updWave_engine? (n : Nat) (f : Wave → Wave) (q : Nat) : (s.updWave n f).engine? q = s.engine? q := rfl
@[simp] theorem State.updWave_core (n : Nat) (f : Wave → Wave) (q : Nat) : (s.updWave n f).core q = s.core q := rfl
@[simp] theorem State.setWave_team? (n : Nat) (w : Wave) (q : Nat) : (s.setWave n w).team? q = s.team? q := rfl
@[simp] theorem State.setWave_launch? (n : Nat) (w : Wave) (q : Nat) : (s.setWave n w).launch? q = s.launch? q := rfl
@[simp] theorem State.setWave_owner? (n : Nat) (w : Wave) (q : Nat) : (s.setWave n w).owner? q = s.owner? q := rfl
@[simp] theorem State.setWave_engine? (n : Nat) (w : Wave) (q : Nat) : (s.setWave n w).engine? q = s.engine? q := rfl
@[simp] theorem State.setWave_core (n : Nat) (w : Wave) (q : Nat) : (s.setWave n w).core q = s.core q := rfl
@[simp] theorem State.updSplit_team? (n k : Nat) (f : Split → Split) (q : Nat) : (s.updSplit n k f).team? q = s.team? q := rfl
@[simp] theorem State.updSplit_launch? (n k : Nat) (f : Split → Split) (q : Nat) : (s.updSplit n k f).launch? q = s.launch? q := rfl
@[simp] theorem State.updSplit_owner? (n k : Nat) (f : Split → Split) (q : Nat) : (s.updSplit n k f).owner? q = s.owner? q := rfl
@[simp] theorem State.updSplit_engine? (n k : Nat) (f : Split → Split) (q : Nat) : (s.updSplit n k f).engine? q = s.engine? q := rfl
@[simp] theorem State.updSplit_core (n k : Nat) (f : Split → Split) (q : Nat) : (s.updSplit n k f).core q = s.core q := rfl
@[simp] theorem State.updEngine_wave? (e : Nat) (f : Engine → Engine) (q : Nat) : (s.updEngine e f).wave? q = s.wave? q := rfl
@[simp] theorem State.updEngine_team? (e : Nat) (f : Engine → Engine) (q : Nat) : (s.updEngine e f).team? q = s.team? q := rfl
@[simp] theorem State.updEngine_launch? (e : Nat) (f : Engine → Engine) (q : Nat) : (s.updEngine e f).launch? q = s.launch? q := rfl
@[simp] theorem State.updEngine_owner? (e : Nat) (f : Engine → Engine) (q : Nat) : (s.updEngine e f).owner? q = s.owner? q := rfl
@[simp] theorem State.updEngine_core (e : Nat) (f : Engine → Engine) (q : Nat) : (s.updEngine e f).core q = s.core q := rfl
@[simp] theorem State.updCore_wave? (c : Nat) (f : Core → Core) (q : Nat) : (s.updCore c f).wave? q = s.wave? q := rfl
@[simp] theorem State.updCore_team? (c : Nat) (f : Core → Core) (q : Nat) : (s.updCore c f).team? q = s.team? q := rfl
@[simp] theorem State.updCore_launch? (c : Nat) (f : Core → Core) (q : Nat) : (s.updCore c f).launch? q = s.launch? q := rfl
@[simp] theorem State.updCore_owner? (c : Nat) (f : Core → Core) (q : Nat) : (s.updCore c f).owner? q = s.owner? q := rfl
@[simp] theorem State.updCore_engine? (c : Nat) (f : Core → Core) (q : Nat) : (s.updCore c f).engine? q = s.engine? q := rfl
@[simp] theorem State.clearCur_wave? (q : Nat) : (s.clearCur).wave? q = s.wave? q := rfl
@[simp] theorem State.clearCur_team? (q : Nat) : (s.clearCur).team? q = s.team? q := rfl
@[simp] theorem State.clearCur_launch? (q : Nat) : (s.clearCur).launch? q = s.launch? q := rfl
@[simp] theorem State.clearCur_owner? (q : Nat) : (s.clearCur).owner? q = s.owner? q := rfl
@[simp] theorem State.clearCur_engine? (q : Nat) : (s.clearCur).engine? q = s.engine? q := rfl
@[simp] theorem State.clearCur_core (q : Nat) : (s.clearCur).core q = s.core q := rfl
@[simp] theorem State.countIllegal_wave? (o : Nat) (q : Nat) : (s.countIllegal o).wave? q = s.wave? q := rfl
@[simp] theorem State.countIllegal_team? (o : Nat) (q : Nat) : (s.countIllegal o).team? q = s.team? q := rfl
@[simp] theorem State.countIllegal_launch? (o : Nat) (q : Nat) : (s.countIllegal o).launch? q = s.launch? q := rfl
@[simp] theorem State.countIllegal_engine? (o : Nat) (q : Nat) : (s.countIllegal o).engine? q = s.engine? q := rfl
@[simp] theorem State.countIllegal_core (o : Nat) (q : Nat) : (s.countIllegal o).core q = s.core q := rfl
@[simp] theorem State.stir_wave? (l : Option Nat) (q : Nat) : (s.stir l).wave? q = s.wave? q := by cases l <;> rfl
@[simp] theorem State.stir_team? (l : Option Nat) (q : Nat) : (s.stir l).team? q = s.team? q := by cases l <;> rfl
@[simp] theorem State.stir_owner? (l : Option Nat) (q : Nat) : (s.stir l).owner? q = s.owner? q := by cases l <;> rfl
@[simp] theorem State.stir_engine? (l : Option Nat) (q : Nat) : (s.stir l).engine? q = s.engine? q := by cases l <;> rfl
@[simp] theorem State.stir_core (l : Option Nat) (q : Nat) : (s.stir l).core q = s.core q := by cases l <;> rfl

theorem State.stir_launch? (l : Option Nat) (j : Nat) :
    (s.stir l).launch? j = if l = some j then (s.launch? j).map (fun x => { x with fresh := true }) else s.launch? j := by
  cases l with
  | none => simp [State.stir]
  | some n => simp only [State.stir, State.updLaunch_launch?, Option.some.injEq]; grind

/-! ### Splits of a wave -/

@[simp] theorem Wave.updSplit_owner (w : Wave) (k : Nat) (f : Split → Split) : (w.updSplit k f).owner = w.owner := rfl
@[simp] theorem Wave.updSplit_launch (w : Wave) (k : Nat) (f : Split → Split) : (w.updSplit k f).launch = w.launch := rfl
@[simp] theorem Wave.updSplit_team (w : Wave) (k : Nat) (f : Split → Split) : (w.updSplit k f).team = w.team := rfl
@[simp] theorem Wave.updSplit_index (w : Wave) (k : Nat) (f : Split → Split) : (w.updSplit k f).index = w.index := rfl
@[simp] theorem Wave.updSplit_role (w : Wave) (k : Nat) (f : Split → Split) : (w.updSplit k f).role = w.role := rfl
@[simp] theorem Wave.updSplit_task (w : Wave) (k : Nat) (f : Split → Split) : (w.updSplit k f).task = w.task := rfl
@[simp] theorem Wave.updSplit_drover (w : Wave) (k : Nat) (f : Split → Split) : (w.updSplit k f).drover = w.drover := rfl
@[simp] theorem Wave.updSplit_emask (w : Wave) (k : Nat) (f : Split → Split) : (w.updSplit k f).emask = w.emask := rfl
@[simp] theorem Wave.updSplit_widBase (w : Wave) (k : Nat) (f : Split → Split) : (w.updSplit k f).widBase = w.widBase := rfl
@[simp] theorem Wave.updSplit_taskIndex (w : Wave) (k : Nat) (f : Split → Split) : (w.updSplit k f).taskIndex = w.taskIndex := rfl
@[simp] theorem Wave.updSplit_depths (w : Wave) (k : Nat) (f : Split → Split) : (w.updSplit k f).depths = w.depths := rfl
@[simp] theorem Wave.updSplit_depth (w : Wave) (k : Nat) (f : Split → Split) : (w.updSplit k f).depth = w.depth := rfl
@[simp] theorem Wave.updSplit_units (w : Wave) (k : Nat) (f : Split → Split) : (w.updSplit k f).units = w.units := rfl
@[simp] theorem Wave.updSplit_v (w : Wave) (k : Nat) (f : Split → Split) : (w.updSplit k f).v = w.v := rfl
@[simp] theorem Wave.updSplit_o (w : Wave) (k : Nat) (f : Split → Split) : (w.updSplit k f).o = w.o := rfl
@[simp] theorem Wave.updSplit_latch (w : Wave) (k : Nat) (f : Split → Split) : (w.updSplit k f).latch = w.latch := rfl
@[simp] theorem Wave.updSplit_s (w : Wave) (k : Nat) (f : Split → Split) : (w.updSplit k f).s = w.s := rfl
@[simp] theorem Wave.updSplit_p (w : Wave) (k : Nat) (f : Split → Split) : (w.updSplit k f).p = w.p := rfl
@[simp] theorem Wave.updSplit_busy (w : Wave) (k : Nat) (f : Split → Split) : (w.updSplit k f).busy = w.busy := rfl
@[simp] theorem Wave.updSplit_tokenErrors (w : Wave) (k : Nat) (f : Split → Split) : (w.updSplit k f).tokenErrors = w.tokenErrors := rfl
@[simp] theorem Wave.updSplit_chains (w : Wave) (k : Nat) (f : Split → Split) : (w.updSplit k f).chains = w.chains := rfl
@[simp] theorem Wave.updSplit_fstat (w : Wave) (k : Nat) (f : Split → Split) : (w.updSplit k f).fstat = w.fstat := rfl
@[simp] theorem Wave.updSplit_hstat (w : Wave) (k : Nat) (f : Split → Split) : (w.updSplit k f).hstat = w.hstat := rfl
@[simp] theorem Wave.updSplit_fabs (w : Wave) (k : Nat) (f : Split → Split) : (w.updSplit k f).fabs = w.fabs := rfl
@[simp] theorem Wave.updSplit_utvec (w : Wave) (k : Nat) (f : Split → Split) : (w.updSplit k f).utvec = w.utvec := rfl
@[simp] theorem Wave.updSplit_trapArea (w : Wave) (k : Nat) (f : Split → Split) : (w.updSplit k f).trapArea = w.trapArea := rfl
@[simp] theorem Wave.updSplit_trapCtx (w : Wave) (k : Nat) (f : Split → Split) : (w.updSplit k f).trapCtx = w.trapCtx := rfl
@[simp] theorem Wave.updSplit_sysCtx (w : Wave) (k : Nat) (f : Split → Split) : (w.updSplit k f).sysCtx = w.sysCtx := rfl
@[simp] theorem Wave.updSplit_hmode (w : Wave) (k : Nat) (f : Split → Split) : (w.updSplit k f).hmode = w.hmode := rfl
@[simp] theorem Wave.updSplit_wp (w : Wave) (k : Nat) (f : Split → Split) : (w.updSplit k f).wp = w.wp := rfl
@[simp] theorem Wave.updSplit_failedStp (w : Wave) (k : Nat) (f : Split → Split) : (w.updSplit k f).failedStp = w.failedStp := rfl
@[simp] theorem Wave.updSplit_reserved (w : Wave) (k : Nat) (f : Split → Split) : (w.updSplit k f).reserved = w.reserved := rfl
@[simp] theorem Wave.updSplit_holds (w : Wave) (k : Nat) (f : Split → Split) : (w.updSplit k f).holds = w.holds := rfl
@[simp] theorem Wave.updSplit_rstack (w : Wave) (k : Nat) (f : Split → Split) : (w.updSplit k f).rstack = w.rstack := rfl
@[simp] theorem Wave.updSplit_round (w : Wave) (k : Nat) (f : Split → Split) : (w.updSplit k f).round = w.round := rfl
@[simp] theorem Wave.updSplit_lt (w : Wave) (k : Nat) (f : Split → Split) : (w.updSplit k f).lt = w.lt := rfl
@[simp] theorem Wave.updSplit_retired (w : Wave) (k : Nat) (f : Split → Split) : (w.updSplit k f).retired = w.retired := rfl
@[simp] theorem Wave.updSplit_roundEnded (w : Wave) (k : Nat) (f : Split → Split) : (w.updSplit k f).roundEnded = w.roundEnded := rfl
@[simp] theorem Wave.updSplit_buffer (w : Wave) (k : Nat) (f : Split → Split) : (w.updSplit k f).buffer = w.buffer := rfl
@[simp] theorem Wave.updSplit_redo (w : Wave) (k : Nat) (f : Split → Split) : (w.updSplit k f).redo = w.redo := rfl
@[simp] theorem Wave.updSplit_laneStores (w : Wave) (k : Nat) (f : Split → Split) : (w.updSplit k f).laneStores = w.laneStores := rfl
@[simp] theorem Wave.updSplit_bellSplit (w : Wave) (k : Nat) (f : Split → Split) : (w.updSplit k f).bellSplit = w.bellSplit := rfl
@[simp] theorem Wave.updSplit_sleep (w : Wave) (k : Nat) (f : Split → Split) : (w.updSplit k f).sleep = w.sleep := rfl
@[simp] theorem Wave.updSplit_life (w : Wave) (k : Nat) (f : Split → Split) : (w.updSplit k f).life = w.life := rfl
@[simp] theorem Wave.updSplit_resumeAt (w : Wave) (k : Nat) (f : Split → Split) : (w.updSplit k f).resumeAt = w.resumeAt := rfl
@[simp] theorem Wave.updSplit_stopped (w : Wave) (k : Nat) (f : Split → Split) : (w.updSplit k f).stopped = w.stopped := rfl
@[simp] theorem Wave.updSplit_pending (w : Wave) (k : Nat) (f : Split → Split) : (w.updSplit k f).pending = w.pending := rfl
@[simp] theorem Wave.updSplit_spillFrame (w : Wave) (k : Nat) (f : Split → Split) : (w.updSplit k f).spillFrame = w.spillFrame := rfl
@[simp] theorem Wave.updSplit_saveDue (w : Wave) (k : Nat) (f : Split → Split) : (w.updSplit k f).saveDue = w.saveDue := rfl
@[simp] theorem Wave.updSplit_yielded (w : Wave) (k : Nat) (f : Split → Split) : (w.updSplit k f).yielded = w.yielded := rfl
@[simp] theorem Wave.updSplit_nextSplit (w : Wave) (k : Nat) (f : Split → Split) : (w.updSplit k f).nextSplit = w.nextSplit := rfl
@[simp] theorem Wave.updSplit_begun (w : Wave) (k : Nat) (f : Split → Split) : (w.updSplit k f).begun = w.begun := rfl
@[simp] theorem Wave.updSplit_missed (w : Wave) (k : Nat) (f : Split → Split) : (w.updSplit k f).missed = w.missed := rfl
@[simp] theorem Wave.updSplit_bad (w : Wave) (k : Nat) (f : Split → Split) : (w.updSplit k f).bad = w.bad := rfl

theorem Wave.updSplit_split (w : Wave) (k j : Nat) (f : Split → Split) :
    Tab.find (w.updSplit k f).splits j = if j = k then (Tab.find w.splits k).map f else Tab.find w.splits j :=
  Tab.find_upd ..

end Sys2Proof.Machine
end

