-- ==== Sys2Proof/Laws/Wave.lean ====
section
/-!
SUPPORT. The register files: what each write leaves as it was, and what reading a register gives after it (R99–R101, R207).
-/
namespace Sys2Proof.Machine

/-! ### Fields a write leaves as they were -/

@[simp] theorem Wave.mend_owner (w : Wave) (r : RegName) (l : Nat) : (w.mend r l).owner = w.owner := by
  unfold Wave.mend; split <;> rfl
@[simp] theorem Wave.mend_launch (w : Wave) (r : RegName) (l : Nat) : (w.mend r l).launch = w.launch := by
  unfold Wave.mend; split <;> rfl
@[simp] theorem Wave.mend_team (w : Wave) (r : RegName) (l : Nat) : (w.mend r l).team = w.team := by
  unfold Wave.mend; split <;> rfl
@[simp] theorem Wave.mend_index (w : Wave) (r : RegName) (l : Nat) : (w.mend r l).index = w.index := by
  unfold Wave.mend; split <;> rfl
@[simp] theorem Wave.mend_role (w : Wave) (r : RegName) (l : Nat) : (w.mend r l).role = w.role := by
  unfold Wave.mend; split <;> rfl
@[simp] theorem Wave.mend_task (w : Wave) (r : RegName) (l : Nat) : (w.mend r l).task = w.task := by
  unfold Wave.mend; split <;> rfl
@[simp] theorem Wave.mend_drover (w : Wave) (r : RegName) (l : Nat) : (w.mend r l).drover = w.drover := by
  unfold Wave.mend; split <;> rfl
@[simp] theorem Wave.mend_emask (w : Wave) (r : RegName) (l : Nat) : (w.mend r l).emask = w.emask := by
  unfold Wave.mend; split <;> rfl
@[simp] theorem Wave.mend_widBase (w : Wave) (r : RegName) (l : Nat) : (w.mend r l).widBase = w.widBase := by
  unfold Wave.mend; split <;> rfl
@[simp] theorem Wave.mend_taskIndex (w : Wave) (r : RegName) (l : Nat) : (w.mend r l).taskIndex = w.taskIndex := by
  unfold Wave.mend; split <;> rfl
@[simp] theorem Wave.mend_depths (w : Wave) (r : RegName) (l : Nat) : (w.mend r l).depths = w.depths := by
  unfold Wave.mend; split <;> rfl
@[simp] theorem Wave.mend_depth (w : Wave) (r : RegName) (l : Nat) : (w.mend r l).depth = w.depth := by
  unfold Wave.mend; split <;> rfl
@[simp] theorem Wave.mend_units (w : Wave) (r : RegName) (l : Nat) : (w.mend r l).units = w.units := by
  unfold Wave.mend; split <;> rfl
@[simp] theorem Wave.mend_v (w : Wave) (r : RegName) (l : Nat) : (w.mend r l).v = w.v := by
  unfold Wave.mend; split <;> rfl
@[simp] theorem Wave.mend_o (w : Wave) (r : RegName) (l : Nat) : (w.mend r l).o = w.o := by
  unfold Wave.mend; split <;> rfl
@[simp] theorem Wave.mend_latch (w : Wave) (r : RegName) (l : Nat) : (w.mend r l).latch = w.latch := by
  unfold Wave.mend; split <;> rfl
@[simp] theorem Wave.mend_s (w : Wave) (r : RegName) (l : Nat) : (w.mend r l).s = w.s := by
  unfold Wave.mend; split <;> rfl
@[simp] theorem Wave.mend_p (w : Wave) (r : RegName) (l : Nat) : (w.mend r l).p = w.p := by
  unfold Wave.mend; split <;> rfl
@[simp] theorem Wave.mend_busy (w : Wave) (r : RegName) (l : Nat) : (w.mend r l).busy = w.busy := by
  unfold Wave.mend; split <;> rfl
@[simp] theorem Wave.mend_tokenErrors (w : Wave) (r : RegName) (l : Nat) : (w.mend r l).tokenErrors = w.tokenErrors := by
  unfold Wave.mend; split <;> rfl
@[simp] theorem Wave.mend_chains (w : Wave) (r : RegName) (l : Nat) : (w.mend r l).chains = w.chains := by
  unfold Wave.mend; split <;> rfl
@[simp] theorem Wave.mend_splits (w : Wave) (r : RegName) (l : Nat) : (w.mend r l).splits = w.splits := by
  unfold Wave.mend; split <;> rfl
@[simp] theorem Wave.mend_fstat (w : Wave) (r : RegName) (l : Nat) : (w.mend r l).fstat = w.fstat := by
  unfold Wave.mend; split <;> rfl
@[simp] theorem Wave.mend_hstat (w : Wave) (r : RegName) (l : Nat) : (w.mend r l).hstat = w.hstat := by
  unfold Wave.mend; split <;> rfl
@[simp] theorem Wave.mend_fabs (w : Wave) (r : RegName) (l : Nat) : (w.mend r l).fabs = w.fabs := by
  unfold Wave.mend; split <;> rfl
@[simp] theorem Wave.mend_utvec (w : Wave) (r : RegName) (l : Nat) : (w.mend r l).utvec = w.utvec := by
  unfold Wave.mend; split <;> rfl
@[simp] theorem Wave.mend_trapArea (w : Wave) (r : RegName) (l : Nat) : (w.mend r l).trapArea = w.trapArea := by
  unfold Wave.mend; split <;> rfl
@[simp] theorem Wave.mend_trapCtx (w : Wave) (r : RegName) (l : Nat) : (w.mend r l).trapCtx = w.trapCtx := by
  unfold Wave.mend; split <;> rfl
@[simp] theorem Wave.mend_sysCtx (w : Wave) (r : RegName) (l : Nat) : (w.mend r l).sysCtx = w.sysCtx := by
  unfold Wave.mend; split <;> rfl
@[simp] theorem Wave.mend_hmode (w : Wave) (r : RegName) (l : Nat) : (w.mend r l).hmode = w.hmode := by
  unfold Wave.mend; split <;> rfl
@[simp] theorem Wave.mend_wp (w : Wave) (r : RegName) (l : Nat) : (w.mend r l).wp = w.wp := by
  unfold Wave.mend; split <;> rfl
@[simp] theorem Wave.mend_failedStp (w : Wave) (r : RegName) (l : Nat) : (w.mend r l).failedStp = w.failedStp := by
  unfold Wave.mend; split <;> rfl
@[simp] theorem Wave.mend_reserved (w : Wave) (r : RegName) (l : Nat) : (w.mend r l).reserved = w.reserved := by
  unfold Wave.mend; split <;> rfl
@[simp] theorem Wave.mend_holds (w : Wave) (r : RegName) (l : Nat) : (w.mend r l).holds = w.holds := by
  unfold Wave.mend; split <;> rfl
@[simp] theorem Wave.mend_rstack (w : Wave) (r : RegName) (l : Nat) : (w.mend r l).rstack = w.rstack := by
  unfold Wave.mend; split <;> rfl
@[simp] theorem Wave.mend_round (w : Wave) (r : RegName) (l : Nat) : (w.mend r l).round = w.round := by
  unfold Wave.mend; split <;> rfl
@[simp] theorem Wave.mend_lt (w : Wave) (r : RegName) (l : Nat) : (w.mend r l).lt = w.lt := by
  unfold Wave.mend; split <;> rfl
@[simp] theorem Wave.mend_retired (w : Wave) (r : RegName) (l : Nat) : (w.mend r l).retired = w.retired := by
  unfold Wave.mend; split <;> rfl
@[simp] theorem Wave.mend_roundEnded (w : Wave) (r : RegName) (l : Nat) : (w.mend r l).roundEnded = w.roundEnded := by
  unfold Wave.mend; split <;> rfl
@[simp] theorem Wave.mend_buffer (w : Wave) (r : RegName) (l : Nat) : (w.mend r l).buffer = w.buffer := by
  unfold Wave.mend; split <;> rfl
@[simp] theorem Wave.mend_redo (w : Wave) (r : RegName) (l : Nat) : (w.mend r l).redo = w.redo := by
  unfold Wave.mend; split <;> rfl
@[simp] theorem Wave.mend_laneStores (w : Wave) (r : RegName) (l : Nat) : (w.mend r l).laneStores = w.laneStores := by
  unfold Wave.mend; split <;> rfl
@[simp] theorem Wave.mend_bellSplit (w : Wave) (r : RegName) (l : Nat) : (w.mend r l).bellSplit = w.bellSplit := by
  unfold Wave.mend; split <;> rfl
@[simp] theorem Wave.mend_sleep (w : Wave) (r : RegName) (l : Nat) : (w.mend r l).sleep = w.sleep := by
  unfold Wave.mend; split <;> rfl
@[simp] theorem Wave.mend_life (w : Wave) (r : RegName) (l : Nat) : (w.mend r l).life = w.life := by
  unfold Wave.mend; split <;> rfl
@[simp] theorem Wave.mend_resumeAt (w : Wave) (r : RegName) (l : Nat) : (w.mend r l).resumeAt = w.resumeAt := by
  unfold Wave.mend; split <;> rfl
@[simp] theorem Wave.mend_stopped (w : Wave) (r : RegName) (l : Nat) : (w.mend r l).stopped = w.stopped := by
  unfold Wave.mend; split <;> rfl
@[simp] theorem Wave.mend_pending (w : Wave) (r : RegName) (l : Nat) : (w.mend r l).pending = w.pending := by
  unfold Wave.mend; split <;> rfl
@[simp] theorem Wave.mend_spillFrame (w : Wave) (r : RegName) (l : Nat) : (w.mend r l).spillFrame = w.spillFrame := by
  unfold Wave.mend; split <;> rfl
@[simp] theorem Wave.mend_saveDue (w : Wave) (r : RegName) (l : Nat) : (w.mend r l).saveDue = w.saveDue := by
  unfold Wave.mend; split <;> rfl
@[simp] theorem Wave.mend_yielded (w : Wave) (r : RegName) (l : Nat) : (w.mend r l).yielded = w.yielded := by
  unfold Wave.mend; split <;> rfl
@[simp] theorem Wave.mend_nextSplit (w : Wave) (r : RegName) (l : Nat) : (w.mend r l).nextSplit = w.nextSplit := by
  unfold Wave.mend; split <;> rfl
@[simp] theorem Wave.mend_begun (w : Wave) (r : RegName) (l : Nat) : (w.mend r l).begun = w.begun := by
  unfold Wave.mend; split <;> rfl
@[simp] theorem Wave.mend_missed (w : Wave) (r : RegName) (l : Nat) : (w.mend r l).missed = w.missed := by
  unfold Wave.mend; split <;> rfl
@[simp] theorem Wave.setV_owner (w : Wave) (n l : Nat) (x : W32) : (w.setV n l x).owner = w.owner := by
  simp [Wave.setV]
@[simp] theorem Wave.setV_launch (w : Wave) (n l : Nat) (x : W32) : (w.setV n l x).launch = w.launch := by
  simp [Wave.setV]
@[simp] theorem Wave.setV_team (w : Wave) (n l : Nat) (x : W32) : (w.setV n l x).team = w.team := by
  simp [Wave.setV]
@[simp] theorem Wave.setV_index (w : Wave) (n l : Nat) (x : W32) : (w.setV n l x).index = w.index := by
  simp [Wave.setV]
@[simp] theorem Wave.setV_role (w : Wave) (n l : Nat) (x : W32) : (w.setV n l x).role = w.role := by
  simp [Wave.setV]
@[simp] theorem Wave.setV_task (w : Wave) (n l : Nat) (x : W32) : (w.setV n l x).task = w.task := by
  simp [Wave.setV]
@[simp] theorem Wave.setV_drover (w : Wave) (n l : Nat) (x : W32) : (w.setV n l x).drover = w.drover := by
  simp [Wave.setV]
@[simp] theorem Wave.setV_emask (w : Wave) (n l : Nat) (x : W32) : (w.setV n l x).emask = w.emask := by
  simp [Wave.setV]
@[simp] theorem Wave.setV_widBase (w : Wave) (n l : Nat) (x : W32) : (w.setV n l x).widBase = w.widBase := by
  simp [Wave.setV]
@[simp] theorem Wave.setV_taskIndex (w : Wave) (n l : Nat) (x : W32) : (w.setV n l x).taskIndex = w.taskIndex := by
  simp [Wave.setV]
@[simp] theorem Wave.setV_depths (w : Wave) (n l : Nat) (x : W32) : (w.setV n l x).depths = w.depths := by
  simp [Wave.setV]
@[simp] theorem Wave.setV_depth (w : Wave) (n l : Nat) (x : W32) : (w.setV n l x).depth = w.depth := by
  simp [Wave.setV]
@[simp] theorem Wave.setV_units (w : Wave) (n l : Nat) (x : W32) : (w.setV n l x).units = w.units := by
  simp [Wave.setV]
@[simp] theorem Wave.setV_o (w : Wave) (n l : Nat) (x : W32) : (w.setV n l x).o = w.o := by
  simp [Wave.setV]
@[simp] theorem Wave.setV_latch (w : Wave) (n l : Nat) (x : W32) : (w.setV n l x).latch = w.latch := by
  simp [Wave.setV]
@[simp] theorem Wave.setV_s (w : Wave) (n l : Nat) (x : W32) : (w.setV n l x).s = w.s := by
  simp [Wave.setV]
@[simp] theorem Wave.setV_p (w : Wave) (n l : Nat) (x : W32) : (w.setV n l x).p = w.p := by
  simp [Wave.setV]
@[simp] theorem Wave.setV_busy (w : Wave) (n l : Nat) (x : W32) : (w.setV n l x).busy = w.busy := by
  simp [Wave.setV]
@[simp] theorem Wave.setV_tokenErrors (w : Wave) (n l : Nat) (x : W32) : (w.setV n l x).tokenErrors = w.tokenErrors := by
  simp [Wave.setV]
@[simp] theorem Wave.setV_chains (w : Wave) (n l : Nat) (x : W32) : (w.setV n l x).chains = w.chains := by
  simp [Wave.setV]
@[simp] theorem Wave.setV_splits (w : Wave) (n l : Nat) (x : W32) : (w.setV n l x).splits = w.splits := by
  simp [Wave.setV]
@[simp] theorem Wave.setV_fstat (w : Wave) (n l : Nat) (x : W32) : (w.setV n l x).fstat = w.fstat := by
  simp [Wave.setV]
@[simp] theorem Wave.setV_hstat (w : Wave) (n l : Nat) (x : W32) : (w.setV n l x).hstat = w.hstat := by
  simp [Wave.setV]
@[simp] theorem Wave.setV_fabs (w : Wave) (n l : Nat) (x : W32) : (w.setV n l x).fabs = w.fabs := by
  simp [Wave.setV]
@[simp] theorem Wave.setV_utvec (w : Wave) (n l : Nat) (x : W32) : (w.setV n l x).utvec = w.utvec := by
  simp [Wave.setV]
@[simp] theorem Wave.setV_trapArea (w : Wave) (n l : Nat) (x : W32) : (w.setV n l x).trapArea = w.trapArea := by
  simp [Wave.setV]
@[simp] theorem Wave.setV_trapCtx (w : Wave) (n l : Nat) (x : W32) : (w.setV n l x).trapCtx = w.trapCtx := by
  simp [Wave.setV]
@[simp] theorem Wave.setV_sysCtx (w : Wave) (n l : Nat) (x : W32) : (w.setV n l x).sysCtx = w.sysCtx := by
  simp [Wave.setV]
@[simp] theorem Wave.setV_hmode (w : Wave) (n l : Nat) (x : W32) : (w.setV n l x).hmode = w.hmode := by
  simp [Wave.setV]
@[simp] theorem Wave.setV_wp (w : Wave) (n l : Nat) (x : W32) : (w.setV n l x).wp = w.wp := by
  simp [Wave.setV]
@[simp] theorem Wave.setV_failedStp (w : Wave) (n l : Nat) (x : W32) : (w.setV n l x).failedStp = w.failedStp := by
  simp [Wave.setV]
@[simp] theorem Wave.setV_reserved (w : Wave) (n l : Nat) (x : W32) : (w.setV n l x).reserved = w.reserved := by
  simp [Wave.setV]
@[simp] theorem Wave.setV_holds (w : Wave) (n l : Nat) (x : W32) : (w.setV n l x).holds = w.holds := by
  simp [Wave.setV]
@[simp] theorem Wave.setV_rstack (w : Wave) (n l : Nat) (x : W32) : (w.setV n l x).rstack = w.rstack := by
  simp [Wave.setV]
@[simp] theorem Wave.setV_round (w : Wave) (n l : Nat) (x : W32) : (w.setV n l x).round = w.round := by
  simp [Wave.setV]
@[simp] theorem Wave.setV_lt (w : Wave) (n l : Nat) (x : W32) : (w.setV n l x).lt = w.lt := by
  simp [Wave.setV]
@[simp] theorem Wave.setV_retired (w : Wave) (n l : Nat) (x : W32) : (w.setV n l x).retired = w.retired := by
  simp [Wave.setV]
@[simp] theorem Wave.setV_roundEnded (w : Wave) (n l : Nat) (x : W32) : (w.setV n l x).roundEnded = w.roundEnded := by
  simp [Wave.setV]
@[simp] theorem Wave.setV_buffer (w : Wave) (n l : Nat) (x : W32) : (w.setV n l x).buffer = w.buffer := by
  simp [Wave.setV]
@[simp] theorem Wave.setV_redo (w : Wave) (n l : Nat) (x : W32) : (w.setV n l x).redo = w.redo := by
  simp [Wave.setV]
@[simp] theorem Wave.setV_laneStores (w : Wave) (n l : Nat) (x : W32) : (w.setV n l x).laneStores = w.laneStores := by
  simp [Wave.setV]
@[simp] theorem Wave.setV_bellSplit (w : Wave) (n l : Nat) (x : W32) : (w.setV n l x).bellSplit = w.bellSplit := by
  simp [Wave.setV]
@[simp] theorem Wave.setV_sleep (w : Wave) (n l : Nat) (x : W32) : (w.setV n l x).sleep = w.sleep := by
  simp [Wave.setV]
@[simp] theorem Wave.setV_life (w : Wave) (n l : Nat) (x : W32) : (w.setV n l x).life = w.life := by
  simp [Wave.setV]
@[simp] theorem Wave.setV_resumeAt (w : Wave) (n l : Nat) (x : W32) : (w.setV n l x).resumeAt = w.resumeAt := by
  simp [Wave.setV]
@[simp] theorem Wave.setV_stopped (w : Wave) (n l : Nat) (x : W32) : (w.setV n l x).stopped = w.stopped := by
  simp [Wave.setV]
@[simp] theorem Wave.setV_pending (w : Wave) (n l : Nat) (x : W32) : (w.setV n l x).pending = w.pending := by
  simp [Wave.setV]
@[simp] theorem Wave.setV_spillFrame (w : Wave) (n l : Nat) (x : W32) : (w.setV n l x).spillFrame = w.spillFrame := by
  simp [Wave.setV]
@[simp] theorem Wave.setV_saveDue (w : Wave) (n l : Nat) (x : W32) : (w.setV n l x).saveDue = w.saveDue := by
  simp [Wave.setV]
@[simp] theorem Wave.setV_yielded (w : Wave) (n l : Nat) (x : W32) : (w.setV n l x).yielded = w.yielded := by
  simp [Wave.setV]
@[simp] theorem Wave.setV_nextSplit (w : Wave) (n l : Nat) (x : W32) : (w.setV n l x).nextSplit = w.nextSplit := by
  simp [Wave.setV]
@[simp] theorem Wave.setV_begun (w : Wave) (n l : Nat) (x : W32) : (w.setV n l x).begun = w.begun := by
  simp [Wave.setV]
@[simp] theorem Wave.setV_missed (w : Wave) (n l : Nat) (x : W32) : (w.setV n l x).missed = w.missed := by
  simp [Wave.setV]
@[simp] theorem Wave.setO_owner (w : Wave) (n l : Nat) (x : W32) : (w.setO n l x).owner = w.owner := by
  simp [Wave.setO]
@[simp] theorem Wave.setO_launch (w : Wave) (n l : Nat) (x : W32) : (w.setO n l x).launch = w.launch := by
  simp [Wave.setO]
@[simp] theorem Wave.setO_team (w : Wave) (n l : Nat) (x : W32) : (w.setO n l x).team = w.team := by
  simp [Wave.setO]
@[simp] theorem Wave.setO_index (w : Wave) (n l : Nat) (x : W32) : (w.setO n l x).index = w.index := by
  simp [Wave.setO]
@[simp] theorem Wave.setO_role (w : Wave) (n l : Nat) (x : W32) : (w.setO n l x).role = w.role := by
  simp [Wave.setO]
@[simp] theorem Wave.setO_task (w : Wave) (n l : Nat) (x : W32) : (w.setO n l x).task = w.task := by
  simp [Wave.setO]
@[simp] theorem Wave.setO_drover (w : Wave) (n l : Nat) (x : W32) : (w.setO n l x).drover = w.drover := by
  simp [Wave.setO]
@[simp] theorem Wave.setO_emask (w : Wave) (n l : Nat) (x : W32) : (w.setO n l x).emask = w.emask := by
  simp [Wave.setO]
@[simp] theorem Wave.setO_widBase (w : Wave) (n l : Nat) (x : W32) : (w.setO n l x).widBase = w.widBase := by
  simp [Wave.setO]
@[simp] theorem Wave.setO_taskIndex (w : Wave) (n l : Nat) (x : W32) : (w.setO n l x).taskIndex = w.taskIndex := by
  simp [Wave.setO]
@[simp] theorem Wave.setO_depths (w : Wave) (n l : Nat) (x : W32) : (w.setO n l x).depths = w.depths := by
  simp [Wave.setO]
@[simp] theorem Wave.setO_depth (w : Wave) (n l : Nat) (x : W32) : (w.setO n l x).depth = w.depth := by
  simp [Wave.setO]
@[simp] theorem Wave.setO_units (w : Wave) (n l : Nat) (x : W32) : (w.setO n l x).units = w.units := by
  simp [Wave.setO]
@[simp] theorem Wave.setO_v (w : Wave) (n l : Nat) (x : W32) : (w.setO n l x).v = w.v := by
  simp [Wave.setO]
@[simp] theorem Wave.setO_latch (w : Wave) (n l : Nat) (x : W32) : (w.setO n l x).latch = w.latch := by
  simp [Wave.setO]
@[simp] theorem Wave.setO_s (w : Wave) (n l : Nat) (x : W32) : (w.setO n l x).s = w.s := by
  simp [Wave.setO]
@[simp] theorem Wave.setO_p (w : Wave) (n l : Nat) (x : W32) : (w.setO n l x).p = w.p := by
  simp [Wave.setO]
@[simp] theorem Wave.setO_busy (w : Wave) (n l : Nat) (x : W32) : (w.setO n l x).busy = w.busy := by
  simp [Wave.setO]
@[simp] theorem Wave.setO_tokenErrors (w : Wave) (n l : Nat) (x : W32) : (w.setO n l x).tokenErrors = w.tokenErrors := by
  simp [Wave.setO]
@[simp] theorem Wave.setO_chains (w : Wave) (n l : Nat) (x : W32) : (w.setO n l x).chains = w.chains := by
  simp [Wave.setO]
@[simp] theorem Wave.setO_splits (w : Wave) (n l : Nat) (x : W32) : (w.setO n l x).splits = w.splits := by
  simp [Wave.setO]
@[simp] theorem Wave.setO_fstat (w : Wave) (n l : Nat) (x : W32) : (w.setO n l x).fstat = w.fstat := by
  simp [Wave.setO]
@[simp] theorem Wave.setO_hstat (w : Wave) (n l : Nat) (x : W32) : (w.setO n l x).hstat = w.hstat := by
  simp [Wave.setO]
@[simp] theorem Wave.setO_fabs (w : Wave) (n l : Nat) (x : W32) : (w.setO n l x).fabs = w.fabs := by
  simp [Wave.setO]
@[simp] theorem Wave.setO_utvec (w : Wave) (n l : Nat) (x : W32) : (w.setO n l x).utvec = w.utvec := by
  simp [Wave.setO]
@[simp] theorem Wave.setO_trapArea (w : Wave) (n l : Nat) (x : W32) : (w.setO n l x).trapArea = w.trapArea := by
  simp [Wave.setO]
@[simp] theorem Wave.setO_trapCtx (w : Wave) (n l : Nat) (x : W32) : (w.setO n l x).trapCtx = w.trapCtx := by
  simp [Wave.setO]
@[simp] theorem Wave.setO_sysCtx (w : Wave) (n l : Nat) (x : W32) : (w.setO n l x).sysCtx = w.sysCtx := by
  simp [Wave.setO]
@[simp] theorem Wave.setO_hmode (w : Wave) (n l : Nat) (x : W32) : (w.setO n l x).hmode = w.hmode := by
  simp [Wave.setO]
@[simp] theorem Wave.setO_wp (w : Wave) (n l : Nat) (x : W32) : (w.setO n l x).wp = w.wp := by
  simp [Wave.setO]
@[simp] theorem Wave.setO_failedStp (w : Wave) (n l : Nat) (x : W32) : (w.setO n l x).failedStp = w.failedStp := by
  simp [Wave.setO]
@[simp] theorem Wave.setO_reserved (w : Wave) (n l : Nat) (x : W32) : (w.setO n l x).reserved = w.reserved := by
  simp [Wave.setO]
@[simp] theorem Wave.setO_holds (w : Wave) (n l : Nat) (x : W32) : (w.setO n l x).holds = w.holds := by
  simp [Wave.setO]
@[simp] theorem Wave.setO_rstack (w : Wave) (n l : Nat) (x : W32) : (w.setO n l x).rstack = w.rstack := by
  simp [Wave.setO]
@[simp] theorem Wave.setO_round (w : Wave) (n l : Nat) (x : W32) : (w.setO n l x).round = w.round := by
  simp [Wave.setO]
@[simp] theorem Wave.setO_lt (w : Wave) (n l : Nat) (x : W32) : (w.setO n l x).lt = w.lt := by
  simp [Wave.setO]
@[simp] theorem Wave.setO_retired (w : Wave) (n l : Nat) (x : W32) : (w.setO n l x).retired = w.retired := by
  simp [Wave.setO]
@[simp] theorem Wave.setO_roundEnded (w : Wave) (n l : Nat) (x : W32) : (w.setO n l x).roundEnded = w.roundEnded := by
  simp [Wave.setO]
@[simp] theorem Wave.setO_buffer (w : Wave) (n l : Nat) (x : W32) : (w.setO n l x).buffer = w.buffer := by
  simp [Wave.setO]
@[simp] theorem Wave.setO_redo (w : Wave) (n l : Nat) (x : W32) : (w.setO n l x).redo = w.redo := by
  simp [Wave.setO]
@[simp] theorem Wave.setO_laneStores (w : Wave) (n l : Nat) (x : W32) : (w.setO n l x).laneStores = w.laneStores := by
  simp [Wave.setO]
@[simp] theorem Wave.setO_bellSplit (w : Wave) (n l : Nat) (x : W32) : (w.setO n l x).bellSplit = w.bellSplit := by
  simp [Wave.setO]
@[simp] theorem Wave.setO_sleep (w : Wave) (n l : Nat) (x : W32) : (w.setO n l x).sleep = w.sleep := by
  simp [Wave.setO]
@[simp] theorem Wave.setO_life (w : Wave) (n l : Nat) (x : W32) : (w.setO n l x).life = w.life := by
  simp [Wave.setO]
@[simp] theorem Wave.setO_resumeAt (w : Wave) (n l : Nat) (x : W32) : (w.setO n l x).resumeAt = w.resumeAt := by
  simp [Wave.setO]
@[simp] theorem Wave.setO_stopped (w : Wave) (n l : Nat) (x : W32) : (w.setO n l x).stopped = w.stopped := by
  simp [Wave.setO]
@[simp] theorem Wave.setO_pending (w : Wave) (n l : Nat) (x : W32) : (w.setO n l x).pending = w.pending := by
  simp [Wave.setO]
@[simp] theorem Wave.setO_spillFrame (w : Wave) (n l : Nat) (x : W32) : (w.setO n l x).spillFrame = w.spillFrame := by
  simp [Wave.setO]
@[simp] theorem Wave.setO_saveDue (w : Wave) (n l : Nat) (x : W32) : (w.setO n l x).saveDue = w.saveDue := by
  simp [Wave.setO]
@[simp] theorem Wave.setO_yielded (w : Wave) (n l : Nat) (x : W32) : (w.setO n l x).yielded = w.yielded := by
  simp [Wave.setO]
@[simp] theorem Wave.setO_nextSplit (w : Wave) (n l : Nat) (x : W32) : (w.setO n l x).nextSplit = w.nextSplit := by
  simp [Wave.setO]
@[simp] theorem Wave.setO_begun (w : Wave) (n l : Nat) (x : W32) : (w.setO n l x).begun = w.begun := by
  simp [Wave.setO]
@[simp] theorem Wave.setO_missed (w : Wave) (n l : Nat) (x : W32) : (w.setO n l x).missed = w.missed := by
  simp [Wave.setO]
@[simp] theorem Wave.setL_owner (w : Wave) (l : Nat) (x : W64) : (w.setL l x).owner = w.owner := by
  simp [Wave.setL]
@[simp] theorem Wave.setL_launch (w : Wave) (l : Nat) (x : W64) : (w.setL l x).launch = w.launch := by
  simp [Wave.setL]
@[simp] theorem Wave.setL_team (w : Wave) (l : Nat) (x : W64) : (w.setL l x).team = w.team := by
  simp [Wave.setL]
@[simp] theorem Wave.setL_index (w : Wave) (l : Nat) (x : W64) : (w.setL l x).index = w.index := by
  simp [Wave.setL]
@[simp] theorem Wave.setL_role (w : Wave) (l : Nat) (x : W64) : (w.setL l x).role = w.role := by
  simp [Wave.setL]
@[simp] theorem Wave.setL_task (w : Wave) (l : Nat) (x : W64) : (w.setL l x).task = w.task := by
  simp [Wave.setL]
@[simp] theorem Wave.setL_drover (w : Wave) (l : Nat) (x : W64) : (w.setL l x).drover = w.drover := by
  simp [Wave.setL]
@[simp] theorem Wave.setL_emask (w : Wave) (l : Nat) (x : W64) : (w.setL l x).emask = w.emask := by
  simp [Wave.setL]
@[simp] theorem Wave.setL_widBase (w : Wave) (l : Nat) (x : W64) : (w.setL l x).widBase = w.widBase := by
  simp [Wave.setL]
@[simp] theorem Wave.setL_taskIndex (w : Wave) (l : Nat) (x : W64) : (w.setL l x).taskIndex = w.taskIndex := by
  simp [Wave.setL]
@[simp] theorem Wave.setL_depths (w : Wave) (l : Nat) (x : W64) : (w.setL l x).depths = w.depths := by
  simp [Wave.setL]
@[simp] theorem Wave.setL_depth (w : Wave) (l : Nat) (x : W64) : (w.setL l x).depth = w.depth := by
  simp [Wave.setL]
@[simp] theorem Wave.setL_units (w : Wave) (l : Nat) (x : W64) : (w.setL l x).units = w.units := by
  simp [Wave.setL]
@[simp] theorem Wave.setL_v (w : Wave) (l : Nat) (x : W64) : (w.setL l x).v = w.v := by
  simp [Wave.setL]
@[simp] theorem Wave.setL_o (w : Wave) (l : Nat) (x : W64) : (w.setL l x).o = w.o := by
  simp [Wave.setL]
@[simp] theorem Wave.setL_s (w : Wave) (l : Nat) (x : W64) : (w.setL l x).s = w.s := by
  simp [Wave.setL]
@[simp] theorem Wave.setL_p (w : Wave) (l : Nat) (x : W64) : (w.setL l x).p = w.p := by
  simp [Wave.setL]
@[simp] theorem Wave.setL_busy (w : Wave) (l : Nat) (x : W64) : (w.setL l x).busy = w.busy := by
  simp [Wave.setL]
@[simp] theorem Wave.setL_tokenErrors (w : Wave) (l : Nat) (x : W64) : (w.setL l x).tokenErrors = w.tokenErrors := by
  simp [Wave.setL]
@[simp] theorem Wave.setL_chains (w : Wave) (l : Nat) (x : W64) : (w.setL l x).chains = w.chains := by
  simp [Wave.setL]
@[simp] theorem Wave.setL_splits (w : Wave) (l : Nat) (x : W64) : (w.setL l x).splits = w.splits := by
  simp [Wave.setL]
@[simp] theorem Wave.setL_fstat (w : Wave) (l : Nat) (x : W64) : (w.setL l x).fstat = w.fstat := by
  simp [Wave.setL]
@[simp] theorem Wave.setL_hstat (w : Wave) (l : Nat) (x : W64) : (w.setL l x).hstat = w.hstat := by
  simp [Wave.setL]
@[simp] theorem Wave.setL_fabs (w : Wave) (l : Nat) (x : W64) : (w.setL l x).fabs = w.fabs := by
  simp [Wave.setL]
@[simp] theorem Wave.setL_utvec (w : Wave) (l : Nat) (x : W64) : (w.setL l x).utvec = w.utvec := by
  simp [Wave.setL]
@[simp] theorem Wave.setL_trapArea (w : Wave) (l : Nat) (x : W64) : (w.setL l x).trapArea = w.trapArea := by
  simp [Wave.setL]
@[simp] theorem Wave.setL_trapCtx (w : Wave) (l : Nat) (x : W64) : (w.setL l x).trapCtx = w.trapCtx := by
  simp [Wave.setL]
@[simp] theorem Wave.setL_sysCtx (w : Wave) (l : Nat) (x : W64) : (w.setL l x).sysCtx = w.sysCtx := by
  simp [Wave.setL]
@[simp] theorem Wave.setL_hmode (w : Wave) (l : Nat) (x : W64) : (w.setL l x).hmode = w.hmode := by
  simp [Wave.setL]
@[simp] theorem Wave.setL_wp (w : Wave) (l : Nat) (x : W64) : (w.setL l x).wp = w.wp := by
  simp [Wave.setL]
@[simp] theorem Wave.setL_failedStp (w : Wave) (l : Nat) (x : W64) : (w.setL l x).failedStp = w.failedStp := by
  simp [Wave.setL]
@[simp] theorem Wave.setL_reserved (w : Wave) (l : Nat) (x : W64) : (w.setL l x).reserved = w.reserved := by
  simp [Wave.setL]
@[simp] theorem Wave.setL_holds (w : Wave) (l : Nat) (x : W64) : (w.setL l x).holds = w.holds := by
  simp [Wave.setL]
@[simp] theorem Wave.setL_rstack (w : Wave) (l : Nat) (x : W64) : (w.setL l x).rstack = w.rstack := by
  simp [Wave.setL]
@[simp] theorem Wave.setL_round (w : Wave) (l : Nat) (x : W64) : (w.setL l x).round = w.round := by
  simp [Wave.setL]
@[simp] theorem Wave.setL_lt (w : Wave) (l : Nat) (x : W64) : (w.setL l x).lt = w.lt := by
  simp [Wave.setL]
@[simp] theorem Wave.setL_retired (w : Wave) (l : Nat) (x : W64) : (w.setL l x).retired = w.retired := by
  simp [Wave.setL]
@[simp] theorem Wave.setL_roundEnded (w : Wave) (l : Nat) (x : W64) : (w.setL l x).roundEnded = w.roundEnded := by
  simp [Wave.setL]
@[simp] theorem Wave.setL_buffer (w : Wave) (l : Nat) (x : W64) : (w.setL l x).buffer = w.buffer := by
  simp [Wave.setL]
@[simp] theorem Wave.setL_redo (w : Wave) (l : Nat) (x : W64) : (w.setL l x).redo = w.redo := by
  simp [Wave.setL]
@[simp] theorem Wave.setL_laneStores (w : Wave) (l : Nat) (x : W64) : (w.setL l x).laneStores = w.laneStores := by
  simp [Wave.setL]
@[simp] theorem Wave.setL_bellSplit (w : Wave) (l : Nat) (x : W64) : (w.setL l x).bellSplit = w.bellSplit := by
  simp [Wave.setL]
@[simp] theorem Wave.setL_sleep (w : Wave) (l : Nat) (x : W64) : (w.setL l x).sleep = w.sleep := by
  simp [Wave.setL]
@[simp] theorem Wave.setL_life (w : Wave) (l : Nat) (x : W64) : (w.setL l x).life = w.life := by
  simp [Wave.setL]
@[simp] theorem Wave.setL_resumeAt (w : Wave) (l : Nat) (x : W64) : (w.setL l x).resumeAt = w.resumeAt := by
  simp [Wave.setL]
@[simp] theorem Wave.setL_stopped (w : Wave) (l : Nat) (x : W64) : (w.setL l x).stopped = w.stopped := by
  simp [Wave.setL]
@[simp] theorem Wave.setL_pending (w : Wave) (l : Nat) (x : W64) : (w.setL l x).pending = w.pending := by
  simp [Wave.setL]
@[simp] theorem Wave.setL_spillFrame (w : Wave) (l : Nat) (x : W64) : (w.setL l x).spillFrame = w.spillFrame := by
  simp [Wave.setL]
@[simp] theorem Wave.setL_saveDue (w : Wave) (l : Nat) (x : W64) : (w.setL l x).saveDue = w.saveDue := by
  simp [Wave.setL]
@[simp] theorem Wave.setL_yielded (w : Wave) (l : Nat) (x : W64) : (w.setL l x).yielded = w.yielded := by
  simp [Wave.setL]
@[simp] theorem Wave.setL_nextSplit (w : Wave) (l : Nat) (x : W64) : (w.setL l x).nextSplit = w.nextSplit := by
  simp [Wave.setL]
@[simp] theorem Wave.setL_begun (w : Wave) (l : Nat) (x : W64) : (w.setL l x).begun = w.begun := by
  simp [Wave.setL]
@[simp] theorem Wave.setL_missed (w : Wave) (l : Nat) (x : W64) : (w.setL l x).missed = w.missed := by
  simp [Wave.setL]
@[simp] theorem Wave.setS_owner (w : Wave) (n : Nat) (x : W64) : (w.setS n x).owner = w.owner := by
  simp [Wave.setS]
@[simp] theorem Wave.setS_launch (w : Wave) (n : Nat) (x : W64) : (w.setS n x).launch = w.launch := by
  simp [Wave.setS]
@[simp] theorem Wave.setS_team (w : Wave) (n : Nat) (x : W64) : (w.setS n x).team = w.team := by
  simp [Wave.setS]
@[simp] theorem Wave.setS_index (w : Wave) (n : Nat) (x : W64) : (w.setS n x).index = w.index := by
  simp [Wave.setS]
@[simp] theorem Wave.setS_role (w : Wave) (n : Nat) (x : W64) : (w.setS n x).role = w.role := by
  simp [Wave.setS]
@[simp] theorem Wave.setS_task (w : Wave) (n : Nat) (x : W64) : (w.setS n x).task = w.task := by
  simp [Wave.setS]
@[simp] theorem Wave.setS_drover (w : Wave) (n : Nat) (x : W64) : (w.setS n x).drover = w.drover := by
  simp [Wave.setS]
@[simp] theorem Wave.setS_emask (w : Wave) (n : Nat) (x : W64) : (w.setS n x).emask = w.emask := by
  simp [Wave.setS]
@[simp] theorem Wave.setS_widBase (w : Wave) (n : Nat) (x : W64) : (w.setS n x).widBase = w.widBase := by
  simp [Wave.setS]
@[simp] theorem Wave.setS_taskIndex (w : Wave) (n : Nat) (x : W64) : (w.setS n x).taskIndex = w.taskIndex := by
  simp [Wave.setS]
@[simp] theorem Wave.setS_depths (w : Wave) (n : Nat) (x : W64) : (w.setS n x).depths = w.depths := by
  simp [Wave.setS]
@[simp] theorem Wave.setS_depth (w : Wave) (n : Nat) (x : W64) : (w.setS n x).depth = w.depth := by
  simp [Wave.setS]
@[simp] theorem Wave.setS_units (w : Wave) (n : Nat) (x : W64) : (w.setS n x).units = w.units := by
  simp [Wave.setS]
@[simp] theorem Wave.setS_v (w : Wave) (n : Nat) (x : W64) : (w.setS n x).v = w.v := by
  simp [Wave.setS]
@[simp] theorem Wave.setS_o (w : Wave) (n : Nat) (x : W64) : (w.setS n x).o = w.o := by
  simp [Wave.setS]
@[simp] theorem Wave.setS_latch (w : Wave) (n : Nat) (x : W64) : (w.setS n x).latch = w.latch := by
  simp [Wave.setS]
@[simp] theorem Wave.setS_p (w : Wave) (n : Nat) (x : W64) : (w.setS n x).p = w.p := by
  simp [Wave.setS]
@[simp] theorem Wave.setS_busy (w : Wave) (n : Nat) (x : W64) : (w.setS n x).busy = w.busy := by
  simp [Wave.setS]
@[simp] theorem Wave.setS_tokenErrors (w : Wave) (n : Nat) (x : W64) : (w.setS n x).tokenErrors = w.tokenErrors := by
  simp [Wave.setS]
@[simp] theorem Wave.setS_chains (w : Wave) (n : Nat) (x : W64) : (w.setS n x).chains = w.chains := by
  simp [Wave.setS]
@[simp] theorem Wave.setS_splits (w : Wave) (n : Nat) (x : W64) : (w.setS n x).splits = w.splits := by
  simp [Wave.setS]
@[simp] theorem Wave.setS_fstat (w : Wave) (n : Nat) (x : W64) : (w.setS n x).fstat = w.fstat := by
  simp [Wave.setS]
@[simp] theorem Wave.setS_hstat (w : Wave) (n : Nat) (x : W64) : (w.setS n x).hstat = w.hstat := by
  simp [Wave.setS]
@[simp] theorem Wave.setS_fabs (w : Wave) (n : Nat) (x : W64) : (w.setS n x).fabs = w.fabs := by
  simp [Wave.setS]
@[simp] theorem Wave.setS_utvec (w : Wave) (n : Nat) (x : W64) : (w.setS n x).utvec = w.utvec := by
  simp [Wave.setS]
@[simp] theorem Wave.setS_trapArea (w : Wave) (n : Nat) (x : W64) : (w.setS n x).trapArea = w.trapArea := by
  simp [Wave.setS]
@[simp] theorem Wave.setS_trapCtx (w : Wave) (n : Nat) (x : W64) : (w.setS n x).trapCtx = w.trapCtx := by
  simp [Wave.setS]
@[simp] theorem Wave.setS_sysCtx (w : Wave) (n : Nat) (x : W64) : (w.setS n x).sysCtx = w.sysCtx := by
  simp [Wave.setS]
@[simp] theorem Wave.setS_hmode (w : Wave) (n : Nat) (x : W64) : (w.setS n x).hmode = w.hmode := by
  simp [Wave.setS]
@[simp] theorem Wave.setS_wp (w : Wave) (n : Nat) (x : W64) : (w.setS n x).wp = w.wp := by
  simp [Wave.setS]
@[simp] theorem Wave.setS_failedStp (w : Wave) (n : Nat) (x : W64) : (w.setS n x).failedStp = w.failedStp := by
  simp [Wave.setS]
@[simp] theorem Wave.setS_reserved (w : Wave) (n : Nat) (x : W64) : (w.setS n x).reserved = w.reserved := by
  simp [Wave.setS]
@[simp] theorem Wave.setS_holds (w : Wave) (n : Nat) (x : W64) : (w.setS n x).holds = w.holds := by
  simp [Wave.setS]
@[simp] theorem Wave.setS_rstack (w : Wave) (n : Nat) (x : W64) : (w.setS n x).rstack = w.rstack := by
  simp [Wave.setS]
@[simp] theorem Wave.setS_round (w : Wave) (n : Nat) (x : W64) : (w.setS n x).round = w.round := by
  simp [Wave.setS]
@[simp] theorem Wave.setS_lt (w : Wave) (n : Nat) (x : W64) : (w.setS n x).lt = w.lt := by
  simp [Wave.setS]
@[simp] theorem Wave.setS_retired (w : Wave) (n : Nat) (x : W64) : (w.setS n x).retired = w.retired := by
  simp [Wave.setS]
@[simp] theorem Wave.setS_roundEnded (w : Wave) (n : Nat) (x : W64) : (w.setS n x).roundEnded = w.roundEnded := by
  simp [Wave.setS]
@[simp] theorem Wave.setS_buffer (w : Wave) (n : Nat) (x : W64) : (w.setS n x).buffer = w.buffer := by
  simp [Wave.setS]
@[simp] theorem Wave.setS_redo (w : Wave) (n : Nat) (x : W64) : (w.setS n x).redo = w.redo := by
  simp [Wave.setS]
@[simp] theorem Wave.setS_laneStores (w : Wave) (n : Nat) (x : W64) : (w.setS n x).laneStores = w.laneStores := by
  simp [Wave.setS]
@[simp] theorem Wave.setS_bellSplit (w : Wave) (n : Nat) (x : W64) : (w.setS n x).bellSplit = w.bellSplit := by
  simp [Wave.setS]
@[simp] theorem Wave.setS_sleep (w : Wave) (n : Nat) (x : W64) : (w.setS n x).sleep = w.sleep := by
  simp [Wave.setS]
@[simp] theorem Wave.setS_life (w : Wave) (n : Nat) (x : W64) : (w.setS n x).life = w.life := by
  simp [Wave.setS]
@[simp] theorem Wave.setS_resumeAt (w : Wave) (n : Nat) (x : W64) : (w.setS n x).resumeAt = w.resumeAt := by
  simp [Wave.setS]
@[simp] theorem Wave.setS_stopped (w : Wave) (n : Nat) (x : W64) : (w.setS n x).stopped = w.stopped := by
  simp [Wave.setS]
@[simp] theorem Wave.setS_pending (w : Wave) (n : Nat) (x : W64) : (w.setS n x).pending = w.pending := by
  simp [Wave.setS]
@[simp] theorem Wave.setS_spillFrame (w : Wave) (n : Nat) (x : W64) : (w.setS n x).spillFrame = w.spillFrame := by
  simp [Wave.setS]
@[simp] theorem Wave.setS_saveDue (w : Wave) (n : Nat) (x : W64) : (w.setS n x).saveDue = w.saveDue := by
  simp [Wave.setS]
@[simp] theorem Wave.setS_yielded (w : Wave) (n : Nat) (x : W64) : (w.setS n x).yielded = w.yielded := by
  simp [Wave.setS]
@[simp] theorem Wave.setS_nextSplit (w : Wave) (n : Nat) (x : W64) : (w.setS n x).nextSplit = w.nextSplit := by
  simp [Wave.setS]
@[simp] theorem Wave.setS_begun (w : Wave) (n : Nat) (x : W64) : (w.setS n x).begun = w.begun := by
  simp [Wave.setS]
@[simp] theorem Wave.setS_missed (w : Wave) (n : Nat) (x : W64) : (w.setS n x).missed = w.missed := by
  simp [Wave.setS]
@[simp] theorem Wave.setP_owner (w : Wave) (n : Nat) (x : W32) : (w.setP n x).owner = w.owner := by
  unfold Wave.setP; split <;> simp
@[simp] theorem Wave.setPbit_owner (w : Wave) (n l : Nat) (b : Bool) : (w.setPbit n l b).owner = w.owner := by
  simp [Wave.setPbit]
@[simp] theorem Wave.writePred_owner (w : Wave) (d : Operand) (l : Nat) (b : Bool) : (w.writePred d l b).owner = w.owner := by
  cases d <;> simp [Wave.writePred]
@[simp] theorem Wave.setP_launch (w : Wave) (n : Nat) (x : W32) : (w.setP n x).launch = w.launch := by
  unfold Wave.setP; split <;> simp
@[simp] theorem Wave.setPbit_launch (w : Wave) (n l : Nat) (b : Bool) : (w.setPbit n l b).launch = w.launch := by
  simp [Wave.setPbit]
@[simp] theorem Wave.writePred_launch (w : Wave) (d : Operand) (l : Nat) (b : Bool) : (w.writePred d l b).launch = w.launch := by
  cases d <;> simp [Wave.writePred]
@[simp] theorem Wave.setP_team (w : Wave) (n : Nat) (x : W32) : (w.setP n x).team = w.team := by
  unfold Wave.setP; split <;> simp
@[simp] theorem Wave.setPbit_team (w : Wave) (n l : Nat) (b : Bool) : (w.setPbit n l b).team = w.team := by
  simp [Wave.setPbit]
@[simp] theorem Wave.writePred_team (w : Wave) (d : Operand) (l : Nat) (b : Bool) : (w.writePred d l b).team = w.team := by
  cases d <;> simp [Wave.writePred]
@[simp] theorem Wave.setP_index (w : Wave) (n : Nat) (x : W32) : (w.setP n x).index = w.index := by
  unfold Wave.setP; split <;> simp
@[simp] theorem Wave.setPbit_index (w : Wave) (n l : Nat) (b : Bool) : (w.setPbit n l b).index = w.index := by
  simp [Wave.setPbit]
@[simp] theorem Wave.writePred_index (w : Wave) (d : Operand) (l : Nat) (b : Bool) : (w.writePred d l b).index = w.index := by
  cases d <;> simp [Wave.writePred]
@[simp] theorem Wave.setP_role (w : Wave) (n : Nat) (x : W32) : (w.setP n x).role = w.role := by
  unfold Wave.setP; split <;> simp
@[simp] theorem Wave.setPbit_role (w : Wave) (n l : Nat) (b : Bool) : (w.setPbit n l b).role = w.role := by
  simp [Wave.setPbit]
@[simp] theorem Wave.writePred_role (w : Wave) (d : Operand) (l : Nat) (b : Bool) : (w.writePred d l b).role = w.role := by
  cases d <;> simp [Wave.writePred]
@[simp] theorem Wave.setP_task (w : Wave) (n : Nat) (x : W32) : (w.setP n x).task = w.task := by
  unfold Wave.setP; split <;> simp
@[simp] theorem Wave.setPbit_task (w : Wave) (n l : Nat) (b : Bool) : (w.setPbit n l b).task = w.task := by
  simp [Wave.setPbit]
@[simp] theorem Wave.writePred_task (w : Wave) (d : Operand) (l : Nat) (b : Bool) : (w.writePred d l b).task = w.task := by
  cases d <;> simp [Wave.writePred]
@[simp] theorem Wave.setP_drover (w : Wave) (n : Nat) (x : W32) : (w.setP n x).drover = w.drover := by
  unfold Wave.setP; split <;> simp
@[simp] theorem Wave.setPbit_drover (w : Wave) (n l : Nat) (b : Bool) : (w.setPbit n l b).drover = w.drover := by
  simp [Wave.setPbit]
@[simp] theorem Wave.writePred_drover (w : Wave) (d : Operand) (l : Nat) (b : Bool) : (w.writePred d l b).drover = w.drover := by
  cases d <;> simp [Wave.writePred]
@[simp] theorem Wave.setP_emask (w : Wave) (n : Nat) (x : W32) : (w.setP n x).emask = w.emask := by
  unfold Wave.setP; split <;> simp
@[simp] theorem Wave.setPbit_emask (w : Wave) (n l : Nat) (b : Bool) : (w.setPbit n l b).emask = w.emask := by
  simp [Wave.setPbit]
@[simp] theorem Wave.writePred_emask (w : Wave) (d : Operand) (l : Nat) (b : Bool) : (w.writePred d l b).emask = w.emask := by
  cases d <;> simp [Wave.writePred]
@[simp] theorem Wave.setP_widBase (w : Wave) (n : Nat) (x : W32) : (w.setP n x).widBase = w.widBase := by
  unfold Wave.setP; split <;> simp
@[simp] theorem Wave.setPbit_widBase (w : Wave) (n l : Nat) (b : Bool) : (w.setPbit n l b).widBase = w.widBase := by
  simp [Wave.setPbit]
@[simp] theorem Wave.writePred_widBase (w : Wave) (d : Operand) (l : Nat) (b : Bool) : (w.writePred d l b).widBase = w.widBase := by
  cases d <;> simp [Wave.writePred]
@[simp] theorem Wave.setP_taskIndex (w : Wave) (n : Nat) (x : W32) : (w.setP n x).taskIndex = w.taskIndex := by
  unfold Wave.setP; split <;> simp
@[simp] theorem Wave.setPbit_taskIndex (w : Wave) (n l : Nat) (b : Bool) : (w.setPbit n l b).taskIndex = w.taskIndex := by
  simp [Wave.setPbit]
@[simp] theorem Wave.writePred_taskIndex (w : Wave) (d : Operand) (l : Nat) (b : Bool) : (w.writePred d l b).taskIndex = w.taskIndex := by
  cases d <;> simp [Wave.writePred]
@[simp] theorem Wave.setP_depths (w : Wave) (n : Nat) (x : W32) : (w.setP n x).depths = w.depths := by
  unfold Wave.setP; split <;> simp
@[simp] theorem Wave.setPbit_depths (w : Wave) (n l : Nat) (b : Bool) : (w.setPbit n l b).depths = w.depths := by
  simp [Wave.setPbit]
@[simp] theorem Wave.writePred_depths (w : Wave) (d : Operand) (l : Nat) (b : Bool) : (w.writePred d l b).depths = w.depths := by
  cases d <;> simp [Wave.writePred]
@[simp] theorem Wave.setP_depth (w : Wave) (n : Nat) (x : W32) : (w.setP n x).depth = w.depth := by
  unfold Wave.setP; split <;> simp
@[simp] theorem Wave.setPbit_depth (w : Wave) (n l : Nat) (b : Bool) : (w.setPbit n l b).depth = w.depth := by
  simp [Wave.setPbit]
@[simp] theorem Wave.writePred_depth (w : Wave) (d : Operand) (l : Nat) (b : Bool) : (w.writePred d l b).depth = w.depth := by
  cases d <;> simp [Wave.writePred]
@[simp] theorem Wave.setP_units (w : Wave) (n : Nat) (x : W32) : (w.setP n x).units = w.units := by
  unfold Wave.setP; split <;> simp
@[simp] theorem Wave.setPbit_units (w : Wave) (n l : Nat) (b : Bool) : (w.setPbit n l b).units = w.units := by
  simp [Wave.setPbit]
@[simp] theorem Wave.writePred_units (w : Wave) (d : Operand) (l : Nat) (b : Bool) : (w.writePred d l b).units = w.units := by
  cases d <;> simp [Wave.writePred]
@[simp] theorem Wave.setP_v (w : Wave) (n : Nat) (x : W32) : (w.setP n x).v = w.v := by
  unfold Wave.setP; split <;> simp
@[simp] theorem Wave.setPbit_v (w : Wave) (n l : Nat) (b : Bool) : (w.setPbit n l b).v = w.v := by
  simp [Wave.setPbit]
@[simp] theorem Wave.writePred_v (w : Wave) (d : Operand) (l : Nat) (b : Bool) : (w.writePred d l b).v = w.v := by
  cases d <;> simp [Wave.writePred]
@[simp] theorem Wave.setP_o (w : Wave) (n : Nat) (x : W32) : (w.setP n x).o = w.o := by
  unfold Wave.setP; split <;> simp
@[simp] theorem Wave.setPbit_o (w : Wave) (n l : Nat) (b : Bool) : (w.setPbit n l b).o = w.o := by
  simp [Wave.setPbit]
@[simp] theorem Wave.writePred_o (w : Wave) (d : Operand) (l : Nat) (b : Bool) : (w.writePred d l b).o = w.o := by
  cases d <;> simp [Wave.writePred]
@[simp] theorem Wave.setP_latch (w : Wave) (n : Nat) (x : W32) : (w.setP n x).latch = w.latch := by
  unfold Wave.setP; split <;> simp
@[simp] theorem Wave.setPbit_latch (w : Wave) (n l : Nat) (b : Bool) : (w.setPbit n l b).latch = w.latch := by
  simp [Wave.setPbit]
@[simp] theorem Wave.writePred_latch (w : Wave) (d : Operand) (l : Nat) (b : Bool) : (w.writePred d l b).latch = w.latch := by
  cases d <;> simp [Wave.writePred]
@[simp] theorem Wave.setP_s (w : Wave) (n : Nat) (x : W32) : (w.setP n x).s = w.s := by
  unfold Wave.setP; split <;> simp
@[simp] theorem Wave.setPbit_s (w : Wave) (n l : Nat) (b : Bool) : (w.setPbit n l b).s = w.s := by
  simp [Wave.setPbit]
@[simp] theorem Wave.writePred_s (w : Wave) (d : Operand) (l : Nat) (b : Bool) : (w.writePred d l b).s = w.s := by
  cases d <;> simp [Wave.writePred]
@[simp] theorem Wave.setP_busy (w : Wave) (n : Nat) (x : W32) : (w.setP n x).busy = w.busy := by
  unfold Wave.setP; split <;> simp
@[simp] theorem Wave.setPbit_busy (w : Wave) (n l : Nat) (b : Bool) : (w.setPbit n l b).busy = w.busy := by
  simp [Wave.setPbit]
@[simp] theorem Wave.writePred_busy (w : Wave) (d : Operand) (l : Nat) (b : Bool) : (w.writePred d l b).busy = w.busy := by
  cases d <;> simp [Wave.writePred]
@[simp] theorem Wave.setP_tokenErrors (w : Wave) (n : Nat) (x : W32) : (w.setP n x).tokenErrors = w.tokenErrors := by
  unfold Wave.setP; split <;> simp
@[simp] theorem Wave.setPbit_tokenErrors (w : Wave) (n l : Nat) (b : Bool) : (w.setPbit n l b).tokenErrors = w.tokenErrors := by
  simp [Wave.setPbit]
@[simp] theorem Wave.writePred_tokenErrors (w : Wave) (d : Operand) (l : Nat) (b : Bool) : (w.writePred d l b).tokenErrors = w.tokenErrors := by
  cases d <;> simp [Wave.writePred]
@[simp] theorem Wave.setP_chains (w : Wave) (n : Nat) (x : W32) : (w.setP n x).chains = w.chains := by
  unfold Wave.setP; split <;> simp
@[simp] theorem Wave.setPbit_chains (w : Wave) (n l : Nat) (b : Bool) : (w.setPbit n l b).chains = w.chains := by
  simp [Wave.setPbit]
@[simp] theorem Wave.writePred_chains (w : Wave) (d : Operand) (l : Nat) (b : Bool) : (w.writePred d l b).chains = w.chains := by
  cases d <;> simp [Wave.writePred]
@[simp] theorem Wave.setP_splits (w : Wave) (n : Nat) (x : W32) : (w.setP n x).splits = w.splits := by
  unfold Wave.setP; split <;> simp
@[simp] theorem Wave.setPbit_splits (w : Wave) (n l : Nat) (b : Bool) : (w.setPbit n l b).splits = w.splits := by
  simp [Wave.setPbit]
@[simp] theorem Wave.writePred_splits (w : Wave) (d : Operand) (l : Nat) (b : Bool) : (w.writePred d l b).splits = w.splits := by
  cases d <;> simp [Wave.writePred]
@[simp] theorem Wave.setP_fstat (w : Wave) (n : Nat) (x : W32) : (w.setP n x).fstat = w.fstat := by
  unfold Wave.setP; split <;> simp
@[simp] theorem Wave.setPbit_fstat (w : Wave) (n l : Nat) (b : Bool) : (w.setPbit n l b).fstat = w.fstat := by
  simp [Wave.setPbit]
@[simp] theorem Wave.writePred_fstat (w : Wave) (d : Operand) (l : Nat) (b : Bool) : (w.writePred d l b).fstat = w.fstat := by
  cases d <;> simp [Wave.writePred]
@[simp] theorem Wave.setP_hstat (w : Wave) (n : Nat) (x : W32) : (w.setP n x).hstat = w.hstat := by
  unfold Wave.setP; split <;> simp
@[simp] theorem Wave.setPbit_hstat (w : Wave) (n l : Nat) (b : Bool) : (w.setPbit n l b).hstat = w.hstat := by
  simp [Wave.setPbit]
@[simp] theorem Wave.writePred_hstat (w : Wave) (d : Operand) (l : Nat) (b : Bool) : (w.writePred d l b).hstat = w.hstat := by
  cases d <;> simp [Wave.writePred]
@[simp] theorem Wave.setP_fabs (w : Wave) (n : Nat) (x : W32) : (w.setP n x).fabs = w.fabs := by
  unfold Wave.setP; split <;> simp
@[simp] theorem Wave.setPbit_fabs (w : Wave) (n l : Nat) (b : Bool) : (w.setPbit n l b).fabs = w.fabs := by
  simp [Wave.setPbit]
@[simp] theorem Wave.writePred_fabs (w : Wave) (d : Operand) (l : Nat) (b : Bool) : (w.writePred d l b).fabs = w.fabs := by
  cases d <;> simp [Wave.writePred]
@[simp] theorem Wave.setP_utvec (w : Wave) (n : Nat) (x : W32) : (w.setP n x).utvec = w.utvec := by
  unfold Wave.setP; split <;> simp
@[simp] theorem Wave.setPbit_utvec (w : Wave) (n l : Nat) (b : Bool) : (w.setPbit n l b).utvec = w.utvec := by
  simp [Wave.setPbit]
@[simp] theorem Wave.writePred_utvec (w : Wave) (d : Operand) (l : Nat) (b : Bool) : (w.writePred d l b).utvec = w.utvec := by
  cases d <;> simp [Wave.writePred]
@[simp] theorem Wave.setP_trapArea (w : Wave) (n : Nat) (x : W32) : (w.setP n x).trapArea = w.trapArea := by
  unfold Wave.setP; split <;> simp
@[simp] theorem Wave.setPbit_trapArea (w : Wave) (n l : Nat) (b : Bool) : (w.setPbit n l b).trapArea = w.trapArea := by
  simp [Wave.setPbit]
@[simp] theorem Wave.writePred_trapArea (w : Wave) (d : Operand) (l : Nat) (b : Bool) : (w.writePred d l b).trapArea = w.trapArea := by
  cases d <;> simp [Wave.writePred]
@[simp] theorem Wave.setP_trapCtx (w : Wave) (n : Nat) (x : W32) : (w.setP n x).trapCtx = w.trapCtx := by
  unfold Wave.setP; split <;> simp
@[simp] theorem Wave.setPbit_trapCtx (w : Wave) (n l : Nat) (b : Bool) : (w.setPbit n l b).trapCtx = w.trapCtx := by
  simp [Wave.setPbit]
@[simp] theorem Wave.writePred_trapCtx (w : Wave) (d : Operand) (l : Nat) (b : Bool) : (w.writePred d l b).trapCtx = w.trapCtx := by
  cases d <;> simp [Wave.writePred]
@[simp] theorem Wave.setP_sysCtx (w : Wave) (n : Nat) (x : W32) : (w.setP n x).sysCtx = w.sysCtx := by
  unfold Wave.setP; split <;> simp
@[simp] theorem Wave.setPbit_sysCtx (w : Wave) (n l : Nat) (b : Bool) : (w.setPbit n l b).sysCtx = w.sysCtx := by
  simp [Wave.setPbit]
@[simp] theorem Wave.writePred_sysCtx (w : Wave) (d : Operand) (l : Nat) (b : Bool) : (w.writePred d l b).sysCtx = w.sysCtx := by
  cases d <;> simp [Wave.writePred]
@[simp] theorem Wave.setP_hmode (w : Wave) (n : Nat) (x : W32) : (w.setP n x).hmode = w.hmode := by
  unfold Wave.setP; split <;> simp
@[simp] theorem Wave.setPbit_hmode (w : Wave) (n l : Nat) (b : Bool) : (w.setPbit n l b).hmode = w.hmode := by
  simp [Wave.setPbit]
@[simp] theorem Wave.writePred_hmode (w : Wave) (d : Operand) (l : Nat) (b : Bool) : (w.writePred d l b).hmode = w.hmode := by
  cases d <;> simp [Wave.writePred]
@[simp] theorem Wave.setP_wp (w : Wave) (n : Nat) (x : W32) : (w.setP n x).wp = w.wp := by
  unfold Wave.setP; split <;> simp
@[simp] theorem Wave.setPbit_wp (w : Wave) (n l : Nat) (b : Bool) : (w.setPbit n l b).wp = w.wp := by
  simp [Wave.setPbit]
@[simp] theorem Wave.writePred_wp (w : Wave) (d : Operand) (l : Nat) (b : Bool) : (w.writePred d l b).wp = w.wp := by
  cases d <;> simp [Wave.writePred]
@[simp] theorem Wave.setP_failedStp (w : Wave) (n : Nat) (x : W32) : (w.setP n x).failedStp = w.failedStp := by
  unfold Wave.setP; split <;> simp
@[simp] theorem Wave.setPbit_failedStp (w : Wave) (n l : Nat) (b : Bool) : (w.setPbit n l b).failedStp = w.failedStp := by
  simp [Wave.setPbit]
@[simp] theorem Wave.writePred_failedStp (w : Wave) (d : Operand) (l : Nat) (b : Bool) : (w.writePred d l b).failedStp = w.failedStp := by
  cases d <;> simp [Wave.writePred]
@[simp] theorem Wave.setP_reserved (w : Wave) (n : Nat) (x : W32) : (w.setP n x).reserved = w.reserved := by
  unfold Wave.setP; split <;> simp
@[simp] theorem Wave.setPbit_reserved (w : Wave) (n l : Nat) (b : Bool) : (w.setPbit n l b).reserved = w.reserved := by
  simp [Wave.setPbit]
@[simp] theorem Wave.writePred_reserved (w : Wave) (d : Operand) (l : Nat) (b : Bool) : (w.writePred d l b).reserved = w.reserved := by
  cases d <;> simp [Wave.writePred]
@[simp] theorem Wave.setP_holds (w : Wave) (n : Nat) (x : W32) : (w.setP n x).holds = w.holds := by
  unfold Wave.setP; split <;> simp
@[simp] theorem Wave.setPbit_holds (w : Wave) (n l : Nat) (b : Bool) : (w.setPbit n l b).holds = w.holds := by
  simp [Wave.setPbit]
@[simp] theorem Wave.writePred_holds (w : Wave) (d : Operand) (l : Nat) (b : Bool) : (w.writePred d l b).holds = w.holds := by
  cases d <;> simp [Wave.writePred]
@[simp] theorem Wave.setP_rstack (w : Wave) (n : Nat) (x : W32) : (w.setP n x).rstack = w.rstack := by
  unfold Wave.setP; split <;> simp
@[simp] theorem Wave.setPbit_rstack (w : Wave) (n l : Nat) (b : Bool) : (w.setPbit n l b).rstack = w.rstack := by
  simp [Wave.setPbit]
@[simp] theorem Wave.writePred_rstack (w : Wave) (d : Operand) (l : Nat) (b : Bool) : (w.writePred d l b).rstack = w.rstack := by
  cases d <;> simp [Wave.writePred]
@[simp] theorem Wave.setP_round (w : Wave) (n : Nat) (x : W32) : (w.setP n x).round = w.round := by
  unfold Wave.setP; split <;> simp
@[simp] theorem Wave.setPbit_round (w : Wave) (n l : Nat) (b : Bool) : (w.setPbit n l b).round = w.round := by
  simp [Wave.setPbit]
@[simp] theorem Wave.writePred_round (w : Wave) (d : Operand) (l : Nat) (b : Bool) : (w.writePred d l b).round = w.round := by
  cases d <;> simp [Wave.writePred]
@[simp] theorem Wave.setP_lt (w : Wave) (n : Nat) (x : W32) : (w.setP n x).lt = w.lt := by
  unfold Wave.setP; split <;> simp
@[simp] theorem Wave.setPbit_lt (w : Wave) (n l : Nat) (b : Bool) : (w.setPbit n l b).lt = w.lt := by
  simp [Wave.setPbit]
@[simp] theorem Wave.writePred_lt (w : Wave) (d : Operand) (l : Nat) (b : Bool) : (w.writePred d l b).lt = w.lt := by
  cases d <;> simp [Wave.writePred]
@[simp] theorem Wave.setP_retired (w : Wave) (n : Nat) (x : W32) : (w.setP n x).retired = w.retired := by
  unfold Wave.setP; split <;> simp
@[simp] theorem Wave.setPbit_retired (w : Wave) (n l : Nat) (b : Bool) : (w.setPbit n l b).retired = w.retired := by
  simp [Wave.setPbit]
@[simp] theorem Wave.writePred_retired (w : Wave) (d : Operand) (l : Nat) (b : Bool) : (w.writePred d l b).retired = w.retired := by
  cases d <;> simp [Wave.writePred]
@[simp] theorem Wave.setP_roundEnded (w : Wave) (n : Nat) (x : W32) : (w.setP n x).roundEnded = w.roundEnded := by
  unfold Wave.setP; split <;> simp
@[simp] theorem Wave.setPbit_roundEnded (w : Wave) (n l : Nat) (b : Bool) : (w.setPbit n l b).roundEnded = w.roundEnded := by
  simp [Wave.setPbit]
@[simp] theorem Wave.writePred_roundEnded (w : Wave) (d : Operand) (l : Nat) (b : Bool) : (w.writePred d l b).roundEnded = w.roundEnded := by
  cases d <;> simp [Wave.writePred]
@[simp] theorem Wave.setP_buffer (w : Wave) (n : Nat) (x : W32) : (w.setP n x).buffer = w.buffer := by
  unfold Wave.setP; split <;> simp
@[simp] theorem Wave.setPbit_buffer (w : Wave) (n l : Nat) (b : Bool) : (w.setPbit n l b).buffer = w.buffer := by
  simp [Wave.setPbit]
@[simp] theorem Wave.writePred_buffer (w : Wave) (d : Operand) (l : Nat) (b : Bool) : (w.writePred d l b).buffer = w.buffer := by
  cases d <;> simp [Wave.writePred]
@[simp] theorem Wave.setP_redo (w : Wave) (n : Nat) (x : W32) : (w.setP n x).redo = w.redo := by
  unfold Wave.setP; split <;> simp
@[simp] theorem Wave.setPbit_redo (w : Wave) (n l : Nat) (b : Bool) : (w.setPbit n l b).redo = w.redo := by
  simp [Wave.setPbit]
@[simp] theorem Wave.writePred_redo (w : Wave) (d : Operand) (l : Nat) (b : Bool) : (w.writePred d l b).redo = w.redo := by
  cases d <;> simp [Wave.writePred]
@[simp] theorem Wave.setP_laneStores (w : Wave) (n : Nat) (x : W32) : (w.setP n x).laneStores = w.laneStores := by
  unfold Wave.setP; split <;> simp
@[simp] theorem Wave.setPbit_laneStores (w : Wave) (n l : Nat) (b : Bool) : (w.setPbit n l b).laneStores = w.laneStores := by
  simp [Wave.setPbit]
@[simp] theorem Wave.writePred_laneStores (w : Wave) (d : Operand) (l : Nat) (b : Bool) : (w.writePred d l b).laneStores = w.laneStores := by
  cases d <;> simp [Wave.writePred]
@[simp] theorem Wave.setP_bellSplit (w : Wave) (n : Nat) (x : W32) : (w.setP n x).bellSplit = w.bellSplit := by
  unfold Wave.setP; split <;> simp
@[simp] theorem Wave.setPbit_bellSplit (w : Wave) (n l : Nat) (b : Bool) : (w.setPbit n l b).bellSplit = w.bellSplit := by
  simp [Wave.setPbit]
@[simp] theorem Wave.writePred_bellSplit (w : Wave) (d : Operand) (l : Nat) (b : Bool) : (w.writePred d l b).bellSplit = w.bellSplit := by
  cases d <;> simp [Wave.writePred]
@[simp] theorem Wave.setP_sleep (w : Wave) (n : Nat) (x : W32) : (w.setP n x).sleep = w.sleep := by
  unfold Wave.setP; split <;> simp
@[simp] theorem Wave.setPbit_sleep (w : Wave) (n l : Nat) (b : Bool) : (w.setPbit n l b).sleep = w.sleep := by
  simp [Wave.setPbit]
@[simp] theorem Wave.writePred_sleep (w : Wave) (d : Operand) (l : Nat) (b : Bool) : (w.writePred d l b).sleep = w.sleep := by
  cases d <;> simp [Wave.writePred]
@[simp] theorem Wave.setP_life (w : Wave) (n : Nat) (x : W32) : (w.setP n x).life = w.life := by
  unfold Wave.setP; split <;> simp
@[simp] theorem Wave.setPbit_life (w : Wave) (n l : Nat) (b : Bool) : (w.setPbit n l b).life = w.life := by
  simp [Wave.setPbit]
@[simp] theorem Wave.writePred_life (w : Wave) (d : Operand) (l : Nat) (b : Bool) : (w.writePred d l b).life = w.life := by
  cases d <;> simp [Wave.writePred]
@[simp] theorem Wave.setP_resumeAt (w : Wave) (n : Nat) (x : W32) : (w.setP n x).resumeAt = w.resumeAt := by
  unfold Wave.setP; split <;> simp
@[simp] theorem Wave.setPbit_resumeAt (w : Wave) (n l : Nat) (b : Bool) : (w.setPbit n l b).resumeAt = w.resumeAt := by
  simp [Wave.setPbit]
@[simp] theorem Wave.writePred_resumeAt (w : Wave) (d : Operand) (l : Nat) (b : Bool) : (w.writePred d l b).resumeAt = w.resumeAt := by
  cases d <;> simp [Wave.writePred]
@[simp] theorem Wave.setP_stopped (w : Wave) (n : Nat) (x : W32) : (w.setP n x).stopped = w.stopped := by
  unfold Wave.setP; split <;> simp
@[simp] theorem Wave.setPbit_stopped (w : Wave) (n l : Nat) (b : Bool) : (w.setPbit n l b).stopped = w.stopped := by
  simp [Wave.setPbit]
@[simp] theorem Wave.writePred_stopped (w : Wave) (d : Operand) (l : Nat) (b : Bool) : (w.writePred d l b).stopped = w.stopped := by
  cases d <;> simp [Wave.writePred]
@[simp] theorem Wave.setP_pending (w : Wave) (n : Nat) (x : W32) : (w.setP n x).pending = w.pending := by
  unfold Wave.setP; split <;> simp
@[simp] theorem Wave.setPbit_pending (w : Wave) (n l : Nat) (b : Bool) : (w.setPbit n l b).pending = w.pending := by
  simp [Wave.setPbit]
@[simp] theorem Wave.writePred_pending (w : Wave) (d : Operand) (l : Nat) (b : Bool) : (w.writePred d l b).pending = w.pending := by
  cases d <;> simp [Wave.writePred]
@[simp] theorem Wave.setP_spillFrame (w : Wave) (n : Nat) (x : W32) : (w.setP n x).spillFrame = w.spillFrame := by
  unfold Wave.setP; split <;> simp
@[simp] theorem Wave.setPbit_spillFrame (w : Wave) (n l : Nat) (b : Bool) : (w.setPbit n l b).spillFrame = w.spillFrame := by
  simp [Wave.setPbit]
@[simp] theorem Wave.writePred_spillFrame (w : Wave) (d : Operand) (l : Nat) (b : Bool) : (w.writePred d l b).spillFrame = w.spillFrame := by
  cases d <;> simp [Wave.writePred]
@[simp] theorem Wave.setP_saveDue (w : Wave) (n : Nat) (x : W32) : (w.setP n x).saveDue = w.saveDue := by
  unfold Wave.setP; split <;> simp
@[simp] theorem Wave.setPbit_saveDue (w : Wave) (n l : Nat) (b : Bool) : (w.setPbit n l b).saveDue = w.saveDue := by
  simp [Wave.setPbit]
@[simp] theorem Wave.writePred_saveDue (w : Wave) (d : Operand) (l : Nat) (b : Bool) : (w.writePred d l b).saveDue = w.saveDue := by
  cases d <;> simp [Wave.writePred]
@[simp] theorem Wave.setP_yielded (w : Wave) (n : Nat) (x : W32) : (w.setP n x).yielded = w.yielded := by
  unfold Wave.setP; split <;> simp
@[simp] theorem Wave.setPbit_yielded (w : Wave) (n l : Nat) (b : Bool) : (w.setPbit n l b).yielded = w.yielded := by
  simp [Wave.setPbit]
@[simp] theorem Wave.writePred_yielded (w : Wave) (d : Operand) (l : Nat) (b : Bool) : (w.writePred d l b).yielded = w.yielded := by
  cases d <;> simp [Wave.writePred]
@[simp] theorem Wave.setP_nextSplit (w : Wave) (n : Nat) (x : W32) : (w.setP n x).nextSplit = w.nextSplit := by
  unfold Wave.setP; split <;> simp
@[simp] theorem Wave.setPbit_nextSplit (w : Wave) (n l : Nat) (b : Bool) : (w.setPbit n l b).nextSplit = w.nextSplit := by
  simp [Wave.setPbit]
@[simp] theorem Wave.writePred_nextSplit (w : Wave) (d : Operand) (l : Nat) (b : Bool) : (w.writePred d l b).nextSplit = w.nextSplit := by
  cases d <;> simp [Wave.writePred]
@[simp] theorem Wave.setP_begun (w : Wave) (n : Nat) (x : W32) : (w.setP n x).begun = w.begun := by
  unfold Wave.setP; split <;> simp
@[simp] theorem Wave.setPbit_begun (w : Wave) (n l : Nat) (b : Bool) : (w.setPbit n l b).begun = w.begun := by
  simp [Wave.setPbit]
@[simp] theorem Wave.writePred_begun (w : Wave) (d : Operand) (l : Nat) (b : Bool) : (w.writePred d l b).begun = w.begun := by
  cases d <;> simp [Wave.writePred]
@[simp] theorem Wave.setP_missed (w : Wave) (n : Nat) (x : W32) : (w.setP n x).missed = w.missed := by
  unfold Wave.setP; split <;> simp
@[simp] theorem Wave.setPbit_missed (w : Wave) (n l : Nat) (b : Bool) : (w.setPbit n l b).missed = w.missed := by
  simp [Wave.setPbit]
@[simp] theorem Wave.writePred_missed (w : Wave) (d : Operand) (l : Nat) (b : Bool) : (w.writePred d l b).missed = w.missed := by
  cases d <;> simp [Wave.writePred]
@[simp] theorem Wave.writeS_owner (w : Wave) (d : Operand) (x : W64) : (w.writeS d x).owner = w.owner := by
  cases d <;> simp [Wave.writeS]
@[simp] theorem Wave.writeS_launch (w : Wave) (d : Operand) (x : W64) : (w.writeS d x).launch = w.launch := by
  cases d <;> simp [Wave.writeS]
@[simp] theorem Wave.writeS_team (w : Wave) (d : Operand) (x : W64) : (w.writeS d x).team = w.team := by
  cases d <;> simp [Wave.writeS]
@[simp] theorem Wave.writeS_index (w : Wave) (d : Operand) (x : W64) : (w.writeS d x).index = w.index := by
  cases d <;> simp [Wave.writeS]
@[simp] theorem Wave.writeS_role (w : Wave) (d : Operand) (x : W64) : (w.writeS d x).role = w.role := by
  cases d <;> simp [Wave.writeS]
@[simp] theorem Wave.writeS_task (w : Wave) (d : Operand) (x : W64) : (w.writeS d x).task = w.task := by
  cases d <;> simp [Wave.writeS]
@[simp] theorem Wave.writeS_drover (w : Wave) (d : Operand) (x : W64) : (w.writeS d x).drover = w.drover := by
  cases d <;> simp [Wave.writeS]
@[simp] theorem Wave.writeS_emask (w : Wave) (d : Operand) (x : W64) : (w.writeS d x).emask = w.emask := by
  cases d <;> simp [Wave.writeS]
@[simp] theorem Wave.writeS_widBase (w : Wave) (d : Operand) (x : W64) : (w.writeS d x).widBase = w.widBase := by
  cases d <;> simp [Wave.writeS]
@[simp] theorem Wave.writeS_taskIndex (w : Wave) (d : Operand) (x : W64) : (w.writeS d x).taskIndex = w.taskIndex := by
  cases d <;> simp [Wave.writeS]
@[simp] theorem Wave.writeS_depths (w : Wave) (d : Operand) (x : W64) : (w.writeS d x).depths = w.depths := by
  cases d <;> simp [Wave.writeS]
@[simp] theorem Wave.writeS_depth (w : Wave) (d : Operand) (x : W64) : (w.writeS d x).depth = w.depth := by
  cases d <;> simp [Wave.writeS]
@[simp] theorem Wave.writeS_units (w : Wave) (d : Operand) (x : W64) : (w.writeS d x).units = w.units := by
  cases d <;> simp [Wave.writeS]
@[simp] theorem Wave.writeS_v (w : Wave) (d : Operand) (x : W64) : (w.writeS d x).v = w.v := by
  cases d <;> simp [Wave.writeS]
@[simp] theorem Wave.writeS_o (w : Wave) (d : Operand) (x : W64) : (w.writeS d x).o = w.o := by
  cases d <;> simp [Wave.writeS]
@[simp] theorem Wave.writeS_latch (w : Wave) (d : Operand) (x : W64) : (w.writeS d x).latch = w.latch := by
  cases d <;> simp [Wave.writeS]
@[simp] theorem Wave.writeS_p (w : Wave) (d : Operand) (x : W64) : (w.writeS d x).p = w.p := by
  cases d <;> simp [Wave.writeS]
@[simp] theorem Wave.writeS_busy (w : Wave) (d : Operand) (x : W64) : (w.writeS d x).busy = w.busy := by
  cases d <;> simp [Wave.writeS]
@[simp] theorem Wave.writeS_tokenErrors (w : Wave) (d : Operand) (x : W64) : (w.writeS d x).tokenErrors = w.tokenErrors := by
  cases d <;> simp [Wave.writeS]
@[simp] theorem Wave.writeS_chains (w : Wave) (d : Operand) (x : W64) : (w.writeS d x).chains = w.chains := by
  cases d <;> simp [Wave.writeS]
@[simp] theorem Wave.writeS_splits (w : Wave) (d : Operand) (x : W64) : (w.writeS d x).splits = w.splits := by
  cases d <;> simp [Wave.writeS]
@[simp] theorem Wave.writeS_fstat (w : Wave) (d : Operand) (x : W64) : (w.writeS d x).fstat = w.fstat := by
  cases d <;> simp [Wave.writeS]
@[simp] theorem Wave.writeS_hstat (w : Wave) (d : Operand) (x : W64) : (w.writeS d x).hstat = w.hstat := by
  cases d <;> simp [Wave.writeS]
@[simp] theorem Wave.writeS_fabs (w : Wave) (d : Operand) (x : W64) : (w.writeS d x).fabs = w.fabs := by
  cases d <;> simp [Wave.writeS]
@[simp] theorem Wave.writeS_utvec (w : Wave) (d : Operand) (x : W64) : (w.writeS d x).utvec = w.utvec := by
  cases d <;> simp [Wave.writeS]
@[simp] theorem Wave.writeS_trapArea (w : Wave) (d : Operand) (x : W64) : (w.writeS d x).trapArea = w.trapArea := by
  cases d <;> simp [Wave.writeS]
@[simp] theorem Wave.writeS_trapCtx (w : Wave) (d : Operand) (x : W64) : (w.writeS d x).trapCtx = w.trapCtx := by
  cases d <;> simp [Wave.writeS]
@[simp] theorem Wave.writeS_sysCtx (w : Wave) (d : Operand) (x : W64) : (w.writeS d x).sysCtx = w.sysCtx := by
  cases d <;> simp [Wave.writeS]
@[simp] theorem Wave.writeS_hmode (w : Wave) (d : Operand) (x : W64) : (w.writeS d x).hmode = w.hmode := by
  cases d <;> simp [Wave.writeS]
@[simp] theorem Wave.writeS_wp (w : Wave) (d : Operand) (x : W64) : (w.writeS d x).wp = w.wp := by
  cases d <;> simp [Wave.writeS]
@[simp] theorem Wave.writeS_failedStp (w : Wave) (d : Operand) (x : W64) : (w.writeS d x).failedStp = w.failedStp := by
  cases d <;> simp [Wave.writeS]
@[simp] theorem Wave.writeS_reserved (w : Wave) (d : Operand) (x : W64) : (w.writeS d x).reserved = w.reserved := by
  cases d <;> simp [Wave.writeS]
@[simp] theorem Wave.writeS_holds (w : Wave) (d : Operand) (x : W64) : (w.writeS d x).holds = w.holds := by
  cases d <;> simp [Wave.writeS]
@[simp] theorem Wave.writeS_rstack (w : Wave) (d : Operand) (x : W64) : (w.writeS d x).rstack = w.rstack := by
  cases d <;> simp [Wave.writeS]
@[simp] theorem Wave.writeS_round (w : Wave) (d : Operand) (x : W64) : (w.writeS d x).round = w.round := by
  cases d <;> simp [Wave.writeS]
@[simp] theorem Wave.writeS_lt (w : Wave) (d : Operand) (x : W64) : (w.writeS d x).lt = w.lt := by
  cases d <;> simp [Wave.writeS]
@[simp] theorem Wave.writeS_retired (w : Wave) (d : Operand) (x : W64) : (w.writeS d x).retired = w.retired := by
  cases d <;> simp [Wave.writeS]
@[simp] theorem Wave.writeS_roundEnded (w : Wave) (d : Operand) (x : W64) : (w.writeS d x).roundEnded = w.roundEnded := by
  cases d <;> simp [Wave.writeS]
@[simp] theorem Wave.writeS_buffer (w : Wave) (d : Operand) (x : W64) : (w.writeS d x).buffer = w.buffer := by
  cases d <;> simp [Wave.writeS]
@[simp] theorem Wave.writeS_redo (w : Wave) (d : Operand) (x : W64) : (w.writeS d x).redo = w.redo := by
  cases d <;> simp [Wave.writeS]
@[simp] theorem Wave.writeS_laneStores (w : Wave) (d : Operand) (x : W64) : (w.writeS d x).laneStores = w.laneStores := by
  cases d <;> simp [Wave.writeS]
@[simp] theorem Wave.writeS_bellSplit (w : Wave) (d : Operand) (x : W64) : (w.writeS d x).bellSplit = w.bellSplit := by
  cases d <;> simp [Wave.writeS]
@[simp] theorem Wave.writeS_sleep (w : Wave) (d : Operand) (x : W64) : (w.writeS d x).sleep = w.sleep := by
  cases d <;> simp [Wave.writeS]
@[simp] theorem Wave.writeS_life (w : Wave) (d : Operand) (x : W64) : (w.writeS d x).life = w.life := by
  cases d <;> simp [Wave.writeS]
@[simp] theorem Wave.writeS_resumeAt (w : Wave) (d : Operand) (x : W64) : (w.writeS d x).resumeAt = w.resumeAt := by
  cases d <;> simp [Wave.writeS]
@[simp] theorem Wave.writeS_stopped (w : Wave) (d : Operand) (x : W64) : (w.writeS d x).stopped = w.stopped := by
  cases d <;> simp [Wave.writeS]
@[simp] theorem Wave.writeS_pending (w : Wave) (d : Operand) (x : W64) : (w.writeS d x).pending = w.pending := by
  cases d <;> simp [Wave.writeS]
@[simp] theorem Wave.writeS_spillFrame (w : Wave) (d : Operand) (x : W64) : (w.writeS d x).spillFrame = w.spillFrame := by
  cases d <;> simp [Wave.writeS]
@[simp] theorem Wave.writeS_saveDue (w : Wave) (d : Operand) (x : W64) : (w.writeS d x).saveDue = w.saveDue := by
  cases d <;> simp [Wave.writeS]
@[simp] theorem Wave.writeS_yielded (w : Wave) (d : Operand) (x : W64) : (w.writeS d x).yielded = w.yielded := by
  cases d <;> simp [Wave.writeS]
@[simp] theorem Wave.writeS_nextSplit (w : Wave) (d : Operand) (x : W64) : (w.writeS d x).nextSplit = w.nextSplit := by
  cases d <;> simp [Wave.writeS]
@[simp] theorem Wave.writeS_begun (w : Wave) (d : Operand) (x : W64) : (w.writeS d x).begun = w.begun := by
  cases d <;> simp [Wave.writeS]
@[simp] theorem Wave.writeS_missed (w : Wave) (d : Operand) (x : W64) : (w.writeS d x).missed = w.missed := by
  cases d <;> simp [Wave.writeS]
@[simp] theorem Wave.orFlags_owner (w : Wave) (x : Flags) : (w.orFlags x).owner = w.owner := by
  unfold Wave.orFlags; split <;> rfl
@[simp] theorem Wave.orFlags_launch (w : Wave) (x : Flags) : (w.orFlags x).launch = w.launch := by
  unfold Wave.orFlags; split <;> rfl
@[simp] theorem Wave.orFlags_team (w : Wave) (x : Flags) : (w.orFlags x).team = w.team := by
  unfold Wave.orFlags; split <;> rfl
@[simp] theorem Wave.orFlags_index (w : Wave) (x : Flags) : (w.orFlags x).index = w.index := by
  unfold Wave.orFlags; split <;> rfl
@[simp] theorem Wave.orFlags_role (w : Wave) (x : Flags) : (w.orFlags x).role = w.role := by
  unfold Wave.orFlags; split <;> rfl
@[simp] theorem Wave.orFlags_task (w : Wave) (x : Flags) : (w.orFlags x).task = w.task := by
  unfold Wave.orFlags; split <;> rfl
@[simp] theorem Wave.orFlags_drover (w : Wave) (x : Flags) : (w.orFlags x).drover = w.drover := by
  unfold Wave.orFlags; split <;> rfl
@[simp] theorem Wave.orFlags_emask (w : Wave) (x : Flags) : (w.orFlags x).emask = w.emask := by
  unfold Wave.orFlags; split <;> rfl
@[simp] theorem Wave.orFlags_widBase (w : Wave) (x : Flags) : (w.orFlags x).widBase = w.widBase := by
  unfold Wave.orFlags; split <;> rfl
@[simp] theorem Wave.orFlags_taskIndex (w : Wave) (x : Flags) : (w.orFlags x).taskIndex = w.taskIndex := by
  unfold Wave.orFlags; split <;> rfl
@[simp] theorem Wave.orFlags_depths (w : Wave) (x : Flags) : (w.orFlags x).depths = w.depths := by
  unfold Wave.orFlags; split <;> rfl
@[simp] theorem Wave.orFlags_depth (w : Wave) (x : Flags) : (w.orFlags x).depth = w.depth := by
  unfold Wave.orFlags; split <;> rfl
@[simp] theorem Wave.orFlags_units (w : Wave) (x : Flags) : (w.orFlags x).units = w.units := by
  unfold Wave.orFlags; split <;> rfl
@[simp] theorem Wave.orFlags_v (w : Wave) (x : Flags) : (w.orFlags x).v = w.v := by
  unfold Wave.orFlags; split <;> rfl
@[simp] theorem Wave.orFlags_o (w : Wave) (x : Flags) : (w.orFlags x).o = w.o := by
  unfold Wave.orFlags; split <;> rfl
@[simp] theorem Wave.orFlags_latch (w : Wave) (x : Flags) : (w.orFlags x).latch = w.latch := by
  unfold Wave.orFlags; split <;> rfl
@[simp] theorem Wave.orFlags_s (w : Wave) (x : Flags) : (w.orFlags x).s = w.s := by
  unfold Wave.orFlags; split <;> rfl
@[simp] theorem Wave.orFlags_p (w : Wave) (x : Flags) : (w.orFlags x).p = w.p := by
  unfold Wave.orFlags; split <;> rfl
@[simp] theorem Wave.orFlags_busy (w : Wave) (x : Flags) : (w.orFlags x).busy = w.busy := by
  unfold Wave.orFlags; split <;> rfl
@[simp] theorem Wave.orFlags_tokenErrors (w : Wave) (x : Flags) : (w.orFlags x).tokenErrors = w.tokenErrors := by
  unfold Wave.orFlags; split <;> rfl
@[simp] theorem Wave.orFlags_chains (w : Wave) (x : Flags) : (w.orFlags x).chains = w.chains := by
  unfold Wave.orFlags; split <;> rfl
@[simp] theorem Wave.orFlags_splits (w : Wave) (x : Flags) : (w.orFlags x).splits = w.splits := by
  unfold Wave.orFlags; split <;> rfl
@[simp] theorem Wave.orFlags_hstat (w : Wave) (x : Flags) : (w.orFlags x).hstat = w.hstat := by
  unfold Wave.orFlags; split <;> rfl
@[simp] theorem Wave.orFlags_fabs (w : Wave) (x : Flags) : (w.orFlags x).fabs = w.fabs := by
  unfold Wave.orFlags; split <;> rfl
@[simp] theorem Wave.orFlags_utvec (w : Wave) (x : Flags) : (w.orFlags x).utvec = w.utvec := by
  unfold Wave.orFlags; split <;> rfl
@[simp] theorem Wave.orFlags_trapArea (w : Wave) (x : Flags) : (w.orFlags x).trapArea = w.trapArea := by
  unfold Wave.orFlags; split <;> rfl
@[simp] theorem Wave.orFlags_trapCtx (w : Wave) (x : Flags) : (w.orFlags x).trapCtx = w.trapCtx := by
  unfold Wave.orFlags; split <;> rfl
@[simp] theorem Wave.orFlags_sysCtx (w : Wave) (x : Flags) : (w.orFlags x).sysCtx = w.sysCtx := by
  unfold Wave.orFlags; split <;> rfl
@[simp] theorem Wave.orFlags_hmode (w : Wave) (x : Flags) : (w.orFlags x).hmode = w.hmode := by
  unfold Wave.orFlags; split <;> rfl
@[simp] theorem Wave.orFlags_wp (w : Wave) (x : Flags) : (w.orFlags x).wp = w.wp := by
  unfold Wave.orFlags; split <;> rfl
@[simp] theorem Wave.orFlags_failedStp (w : Wave) (x : Flags) : (w.orFlags x).failedStp = w.failedStp := by
  unfold Wave.orFlags; split <;> rfl
@[simp] theorem Wave.orFlags_reserved (w : Wave) (x : Flags) : (w.orFlags x).reserved = w.reserved := by
  unfold Wave.orFlags; split <;> rfl
@[simp] theorem Wave.orFlags_holds (w : Wave) (x : Flags) : (w.orFlags x).holds = w.holds := by
  unfold Wave.orFlags; split <;> rfl
@[simp] theorem Wave.orFlags_rstack (w : Wave) (x : Flags) : (w.orFlags x).rstack = w.rstack := by
  unfold Wave.orFlags; split <;> rfl
@[simp] theorem Wave.orFlags_round (w : Wave) (x : Flags) : (w.orFlags x).round = w.round := by
  unfold Wave.orFlags; split <;> rfl
@[simp] theorem Wave.orFlags_lt (w : Wave) (x : Flags) : (w.orFlags x).lt = w.lt := by
  unfold Wave.orFlags; split <;> rfl
@[simp] theorem Wave.orFlags_retired (w : Wave) (x : Flags) : (w.orFlags x).retired = w.retired := by
  unfold Wave.orFlags; split <;> rfl
@[simp] theorem Wave.orFlags_roundEnded (w : Wave) (x : Flags) : (w.orFlags x).roundEnded = w.roundEnded := by
  unfold Wave.orFlags; split <;> rfl
@[simp] theorem Wave.orFlags_buffer (w : Wave) (x : Flags) : (w.orFlags x).buffer = w.buffer := by
  unfold Wave.orFlags; split <;> rfl
@[simp] theorem Wave.orFlags_redo (w : Wave) (x : Flags) : (w.orFlags x).redo = w.redo := by
  unfold Wave.orFlags; split <;> rfl
@[simp] theorem Wave.orFlags_laneStores (w : Wave) (x : Flags) : (w.orFlags x).laneStores = w.laneStores := by
  unfold Wave.orFlags; split <;> rfl
@[simp] theorem Wave.orFlags_bellSplit (w : Wave) (x : Flags) : (w.orFlags x).bellSplit = w.bellSplit := by
  unfold Wave.orFlags; split <;> rfl
@[simp] theorem Wave.orFlags_sleep (w : Wave) (x : Flags) : (w.orFlags x).sleep = w.sleep := by
  unfold Wave.orFlags; split <;> rfl
@[simp] theorem Wave.orFlags_life (w : Wave) (x : Flags) : (w.orFlags x).life = w.life := by
  unfold Wave.orFlags; split <;> rfl
@[simp] theorem Wave.orFlags_resumeAt (w : Wave) (x : Flags) : (w.orFlags x).resumeAt = w.resumeAt := by
  unfold Wave.orFlags; split <;> rfl
@[simp] theorem Wave.orFlags_stopped (w : Wave) (x : Flags) : (w.orFlags x).stopped = w.stopped := by
  unfold Wave.orFlags; split <;> rfl
@[simp] theorem Wave.orFlags_pending (w : Wave) (x : Flags) : (w.orFlags x).pending = w.pending := by
  unfold Wave.orFlags; split <;> rfl
@[simp] theorem Wave.orFlags_spillFrame (w : Wave) (x : Flags) : (w.orFlags x).spillFrame = w.spillFrame := by
  unfold Wave.orFlags; split <;> rfl
@[simp] theorem Wave.orFlags_saveDue (w : Wave) (x : Flags) : (w.orFlags x).saveDue = w.saveDue := by
  unfold Wave.orFlags; split <;> rfl
@[simp] theorem Wave.orFlags_yielded (w : Wave) (x : Flags) : (w.orFlags x).yielded = w.yielded := by
  unfold Wave.orFlags; split <;> rfl
@[simp] theorem Wave.orFlags_nextSplit (w : Wave) (x : Flags) : (w.orFlags x).nextSplit = w.nextSplit := by
  unfold Wave.orFlags; split <;> rfl
@[simp] theorem Wave.orFlags_begun (w : Wave) (x : Flags) : (w.orFlags x).begun = w.begun := by
  unfold Wave.orFlags; split <;> rfl
@[simp] theorem Wave.orFlags_missed (w : Wave) (x : Flags) : (w.orFlags x).missed = w.missed := by
  unfold Wave.orFlags; split <;> rfl
@[simp] theorem Wave.orFlags_bad (w : Wave) (x : Flags) : (w.orFlags x).bad = w.bad := by
  unfold Wave.orFlags; split <;> rfl
@[simp] theorem Wave.writeLane_owner (w : Wave) (d : Operand) (r l : Nat) (x : W64) : (w.writeLane d r l x).owner = w.owner := by
  cases d <;> simp only [Wave.writeLane] <;> first | rfl | (split <;> simp)
@[simp] theorem Wave.writeLane_launch (w : Wave) (d : Operand) (r l : Nat) (x : W64) : (w.writeLane d r l x).launch = w.launch := by
  cases d <;> simp only [Wave.writeLane] <;> first | rfl | (split <;> simp)
@[simp] theorem Wave.writeLane_team (w : Wave) (d : Operand) (r l : Nat) (x : W64) : (w.writeLane d r l x).team = w.team := by
  cases d <;> simp only [Wave.writeLane] <;> first | rfl | (split <;> simp)
@[simp] theorem Wave.writeLane_index (w : Wave) (d : Operand) (r l : Nat) (x : W64) : (w.writeLane d r l x).index = w.index := by
  cases d <;> simp only [Wave.writeLane] <;> first | rfl | (split <;> simp)
@[simp] theorem Wave.writeLane_role (w : Wave) (d : Operand) (r l : Nat) (x : W64) : (w.writeLane d r l x).role = w.role := by
  cases d <;> simp only [Wave.writeLane] <;> first | rfl | (split <;> simp)
@[simp] theorem Wave.writeLane_task (w : Wave) (d : Operand) (r l : Nat) (x : W64) : (w.writeLane d r l x).task = w.task := by
  cases d <;> simp only [Wave.writeLane] <;> first | rfl | (split <;> simp)
@[simp] theorem Wave.writeLane_drover (w : Wave) (d : Operand) (r l : Nat) (x : W64) : (w.writeLane d r l x).drover = w.drover := by
  cases d <;> simp only [Wave.writeLane] <;> first | rfl | (split <;> simp)
@[simp] theorem Wave.writeLane_emask (w : Wave) (d : Operand) (r l : Nat) (x : W64) : (w.writeLane d r l x).emask = w.emask := by
  cases d <;> simp only [Wave.writeLane] <;> first | rfl | (split <;> simp)
@[simp] theorem Wave.writeLane_widBase (w : Wave) (d : Operand) (r l : Nat) (x : W64) : (w.writeLane d r l x).widBase = w.widBase := by
  cases d <;> simp only [Wave.writeLane] <;> first | rfl | (split <;> simp)
@[simp] theorem Wave.writeLane_taskIndex (w : Wave) (d : Operand) (r l : Nat) (x : W64) : (w.writeLane d r l x).taskIndex = w.taskIndex := by
  cases d <;> simp only [Wave.writeLane] <;> first | rfl | (split <;> simp)
@[simp] theorem Wave.writeLane_depths (w : Wave) (d : Operand) (r l : Nat) (x : W64) : (w.writeLane d r l x).depths = w.depths := by
  cases d <;> simp only [Wave.writeLane] <;> first | rfl | (split <;> simp)
@[simp] theorem Wave.writeLane_depth (w : Wave) (d : Operand) (r l : Nat) (x : W64) : (w.writeLane d r l x).depth = w.depth := by
  cases d <;> simp only [Wave.writeLane] <;> first | rfl | (split <;> simp)
@[simp] theorem Wave.writeLane_units (w : Wave) (d : Operand) (r l : Nat) (x : W64) : (w.writeLane d r l x).units = w.units := by
  cases d <;> simp only [Wave.writeLane] <;> first | rfl | (split <;> simp)
@[simp] theorem Wave.writeLane_s (w : Wave) (d : Operand) (r l : Nat) (x : W64) : (w.writeLane d r l x).s = w.s := by
  cases d <;> simp only [Wave.writeLane] <;> first | rfl | (split <;> simp)
@[simp] theorem Wave.writeLane_p (w : Wave) (d : Operand) (r l : Nat) (x : W64) : (w.writeLane d r l x).p = w.p := by
  cases d <;> simp only [Wave.writeLane] <;> first | rfl | (split <;> simp)
@[simp] theorem Wave.writeLane_busy (w : Wave) (d : Operand) (r l : Nat) (x : W64) : (w.writeLane d r l x).busy = w.busy := by
  cases d <;> simp only [Wave.writeLane] <;> first | rfl | (split <;> simp)
@[simp] theorem Wave.writeLane_tokenErrors (w : Wave) (d : Operand) (r l : Nat) (x : W64) : (w.writeLane d r l x).tokenErrors = w.tokenErrors := by
  cases d <;> simp only [Wave.writeLane] <;> first | rfl | (split <;> simp)
@[simp] theorem Wave.writeLane_chains (w : Wave) (d : Operand) (r l : Nat) (x : W64) : (w.writeLane d r l x).chains = w.chains := by
  cases d <;> simp only [Wave.writeLane] <;> first | rfl | (split <;> simp)
@[simp] theorem Wave.writeLane_splits (w : Wave) (d : Operand) (r l : Nat) (x : W64) : (w.writeLane d r l x).splits = w.splits := by
  cases d <;> simp only [Wave.writeLane] <;> first | rfl | (split <;> simp)
@[simp] theorem Wave.writeLane_fstat (w : Wave) (d : Operand) (r l : Nat) (x : W64) : (w.writeLane d r l x).fstat = w.fstat := by
  cases d <;> simp only [Wave.writeLane] <;> first | rfl | (split <;> simp)
@[simp] theorem Wave.writeLane_hstat (w : Wave) (d : Operand) (r l : Nat) (x : W64) : (w.writeLane d r l x).hstat = w.hstat := by
  cases d <;> simp only [Wave.writeLane] <;> first | rfl | (split <;> simp)
@[simp] theorem Wave.writeLane_fabs (w : Wave) (d : Operand) (r l : Nat) (x : W64) : (w.writeLane d r l x).fabs = w.fabs := by
  cases d <;> simp only [Wave.writeLane] <;> first | rfl | (split <;> simp)
@[simp] theorem Wave.writeLane_utvec (w : Wave) (d : Operand) (r l : Nat) (x : W64) : (w.writeLane d r l x).utvec = w.utvec := by
  cases d <;> simp only [Wave.writeLane] <;> first | rfl | (split <;> simp)
@[simp] theorem Wave.writeLane_trapArea (w : Wave) (d : Operand) (r l : Nat) (x : W64) : (w.writeLane d r l x).trapArea = w.trapArea := by
  cases d <;> simp only [Wave.writeLane] <;> first | rfl | (split <;> simp)
@[simp] theorem Wave.writeLane_trapCtx (w : Wave) (d : Operand) (r l : Nat) (x : W64) : (w.writeLane d r l x).trapCtx = w.trapCtx := by
  cases d <;> simp only [Wave.writeLane] <;> first | rfl | (split <;> simp)
@[simp] theorem Wave.writeLane_sysCtx (w : Wave) (d : Operand) (r l : Nat) (x : W64) : (w.writeLane d r l x).sysCtx = w.sysCtx := by
  cases d <;> simp only [Wave.writeLane] <;> first | rfl | (split <;> simp)
@[simp] theorem Wave.writeLane_hmode (w : Wave) (d : Operand) (r l : Nat) (x : W64) : (w.writeLane d r l x).hmode = w.hmode := by
  cases d <;> simp only [Wave.writeLane] <;> first | rfl | (split <;> simp)
@[simp] theorem Wave.writeLane_wp (w : Wave) (d : Operand) (r l : Nat) (x : W64) : (w.writeLane d r l x).wp = w.wp := by
  cases d <;> simp only [Wave.writeLane] <;> first | rfl | (split <;> simp)
@[simp] theorem Wave.writeLane_failedStp (w : Wave) (d : Operand) (r l : Nat) (x : W64) : (w.writeLane d r l x).failedStp = w.failedStp := by
  cases d <;> simp only [Wave.writeLane] <;> first | rfl | (split <;> simp)
@[simp] theorem Wave.writeLane_reserved (w : Wave) (d : Operand) (r l : Nat) (x : W64) : (w.writeLane d r l x).reserved = w.reserved := by
  cases d <;> simp only [Wave.writeLane] <;> first | rfl | (split <;> simp)
@[simp] theorem Wave.writeLane_holds (w : Wave) (d : Operand) (r l : Nat) (x : W64) : (w.writeLane d r l x).holds = w.holds := by
  cases d <;> simp only [Wave.writeLane] <;> first | rfl | (split <;> simp)
@[simp] theorem Wave.writeLane_rstack (w : Wave) (d : Operand) (r l : Nat) (x : W64) : (w.writeLane d r l x).rstack = w.rstack := by
  cases d <;> simp only [Wave.writeLane] <;> first | rfl | (split <;> simp)
@[simp] theorem Wave.writeLane_round (w : Wave) (d : Operand) (r l : Nat) (x : W64) : (w.writeLane d r l x).round = w.round := by
  cases d <;> simp only [Wave.writeLane] <;> first | rfl | (split <;> simp)
@[simp] theorem Wave.writeLane_lt (w : Wave) (d : Operand) (r l : Nat) (x : W64) : (w.writeLane d r l x).lt = w.lt := by
  cases d <;> simp only [Wave.writeLane] <;> first | rfl | (split <;> simp)
@[simp] theorem Wave.writeLane_retired (w : Wave) (d : Operand) (r l : Nat) (x : W64) : (w.writeLane d r l x).retired = w.retired := by
  cases d <;> simp only [Wave.writeLane] <;> first | rfl | (split <;> simp)
@[simp] theorem Wave.writeLane_roundEnded (w : Wave) (d : Operand) (r l : Nat) (x : W64) : (w.writeLane d r l x).roundEnded = w.roundEnded := by
  cases d <;> simp only [Wave.writeLane] <;> first | rfl | (split <;> simp)
@[simp] theorem Wave.writeLane_buffer (w : Wave) (d : Operand) (r l : Nat) (x : W64) : (w.writeLane d r l x).buffer = w.buffer := by
  cases d <;> simp only [Wave.writeLane] <;> first | rfl | (split <;> simp)
@[simp] theorem Wave.writeLane_redo (w : Wave) (d : Operand) (r l : Nat) (x : W64) : (w.writeLane d r l x).redo = w.redo := by
  cases d <;> simp only [Wave.writeLane] <;> first | rfl | (split <;> simp)
@[simp] theorem Wave.writeLane_laneStores (w : Wave) (d : Operand) (r l : Nat) (x : W64) : (w.writeLane d r l x).laneStores = w.laneStores := by
  cases d <;> simp only [Wave.writeLane] <;> first | rfl | (split <;> simp)
@[simp] theorem Wave.writeLane_bellSplit (w : Wave) (d : Operand) (r l : Nat) (x : W64) : (w.writeLane d r l x).bellSplit = w.bellSplit := by
  cases d <;> simp only [Wave.writeLane] <;> first | rfl | (split <;> simp)
@[simp] theorem Wave.writeLane_sleep (w : Wave) (d : Operand) (r l : Nat) (x : W64) : (w.writeLane d r l x).sleep = w.sleep := by
  cases d <;> simp only [Wave.writeLane] <;> first | rfl | (split <;> simp)
@[simp] theorem Wave.writeLane_life (w : Wave) (d : Operand) (r l : Nat) (x : W64) : (w.writeLane d r l x).life = w.life := by
  cases d <;> simp only [Wave.writeLane] <;> first | rfl | (split <;> simp)
@[simp] theorem Wave.writeLane_resumeAt (w : Wave) (d : Operand) (r l : Nat) (x : W64) : (w.writeLane d r l x).resumeAt = w.resumeAt := by
  cases d <;> simp only [Wave.writeLane] <;> first | rfl | (split <;> simp)
@[simp] theorem Wave.writeLane_stopped (w : Wave) (d : Operand) (r l : Nat) (x : W64) : (w.writeLane d r l x).stopped = w.stopped := by
  cases d <;> simp only [Wave.writeLane] <;> first | rfl | (split <;> simp)
@[simp] theorem Wave.writeLane_pending (w : Wave) (d : Operand) (r l : Nat) (x : W64) : (w.writeLane d r l x).pending = w.pending := by
  cases d <;> simp only [Wave.writeLane] <;> first | rfl | (split <;> simp)
@[simp] theorem Wave.writeLane_spillFrame (w : Wave) (d : Operand) (r l : Nat) (x : W64) : (w.writeLane d r l x).spillFrame = w.spillFrame := by
  cases d <;> simp only [Wave.writeLane] <;> first | rfl | (split <;> simp)
@[simp] theorem Wave.writeLane_saveDue (w : Wave) (d : Operand) (r l : Nat) (x : W64) : (w.writeLane d r l x).saveDue = w.saveDue := by
  cases d <;> simp only [Wave.writeLane] <;> first | rfl | (split <;> simp)
@[simp] theorem Wave.writeLane_yielded (w : Wave) (d : Operand) (r l : Nat) (x : W64) : (w.writeLane d r l x).yielded = w.yielded := by
  cases d <;> simp only [Wave.writeLane] <;> first | rfl | (split <;> simp)
@[simp] theorem Wave.writeLane_nextSplit (w : Wave) (d : Operand) (r l : Nat) (x : W64) : (w.writeLane d r l x).nextSplit = w.nextSplit := by
  cases d <;> simp only [Wave.writeLane] <;> first | rfl | (split <;> simp)
@[simp] theorem Wave.writeLane_begun (w : Wave) (d : Operand) (r l : Nat) (x : W64) : (w.writeLane d r l x).begun = w.begun := by
  cases d <;> simp only [Wave.writeLane] <;> first | rfl | (split <;> simp)
@[simp] theorem Wave.writeLane_missed (w : Wave) (d : Operand) (r l : Nat) (x : W64) : (w.writeLane d r l x).missed = w.missed := by
  cases d <;> simp only [Wave.writeLane] <;> first | rfl | (split <;> simp)

end Sys2Proof.Machine
end

