-- ==== Sys2Proof/Laws/Word.lean ====
section
/-!
SUPPORT. One instruction word: `runWord` where a word executes, and what each end of a word does to the state.
-/
namespace Sys2Proof.Machine

/-- The environment of a word before its pops and its chain input. -/
def Env.bare (e : Env) : Env := { e with pops := [], carry := 0 }

/-- The environment of a word before its chain input. -/
def Env.dry (e : Env) : Env := { e with carry := 0 }

theorem envOf_of_executes {s : State} {i : Instr} {h : Head} {e : Env} (hx : Executes s i h e) :
    envOf e.n e.k e.w e.sp h = e.bare := by
  simp only [envOf, hx.fresh, ← hx.active, ← hx.exec, Env.bare]

@[simp] theorem Res.early_done (s : State) : (Res.done s).early = none := rfl
@[simp] theorem Res.early_jump (s : State) (a : W64) : (Res.jump s a).early = none := rfl
@[simp] theorem Res.early_moved (s : State) : (Res.moved s).early = none := rfl
@[simp] theorem Res.early_asks (s : State) (x : Wait) : (Res.asks s x).early = none := rfl
@[simp] theorem Res.early_returned (s : State) : (Res.returned s).early = none := rfl
@[simp] theorem Res.early_within (s : State) (k : Nat) : (Res.within s k).early = none := rfl
@[simp] theorem Res.early_wait (x : Wait) : (Res.wait x).early = none := rfl
@[simp] theorem Res.early_holding (s : State) (x : Wait) : (Res.holding s x).early = none := rfl
@[simp] theorem Res.early_endRound (x : Wait) : (Res.endRound x).early = none := rfl
@[simp] theorem Res.early_defer (s : State) (m : W32) : (Res.defer s m).early = none := rfl
@[simp] theorem Res.early_trapDefer (s : State) (t : Trap) (m : W32) : (Res.trapDefer s t m).early = none := rfl

/-- Where nothing that a word consumes has an error, what it comes to is carried out. -/
theorem complete_of_executes {s : State} {i : Instr} {h : Head} {e : Env} (hx : Executes s i h e) (num : Nat)
    (body : State → Env → Res) : s.complete e i num body = s.finish e i num (body s e) := by
  have hp := hx.parts
  unfold State.complete
  cases hq : e.part i with
  | none => simp [hx.intact]
  | some p =>
    rw [hq] at hp
    simp only [Option.all_some, Bool.not_eq_true'] at hp
    have hm : p ∉ s.badParts := by simpa using hp
    simp [State.guardPart, hm, hx.intact]

/-- Where a word executes and its effect raises no illegal or privileged cause before the word is looked at further (R211), `runWord`
is its effect and what follows it. -/
theorem runWord_of_executes {s : State} {i : Instr} {h : Head} {e : Env} (hx : Executes s i h e) (body : State → Env → Res)
    (hb : (body s e.dry).early = none) :
    s.runWord i h body = .next (s.finish e i (s.srdNumber e.dry i) (body s e)) := by
  have hc := hx.chain
  have hck : s.issueFault e.bare i = none := hx.checks
  have hcl : violates e.bare.sp.windows i (s.srdNumber e.dry i) = false := hx.clear
  have hps : popsFor (s.teamOf e.bare.w) i = .values e.pops := hx.pops
  have hdry : { e.bare with pops := e.pops } = e.dry := rfl
  have hfr : e.bare.sp.retry = none := hx.fresh
  unfold State.runWord
  simp only [hx.cur, hx.wave, hx.split, envOf_of_executes hx, hx.fresh, State.firstTry, hck, hps, hdry, hb, hcl,
    Bool.false_eq_true, if_false, State.attempt]
  cases hs : i.chainSlot with
  | none =>
    rw [hs] at hc
    have he : e.dry = e := by cases e; simp only at hc; subst hc; rfl
    simp only [he, complete_of_executes hx]
  | some k =>
    rw [hs] at hc
    have hne : ¬ (e.bare.exec = 0) := hc.1
    have hin : s.chainInput e.bare.w k.toNat = .value e.carry := hc.2
    have he : { e.bare with pops := e.pops, carry := e.carry } = e := rfl
    simp only [hfr, Option.isSome_none, Bool.false_eq_true, if_false, hne, hin, he, complete_of_executes hx]

/-- Where a word would execute and its effect is an illegal or privileged cause, `runWord` takes that trap (R211). -/
theorem runWord_early {s : State} {i : Instr} {h : Head} {e : Env} (hx : Executes s i h e) (body : State → Env → Res) {t : Trap}
    (hb : (body s e.dry).early = some t) :
    s.runWord i h body = .next (s.finishTrap e.dry i (s.srdNumber e.dry i) s t) := by
  have hck : s.issueFault e.bare i = none := hx.checks
  have hps : popsFor (s.teamOf e.bare.w) i = .values e.pops := hx.pops
  have hdry : { e.bare with pops := e.pops } = e.dry := rfl
  unfold State.runWord
  simp only [hx.cur, hx.wave, hx.split, envOf_of_executes hx, hx.fresh, State.firstTry, hck, hps, hdry, hb]

/-- An instruction that is not chained has no chain input. -/
theorem Executes.dry {s : State} {i : Instr} {h : Head} {e : Env} (hx : Executes s i h e) (hc : i.chainSlot = none) : e.dry = e := by
  have h := hx.chain
  rw [hc] at h
  simp only at h
  cases e; simp only at h; subst h; rfl

/-- The effect of an unchained word is no illegal or privileged cause where it ends in none (R211). -/
theorem Executes.early_none {s : State} {i : Instr} {h : Head} {e : Env} (hx : Executes s i h e) (hc : i.chainSlot = none)
    {body : State → Env → Res} {r : Res} (hb : body s e = r) (hr : r.early = none) : (body s e.dry).early = none := by
  rw [hx.dry hc, hb, hr]

/-! ### Steps that leave the device beside one agent as it was -/

theorem Beside.refl (s : State) (n : Nat) : Beside s s n := ⟨rfl, fun _ _ => rfl, fun _ => rfl, fun _ => rfl⟩

theorem Beside.trans {s t u : State} {n : Nat} (a : Beside s t n) (b : Beside t u n) : Beside s u n where
  rest := by
    have ha := a.rest
    have hb := b.rest
    calc { u with waves := s.waves, teams := s.teams, launches := s.launches, cur := s.cur }
        = { { u with waves := t.waves, teams := t.teams, launches := t.launches, cur := t.cur } with
            waves := s.waves, teams := s.teams, launches := s.launches, cur := s.cur } := rfl
      _ = _ := by rw [hb]; exact ha
  others m hm := (b.others m hm).trans (a.others m hm)
  teams j := (b.teams j).trans (a.teams j)
  launches j := (b.launches j).trans (a.launches j)

theorem beside_updWave (s : State) (n : Nat) (f : Wave → Wave) : Beside s (s.updWave n f) n :=
  ⟨rfl, fun m hm => by simp [State.updWave_wave?, hm], fun _ => rfl, fun _ => rfl⟩

theorem beside_setWave (s : State) (n : Nat) (w : Wave) : Beside s (s.setWave n w) n :=
  ⟨rfl, fun m hm => by simp [State.setWave_wave?, hm], fun _ => rfl, fun _ => rfl⟩

theorem beside_updSplit (s : State) (n k : Nat) (f : Split → Split) : Beside s (s.updSplit n k f) n := beside_updWave ..

theorem beside_cur (s : State) (n : Nat) (c : Option (Nat × Nat)) : Beside s { s with cur := c } n :=
  ⟨rfl, fun _ _ => rfl, fun _ => rfl, fun _ => rfl⟩

theorem beside_clearCur (s : State) (n : Nat) : Beside s s.clearCur n := beside_cur ..

theorem beside_popQueues (s : State) (n tid : Nat) (qs : List Nat) : Beside s (s.popQueues tid qs) n where
  rest := rfl
  others _ _ := rfl
  teams j := by
    simp only [State.popQueues, State.updTeam_team?]
    split
    · rename_i h; subst h; cases s.team? j <;> rfl
    · rfl
  launches _ := rfl

theorem beside_stir (s : State) (n : Nat) (l : Option Nat) : Beside s (s.stir l) n where
  rest := by cases l <;> rfl
  others m _ := by simp
  teams j := by simp
  launches j := by
    rw [State.stir_launch?]
    split
    · cases s.launch? j <;> rfl
    · rfl

theorem beside_popFor (s : State) (n : Nat) (e : Env) (i : Instr) : Beside s (s.popFor e i) n := by
  unfold State.popFor
  split
  · exact beside_popQueues ..
  · exact Beside.refl ..

theorem beside_countWord (s : State) (n : Nat) (c : Bool) : Beside s (s.countWord n c) n := by
  unfold State.countWord
  split
  · exact Beside.refl ..
  · split
    · exact (beside_updWave ..).trans (beside_stir ..)
    · exact Beside.refl ..

theorem beside_retire (s : State) (n k : Nat) (x : Option Window) : Beside s (s.retire n k x) n :=
  (beside_countWord s n _).trans (beside_updSplit ..)

theorem beside_turnOver (s : State) (n k : Nat) (y : Bool) : Beside s (s.turnOver n k y) n :=
  (beside_clearCur s n).trans (beside_updWave ..)

theorem beside_goOn (s : State) (n k : Nat) : Beside s (s.goOn n k) n := (beside_cur ..).trans (beside_updWave ..)

theorem beside_continueAt (s : State) (n k : Nat) (p : Split) : Beside s (s.continueAt n k p) n := by
  unfold State.continueAt
  split
  · exact (beside_updSplit ..).trans (beside_turnOver ..)
  · exact (beside_goOn ..).trans (beside_updSplit ..)

/-! ### The agent's own wave -/

/-- A wave after some of the machine's bookkeeping: its splits are as `f` makes them, and the rest but its progress stands. -/
def WaveTo (n : Nat) (s t : State) (f : Tab Split → Tab Split) : Prop :=
  ∀ w, s.wave? n = some w → ∃ w', t.wave? n = some w' ∧ w'.idle = w.idle ∧ w'.splits = f w.splits

theorem WaveTo.trans {n : Nat} {s t u : State} {f g : Tab Split → Tab Split} (a : WaveTo n s t f) (b : WaveTo n t u g) :
    WaveTo n s u fun x => g (f x) := by
  intro w hw
  obtain ⟨w1, h1, i1, s1⟩ := a w hw
  obtain ⟨w2, h2, i2, s2⟩ := b w1 h1
  exact ⟨w2, h2, i2.trans i1, by rw [s2, s1]⟩

theorem waveTo_popFor (s : State) (n : Nat) (e : Env) (i : Instr) : WaveTo n s (s.popFor e i) id := by
  intro w hw
  refine ⟨w, ?_, rfl, rfl⟩
  unfold State.popFor
  split <;> exact hw

theorem waveTo_countWord (s : State) (n : Nat) (c : Bool) : WaveTo n s (s.countWord n c) id := by
  intro w hw
  unfold State.countWord
  simp only [hw]
  split
  · simp [hw, Wave.idle]
  · exact ⟨w, hw, rfl, rfl⟩

theorem waveTo_updSplit (s : State) (n k : Nat) (f : Split → Split) :
    WaveTo n s (s.updSplit n k f) fun x => Tab.upd x k f := by
  intro w hw
  exact ⟨w.updSplit k f, by simp [State.updSplit_wave?, hw], rfl, rfl⟩

/-- The word at which a split stands has retired already (R134). -/
def State.countedAt (s : State) (n k : Nat) : Bool := ((s.wave? n).bind fun w => Tab.find w.splits k).any Split.counted

theorem waveTo_retire (s : State) (n k : Nat) (x : Option Window) : WaveTo n s (s.retire n k x) fun y =>
    Tab.upd y k fun p => { p with windows := if s.countedAt n k then p.windows else stepWindows p.windows x,
                                  retry := none, waiting := .none } :=
  (waveTo_countWord s n (s.countedAt n k)).trans (waveTo_updSplit _ n k _)

theorem waveTo_turnOver (s : State) (n k : Nat) (y : Bool) : WaveTo n s (s.turnOver n k y) id := by
  intro w hw
  unfold State.turnOver
  have : (s.clearCur).wave? n = some w := hw
  simp [this, Wave.idle]

theorem waveTo_goOn (s : State) (n k : Nat) : WaveTo n s (s.goOn n k) id := by
  intro w hw
  have : ({ s with cur := some (n, k) } : State).wave? n = some w := hw
  simp [State.goOn, this, Wave.idle]

theorem waveTo_continueAt (s : State) (n k : Nat) (p : Split) :
    WaveTo n s (s.continueAt n k p) fun x => Tab.upd x k Split.advance := by
  unfold State.continueAt
  split
  · exact (waveTo_updSplit s n k Split.advance).trans (waveTo_turnOver _ n k _)
  · exact (waveTo_goOn s n k).trans (waveTo_updSplit _ n k Split.advance)

theorem continueAt_cur (s : State) (n k : Nat) (p : Split) :
    (s.continueAt n k p).cur = if p.atLast then none else some (n, k) := by
  unfold State.continueAt
  split <;> simp_all [State.turnOver] <;> rfl

theorem advance_sansWindows (p : Split) (ws : List Window) :
    { Split.advance { p with windows := ws, retry := none, waiting := .none } with windows := [] } =
      { p.advance with windows := [] } := by
  unfold Split.advance
  simp only [Split.words, Split.header]
  split <;> rfl

/-- A word that is done: the wave as its effect left it goes on after the word, and nothing else moves but the queues it
pops. -/
theorem finish_done {s x : State} {e : Env} {i : Instr} {num : Nat} {w1 : Wave} {p1 : Split}
    (hw : x.wave? e.n = some w1) (hp : Tab.find w1.splits e.k = some p1) :
    ∃ w', (s.finish e i num (.done x)).wave? e.n = some w' ∧ w'.idle = w1.idle ∧
      (s.finish e i num (.done x)).cur = (if e.sp.atLast then none else some (e.n, e.k)) ∧
      (Tab.find w'.splits e.k).map (fun p => { p with windows := [] }) = some { p1.advance with windows := [] } ∧
      (∀ j, j ≠ e.k → Tab.find w'.splits j = Tab.find w1.splits j) ∧
      Beside x (s.finish e i num (.done x)) e.n := by
  obtain ⟨w', h1, h2, h3⟩ := ((waveTo_popFor x e.n e i).trans ((waveTo_retire _ e.n e.k (windowOf i num)).trans
    (waveTo_continueAt _ e.n e.k e.sp))) w1 hw
  refine ⟨w', h1, h2, continueAt_cur .., ?_, ?_, ?_⟩
  · rw [h3]; simp only [id, Tab.find_upd_self, hp, Option.map_some, advance_sansWindows]
  · intro j hj; rw [h3]; simp [Tab.find_upd, hj]
  · exact (beside_popFor ..).trans ((beside_retire ..).trans (beside_continueAt ..))

theorem turnOver_cur (s : State) (n k : Nat) (y : Bool) : (s.turnOver n k y).cur = none := by
  unfold State.turnOver; simp; rfl

/-- A word that jumps: its split stands between clauses at the target, and nothing else moves but the queues it pops. -/
theorem finish_jump {s x : State} {e : Env} {i : Instr} {num : Nat} {target : W64} {w1 : Wave} {p1 : Split}
    (hw : x.wave? e.n = some w1) (hp : Tab.find w1.splits e.k = some p1) :
    ∃ w', (s.finish e i num (.jump x target)).wave? e.n = some w' ∧ w'.idle = w1.idle ∧
      (s.finish e i num (.jump x target)).cur = none ∧ Tab.find w'.splits e.k = some (p1.goto target) ∧
      (∀ j, j ≠ e.k → Tab.find w'.splits j = Tab.find w1.splits j) ∧
      Beside x (s.finish e i num (.jump x target)) e.n := by
  obtain ⟨w', h1, h2, h3⟩ := (((waveTo_popFor x e.n e i).trans (waveTo_retire _ e.n e.k none)).trans
    (waveTo_updSplit _ e.n e.k fun p => p.goto target)).trans (waveTo_turnOver _ e.n e.k (e.sp.header.yld == 1)) w1 hw
  refine ⟨w', h1, h2, turnOver_cur .., ?_, ?_, ?_⟩
  · rw [h3]; simp only [id, Tab.find_upd_self, hp, Option.map_some]; rfl
  · intro j hj; rw [h3]; simp [Tab.find_upd, hj]
  · exact (((beside_popFor ..).trans (beside_retire ..)).trans (beside_updSplit ..)).trans (beside_turnOver ..)

/-- A word that leaves its splits as its effect made them: the one that executed it has nothing more to wait for. -/
theorem finish_moved {s x : State} {e : Env} {i : Instr} {num : Nat} {w1 : Wave} (hw : x.wave? e.n = some w1) :
    ∃ w', (s.finish e i num (.moved x)).wave? e.n = some w' ∧ w'.idle = w1.idle ∧
      (s.finish e i num (.moved x)).cur = none ∧
      (Tab.find w'.splits e.k).map (fun p => { p with windows := [] }) = (Tab.find w1.splits e.k).map (fun p =>
        { p with windows := [], retry := none, waiting := .none }) ∧
      (∀ j, j ≠ e.k → Tab.find w'.splits j = Tab.find w1.splits j) ∧
      Beside x (s.finish e i num (.moved x)) e.n := by
  obtain ⟨w', h1, h2, h3⟩ := ((waveTo_popFor x e.n e i).trans (waveTo_retire _ e.n e.k none)).trans
    (waveTo_turnOver _ e.n e.k (e.sp.header.yld == 1)) w1 hw
  refine ⟨w', h1, h2, turnOver_cur .., ?_, ?_, ?_⟩
  · rw [h3]; simp only [id, Tab.find_upd_self, Option.map_map]; rfl
  · intro j hj; rw [h3]; simp [Tab.find_upd, hj]
  · exact ((beside_popFor ..).trans (beside_retire ..)).trans (beside_turnOver ..)

end Sys2Proof.Machine
end

