-- ==== Sys2Proof/Laws/Registers.lean ====
section
/-!
SUPPORT. Reading a register after a write (R99–R101), and the lanes of a value instruction one after another (R123).
-/
namespace Sys2Proof.Machine

/-! ### One register -/

theorem Wave.setV_vreg (w : Wave) (n l m j : Nat) (x : W32) (hl : l < 32) (hj : j < 32) :
    (w.setV n l x).vreg m j = if m = n ∧ j = l then x else w.vreg m j := by
  simp only [Wave.vreg, Wave.setV, Tab.getD_setD]
  by_cases h : m = n ∧ j = l
  · obtain ⟨rfl, rfl⟩ := h; simp
  · rw [if_neg h, if_neg (by omega)]

theorem Wave.setO_oreg (w : Wave) (n l m j : Nat) (x : W32) (hl : l < 32) (hj : j < 32) :
    (w.setO n l x).oreg m j = if m = n ∧ j = l then x else w.oreg m j := by
  simp only [Wave.oreg, Wave.setO, Tab.getD_setD]
  by_cases h : m = n ∧ j = l
  · obtain ⟨rfl, rfl⟩ := h; simp
  · rw [if_neg h, if_neg (by omega)]

theorem Wave.setL_lreg (w : Wave) (l j : Nat) (x : W64) :
    (w.setL l x).lreg j = if j = l then x else w.lreg j := by
  simp only [Wave.lreg, Wave.setL, Tab.getD_setD]

theorem Wave.setS_sreg (w : Wave) (n m : Nat) (x : W64) : (w.setS n x).sreg m = if m = n then x else w.sreg m := by
  simp only [Wave.sreg, Wave.setS, Tab.getD_setD]

theorem Wave.setP_preg (w : Wave) (n m : Nat) (x : W32) (hn : n ≠ 7) :
    (w.setP n x).preg m = if m = n then x else w.preg m := by
  simp only [Wave.preg, Wave.setP, hn, if_false]
  by_cases hm : m = 7
  · simp [hm, show (7 : Nat) ≠ n from fun h => hn h.symm]
  · simp only [hm, if_false]; exact Tab.getD_setD ..

/-- A write to P7 is discarded (R99). -/
theorem Wave.setP_seven (w : Wave) (x : W32) : w.setP 7 x = w := by simp [Wave.setP]

@[simp] theorem Wave.setO_vreg (w : Wave) (n l m j : Nat) (x : W32) : (w.setO n l x).vreg m j = w.vreg m j := by
  simp [Wave.vreg]
@[simp] theorem Wave.setL_vreg (w : Wave) (l m j : Nat) (x : W64) : (w.setL l x).vreg m j = w.vreg m j := by
  simp [Wave.vreg]
@[simp] theorem Wave.setV_oreg (w : Wave) (n l m j : Nat) (x : W32) : (w.setV n l x).oreg m j = w.oreg m j := by
  simp [Wave.oreg]
@[simp] theorem Wave.setL_oreg (w : Wave) (l m j : Nat) (x : W64) : (w.setL l x).oreg m j = w.oreg m j := by
  simp [Wave.oreg]
@[simp] theorem Wave.setV_lreg (w : Wave) (n l j : Nat) (x : W32) : (w.setV n l x).lreg j = w.lreg j := by
  simp [Wave.lreg]
@[simp] theorem Wave.setO_lreg (w : Wave) (n l j : Nat) (x : W32) : (w.setO n l x).lreg j = w.lreg j := by
  simp [Wave.lreg]
@[simp] theorem Wave.orFlags_vreg (w : Wave) (f : Flags) (m j : Nat) : (w.orFlags f).vreg m j = w.vreg m j := by
  simp [Wave.vreg]
@[simp] theorem Wave.orFlags_oreg (w : Wave) (f : Flags) (m j : Nat) : (w.orFlags f).oreg m j = w.oreg m j := by
  simp [Wave.oreg]
@[simp] theorem Wave.orFlags_lreg (w : Wave) (f : Flags) (j : Nat) : (w.orFlags f).lreg j = w.lreg j := by
  simp [Wave.lreg]
@[simp] theorem Wave.orFlags_shows (w : Wave) (f : Flags) (d : Operand) (r l : Nat) :
    (w.orFlags f).shows d r l = w.shows d r l := by cases d <;> simp [Wave.shows]

/-! ### A per-lane destination -/

/-- A V or O operand. -/
def isVO : Operand → Bool
  | .v _ | .o _ => true
  | _ => false

theorem hi_lo (x : W64) : (hi32 x ++ lo32 x : W64) = x := by
  simp only [hi32, lo32]; ext i hi; simp; grind

@[simp] theorem lo32_setWidth (x : W32) : lo32 (x.setWidth 64) = x := by
  simp only [lo32]; ext i hi; simp [BitVec.getLsbD_eq_getElem hi]; omega

theorem cut_one (x : W64) : cut 1 x = (lo32 x).setWidth 64 := by simp [cut]
theorem cut_two (x : W64) : cut 2 x = x := by simp [cut]

theorem operandRegs_v {n : BitVec 8} {regs m : Nat} (hr : regs = 1 ∨ regs = 2) :
    RegName.v m ∈ operandRegs regs (.v n) ↔ m = n.toNat ∨ (regs = 2 ∧ m = n.toNat + 1) := by
  rcases hr with rfl | rfl <;> simp [operandRegs, List.range_succ] <;> omega
theorem operandRegs_o {n : BitVec 3} {regs m : Nat} (hr : regs = 1 ∨ regs = 2) :
    RegName.o m ∈ operandRegs regs (.o n) ↔ m = n.toNat ∨ (regs = 2 ∧ m = n.toNat + 1) := by
  rcases hr with rfl | rfl <;> simp [operandRegs, List.range_succ] <;> omega

theorem Wave.writeLane_shows (w : Wave) {d : Operand} (hd : isVO d = true) {regs l : Nat} (hr : regs = 1 ∨ regs = 2)
    (hl : l < 32) (x : W64) : (w.writeLane d regs l x).shows d regs l = cut regs x := by
  cases d <;> simp only [isVO, Bool.false_eq_true] at hd
  all_goals
    rcases hr with rfl | rfl
    · simp [Wave.writeLane, Wave.shows, Wave.setV_vreg, Wave.setO_oreg, hl, cut]
    · simp [Wave.writeLane, Wave.shows, Wave.setV_vreg, Wave.setO_oreg, hl, cut, hi_lo]

theorem Wave.writeLane_lreg (w : Wave) {d : Operand} (hd : isVO d = true) {regs l : Nat} (x : W64) (j : Nat) :
    (w.writeLane d regs l x).lreg j = if j = l then cut regs x else w.lreg j := by
  cases d <;> simp only [isVO, Bool.false_eq_true] at hd
  all_goals by_cases hr : regs = 1 <;> simp [Wave.writeLane, Wave.setL_lreg, cut, hr]

theorem Wave.writeLane_vreg (w : Wave) (d : Operand) {regs l : Nat} (hr : regs = 1 ∨ regs = 2) (hl : l < 32) (x : W64)
    (m j : Nat) (hj : j < 32) (h : j ≠ l ∨ RegName.v m ∉ operandRegs regs d) :
    (w.writeLane d regs l x).vreg m j = w.vreg m j := by
  cases d with
  | v n =>
    rw [operandRegs_v hr] at h
    rcases hr with rfl | rfl
    · simp [Wave.writeLane, Wave.setV_vreg, hl, hj]; grind only
    · simp [Wave.writeLane, Wave.setV_vreg, hl, hj]; grind only
  | o n => rcases hr with rfl | rfl <;> simp [Wave.writeLane]
  | _ => rfl

theorem Wave.writeLane_oreg (w : Wave) (d : Operand) {regs l : Nat} (hr : regs = 1 ∨ regs = 2) (hl : l < 32) (x : W64)
    (m j : Nat) (hj : j < 32) (h : j ≠ l ∨ RegName.o m ∉ operandRegs regs d) :
    (w.writeLane d regs l x).oreg m j = w.oreg m j := by
  cases d with
  | o n =>
    rw [operandRegs_o hr] at h
    rcases hr with rfl | rfl
    · simp [Wave.writeLane, Wave.setO_oreg, hl, hj]; grind only
    · simp [Wave.writeLane, Wave.setO_oreg, hl, hj]; grind only
  | v n => rcases hr with rfl | rfl <;> simp [Wave.writeLane]
  | _ => rfl

/-- A lane's destination keeps its value while another lane is written. -/
theorem Wave.writeLane_shows_ne (w : Wave) (d : Operand) {regs l j : Nat} (hr : regs = 1 ∨ regs = 2) (hl : l < 32)
    (hj : j < 32) (h : j ≠ l) (x : W64) : (w.writeLane d regs l x).shows d regs j = w.shows d regs j := by
  cases d with
  | v n => simp only [Wave.shows, Wave.writeLane_vreg w _ hr hl x _ j hj (.inl h)]
  | o n => simp only [Wave.shows, Wave.writeLane_oreg w _ hr hl x _ j hj (.inl h)]
  | _ => rfl

/-! ### The lanes of a mask -/

theorem mem_lanesOf {m : W32} {l : Nat} : l ∈ lanesOf m ↔ l < 32 ∧ m.getLsbD l = true := by
  simp [lanesOf]

theorem lanesOf_lt {m : W32} {l : Nat} (h : l ∈ lanesOf m) : l < 32 := (mem_lanesOf.1 h).1

theorem lanesOf_sorted (m : W32) : (lanesOf m).Pairwise (· < ·) := List.Pairwise.filter _ List.pairwise_lt_range

theorem lanesOf_nil_iff {m : W32} : lanesOf m = [] ↔ m = 0 := by
  constructor
  · intro h
    ext i hi
    have : i ∉ lanesOf m := by simp [h]
    rw [mem_lanesOf] at this
    simp [hi] at this
    simp [this]
  · rintro rfl; simp [lanesOf]

/-! ### The lanes of a value instruction -/

/-- The value that `laneFold` gives a lane. -/
def laneVal (regs : Nat) (chained : Bool) (f : Nat → W64 → W64 × Flags) : List Nat → W64 → Nat → W64
  | [], _, _ => 0
  | j :: r, c, l => if l = j then cut regs (f j c).1 else laneVal regs chained f r (if chained then cut regs (f j c).1 else c) l

/-- The carry that a lane of `laneFold` sees. -/
def lanePrev (chained : Bool) (vals : Nat → W64) (ls : List Nat) (c : W64) (l : Nat) : W64 :=
  if chained then (match (ls.filter fun j => decide (j < l)).getLast? with | some j => vals j | none => c) else c

theorem filter_lt_nil {ls : List Nat} {l : Nat} (h : ∀ j ∈ ls, l < j) : ls.filter (fun j => decide (j < l)) = [] := by
  rw [List.filter_eq_nil_iff]; intro j hj; simp; exact Nat.le_of_lt (h j hj)

theorem lanePrev_cons {regs : Nat} {chained : Bool} {f : Nat → W64 → W64 × Flags} {j : Nat} {r : List Nat} {c : W64}
    {l : Nat} (hs : ∀ i ∈ r, j < i) (hl : l ∈ r) :
    lanePrev chained (laneVal regs chained f (j :: r) c) (j :: r) c l =
      lanePrev chained (laneVal regs chained f r (if chained then cut regs (f j c).1 else c)) r
        (if chained then cut regs (f j c).1 else c) l := by
  unfold lanePrev
  cases chained with
  | false => simp
  | true =>
    simp only [if_true]
    have hf : (j :: r).filter (fun i => decide (i < l)) = j :: r.filter (fun i => decide (i < l)) := by
      simp [hs l hl]
    rw [hf]
    cases hg : (r.filter fun i => decide (i < l)).getLast? with
    | none =>
      have : r.filter (fun i => decide (i < l)) = [] := by simpa [List.getLast?_eq_none_iff] using hg
      simp [this, laneVal]
    | some i =>
      have hmem : i ∈ r := (List.mem_filter.1 (List.mem_of_getLast? hg)).1
      have hij : i ≠ j := fun h => by have := hs i hmem; omega
      rw [List.getLast?_cons, hg]
      simp [laneVal, hij]

theorem lanePrev_head {chained : Bool} {vals : Nat → W64} {j : Nat} {r : List Nat} {c : W64} (hs : ∀ i ∈ r, j < i) :
    lanePrev chained vals (j :: r) c j = c := by
  have : (j :: r).filter (fun i => decide (i < j)) = [] := by simp [filter_lt_nil hs]
  simp [lanePrev, this]

theorem laneVal_eq {regs : Nat} {chained : Bool} {f : Nat → W64 → W64 × Flags} :
    ∀ {ls : List Nat} {c : W64} {l : Nat}, ls.Pairwise (· < ·) → l ∈ ls →
      laneVal regs chained f ls c l = cut regs (f l (lanePrev chained (laneVal regs chained f ls c) ls c l)).1
  | j :: r, c, l, hs, hl => by
    rw [List.pairwise_cons] at hs
    by_cases hlj : l = j
    · subst hlj; rw [lanePrev_head hs.1]; simp [laneVal]
    · have hr : l ∈ r := by simpa [hlj] using hl
      rw [lanePrev_cons hs.1 hr, ← laneVal_eq hs.2 hr]
      simp [laneVal, hlj]

theorem foldl_or_congr {f g : Nat → Flags} : ∀ {ls : List Nat} {a : Flags}, (∀ l ∈ ls, f l = g l) →
    ls.foldl (fun a l => a ||| f l) a = ls.foldl (fun a l => a ||| g l) a
  | [], _, _ => rfl
  | j :: r, a, h => by
    simp only [List.foldl_cons, h j (by simp)]
    exact foldl_or_congr fun l hl => h l (by simp [hl])

theorem shows_congr {w w' : Wave} {d : Operand} {regs l : Nat} (hv : ∀ m, w'.vreg m l = w.vreg m l)
    (ho : ∀ m, w'.oreg m l = w.oreg m l) : w'.shows d regs l = w.shows d regs l := by
  cases d <;> simp [Wave.shows, hv, ho]

/-- A wave but for V, O, L, the flags and the errors in register elements. -/
def Wave.sansRegs (w : Wave) : Wave := { w with v := [], o := [], latch := [], fstat := 0, bad := [] }

theorem Wave.setV_sansRegs (w : Wave) (n l : Nat) (x : W32) : (w.setV n l x).sansRegs = w.sansRegs := by
  unfold Wave.setV Wave.mend; split <;> rfl
theorem Wave.setO_sansRegs (w : Wave) (n l : Nat) (x : W32) : (w.setO n l x).sansRegs = w.sansRegs := by
  unfold Wave.setO Wave.mend; split <;> rfl
theorem Wave.setL_sansRegs (w : Wave) (l : Nat) (x : W64) : (w.setL l x).sansRegs = w.sansRegs := by
  unfold Wave.setL Wave.mend; split <;> rfl
theorem Wave.orFlags_sansRegs (w : Wave) (x : Flags) : (w.orFlags x).sansRegs = w.sansRegs := by
  unfold Wave.orFlags; split <;> rfl
theorem Wave.writeLane_sansRegs (w : Wave) (d : Operand) (r l : Nat) (x : W64) :
    (w.writeLane d r l x).sansRegs = w.sansRegs := by
  cases d with
  | v n => simp only [Wave.writeLane, Wave.setL_sansRegs]; split <;> simp only [Wave.setV_sansRegs]
  | o n => simp only [Wave.writeLane, Wave.setL_sansRegs]; split <;> simp only [Wave.setO_sansRegs]
  | _ => rfl

/-- What `laneFold` leaves in the wave: values, latch, flags, and the rest as it was. -/
theorem laneFold_spec {d : Operand} (hd : isVO d = true) {regs : Nat} (hr : regs = 1 ∨ regs = 2) {chained : Bool}
    {f : Nat → W64 → W64 × Flags} : ∀ {ls : List Nat} {w : Wave} {c : W64}, ls.Pairwise (· < ·) → (∀ l ∈ ls, l < 32) →
    (∀ l ∈ ls, (laneFold d regs chained f ls w c).1.shows d regs l = laneVal regs chained f ls c l ∧
      (laneFold d regs chained f ls w c).1.lreg l = laneVal regs chained f ls c l) ∧
    (∀ m l, l < 32 → (l ∉ ls ∨ RegName.v m ∉ operandRegs regs d) →
      (laneFold d regs chained f ls w c).1.vreg m l = w.vreg m l) ∧
    (∀ m l, l < 32 → (l ∉ ls ∨ RegName.o m ∉ operandRegs regs d) →
      (laneFold d regs chained f ls w c).1.oreg m l = w.oreg m l) ∧
    (∀ l, l < 32 → l ∉ ls → (laneFold d regs chained f ls w c).1.lreg l = w.lreg l) ∧
    (laneFold d regs chained f ls w c).1.sansRegs = w.sansRegs ∧
    (laneFold d regs chained f ls w c).1.fstat = (if w.drover then w.fstat else
      ls.foldl (fun a l => a ||| (f l (lanePrev chained (laneVal regs chained f ls c) ls c l)).2) w.fstat)
  | [], w, c, _, _ => by simp [laneFold]
  | j :: r, w, c, hs, hlt => by
    rw [List.pairwise_cons] at hs
    have hj : j < 32 := hlt j (by simp)
    have hjr : j ∉ r := fun h => by have := hs.1 j h; omega
    obtain ⟨i1, i2, i3, i4, i5, i6⟩ := laneFold_spec hd hr (chained := chained) (f := f) (ls := r)
      (w := (w.writeLane d regs j (cut regs (f j c).1)).orFlags (f j c).2) (c := if chained then cut regs (f j c).1 else c)
      hs.2 (fun l hl => hlt l (by simp [hl]))
    have hstep : laneFold d regs chained f (j :: r) w c = laneFold d regs chained f r
        ((w.writeLane d regs j (cut regs (f j c).1)).orFlags (f j c).2) (if chained then cut regs (f j c).1 else c) := rfl
    have hcc : cut regs (cut regs (f j c).1) = cut regs (f j c).1 := by
      rcases hr with rfl | rfl <;> simp [cut]
    rw [hstep]
    refine ⟨?_, ?_, ?_, ?_, ?_, ?_⟩
    · intro l hl
      by_cases hlj : l = j
      · subst hlj
        constructor
        · rw [shows_congr (fun m => i2 m l hj (.inl hjr)) (fun m => i3 m l hj (.inl hjr)), Wave.orFlags_shows,
            Wave.writeLane_shows w hd hr hj, hcc]
          simp [laneVal]
        · rw [i4 l hj hjr, Wave.orFlags_lreg, Wave.writeLane_lreg w hd, hcc]
          simp [laneVal]
      · have hlr : l ∈ r := by simpa [hlj] using hl
        have := i1 l hlr
        simpa [laneVal, hlj] using this
    · intro m l hl h
      have hne : l ∉ r ∨ RegName.v m ∉ operandRegs regs d := by grind
      have hne2 : l ≠ j ∨ RegName.v m ∉ operandRegs regs d := by grind
      rw [i2 m l hl hne, Wave.orFlags_vreg, Wave.writeLane_vreg w d hr hj _ m l hl hne2]
    · intro m l hl h
      have hne : l ∉ r ∨ RegName.o m ∉ operandRegs regs d := by grind
      have hne2 : l ≠ j ∨ RegName.o m ∉ operandRegs regs d := by grind
      rw [i3 m l hl hne, Wave.orFlags_oreg, Wave.writeLane_oreg w d hr hj _ m l hl hne2]
    · intro l hl h
      rw [i4 l hl (by grind), Wave.orFlags_lreg, Wave.writeLane_lreg w hd, if_neg (by grind)]
    · rw [i5, Wave.orFlags_sansRegs, Wave.writeLane_sansRegs]
    · rw [i6]
      simp only [Wave.orFlags_drover, Wave.writeLane_drover]
      by_cases hdr : w.drover = true
      · simp [Wave.orFlags, hdr]
      · simp only [hdr, if_false, Bool.false_eq_true]
        rw [List.foldl_cons, lanePrev_head hs.1]
        have hfs : ((w.writeLane d regs j (cut regs (f j c).1)).orFlags (f j c).2).fstat = w.fstat ||| (f j c).2 := by
          simp [Wave.orFlags, hdr]
        rw [hfs]
        exact foldl_or_congr fun l hl => by rw [lanePrev_cons hs.1 hl]

end Sys2Proof.Machine
end

