-- ==== Sys2Proof/Laws/Values.lean ====
section
/-!
SUPPORT. Value instructions, chained or not, vector or scalar: each completes with the values its function gives (R104, R121,
R123).
-/
namespace Sys2Proof.Machine

/-! ### Chain values move -/

theorem BesideChain.of_beside {s t : State} {n : Nat} (h : Beside s t n) : BesideChain s t n :=
  ⟨h.rest, fun m hm => by rw [h.others m hm], h.teams, h.launches⟩

theorem BesideChain.trans {s t u : State} {n : Nat} (a : BesideChain s t n) (b : BesideChain t u n) : BesideChain s u n where
  rest := by
    have ha := a.rest
    have hb := b.rest
    calc { u with waves := s.waves, teams := s.teams, launches := s.launches, cur := s.cur }
        = { { u with waves := t.waves, teams := t.teams, launches := t.launches, cur := t.cur } with
            waves := s.waves, teams := s.teams, launches := s.launches, cur := s.cur } := rfl
      _ = _ := by rw [hb]; exact ha
  others m hm := (b.others m hm).trans (a.others m hm)
  teams j := (b.teams j).trans (a.teams j)
  launches j := (b.launches j).trans (a.launches j)

/-- A wave keeps all but its chain slots. -/
def ChainsOnly (s t : State) : Prop := ∀ m, (t.wave? m).map Wave.sansChains = (s.wave? m).map Wave.sansChains

theorem chainsOnly_updWave (s : State) (n : Nat) {f : Wave → Wave} (hf : ∀ w, (f w).sansChains = w.sansChains) :
    ChainsOnly s (s.updWave n f) := by
  intro m
  rw [State.updWave_wave?]
  split
  · rename_i h; subst h; cases s.wave? m <;> simp [hf]
  · rfl

theorem chainTake_chainsOnly (s : State) (n k : Nat) : ChainsOnly s (s.chainTake n k) := by
  apply chainsOnly_updWave
  intro w
  rfl

theorem chainTake_rest (s : State) (n k : Nat) (m : Nat) : BesideChain s (s.chainTake n k) m :=
  ⟨rfl, fun j _ => chainTake_chainsOnly s n k j, fun _ => rfl, fun _ => rfl⟩

theorem chainGive_chainsOnly (s : State) (n k : Nat) (v : W64) : ChainsOnly s (s.chainGive n k v) := by
  intro m
  unfold State.chainGive
  cases hw : s.wave? n with
  | none => rfl
  | some w =>
    have h1 : ∀ j, ((s.updWave n fun w => { w with chains := Tab.put w.chains k { w.chain k with out := v, produced := true } }).wave? j).map
        Wave.sansChains = (s.wave? j).map Wave.sansChains := chainsOnly_updWave s n fun _ => rfl
    simp only
    split
    · exact h1 m
    · split
      · exact h1 m
      · refine Eq.trans (chainsOnly_updWave _ _ ?_ m) (h1 m)
        intro _; rfl

theorem chainGive_waves (s : State) (n k : Nat) (v : W64) : ∃ ws, s.chainGive n k v = { s with waves := ws } := by
  unfold State.chainGive
  cases s.wave? n with
  | none => exact ⟨s.waves, rfl⟩
  | some w =>
    simp only
    split
    · exact ⟨_, rfl⟩
    · split <;> exact ⟨_, rfl⟩

theorem chainGive_rest (s : State) (n k : Nat) (v : W64) (m : Nat) : BesideChain s (s.chainGive n k v) m := by
  obtain ⟨ws, h⟩ := chainGive_waves s n k v
  refine ⟨?_, fun j _ => chainGive_chainsOnly s n k v j, fun j => ?_, fun j => ?_⟩ <;> rw [h] <;> rfl

/-! ### Instructions with a per-lane destination -/

theorem sansRegs_lanes {w w' : Wave} (h : w'.sansRegs = w.sansRegs) : w'.sansLanes = w.sansLanes :=
  congrArg (fun x : Wave => { x.idle with chains := [] }) h

theorem splits_of_sansRegs {w w' : Wave} (h : w'.sansRegs = w.sansRegs) : w'.splits = w.splits   := by
  have := congrArg Wave.splits h; exact this

theorem chains_of_sansRegs {w w' : Wave} (h : w'.sansRegs = w.sansRegs) : w'.chains = w.chains := by
  have := congrArg Wave.chains h; exact this

/-- Two waves that agree but for progress and chains show the same registers. -/
theorem laneResults_congr {e : Env} {i : Instr} {d : Operand} {regs : Nat} {f : Nat → W64 → W64 × Flags} {w w' : Wave}
    (h : w'.idle.sansChains = w.idle.sansChains) (hw : LaneResults e i d regs f w) : LaneResults e i d regs f w' := by
  have hv : w'.v = w.v := by have := congrArg Wave.v h; exact this
  have ho : w'.o = w.o := by have := congrArg Wave.o h; exact this
  have hl : w'.latch = w.latch := by have := congrArg Wave.latch h; exact this
  have hf : w'.fstat = w.fstat := by have := congrArg Wave.fstat h; exact this
  have hvr : ∀ m l, w'.vreg m l = w.vreg m l := fun m l => by simp [Wave.vreg, hv]
  have hor : ∀ m l, w'.oreg m l = w.oreg m l := fun m l => by simp [Wave.oreg, ho]
  have hlr : ∀ l, w'.lreg l = w.lreg l := fun l => by simp [Wave.lreg, hl]
  obtain ⟨vals, h1, h2, h3⟩ := hw
  refine ⟨vals, fun l hl => ?_, by rw [hf]; exact h2, ?_⟩
  · rw [shows_congr (fun m => hvr m l) (fun m => hor m l), hlr]; exact h1 l hl
  · exact ⟨fun m l a b => by rw [hvr]; exact h3.v m l a b, fun m l a b => by rw [hor]; exact h3.o m l a b,
      fun l a b => by rw [hlr]; exact h3.l l a b,
      (congrArg (fun x : Wave => { x with v := [], o := [], latch := [], fstat := 0, bad := [] }) h).trans h3.rest⟩

theorem laneFold_results {e : Env} {i : Instr} {d : Operand} (hd : isVO d = true) {regs : Nat} (hr : regs = 1 ∨ regs = 2)
    (f : Nat → W64 → W64 × Flags) :
    LaneResults e i d regs f (laneFold d regs i.chainSlot.isSome f (lanesOf e.exec) e.w e.carry).1 := by
  obtain ⟨h1, h2, h3, h4, h5, h6⟩ := laneFold_spec hd hr (chained := i.chainSlot.isSome) (f := f) (w := e.w) (c := e.carry)
    (lanesOf_sorted e.exec) fun l hl => lanesOf_lt hl
  refine ⟨laneVal regs i.chainSlot.isSome f (lanesOf e.exec) e.carry, fun l hl => ⟨?_, h1 l hl⟩, ?_, ?_⟩
  · exact laneVal_eq (lanesOf_sorted e.exec) hl
  · exact h6
  · exact ⟨h2, h3, h4, sansRegs_lanes h5⟩

/-- What the lanes of a value instruction come to: the form of every instruction with a V or O destination. -/
def LaneRule (s : State) (i : Instr) (d : Operand) (regs : Nat) (e : Env) (f : Nat → W64 → W64 × Flags) : Prop :=
  Completes s i e fun t w' =>
    (if i.chainSlot.isSome then BesideChain s t e.n else Beside s t e.n ∧ w'.chains = e.w.chains) ∧ LaneResults e i d regs f w'

/-- The traps of a value instruction are machine checks: none of them stands before the word is looked at (R211). -/
theorem laneOp_early (s : State) (e : Env) (i : Instr) (d : Operand) (regs : Nat) (f : Nat → W64 → W64 × Flags) :
    (s.laneOp e i d regs f).early = none := by
  unfold State.laneOp
  simp only
  cases s.badLane e i with
  | some b => rfl
  | none => cases i.chainSlot <;> rfl

theorem laneOp_rule {s : State} {i : Instr} {h : Head} {e : Env} (hx : Executes s i h e) {d : Operand} (hd : isVO d = true)
    {regs : Nat} (hr : regs = 1 ∨ regs = 2) {f : State → Env → Nat → W64 → W64 × Flags} {body : State → Env → Res}
    (hb : ∀ e, body s e = s.laneOp e i d regs (f s e)) (heq : exec i s = s.runWord i h body) :
    LaneRule s i d regs e (f s e) := by
  unfold LaneRule Completes
  rw [heq, runWord_of_executes hx body (by rw [hb]; exact laneOp_early ..), hb]
  have hres := laneFold_results (e := e) (i := i) hd hr (f s e)
  have hspec := (laneFold_spec hd hr (chained := i.chainSlot.isSome) (f := f s e) (w := e.w) (c := e.carry)
    (lanesOf_sorted e.exec) fun l hl => lanesOf_lt hl).2.2.2.2.1
  have hlanes : (lanesOf e.exec).filter (fun _ => true) = lanesOf e.exec := by simp
  unfold State.laneOp
  simp only [hx.intact, Option.isSome_map, hlanes]
  generalize hw1 : laneFold d regs i.chainSlot.isSome (f s e) (lanesOf e.exec) e.w e.carry = r at hres hspec
  obtain ⟨w1, c1⟩ := r
  simp only at hres hspec ⊢
  have hsp : Tab.find w1.splits e.k = some e.sp := by rw [splits_of_sansRegs hspec]; exact hx.split
  cases hs : i.chainSlot with
  | none =>
    simp only [Option.map_none]
    have hxw : (s.setWave e.n w1).wave? e.n = some w1 := State.setWave_wave?_self ..
    obtain ⟨w', a1, a2, a3, a4, a5, a6⟩ := finish_done (s := s) (e := e) (i := i) (num := s.srdNumber e.dry i) hxw hsp
    refine ⟨_, w', rfl, a1, ⟨a3, a4, fun j hj => (a5 j hj).trans (by rw [splits_of_sansRegs hspec])⟩, ?_, ?_⟩
    · simp only [Option.isSome_none, Bool.false_eq_true, if_false]
      refine ⟨(beside_setWave ..).trans a6, ?_⟩
      have : w'.chains = w1.chains := by have := congrArg Wave.chains a2; exact this
      rw [this, chains_of_sansRegs hspec]
    · exact laneResults_congr (congrArg Wave.sansChains a2) hres
  | some k =>
    simp only [Option.map_some, hx.fresh, Option.isSome_none, Bool.false_eq_true, if_false]
    have hmap : ((((s.setWave e.n w1).chainTake e.n k.toNat).chainGive e.n k.toNat c1).wave? e.n).map Wave.sansChains =
        some w1.sansChains := by
      rw [chainGive_chainsOnly, chainTake_chainsOnly]; simp
    cases hw2 : (((s.setWave e.n w1).chainTake e.n k.toNat).chainGive e.n k.toNat c1).wave? e.n with
    | none => rw [hw2] at hmap; simp at hmap
    | some w2 =>
      rw [hw2] at hmap
      have hsc : w2.sansChains = w1.sansChains := by simpa using hmap
      have hsp2 : w2.splits = e.w.splits := by
        have h1 : w2.splits = w1.splits := by have := congrArg Wave.splits hsc; exact this
        exact h1.trans (splits_of_sansRegs hspec)
      obtain ⟨w', a1, a2, a3, a4, a5, a6⟩ := finish_done (s := s) (e := e) (i := i) (num := s.srdNumber e.dry i) hw2
        (by rw [hsp2]; exact hx.split)
      refine ⟨_, w', rfl, a1, ⟨a3, a4, fun j hj => (a5 j hj).trans (by rw [hsp2])⟩, ?_, ?_⟩
      · simp only [Option.isSome_some, if_true]
        exact (BesideChain.of_beside (beside_setWave ..)).trans ((chainTake_rest ..).trans ((chainGive_rest ..).trans
          (BesideChain.of_beside a6)))
      · refine laneResults_congr ?_ hres
        exact (congrArg Wave.sansChains a2).trans (congrArg Wave.idle hsc)

/-! ### A word that changes its own wave -/

/-- A word that is done and leaves its wave as `w1`, its splits where they stood, and nothing else changed. -/
theorem done_wave {s : State} {i : Instr} {h : Head} {e : Env} (hx : Executes s i h e) {body : State → Env → Res} {x : State}
    {w1 : Wave} (he : (body s e.dry).early = none) (hb : body s e = .done x) (hw : x.wave? e.n = some w1) (hs : w1.splits = e.w.splits)
    (heq : exec i s = s.runWord i h body) {R : State → Prop}
    (hr : ∀ t, Beside x t e.n → R t) : Completes s i e fun t w' => R t ∧ w'.idle = w1.idle := by
  unfold Completes
  rw [heq, runWord_of_executes hx body he, hb]
  obtain ⟨w', a1, a2, a3, a4, a5, a6⟩ := finish_done (s := s) (e := e) (i := i) (num := s.srdNumber e.dry i)
    (show x.wave? e.n = some w1 from hw) (by rw [hs]; exact hx.split)
  exact ⟨_, w', rfl, a1, ⟨a3, a4, fun j hj => (a5 j hj).trans (by rw [hs])⟩, hr _ a6, a2⟩

/-- A word whose effect is one change of its own wave that keeps the splits. -/
theorem done_updWave {s : State} {i : Instr} {h : Head} {e : Env} (hx : Executes s i h e) {body : State → Env → Res}
    {f : Wave → Wave} (he : (body s e.dry).early = none) (hb : body s e = .done (s.updWave e.n f)) (hf : (f e.w).splits = e.w.splits)
    (heq : exec i s = s.runWord i h body) :
    Completes s i e fun t w' => Beside s t e.n ∧ w'.idle = (f e.w).idle := by
  unfold Completes
  rw [heq, runWord_of_executes hx body he, hb]
  have hxw : (s.updWave e.n f).wave? e.n = some (f e.w) := by
    show (s.updWave e.n f).wave? e.n = _
    simp [hx.wave]
  obtain ⟨w', a1, a2, a3, a4, a5, a6⟩ := finish_done (s := s) (e := e) (i := i) (num := s.srdNumber e.dry i) hxw
    (by rw [hf]; exact hx.split)
  exact ⟨_, w', rfl, a1, ⟨a3, a4, fun j hj => (a5 j hj).trans (by rw [hf])⟩, (beside_updWave ..).trans a6, a2⟩

/-- A word that does nothing but retire. -/
theorem done_same {s : State} {i : Instr} {h : Head} {e : Env} (hx : Executes s i h e) {body : State → Env → Res}
    (he : (body s e.dry).early = none) (hb : body s e = .done s) (heq : exec i s = s.runWord i h body) :
    Completes s i e fun t w' => Beside s t e.n ∧ w'.idle = e.w.idle := by
  unfold Completes
  rw [heq, runWord_of_executes hx body he, hb]
  obtain ⟨w', a1, a2, a3, a4, a5, a6⟩ := finish_done (s := s) (e := e) (i := i) (num := s.srdNumber e.dry i)
    (show s.wave? e.n = some e.w from hx.wave) hx.split
  exact ⟨_, w', rfl, a1, ⟨a3, a4, a5⟩, a6, a2⟩

/-! ### Value instructions of groups 0 and 1 -/

/-- The roles of an instruction that executes hold (R211). -/
theorem Executes.roles {s : State} {i : Instr} {h : Head} {e : Env} (hx : Executes s i h e) : i.rolesOk = true := by
  have := hx.checks
  unfold State.issueFault at this
  grind

/-- Where an instruction executes, its destination may stand in its role. -/
theorem Executes.destAllowed {s : State} {i : Instr} {h : Head} {e : Env} (hx : Executes s i h e) {r : Role} {d : Operand}
    {rest : List (Role × Operand)} (ho : i.operands = (r, d) :: rest) : r.allows d = true := by
  have := hx.roles
  simp only [Instr.rolesOk, ho, List.all_cons, Bool.and_eq_true] at this
  exact this.1.1.1.1

theorem dst_kind {n : Nat} {d : Operand} (h : (Role.dst n).allows d = true) : isVO d = true ∨ ∃ r, d = .s r := by
  cases d
  all_goals first | exact .inl rfl | exact .inr ⟨_, rfl⟩ | exact Bool.noConfusion h

theorem dstVO_kind {n : Nat} {d : Operand} (h : (Role.dstVO n).allows d = true) : isVO d = true := by
  cases d
  all_goals first | rfl | exact Bool.noConfusion h

/-- An S operand. -/
def isS : Operand → Bool
  | .s _ => true
  | _ => false

theorem scalar_eq {i : Instr} {d : Operand} {r : Role} {rest : List (Role × Operand)} (ho : i.operands = (r, d) :: rest)
    (hr : r.isDest = true) (hg : i.group = some 0 ∨ i.group = some 1) : i.scalar = isS d := by
  have hd : i.dest = some d := by unfold Instr.dest; rw [ho]; simp [hr]
  unfold Instr.scalar
  rw [hd]
  rcases hg with hg | hg <;> rw [hg] <;> cases d <;> rfl


theorem writeS_orFlags_splits (w : Wave) (d : Operand) (x : W64) (f : Flags) : ((w.writeS d x).orFlags f).splits = w.splits := by
  simp

theorem Completes.mono {s : State} {i : Instr} {e : Env} {P Q : State → Wave → Prop} (h : Completes s i e P)
    (hpq : ∀ t w, P t w → Q t w) : Completes s i e Q := by
  obtain ⟨t, w, a, b, c, d⟩ := h
  exact ⟨t, w, a, b, c, hpq t w d⟩

/-- A value instruction of groups 0 and 1 completes with the values of its function. -/
theorem valueOp_rule {s : State} {i : Instr} {h : Head} {e : Env} (hx : Executes s i h e) {d : Operand} {regs : Nat} {sx : Bool}
    {f : State → Env → Nat → W64 → W64 × Flags} {rest : List (Role × Operand)} (hr : regs = 1 ∨ regs = 2)
    (ho : i.operands = (.dst regs, d) :: rest) (hg : i.group = some 0 ∨ i.group = some 1)
    (heq : exec i s = s.valueOp i h d regs sx f) : ValueRule s i d regs sx e (f s e) := by
  have hsc : i.scalar = isS d := scalar_eq ho rfl hg
  rcases dst_kind (hx.destAllowed ho) with hd | ⟨r, rfl⟩
  · have hf : i.scalar = false := by rw [hsc]; cases d <;> simp [isVO, isS] at hd ⊢
    unfold State.valueOp at heq
    simp only [hf, Bool.false_eq_true, if_false] at heq
    have := laneOp_rule hx hd hr (f := f) (body := fun s e => s.laneOp e i d regs (f s e)) (fun _ => rfl) heq
    unfold ValueRule
    simp only [hf, Bool.false_eq_true, if_false]
    exact this
  · have hf : i.scalar = true := by rw [hsc]; rfl
    unfold State.valueOp at heq
    simp only [hf, if_true] at heq
    unfold ValueRule
    simp only [hf, if_true]
    by_cases hs : e.scalarRuns = true
    · have := done_updWave hx (f := fun w => (w.writeS (.s r) (if regs = 1 then (if sx then (lo32 (f s e e.first 0).1).signExtend 64
        else (lo32 (f s e e.first 0).1).setWidth 64) else (f s e e.first 0).1)).orFlags (f s e e.first 0).2)
        (by simp only [show e.dry.scalarRuns = true from hs, if_true]; rfl) (by simp only [hs, if_true]) (by simp) heq
      refine this.mono ?_
      rintro t w' ⟨hb, hw⟩
      refine ⟨hb, ?_⟩
      unfold ScalarResult
      unfold Env.scalarRuns at hs
      simp only [hs, if_true, hw, cut]
      congr 3
      cases sx <;> simp
      rcases hr with rfl | rfl <;> simp
    · have hs' : ¬ e.dry.scalarRuns = true := hs
      have := done_same hx (by simp only [hs', if_false, Bool.false_eq_true]; rfl) (by simp only [hs, if_false, Bool.false_eq_true]) heq
      refine this.mono ?_
      rintro t w' ⟨hb, hw⟩
      refine ⟨hb, ?_⟩
      unfold ScalarResult
      unfold Env.scalarRuns at hs
      simp only [hs, if_false, Bool.false_eq_true, hw]

/-- Functions that agree once cut give the same rule. -/
theorem ValueRule.congr {s : State} {i : Instr} {d : Operand} {regs : Nat} {sx : Bool} {e : Env} {f g : Nat → W64 → W64 × Flags}
    (hv : ∀ l p, cut regs (f l p).1 = cut regs (g l p).1) (hf : ∀ l p, (f l p).2 = (g l p).2)
    (h : ValueRule s i d regs sx e f) : ValueRule s i d regs sx e g := by
  refine Completes.mono h ?_
  intro t w'
  have hlo : ∀ l p, regs = 1 → lo32 (f l p).1 = lo32 (g l p).1 := by
    intro l p h1
    have := hv l p
    simp only [cut, h1, if_true] at this
    have := congrArg lo32 this
    simpa using this
  split
  · rintro ⟨hb, hs⟩
    refine ⟨hb, ?_⟩
    unfold ScalarResult at hs ⊢
    rw [hs]
    by_cases h1 : regs = 1
    · rw [hlo _ _ h1, hf, hv]
    · simp only [h1, false_and, if_false]; rw [hv, hf]
  · rintro ⟨hb, vals, h1, h2, h3⟩
    refine ⟨hb, vals, ?_, ?_, h3⟩
    · intro l hl; rw [← hv]; exact h1 l hl
    · rw [h2]; simp only [hf]

theorem cut_eq_wrap (t : IntTy) (x : W64) : cut t.regs x = wrap t.bits x.toNat := by
  cases t <;> simp only [IntTy.regs, IntTy.bits, cut, wrap, lo32, if_true]
  all_goals first
    | (apply BitVec.eq_of_toNat_eq; simp; omega)
    | (simp; done)
    | (apply BitVec.eq_of_toNat_eq; simp [Int.emod_emod_of_dvd]; omega)

theorem wrap_congr {b : Nat} {x y : Int} (h : x % 2 ^ b = y % 2 ^ b) : wrap b x = wrap b y := by
  unfold wrap; rw [h]

theorem value_emod (t : IntTy) (x : W64) : t.value x % 2 ^ t.bits = (x.toNat : Int) % 2 ^ t.bits := by
  unfold IntTy.value
  cases t <;> simp only [IntTy.bits, IntTy.signed] <;> simp <;> split <;> omega

/-- A value instruction of groups 2 and 3 completes with the values of its function. -/
theorem floatOp_rule {s : State} {i : Instr} {h : Head} {e : Env} (hx : Executes s i h e) {d : Operand} {regs : Nat} {sx : Bool}
    {f : State → Env → Nat → W64 → W64 × Flags} {rest : List (Role × Operand)} (hr : regs = 1 ∨ regs = 2)
    (ho : i.operands = (.dstVO regs, d) :: rest) (hg : i.group = some 2 ∨ i.group = some 3)
    (heq : exec i s = s.runWord i h fun s e => s.laneOp e i d regs (f s e)) : ValueRule s i d regs sx e (f s e) := by
  have hf : i.scalar = false := by unfold Instr.scalar; rcases hg with hg | hg <;> rw [hg] <;> rfl
  have := laneOp_rule hx (dstVO_kind (hx.destAllowed ho)) hr (f := f) (body := fun s e => s.laneOp e i d regs (f s e)) (fun _ => rfl) heq
  unfold ValueRule
  simp only [hf, Bool.false_eq_true, if_false]
  exact this

end Sys2Proof.Machine
end

