-- ==== Sys2Proof/Laws/Predicates.lean ====
section
/-!
SUPPORT. Predicate destinations (R99): one bit, the lanes of an instruction, and the rule of every instruction that sets a
predicate in each executing lane.
-/
namespace Sys2Proof.Machine

theorem laneBit_getLsbD (l j : Nat) (hj : j < 32) : (laneBit l).getLsbD j = decide (j = l) := by
  unfold laneBit; simp; grind

theorem Wave.mend_preg (w : Wave) (r : RegName) (l m : Nat) : (w.mend r l).preg m = w.preg m := by simp [Wave.preg]

theorem Wave.setPbit_pbit (w : Wave) (n l m j : Nat) (b : Bool) (hj : j < 32) :
    (w.setPbit n l b).pbit m j = if m = n ∧ n ≠ 7 ∧ j = l then b else w.pbit m j := by
  unfold Wave.setPbit Wave.pbit
  by_cases h7 : n = 7
  · subst h7; simp [Wave.setP_seven, Wave.mend_preg]
  · simp only [Wave.setP_preg _ _ _ _ h7, Wave.mend_preg]
    by_cases hm : m = n
    · subst hm
      have := laneBit_getLsbD l j hj
      cases b <;> simp [h7, hj] <;> grind
    · simp [hm]

theorem Wave.writePred_pbit (w : Wave) (d : Operand) (l m j : Nat) (b : Bool) (hj : j < 32) :
    (w.writePred d l b).pbit m j = if d = .p (BitVec.ofNat 3 m) ∧ m < 7 ∧ j = l then b else w.pbit m j := by
  cases d with
  | p n =>
    simp only [Wave.writePred]
    rw [Wave.setPbit_pbit _ _ _ _ _ _ hj]
    have : (m = n.toNat ∧ n.toNat ≠ 7 ∧ j = l) ↔ (Operand.p n = .p (BitVec.ofNat 3 m) ∧ m < 7 ∧ j = l) := by
      simp only [Operand.p.injEq]
      constructor
      · rintro ⟨rfl, h, h2⟩; exact ⟨by simp, by omega, h2⟩
      · rintro ⟨rfl, h, h2⟩; exact ⟨by simp; omega, by simp; omega, h2⟩
    simp only [this]
  | _ => simp [Wave.writePred]

/-- A wave but for P, the flags and the errors. -/
def Wave.sansP (w : Wave) : Wave := { w with p := [], fstat := 0, bad := [] }

theorem Wave.setP_sansP (w : Wave) (n : Nat) (x : W32) : (w.setP n x).sansP = w.sansP := by
  unfold Wave.setP; split <;> rfl
theorem Wave.mend_sansP (w : Wave) (r : RegName) (l : Nat) : (w.mend r l).sansP = w.sansP := by
  unfold Wave.mend; split <;> rfl
theorem Wave.writePred_sansP (w : Wave) (d : Operand) (l : Nat) (b : Bool) : (w.writePred d l b).sansP = w.sansP := by
  cases d with
  | p n => exact (Wave.setP_sansP ..).trans (Wave.mend_sansP ..)
  | _ => rfl
theorem Wave.orFlags_sansP (w : Wave) (f : Flags) : (w.orFlags f).sansP = w.sansP := by
  unfold Wave.orFlags; split <;> rfl
theorem Wave.orFlags_pbit (w : Wave) (f : Flags) (m j : Nat) : (w.orFlags f).pbit m j = w.pbit m j := by
  simp [Wave.pbit, Wave.preg]

/-- The predicates of some lanes one after another. -/
theorem predFold_spec {d : Operand} {f : Nat → Bool × Flags} : ∀ {ls : List Nat} {w : Wave}, (∀ l ∈ ls, l < 32) → ls.Nodup →
    (∀ m l, l < 32 → (ls.foldl (fun (w : Wave) l => (w.writePred d l (f l).1).orFlags (f l).2) w).pbit m l =
      if d = .p (BitVec.ofNat 3 m) ∧ m < 7 ∧ l ∈ ls then (f l).1 else w.pbit m l) ∧
    (ls.foldl (fun (w : Wave) l => (w.writePred d l (f l).1).orFlags (f l).2) w).sansP = w.sansP ∧
    (ls.foldl (fun (w : Wave) l => (w.writePred d l (f l).1).orFlags (f l).2) w).fstat =
      (if w.drover then w.fstat else ls.foldl (fun a l => a ||| (f l).2) w.fstat)
  | [], w, _, _ => by simp
  | j :: r, w, hlt, hnd => by
    have hj : j < 32 := hlt j (by simp)
    rw [List.nodup_cons] at hnd
    obtain ⟨h1, h2, h3⟩ := predFold_spec (d := d) (f := f) (ls := r) (w := (w.writePred d j (f j).1).orFlags (f j).2)
      (fun l hl => hlt l (by simp [hl])) hnd.2
    simp only [List.foldl_cons]
    refine ⟨fun m l hl => ?_, by rw [h2, Wave.orFlags_sansP, Wave.writePred_sansP], ?_⟩
    · rw [h1 m l hl, Wave.orFlags_pbit, Wave.writePred_pbit _ _ _ _ _ _ hl]
      grind
    · rw [h3]
      have hd : ((w.writePred d j (f j).1).orFlags (f j).2).drover = w.drover := by simp
      rw [hd]
      by_cases hw : w.drover = true
      · simp [hw, Wave.orFlags]
      · simp [hw, Wave.orFlags]

theorem lanesOf_nodup (m : W32) : (lanesOf m).Nodup := List.Nodup.sublist (List.filter_sublist) List.nodup_range

theorem lanePred_early (s : State) (e : Env) (i : Instr) (d : Operand) (f : Nat → Bool × Flags) : (s.lanePred e i d f).early = none := by
  unfold State.lanePred
  simp only
  cases s.badLane e i <;> rfl

theorem lanePred_rule {s : State} {i : Instr} {h : Head} {e : Env} (hx : Executes s i h e) {d : Operand}
    {f : State → Env → Nat → Bool × Flags} {body : State → Env → Res} (hb : ∀ e, body s e = s.lanePred e i d (f s e))
    (heq : exec i s = s.runWord i h body) : PredRule s i d e (f s e) := by
  unfold PredRule
  obtain ⟨h1, h2, h3⟩ := predFold_spec (d := d) (f := f s e) (ls := lanesOf e.exec) (w := e.w) (fun l hl => lanesOf_lt hl)
    (lanesOf_nodup _)
  have hb2 : body s e = .done (s.setWave e.n ((lanesOf e.exec).foldl (fun (w : Wave) l =>
      (w.writePred d l (f s e l).1).orFlags (f s e l).2) e.w)) := by
    rw [hb]; unfold State.lanePred; simp only [hx.intact, List.filter_eq_self.mpr (fun _ _ => rfl : ∀ a ∈ lanesOf e.exec, (fun _ => true) a = true)]
  generalize ((lanesOf e.exec).foldl (fun (w : Wave) l => (w.writePred d l (f s e l).1).orFlags (f s e l).2) e.w) = w1 at *
  have hsp : w1.splits = e.w.splits := by have := congrArg Wave.splits h2; exact this
  refine (done_wave hx (by rw [hb]; exact lanePred_early ..) hb2 (State.setWave_wave?_self ..) hsp heq (R := fun t => Beside s t e.n)
    fun t ht => (beside_setWave ..).trans ht).mono ?_
  rintro t w' ⟨hb3, hw⟩
  refine ⟨hb3, fun m l hl => ?_, ?_, ?_⟩
  · have : w'.p = w1.p := by have := congrArg Wave.p hw; exact this
    rw [← h1 m l hl]; simp [Wave.pbit, Wave.preg, this]
  · have : w'.fstat = w1.fstat := by have := congrArg Wave.fstat hw; exact this
    rw [this, h3]
  · have a : w'.sansPreds = w1.sansPreds := congrArg (fun x : Wave => { x with p := [], fstat := 0, bad := [] }) hw
    rw [a]; exact congrArg Wave.idle h2
end Sys2Proof.Machine
end

