-- ==== Sys2Proof/Laws/Lanes.lean ====
section
/-!
SUPPORT. Words that write lanes, one value, or predicates without reading a carry (R272–R275, R278).
-/
namespace Sys2Proof.Machine

theorem Wave.orFlags_zero (w : Wave) : w.orFlags 0 = w := by unfold Wave.orFlags; split <;> simp

/-- Writing the lanes of a mask is the fold of a value instruction that raises no flag. -/
theorem writeLanes_eq (d : Operand) {regs : Nat} (hr : regs = 1 ∨ regs = 2) (f : Nat → W64) (ls : List Nat) (w : Wave) (c : W64) :
    ls.foldl (fun w l => w.writeLane d regs l (f l)) w = (laneFold d regs false (fun l _ => (f l, 0)) ls w c).1 := by
  induction ls generalizing w with
  | nil => rfl
  | cons j r ih =>
    simp only [List.foldl_cons]
    have : w.writeLane d regs j (f j) = (w.writeLane d regs j (cut regs (f j))).orFlags 0 := by
      rw [Wave.orFlags_zero]
      rcases hr with rfl | rfl
      · cases d <;> simp [Wave.writeLane, cut]
      · simp [cut]
    rw [this, ih]; rfl

theorem writeLanes_results {e : Env} {i : Instr} {d : Operand} (hd : isVO d = true) {regs : Nat} (hr : regs = 1 ∨ regs = 2)
    (f : Nat → W64) : LaneResults e i d regs (fun l _ => (f l, 0)) (e.w.writeLanes d regs f e.exec) := by
  have := laneFold_results (e := e) (i := .nop ⟨0, false, 0⟩) hd hr (fun l _ => (f l, 0))
  unfold Wave.writeLanes
  rw [writeLanes_eq d hr f _ _ e.carry]
  exact this

theorem Wave.writeLanes_sansRegs (w : Wave) (d : Operand) (r : Nat) (f : Nat → W64) (m : W32) :
    (w.writeLanes d r f m).sansRegs = w.sansRegs := by
  unfold Wave.writeLanes
  generalize lanesOf m = ls
  induction ls generalizing w with
  | nil => rfl
  | cons j r ih => rw [List.foldl_cons, ih, Wave.writeLane_sansRegs]

/-- A word that writes the lanes of a V or O destination. -/
theorem writeLanes_rule {s : State} {i : Instr} {h : Head} {e : Env} (hx : Executes s i h e) {d : Operand} (hd : isVO d = true)
    {regs : Nat} (hr : regs = 1 ∨ regs = 2) {f : Nat → W64} {body : State → Env → Res}
    (hb : body s e = .done (s.updWave e.n fun w => w.writeLanes d regs f e.exec)) (hc : i.chainSlot = none) (heq : exec i s = s.runWord i h body) :
    LaneWrites s i d regs e f := by
  have hs := Wave.writeLanes_sansRegs e.w d regs f e.exec
  refine (done_wave hx (hx.early_none hc hb rfl) hb (w1 := e.w.writeLanes d regs f e.exec) (by simp [hx.wave]) (splits_of_sansRegs hs) heq
    (R := fun t => Beside s t e.n) fun t ht => (beside_updWave ..).trans ht).mono ?_
  rintro t w' ⟨h1, h2⟩
  refine ⟨h1, ?_, laneResults_congr (congrArg Wave.sansChains h2) (writeLanes_results hd hr f)⟩
  have : w'.chains = (e.w.writeLanes d regs f e.exec).chains := by have := congrArg Wave.chains h2; exact this
  rw [this, chains_of_sansRegs hs]

/-- A word that writes one value, to lanes or once. -/
theorem writeOnce_rule {s : State} {i : Instr} {h : Head} {e : Env} (hx : Executes s i h e) {d : Operand} {regs : Nat}
    (hd : isVO d = true ∨ ∃ n, d = .s n) (hr : regs = 1 ∨ regs = 2) {x : W64} {body : State → Env → Res}
    (hb : body s e = .done (s.writeOnce e d regs x)) (hc : i.chainSlot = none) (heq : exec i s = s.runWord i h body) : WritesOnce s i d regs e x := by
  rcases hd with hd | ⟨n, rfl⟩
  · have hw : WritesOnce s i d regs e x = LaneWrites s i d regs e fun _ => x := by cases d <;> simp_all [isVO, WritesOnce]
    rw [hw]
    by_cases hz : e.exec = 0
    · have hl : lanesOf e.exec = [] := by rw [hz]; decide
      refine (done_wave hx (x := s) (w1 := e.w) (hx.early_none hc (hb.trans (by simp [State.writeOnce, Env.runs, hz])) (Res.early_done s)) (by rw [hb]; simp [State.writeOnce, Env.runs, hz]) hx.wave rfl heq
        (R := fun t => Beside s t e.n) fun t ht => ht).mono ?_
      rintro t w' ⟨h1, h2⟩
      refine ⟨h1, by have := congrArg Wave.chains h2; exact this, laneResults_congr (w := e.w) (congrArg Wave.sansChains h2) ?_⟩
      have := writeLanes_results (e := e) (i := i) hd hr (fun _ => x)
      simpa [Wave.writeLanes, hl] using this
    · refine writeLanes_rule hx hd hr (f := fun _ => x) ?_ hc heq
      rw [hb]; unfold State.writeOnce; simp only [Env.runs, bne_iff_ne, ne_eq, hz, not_false_eq_true, if_true]
      congr 2; funext w; cases d <;> simp_all [isVO, Wave.writeS]
  · have hl : ∀ (ls : List Nat) (w : Wave), ls.foldl (fun w l => w.writeLane (.s n) regs l x) w = w := by
      intro ls; induction ls with
      | nil => intro w; rfl
      | cons j r ih => intro w; rw [List.foldl_cons, ih]; rfl
    by_cases hz : e.exec = 0
    · refine (done_same hx (hx.early_none hc (hb.trans (by simp [State.writeOnce, Env.runs, hz])) (Res.early_done s)) (by rw [hb]; simp [State.writeOnce, Env.runs, hz]) heq).mono ?_
      rintro t w' ⟨h1, h2⟩
      exact ⟨h1, by rw [if_neg (fun a => a hz), h2]⟩
    · refine (done_updWave hx (f := fun w => w.setS n.toNat x) (hx.early_none hc hb ?_) ?_ (by simp) heq).mono ?_
      · unfold State.writeOnce; split <;> rfl
      · rw [hb]; unfold State.writeOnce; simp only [Env.runs, bne_iff_ne, ne_eq, hz, not_false_eq_true, if_true]
        congr 2; funext w; simp only [Wave.writeLanes, hl, Wave.writeS]
      · rintro t w' ⟨h1, h2⟩
        exact ⟨h1, by rw [if_pos hz, h2]⟩

/-- A word that writes a predicate in each executing lane, without a flag. -/
theorem writePreds_rule {s : State} {i : Instr} {h : Head} {e : Env} (hx : Executes s i h e) {d : Operand} {f : Nat → Bool}
    {body : State → Env → Res}
    (hb : body s e = .done (s.updWave e.n fun w => (lanesOf e.exec).foldl (fun w l => w.writePred d l (f l)) w))
    (hc : i.chainSlot = none) (heq : exec i s = s.runWord i h body) : PredRule s i d e fun l => (f l, 0) := by
  have hf : ∀ (ls : List Nat) (w : Wave), ls.foldl (fun (w : Wave) l => w.writePred d l (f l)) w =
      ls.foldl (fun (w : Wave) l => (w.writePred d l (f l)).orFlags 0) w := by
    intro ls w; simp only [Wave.orFlags_zero]
  obtain ⟨h1, h2, h3⟩ := predFold_spec (d := d) (f := fun l => (f l, 0)) (ls := lanesOf e.exec) (w := e.w)
    (fun l hl => lanesOf_lt hl) (lanesOf_nodup _)
  simp only [← hf] at h1 h2 h3
  unfold PredRule
  refine (done_wave hx (hx.early_none hc hb rfl) hb (w1 := (lanesOf e.exec).foldl (fun (w : Wave) l => w.writePred d l (f l)) e.w)
    (by simp [hx.wave]) (by have := congrArg Wave.splits h2; exact this) heq
    (R := fun t => Beside s t e.n) fun t ht => (beside_updWave ..).trans ht).mono ?_
  rintro t w' ⟨hb3, hw⟩
  refine ⟨hb3, fun m l hl => ?_, ?_, ?_⟩
  · have : w'.p = ((lanesOf e.exec).foldl (fun (w : Wave) l => w.writePred d l (f l)) e.w).p := by
      have := congrArg Wave.p hw; exact this
    rw [← h1 m l hl]; simp [Wave.pbit, Wave.preg, this]
  · have : w'.fstat = ((lanesOf e.exec).foldl (fun (w : Wave) l => w.writePred d l (f l)) e.w).fstat := by
      have := congrArg Wave.fstat hw; exact this
    rw [this, h3]
  · have a := congrArg (fun x : Wave => { x with p := [], fstat := 0, bad := [] }) hw
    exact a.trans (congrArg Wave.idle h2)

end Sys2Proof.Machine
end

