-- ==== Sys2Proof/Laws/Flow.lean ====
section
/-!
SUPPORT. Words that jump, raise a trap, or wait (R136, R210, R233): what each leaves.
-/
namespace Sys2Proof.Machine

theorem shl3 (x : W64) : x <<< 3 = BitVec.ofInt 64 (8 * x.toInt) := by
  apply BitVec.eq_of_toNat_eq
  rw [BitVec.toNat_shiftLeft, BitVec.toNat_ofInt, BitVec.toInt_eq_toNat_cond, Nat.shiftLeft_eq]
  have := x.isLt
  split <;> omega

theorem add_ofInt (x : W64) (z : Int) : x + BitVec.ofInt 64 z = BitVec.ofInt 64 (x.toNat + z) := by
  apply BitVec.eq_of_toNat_eq
  rw [BitVec.toNat_add, BitVec.toNat_ofInt, BitVec.toNat_ofInt]
  have := x.isLt
  omega

theorem target_eq (pc : W64) (off : BitVec 20) : pc + (off.signExtend 64 <<< 3) = BitVec.ofInt 64 (pc.toNat + 8 * off.toInt) := by
  rw [shl3, BitVec.toInt_signExtend_of_le (by omega), add_ofInt]

theorem next_eq (p : Split) : p.nextHeader = BitVec.ofNat 64 (p.pc.toNat + 8 * ((headerOf (p.clause.headD 0)).count.toNat + 2)) := by
  unfold Split.nextHeader Split.header
  apply BitVec.eq_of_toNat_eq; simp

theorem jump_rule {s : State} {i : Instr} {h : Head} {e : Env} (hx : Executes s i h e) {x : State} {w1 : Wave} {p1 : Split} {dest : W64}
    {body : State → Env → Res} (he : (body s e.dry).early = none) (hb : body s e = .jump x dest) (hw : x.wave? e.n = some w1) (hp : Tab.find w1.splits e.k = some p1)
    (hbs : Beside s x e.n) (heq : exec i s = s.runWord i h body) :
    GoesTo s i e dest p1 w1.splits fun t w' => Beside s t e.n ∧ w'.idle = w1.idle := by
  unfold GoesTo
  rw [heq, runWord_of_executes hx body he, hb]
  obtain ⟨w', a1, a2, a3, a4, a5, a6⟩ := finish_jump (s := s) (e := e) (i := i) (num := s.srdNumber e.dry i) (target := dest)
    (show x.wave? e.n = some w1 from hw) hp
  exact ⟨_, w', _, rfl, a3, a1, a4, rfl, rfl, rfl, rfl, a5, hbs.trans a6, a2⟩

theorem checkTarget_ok {s : State} {e : Env} {a : W64} (h : HeaderAt s e a) : s.checkTarget e a = none := by
  obtain ⟨h1, h2, x, h3, h4⟩ := h
  unfold State.checkTarget
  rw [if_neg (by simp; omega), h3]
  simp [h4]

theorem transfer_ok {s : State} {e : Env} {a : W64} (h : HeaderAt s e a) (f : State → State) : s.transfer e a f = .jump (f s) a := by
  unfold State.transfer; rw [checkTarget_ok h]

theorem raises_rule {s : State} {i : Instr} {h : Head} {e : Env} (hx : Executes s i h e) {x : State} {tr : Trap}
    {body : State → Env → Res} (hb : body s e = .trap x tr) (hk : tr.kind = 0) (hc : i.chainSlot = none)
    (heq : exec i s = s.runWord i h body) : Raises s i e tr := by
  unfold Raises
  have he := hx.dry hc
  have hm : s.chainMark e i tr = tr := by unfold State.chainMark; rw [hc]
  rw [heq]
  cases hq : (body s e.dry).early with
  | none =>
    rw [runWord_of_executes hx body hq, hb]
    simp only [State.finish, State.finishTrap, hk, hm]
  | some t =>
    have ht : t = tr := by
      rw [he, hb] at hq
      unfold Res.early at hq
      simp only at hq
      split at hq
      · exact (Option.some.inj hq).symm
      · cases hq
    rw [runWord_early hx body hq, ht, he]
    simp only [State.finishTrap, hk, hm]

theorem jump_same {s : State} {i : Instr} {h : Head} {e : Env} (hx : Executes s i h e) {dest : W64}
    {body : State → Env → Res} (he : (body s e.dry).early = none) (hb : body s e = .jump s dest) (heq : exec i s = s.runWord i h body) :
    GoesTo s i e dest e.sp e.w.splits fun t w' => Beside s t e.n ∧ w'.idle = e.w.idle :=
  jump_rule hx he hb hx.wave hx.split (Beside.refl ..) heq

theorem jump_upd {s : State} {i : Instr} {h : Head} {e : Env} (hx : Executes s i h e) {dest : W64} {f : Wave → Wave} {w1 : Wave} (hf : f e.w = w1) (hs : w1.splits = e.w.splits)
    {body : State → Env → Res} (he : (body s e.dry).early = none) (hb : body s e = .jump (s.updWave e.n f) dest) (heq : exec i s = s.runWord i h body) :
    GoesTo s i e dest e.sp e.w.splits fun t w' => Beside s t e.n ∧ w'.idle = w1.idle := by
  have := jump_rule hx he hb (w1 := w1) (p1 := e.sp) (by simp [hx.wave, hf]) (by rw [hs]; exact hx.split) (beside_updWave ..) heq
  rwa [hs] at this

theorem runs_true {e : Env} (h : e.exec ≠ 0) : e.runs = true := by unfold Env.runs; exact bne_iff_ne.mpr h
theorem runs_false {e : Env} (h : e.exec = 0) : e.runs = false := by simp [Env.runs, h]

theorem wait_rule {s : State} {i : Instr} {h : Head} {e : Env} (hx : Executes s i h e) {x : Wait}
    {body : State → Env → Res} (he : (body s e.dry).early = none) (hb : body s e = .wait x) (heq : exec i s = s.runWord i h body) :
    exec i s = .next (s.pause e x) := by
  rw [heq, runWord_of_executes hx body he, hb]; rfl

end Sys2Proof.Machine
end

