-- ==== Sys2Proof/Laws/Integer.lean ====
section
/-!
SUPPORT. Integer arithmetic modulo the width of a type (R188, R261): the model's 64-bit operations against exact integers.
-/
namespace Sys2Proof.Machine

theorem IntTy.regs_cases (t : IntTy) : t.regs = 1 ∨ t.regs = 2 := by cases t <;> simp [IntTy.regs]
theorem regsOf_cases (w : Bool) : regsOf w = 1 ∨ regsOf w = 2 := by cases w <;> simp [regsOf]

theorem bits_dvd (t : IntTy) : (2 ^ t.bits : Int) ∣ 2 ^ 64 := by cases t <;> decide

theorem arith (t : IntTy) {x : W64} {z : Int} (h : (x.toNat : Int) % 2 ^ t.bits = z % 2 ^ t.bits) : cut t.regs x = cut t.regs (wrap t.bits z) := by
  rw [cut_eq_wrap, cut_eq_wrap]
  apply wrap_congr
  rw [h, wrap]
  have : 0 ≤ z % 2 ^ t.bits ∧ z % 2 ^ t.bits < 2 ^ 64 := by
    cases t <;> simp only [IntTy.bits] <;> omega
  simp only [BitVec.toNat_ofNat]
  have h2 : ((z % 2 ^ t.bits).toNat % 2 ^ 64 : Nat) = (z % 2 ^ t.bits).toNat := by omega
  rw [h2, Int.toNat_of_nonneg this.1, Int.emod_emod]

theorem signedTy_bits (w : Bool) : (signedTy w).bits = widthOf w := by cases w <;> rfl
theorem signedTy_regs (w : Bool) : (signedTy w).regs = regsOf w := by cases w <;> rfl

theorem add_mod (t : IntTy) (x y : W64) : ((x + y).toNat : Int) % 2 ^ t.bits = (t.value x + t.value y) % 2 ^ t.bits := by
  rw [Int.add_emod, value_emod, value_emod, ← Int.add_emod]; simp only [BitVec.toNat_add]
  rw [Int.natCast_emod]; exact Int.emod_emod_of_dvd _ (bits_dvd t)
theorem mul_mod (t : IntTy) (x y : W64) : ((x * y).toNat : Int) % 2 ^ t.bits = (t.value x * t.value y) % 2 ^ t.bits := by
  rw [Int.mul_emod, value_emod, value_emod, ← Int.mul_emod]; simp only [BitVec.toNat_mul]
  rw [Int.natCast_emod]; exact Int.emod_emod_of_dvd _ (bits_dvd t)
theorem neg_mod (t : IntTy) (x : W64) : ((-x).toNat : Int) % 2 ^ t.bits = (-t.value x) % 2 ^ t.bits := by
  have h := value_emod t x
  have hx := x.isLt
  simp only [BitVec.toNat_neg]
  cases t <;> simp only [IntTy.bits] at h ⊢ <;> omega
theorem sub_mod (t : IntTy) (x y : W64) : ((x - y).toNat : Int) % 2 ^ t.bits = (t.value x - t.value y) % 2 ^ t.bits := by
  have h := value_emod t x
  have h2 := value_emod t y
  simp only [BitVec.toNat_sub]
  have := x.isLt; have := y.isLt
  cases t <;> simp only [IntTy.bits] at h h2 ⊢ <;> omega


theorem mad_mod (t : IntTy) (x y z : W64) : ((x * y + z).toNat : Int) % 2 ^ t.bits = (t.value x * t.value y + t.value z) % 2 ^ t.bits := by
  rw [add_mod, Int.add_emod, value_emod t (x*y), mul_mod, ← Int.add_emod]



theorem minInt_value (t : IntTy) (x y : W64) : t.value (minInt t x y) = min (t.value x) (t.value y) := by unfold minInt; grind
theorem maxInt_value (t : IntTy) (x y : W64) : t.value (maxInt t x y) = max (t.value x) (t.value y) := by unfold maxInt; grind
theorem min_mod (t : IntTy) (x y : W64) : ((minInt t x y).toNat : Int) % 2 ^ t.bits = (min (t.value x) (t.value y)) % 2 ^ t.bits := by
  rw [← value_emod, minInt_value]
theorem max_mod (t : IntTy) (x y : W64) : ((maxInt t x y).toNat : Int) % 2 ^ t.bits = (max (t.value x) (t.value y)) % 2 ^ t.bits := by
  rw [← value_emod, maxInt_value]
theorem clamp_mod (t : IntTy) (x y z : W64) : ((minInt t (maxInt t x y) z).toNat : Int) % 2 ^ t.bits = (min (max (t.value x) (t.value y)) (t.value z)) % 2 ^ t.bits := by
  rw [← value_emod, minInt_value, maxInt_value]
theorem sat_eq (t : IntTy) (x : Int) : (t.saturate x).1 = min (max x t.min) t.max := by
  have : t.min ≤ t.max := by cases t <;> decide
  unfold IntTy.saturate; grind

end Sys2Proof.Machine
end

