-- ==== Sys2Proof/Laws/Memory.lean ====
section
/-!
SUPPORT. The memory of the device (R143, R146, R218): what a write leaves, and that every memory operation keeps the canonical form.
-/
namespace Sys2Proof.Machine

theorem Memory.wf_write {m : Memory} {k : Nat} {b : Byte} (h : m.wf = true) : (m.write k b).wf = true := Tab.wf_put h

theorem Memory.wf_forget {m : Memory} {d n : Nat} (h : m.wf = true) : (m.forget d n).wf = true := Tab.wf_keep h

/-- A byte that is written reads back, and every other location keeps what it holds. -/
theorem Memory.read_write (m : Memory) (k j : Nat) (b : Byte) : (m.write k b).read j = if j = k then some b else m.read j := by
  unfold Memory.write Memory.read
  rw [Tab.find_put]

/-- A run of locations whose contents are forgotten holds no written value. -/
theorem Memory.read_forget (m : Memory) (d n j : Nat) : (m.forget d n).read j = if inRun d n j then none else m.read j := by
  unfold Memory.forget Memory.read
  rw [Tab.find_keep]
  cases inRun d n j <;> simp

theorem State.memWf_of_eq {s t : State} (hm : t.mem = s.mem) (hl : t.launches = s.launches) (h : s.memWf) : t.memWf := by
  unfold State.memWf
  rw [hm, hl]
  exact h

theorem State.memWf_write {s : State} {k : Nat} {b : Byte} (h : s.memWf) : State.memWf { s with mem := s.mem.write k b } :=
  ⟨Memory.wf_write h.1, h.2⟩

theorem State.memWf_forget {s : State} {d n : Nat} (h : s.memWf) : State.memWf { s with mem := s.mem.forget d n } :=
  ⟨Memory.wf_forget h.1, h.2⟩

/-- A launch may change in any part but its snapshot. -/
theorem State.memWf_updLaunch {s : State} {l : Nat} {f : Launch → Launch} (hf : ∀ x, x.snapshot.wf = true → (f x).snapshot.wf = true)
    (h : s.memWf) : (s.updLaunch l f).memWf :=
  ⟨h.1, Tab.all_upd (P := fun (x : Launch) => x.snapshot.wf = true) h.2 hf⟩

theorem State.memWf_freshBytes {n : Nat} : ∀ {s : State} {k : Nat}, s.memWf → (s.freshBytes k n).memWf := by
  induction n with
  | zero => exact fun h => h
  | succ n ih =>
    intro s k h
    exact ih (State.memWf_write (s := (s.freeVal 8).2) (State.memWf_of_eq rfl rfl h))

theorem State.memWf_rewriteSector {s : State} {sec : Nat} (h : s.memWf) : (s.rewriteSector sec).memWf := by
  unfold State.rewriteSector
  split
  · exact h
  · exact State.memWf_of_eq rfl rfl h
  · exact State.memWf_freshBytes (State.memWf_of_eq rfl rfl h)

theorem State.memWf_noteDirty {s : State} {by' : Writer} {sec : Nat} (h : s.memWf) : (s.noteDirty by' sec).memWf := by
  unfold State.noteDirty
  split
  · exact h
  · refine State.memWf_updLaunch (fun x hx => ?_) h
    split <;> exact hx

theorem State.memWf_putByte {s : State} {by' : Writer} {k : Nat} {b : Byte} (h : s.memWf) : (s.putByte by' k b).memWf :=
  State.memWf_write (State.memWf_noteDirty (State.memWf_rewriteSector h))

theorem State.memWf_putBytes {by' : Writer} {id : Nat} : ∀ {bs : List Byte} {s : State} {a : Nat}, s.memWf → (s.putBytes by' id a bs).memWf
  | [], _, _, h => h
  | b :: r, s, a, h => by
    unfold State.putBytes
    refine State.memWf_putBytes (bs := r) ?_
    split
    · split
      · split
        · exact State.memWf_putByte h
        · exact h
      · exact h
    · exact h

theorem State.memWf_giveFrames {s : State} {d n : Nat} (h : s.memWf) : (s.giveFrames d n).memWf := ⟨Memory.wf_forget h.1, h.2⟩

/-- Taking frames changes neither memory nor a launch. -/
theorem State.takeFrames_mem {s t : State} {n f : Nat} {die : Option Nat} (h : s.takeFrames n die = some (f, t)) :
    t.mem = s.mem ∧ t.launches = s.launches := by
  unfold State.takeFrames at h
  simp only at h
  split at h
  · cases h; exact ⟨rfl, rfl⟩
  · split at h
    · split at h
      · cases h; exact ⟨rfl, rfl⟩
      · cases h
    · split at h
      · cases h
      · split at h
        · cases h; exact ⟨rfl, rfl⟩
        · cases h

theorem State.memWf_mapPage {s t : State} {id a : Nat} {p : Page} (h : s.memWf) (ht : s.mapPage id a p = some t) : t.memWf := by
  unfold State.mapPage at ht
  split at ht
  · cases ht
  · rename_i f u hu
    have hm := State.takeFrames_mem hu
    cases ht
    exact State.memWf_of_eq (s := { u with mem := u.mem.forget f (2 ^ p.log2) }) rfl rfl
      (State.memWf_forget (State.memWf_of_eq hm.1 hm.2 h))

/-- Host memory is no memory of the device. -/
theorem State.memWf_putHost : ∀ {bs : List Byte} {s : State} {a : Nat}, s.memWf → (s.putHost a bs).memWf
  | [], _, _, h => h
  | _ :: r, _, _, h => State.memWf_putHost (bs := r) (State.memWf_of_eq rfl rfl h)

theorem reset_memWf : State.reset.memWf := by
  refine ⟨rfl, ?_⟩
  intro x hx
  cases hx

end Sys2Proof.Machine
end

