-- ==== Sys2Proof/Laws/PerInstr.lean ====
section
/-!
SUPPORT. What holds of each instruction as syntax, one lemma for each constructor: the opcode map leads from an instruction's encoded
opcode and modifiers back to it.
-/
namespace Sys2Proof.Laws.RowFits

/-- A field of a word holds what its use says: zero, half of an offset, or the field of an operand. -/
def Fits (u : FieldUse) (x : Operand) (f : BitVec 10) : Prop :=
  match u with
  | .unused => f = 0
  | .offset => True
  | _ => f = x.field

/-- The operand a field contributes. -/
def used (u : FieldUse) (x : Operand) : List Operand :=
  match u with
  | .operand | .dest => [x]
  | _ => []

/-- An instruction word whose modifiers are allowed stands in the opcode map, in a row that makes it of its operands, each in its field
and in the order D, A, B, C; a step that is no word has no encoding (R228, R230–R250). -/
def Statement (i : Instr) : Prop :=
  match i.parts, i.head? with
  | some ⟨opc, md, pd, pa, pb, pc⟩, some h => i.modOk = true → ∃ r, rowOf opc.toNat md = some r ∧ ∃ d a b c,
      r.make h (pb ++ pc) d a b c = i ∧ Fits r.d d pd ∧ Fits r.a a pa ∧ Fits r.b b pb ∧ Fits r.c c pc ∧
      i.operands.map (·.2) = used r.d d ++ used r.a a ++ used r.b b ++ used r.c c
  | _, _ => encode i = none

/-- The two halves of an offset make it. -/
theorem halves (x : BitVec 20) : x.extractLsb' 10 10 ++ x.extractLsb' 0 10 = x := by
  refine BitVec.eq_of_getElem_eq fun i hi => ?_
  rw [BitVec.getElem_append]
  by_cases h : i < 10
  · simp [h, BitVec.getLsbD_eq_getElem hi]
  · have : 10 + (i - 10) = i := by omega
    simp [h, this, BitVec.getLsbD_eq_getElem hi]

/-- A value of two bits is one of four. -/
theorem bits2 {motive : BitVec 2 → Prop} (h0 : motive 0) (h1 : motive 1) (h2 : motive 2) (h3 : motive 3) (x : BitVec 2) : motive x := by
  rcases x with ⟨⟨n, h⟩⟩
  match n, h with
  | 0, _ => exact h0
  | 1, _ => exact h1
  | 2, _ => exact h2
  | 3, _ => exact h3

/-- A value of three bits is one of eight. -/
theorem bits3 {motive : BitVec 3 → Prop} (h0 : motive 0) (h1 : motive 1) (h2 : motive 2) (h3 : motive 3) (h4 : motive 4) (h5 : motive 5)
    (h6 : motive 6) (h7 : motive 7) (x : BitVec 3) : motive x := by
  rcases x with ⟨⟨n, h⟩⟩
  match n, h with
  | 0, _ => exact h0
  | 1, _ => exact h1
  | 2, _ => exact h2
  | 3, _ => exact h3
  | 4, _ => exact h4
  | 5, _ => exact h5
  | 6, _ => exact h6
  | 7, _ => exact h7

/-! ### Steps that are no instruction words -/

theorem moduleStart (inp : StartInputs) : Statement (.moduleStart inp) := rfl
theorem flitReceive (boundary : Nat) (dir : Bool) (tag : BitVec 16) (crcOk : Bool) (payload : W64) : Statement (.flitReceive boundary dir tag crcOk payload) := rfl
theorem boundaryRetrain (boundary : Nat) (success : Bool) : Statement (.boundaryRetrain boundary success) := rfl
theorem boundaryDown (boundary : Nat) : Statement (.boundaryDown boundary) := rfl
theorem patrolStep (stack sector : Nat) : Statement (.patrolStep stack sector) := rfl
theorem thermalThrottle (die temperature : Nat) : Statement (.thermalThrottle die temperature) := rfl
theorem thermalRelease (die temperature : Nat) : Statement (.thermalRelease die temperature) := rfl
theorem thermalTrip (die temperature : Nat) : Statement (.thermalTrip die temperature) := rfl
theorem lifeRecompute (dies : List DieReading) (trends : List W32) : Statement (.lifeRecompute dies trends) := rfl
theorem portSpeedChange (port : Nat) (speed : PortSpeed) : Statement (.portSpeedChange port speed) := rfl
theorem uetPacketReceive (packet : Packet) : Statement (.uetPacketReceive packet) := rfl
theorem roceConnectionSetup (port owner : Nat) (request : RoceRequest) : Statement (.roceConnectionSetup port owner request) := rfl
theorem commandAppend (owner : Nat) : Statement (.commandAppend owner) := rfl
theorem commandRingRoom (owner : Nat) : Statement (.commandRingRoom owner) := rfl
theorem commandDispatch (owner : Nat) : Statement (.commandDispatch owner) := rfl
theorem commandCompletion (owner cmd : Nat) : Statement (.commandCompletion owner cmd) := rfl
theorem completionRingRoom (owner : Nat) : Statement (.completionRingRoom owner) := rfl
theorem bootstrapCtxOpen : Statement .bootstrapCtxOpen := rfl
theorem ctxOpen (owner cmd : Nat) : Statement (.ctxOpen owner cmd) := rfl
theorem ctxClose (owner cmd : Nat) : Statement (.ctxClose owner cmd) := rfl
theorem map (owner cmd : Nat) : Statement (.map owner cmd) := rfl
theorem unmap (owner cmd : Nat) : Statement (.unmap owner cmd) := rfl
theorem shadow (owner cmd : Nat) : Statement (.shadow owner cmd) := rfl
theorem copyIn (owner cmd : Nat) : Statement (.copyIn owner cmd) := rfl
theorem copyOut (owner cmd : Nat) : Statement (.copyOut owner cmd) := rfl
theorem launch (owner cmd : Nat) : Statement (.launch owner cmd) := rfl
theorem post (owner cmd : Nat) : Statement (.post owner cmd) := rfl
theorem signal (owner cmd : Nat) : Statement (.signal owner cmd) := rfl
theorem waitev (owner cmd : Nat) : Statement (.waitev owner cmd) := rfl
theorem waitevSatisfied (owner cmd : Nat) : Statement (.waitevSatisfied owner cmd) := rfl
theorem waitevTimeout (owner cmd : Nat) : Statement (.waitevTimeout owner cmd) := rfl
theorem preempt (owner cmd : Nat) : Statement (.preempt owner cmd) := rfl
theorem resume (owner cmd : Nat) : Statement (.resume owner cmd) := rfl
theorem queryStatus (owner cmd : Nat) : Statement (.queryStatus owner cmd) := rfl
theorem queryLife (owner cmd : Nat) : Statement (.queryLife owner cmd) := rfl
theorem querySetTimeBase (owner cmd : Nat) : Statement (.querySetTimeBase owner cmd) := rfl
theorem queryClearCounters (owner cmd : Nat) : Statement (.queryClearCounters owner cmd) := rfl
theorem fwloadConfigurationRecord (owner cmd : Nat) : Statement (.fwloadConfigurationRecord owner cmd) := rfl
theorem fwloadTalazFirmware (owner cmd : Nat) : Statement (.fwloadTalazFirmware owner cmd) := rfl
theorem fwloadSecurityFirmware (owner cmd : Nat) : Statement (.fwloadSecurityFirmware owner cmd) := rfl
theorem getVersion (via : SpdmVia) : Statement (.getVersion via) := rfl
theorem getCapabilities (via : SpdmVia) : Statement (.getCapabilities via) := rfl
theorem negotiateAlgorithms (via : SpdmVia) : Statement (.negotiateAlgorithms via) := rfl
theorem getDigests (via : SpdmVia) : Statement (.getDigests via) := rfl
theorem getCertificate (via : SpdmVia) : Statement (.getCertificate via) := rfl
theorem challenge (via : SpdmVia) : Statement (.challenge via) := rfl
theorem getMeasurements (via : SpdmVia) : Statement (.getMeasurements via) := rfl
theorem spdmUnsupportedRequest (via : SpdmVia) : Statement (.spdmUnsupportedRequest via) := rfl
theorem spanOffer (env : Envelope) (owner lead : Nat) (generation : W32) (record : List Byte) : Statement (.spanOffer env owner lead generation record) := rfl
theorem spanAck (env : Envelope) (launch peer : Nat) (generation : W32) : Statement (.spanAck env launch peer generation) := rfl
theorem spanNak (env : Envelope) (launch peer : Nat) (generation : W32) : Statement (.spanNak env launch peer generation) := rfl
theorem spanGo (env : Envelope) (owner : Nat) (generation : W32) : Statement (.spanGo env owner generation) := rfl
theorem spanAbort (env : Envelope) (owner : Nat) (generation : W32) : Statement (.spanAbort env owner generation) := rfl
theorem spanDone (env : Envelope) (launch peer : Nat) (generation : W32) (status : PartEnd) (cause : Nat) : Statement (.spanDone env launch peer generation status cause) := rfl
theorem spanTimeout (launch : Nat) : Statement (.spanTimeout launch) := rfl
theorem remoteAccess (env : Envelope) (owner requester : Nat) (address : W64) (op : RemoteOp) (posted : Bool) : Statement (.remoteAccess env owner requester address op posted) := rfl
theorem remoteAcknowledgement (env : Envelope) (request : Nat) (ok : Bool) (data : List Byte) : Statement (.remoteAcknowledgement env request ok data) := rfl
theorem teamPlacement (launch : Nat) (cores : List Nat) : Statement (.teamPlacement launch cores) := rfl
theorem bell (launch : Nat) : Statement (.bell launch) := rfl
theorem gather (owner core : Nat) : Statement (.gather owner core) := rfl
theorem steal (owner core : Nat) : Statement (.steal owner core) := rfl
theorem holdRevert (owner queue : Nat) : Statement (.holdRevert owner queue) := rfl
theorem queueCommitRoom (owner queue : Nat) : Statement (.queueCommitRoom owner queue) := rfl
theorem deadlockBreak (core : Nat) : Statement (.deadlockBreak core) := rfl
theorem claimGrant (core : Nat) : Statement (.claimGrant core) := rfl
theorem issueGuarantee (wave : Nat) : Statement (.issueGuarantee wave) := rfl
theorem sleepExpiry (wave : Nat) : Statement (.sleepExpiry wave) := rfl
theorem clauseFetch (wave split : Nat) : Statement (.clauseFetch wave split) := rfl
theorem priorityPreemption (launch team : Nat) : Statement (.priorityPreemption launch team) := rfl
theorem preemptionTrap (wave : Nat) : Statement (.preemptionTrap wave) := rfl
theorem forcedSave (team : Nat) : Statement (.forcedSave team) := rfl
theorem launchCompletion (launch : Nat) : Statement (.launchCompletion launch) := rfl
theorem copyCompletion (engine : Nat) : Statement (.copyCompletion engine) := rfl
theorem matrixCompletion (engine : Nat) : Statement (.matrixCompletion engine) := rfl
theorem hrunCompletion (engine : Nat) : Statement (.hrunCompletion engine) := rfl
theorem pubSwap (engine : Nat) : Statement (.pubSwap engine) := rfl
theorem rqresWaitRetry (wave : Nat) : Statement (.rqresWaitRetry wave) := rfl
theorem rqtakeWaitRetry (wave : Nat) : Statement (.rqtakeWaitRetry wave) := rfl
theorem jinitPoolWait (wave : Nat) : Statement (.jinitPoolWait wave) := rfl
theorem ivgilBreak (owner : Nat) (clause : W64) : Statement (.ivgilBreak owner clause) := rfl
theorem ivgilRun (owner : Nat) : Statement (.ivgilRun owner) := rfl
theorem ivgilStep (wave : Nat) : Statement (.ivgilStep wave) := rfl
theorem ivgilTiming (wave : Nat) : Statement (.ivgilTiming wave) := rfl
theorem ivgilPrint (what : PrintWhat) : Statement (.ivgilPrint what) := rfl
theorem ivgilLanes (wave : Nat) : Statement (.ivgilLanes wave) := rfl
theorem ivgilChain (wave slot : Nat) : Statement (.ivgilChain wave slot) := rfl
theorem ivgilTokens (wave : Nat) : Statement (.ivgilTokens wave) := rfl
theorem ivgilBarrier (team bar : Nat) : Statement (.ivgilBarrier team bar) := rfl
theorem ivgilCatch (owner cause : Nat) : Statement (.ivgilCatch owner cause) := rfl
theorem ivgilTrap (wave : Nat) : Statement (.ivgilTrap wave) := rfl
theorem ivgilPrintPool (owner : Nat) : Statement (.ivgilPrintPool owner) := rfl
theorem coreResetOrPowerGating (core : Nat) : Statement (.coreResetOrPowerGating core) := rfl
theorem transportRetryLimitExhausted (request : Nat) : Statement (.transportRetryLimitExhausted request) := rfl
theorem powerLimitWithholding (withhold : Bool) : Statement (.powerLimitWithholding withhold) := rfl

/-! ### Instruction words -/

theorem nop (h : Head) : Statement (.nop h) := by
  intro hm
  exact ⟨_, rfl, .zero, .zero, .zero, .zero, by rfl, by rfl, by rfl, by rfl, by rfl, by rfl⟩
theorem mov (h : Head) (w64 first : Bool) (d a : Operand) : Statement (.mov h w64 first d a) := by
  intro hm
  cases w64 <;> cases first <;>
    exact ⟨_, rfl, d, a, .zero, .zero, by rfl, by rfl, by rfl, by rfl, by rfl, by rfl⟩
theorem iadd (h : Head) (t : IntTy) (d a b : Operand) : Statement (.iadd h t d a b) := by
  intro hm
  cases t <;>
    exact ⟨_, rfl, d, a, b, .zero, by rfl, by rfl, by rfl, by rfl, by rfl, by rfl⟩
theorem isub (h : Head) (t : IntTy) (d a b : Operand) : Statement (.isub h t d a b) := by
  intro hm
  cases t <;>
    exact ⟨_, rfl, d, a, b, .zero, by rfl, by rfl, by rfl, by rfl, by rfl, by rfl⟩
theorem imul (h : Head) (t : IntTy) (d a b : Operand) : Statement (.imul h t d a b) := by
  intro hm
  cases t <;>
    exact ⟨_, rfl, d, a, b, .zero, by rfl, by rfl, by rfl, by rfl, by rfl, by rfl⟩
theorem imulh (h : Head) (t : IntTy) (d a b : Operand) : Statement (.imulh h t d a b) := by
  intro hm
  cases t <;>
    exact ⟨_, rfl, d, a, b, .zero, by rfl, by rfl, by rfl, by rfl, by rfl, by rfl⟩
theorem imad (h : Head) (t : IntTy) (d a b c : Operand) : Statement (.imad h t d a b c) := by
  intro hm
  cases t <;>
    exact ⟨_, rfl, d, a, b, c, by rfl, by rfl, by rfl, by rfl, by rfl, by rfl⟩
theorem imin (h : Head) (t : IntTy) (d a b : Operand) : Statement (.imin h t d a b) := by
  intro hm
  cases t <;>
    exact ⟨_, rfl, d, a, b, .zero, by rfl, by rfl, by rfl, by rfl, by rfl, by rfl⟩
theorem imax (h : Head) (t : IntTy) (d a b : Operand) : Statement (.imax h t d a b) := by
  intro hm
  cases t <;>
    exact ⟨_, rfl, d, a, b, .zero, by rfl, by rfl, by rfl, by rfl, by rfl, by rfl⟩
theorem iabs (h : Head) (w64 : Bool) (d a : Operand) : Statement (.iabs h w64 d a) := by
  intro hm
  cases w64 <;>
    exact ⟨_, rfl, d, a, .zero, .zero, by rfl, by rfl, by rfl, by rfl, by rfl, by rfl⟩
theorem ineg (h : Head) (w64 : Bool) (d a : Operand) : Statement (.ineg h w64 d a) := by
  intro hm
  cases w64 <;>
    exact ⟨_, rfl, d, a, .zero, .zero, by rfl, by rfl, by rfl, by rfl, by rfl, by rfl⟩
theorem lea (h : Head) (sh : BitVec 3) (zx : Bool) (d a b : Operand) : Statement (.lea h sh zx d a b) := by
  intro hm
  induction sh using bits3 <;> cases zx <;>
    exact ⟨_, rfl, d, a, b, .zero, by rfl, by rfl, by rfl, by rfl, by rfl, by rfl⟩
theorem icmp (h : Head) (t : IntTy) (cond : IntCond) (d a b : Operand) : Statement (.icmp h t cond d a b) := by
  intro hm
  cases t <;> cases cond <;>
    exact ⟨_, rfl, d, a, b, .zero, by rfl, by rfl, by rfl, by rfl, by rfl, by rfl⟩
theorem isel (h : Head) (w64 : Bool) (d a b c : Operand) : Statement (.isel h w64 d a b c) := by
  intro hm
  cases w64 <;>
    exact ⟨_, rfl, d, a, b, c, by rfl, by rfl, by rfl, by rfl, by rfl, by rfl⟩
theorem iclamp (h : Head) (t : IntTy) (d a b c : Operand) : Statement (.iclamp h t d a b c) := by
  intro hm
  cases t <;>
    exact ⟨_, rfl, d, a, b, c, by rfl, by rfl, by rfl, by rfl, by rfl, by rfl⟩
theorem iadds (h : Head) (t : IntTy) (d a b : Operand) : Statement (.iadds h t d a b) := by
  intro hm
  cases t <;>
    exact ⟨_, rfl, d, a, b, .zero, by rfl, by rfl, by rfl, by rfl, by rfl, by rfl⟩
theorem idot4 (h : Head) (sa sb : Bool) (d a b c : Operand) : Statement (.idot4 h sa sb d a b c) := by
  intro hm
  cases sa <;> cases sb <;>
    exact ⟨_, rfl, d, a, b, c, by rfl, by rfl, by rfl, by rfl, by rfl, by rfl⟩
theorem land (h : Head) (w64 : Bool) (d a b : Operand) : Statement (.land h w64 d a b) := by
  intro hm
  cases w64 <;>
    exact ⟨_, rfl, d, a, b, .zero, by rfl, by rfl, by rfl, by rfl, by rfl, by rfl⟩
theorem lor (h : Head) (w64 : Bool) (d a b : Operand) : Statement (.lor h w64 d a b) := by
  intro hm
  cases w64 <;>
    exact ⟨_, rfl, d, a, b, .zero, by rfl, by rfl, by rfl, by rfl, by rfl, by rfl⟩
theorem lxor (h : Head) (w64 : Bool) (d a b : Operand) : Statement (.lxor h w64 d a b) := by
  intro hm
  cases w64 <;>
    exact ⟨_, rfl, d, a, b, .zero, by rfl, by rfl, by rfl, by rfl, by rfl, by rfl⟩
theorem andn (h : Head) (w64 : Bool) (d a b : Operand) : Statement (.andn h w64 d a b) := by
  intro hm
  cases w64 <;>
    exact ⟨_, rfl, d, a, b, .zero, by rfl, by rfl, by rfl, by rfl, by rfl, by rfl⟩
theorem lnot (h : Head) (w64 : Bool) (d a : Operand) : Statement (.lnot h w64 d a) := by
  intro hm
  cases w64 <;>
    exact ⟨_, rfl, d, a, .zero, .zero, by rfl, by rfl, by rfl, by rfl, by rfl, by rfl⟩
theorem shl (h : Head) (w64 : Bool) (d a b : Operand) : Statement (.shl h w64 d a b) := by
  intro hm
  cases w64 <;>
    exact ⟨_, rfl, d, a, b, .zero, by rfl, by rfl, by rfl, by rfl, by rfl, by rfl⟩
theorem shr (h : Head) (w64 : Bool) (d a b : Operand) : Statement (.shr h w64 d a b) := by
  intro hm
  cases w64 <;>
    exact ⟨_, rfl, d, a, b, .zero, by rfl, by rfl, by rfl, by rfl, by rfl, by rfl⟩
theorem sar (h : Head) (w64 : Bool) (d a b : Operand) : Statement (.sar h w64 d a b) := by
  intro hm
  cases w64 <;>
    exact ⟨_, rfl, d, a, b, .zero, by rfl, by rfl, by rfl, by rfl, by rfl, by rfl⟩
theorem rol (h : Head) (w64 : Bool) (d a b : Operand) : Statement (.rol h w64 d a b) := by
  intro hm
  cases w64 <;>
    exact ⟨_, rfl, d, a, b, .zero, by rfl, by rfl, by rfl, by rfl, by rfl, by rfl⟩
theorem bfx (h : Head) (w64 sx : Bool) (d a c : Operand) : Statement (.bfx h w64 sx d a c) := by
  intro hm
  cases w64 <;> cases sx <;>
    exact ⟨_, rfl, d, a, .zero, c, by rfl, by rfl, by rfl, by rfl, by rfl, by rfl⟩
theorem bfi (h : Head) (w64 : Bool) (d a b c : Operand) : Statement (.bfi h w64 d a b c) := by
  intro hm
  cases w64 <;>
    exact ⟨_, rfl, d, a, b, c, by rfl, by rfl, by rfl, by rfl, by rfl, by rfl⟩
theorem popc (h : Head) (w64 : Bool) (d a : Operand) : Statement (.popc h w64 d a) := by
  intro hm
  cases w64 <;>
    exact ⟨_, rfl, d, a, .zero, .zero, by rfl, by rfl, by rfl, by rfl, by rfl, by rfl⟩
theorem clz (h : Head) (w64 : Bool) (d a : Operand) : Statement (.clz h w64 d a) := by
  intro hm
  cases w64 <;>
    exact ⟨_, rfl, d, a, .zero, .zero, by rfl, by rfl, by rfl, by rfl, by rfl, by rfl⟩
theorem ctz (h : Head) (w64 : Bool) (d a : Operand) : Statement (.ctz h w64 d a) := by
  intro hm
  cases w64 <;>
    exact ⟨_, rfl, d, a, .zero, .zero, by rfl, by rfl, by rfl, by rfl, by rfl, by rfl⟩
theorem brev (h : Head) (w64 : Bool) (d a : Operand) : Statement (.brev h w64 d a) := by
  intro hm
  cases w64 <;>
    exact ⟨_, rfl, d, a, .zero, .zero, by rfl, by rfl, by rfl, by rfl, by rfl, by rfl⟩
theorem prmb (h : Head) (w64 : Bool) (d a b c : Operand) : Statement (.prmb h w64 d a b c) := by
  intro hm
  cases w64 <;>
    exact ⟨_, rfl, d, a, b, c, by rfl, by rfl, by rfl, by rfl, by rfl, by rfl⟩
theorem fadd (h : Head) (t : FloatTy) (rm : Rounding) (d a b : Operand) : Statement (.fadd h t rm d a b) := by
  intro hm
  cases t <;> cases rm <;>
    exact ⟨_, rfl, d, a, b, .zero, by rfl, by rfl, by rfl, by rfl, by rfl, by rfl⟩
theorem fsub (h : Head) (t : FloatTy) (rm : Rounding) (d a b : Operand) : Statement (.fsub h t rm d a b) := by
  intro hm
  cases t <;> cases rm <;>
    exact ⟨_, rfl, d, a, b, .zero, by rfl, by rfl, by rfl, by rfl, by rfl, by rfl⟩
theorem fmul (h : Head) (t : FloatTy) (rm : Rounding) (d a b : Operand) : Statement (.fmul h t rm d a b) := by
  intro hm
  cases t <;> cases rm <;>
    exact ⟨_, rfl, d, a, b, .zero, by rfl, by rfl, by rfl, by rfl, by rfl, by rfl⟩
theorem ffma (h : Head) (t : FloatTy) (rm : Rounding) (d a b c : Operand) : Statement (.ffma h t rm d a b c) := by
  intro hm
  cases t <;> cases rm <;>
    exact ⟨_, rfl, d, a, b, c, by rfl, by rfl, by rfl, by rfl, by rfl, by rfl⟩
theorem fmin (h : Head) (t : FloatTy) (d a b : Operand) : Statement (.fmin h t d a b) := by
  intro hm
  cases t <;>
    exact ⟨_, rfl, d, a, b, .zero, by rfl, by rfl, by rfl, by rfl, by rfl, by rfl⟩
theorem fmax (h : Head) (t : FloatTy) (d a b : Operand) : Statement (.fmax h t d a b) := by
  intro hm
  cases t <;>
    exact ⟨_, rfl, d, a, b, .zero, by rfl, by rfl, by rfl, by rfl, by rfl, by rfl⟩
theorem fabs (h : Head) (t : FloatTy) (d a : Operand) : Statement (.fabs h t d a) := by
  intro hm
  cases t <;>
    exact ⟨_, rfl, d, a, .zero, .zero, by rfl, by rfl, by rfl, by rfl, by rfl, by rfl⟩
theorem fneg (h : Head) (t : FloatTy) (d a : Operand) : Statement (.fneg h t d a) := by
  intro hm
  cases t <;>
    exact ⟨_, rfl, d, a, .zero, .zero, by rfl, by rfl, by rfl, by rfl, by rfl, by rfl⟩
theorem fcmp (h : Head) (t : FloatTy) (cond : FloatCond) (d a b : Operand) : Statement (.fcmp h t cond d a b) := by
  intro hm
  cases t <;> cases cond <;>
    exact ⟨_, rfl, d, a, b, .zero, by rfl, by rfl, by rfl, by rfl, by rfl, by rfl⟩
theorem frcp (h : Head) (f64 : Bool) (d a : Operand) : Statement (.frcp h f64 d a) := by
  intro hm
  cases f64 <;>
    exact ⟨_, rfl, d, a, .zero, .zero, by rfl, by rfl, by rfl, by rfl, by rfl, by rfl⟩
theorem frsq (h : Head) (f64 : Bool) (d a : Operand) : Statement (.frsq h f64 d a) := by
  intro hm
  cases f64 <;>
    exact ⟨_, rfl, d, a, .zero, .zero, by rfl, by rfl, by rfl, by rfl, by rfl, by rfl⟩
theorem fsqrt (h : Head) (f64 : Bool) (d a : Operand) : Statement (.fsqrt h f64 d a) := by
  intro hm
  cases f64 <;>
    exact ⟨_, rfl, d, a, .zero, .zero, by rfl, by rfl, by rfl, by rfl, by rfl, by rfl⟩
theorem fexp2 (h : Head) (d a : Operand) : Statement (.fexp2 h d a) := by
  intro hm
  exact ⟨_, rfl, d, a, .zero, .zero, by rfl, by rfl, by rfl, by rfl, by rfl, by rfl⟩
theorem flog2 (h : Head) (d a : Operand) : Statement (.flog2 h d a) := by
  intro hm
  exact ⟨_, rfl, d, a, .zero, .zero, by rfl, by rfl, by rfl, by rfl, by rfl, by rfl⟩
theorem fsinp (h : Head) (d a : Operand) : Statement (.fsinp h d a) := by
  intro hm
  exact ⟨_, rfl, d, a, .zero, .zero, by rfl, by rfl, by rfl, by rfl, by rfl, by rfl⟩
theorem fcosp (h : Head) (d a : Operand) : Statement (.fcosp h d a) := by
  intro hm
  exact ⟨_, rfl, d, a, .zero, .zero, by rfl, by rfl, by rfl, by rfl, by rfl, by rfl⟩
theorem fclass (h : Head) (t : FloatTy) (d a : Operand) : Statement (.fclass h t d a) := by
  intro hm
  cases t <;>
    exact ⟨_, rfl, d, a, .zero, .zero, by rfl, by rfl, by rfl, by rfl, by rfl, by rfl⟩
theorem frcpv (h : Head) (f64 : Bool) (d a b c : Operand) : Statement (.frcpv h f64 d a b c) := by
  intro hm
  cases f64 <;>
    exact ⟨_, rfl, d, a, b, c, by rfl, by rfl, by rfl, by rfl, by rfl, by rfl⟩
theorem fsmx (h : Head) (d a b : Operand) : Statement (.fsmx h d a b) := by
  intro hm
  exact ⟨_, rfl, d, a, b, .zero, by rfl, by rfl, by rfl, by rfl, by rfl, by rfl⟩
theorem fscale (h : Head) (t : FloatTy) (d a b : Operand) : Statement (.fscale h t d a b) := by
  intro hm
  cases t <;>
    exact ⟨_, rfl, d, a, b, .zero, by rfl, by rfl, by rfl, by rfl, by rfl, by rfl⟩
theorem cvtif (h : Head) (it : IntTy) (ft : FloatTy) (rm : Rounding) (d a : Operand) : Statement (.cvtif h it ft rm d a) := by
  intro hm
  cases it <;> cases ft <;> cases rm <;>
    exact ⟨_, rfl, d, a, .zero, .zero, by rfl, by rfl, by rfl, by rfl, by rfl, by rfl⟩
theorem cvtfi (h : Head) (it : IntTy) (ft : FloatTy) (rm : Rounding) (d a : Operand) : Statement (.cvtfi h it ft rm d a) := by
  intro hm
  cases it <;> cases ft <;> cases rm <;>
    exact ⟨_, rfl, d, a, .zero, .zero, by rfl, by rfl, by rfl, by rfl, by rfl, by rfl⟩
theorem cvtff (h : Head) (dst src : FloatTy) (rm : Rounding) (d a : Operand) : Statement (.cvtff h dst src rm d a) := by
  intro hm
  cases dst <;> cases src <;> cases rm <;>
    first | (cases hm; done) | exact ⟨_, rfl, d, a, .zero, .zero, by rfl, by rfl, by rfl, by rfl, by rfl, by rfl⟩
theorem frnd (h : Head) (t : FloatTy) (rm : Rounding) (d a : Operand) : Statement (.frnd h t rm d a) := by
  intro hm
  cases t <;> cases rm <;>
    exact ⟨_, rfl, d, a, .zero, .zero, by rfl, by rfl, by rfl, by rfl, by rfl, by rfl⟩
theorem packq (h : Head) (e5m2 : Bool) (d a b c : Operand) : Statement (.packq h e5m2 d a b c) := by
  intro hm
  cases e5m2 <;>
    exact ⟨_, rfl, d, a, b, c, by rfl, by rfl, by rfl, by rfl, by rfl, by rfl⟩
theorem unpkq (h : Head) (e5m2 : Bool) (d a b : Operand) : Statement (.unpkq h e5m2 d a b) := by
  intro hm
  cases e5m2 <;>
    exact ⟨_, rfl, d, a, b, .zero, by rfl, by rfl, by rfl, by rfl, by rfl, by rfl⟩
theorem bpext (h : Head) (d a b : Operand) : Statement (.bpext h d a b) := by
  intro hm
  exact ⟨_, rfl, d, a, b, .zero, by rfl, by rfl, by rfl, by rfl, by rfl, by rfl⟩
theorem bpins (h : Head) (d a b c : Operand) : Statement (.bpins h d a b c) := by
  intro hm
  exact ⟨_, rfl, d, a, b, c, by rfl, by rfl, by rfl, by rfl, by rfl, by rfl⟩
theorem shfl (h : Head) (mode : ShuffleMode) (w64 : Bool) (d a b : Operand) : Statement (.shfl h mode w64 d a b) := by
  intro hm
  cases mode <;> cases w64 <;>
    exact ⟨_, rfl, d, a, b, .zero, by rfl, by rfl, by rfl, by rfl, by rfl, by rfl⟩
theorem voteQuorum (h : Head) (d a b : Operand) : Statement (.voteQuorum h d a b) := by
  intro hm
  exact ⟨_, rfl, d, a, b, .zero, by rfl, by rfl, by rfl, by rfl, by rfl, by rfl⟩
theorem voteCount (h : Head) (d a : Operand) : Statement (.voteCount h d a) := by
  intro hm
  exact ⟨_, rfl, d, a, .zero, .zero, by rfl, by rfl, by rfl, by rfl, by rfl, by rfl⟩
theorem voteMask (h : Head) (d a : Operand) : Statement (.voteMask h d a) := by
  intro hm
  exact ⟨_, rfl, d, a, .zero, .zero, by rfl, by rfl, by rfl, by rfl, by rfl, by rfl⟩
theorem voteSame (h : Head) (w64 : Bool) (d a : Operand) : Statement (.voteSame h w64 d a) := by
  intro hm
  cases w64 <;>
    exact ⟨_, rfl, d, a, .zero, .zero, by rfl, by rfl, by rfl, by rfl, by rfl, by rfl⟩
theorem matchLanes (h : Head) (w64 : Bool) (d a : Operand) : Statement (.matchLanes h w64 d a) := by
  intro hm
  cases w64 <;>
    exact ⟨_, rfl, d, a, .zero, .zero, by rfl, by rfl, by rfl, by rfl, by rfl, by rfl⟩
theorem plop (h : Head) (op1 op2 : PredOp) (neg : Bool) (d a b c : Operand) : Statement (.plop h op1 op2 neg d a b c) := by
  intro hm
  cases op1 <;> cases op2 <;> cases neg <;>
    exact ⟨_, rfl, d, a, b, c, by rfl, by rfl, by rfl, by rfl, by rfl, by rfl⟩
theorem pmov (h : Head) (fromPred : Bool) (d a : Operand) : Statement (.pmov h fromPred d a) := by
  intro hm
  cases fromPred <;>
    exact ⟨_, rfl, d, a, .zero, .zero, by rfl, by rfl, by rfl, by rfl, by rfl, by rfl⟩
theorem chseed (h : Head) (slot : BitVec 2) (a : Operand) : Statement (.chseed h slot a) := by
  intro hm
  induction slot using bits2 <;>
    exact ⟨_, rfl, .zero, a, .zero, .zero, by rfl, by rfl, by rfl, by rfl, by rfl, by rfl⟩
theorem chlink (h : Head) (slot : BitVec 2) (ring : Bool) (a : Operand) : Statement (.chlink h slot ring a) := by
  intro hm
  induction slot using bits2 <;> cases ring <;>
    exact ⟨_, rfl, .zero, a, .zero, .zero, by rfl, by rfl, by rfl, by rfl, by rfl, by rfl⟩
theorem chout (h : Head) (slot : BitVec 2) (d : Operand) : Statement (.chout h slot d) := by
  intro hm
  induction slot using bits2 <;>
    exact ⟨_, rfl, d, .zero, .zero, .zero, by rfl, by rfl, by rfl, by rfl, by rfl, by rfl⟩
theorem elect (h : Head) (d : Operand) : Statement (.elect h d) := by
  intro hm
  exact ⟨_, rfl, d, .zero, .zero, .zero, by rfl, by rfl, by rfl, by rfl, by rfl, by rfl⟩
theorem bra (h : Head) (off : BitVec 20) : Statement (.bra h off) := by
  intro hm
  exact ⟨_, rfl, .zero, .zero, .zero, .zero, by exact congrArg (fun x => Instr.bra h x) (halves off), by rfl, by rfl, by trivial, by trivial, by rfl⟩
theorem brd (h : Head) (off : BitVec 20) (a : Operand) : Statement (.brd h off a) := by
  intro hm
  exact ⟨_, rfl, .zero, a, .zero, .zero, by exact congrArg (fun x => Instr.brd h x a) (halves off), by rfl, by rfl, by trivial, by trivial, by rfl⟩
theorem join (h : Head) : Statement (.join h) := by
  intro hm
  exact ⟨_, rfl, .zero, .zero, .zero, .zero, by rfl, by rfl, by rfl, by rfl, by rfl, by rfl⟩
theorem brx (h : Head) (a : Operand) : Statement (.brx h a) := by
  intro hm
  exact ⟨_, rfl, .zero, a, .zero, .zero, by rfl, by rfl, by rfl, by rfl, by rfl, by rfl⟩
theorem call (h : Head) (off : BitVec 20) (d : Operand) : Statement (.call h off d) := by
  intro hm
  exact ⟨_, rfl, d, .zero, .zero, .zero, by exact congrArg (fun x => Instr.call h x d) (halves off), by rfl, by rfl, by trivial, by trivial, by rfl⟩
theorem ret (h : Head) (a : Operand) : Statement (.ret h a) := by
  intro hm
  exact ⟨_, rfl, .zero, a, .zero, .zero, by rfl, by rfl, by rfl, by rfl, by rfl, by rfl⟩
theorem exit (h : Head) : Statement (.exit h) := by
  intro hm
  exact ⟨_, rfl, .zero, .zero, .zero, .zero, by rfl, by rfl, by rfl, by rfl, by rfl, by rfl⟩
theorem yield (h : Head) : Statement (.yield h) := by
  intro hm
  exact ⟨_, rfl, .zero, .zero, .zero, .zero, by rfl, by rfl, by rfl, by rfl, by rfl, by rfl⟩
theorem sleep (h : Head) (a : Operand) : Statement (.sleep h a) := by
  intro hm
  exact ⟨_, rfl, .zero, a, .zero, .zero, by rfl, by rfl, by rfl, by rfl, by rfl, by rfl⟩
theorem trap (h : Head) (a : Operand) : Statement (.trap h a) := by
  intro hm
  exact ⟨_, rfl, .zero, a, .zero, .zero, by rfl, by rfl, by rfl, by rfl, by rfl, by rfl⟩
theorem bkpt (h : Head) : Statement (.bkpt h) := by
  intro hm
  exact ⟨_, rfl, .zero, .zero, .zero, .zero, by rfl, by rfl, by rfl, by rfl, by rfl, by rfl⟩
theorem dbnz (h : Head) (off : BitVec 20) (d : Operand) : Statement (.dbnz h off d) := by
  intro hm
  exact ⟨_, rfl, d, .zero, .zero, .zero, by exact congrArg (fun x => Instr.dbnz h x d) (halves off), by rfl, by rfl, by trivial, by trivial, by rfl⟩
theorem waitt (h : Head) (a : Operand) : Statement (.waitt h a) := by
  intro hm
  exact ⟨_, rfl, .zero, a, .zero, .zero, by rfl, by rfl, by rfl, by rfl, by rfl, by rfl⟩
theorem ld (h : Head) (sp : Space) (sz : Size) (sx : Bool) (d a c : Operand) : Statement (.ld h sp sz sx d a c) := by
  intro hm
  cases sp <;> cases sz <;> cases sx <;>
    first | (cases hm; done) | exact ⟨_, rfl, d, a, .zero, c, by rfl, by rfl, by rfl, by rfl, by rfl, by rfl⟩
theorem st (h : Head) (sp : Space) (sz : Size) (a b c : Operand) : Statement (.st h sp sz a b c) := by
  intro hm
  cases sp <;> cases sz <;>
    exact ⟨_, rfl, .zero, a, b, c, by rfl, by rfl, by rfl, by rfl, by rfl, by rfl⟩
theorem stp (h : Head) (sz : Size) (a b c : Operand) : Statement (.stp h sz a b c) := by
  intro hm
  cases sz <;>
    exact ⟨_, rfl, .zero, a, b, c, by rfl, by rfl, by rfl, by rfl, by rfl, by rfl⟩
theorem ldf (h : Head) (op : FoldOp) (ty : FoldTy) (d a c : Operand) : Statement (.ldf h op ty d a c) := by
  intro hm
  cases op <;> cases ty <;>
    first | (cases hm; done) | exact ⟨_, rfl, d, a, .zero, c, by rfl, by rfl, by rfl, by rfl, by rfl, by rfl⟩
theorem atom (h : Head) (op : AtomOp) (scope : Scope) (d a b c : Operand) : Statement (.atom h op scope d a b c) := by
  intro hm
  cases op <;> cases scope <;>
    exact ⟨_, rfl, d, a, b, c, by rfl, by rfl, by rfl, by rfl, by rfl, by rfl⟩
theorem atomc (h : Head) (w64 : Bool) (scope : Scope) (d a b c : Operand) : Statement (.atomc h w64 scope d a b c) := by
  intro hm
  cases w64 <;> cases scope <;>
    exact ⟨_, rfl, d, a, b, c, by rfl, by rfl, by rfl, by rfl, by rfl, by rfl⟩
theorem red (h : Head) (op : AtomOp) (scope : Scope) (a b c : Operand) : Statement (.red h op scope a b c) := by
  intro hm
  cases op <;> cases scope <;>
    exact ⟨_, rfl, .zero, a, b, c, by rfl, by rfl, by rfl, by rfl, by rfl, by rfl⟩
theorem pref (h : Head) (l1 : Bool) (a c : Operand) : Statement (.pref h l1 a c) := by
  intro hm
  cases l1 <;>
    exact ⟨_, rfl, .zero, a, .zero, c, by rfl, by rfl, by rfl, by rfl, by rfl, by rfl⟩
theorem fenceR (h : Head) : Statement (.fenceR h) := by
  intro hm
  exact ⟨_, rfl, .zero, .zero, .zero, .zero, by rfl, by rfl, by rfl, by rfl, by rfl, by rfl⟩
theorem fenceH (h : Head) : Statement (.fenceH h) := by
  intro hm
  exact ⟨_, rfl, .zero, .zero, .zero, .zero, by rfl, by rfl, by rfl, by rfl, by rfl, by rfl⟩
theorem fenceE (h : Head) : Statement (.fenceE h) := by
  intro hm
  exact ⟨_, rfl, .zero, .zero, .zero, .zero, by rfl, by rfl, by rfl, by rfl, by rfl, by rfl⟩
theorem fdef (h : Head) (a b c : Operand) : Statement (.fdef h a b c) := by
  intro hm
  exact ⟨_, rfl, .zero, a, b, c, by rfl, by rfl, by rfl, by rfl, by rfl, by rfl⟩
theorem ldu (h : Head) (sp : Space) (sz : Size) (sx : Bool) (d a c : Operand) : Statement (.ldu h sp sz sx d a c) := by
  intro hm
  cases sp <;> cases sz <;> cases sx <;>
    first | (cases hm; done) | exact ⟨_, rfl, d, a, .zero, c, by rfl, by rfl, by rfl, by rfl, by rfl, by rfl⟩
theorem stu (h : Head) (sp : Space) (sz : Size) (a b c : Operand) : Statement (.stu h sp sz a b c) := by
  intro hm
  cases sp <;> cases sz <;>
    first | (cases hm; done) | exact ⟨_, rfl, .zero, a, b, c, by rfl, by rfl, by rfl, by rfl, by rfl, by rfl⟩
theorem bari (h : Head) (wave : Bool) (a b c : Operand) : Statement (.bari h wave a b c) := by
  intro hm
  cases wave <;>
    exact ⟨_, rfl, .zero, a, b, c, by rfl, by rfl, by rfl, by rfl, by rfl, by rfl⟩
theorem barv (h : Head) (peer : Bool) (d a : Operand) : Statement (.barv h peer d a) := by
  intro hm
  cases peer <;>
    exact ⟨_, rfl, d, a, .zero, .zero, by rfl, by rfl, by rfl, by rfl, by rfl, by rfl⟩
theorem barw (h : Head) (a b : Operand) : Statement (.barw h a b) := by
  intro hm
  exact ⟨_, rfl, .zero, a, b, .zero, by rfl, by rfl, by rfl, by rfl, by rfl, by rfl⟩
theorem bara (h : Head) (peer : Bool) (a b : Operand) : Statement (.bara h peer a b) := by
  intro hm
  cases peer <;>
    exact ⟨_, rfl, .zero, a, b, .zero, by rfl, by rfl, by rfl, by rfl, by rfl, by rfl⟩
theorem bart (h : Head) (d a b : Operand) : Statement (.bart h d a b) := by
  intro hm
  exact ⟨_, rfl, d, a, b, .zero, by rfl, by rfl, by rfl, by rfl, by rfl, by rfl⟩
theorem barx (h : Head) (a b : Operand) : Statement (.barx h a b) := by
  intro hm
  exact ⟨_, rfl, .zero, a, b, .zero, by rfl, by rfl, by rfl, by rfl, by rfl, by rfl⟩
theorem rqres (h : Head) (wait : Bool) (d a b c : Operand) : Statement (.rqres h wait d a b c) := by
  intro hm
  cases wait <;>
    exact ⟨_, rfl, d, a, b, c, by rfl, by rfl, by rfl, by rfl, by rfl, by rfl⟩
theorem rqcmt (h : Head) (a : Operand) : Statement (.rqcmt h a) := by
  intro hm
  exact ⟨_, rfl, .zero, a, .zero, .zero, by rfl, by rfl, by rfl, by rfl, by rfl, by rfl⟩
theorem rqtake (h : Head) (wait : Bool) (d a : Operand) : Statement (.rqtake h wait d a) := by
  intro hm
  cases wait <;>
    exact ⟨_, rfl, d, a, .zero, .zero, by rfl, by rfl, by rfl, by rfl, by rfl, by rfl⟩
theorem rqrel (h : Head) (a : Operand) : Statement (.rqrel h a) := by
  intro hm
  exact ⟨_, rfl, .zero, a, .zero, .zero, by rfl, by rfl, by rfl, by rfl, by rfl, by rfl⟩
theorem rend (h : Head) : Statement (.rend h) := by
  intro hm
  exact ⟨_, rfl, .zero, .zero, .zero, .zero, by rfl, by rfl, by rfl, by rfl, by rfl, by rfl⟩
theorem cpin (h : Head) (tok : BitVec 3) (ch : BitVec 2) (a b c : Operand) : Statement (.cpin h tok ch a b c) := by
  intro hm
  induction tok using bits3 <;> induction ch using bits2 <;>
    exact ⟨_, rfl, .zero, a, b, c, by rfl, by rfl, by rfl, by rfl, by rfl, by rfl⟩
theorem cpout (h : Head) (tok : BitVec 3) (ch : BitVec 2) (d a b c : Operand) : Statement (.cpout h tok ch d a b c) := by
  intro hm
  induction tok using bits3 <;> induction ch using bits2 <;>
    exact ⟨_, rfl, d, a, b, c, by rfl, by rfl, by rfl, by rfl, by rfl, by rfl⟩
theorem cppeer (h : Head) (tok : BitVec 3) (ch : BitVec 2) (d a b c : Operand) : Statement (.cppeer h tok ch d a b c) := by
  intro hm
  induction tok using bits3 <;> induction ch using bits2 <;>
    exact ⟨_, rfl, d, a, b, c, by rfl, by rfl, by rfl, by rfl, by rfl, by rfl⟩
theorem cpgath (h : Head) (tok : BitVec 3) (ch : BitVec 2) (d a b c : Operand) : Statement (.cpgath h tok ch d a b c) := by
  intro hm
  induction tok using bits3 <;> induction ch using bits2 <;>
    exact ⟨_, rfl, d, a, b, c, by rfl, by rfl, by rfl, by rfl, by rfl, by rfl⟩
theorem cpsh (h : Head) (tok : BitVec 3) (ch : BitVec 2) (a b c : Operand) : Statement (.cpsh h tok ch a b c) := by
  intro hm
  induction tok using bits3 <;> induction ch using bits2 <;>
    exact ⟨_, rfl, .zero, a, b, c, by rfl, by rfl, by rfl, by rfl, by rfl, by rfl⟩
theorem pub (h : Head) (tok : BitVec 3) (a : Operand) : Statement (.pub h tok a) := by
  intro hm
  induction tok using bits3 <;>
    exact ⟨_, rfl, .zero, a, .zero, .zero, by rfl, by rfl, by rfl, by rfl, by rfl, by rfl⟩
theorem cpwp (h : Head) (ch : BitVec 2) (d : Operand) : Statement (.cpwp h ch d) := by
  intro hm
  induction ch using bits2 <;>
    exact ⟨_, rfl, d, .zero, .zero, .zero, by rfl, by rfl, by rfl, by rfl, by rfl, by rfl⟩
theorem cpcan (h : Head) (ch : BitVec 2) : Statement (.cpcan h ch) := by
  intro hm
  induction ch using bits2 <;>
    exact ⟨_, rfl, .zero, .zero, .zero, .zero, by rfl, by rfl, by rfl, by rfl, by rfl, by rfl⟩
theorem mma (h : Head) (ty : MmaTy) (accum : Bool) (d a b c : Operand) : Statement (.mma h ty accum d a b c) := by
  intro hm
  cases ty <;> cases accum <;>
    exact ⟨_, rfl, d, a, b, c, by rfl, by rfl, by rfl, by rfl, by rfl, by rfl⟩
theorem mmax (h : Head) (fa fb accum : Bool) (d a b c : Operand) : Statement (.mmax h fa fb accum d a b c) := by
  intro hm
  cases fa <;> cases fb <;> cases accum <;>
    exact ⟨_, rfl, d, a, b, c, by rfl, by rfl, by rfl, by rfl, by rfl, by rfl⟩
theorem mmap (h : Head) (planes : BitVec 3) (accum centre bsigned : Bool) (d a b : Operand) : Statement (.mmap h planes accum centre bsigned d a b) := by
  intro hm
  induction planes using bits3 <;> cases accum <;> cases centre <;> cases bsigned <;>
    exact ⟨_, rfl, d, a, b, .zero, by rfl, by rfl, by rfl, by rfl, by rfl, by rfl⟩
theorem accz (h : Head) (pair : Bool) (d : Operand) : Statement (.accz h pair d) := by
  intro hm
  cases pair <;>
    exact ⟨_, rfl, d, .zero, .zero, .zero, by rfl, by rfl, by rfl, by rfl, by rfl, by rfl⟩
theorem accrd (h : Head) (pair : Bool) (d a b : Operand) : Statement (.accrd h pair d a b) := by
  intro hm
  cases pair <;>
    exact ⟨_, rfl, d, a, b, .zero, by rfl, by rfl, by rfl, by rfl, by rfl, by rfl⟩
theorem accwr (h : Head) (pair : Bool) (d a b : Operand) : Statement (.accwr h pair d a b) := by
  intro hm
  cases pair <;>
    exact ⟨_, rfl, d, a, b, .zero, by rfl, by rfl, by rfl, by rfl, by rfl, by rfl⟩
theorem accst (h : Head) (fmt : AccFmt) (d a b c : Operand) : Statement (.accst h fmt d a b c) := by
  intro hm
  cases fmt <;>
    exact ⟨_, rfl, d, a, b, c, by rfl, by rfl, by rfl, by rfl, by rfl, by rfl⟩
theorem accld (h : Head) (fmt : AccFmt) (d a : Operand) : Statement (.accld h fmt d a) := by
  intro hm
  cases fmt <;>
    first | (cases hm; done) | exact ⟨_, rfl, d, a, .zero, .zero, by rfl, by rfl, by rfl, by rfl, by rfl, by rfl⟩
theorem hcfg (h : Head) (a : Operand) : Statement (.hcfg h a) := by
  intro hm
  exact ⟨_, rfl, .zero, a, .zero, .zero, by rfl, by rfl, by rfl, by rfl, by rfl, by rfl⟩
theorem hld (h : Head) (a b c : Operand) : Statement (.hld h a b c) := by
  intro hm
  exact ⟨_, rfl, .zero, a, b, c, by rfl, by rfl, by rfl, by rfl, by rfl, by rfl⟩
theorem hrun (h : Head) (tok : BitVec 3) (a b c : Operand) : Statement (.hrun h tok a b c) := by
  intro hm
  induction tok using bits3 <;>
    exact ⟨_, rfl, .zero, a, b, c, by rfl, by rfl, by rfl, by rfl, by rfl, by rfl⟩
theorem hgath (h : Head) (d a b : Operand) : Statement (.hgath h d a b) := by
  intro hm
  exact ⟨_, rfl, d, a, b, .zero, by rfl, by rfl, by rfl, by rfl, by rfl, by rfl⟩
theorem hexit (h : Head) (d a b : Operand) : Statement (.hexit h d a b) := by
  intro hm
  exact ⟨_, rfl, d, a, b, .zero, by rfl, by rfl, by rfl, by rfl, by rfl, by rfl⟩
theorem hclr (h : Head) (a b : Operand) : Statement (.hclr h a b) := by
  intro hm
  exact ⟨_, rfl, .zero, a, b, .zero, by rfl, by rfl, by rfl, by rfl, by rfl, by rfl⟩
theorem postInstruction (h : Head) (target : PostTarget) (d a c : Operand) : Statement (.postInstruction h target d a c) := by
  intro hm
  cases target <;>
    exact ⟨_, rfl, d, a, .zero, c, by rfl, by rfl, by rfl, by rfl, by rfl, by rfl⟩
theorem spawn (h : Head) (target : PostTarget) (d a c : Operand) : Statement (.spawn h target d a c) := by
  intro hm
  cases target <;>
    exact ⟨_, rfl, d, a, .zero, c, by rfl, by rfl, by rfl, by rfl, by rfl, by rfl⟩
theorem tend (h : Head) (a : Operand) : Statement (.tend h a) := by
  intro hm
  exact ⟨_, rfl, .zero, a, .zero, .zero, by rfl, by rfl, by rfl, by rfl, by rfl, by rfl⟩
theorem jinit (h : Head) (a b c : Operand) : Statement (.jinit h a b c) := by
  intro hm
  exact ⟨_, rfl, .zero, a, b, c, by rfl, by rfl, by rfl, by rfl, by rfl, by rfl⟩
theorem launchInstruction (h : Head) (d a : Operand) : Statement (.launchInstruction h d a) := by
  intro hm
  exact ⟨_, rfl, d, a, .zero, .zero, by rfl, by rfl, by rfl, by rfl, by rfl, by rfl⟩
theorem claim (h : Head) (wait tiles : Bool) (d a : Operand) : Statement (.claim h wait tiles d a) := by
  intro hm
  cases wait <;> cases tiles <;>
    exact ⟨_, rfl, d, a, .zero, .zero, by rfl, by rfl, by rfl, by rfl, by rfl, by rfl⟩
theorem give (h : Head) (tiles : Bool) (a : Operand) : Statement (.give h tiles a) := by
  intro hm
  cases tiles <;>
    exact ⟨_, rfl, .zero, a, .zero, .zero, by rfl, by rfl, by rfl, by rfl, by rfl, by rfl⟩
theorem dpush (h : Head) (q : BitVec 2) (a : Operand) : Statement (.dpush h q a) := by
  intro hm
  induction q using bits2 <;>
    exact ⟨_, rfl, .zero, a, .zero, .zero, by rfl, by rfl, by rfl, by rfl, by rfl, by rfl⟩
theorem dclose (h : Head) (q : BitVec 2) : Statement (.dclose h q) := by
  intro hm
  induction q using bits2 <;>
    exact ⟨_, rfl, .zero, .zero, .zero, .zero, by rfl, by rfl, by rfl, by rfl, by rfl, by rfl⟩
theorem srd (h : Head) (d a : Operand) : Statement (.srd h d a) := by
  intro hm
  exact ⟨_, rfl, d, a, .zero, .zero, by rfl, by rfl, by rfl, by rfl, by rfl, by rfl⟩
theorem swr (h : Head) (a b : Operand) : Statement (.swr h a b) := by
  intro hm
  exact ⟨_, rfl, .zero, a, b, .zero, by rfl, by rfl, by rfl, by rfl, by rfl, by rfl⟩
theorem rtu (h : Head) (mode : ResumeMode) : Statement (.rtu h mode) := by
  intro hm
  cases mode <;>
    exact ⟨_, rfl, .zero, .zero, .zero, .zero, by rfl, by rfl, by rfl, by rfl, by rfl, by rfl⟩
theorem pack (h : Head) (a b : Operand) : Statement (.pack h a b) := by
  intro hm
  exact ⟨_, rfl, .zero, a, b, .zero, by rfl, by rfl, by rfl, by rfl, by rfl, by rfl⟩
theorem stksv (h : Head) (split : BitVec 2) (a : Operand) : Statement (.stksv h split a) := by
  intro hm
  induction split using bits2 <;>
    exact ⟨_, rfl, .zero, a, .zero, .zero, by rfl, by rfl, by rfl, by rfl, by rfl, by rfl⟩
theorem stkld (h : Head) (split : BitVec 2) (a : Operand) : Statement (.stkld h split a) := by
  intro hm
  induction split using bits2 <;>
    exact ⟨_, rfl, .zero, a, .zero, .zero, by rfl, by rfl, by rfl, by rfl, by rfl, by rfl⟩
theorem rts (h : Head) : Statement (.rts h) := by
  intro hm
  exact ⟨_, rfl, .zero, .zero, .zero, .zero, by rfl, by rfl, by rfl, by rfl, by rfl, by rfl⟩
theorem tlbinv (h : Head) (a b : Operand) : Statement (.tlbinv h a b) := by
  intro hm
  exact ⟨_, rfl, .zero, a, b, .zero, by rfl, by rfl, by rfl, by rfl, by rfl, by rfl⟩

end Sys2Proof.Laws.RowFits
end

