-- ==== Sys2Proof/Tests/Base.lean ====
section
/-!
SUPPORT. A small machine for tests, and what a word placed in it does.
-/
namespace Sys2Proof.Machine.Tests

/-! ### A small machine -/

/-- A page of 64 KiB that its owner may read, write and execute, its frame where its address is. -/
def page (va : Nat) : Page :=
  { va := va, log2 := 16, r := true, w := true, x := true, homeDie := none, remote := none, onDemand := false, frame := some va,
    epoch := 0, set := none }

/-- A task queue with nothing in it. -/
def queue : TaskQueue := { ctl := { log2 := 16, reserve := 0, commit := 0, take := 0, release := 0 }, recs := [] }

/-- An owner with two pages, two cores and some quota. -/
def owned (o : Owner) : Owner :=
  { o with pages := [page 0x10000, page 0x20000], placement := [0, 1], queues := [(0, queue), (1, queue), (512, queue)], nesting := 4,
           ceiling := 7, poolQuota := 8, pool := 1, frameQuota := 64, framesUsed := 2, cmdRing := { log2 := 16, reserve := 0, commit := 0, take := 0, release := 0 },
           hostRing := { control := 0x1000, base := 0x2000, log2 := 12, reserve := 0, commit := 0 } }

/-- A module that runs. Owner 0 has a team of one wave, number 3, which stands at one word; its handler is at 0x20000, its trap area at
0x10000. -/
def base : State :=
  { ((State.reset.withFetchWord 64 0).updOwner 0 owned).updWave 3 fun w => { w with utvec := 0x20000, trapArea := 0x18000 } with
    phase := .up }

/-- The machine with a word placed where the wave stands. -/
def State.at' (s : State) (i : Instr) : State :=
  match encode i with
  | some (w, l) => s.updSplit 3 0 fun p => p.placed (clauseOf w l)
  | none => s

/-- The machine with scalar registers of the wave set. -/
def State.with (s : State) (l : List (Nat × Nat)) : State :=
  s.updWave 3 fun w => l.foldl (fun w x => w.setS x.1 (BitVec.ofNat 64 x.2)) w

/-- The machine with its wave, its team or its owner changed. -/
def State.onWave (s : State) (f : Wave → Wave) : State := s.updWave 3 f
def State.onTeam (s : State) (f : Team → Team) : State := s.updTeam 2 f
def State.onOwner (s : State) (f : Owner → Owner) : State := s.updOwner 0 f
def State.onSplit (s : State) (f : Split → Split) : State := s.updSplit 3 0 f

def State.onLaunch (s : State) (f : Launch → Launch) : State := s.updLaunch 1 f

/-- The machine with bytes of its team's window set. -/
def State.window (s : State) (off : Nat) (b : List Byte) : State := s.putScratch 0 0 off b

/-- The machine with bytes of a page written, in storage that lies past all that is written. -/
def State.bytes (s : State) (a : Nat) (b : List Byte) : State := { s with mem := s.mem ++ b.zipIdx.map fun x => ⟨dpaToStorage (a + x.2), x.1⟩ }

/-- The machine with its wave's split at 0x10000, and a clause header at 0x10028. -/
def State.coded (s : State) : State :=
  (State.onSplit s fun p => { p with pc := 0x10000 }).putBytes none 0 0x10028 (leBytes 8 0xD000000000000000)

/-- The guard and lookahead of a word that every lane executes. -/
def h : Head := { gp := 7, gn := false, la := 0 }

/-- The guard of a word that only lanes with P1 execute. -/
def if1 : Head := { gp := 1, gn := false, la := 0 }

/-- The environment in which the wave's word executes. -/
def env (s : State) (i : Instr) : Env :=
  let w := (s.wave? 3).getD Wave.blank
  let k := (s.cur.map (·.2)).getD 0
  let e := envOf 3 k w ((Tab.find w.splits k).getD (Split.start 0 0)) (i.head?.getD h)
  let pops := match popsFor (s.teamOf w) i with
    | .values p => p
    | _ => []
  let carry : W64 := match i.chainSlot.map fun k => s.chainInput w k.toNat with
    | some (.value v) => v
    | _ => 0
  { e with pops := pops, carry := carry }

/-- The wave's word is issued: what `Issued` asks, as a test. -/
def issued (s : State) (i : Instr) : Bool :=
  let e := env s i
  decide (s.cur = some (e.n, e.k)) && decide (s.wave? e.n = some e.w) && decide (Tab.find e.w.splits e.k = some e.sp) &&
  decide (e.sp.retry = none) && decide (e.active = if e.w.drover then 1 else e.sp.mask) &&
  decide (e.exec = e.w.guarded (i.head?.getD h) e.active)

theorem issued_of {s : State} {i : Instr} (hm : issued s i = true) : Issued s (i.head?.getD h) (env s i) := by
  simp only [issued, Bool.and_eq_true, decide_eq_true_eq] at hm
  obtain ⟨⟨⟨⟨⟨h1, h2⟩, h3⟩, h4⟩, h5⟩, h6⟩ := hm
  exact ⟨h1, h2, h3, h4, h5, h6⟩

/-- The wave's word executes: what `Executes` asks, as a test. -/
def meets (s : State) (i : Instr) : Bool :=
  let e := env s i
  issued s i && decide (s.issueFault { e with pops := [], carry := 0 } i = none) &&
  (match popsFor (s.teamOf e.w) i with
    | .values p => decide (p = e.pops)
    | _ => false) &&
  !(violates e.sp.windows i (s.srdNumber { e with carry := 0 } i)) &&
  (match i.chainSlot with
    | none => decide (e.carry = 0)
    | some k => match s.chainInput e.w k.toNat with
      | .value v => decide (e.exec ≠ 0) && decide (v = e.carry)
      | _ => false) &&
  decide (s.badLane e i = none) && (e.part i).all fun p => !(s.badParts.contains p)

theorem meets_executes {s : State} {i : Instr} (hm : meets s i = true) : Executes s i (i.head?.getD h) (env s i) := by
  unfold meets at hm
  simp only [Bool.and_eq_true, decide_eq_true_eq, Bool.not_eq_true'] at hm
  obtain ⟨⟨⟨⟨⟨⟨h1, h2⟩, h3⟩, h4⟩, h5⟩, h6⟩, h7⟩ := hm
  refine { issued_of h1 with checks := h2, pops := ?_, clear := h4, chain := ?_, intact := h6, parts := h7 }
  · cases hp : popsFor (s.teamOf (env s i).w) i <;> simp_all
  · cases hk : i.chainSlot with
    | none => simpa [hk] using h5
    | some k => cases hp : s.chainInput (env s i).w k.toNat <;> simp_all

/-- What `Lands` asks, as a test. -/
def lands (s : State) (e : Env) (sp : Space) (size : Nat) (k : AccKind) (reads : Bool) (lanes : List Nat) (ea : Nat → Int) : Bool :=
  lanes.all fun l => match s.checkAccess e.w sp (ea l) size k with
    | .ok t => decide (s.targetRemote e.w t = none) && !(s.cutTarget e.w t size) && (!reads || !(s.badTarget e.w t size))
    | .fault _ => false

/-- The word of `i` executes at the machine and retires there: its clause is done, and its wave stands at the next header. -/
def retiresAt (s : State) (i : Instr) : Bool :=
  meets s i && match exec i s with
    | .next t => match (t.wave? 3).bind fun w => Tab.find w.splits 0 with
      | some p => p.clause.isEmpty && p.waiting == .none && p.pc == (env s i).sp.pc + BitVec.ofNat 64 (8 * (env s i).sp.clause.length)
      | none => false
    | _ => false

/-- The word of `i` executes at the machine and raises a trap of a cause there. -/
def trapsAt (s : State) (i : Instr) (cause : Nat) : Bool :=
  meets s i && match exec i s with
    | .next t => ((t.wave? 3).bind (·.trapCtx)).map (·.cause) == some cause
    | _ => false

/-- The word of `i` executes at the machine, and its split stands between clauses at an address, or in a clause. -/
def goesAt (s : State) (i : Instr) (a : Nat) : Bool :=
  meets s i && match exec i s with
    | .next t => match (t.wave? 3).bind fun w => Tab.find w.splits 0 with
      | some p => p.waiting == .none && p.pc == BitVec.ofNat 64 a
      | none => false
    | _ => false

/-- The word of `i` executes at the machine and waits there. -/
def waitsAt (s : State) (i : Instr) (x : Wait) : Bool :=
  meets s i && match exec i s with
    | .next t => ((t.wave? 3).bind fun w => Tab.find w.splits 0).map (·.waiting) == some x
    | _ => false

/-- A round of the launch, which has begun with memory and pages as they are. -/
def rounds (s : State) : State := State.onLaunch s fun l => { l with round := true, snapshot := s.mem, pages := s.pagesOf 0 }

/-- The word is issued in a round and left to the bell: what `Defers` says of its wave. -/
def defers (s : State) (i : Instr) : Bool :=
  let s := State.at' (rounds s) i
  let e := env s i
  meets s i && s.isRound e.w && !s.atBell && match exec i s with
    | .next t => t.cur.isNone && (t.wave? 3).any fun w => w.roundEnded && w.bellSplit == some 0 && w.idle == e.w.idle &&
        Tab.find w.splits 0 == some { e.sp with retry := some (Retry.left e.exec e.carry e.pops e.exec) }
    | _ => false

/-- The word is issued in a round and waits in the wave's buffer. -/
def buffers (s : State) (i : Instr) : Bool :=
  let s := State.at' (rounds s) i
  retiresAt s i && s.isRound (env s i).w && match exec i s with
    | .next t => (t.wave? 3).any fun w => w.buffer.length == (env s i).w.buffer.length + 1
    | _ => false

/-- The word is issued in a round and ends it. -/
def endsRound (s : State) (i : Instr) (x : Wait) : Bool :=
  let s := State.at' (rounds s) i
  meets s i && match exec i s with
    | .next t => (t.wave? 3).any fun w => w.roundEnded && Tab.find w.splits 0 == some { (env s i).sp with waiting := x }
    | _ => false

/-- The machine at the bell, where the word is performed that its issue has left to it. -/
def atBell (s : State) (i : Instr) : State :=
  let s := State.at' (rounds s) i
  let e := env s i
  { State.onSplit s (fun p => { p with retry := some (Retry.left e.exec 0 e.pops e.exec) }) with atBell := true }

/-- The wave's word is performed at the bell: what `AtBell` asks, as a test. -/
def meetsBell (s : State) (i : Instr) : Bool :=
  let e := env s i
  s.atBell && s.isRound e.w && decide (s.cur = some (e.n, e.k)) && decide (s.wave? e.n = some e.w) &&
  decide (Tab.find e.w.splits e.k = some e.sp) && decide (e.active = if e.w.drover then 1 else e.sp.mask) &&
  decide (e.sp.retry = some (Retry.left e.exec 0 e.pops e.exec)) && decide (e.carry = 0) && i.chainSlot.isNone &&
  rangesOk e.w (s.teamOf e.w) i && decide (s.badLane e i = none) && (e.part i).all fun p => !(s.badParts.contains p)

theorem meetsBell_atBell {s : State} {i : Instr} (hm : meetsBell s i = true) : AtBell s i (env s i) := by
  unfold meetsBell at hm
  simp only [Bool.and_eq_true, decide_eq_true_eq, Option.isNone_iff_eq_none] at hm
  obtain ⟨⟨⟨⟨⟨⟨⟨⟨⟨⟨⟨h1, h2⟩, h3⟩, h4⟩, h5⟩, h6⟩, h7⟩, h8⟩, h9⟩, h10⟩, h11⟩, h12⟩ := hm
  exact ⟨h1, h2, h3, h4, h5, h6, ⟨_, h7⟩, h8, h9, h10, h11, h12⟩

/-- The word is performed at the bell, and its split goes on after it. -/
def performs (s : State) (i : Instr) : Bool :=
  let s := atBell s i
  meetsBell s i && match exec i s with
    | .next t => (t.wave? 3).any fun w => (Tab.find w.splits 0).map (fun p => { p with windows := [] }) ==
        some { (env s i).sp.advance with windows := [] }
    | _ => false

/-- The word is performed at the bell, and leaves a trap of a cause to the next round's start, or waits. -/
def trapsBell (s : State) (i : Instr) (cause : Nat) : Bool :=
  let s := atBell s i
  meetsBell s i && match exec i s with
    | .next t => (t.wave? 3).any fun w => w.buffer.any fun a => match a with
      | .raised u => u.cause == cause
      | _ => false
    | _ => false
def waitsBell (s : State) (i : Instr) (x : Wait) : Bool :=
  let s := atBell s i
  meetsBell s i && match exec i s with
    | .next t => ((t.wave? 3).bind fun w => Tab.find w.splits 0).map (·.waiting) == some x
    | _ => false

/-- The same of the machine with the word placed where the wave stands. -/
def retires (s : State) (i : Instr) : Bool := retiresAt (State.at' s i) i
def traps (s : State) (i : Instr) (cause : Nat) : Bool := trapsAt (State.at' s i) i cause
def goes (s : State) (i : Instr) (a : Nat) : Bool := goesAt (State.at' s i) i a
def waits (s : State) (i : Instr) (x : Wait) : Bool := waitsAt (State.at' s i) i x

end Sys2Proof.Machine.Tests
end

