-- ==== Sys2Proof/Tests/Device.lean ====
section
/-!
SUPPORT. Tests: states and operands that meet what the statements about tasks, launches, handlers, the module and its commands assume.
-/
namespace Sys2Proof.Machine.Tests

set_option Elab.async false

/-! ### Tasks, launches and budgets -/

/-- A task record at 0x12000, to which S4 and V6 point, and an object at 0x13000, to which S7 points. -/
def carded (kind count : Nat) : State := (State.onWave · fun w => { w with v := (List.range 32).map fun l => (192 + l, 0x12000) }) <|
  State.with (State.bytes (State.bytes base 0x12000 (leBytes 8 (kind * 2 ^ 60 + 0x20000) ++ leBytes 24 0)) 0x13000
    (leBytes 4 count ++ leBytes 4 0 ++ leBytes 8 0x20000 ++ leBytes 48 0)) [(4, 0x12000), (5, 2), (6, 1), (7, 0x13000), (8, 2 ^ 32), (9, 2 ^ 32 - 1)]

/-- The owner's pool holds so many entries. -/
def pooled (s : State) (n : Nat) : State := State.onOwner s fun o => { o with pool := n, poolQuota := max n 8 }

theorem witness_CardsPosted : [(PostTarget.own, Operand.zero), (.neighbour, .zero), (.die, .zero), (.core, .s 6)].all (fun x =>
      retires (carded 1 0) (.postInstruction h x.1 (.p 1) (.s 4) x.2) && retires (carded 0 0) (.spawn h x.1 (.p 1) (.v 6) x.2)) = true ∧
    [Instr.postInstruction h .core (.p 1) (.s 4) (.s 5), .spawn h .core (.p 1) (.v 6) (.s 5)].all (fun i => traps (carded 0 0) i 0x02) = true ∧
    [Instr.postInstruction h .own (.p 1) (.s 4) .zero, .spawn h .own (.p 1) (.v 6) .zero].all (fun i => traps (carded 2 0) i 0x02) = true ∧
    [Instr.postInstruction h .own (.p 1) (.s 4) .zero, .spawn h .own (.p 1) (.v 6) .zero].all (retires (pooled (carded 0 0) 8)) = true ∧
    [Instr.postInstruction h .core (.p 1) (.s 4) (.s 6), .spawn h .own (.p 1) (.v 6) .zero].all (fun i =>
      defers (carded 0 0) i && performs (carded 0 0) i && performs (pooled (carded 0 0) 8) i) = true ∧
    (base.owner? 0).any (fun o => o.commits == [] && (o.queues.all fun q => q.2.ctl.reserve + 80 * 32 ≤ q.2.ctl.release + 2 ^ q.2.ctl.log2)) = true := by decide +kernel

theorem witness_JoinObjectsCount : [Operand.s 6, .s 9].all (fun b => retires (carded 0 0) (.jinit h (.s 7) b (.s 4))) = true ∧
    [Operand.zero, .s 8].all (fun b => traps (carded 0 0) (.jinit h (.s 7) b (.s 4)) 0x02) = true ∧
    [0, 1, 2].all (fun n => (carded 0 n).owner? 0 |>.any fun o => leAt (o.bytes 0 (carded 0 n).now 0x13000 64) 0 4 == n) = true ∧
    traps (carded 2 0) (.jinit h (.s 7) (.s 6) (.s 4)) 0x02 = true ∧
    traps (carded 0 1) (.jinit h (.s 7) (.s 6) (.s 4)) 0x02 = true ∧
    waits (pooled (carded 0 0) 65536) (.jinit h (.s 7) (.s 6) (.s 4)) .poolMax = true ∧
    retires (pooled (carded 0 0) 65535) (.jinit h (.s 7) (.s 6) (.s 4)) = true ∧
    [Instr.tend if1 (.s 7), .tend h (.s 10)].all (retires (carded 0 0)) = true ∧
    [32, 33].all (fun n => retires (carded 0 n) (.tend h (.s 7))) = true ∧
    [0, 31].all (fun n => traps (carded 0 n) (.tend h (.s 7)) 0x21) = true ∧
    [Instr.jinit h (.s 7) (.s 6) (.s 4), .tend h (.s 7), .tend h (.s 10)].all (fun i => defers (carded 0 0) i) = true ∧
    performs (carded 0 0) (.jinit h (.s 7) (.s 6) (.s 4)) = true ∧
    trapsBell (carded 0 1) (.jinit h (.s 7) (.s 6) (.s 4)) 0x02 = true ∧
    waitsBell (pooled (carded 0 0) 65536) (.jinit h (.s 7) (.s 6) (.s 4)) .poolMax = true ∧
    (performs (carded 0 32) (.tend h (.s 7)) && performs (carded 0 0) (.tend h (.s 10)) && trapsBell (carded 0 31) (.tend h (.s 7)) 0x21) = true ∧
    (carded 0 1).owner? 0 ≠ none := by decide +kernel

/-- A launch record of 128 bytes: one team of one wave, its trap area at 0x18000. -/
def launchBytes (prio flags spanCount ext5 gen : Nat) : List Byte :=
  leBytes 8 0x10000 ++ leBytes 8 7 ++ leBytes 8 (5 + 2 ^ 30 + 2 ^ 36 + 2 ^ 39) ++ leBytes 4 31 ++ leBytes 16 0 ++ leBytes 4 ext5 ++ leBytes 4 0 ++
    leBytes 1 1 ++ leBytes 3 0 ++ leBytes 2 1 ++ leBytes 1 prio ++ leBytes 1 flags ++ leBytes 1 0 ++ leBytes 1 spanCount ++ leBytes 2 0 ++ leBytes 24 0 ++
    leBytes 4 gen ++ leBytes 4 0 ++ leBytes 8 0x20000 ++ leBytes 8 0x18000 ++ leBytes 16 0

def launching (b : List Byte) : State := State.with (State.bytes base 0x12000 b) [(4, 0x12000)]

theorem witness_LaunchesFromPrograms : retires (launching (launchBytes 0 0 0 0 0)) (.launchInstruction h (.p 1) (.s 4)) = true ∧
    retires (launching (launchBytes 7 0 0 0 0)) (.launchInstruction h (.p 1) (.s 4)) = true ∧
    [launchBytes 0 4 2 1 1, launchBytes 8 0 0 0 0].all (fun b => traps (launching b) (.launchInstruction h (.p 1) (.s 4)) 0x02) = true ∧
    retires (pooled (launching (launchBytes 0 0 0 0 0)) 8) (.launchInstruction h (.p 1) (.s 4)) = true ∧
    [launching (launchBytes 0 0 0 0 0), pooled (launching (launchBytes 0 0 0 0 0)) 8].all (fun s =>
      defers s (.launchInstruction h (.p 1) (.s 4)) && performs s (.launchInstruction h (.p 1) (.s 4))) = true := by decide +kernel

/-- S4 = 1, S5 = 40, S6 = 24, S7 = 64, S8 = 65, S9 = 8; the wave has 8 units and the team 4 tiles. -/
def budget (spare : Nat) (tiles : List Nat) : State :=
  State.onTeam (State.with base [(4, 1), (5, 40), (6, 24), (7, 60), (8, 61), (9, 7), (10, 8), (11, 4), (12, 5)])
    fun t => { t with spareUnits := spare, tiles := [0, 1, 2, 3], spareTiles := tiles, windowUnits := 2 }

/-- Another team of the core that takes all its units. -/
def full (s : State) : State :=
  { s with teams := s.teams ++ (s.teams.map fun x => (5, { x.2 with waves := [6], tiles := (List.range 64).drop 4 })), waves := s.waves ++ [(6, { Wave.blank with units := 1000, team := 5 })] }

/-- The wave's split 1 waits for what a load of V60 asked of a home package. -/
def awaiting (s : State) : State := State.onWave s fun w => match encode (.ld h .global .b32 false (.v 60) (.s 4) .zero) with
  | some (x, l) => { w with splits := w.splits ++ [(1, { Split.start 0x10000 0 with clause := clauseOf x l, word := 0, waiting := .remote })] }
  | none => w

/-- A multiply is under way on the team's tile 3. -/
def multiplying (s : State) : State := { s with engines := [(7, { wave := 3, team := 2, token := none, channel := none, pageWait := none
                                                                  op := .matrix (.mma .f32 true 0) [3] 1 [] [] [] [] })] }

/-- The wave is a drover, and queue 1 of its team holds some entries. -/
def pusher (l : List W64) : State :=
  State.onTeam (State.onSplit (State.onWave base fun w => { w with drover := true, emask := 1 }) fun p => { p with mask := 1 })
    fun t => { t with drover := some 3, waves := [], queues := (List.range 4).map fun q => (q, { t.queue q with entries := if q = 1 then l else [], closed := false }) }

theorem witness_BudgetsAndQueuesMove : [Instr.claim h true false (.p 1) .zero, .claim h true false (.p 1) (.s 5), .claim h false true (.p 1) .zero,
      .claim h false true (.p 1) (.s 8)].all (fun i => traps (budget 0 []) i 0x02) = true ∧
    [Instr.claim h true false (.p 1) (.s 4), .claim h false false (.p 1) (.s 6), .claim h true true (.p 1) (.s 4)].all (retires (budget 0 [])) = true ∧
    retires (budget 24 [5]) (.claim h true false (.p 1) (.s 6)) = true ∧
    [Instr.claim h false false (.p 1) (.s 6), .claim h false true (.p 1) (.s 7)].all (retires (full (budget 0 []))) = true ∧
    ((full (budget 0 [])).freeUnits 0, (full (budget 0 [])).freeTiles 0) = (0, []) ∧
    decide (((budget 0 []).claimTiles 0).Nodup ∧ ∀ x ∈ (budget 0 []).claimTiles 0, x < 64) = true ∧
    ((full (budget 0 [])).claimTiles 0) = [] ∧
    waits (awaiting (budget 0 [])) (.give h false (.s 4)) .tile = true ∧
    waits (multiplying (budget 0 [])) (.give h true (.s 4)) .tile = true ∧
    ((budget 0 []).core 0).claims = [] ∧
    [Instr.give h false (.s 4), .give h false (.s 9), .give h true (.s 4), .give h true (.s 11)].all (retires (budget 0 [])) = true ∧
    [Instr.give h false .zero, .give h false (.s 10), .give h true .zero, .give h true (.s 12)].all (fun i => traps (budget 0 []) i 0x02) = true ∧
    [Instr.claim h true false (.p 1) (.s 4), .give h false (.s 9), .give h true (.s 11)].all (defers (budget 0 [])) = true ∧
    [Instr.claim h false false (.p 1) (.s 6), .claim h false true (.p 1) (.s 4), .give h false (.s 9), .give h true (.s 11)].all (performs (budget 0 [])) = true ∧
    [Instr.claim h true false (.p 1) (.s 6), .claim h true true (.p 1) (.s 4)].all (performs (budget 24 [5])) = true ∧
    [Instr.claim h true false (.p 1) (.s 6), .claim h true true (.p 1) (.s 4)].all (fun i => waitsBell (budget 0 []) i .claim) = true ∧
    [Instr.dpush h 0 (.s 4), .dpush h 3 (.s 4), .dclose h 0, .dclose h 3].all (retires (pusher [])) = true ∧
    meets (State.at' (State.onTeam (pusher []) fun t => { t with queues := [(1, { t.queue 1 with closed := true })] }) (.dpush h 1 (.s 4))) (.dpush h 1 (.s 4)) = true ∧
    waits (pusher (List.replicate 64 0)) (.dpush h 1 (.s 4)) (.pushFull 1) = true ∧
    retires (pusher (List.replicate 63 0)) (.dpush h 1 (.s 4)) = true := by decide +kernel

/-! ### Special registers and handlers -/

/-- The wave in its system handler. -/
def system (s : State) : State := State.onWave s fun w => { w with hmode := .system }

/-- The word of `i` raises a trap of a cause at the machine. -/
def trapped (s : State) (i : Instr) (cause : Nat) : Bool := match exec i s with
  | .next t => ((t.wave? 3).bind (·.trapCtx)).map (·.cause) == some cause
  | _ => false

/-- In user mode the word of `i` is issued, passes the checks before, and is privileged. -/
def barred0 (i : Instr) : Bool :=
  let s := State.at' base i
  let e := env s i
  issued s i && i.codesOk && !(e.w.outside i) && (popsFor (s.teamOf e.w) i matches .values _) && trapped s i 0x08

theorem witness_SpecialRegistersReadAndWritten : [0x00, 0x1D].all (fun n => traps base (.srd h (.s 8) (.lit n)) 0x02 && retires base (.srd h (.v 4) (.lit n))) = true ∧
    [0x01, 0x1B, 0x1C, 0x1E, 0x1F].all (fun n => retires base (.srd h (.s 8) (.lit n)) && retires base (.srd h (.v 4) (.lit n))) = true ∧
    [0x02, 0x1C].all (fun n => traps base (.srd h (.v 5) (.lit n)) 0x02) = true ∧
    [0x00, 0x1F].all (fun n => retires base (.srd h (.v 5) (.lit n))) = true ∧
    traps base (.srd h (.s 8) (.lit 0x100)) 0x02 = true ∧
    [0x20, 0xFF].all (fun n => barred0 (.srd h (.s 8) (.lit n)) && retires (system base) (.srd h (.s 8) (.lit n)) && retires (system base) (.srd h (.v 4) (.lit n))) = true ∧
    [(0x14, 63), (0x15, 0xFFFFFFFF), (0x1A, 0x20000), (0x1B, 64)].all (fun x => retires base (.swr h (.lit x.1) (.lit x.2))) = true ∧
    [(0x14, 64), (0x1B, 0), (0x1B, 63), (0x13, 0), (0x100, 0)].all (fun x => traps base (.swr h (.lit x.1) (.lit x.2)) 0x02) = true ∧
    [0x20, 0xFF].all (fun n => barred0 (.swr h (.lit n) .zero) && retires (system base) (.swr h (.lit n) .zero)) = true := by decide +kernel

/-- A context of a trap of some cause and kind, with a clause of two words whose first it is. -/
def context (cause kind : Nat) (deferred : W32) : TrapCtx :=
  { cause := cause, kind := kind, split := 0, resumeLane := 0, faultMask := 1, execMask := BitVec.allOnes 32, deferred := deferred, carry := 0,
    splits := [(0, { Split.start 0x10000 (BitVec.allOnes 32) with clause := clauseOf 0x01B8000000000000 [], word := 1 })], latch := [], pops := []
    slot := none, lanes := [], late := false, turn := 0, begun := none }

/-- The wave in its user handler, in one split. -/
def handling (c : TrapCtx) : State := State.onWave base fun w => { w with hmode := .user, trapCtx := some c }

/-- The word executes, and `f` holds of the next state. -/
def ends (s : State) (i : Instr) (f : State → Bool) : Bool :=
  meets (State.at' s i) i && match exec i (State.at' s i) with
    | .next u => f u
    | _ => false

/-- The wave has left its handlers. -/
def leaves (u : State) : Bool := (u.wave? 3).any fun w => w.hmode == .none && w.trapCtx.isNone

theorem witness_HandlersReturnAndPack : [ResumeMode.retry, .next, .remove, .term].all (fun m => traps base (.rtu h m) 0x01) = true ∧
    [0, 1, 2, 3].all (fun k => ends (handling (context 0x18 k 0)) (.rtu h .retry) leaves && ends (handling (context 0x10 k 0)) (.rtu h .next) leaves) = true ∧
    [0, 2].all (fun d => ends (handling (context 0x10 1 d)) (.rtu h .remove) leaves) = true ∧
    ends (handling (context 0x10 0 0)) (.rtu h .term) (fun u => (u.team? 2).isNone) = true ∧
    ((base.team? 2).map (·.launch) == (base.wave? 3).map (·.launch)) = true ∧
    meets (State.at' (State.onWave (handling (context 0x10 0 0)) fun w => { w with splits := w.splits ++ [(1, Split.start 0 0)] }) (.rtu h .next)) (.rtu h .next) = true ∧
    traps base (.pack h (.s 4) (.s 5)) 0x01 = true ∧
    meets (State.at' (handling (context 0x10 0 0)) (.pack h .zero .zero)) (.pack h .zero .zero) = true ∧
    [0x04, 2 ^ 56].all (fun a => meets (State.at' (State.with (handling (context 0x40 4 0)) [(5, a)]) (.pack h .zero (.s 5))) (.pack h .zero (.s 5))) = true ∧
    ends (State.onTeam (handling (context 0x40 4 0)) fun t => { t with preempt := some { byPolicy := false, waiting := none, back := false, effective := true, drained := true, charged := 0 } })
      (.pack h .zero .zero) (fun u => (u.team? 2).isNone && !u.saved.isEmpty) = true := by decide +kernel

/-- The wave in its system handler, for a trap of some cause. -/
def serving (cause : Nat) : State :=
  State.with (State.bytes (State.onWave base fun w => { w with hmode := .system, sysCtx := some { cause := cause, toUser := some (context cause 0 0) } })
    0x12000 (leBytes 256 0)) [(4, 0x12000)]

theorem witness_SystemHandlerInstructions : [Instr.stksv h 0 (.s 4), .stkld h 3 (.s 4), .rts h, .tlbinv h (.s 4) .zero].all (fun i =>
      issued (State.at' base i) i && i.codesOk && trapped (State.at' base i) i 0x08) = true ∧
    retires (serving 0x18) (.stksv h 0 (.s 4)) = true ∧
    [Instr.stksv h 3 (.s 4), .stkld h 3 (.s 4)].all (fun i => meets (State.at' (serving 0x18) i) i) = true ∧
    (serving 0x18).savedStacks = [] ∧
    [[], [(dpaToStorage 0x12000, [], leBytes 256 1)]].all (fun (l : Tab (List StackEntry × List Byte)) =>
      meets (State.at' { serving 0x18 with savedStacks := l } (.stkld h 0 (.s 4))) (.stkld h 0 (.s 4))) = true ∧
    retires { serving 0x18 with savedStacks := [(dpaToStorage 0x12000, [], leBytes 256 0)] } (.stkld h 0 (.s 4)) = true ∧
    ((serving 0x18).owner? 0).any (fun o => (List.range 4).all (fun i => (o.checkGlobal (0x12000 + 64 * i) 64 .store).isNone &&
      (o.checkGlobal (0x12000 + 64 * i) 64 .load).isNone) && (o.pageAt 0x12000).any (fun p => p.frame.isSome && p.remote.isNone)) = true ∧
    [0x06, 0x18].all (fun c => ends (serving c) (.rts h) fun u => (u.wave? 3).any fun w => w.hmode == .none && w.sysCtx.isNone) = true ∧
    [0x01, 0x02, 0x20].all (fun c => ends (serving c) (.rts h) fun u => (u.wave? 3).any fun w => w.hmode == .user) = true ∧
    ends (serving 0x50) (.rts h) (fun u => (u.team? 2).isNone) = true ∧
    [0x01, 0x02, 0x20].all (fun c => ends (State.onWave (serving c) fun w => { w with utvec := 0 }) (.rts h) fun u => (u.team? 2).isNone) = true ∧
    ends (State.onWave (serving 0x18) fun w => { w with sysCtx := some { cause := 0x18, toUser := none } }) (.rts h)
      (fun u => (u.wave? 3).any fun w => w.hmode == .none && w.sysCtx.isNone) = true ∧
    meets (State.at' (system base) (.rts h)) (.rts h) = true := by decide +kernel

/-! ### The module, its ports and its owners -/

/-- The device event goes to a next state, of which `f` holds. -/
def gives (s : State) (i : Instr) (f : State → Bool) : Bool := match exec i s with
  | .next u => f u
  | _ => false

def started (cycle : Bool) : StartInputs := { powerCycle := cycle, misread0 := [], misread1 := [1], trained := true, portsUp := true }

theorem witness_ModuleStartsOrRecovers : [false, true].all (fun c => gives State.reset (.moduleStart (started c)) fun u => u.phase == .recovery && u.ports.length == 16) = true ∧
    [false, true].map (fun c => gives { base with phase := .tripped } (.moduleStart (started c)) fun u => u.phase == .tripped && !u.waves.isEmpty) = [true, false] := by decide +kernel

def linked (b : Boundary) : State := { base with boundaries := [(13, b)], life := { base.life with seq := 2 ^ 32 - 1 } }
def dir (n run : Nat) : BoundaryDir := { expected := BitVec.ofNat 16 n, crcRun := run, delivered := [] }

theorem witness_BoundariesAndModuleEventsAct : gives (linked { forth := dir 65535 3, back := dir 0 0, failedRetrains := 0, down := false }) (.flitReceive 13 true 65535 true 7)
      (fun u => (Tab.find u.boundaries 13).any fun b => b.forth == { expected := 0, crcRun := 0, delivered := [7] }) = true ∧
    gives (linked { forth := dir 0 16, back := dir 0 0, failedRetrains := 2, down := false }) (.boundaryRetrain 13 false)
      (fun u => (Tab.find u.boundaries 13).any fun b => b.failedRetrains == 3 && b.down) = true ∧
    [0, 1, 2, 3].all (fun n => [false, true].all fun ok => gives (linked { forth := dir 0 16, back := dir 0 15, failedRetrains := n, down := false }) (.boundaryRetrain 13 ok)
      fun u => (Tab.find u.boundaries 13).any fun b => b.failedRetrains == (if n = 3 || ok then n else n + 1)) = true ∧
    gives (linked { forth := dir 0 16, back := dir 0 0, failedRetrains := 3, down := false }) (.boundaryDown 13) (fun u => (Tab.find u.boundaries 13).any (·.down)) = true ∧
    gives { base with ecc := [(15 * 2 ^ 30 + 2 ^ 30 - 1, .correctable)] } (.patrolStep 15 (2 ^ 30 - 1)) (fun u => u.ecc.isEmpty && u.corrected == 1) = true ∧
    gives base (.thermalThrottle 7 95) (fun u => u.throttled == [7]) = true ∧
    gives { base with throttled := [7] } (.thermalRelease 7 92) (fun u => u.throttled.isEmpty) = true ∧
    gives base (.thermalTrip 0 110) (fun u => u.phase == .tripped && u.teams.isEmpty) = true ∧
    gives base (.coreResetOrPowerGating 511) (fun u => (u.core 511).off) = true ∧
    gives (linked { forth := dir 0 0, back := dir 0 0, failedRetrains := 0, down := false })
      (.lifeRecompute (List.replicate 8 { central := 5, low := 5, high := 5, limiting := 63 }) (List.replicate 16 0)) (fun u => u.life.seq == 0) = true := by decide +kernel

/-- A command message of an owner: its header and its body. -/
def message (code version : Nat) (body : List Byte) : List Byte :=
  leBytes 1 version ++ leBytes 1 code ++ leBytes 2 0 ++ leBytes 4 (16 + body.length) ++ leBytes 8 0xAB ++ body

def rx (b : List Byte) (held : Bool) : RxMessage := { owner := 0, port := 0, flow := .roce, bytes := b, held := held }

/-- The command of such a message, in a phase. -/
def cmd (code version : Nat) (body : List Byte) (p : CmdPhase) : Cmd := { Cmd.ofMessage (rx (message code version body) false) with phase := p }

/-- Owner 0 has one command, number 5, in the machine with ports, and its host ring is empty. -/
def owning (c : Cmd) (s : State) : State :=
  State.putHost { State.onOwner s (fun o => { o with cmds := [(5, c)], nextCmd := 6 }) with ports := List.replicate 16 { speed := .g800, up := true, powered := 4 } } 0x1000 (leBytes 64 0)

/-- Command 5 has been performed with a status. -/
def done (status : Nat) (u : State) : Bool := (u.cmd? 0 5).any fun c => c.phase == .performed && c.status == status
/-- Command 5 goes on. -/
def runs (u : State) : Bool := (u.cmd? 0 5).any fun c => c.phase == .running

/-- The event of command 5, dispatched, performs it with a status. -/
def answers (i : Instr) (code version : Nat) (body : List Byte) (s : State) (status : Nat) : Bool :=
  gives (owning (cmd code version body .dispatched) s) i (done status)

/-- The machine with ports and messages received. -/
def receiving (m : List RxMessage) : State := { owning (cmd 0x0E 1 (leBytes 24 0) .received) base with rx := m }

def packet (f : Flow) (authentic : Bool) : Packet := { port := 15, frame := 9216, flow := f, endpoint := 0, nonce := 9, authentic := authentic, bytes := message 0x0E 1 (leBytes 24 0) }

/-- Owner 0's command ring holds so many bytes. -/
def filledRing (s : State) (n : Nat) : State := State.onOwner s fun o => { o with cmdRing := { o.cmdRing with reserve := n, commit := n } }

theorem witness_PortsAndRingsCarryCommands : gives (receiving []) (.portSpeedChange 15 .g200) (fun u => u.ports[15]? == some { speed := .g200, up := true, powered := 1 }) = true ∧
    gives (receiving []) (.uetPacketReceive { packet (.uetPlain true) true with frame := 9217 }) (fun u => u.rx.isEmpty) = true ∧
    [RoceRequest.rc, .ud].map (fun r => gives (receiving []) (.roceConnectionSetup 15 0 r) fun u => u.connections == [(15, 0)]) = [true, false] ∧
    [(Flow.uetUud, true), (.uetPlain true, true), (.uetTss true, true), (.uetTss false, false), (.roce, true)].map (fun x =>
      gives { receiving [] with connections := [(15, 0)] } (.uetPacketReceive (packet x.1 x.2)) fun u => u.rx.length == 1) = [false, true, true, false, true] ∧
    gives (State.onOwner (receiving []) fun o => { o with nonces := [9] }) (.uetPacketReceive (packet (.uetTss true) true)) (fun u => u.counters.replayed == 1) = true ∧
    gives (receiving [rx (message 0x0E 1 (leBytes 24 0)) false]) (.commandAppend 0) (fun u => u.rx.isEmpty && (u.cmd? 0 6).isSome) = true ∧
    gives (filledRing (receiving [rx (message 0x0E 1 (leBytes 24 0)) false]) (65536 - 48)) (.commandAppend 0) (fun u => u.rx.isEmpty) = true ∧
    gives (filledRing (receiving [rx (message 0x0E 1 (leBytes 24 0)) false]) 65536) (.commandAppend 0) (fun u => u.rx.any (·.held)) = true ∧
    gives (receiving [rx (message 0x0E 1 (leBytes 24 0)) true]) (.commandRingRoom 0) (fun u => u.rx.isEmpty) = true ∧
    [1, 2, 3].map (fun v => gives (owning (cmd 0x0E v (leBytes 24 0) .received) base) (.commandDispatch 0) (done 0x12)) = [false, false, true] ∧
    gives { owning (cmd 0x0D 1 (leBytes 16 0) .received) base with phase := .tripped } (.commandDispatch 0) (fun u => (u.cmd? 0 5).isNone) = true ∧
    gives (State.onOwner (owning (cmd 0x0D 1 (leBytes 16 0) .received) base) fun o => { o with closing := true }) (.commandDispatch 0)
      (fun u => (u.cmd? 0 5).isNone && u.hostBytes 0x1018 8 == leBytes 8 48) = true ∧
    gives (owning (cmd 0x0E 1 (leBytes 24 0) .performed) base) (.commandCompletion 0 5) (fun u => (u.cmd? 0 5).isNone && u.hostBytes 0x1018 8 == leBytes 8 48) = true ∧
    gives (State.onOwner (owning (cmd 0x0E 1 (leBytes 24 0) .performed) base) fun o => { o with hostRing := { o.hostRing with reserve := 4096, commit := 4096 } })
      (.commandCompletion 0 5) (fun u => (u.owner? 0).any fun o => o.completions.length == 1) = true ∧
    gives (State.onOwner (owning (cmd 0x0E 1 (leBytes 24 0) .received) base) fun o => { o with completions := [(cmd 0x0E 1 [] .performed).completion] })
      (.completionRingRoom 0) (fun u => (u.owner? 0).any fun o => o.completions.isEmpty) = true := by decide +kernel

/-- Bytes of page 0x10000 written, and the machine's ports. -/
def hbm : State := State.bytes (owning (cmd 0x0E 1 (leBytes 24 0) .received) base) 0x10040 (leBytes 64 5)

/-- The same with a ring of 4096 bytes at 0x12000, its control block at 0x11000. -/
def ringHome (log2 : Nat) : State :=
  State.bytes hbm 0x11000 (leBytes 8 0x12000 ++ leBytes 8 log2 ++ leBytes 48 0)

/-- A copy of one row, a byte of which is asked for. -/
def copying : CopyOp := { kind := .cpin, desc := { format := 0, qmode := 0, barrier := none, rows := 1, rowb := 16, growb := 0, gstride := 0, scoff := 0 }, g := 0x10000, s := 0,
                          dest := 0, peers := [], scale := 0, index := .list 0, set := 0, phase := 0, reads := [], got := [], writes := [], written := 0, row := 0,
                          cancelled := false, asked := some 4, answer := none }

/-- A remote request of the wave or of a copy, outstanding. -/
def asking (r : RemoteReq) (s : State) : State := { s with remote := [(4, r)], ports := hbm.ports }
def request (posted : Bool) (engine : Option Nat) (lane : Nat) : RemoteReq :=
  { owner := 0, engine := engine, wave := 3, split := 0, lane := lane, posted := posted, handler := false, launch := none, others := [] }

/-- A message of another package that arrives whole and new. -/
def letter : Envelope := { owner := 0, port := 15, frame := 9216, nonce := 9, authentic := true }

/-- The wave's word has asked a home package for something. -/
def retrying (p : Split) : Split :=
  { p with retry := some { lanes := 1, skip := false, counted := false, carry := 0, repop := false, pops := [], replies := [], execMask := 1, owed := none } }

/-- What a package is answered. -/
def served (ok : Bool) (u : State) : Bool := u.tx.any fun m => match m with
  | .remoteAnswer 3 r _ => r == ok
  | _ => false

theorem witness_RemoteAccessesServed : [RemoteOp.load 16, .fetch, .store (leBytes 16 1), .atomic .addU32 7, .compareSwap true 5 6, .initJoin (leBytes 64 1), .decrement].all (fun op =>
      gives hbm (.remoteAccess letter 0 3 0x10040 op false) (served true) &&
      gives hbm (.remoteAccess letter 0 3 0x30000 op false) (served false) &&
      gives { hbm with boundaries := [12, 13].map fun k => (k, { Boundary.fresh with down := true }) } (.remoteAccess letter 0 3 0x10040 op false) (served false)) = true ∧
    gives { hbm with ecc := [(dpaToStorage 0x10040 / 64, .uncorrectable)] } (.remoteAccess letter 0 3 0x10040 (.load 16) false) (served false) = true ∧
    gives hbm (.remoteAccess { letter with authentic := false } 0 3 0x10040 (.load 16) false) (fun u => u.tx.isEmpty && u.counters.authFailed == 1) = true ∧
    gives (State.onOwner hbm fun o => { o with nonces := [9] }) (.remoteAccess letter 0 3 0x10040 (.load 16) false) (fun u => u.tx.isEmpty && u.counters.replayed == 1) = true ∧
    gives (asking (request false (some 7) 0)
      { base with engines := [(7, { wave := 3, team := 2, token := none, channel := none, pageWait := none, op := .copy copying })] })
      (.remoteAcknowledgement letter 4 false []) (fun u => u.remote.isEmpty && u.engines.any fun x => match x.2.op with
        | .copy c => c.answer.isSome
        | _ => false) = true ∧
    gives (asking (request true none 0) base) (.remoteAcknowledgement letter 4 false []) (fun u => (u.wave? 3).any fun w => w.failedStp == 1) = true ∧
    gives (asking (request true none 0) base) (.transportRetryLimitExhausted 4) (fun u => u.remote.isEmpty && (u.wave? 3).any fun w => w.failedStp == 1) = true ∧
    gives (asking (request false none 37) (State.onSplit base fun p => { p with fetchAt := some 0x10000, waiting := .remote })) (.remoteAcknowledgement letter 4 true (leBytes 8 7))
      (fun u => (u.wave? 3).any fun w => w.splits.any fun x => x.2.fetched == [(0x10000, some 7)]) = true ∧
    gives (asking { request false none 38 with split := 5 } (owning { cmd 0x06 1 (leBytes 32 0) .running with asked := some 4 } base)) (.remoteAcknowledgement letter 4 true [])
      (fun u => (u.cmd? 0 5).any fun c => c.answer == some (true, [])) = true ∧
    gives hbm (.remoteAcknowledgement letter 4 true []) (fun u => u.tx.isEmpty && (u.owner? 0).any fun o => o.nonces == [9]) = true ∧
    gives (ringHome 12) (.remoteAccess letter 0 3 0x11000 (.ring (.reserve 64 1 0)) false) (served true) = true ∧
    gives (ringHome 11) (.remoteAccess letter 0 3 0x11000 (.ring (.take 0 false)) false) (fun u => u.tx == [.remoteAnswer 3 true malformedAnswer]) = true ∧
    gives (asking (request false none 31) (State.onSplit base retrying)) (.remoteAcknowledgement letter 4 true [0])
      (fun u => (u.wave? 3).any fun w => w.splits.any fun x => x.2.retry.any fun r => r.replies.length == 1) = true ∧
    gives (asking (request false none 31) (handling { context 0x10 4 0 with splits := [(0, retrying (Split.start 0x10000 1))] })) (.remoteAcknowledgement letter 4 true [0])
      (fun u => (u.wave? 3).any fun w => w.trapCtx.any fun c => c.splits.any fun x => x.2.retry.any fun r => r.replies.length == 1) = true := by decide +kernel

/-- A CTX_OPEN message body after its header: its id, quotas and limits. -/
def openBody (id pool cores frames : Nat) : List Byte :=
  leBytes 4 id ++ leBytes 4 0 ++ leBytes 4 pool ++ leBytes 1 1 ++ leBytes 1 7 ++ leBytes 2 cores ++ leBytes 8 frames ++ leBytes 1 15 ++ leBytes 3 0 ++ leBytes 212 0 ++
    leBytes 8 0 ++ leBytes 8 0

/-- What opening an owner answers: a status, or 0 where it opens one. -/
def OpenOut.status : OpenOut → Nat
  | .refused st => st
  | .opened _ _ => 0

def opening (s : State) (id pool cores frames : Nat) (boot : Bool) : Nat := OpenOut.status (s.openOwner (message 0x01 1 (openBody id pool cores frames)) boot)

/-- Owner 1 runs a command that closes it. -/
def closesItself : State :=
  State.putHost { base with owners := base.owners.map fun x => (1, { x.2 with cmds := [(5, cmd 0x02 1 (leBytes 8 1) .running)], closing := true }) } 0x1000 (leBytes 64 0)

theorem witness_OwnersOpenAndClose : [opening base 1 0 1 64 false, opening base 0 1 1 64 false, opening base 1024 1 1 64 false, opening base 1 1 1 64 true,
      opening base 1 65536 1 64 false, opening base 1023 1 1 64 false, opening base 0xFFFFFFFF 1 1 64 false, opening base 0 1 1 64 true] =
      [0x10, 0x10, 0x10, 0x10, 0x17, 0x19, 0x19, 0x19] ∧
    opening { base with owners := (base.owners.map fun x => (1, x.2)) } 1 1 1 64 false = 0x14 ∧
    gives { owning { cmd 0x01 1 (openBody 1 1 1 64) .dispatched with port := 15 } base with boundaries := (List.range 14).map fun k => (k, { Boundary.fresh with down := true }) }
      (.ctxOpen 0 5) (fun u => (u.cmd? 0 5).any fun c => c.phase == .dispatched) = true ∧
    answers (.ctxOpen 0 5) 0x01 1 (openBody 1 1 1 64) base 0x19 = true ∧
    gives closesItself (.ctxClose 1 5) (fun u => (u.owner? 1).isNone) = true ∧
    answers (.ctxClose 0 5) 0x02 1 (leBytes 8 1) base 0x14 = true ∧
    answers (.ctxClose 0 5) 0x02 1 (leBytes 8 0) base 0x14 = true ∧
    gives (owning (cmd 0x02 1 (leBytes 8 1) .dispatched) { base with owners := base.owners ++ base.owners.map fun x => (1, x.2) }) (.ctxClose 0 5)
      (fun u => (u.owner? 1).any (·.closing) && runs u) = true ∧
    gives (owning (cmd 0x02 1 (leBytes 8 1) .running) { base with owners := base.owners ++ base.owners.map fun x => (1, { x.2 with closing := true }) })
      (.ctxClose 0 5) (fun u => (u.owner? 1).isNone && done 0 u) = true := by decide +kernel

/-- MAP's body: a range, the page size, permissions, flags and home. -/
def mapBody (a n size perms flags home : Nat) : List Byte := leBytes 8 a ++ leBytes 8 n ++ [size, perms, flags, home].map (BitVec.ofNat 8) ++ leBytes 4 0
def rangeBody (a n : Nat) : List Byte := leBytes 8 a ++ leBytes 8 n
def copyBody (a n host : Nat) : List Byte := rangeBody a n ++ leBytes 8 host ++ leBytes 8 0

theorem witness_MemoryCommandsAct : answers (.map 0 5) 0x03 1 (mapBody 0x30000 0x10000 3 7 0 0) base 0x10 = true ∧
    [mapBody 0x30001 0x10000 0 7 0 0, mapBody 0x100000000000000 0x10000 0 7 0 0, mapBody 0x10000 0x20000 0 7 0 0].map (fun b => answers (.map 0 5) 0x03 1 b base 0x16) =
      [true, true, true] ∧
    answers (.map 0 5) 0x03 1 (mapBody 0x30000 0x3F0000 0 7 0 0) base 0x18 = true ∧
    answers (.map 0 5) 0x03 1 (mapBody 0x30000 0x20000 0 7 0 0) base 0 = true ∧
    answers (.map 0 5) 0x03 1 (mapBody 0x30000 0x20000 0 7 4 0) base 0 = true ∧
    answers (.map 0 5) 0x03 1 (mapBody 0x30000 0x20000 0 7 0 0) { base with nextFrame := 2 ^ 24 } 0x17 = true ∧
    answers (.shadow 0 5) 0x05 1 (rangeBody 0x20000 0x10000) { base with nextFrame := 2 ^ 24 } 0x17 = true ∧
    answers (.unmap 0 5) 0x04 1 (rangeBody 0x10001 0x10000) base 0x16 = true ∧
    answers (.unmap 0 5) 0x04 1 (rangeBody 0x20000 0x10000) base 0 = true ∧
    answers (.shadow 0 5) 0x05 1 (rangeBody 0x20000 0x10000) base 0 = true ∧
    gives (State.onOwner (owning (cmd 0x05 1 (rangeBody 0x20000 0x10000) .dispatched) base) fun o => { o with framesUsed := 64 }) (.shadow 0 5) (done 0x18) = true ∧
    answers (.copyIn 0 5) 0x06 1 (copyBody 0x30000 16 0x1000) base 0x16 = true ∧
    answers (.copyIn 0 5) 0x06 1 (copyBody 0x20000 16 0x1000) base 0 = true ∧
    gives (owning (cmd 0x06 1 (copyBody 0x20008 16 0x1000) .dispatched) base) (.copyIn 0 5) runs = true ∧
    answers (.copyOut 0 5) 0x07 1 (copyBody 0x10040 16 0x2000) hbm 0 = true ∧
    (base.owner? 0).any (fun o => !(o.touchesTrapArea 0x20000 0x10000)) = true := by decide +kernel

/-! ### Commands on work, images, queries and attestation -/

/-- PREEMPT's or RESUME's body. -/
def workBody (seq : Nat) : List Byte := leBytes 8 seq ++ leBytes 4 0xFFFFFFFF ++ leBytes 4 0

theorem witness_WorkCommandsAct : answers (.launch 0 5) 0x08 2 (launchBytes 0 0 0 0 0 ++ leBytes 8 0) base 0x10 = true ∧
    answers (.launch 0 5) 0x08 1 (launchBytes 0 1 0 0 0) base 0x13 = true ∧
    answers (.launch 0 5) 0x08 2 (launchBytes 8 0 0 0 0) base 0x10 = true ∧
    gives (State.onOwner (owning (cmd 0x08 2 (launchBytes 7 0 0 0 0) .dispatched) base) fun o => { o with ceiling := 6 }) (.launch 0 5) (done 0x18) = true ∧
    gives (owning (cmd 0x08 2 (launchBytes 7 0 0 0 0) .dispatched) base) (.launch 0 5) runs = true ∧
    answers (.post 0 5) 0x09 1 (leBytes 32 0 ++ leBytes 8 8) base 0x10 = true ∧
    gives (pooled (owning (cmd 0x09 1 (leBytes 32 0 ++ leBytes 8 0) .dispatched) base) 8) (.post 0 5) (done 0x18) = true ∧
    answers (.post 0 5) 0x09 1 (leBytes 32 0 ++ leBytes 8 0) base 0 = true ∧
    gives (State.onOwner (owning (cmd 0x09 1 (leBytes 32 0 ++ leBytes 8 0) .dispatched) base) fun o => { o with queues := [(512, { queue with ctl := { queue.ctl with reserve := 65536 } })] })
      (.post 0 5) runs = true ∧
    [(Instr.preempt 0 5, 0x0C), (.resume 0 5, 0x0D)].all (fun x => [1, 99].all fun seq => answers x.1 x.2 1 (workBody seq) base 0) = true ∧
    (base.launchBySeq 0 1).isSome = true ∧
    answers (.signal 0 5) 0x0A 1 (rangeBody 0x10040 (2 ^ 64 - 1)) hbm 0 = true ∧
    [(5, true), (6, false)].all (fun x => gives (owning (cmd 0x0B 1 (rangeBody 0x10040 x.1 ++ leBytes 8 1) .dispatched) hbm) (.waitev 0 5) fun u => done 0 u == x.2 && runs u == !x.2) = true ∧
    gives (owning (cmd 0x0B 1 (rangeBody 0x10040 5 ++ leBytes 8 1) .running) hbm) (.waitevSatisfied 0 5) (done 0) = true ∧
    gives (owning (cmd 0x0B 1 (rangeBody 0x10040 6 ++ leBytes 8 1) .running) hbm) (.waitevTimeout 0 5) (done 1) = true := by decide +kernel

/-- QUERY's body. -/
def queryBody (form a most : Nat) : List Byte := leBytes 8 form ++ leBytes 8 a ++ leBytes 8 most
/-- FWLOAD's body. -/
def imageBody (kind n a : Nat) : List Byte := leBytes 4 kind ++ leBytes 4 n ++ leBytes 8 a
/-- A firmware image of 4096 bytes. -/
def image (kind version : Nat) : List Byte := leBytes 4 0x4B4E4657 ++ leBytes 4 version ++ leBytes 4 4096 ++ leBytes 4 kind ++ List.replicate 4080 0

/-- The life state has a reading of each die, and a time base. -/
def aged (s : State) : State := { s with life := { s.life with seq := 3, dies := List.replicate 8 { central := 9, low := 8, high := 10, limiting := 1 }, trends := [], uncorrectable := [], timeBase := some 100 } }

theorem witness_QueriesReportAndImagesLoaded :     answers (.queryLife 0 5) 0x0E 1 (queryBody 1 0x3000 64) base 0 = true ∧
    (base.firstReport 0).length = 288 ∧
    answers (.queryLife 0 5) 0x0E 1 (queryBody 1 0x3000 64) (aged base) 0 = true ∧
    [(Instr.querySetTimeBase 0 5, 2), (.queryClearCounters 0 5, 3)].all (fun x => answers x.1 0x0E 1 (queryBody x.2 0x3000 64) base 0) = true ∧
    (aged base).lifeReport.length = 288 ∧
    (cmd 0x0E 1 (queryBody 0 0x3000 64) .dispatched).queryFieldsOk = true ∧
    [1, 2].all (fun k => imageShapeOk k (image k 7) && (image k 7).length == imageLength (image k 7) && imageVersion (image k 7) == 7) = true ∧
    (base.flash.inUse 1).1 = none ∧
    [(Instr.fwloadConfigurationRecord 0 5, 0), (.fwloadTalazFirmware 0 5, 1), (.fwloadSecurityFirmware 0 5, 2)].all (fun x => [hbm, State.putHost { hbm with phase := .recovery } 0x10040 (leBytes 64 5)].all fun s =>
      answers x.1 0x10 1 (imageBody x.2 64 0x10040) s 0x1A) = true := by decide +kernel

/-- ATTEST's body: where the response goes, its maximum, and the request. -/
def attestBody (most : Nat) (q : List Byte) : List Byte := leBytes 8 0x3000 ++ leBytes 4 most ++ leBytes 4 q.length ++ q ++ List.replicate (alignUp q.length 8 - q.length) 0
def spdm (code : Nat) : List Byte := [0x13, BitVec.ofNat 8 code, 0, 0]

theorem witness_AttestAnswersRequests : answers (.getVersion (.command 0 5)) 0x0F 1 (attestBody 64 (spdm 0x84)) base 0 = true ∧
    answers (.getVersion (.command 0 5)) 0x0F 1 (attestBody 7 (spdm 0x84)) base 0x10 = true ∧
    answers (.spdmUnsupportedRequest (.command 0 5)) 0x0F 1 (attestBody 64 (spdm 0x85)) base 0 = true ∧
    gives { base with rx := [{ rx (message 0x0F 1 (attestBody 64 (spdm 0x84))) false with owner := 1024 }] } (.getVersion .bootstrap) (fun u => u.rx.isEmpty && u.tx.length == 1) = true ∧
    [0x84, 0xE1, 0xE3, 0x81, 0x82, 0x83, 0xE0].all (fun c => spdmCodes.contains c && (cmd 0x0F 1 (attestBody 64 (spdm c)) .dispatched).attestOk) = true := by decide +kernel

/-! ### Spans, placement, bells and queues -/

/-- The owner is package 1 of two, and launch 1 is a span of generation 4. -/
def spans (lead : Bool) (barrier : W32) (acked : List Nat) (done : List (Nat × PartEnd × Nat)) (own : Bool) : State :=
  State.onLaunch { State.onOwner base (fun o => { o with peers := [(0, 0), (0, 0)], ownPackage := 1 }) with ports := hbm.ports } fun l =>
    { l with lr := { l.lr with spanned := true, spanCount := 2, generation := 4 },
             span := some { lead := lead, generation := 4, barrier := some barrier, before := [], acked := acked, done := done, reserved := [], aborted := false, ownDone := own } }

/-- The owner's last offer was of generation 4, from package 0, with a record. -/
def offered (b : List Byte) : State := State.onOwner (spans true 0 [] [] false) fun o => { o with lastGeneration := 4, lastOffer := some (0, b) }

theorem witness_SpansExchange : gives (spans true 0 [] [] false) (.spanOffer letter 0 0 4 (launchBytes 0 4 2 1 4)) (fun u => u.tx == [.spanAck 0 0 4]) = true ∧
    gives (offered (launchBytes 0 4 2 1 4)) (.spanOffer letter 0 0 4 (launchBytes 0 4 2 1 4)) (fun u => u.tx.isEmpty) = true ∧
    gives (offered []) (.spanOffer letter 0 0 4 (launchBytes 0 4 2 1 4)) (fun u => u.tx == [.spanNak 0 0 4]) = true ∧
    gives (spans true 0 [] [] false) (.spanOffer letter 0 0 4 (launchBytes 0 0 0 0 0)) (fun u => u.tx == [.spanNak 0 0 4]) = true ∧
    gives (State.onOwner (spans true 0 [] [] false) fun o => { o with placement := [] }) (.spanOffer letter 0 0 4 (launchBytes 0 4 2 1 4)) (fun u => u.tx == [.spanNak 0 0 4]) = true ∧
    ((spans true 0 [] [] false).launch? 1).any (fun l => l.lr.peers.contains 1) = true ∧
    gives (spans true 0 [0] [] false) (.spanAck letter 1 1 4) (fun u => (u.launch? 1).any fun l => l.span.any fun x => x.barrier == some 4) = true ∧
    gives (spans true 0 [0] [] false) (.spanNak letter 1 1 4) (fun u => (u.launch? 1).isNone) = true ∧
    gives (spans true 4 [0, 1] [] false) (.spanDone letter 1 1 4 ⟨0, 3⟩ 0) (fun u => (u.launch? 1).any fun l => l.span.any fun x => x.done == [(1, ⟨0, 3⟩, 0)]) = true ∧
    gives (spans true 4 [0, 1] [(0, ⟨0, 1⟩, 0)] true) (.spanTimeout 1) (fun u => (u.launch? 1).any fun l => l.span.any (·.aborted)) = true ∧
    ((spans false 0 [] [] false).peerLaunch 0 4).isSome = true ∧
    gives (spans false 0 [] [] false) (.spanGo letter 0 4) (fun u => (u.launch? 1).any fun l => l.span.any fun x => x.barrier == some 4) = true ∧
    gives (spans false 0 [] [] false) (.spanAbort letter 0 4) (fun u => (u.launch? 1).isNone) = true := by decide +kernel

/-- A launch of the launch record above, waiting for placement: number 8. -/
def waitingLaunch (s : State) (prio : Nat) (round : Bool) : State :=
  { s with launches := s.launches ++ [(8,
    { owner := 0, seq := 9, lr := { launchRecOf (launchBytes prio 0 0 0 0) with round := round }, depth := 0, parent := none, cmd := none
      charged := false, next := 0, heldTeams := [], late := [], started := false, parked := [], placed := 0, status := 0, cause := 0
      round := round, snapshot := [], pages := [], resources := [], taskCounter := 0, fresh := true, ringing := [], dirty := [], span := none
      joining := .toDo, complete := false })] }

def noTeam : Team :=
  { owner := 0, launch := none, index := 0, group := 0, core := 0, task := false, priority := 0, waves := [], drover := none, slot := 0, windowBase := 0, windowUnits := 2,
    barCount := 16, bars := [], tiles := [], spareUnits := 0, spareTiles := [], hurdle := false, queues := [], preempt := none, version := 0, arg := 0, others := [] }

/-- Every core of the owner's set is full. -/
def crowded : State := State.onOwner { base with teams := base.teams ++ [11, 12, 13].map fun n => (n, { (base.team? 2).getD noTeam with index := n, waves := [], windowBase := 8192 * n }) }
  fun o => { o with placement := [0] }

/-- The team's pre-emption has taken effect. -/
def preempted (s : State) : State := State.onTeam s fun t => { t with preempt := some { byPolicy := true, waiting := none, back := true, effective := true, drained := true, charged := 0 } }

/-- Launch 8 has its first team to place, nothing holds it back, and core `c` has room for it. -/
def places (s : State) (c : Nat) : Bool := (s.launch? 8).any fun l => (s.owner? 0).any fun o => match s.nextUnit l with
  | some (i, .fresh is) => i == 0 && is == [0] && !(s.heldBack 8 l) && !l.started && s.coresOk 8 l o (.fresh is) [c]
  | _ => false

theorem witness_TeamsPlacedAndSaved : [0, 1].all (fun c => [false, true].all fun r => places (waitingLaunch base 0 r) c) = true ∧
    ((waitingLaunch crowded 6 false).launch? 8).any (fun l => ((waitingLaunch crowded 6 false).victim 8 l).isSome) = true ∧
    gives { preempted (State.onSplit base fun p => { p with clause := [], word := 0 }) with cur := none } (.preemptionTrap 3)
      (fun u => (u.wave? 3).any fun w => w.trapCtx.any fun (c : TrapCtx) => c.cause == 0x40) = true ∧
    gives { preempted base with cur := none } (.forcedSave 2) (fun u => u.saved.length == 1) = true ∧
    (({ preempted base with cur := none } : State).team? 2).any (fun t => ({ preempted base with cur := none } : State).partsLost 2 t == []) = true ∧
    [0, 0x13000].all (fun j => gives { State.onLaunch (carded 0 2) (fun l => { l with next := 1, lr := { l.lr with join := j } }) with teams := [], waves := [], cur := none }
      (.launchCompletion 1) fun u => (u.launch? 1).isNone && (u.owner? 0).any fun o => leAt (o.bytes 0 u.now 0x13000 64) 0 4 == if j = 0 then 2 else 1) = true := by decide +kernel

/-- Launch 1 in a round, whose wave has ended its round with some actions. -/
def belled (l : List Act) : State :=
  State.onWave (State.onLaunch (State.onSplit { base with cur := none } fun p => { p with clause := [], word := 0 }) fun x => { x with round := true, started := true, next := 1 })
    fun w => { w with roundEnded := true, buffer := l }

/-- Two lanes of one instruction have stored. -/
def laneStores : List LaneStore := [(0, 0x10000), (1, 0x10004)].map fun x =>
  { access := { lane := x.1, cause := 0, address := BitVec.ofNat 64 x.2, size := 4, kind := 1, space := 0 }, place := .global 0 x.2, data := leBytes 4 (x.1 + 5) }

/-- A second wave of the team, which has exited. -/
def withExited (s : State) : State :=
  { s with waves := s.waves ++ s.waves.map fun x => (4, { x.2 with index := 1, life := .exited, splits := [], buffer := [] })
           teams := s.teams.map fun x => (x.1, { x.2 with waves := [3, 4] }) }

/-- Launch 1's bell is due, or not, and meets no page wait, unit to place, record or commit. -/
def rings (s : State) (due : Bool) : Bool :=
  (s.launch? 1).any (fun x => s.bellDue 1 x == due && (s.nextUnit x).isNone && x.ringing.isEmpty) &&
  (s.owner? 0).any (fun o => (roundRecords 1 o).isEmpty && o.commits.isEmpty) && (s.teamsOfLaunch 1).all fun x => s.teamRuns x.2 && x.2.preempt.isNone

theorem witness_BellPerformsStores_agents : rings (withExited (belled [])) true = true ∧
    ((withExited (belled [])).agentsOf 1).map (·.1) = [3, 4] ∧
    gives (withExited (belled [])) (.bell 1) (fun u => (u.wave? 3).any (fun w => w.round == 1) && (u.wave? 4).any fun w => w.life == .exited) = true ∧
    rings (State.onWave (belled []) fun w => { w with roundEnded := false }) false = true := by decide +kernel

theorem witness_BellPerformsStores : [[], [Act.store (.global 0 0x1FFFF) [7]], [Act.store (.global 0 0x10000) (leBytes 16 1)],
      [Act.stores 0 ((env base (.nop h)).trap 0x10) laneStores]].all (fun l =>
      rings (belled l) true &&
      (belled l).agentsOf 1 == (belled l).waves && (belled l).waves.length == 1 && gives (belled l) (.bell 1) fun u => (u.wave? 3).any fun w => w.round == 1) = true := by decide +kernel

/-- Launch 1's round is over, and its wave alone acts in it. -/
def quiet (v : State) : Bool := (v.launch? 1).any (fun l => (v.nextUnit l).isNone) && (v.agentsOf 1).map (·.1) == [3] &&
  (v.owner? 0).any (fun o => ((v.launch? 1).any fun l => (roundRecords 1 o).head?.all fun r => (v.taskCore l o r.2).isNone) && o.commits.isEmpty) && ((v.teamsOfLaunch 1).all fun x => v.teamRuns x.2 && x.2.preempt.isNone) &&
  ((v.wave? 3).any fun w => w.life == .running && w.buffer.isEmpty) && v.waves.all fun x => x.2.splits.all fun p => !p.2.claims

/-- The wave's round ended at a word that is left to the bell. -/
def leftAt (s : State) (i : Instr) : State :=
  let s := State.at' (rounds s) i
  let e := env s i
  State.onLaunch { State.onWave (State.onSplit s fun p => { p with retry := some (Retry.left e.exec 0 e.pops e.exec) })
    (fun w => { w with roundEnded := true, bellSplit := some 0 }) with cur := none } fun x => { x with started := true, next := 1 }

/-- The bell performs the word, and `f` holds after it. -/
def bellWord (s : State) (i : Instr) (f : State → Bool) : Bool :=
  rings s true && ((s.wave? 3).any fun w => (Tab.find w.splits 0).any fun p => decodeWord p.current p.literals matches .ok _) &&
  (match exec i { (s.updSplit 3 0 fun q => { q with waiting := .none }) with cur := some (3, 0), atBell := true } with
    | .next v => quiet v
    | _ => false) && gives s (.bell 1) f

def sweeping : Engine := { wave := 3, team := 2, token := some 1, channel := none, op := .hrun 0 4 0x1000 0, pageWait := none }

theorem witness_BellPerformsStores_words : [Instr.fenceR h, .atom h .addU32 .device (.v 4) (.s 7) (.v 6) .zero, .postInstruction h .own (.p 1) (.s 4) .zero].all (fun i =>
      bellWord (leftAt (State.onOwner (carded 1 0) fun o => { o with placement := [] }) i) i fun u => (u.wave? 3).any fun w => w.round == 1 && !w.roundEnded && w.bellSplit.isNone) = true ∧
    bellWord (leftAt (pooled (carded 0 0) 65536) (.jinit h (.s 7) (.s 6) (.s 4))) (.jinit h (.s 7) (.s 6) (.s 4))
      (fun u => (u.wave? 3).any fun w => w.round == 1 && w.roundEnded && w.bellSplit == some 0) = true := by decide +kernel

theorem witness_BellPerformsStores_acts : [[Act.hcfg 5], [Act.cells 0 [1]], [Act.bari 3 true 4 0 (env base (.nop h)).late]].all (fun l => rings (belled l) true &&
      gives (belled l) (.bell 1) fun u => (u.wave? 3).any fun w => w.round == 1 && w.buffer.isEmpty) = true ∧
    [Act.bari 3 true 5 0 (env base (.nop h)).late, .barx 4 1 (env base (.nop h)).late, .barx 3 3 (env base (.nop h)).late, .bara none 4 16 (env base (.nop h)).late].all (fun a =>
      gives (State.onTeam (belled [a]) fun t => { t with bars := [(3, { Barrier.fresh with init := true, waveUnits := true, ea := 2, eb := 0, arrivals := 1 })] }) (.bell 1)
        fun u => (u.wave? 3).any fun w => w.redo.isSome && w.trapCtx.any fun (c : TrapCtx) => c.cause == 0x02) = true ∧
    [Act.barx 3 1 (env base (.nop h)).late, .bara none 3 16 (env base (.nop h)).late].all (fun a =>
      gives (State.onTeam (belled [a]) fun t => { t with bars := [(3, { Barrier.fresh with init := true, waveUnits := true, ea := 2, eb := 16 })] }) (.bell 1)
        fun u => (u.team? 2).any fun t => t.bars.any fun b => b.2.ea == 1 || b.2.bytes == 16) = true ∧
    (match exec (.hrunCompletion (belled []).nextId) { (belled []).updCore 0 (fun c => { c with config := some 0 }) with
        engines := [((belled []).nextId, sweeping)], nextId := (belled []).nextId + 1, atBell := true } with
      | .next v => quiet v && (v.engine? (belled []).nextId).isNone
      | _ => false) = true ∧
    gives ((belled [.engine sweeping]).updCore 0 fun c => { c with config := some 0 }) (.bell 1) (fun u => u.engines.isEmpty && (u.wave? 3).any fun w => w.round == 1) = true := by decide +kernel

/-- A record of a core's queue. -/
def task (pos : Nat) (prio : Nat) : QueueRec :=
  { pos := pos, len := 40, type := 2, committed := true, held := false, released := false, ptag := 2 ^ 15, index := 0, launch := none, version := 1, parked := none
    passed := 0, card := { control := BitVec.ofNat 64 (prio * 2 ^ 56 + 0x20000), arg := 5, join := 0, depth := 0, ownerTag := 0 } }

/-- Owner 0 has such records in one queue, and no core holds any. -/
def queued (k : Nat) (recs : List QueueRec) : State :=
  State.onOwner { base with cur := none } fun o => { o with pool := 2, queues := o.queues.map fun x => if x.1 = k then (k, { ctl := { queue.ctl with reserve := 96, commit := 96 }, recs := recs }) else x }

/-- Records that core 0 holds. -/
def heldBy0 (k : Nat) : State :=
  (queued k [{ task 0 1 with held := true, type := 3 }, { task 48 2 with held := true, type := 3 }]).updCore 0 fun c => { c with hold := some (0, k, 0) }

def claimed (tiles : Bool) (n : Nat) : Retry :=
  { lanes := 1, skip := false, counted := false, carry := BitVec.ofNat 64 (3 + (if tiles then 4 else 0) + 8 * n), repop := false, pops := [], replies := [], execMask := 1, owed := none }

/-- The wave waits with a CLAIM of so many units, or tiles, in split 0. -/
def claiming (tiles : Bool) (n : Nat) (spare : Nat) (l : List Nat) : State :=
  (State.onTeam (State.onSplit { base with cur := none } fun p => { p with waiting := .claim, retry := some (claimed tiles n) }) fun t =>
    { t with spareUnits := spare, spareTiles := l }).updCore 0 fun c => { c with claims := [3] }

theorem witness_QueuesGatherAndGrant : [(0, Instr.gather 0 0), (512, .steal 0 0), (1, .steal 0 0)].all (fun x => (queued x.1 [task 0 1, task 48 2]).canGather 0 0 &&
      gives (queued x.1 [task 0 1, task 48 2]) x.2 fun u => (u.core 0).hold == some (0, x.1, 48)) = true ∧
    [0, 512].all (fun k => (heldBy0 k).canGather 0 0 && ((heldBy0 k).owner? 0).any fun o => (Tab.find o.queues k).any fun q => (q.heldBy 0).length == 2) = true ∧
    gives ((heldBy0 0).updCore 0 fun c => { c with off := true }) (.holdRevert 0 0) (fun u => (u.owner? 0).any fun o => (Tab.find o.queues 0).any fun q => q.recs.all fun r => r.type == 2) = true ∧
    gives (State.onOwner base fun o => { o with commits := [{ queue := 512, card := (task 0 0).card, launch := none, ptag := 0, version := 1, parked := none, cmd := none, wave := none }] })
      (.queueCommitRoom 0 512) (fun u => (u.owner? 0).any fun o => o.commits.isEmpty) = true ∧
    ((claiming false 24 0 []).youngestClaimant 0, (claiming false 24 0 []).deadlocked 0) = (some (3, 0), true) ∧
    gives (claiming false 24 0 []) (.deadlockBreak 0) (fun u => (u.core 0).claims.isEmpty) = true ∧
    gives (claiming false 24 24 []) (.claimGrant 0) (fun u => (u.wave? 3).any fun w => w.units == 32) = true ∧
    [(false, 31), (true, 65)].all (fun x => ((claiming x.1 x.2 0 []).wave? 3).any (fun w => w.waitingClaim == some (0, x.1, x.2)) &&
      gives (claiming x.1 x.2 0 []) (.claimGrant 0) fun u => (u.core 0).claims.isEmpty && (u.wave? 3).any fun w => w.units == 8) = true ∧
    gives (claiming true 2 0 [4, 5]) (.claimGrant 0) (fun u => (u.team? 2).any fun t => t.tiles == [4, 5]) = true := by decide +kernel

/-- Words at 0x10000: a header of a clause and what follows it; the wave's split is at the header. -/
def fetching (ws : List Nat) : State :=
  { State.onSplit (State.bytes base 0x10000 (ws.flatMap (leBytes 8))) (fun p => { p with pc := 0x10000, clause := [], word := 0 }) with cur := none }

/-- The wave's split waits for something. -/
def idles (x : Wait) : State := State.onSplit { base with cur := none } fun p => { p with waiting := x, clause := [], word := 0 }

theorem witness_SplitsFetchAndWaitsEnd : gives (fetching [0xD010000000000000, 0x72B8000000000000]) (.clauseFetch 3 0) (fun u => u.cur == some (3, 0)) = true ∧
    ((fetching []).wave? 3).any (fun w => (Tab.find w.splits 0).any fun p => (fetching []).fetches w 0 p) = true ∧
    gives (State.onOwner (fetching [0xD010000000000000, 0x72B8000000000000]) fun o =>
        { o with pages := [{ page 0x10000 with frame := none, remote := some 1 }, page 0x20000], peers := [(0, 0), (1, 0)] }) (.clauseFetch 3 0)
      (fun u => u.tx == [.remote 0 1 0x10000 .fetch] && (u.wave? 3).any fun w => (Tab.find w.splits 0).any fun p => p.waiting == .remote) = true ∧
    [fetching [0x0010000000000000, 0], fetching [0xD010000000000000, 0xC000000000000000]].all (fun s => gives s (.clauseFetch 3 0) fun u =>
      (u.wave? 3).any fun w => w.trapCtx.any fun (c : TrapCtx) => c.cause == 0x01) = true ∧
    gives (State.onSplit (fetching []) fun p => { p with pc := 2 ^ 56 }) (.clauseFetch 3 0) (fun u => (u.wave? 3).any fun w => w.trapCtx.any fun (c : TrapCtx) => c.cause == 0x13) = true ∧
    [1, 2].map (fun t => gives (State.onWave (fetching [0xD010100000000000, 0x72B8000000000000]) fun w => { w with busy := t }) (.clauseFetch 3 0) fun u => (u.wave? 3).any fun w =>
      (Tab.find w.splits 0).any fun p => p.waiting == .tokens 1) = [true, false] ∧
    gives (State.onWave base fun w => { w with missed := 1024 }) (.issueGuarantee 3) (fun u => u.sched.length == 1) = true ∧
    [0, 1, 2, 64].map (fun n => gives (State.onWave base fun w => { w with sleep := n }) (.sleepExpiry 3) fun u => (u.wave? 3).any fun w => w.sleep == 0) = [true, true, false, false] ∧
    [(Instr.rqresWaitRetry 3, Wait.ringSpace), (.rqtakeWaitRetry 3, .ringTake), (.jinitPoolWait 3, .poolMax)].all (fun x => gives (idles x.2) x.1 fun u =>
      (u.wave? 3).any fun w => (Tab.find w.splits 0).any fun p => p.waiting == .none) = true := by decide +kernel

theorem witness_DebugAgentReadsAndHolds : gives base (.ivgilBreak 0 0x10000) (fun u => u.ivgil.breaks == [(0, 0x10000)]) = true ∧
    gives { fetching [0xD010000000000000, 0x72B8000000000000] with ivgil := { base.ivgil with breaks := [(0, 0x10000)] } } (.clauseFetch 3 0)
      (fun u => (u.wave? 3).any fun w => w.stopped == .breakpoint 0) = true ∧
    [Instr.ivgilRun 0, .ivgilStep 3].all (fun i => gives (State.onWave base fun w => { w with stopped := .breakpoint 0 }) i fun u => (u.wave? 3).any fun w => w.stopped != .breakpoint 0) = true ∧
    gives (State.onWave base fun w => { w with stopped := .held }) (.ivgilStep 3) (fun u => u.sched.length == 1 && (u.wave? 3).any fun w => w.stopped == .stepping none) = true ∧
    [Wait.none, .remote].map (fun x =>
      let s := State.onWave (State.onSplit base fun p => { p with clause := clauseOf 0x01B8000000000000 [], waiting := x }) fun w => { w with stopped := .stepping none }
      (((s.wave? 3).bind fun w => Tab.find w.splits 0).map fun p => ((s.stepped 3 0 p).wave? 3).map (·.stopped))) =
      [some (some .held), some (some (.waits 0 (((base.wave? 3).bind fun w => Tab.find w.splits 0).elim 0 (·.pc)) 0))] ∧
    [Instr.ivgilPrint (.scratch 2 0x1000 3 64 1 3 1), .ivgilPrint (.predicate 3 7), .ivgilTrap 3].map (fun i => match exec i base with
      | .next u => u.ivgil.report.length
      | _ => 0) = [15, 1, 80] ∧
    [Instr.ivgilPrint (.vector 3 63), .ivgilPrint (.scalar 3 0), .ivgilPrint (.memory 0 0x10040 8), .ivgilLanes 3, .ivgilChain 3 3, .ivgilTokens 3, .ivgilBarrier 2 15,
      .ivgilPrintPool 0].all (fun i => gives hbm i fun u => !u.ivgil.report.isEmpty) = true ∧
    gives base (.ivgilCatch 0 0x18) (fun u => u.ivgil.catching == [(0, 0x18)]) = true ∧
    ((base.wave? 3).isSome && (base.team? 2).isSome && (base.owner? 0).isSome) = true := by decide +kernel

end Sys2Proof.Machine.Tests
end

