-- ==== Sys2Proof/Tests/Keys.lean ====
section
/-!
SUPPORT. Tests: a CTX_OPEN whose keys unwrap. The device's identity key is 1, the host's ephemeral key the base point, the serial 0; the
wrapped keys were made outside the model, by RFC 5869 and RFC 3394.
-/
namespace Sys2Proof.Machine.Tests

set_option Elab.async false

/-- The body of a CTX_OPEN: an id, one pool entry, one core, 64 frames, and wrapped keys. -/
def keyedBody (id memory domain : Nat) : List Byte :=
  (openBody id 1 1 64).take 72 ++ pointBytes baseG ++ beBytes 72 memory ++ beBytes 40 domain ++ leBytes 8 0

def bootMessage : List Byte := message 0x01 1 (keyedBody 0
  0x1a6bd7350d0841f1cd6da09044e6b3deb5e857c5fee84659efc97b92cd8ea47bc75135aec06e980ba85d90c8be2dba8a3c9fe7149256966282590500d532c90bdfc03ee9d51e0e8a
  0x53eee88ea7e7e6ca2c6a64e0d0dfe7b91d1ad96f99bc9dcc1fd256cbb479eecbfc51a7e0150a1e5)

def laterMessage : List Byte := message 0x01 1 (keyedBody 1023
  0xf83f5c05ff3b4901db607f9535c9b812902689e2ea97a310db9799ba951045ed67c9dd64f603a37dc3d57270be6476f0332af4b8991efc49b7f882c1c0428267c70a0cea8578671a
  0x6ba7210053957b4d50dc599891b7f11e76393277d2926f53e83f2ffa03c82f559bbc27fea577bdaf)

/-- The module with its identity key. -/
def identified (s : State) : State := { s with identity := [{ secret := 1, point := pointBytes baseG }], serial := 0 }

/-- The keys that were wrapped. -/
def wrapped : OwnerKeys := { memoryKey := 1, domainKey := 1 }

def bootKek : List Byte := beBytes 32 0xfd8b609d733434c787a73d717d74eb6f9872c5ba43e4d0cbce9359efe89d58d3
def laterKek : List Byte := beBytes 32 0x3067702727b1bfcef86914e73cbf670aad8fd5fadc5bb31291002d246c587243

theorem boot_kek : wrapKey 1 0 bootMessage = bootKek := by decide +kernel
theorem later_kek : wrapKey 1 0 laterMessage = laterKek := by decide +kernel
theorem boot_memory : keyUnwrap bootKek (slice bootMessage 152 72) = some (beBytes 64 1) := by decide +kernel
theorem boot_domain : keyUnwrap bootKek (slice bootMessage 224 40) = some (beBytes 32 1) := by decide +kernel
theorem later_memory : keyUnwrap laterKek (slice laterMessage 152 72) = some (beBytes 64 1) := by decide +kernel
theorem later_domain : keyUnwrap laterKek (slice laterMessage 224 40) = some (beBytes 32 1) := by decide +kernel

theorem boot_keys (s : State) : (identified s).ownerKeys bootMessage = some wrapped := by
  have hc : onCurve (slice bootMessage 88 64) = true := by decide +kernel
  have hw : (BitVec.ofNat 512 (ofBe (beBytes 64 1)), BitVec.ofNat 256 (ofBe (beBytes 32 1))) = (1, 1) := by decide +kernel
  simp only [State.ownerKeys, identified, List.head?_cons, boot_kek, boot_memory, boot_domain, hc]
  simp only [Prod.mk.injEq] at hw
  simp [hw.1, hw.2, wrapped]

theorem later_keys (s : State) : (identified s).ownerKeys laterMessage = some wrapped := by
  have hc : onCurve (slice laterMessage 88 64) = true := by decide +kernel
  have hw : (BitVec.ofNat 512 (ofBe (beBytes 64 1)), BitVec.ofNat 256 (ofBe (beBytes 32 1))) = (1, 1) := by decide +kernel
  simp only [State.ownerKeys, identified, List.head?_cons, later_kek, later_memory, later_domain, hc]
  simp only [Prod.mk.injEq] at hw
  simp [hw.1, hw.2, wrapped]

/-- A start of recovery to which the bootstrap endpoint has sent its CTX_OPEN, and owner 0 of a recovery with a CTX_OPEN. -/
def bootRx : RxMessage := { port := 0, owner := bootEndpoint, flow := .roce, bytes := bootMessage, held := false }
def recovering : State := identified { base with phase := .recovery, owners := [], rx := [bootRx] }
def laterOpen : State := identified { owning { Cmd.ofMessage (rx laterMessage false) with phase := .dispatched } base with phase := .recovery }

theorem recovery_opens (s : State) (h : s.phase = .recovery) (b : List Byte) (boot : Bool) (ks : OwnerKeys) (hk : s.ownerKeys b = some ks)
    (hf : openFieldsOk b true = true) (hi : (s.openId (leAt b 16 4) boot).1 = 0) (st : Nat) : s.openOwner b boot ≠ .refused st := by
  simp [State.openOwner, h, hf, hi, hk]

theorem boot_message_opens : recovering.bootWaiting 0x01 = some bootRx ∧ recovering.phase = .recovery ∧ recovering.owner? 0 = none ∧
    bootStatus (Cmd.ofMessage bootRx) = none ∧ openFieldsOk bootMessage true = true ∧ (recovering.openId (leAt bootMessage 16 4) true).1 = 0 := by
  decide +kernel

theorem witness_OwnersOpenAndClose_boot (st : Nat) : recovering.openOwner bootRx.bytes true ≠ .refused st :=
  recovery_opens _ boot_message_opens.2.1 _ _ _ (boot_keys _) boot_message_opens.2.2.2.2.1 boot_message_opens.2.2.2.2.2 st

theorem later_message_opens : ((laterOpen.cmd? 0 5).any fun c => c.code == 0x01 && c.phase == .dispatched && c.bytes == laterMessage) = true ∧
    laterOpen.phase = .recovery ∧ (laterOpen.identityWay 0).isSome = true ∧ openFieldsOk laterMessage true = true ∧
    (laterOpen.openId (leAt laterMessage 16 4) false).1 = 0 := by
  decide +kernel

theorem witness_OwnersOpenAndClose_later (st : Nat) : laterOpen.openOwner laterMessage false ≠ .refused st :=
  recovery_opens _ later_message_opens.2.1 _ _ _ (later_keys _) later_message_opens.2.2.2.1 later_message_opens.2.2.2.2 st

end Sys2Proof.Machine.Tests
end

