-- ==== Sys2Proof/Tests/Slice0.lean ====
section
/-!
SUPPORT. Tests: ill-formed terms, words of the spec, single steps, and for each statement states and operands that meet what it assumes.
-/
namespace Sys2Proof.Machine.Tests

set_option Elab.async false

/-! ### Words and terms -/

/-- A word of the spec's pages decodes to an instruction. -/
def reads (x : Nat × Instr) : Bool := decodeTableWord 64 x.1 == some x.2

-- Worked encodings of groups 0 and 1.
theorem test_words_integer : ([(0x00B8_0020_0740_0000, .iadd h .s32 (.v 2) (.v 1) (.prev 0)), (0x0338_3490_0B50_0010, .icmp h .s32 .lt (.p 1) (.v 2) .zero),
    (0x0378_0030_1005_D240, .isel h false (.v 3) (.v 4) (.v 5) (.p 1)), (0x02F8_306C_1305_0003, .lea h 3 false (.s 6) (.s 4) (.s 5)),
    (0x0138_0030_0FE3_0000, .imul h .s32 (.v 3) (.v 3) (.imm 0x23)), (0x0048_001D_1000_0000, .mov if1 false false (.v 1) (.q 0))] : List (Nat × Instr)).all reads = true := by decide +kernel

-- Worked encodings of groups 2 to 4.
theorem test_words_float_and_lanes : ([(0x20F8_1020_1E00_D140, .ffma h .f32 .rne (.o 2) (.v 7) .l (.q 1)), (0x2238_34B0_1004_0030, .fcmp h .f32 .un (.p 3) (.v 4) (.v 4)),
    (0x24B8_00CD_000A_0000, .fsmx h (.v 12) (.prev 0) (.v 10)), (0x3078_0080_1000_0030, .cvtfi h .s32 .f32 .rd (.v 8) (.v 4)),
    (0x4048_307D_2800_0002, .voteMask if1 (.s 7) (.p 2)), (0x41B8_000D_4000_0005, .chlink h 1 true .zero)] : List (Nat × Instr)).all reads = true := by decide +kernel

-- Worked encodings of groups 5 to 7.
theorem test_words_flow_and_memory : ([(0x5138_30A0_0000_0140, .call h 5 (.s 10)), (0x5178_000C_2800_0000, .ret h (.s 10)), (0x51B8_0000_0000_0000, .exit h),
    (0x6078_0000_1807_D409, .st h .scratch .b32 (.v 6) (.v 7) .zero), (0x6138_0040_2005_D420, .atom h .addU32 .device (.v 4) (.v 8) (.v 5) .zero),
    (0x6238_0000_0000_0000, .fenceR h), (0x7038_000F_8FE4_D401, .bari h true (.imm 0x23) (.imm 0x24) .zero), (0x72B8_0000_0000_0000, .rend h)] : List (Nat × Instr)).all reads = true := by decide +kernel

-- Worked encodings of groups 8 to 12.
theorem test_words_engines_and_tasks : ([(0x8038_000C_1305_F8C8, .cpin h 1 0 (.s 4) (.s 5) (.imm 0x23)), (0x9038_380C_1305_C18A, .mma h .bf16 true (.acc 0) (.s 4) (.s 5) (.s 6)),
    (0xA0B8_000C_330D_C390, .hrun h 2 (.s 12) (.s 13) (.s 14)), (0xB178_34AF_9000_0001, .claim h true false (.p 2) (.imm 0x24)), (0xB1B8_000F_A000_0002, .give h true (.imm 0x28)),
    (0xB238_0000_0000_0001, .dclose h 1), (0xC038_31EF_F000_0000, .srd h (.s 30) (.imm 0x3C)), (0xC0B8_0000_0000_0002, .rtu h .next)] : List (Nat × Instr)).all reads = true := by decide +kernel

-- A literal operand takes the next word of its clause (R232).
theorem test_word_with_literal : decodeTableWord 128 (0x28 * 2 ^ 64 + 0x71B8_30AC_2F51_F841) = some (.rqres h true (.s 10) (.s 11) (.lit 0x28) (.imm 0x21)) := by decide +kernel

-- The long-latency class gives no lookahead to an instruction that names a queue; others have it (R235).
theorem test_lookahead : (decodeWord (0x0048_001D_1000_0000 + 2 ^ 48) [] matches .ok _) = true ∧
    (decodeWord (0x00B8_0020_0740_0000 + 2 ^ 48) [] matches .error .illegalInstruction) = true := by decide +kernel

-- Each check of a well-formed term refuses a term that breaks it: the lookahead, a modifier, a role, and a part.
theorem test_ill_formed : ((Instr.nop { h with la := 1 }).laOk, (Instr.ldf h .and .f32 (.v 4) .zero (.p 4)).modOk, (Instr.accld h .e4m3 (.acc 0) (.s 4)).modOk) =
    (false, false, false) ∧
    (Instr.iadd h .s32 (.p 1) (.v 0) (.v 1)).rolesOk = false ∧
    (Instr.ivgilBarrier 2 1024).partsOk = false := by decide +kernel

/-! ### The machine as a whole -/

theorem witness_EncodedWordDecodes : ([.iadd h .s32 (.v 2) (.v 1) (.prev 0), .iadd h .u64 (.s 2) (.lit 1) (.lit 2), .rend h, .rtu h .term] : List Instr).all (fun i =>
    i.wellFormed && (encode i).isSome && i.head?.isSome) = true := by decide +kernel

theorem witness_StepRunsDecodedWord : ((State.at' base (.rend h)).inputs.isEmpty && (State.at' base (.rend h)).sched.isEmpty && ((State.at' base (.rend h)).cur == some (3, 0))) = true ∧
    (((State.at' base (.rend h)).wave? 3).any fun w => (Tab.find w.splits 0).any fun p => !p.clause.isEmpty && (State.at' base (.rend h)).ready 3 0 w p &&
      (decodeWord p.current (literalsOf (p.clause.headD 0) p.words p.word) matches .ok (.rend _))) = true ∧
    (match step (State.at' base (.rend h)) with
      | .next t => t.clock == 1
      | _ => false) = true ∧
    (match step { base with inputs := [.powerLimitWithholding true] } with
      | .next t => t.powerWithheld && t.clock == 1
      | _ => false) = true := by decide +kernel

theorem tagged_empty (s : State) (hc : s.cores = []) (c : Nat) : (s.core c).Tagged := by
  have : s.core c = Core.empty := by unfold State.core; rw [hc]; rfl
  rw [this]
  exact ⟨fun _ _ => rfl, fun _ _ => rfl⟩

theorem witness_StepKeepsStorageTagged : State.reset.Tagged ∧ (∃ t, step State.reset = .next t) := ⟨⟨tagged_empty _ rfl, fun _ h => nomatch h⟩, _, rfl⟩

theorem witness_StepKeepsMemoryCanonical : State.reset.memWf ∧ (∃ t, step State.reset = .next t) := ⟨reset_memWf, _, rfl⟩

/-! ### Integer, float, conversion and lane instructions -/

/-- Registers V0 to V3 with values in a few lanes. -/
def filled (s : State) : State := State.onWave s fun w =>
  (List.range 4).foldl (fun w r => (List.range 3).foldl (fun w l => w.writeLane (.v (BitVec.ofNat 8 r)) 1 l (BitVec.ofNat 64 (7 * r + l + 1))) w) w

theorem witness_IntegerArithmeticWraps : [Instr.iadd h .s32 (.v 4) (.v 0) (.v 1), .isub h .u64 (.s 4) (.s 5) (.imm 0), .imul h .s32 (.v 4) (.v 0) (.v 1),
    .imulh h .s64 (.v 4) (.v 0) (.v 2), .imad h .s32 (.v 4) (.prev 0) (.v 1) (.v 2), .iabs h true (.v 4) (.v 0), .ineg h false (.o 1) (.lit 5)].all
    (retires (filled base)) = true := by decide +kernel

theorem witness_IntegerSelectionAndAddressValues : [Instr.imin h .s32 (.v 4) (.v 0) (.v 1), .imax h .u64 (.v 4) (.v 0) (.v 2),
    .iclamp h .s32 (.v 4) (.v 0) (.v 1) (.v 2), .iadds h .s32 (.v 4) (.lit 0x7FFFFFFF) (.v 1), .mov h true false (.v 4) (.v 0),
    .mov h false true (.s 4) (.v 0), .isel h false (.v 4) (.v 0) (.v 1) (.p 7), .lea h 3 false (.s 6) (.s 4) (.s 5),
    .idot4 h true false (.v 4) (.v 0) (.v 1) (.v 2)].all (retires (filled base)) = true := by decide +kernel

theorem witness_BitInstructionsByBit : [Instr.land h false (.v 4) (.v 0) (.v 1), .lor h true (.v 4) (.v 0) (.v 2), .lxor h false (.s 4) (.s 5) (.imm 63),
    .andn h false (.v 4) (.v 0) (.v 1), .lnot h true (.v 4) (.v 0), .brev h false (.v 4) (.v 0), .shl h false (.v 4) (.v 0) (.imm 63),
    .shr h true (.v 4) (.v 0) (.v 1), .sar h false (.v 4) (.v 0) (.v 1), .rol h false (.v 4) (.v 0) (.v 1), .popc h true (.v 4) (.v 0),
    .clz h false (.v 4) (.v 0), .ctz h false (.v 4) (.v 0), .bfx h false true (.v 4) (.v 0) (.lit 0x0804), .bfi h true (.v 4) (.v 0) (.v 2) (.v 1),
    .prmb h false (.v 4) (.v 0) (.v 1) (.v 2)].all (retires (filled base)) = true := by decide +kernel

theorem witness_PredicatesSetPerLane : [Instr.icmp h .s32 .lt (.p 1) (.v 0) (.v 1), .plop h .and .xor true (.p 6) (.p 1) (.p 2) (.p 7),
    .pmov h false (.p 0) (.v 0), .elect h (.p 7), .voteSame h false (.p 1) (.v 0), .voteQuorum h (.p 1) (.p 7) (.lit 32)].all
    (retires (filled base)) = true ∧
    traps (filled base) (.voteQuorum h (.p 1) (.p 7) (.lit 33)) 0x02 = true := by decide +kernel

theorem witness_LanesExchangeValues : [Instr.shfl h .rot false (.v 4) (.v 0) (.imm 33), .shfl h .rev true (.v 4) (.v 0) (.lit 0x705),
    .matchLanes h false (.v 4) (.v 0), .voteCount h (.s 4) (.p 7), .voteMask h (.v 4) (.p 7), .pmov h true (.v 4) (.p 7)].all
    (retires (filled base)) = true := by decide +kernel

theorem witness_FloatInstructionsComplete : [Instr.fadd h .f32 .rne (.v 4) (.v 0) (.v 1), .fsub h .f64 .rz (.v 4) (.v 0) (.v 2),
    .fmul h .f16 .ru (.v 4) (.v 0) (.v 1), .ffma h .bf16 .rd (.v 4) (.v 0) (.v 1) (.v 2), .fscale h .f32 (.v 4) (.v 0) (.v 1),
    .frcp h false (.v 4) (.lit 0x40000000), .frsq h false (.v 4) (.lit 0x40000000), .fsqrt h false (.v 4) (.lit 0x40000000),
    .fexp2 h (.v 4) (.lit 0x40000000), .flog2 h (.v 4) (.lit 0x40000000), .fsinp h (.v 4) (.zero), .fcosp h (.v 4) (.zero),
    .fsmx h (.v 4) (.v 0) (.v 2)].all (retires (filled base)) = true ∧
    [0, 0x00800000, 0x7F7FFFFF, 0x80000000].all (fun x => retires (State.with base [(4, x)]) (.frcpv h false (.v 4) (.lit 0x40000000) (.s 4) (.p 1))) = true := by decide +kernel

theorem witness_FloatInstructionsComplete_values : fp32.finiteCode 0xC2FC0000 ∧ fp32.units 0xC2FC0000 = -126 * fp32.one ∧ fp32.units 0x42FE0000 = 127 * fp32.one ∧
    fp32.units 0x43000000 = 128 * fp32.one ∧ 2 * fp32.units 0x3F000000 = (2 * 0 + 1) * fp32.one ∧ fp32.nanCode 0x7F800001 ∧ fp32.snanCode 0xFF800001 ∧
    ¬ fp32.nanCode 0x7F800000 ∧ fp64.nanCode (2 ^ 63 - 1) := by
  unfold Fmt.snanCode Fmt.nanCode Fmt.finiteCode Fmt.topExp
  decide +kernel

theorem witness_ArithmeticRoundsOnce_special : fp16.topExp 0x7C00 ∧ ¬ fp16.nanCode 0x7C00 ∧ fp16.nanCode 0x7C01 ∧ bf16.nanCode 0xFFFF ∧ ¬ fp32.topExp 0x80000000 ∧
    fp32.units 0x80000000 = 0 := by
  unfold Fmt.nanCode Fmt.topExp
  decide +kernel

theorem witness_ArithmeticRoundsOnce : fp32.finiteCode 0x7F7FFFFF ∧ fp32.finiteCode 0x80000001 ∧ fp16.finiteCode 0x7BFF ∧ bf16.finiteCode 0 ∧
    fp64.finiteCode (2 ^ 63) := by
  unfold Fmt.finiteCode Fmt.topExp
  decide +kernel

theorem witness_FloatSelectionAndClasses : [Instr.fmin h .f32 (.v 4) (.v 0) (.v 1), .fmax h .f64 (.v 4) (.v 0) (.v 2), .fabs h .f16 (.v 4) (.v 0),
    .fneg h .bf16 (.v 4) (.v 0), .fclass h .f32 (.v 4) (.v 0), .fcmp h .f32 .un (.p 1) (.v 0) (.lit 0x7FC00000)].all
    (retires (filled base)) = true := by decide +kernel

theorem witness_ConversionsRoundAndPack : [Instr.cvtfi h .s32 .f32 .rd (.v 4) (.v 0), .frnd h .f32 .rne (.v 4) (.v 0), .cvtif h .u64 .f64 .rz (.v 4) (.v 0),
    .cvtff h .f16 .f32 .ru (.v 4) (.v 0), .packq h true (.v 4) (.v 0) (.v 1) (.v 2), .unpkq h false (.v 4) (.v 0) (.v 1),
    .bpext h (.v 4) (.v 0) (.imm 39), .bpins h (.v 4) (.v 0) (.v 1) (.imm 40)].all (retires (filled base)) = true := by decide +kernel

/-! ### Chains and control flow -/

/-- Wave 3 in slot 1: with a queue of values, linked to itself. -/
def ring (n : Nat) : State := State.onWave base fun w => { w with chains := [(1, { w.chain 1 with link := some 0, queue := List.replicate n 5 })] }

theorem witness_ChainInstructionsSetSlots : [Instr.chseed h 1 (.s 8), .chlink h 1 false (.imm 31), .chlink h 1 false (.imm 32), .chlink h 1 true .zero,
    .chout h 1 (.s 4)].all (retires base) = true ∧
    [30, 40].all (fun x => traps base (.chlink h 1 false (.imm x)) 0x02) = true ∧
    traps (ring 3) (.chlink h 1 true .zero) 0x02 = true ∧
    retires (ring 3) (.chseed h 1 (.s 8)) = true ∧ waits (ring 4) (.chseed h 1 (.s 8)) (.seedFull 1) = true := by decide +kernel

/-- A machine whose predicate P1 holds in lane 0 alone, or nowhere. -/
def some1 (s : State) : State := State.onWave s fun w => { w with p := [(1, 1)] }

def drover (s : State) : State := State.onWave s fun w => { w with drover := true }

theorem witness_BranchesTransfer : goes (State.coded base) (.bra h 5) 0x10028 = true ∧
    retires (State.coded base) (.bra if1 5) = true ∧
    traps (State.coded (some1 base)) (.bra if1 5) 0x05 = true ∧
    goes (State.with (State.coded base) [(4, 0x10028)]) (.brx h (.s 4)) 0x10028 = true ∧
    goes (State.coded base) (.call h 5 (.s 10)) 0x10028 = true ∧
    goes (State.coded (drover base)) (.call h 5 .zero) 0x10028 = true ∧
    goes (State.with (State.coded base) [(4, 0x10028)]) (.ret h (.s 4)) 0x10028 = true ∧
    goes (State.onWave (State.coded (drover base)) fun w => { w with rstack := [0x10028] }) (.ret h .zero) 0x10028 = true ∧
    retires (State.coded base) (.dbnz if1 5 (.s 4)) = true ∧
    retires (State.with (State.coded base) [(4, 1)]) (.dbnz h 5 (.s 4)) = true ∧
    goes (State.coded base) (.dbnz h 5 (.s 4)) 0x10028 = true := by decide +kernel

theorem witness_TrapsRaised : [0x10030, 0x1002C, 2 ^ 56].all (fun a => traps (State.with (State.coded (base.putBytes none 0 0x10030 (leBytes 8 1))) [(4, a)])
      (.brx h (.s 4)) 0x04) = true ∧
    traps base (.trap h (.imm 33)) 0x30 = true ∧
    traps base (.bkpt h) 0x31 = true ∧
    retiresAt (State.onSplit (State.at' base (.bkpt h)) fun p => { p with skipBreak := true }) (.bkpt h) = true := by decide +kernel

/-- The wave's splits 1 to 3 are in use. -/
def allSplits (s : State) : State := State.onWave s fun w => { w with splits := w.splits ++ [(1, Split.start 0 0), (2, Split.start 0 0), (3, Split.start 0 0)] }

def entry (returned : Bool) : StackEntry := { join := 0x10000, mask := 2, fall := 0x10040, returned := returned }

/-- Split 1 of the wave issues, below it split 0 with a context. -/
def second (s : State) (i : Instr) (f : Split → Split) : State :=
  { State.onWave (State.at' s i) (fun w => { w with splits := w.splits.flatMap fun x =>
      [(0, { Split.start 0 2 with context := [0x10000] }), (1, f { x.2 with context := [0x10000], mask := 1 })] }) with cur := some (3, 1) }

theorem witness_DivergentLanesReconverge : retires (State.coded base) (.brd if1 5 (.lit 10)) = true ∧
    goes (State.coded base) (.brd h 5 (.lit 10)) 0x10028 = true ∧
    goes (State.coded (some1 base)) (.brd if1 5 (.lit 10)) 0x10018 = true ∧
    goes (State.coded (allSplits (some1 base))) (.brd if1 5 (.lit 10)) 0x10028 = true ∧
    goes (State.onSplit (State.coded base) fun p => { p with mask := 1, stack := [entry false] }) (.join h) 0x10040 = true ∧
    goes (State.onSplit (State.coded base) fun p => { p with mask := 1, stack := [entry true] }) (.join h) 0x10010 = true ∧
    retires (State.coded base) (.join h) = true ∧
    goes (State.onWave (State.onSplit (State.coded base) fun p => { p with mask := 1, context := [0x10000] }) fun w =>
      { w with splits := w.splits ++ [(1, { Split.start 0 2 with context := [0x10000] })] }) (.join h) 0x10000 = true ∧
    retires (State.onWave (State.onSplit (State.coded base) fun p => { p with mask := 1, context := [0x10000] }) fun w =>
      { w with splits := w.splits ++ [(1, { Split.start 0 2 with context := [0x10000], arrived := some 0x10000 })] }) (.join h) = true ∧
    meets (State.at' (State.onWave (State.coded (some1 base)) fun w => { w with splits := w.splits ++ [(1, { Split.start 0 2 with arrived := some 0x10000 })] })
      (.brd if1 5 (.lit 10))) (.brd if1 5 (.lit 10)) = true ∧
    meets (State.at' (State.onSplit (State.coded (allSplits (some1 base))) fun p => { p with stack := List.replicate 16 (entry false) }) (.brd if1 5 (.lit 10)))
      (.brd if1 5 (.lit 10)) = true ∧
    trapsAt (second (State.coded base) (.join h) fun p => { p with stack := [{ entry false with join := 0x10008 }] }) (.join h) 0x04 = true := by decide +kernel

theorem witness_LanesExitAndWait : goes (some1 base) (.exit if1) 16 = true ∧
    meets (State.at' base (.exit h)) (.exit h) = true ∧
    base.matrixOut 3 = false ∧
    retires base (.sleep h (.imm 63)) = true ∧
    retires base (.yield h) = true ∧
    retires (State.with base [(4, 255)]) (.waitt h (.s 4)) = true ∧
    waits (State.onWave (State.with base [(4, 0x80)]) fun w => { w with busy := 0x80 }) (.waitt h (.s 4)) (.tokens 0x80) = true ∧
    base.isRound (env base (.waitt h (.s 4))).w = false := by decide +kernel

theorem witness_WordsWithoutEffectRetire : [Instr.nop h, .pref h true (.s 4) (.imm 40), .rend h, .yield if1, .sleep if1 (.s 4), .waitt if1 (.s 4), .trap if1 (.s 4),
      .bkpt if1, .chseed if1 1 (.s 4), .chlink if1 1 true .zero, .fenceR if1, .fenceH if1, .fenceE if1].all (retires base) = true ∧
    retires (State.onWave base fun w => { w with hmode := .system }) (.tlbinv h (.s 4) (.s 5)) = true := by decide +kernel

/-! ### Traps and accesses -/

theorem witness_TrapEntersUserHandler : ((base.wave? 3).any fun w => !w.drover && w.trapCtx.isNone && w.hmode == .none && w.utvec != 0 && !(base.isRound w) &&
      (base.owner? w.owner).any fun o => o.recordFault (base.trecOf w).toNat == none && !(base.cutOff (base.dieOf w) o (base.trecOf w).toNat 640) &&
        (List.range 40).all fun i => o.remoteAt ((base.trecOf w).toNat + 16 * i) == none) = true ∧
    ((env base (.nop h)).trap 0x10).counted = false ∧
    base.atBell = false ∧
    base.ivgil.breaks = [] := by decide +kernel

/-- Addresses for accesses: S4 the last 16 bytes of a page, S5 the last byte of the window, S6 a byte of it. -/
def aimed : State := State.with base [(4, 0x1FFF0), (5, 0x1FFF), (6, 0x40), (7, 0x77)]

/-- The same with bytes written there. -/
def written : State := State.window (State.bytes aimed 0x1FFF0 (leBytes 16 0)) 0x40 (leBytes 16 0)

theorem witness_LoadsReadBytes : [(Instr.ld h .global .b128 false (.v 4) (.s 4) .zero, Space.global, Size.b128, Operand.s 4),
      (.ld h .scratch .b8 true (.v 4) (.s 5) .zero, .scratch, .b8, .s 5), (.ld h .peer .b64 false (.v 4) (.s 6) .zero, .peer, .b64, .s 6)].all
      (fun x => retires aimed x.1 && lands (State.at' aimed x.1) (env (State.at' aimed x.1) x.1) x.2.1 x.2.2.1.bytes .load true (List.range 32)
        ((State.at' aimed x.1).laneEa (env (State.at' aimed x.1) x.1) x.2.1 x.2.2.2 .zero)) = true ∧
    retires aimed (.ldu if1 .global .b16 true (.s 8) (.s 4) .zero) = true ∧
    retires aimed (.ldu h .scratch .b64 false (.s 8) (.s 6) (.imm 40)) = true := by decide +kernel

theorem witness_StoresWriteBytesThatReadBack : [Instr.st h .global .b128 (.s 4) (.v 4) .zero, .st h .scratch .b8 (.s 5) (.v 4) .zero, .stp h .b64 (.s 4) (.v 4) .zero,
      .stu h .scratch .b32 (.s 6) (.s 7) .zero].all (retires aimed) = true ∧
    [Instr.st h .global .b128 (.s 4) (.v 4) .zero, .stu h .scratch .b32 (.s 6) (.s 7) .zero].all (retires (rounds aimed)) = true ∧
    aimed.isRound (env aimed (.nop h)).w = false ∧
    (rounds aimed).isRound (env aimed (.nop h)).w = true ∧
    retires (State.onWave (rounds aimed) fun w => { w with laneStores := 4064 }) (.st h .global .b128 (.s 4) (.v 4) .zero) = true ∧
    (((List.range 16).map fun i => aimed.byteOf (env aimed (.nop h)).w (.global 0x1FFF0) i).all (·.isSome)) = true ∧
    decide ((List.range 16).map fun i => aimed.byteOf (env aimed (.nop h)).w (.global 0x1FFF0) i).Nodup = true := by decide +kernel

theorem witness_AtomicsReadAndWriteOnce : [Instr.atom h .addU32 .device (.v 4) (.s 4) (.v 0) .zero, .atom h .exchB64 .team (.v 4) (.s 6) (.v 0) .zero,
      .red h .incwU32 .team (.s 6) (.v 0) .zero, .red h .faddF64 .system (.s 4) (.v 0) .zero, .atomc h false .device (.v 2) (.s 4) (.v 0) (.v 1),
      .atomc h true .cluster (.v 2) (.s 4) (.v 0) (.v 4)].all (fun i => retires written i && defers written i && performs written i) = true := by decide +kernel

/-- The cause of a check in global memory or in the window; 0 where it passes. -/
def cause (sp : Space) (ea n : Nat) (k : AccKind) : Nat := match base.checkAccess (env base (.nop h)).w sp ea n k with
  | .ok _ => 0
  | .fault c => c

theorem witness_AccessesCheckedInOrder : (base.owner? 0).isSome = true ∧
    [(2 ^ 56, 0x13), (2 ^ 56 - 1, 0x10), (2 ^ 56 - 8, 0x18), (0x20000, 0), (0x1FFF8, 0), (0x30000, 0x18)].all (fun x => cause .global x.1 8 .store == x.2) = true ∧
    [(1, 0x10), (0x2000, 0x11), (0x1FF8, 0), (0x800, 0x12), (0x7F8, 0), (0xFF8, 0x12), (0x1000, 0)].all (fun x => cause .scratch x.1 8 .store == x.2) = true ∧
    traps (State.with base [(4, 0x1FFFC)]) (.ld h .scratch .b32 false (.v 4) (.s 4) .zero) 0x11 = true := by decide +kernel

/-- Page 0x10000 is remote, of package 1, which the peer table has or has not. -/
def far (known : Bool) : State := State.onOwner aimed fun o =>
  { o with pages := [{ page 0x10000 with frame := none, remote := some 1 }, page 0x20000], peers := if known then [(0, 0), (1, 0)] else [] }

/-- Words that lane 0 alone executes. -/
def lane0 (s : State) : State := State.onWave (some1 s) fun w => { w with trapArea := 0x20000 }

/-- A posted store outstanding, an engine operation outstanding, failed stores. -/
def posted (s : State) : State := { s with remote :=
  [(1, { owner := 0, engine := none, wave := 3, split := 0, lane := 0, posted := true, handler := false, launch := some 1, others := [] })] }
def engine (op : EngineOp) : Engine := { wave := 3, team := 2, token := some 1, channel := some 0, op := op, pageWait := none }
def running (s : State) (op : EngineOp) : State := { s with engines := [(7, engine op)] }
def failed (s : State) : State := State.onWave s fun w => { w with failedStp := 1 }

theorem witness_RemoteAccessesAndFencesWait : waits (lane0 (far true)) (.ld if1 .global .b32 false (.v 4) (.s 4) .zero) .remote = true ∧
    traps (lane0 (far false)) (.ld if1 .global .b32 false (.v 4) (.s 4) .zero) 0x20 = true ∧
    retires (lane0 (far true)) (.stp if1 .b32 (.s 4) (.v 4) .zero) = true ∧
    [Instr.fenceR h, .fenceH h, .fenceE h].all (retires base) = true ∧
    [Instr.fenceR h, .fenceH h].all (fun i => waits (posted base) i .posted) = true ∧
    [Instr.fenceH h, .fenceE h].all (fun i => waits (running base (.publish 0)) i .engines) = true ∧
    [Instr.fenceR h, .fenceH h].all (fun i => traps (failed base) i 0x21 && trapsBell (failed base) i 0x21) = true ∧
    defers (lane0 (far true)) (.ld if1 .global .b32 false (.v 4) (.s 4) .zero) = true ∧
    waitsBell (lane0 (far true)) (.ld if1 .global .b32 false (.v 4) (.s 4) .zero) .remote = true ∧
    (defers (lane0 (far true)) (.stp if1 .b32 (.s 4) (.v 4) .zero) && performs (lane0 (far true)) (.stp if1 .b32 (.s 4) (.v 4) .zero)) = true ∧
    [Instr.fenceR h, .fenceH h, .fenceE h].all (fun i => defers base i && performs base i) = true ∧
    [Instr.fenceR h, .fenceH h].all (fun i => waitsBell (posted base) i .posted) = true := by decide +kernel

/-- The boundaries that join the port dies to the dies of core 0's row are down. -/
def severed (s : State) : State := { s with boundaries := [10, 12].map fun k => (k, { Boundary.fresh with down := true }) }

theorem severed_cut (s : State) (n : Nat) : (severed s).cutDies 0 (dieOfPort (n % 16)) = true := by
  have h : n % 16 / 8 = 0 ∨ n % 16 / 8 = 1 := by omega
  rcases h with h | h <;> simp only [dieOfPort, h] <;> rfl

theorem witness_RemoteAccessesAndFencesWait_cut : meets (State.at' (severed (lane0 (far true))) (.ld if1 .global .b32 false (.v 4) (.s 4) .zero))
      (.ld if1 .global .b32 false (.v 4) (.s 4) .zero) = true ∧
    dieOfCore ((lane0 (far true)).coreOf (env (lane0 (far true)) (.nop h)).w) = 0 ∧
    (severed (lane0 (far true))).cutDies 0 (dieOfPort (flowPort 0 1)) = true :=
  ⟨by decide +kernel, by decide +kernel, severed_cut _ _⟩

/-- The launch has two teams; index 1 is gone. -/
def teams2 (s : State) : State := State.onLaunch s fun l => { l with lr := { l.lr with extents := [2, 1, 1, 1, 1, 1] }, next := 2 }

theorem witness_FoldGroups : (teams2 base).launches.all (fun x => x.2.lr.teamCount == 2) = true ∧
    retires (State.with (teams2 base) [(20, 15), (21, 2 ^ 32), (22, 2)]) (.fdef h (.s 20) (.s 21) (.s 22)) = true ∧
    ((teams2 base).team? 2).any (fun t => !((teams2 base).badWindow t 0x800 16)) = true ∧
    retires (State.window (teams2 base) 0x800 (leBytes 4 0 ++ leBytes 4 1 ++ leBytes 4 2 ++ leBytes 4 1)) (.ldf h .add .f32 (.v 4) .zero (.p 4)) = true := by decide +kernel

/-! ### Barriers and rings -/

/-- Barrier 3 of the team, and a second team of the group on core 1, number 5. -/
def barred (s : State) (x : Barrier) : State := State.onTeam s fun t => { t with bars := [(3, x)] }
def waiting : Barrier := { Barrier.fresh with init := true, waveUnits := true, ea := 4, eb := 0 }
def two (s : State) : State := { s with teams := s.teams ++ (s.teams.map fun x => (5, { x.2 with core := 1, index := 1, waves := [] })) }

def named : State := State.with base [(4, 4), (5, 65535), (6, 2 ^ 40 - 1), (7, 65536), (8, 3), (9, 2 ^ 10 + 3), (10, 0)]

theorem witness_BarriersCountAndObserve : [barred named Barrier.fresh, barred named { waiting with ea := 9 }, barred named { waiting with arrivals := 1 }].all (fun s => retires s (.bari h true (.s 8) (.s 4) .zero)) = true ∧
    retires named (.bari h false (.s 8) (.s 5) (.s 6)) = true ∧
    traps (barred named { waiting with ea := 9, arrivals := 1 }) (.bari h true (.s 8) (.s 4) .zero) 0x02 = true ∧
    traps named (.bari h true (.s 8) (.s 7) .zero) 0x02 = true ∧
    traps named (.bari h true (.s 8) .zero .zero) 0x02 = true ∧
    [Instr.barv h false (.p 1) (.s 8), .bara h false (.s 8) (.s 6), .barx h (.s 8) (.s 4)].all (fun i => retires (barred named waiting) i && traps named i 0x02) = true ∧
    [Instr.barv h true (.p 1) (.s 9), .bara h true (.s 9) (.s 6)].all (fun i => waits (two named) i .peerBarrier) = true ∧
    traps (barred named waiting) (.barx h (.s 8) (.s 5)) 0x02 = true ∧
    traps (barred (State.with named [(6, 2 ^ 40)]) waiting) (.bara h false (.s 8) (.s 6)) 0x02 = true ∧
    waits (barred named waiting) (.barw h (.s 8) (.p 1)) (.barrier 3 false) = true ∧
    retires (barred named { waiting with phase := true }) (.barw h (.s 8) (.p 1)) = true ∧
    traps (barred named { waiting with phase := true, observedFailed := true }) (.barw h (.s 8) (.p 1)) 0x21 = true ∧
    traps named (.barw h (.s 8) (.p 1)) 0x02 = true ∧
    retires (barred named { waiting with phase := true }) (.bart h (.p 2) (.s 8) (.p 1)) = true ∧
    traps (barred named { waiting with phase := true, observedFailed := true }) (.bart h (.p 2) (.s 8) (.p 1)) 0x21 = true ∧
    traps named (.bart h (.p 2) (.s 8) (.p 1)) 0x02 = true ∧
    [Instr.bari h true (.s 8) (.s 4) .zero, .bara h false (.s 8) (.s 6), .barx h (.s 8) (.s 4)].all (buffers (barred named waiting)) = true ∧
    (defers (barred named waiting) (.barv h false (.p 1) (.s 8)) && performs (barred named waiting) (.barv h false (.p 1) (.s 8))) = true ∧
    endsRound (barred named waiting) (.barw h (.s 8) (.p 1)) (.barrier 3 false) = true ∧
    endsRound (State.onWave named fun w => { w with buffer := [.bari 3 true 4 0 (env named (.nop h)).late] }) (.barw h (.s 8) (.p 1)) .none = true := by decide +kernel

/-- A ring of 4096 bytes at 0x12000, its control block at 0x11000, S4 naming it; a committed record of 64 bytes at its start. -/
def ringed (reserve commit take release : Nat) : State :=
  State.with (State.bytes (State.bytes base 0x11000 (leBytes 8 0x12000 ++ leBytes 8 12 ++ leBytes 8 reserve ++ leBytes 8 commit ++ leBytes 8 take ++
    leBytes 8 release ++ leBytes 16 0)) 0x12000 (leBytes 8 (64 + 2 ^ 32 + 2 ^ 40) ++ leBytes 56 0)) [(4, 0x11000), (5, 64), (6, 1), (7, 0x12000), (8, 2048), (9, 2056)]

/-- The wave holds a reservation and a hold on the record at the ring's start. -/
def held (s : State) : State := State.onWave s fun w => { w with reserved := [{ record := 0x12000, control := 0x11000 }], holds := [{ record := 0x12000, control := 0x11000 }] }

theorem witness_RingInstructionsActOnRings : retires (ringed 0 0 0 0) (.rqres h true (.s 10) (.s 4) (.s 5) (.s 6)) = true ∧
    retires (ringed 0 0 0 0) (.rqres h true (.s 10) (.s 4) (.s 8) (.imm 36)) = true ∧
    traps (ringed 0 0 0 0) (.rqres h true (.s 10) (.s 4) (.s 9) (.s 6)) 0x02 = true ∧
    traps (ringed 0 0 0 0) (.rqres h true (.s 10) (.s 4) (.s 5) .zero) 0x02 = true ∧
    traps (ringed 0 0 0 0) (.rqres h true (.s 10) (.s 7) (.s 5) (.s 6)) 0x02 = true ∧
    waits (ringed 4096 4096 0 0) (.rqres h true (.s 10) (.s 4) (.s 5) (.s 6)) .ringSpace = true ∧
    retires (ringed 4096 4096 0 0) (.rqres h false (.s 10) (.s 4) (.s 5) (.s 6)) = true ∧
    [Instr.rqcmt h (.s 7), .rqrel h (.s 7)].all (fun i => retires (held (ringed 64 64 0 0)) i && traps (ringed 64 64 0 0) i 0x02) = true ∧
    retires (ringed 64 64 0 0) (.rqtake h true (.s 10) (.s 4)) = true ∧
    traps (((ringed 128 128 0 0).putBytes none 0 0x12000 (leBytes 8 (64 + 9 * 2 ^ 32 + 2 ^ 40))).putBytes none 0 0x12040 (leBytes 8 (64 + 2 ^ 32 + 2 ^ 40)))
      (.rqtake h true (.s 10) (.s 4)) 0x21 = true ∧
    waits ((ringed 64 64 0 0).putBytes none 0 0x12000 (leBytes 8 (64 + 9 * 2 ^ 32 + 2 ^ 40))) (.rqtake h true (.s 10) (.s 4)) .ringTake = true ∧
    waits (ringed 0 0 0 0) (.rqtake h true (.s 10) (.s 4)) .ringTake = true ∧
    retires (ringed 0 0 0 0) (.rqtake h false (.s 10) (.s 4)) = true ∧
    traps ((ringed 64 64 0 0).putBytes none 0 0x12000 (leBytes 8 (64 + 9 * 2 ^ 32 + 2 ^ 40))) (.rqtake h false (.s 10) (.s 4)) 0x21 = true ∧
    [Instr.rqres h true (.s 10) (.s 4) (.s 5) (.s 6), .rqcmt h (.s 7), .rqrel h (.s 7), .rqtake h true (.s 10) (.s 4)].all (fun i =>
      defers (held (ringed 64 64 0 0)) i && performs (held (ringed 64 64 0 0)) i) = true ∧
    performs (ringed 4096 4096 0 0) (.rqres h false (.s 10) (.s 4) (.s 5) (.s 6)) = true ∧
    trapsBell ((ringed 64 64 0 0).putBytes none 0 0x12000 (leBytes 8 (64 + 9 * 2 ^ 32 + 2 ^ 40))) (.rqtake h false (.s 10) (.s 4)) 0x21 = true := by decide +kernel

theorem ring_places : ((List.range 64).all fun j => (List.range 64).all fun k =>
    ((ringed 0 0 0 0).byteOf (env base (.nop h)).w (.global 0x12000) (64 * j + k)).map interleavedDpa == some (0x12000 + (64 * j + k))) = true := by
  decide +kernel

theorem ring_nodup : ((List.range 4096).map fun i => (ringed 0 0 0 0).byteOf (env base (.nop h)).w (.global 0x12000) i).Nodup := by
  have hp : ∀ i, i < 4096 → ((ringed 0 0 0 0).byteOf (env base (.nop h)).w (.global 0x12000) i).map interleavedDpa = some (0x12000 + i) :=
    fun i hi => by
      have := List.all_eq_true.mp (List.all_eq_true.mp ring_places (i / 64) (List.mem_range.mpr (by omega))) (i % 64)
        (List.mem_range.mpr (by omega))
      rw [show 64 * (i / 64) + i % 64 = i by omega] at this
      exact eq_of_beq this
  rw [List.Nodup, List.pairwise_map]
  refine List.Pairwise.imp_of_mem (fun {a b} ha hb hab he => hab ?_) (List.nodup_range (n := 4096))
  have := (hp a (List.mem_range.mp ha)).symm.trans ((congrArg _ he).trans (hp b (List.mem_range.mp hb)))
  have := Option.some.inj this
  omega

theorem witness_RingActionsMoveCounters : (match (ringed 4032 4032 0 0).openRing none [] 0 none 0 0x11000 with
      | .ok r => decide (r.base % 64 = 0 ∧ r.size = 4096 ∧ r.reserve = 4032) && (match (ringed 4032 4032 0 0).ringReserve none 0 r 64 1 0 with
          | .ok (some (a, _)) => a == 0x12000 + 4032
          | _ => false) && (match (ringed 4032 4032 0 0).ringReserve none 0 r 72 1 0 with
          | .ok none => true
          | _ => false)
      | _ => false) = true ∧
    (match (ringed 4032 4032 128 128).openRing none [] 0 none 0 0x11000 with
      | .ok r => match (ringed 4032 4032 128 128).ringReserve none 0 r 72 1 0 with
        | .ok (some (a, u)) => a == 0x12000 && (u.owner? 0).any fun o => leAt (o.bytes 0 u.now 0x11000 64) 24 8 == 4096
        | _ => false
      | _ => false) = true ∧
    ((List.range 64).all fun i => ((ringed 0 0 0 0).byteOf (env base (.nop h)).w (.global 0x11000) i).isSome) = true := by decide +kernel

/-! ### Copies, the matrix engine and the hurdle array -/

/-- A copy descriptor in the window, S4 an address, S5 a window offset, S6 its index; the owner has a shadow set over its first page. -/
def desc : CopyDesc := { format := 0, qmode := 0, barrier := none, rows := 2, rowb := 16, growb := 0, gstride := 64, scoff := 0 }
def described (d : CopyDesc) : State :=
  State.onOwner (State.window (State.with base [(4, 0x10000), (5, 0x100), (6, 63), (7, 64), (8, 1), (9, 0x20000)]) (32 * 63)
    ([BitVec.ofNat 8 d.format, BitVec.ofNat 8 d.qmode, 0xFF, 0xFF] ++ leBytes 4 d.rows ++ leBytes 4 d.rowb ++ leBytes 4 d.growb ++ leBytes 8 d.gstride ++
      leBytes 8 d.scoff.toNat)) fun o => { o with pages := [{ page 0x10000 with set := some 0 }, page 0x20000],
                                                  sets := [(0, { va := 0x10000, pages := 1, shadow := [(0x30000, 1)] })] }

theorem witness_CopiesStartAndStop : [Instr.cpin h 1 0 (.s 4) (.s 5) (.s 6), .cpsh h 1 3 (.s 4) (.s 5) (.s 6), .cpout h 7 0 .zero (.s 4) (.s 5) (.s 6),
      .cppeer h 1 0 (.s 5) (.s 8) (.s 5) (.s 6)].all (fun i => retires (described desc) i && retires (rounds (described desc)) i) = true ∧
    traps (State.with (described { desc with qmode := 1, format := 2, rowb := 128, gstride := 128, scoff := 512 }) [(11, 0x1000)])
      (.cpout h 1 0 (.s 10) (.s 4) (.s 11) (.s 6)) 0x02 = true ∧
    retires (State.with (described { desc with qmode := 1, format := 2, rowb := 128, gstride := 128, scoff := 512 }) [(10, 0x3F800000), (11, 0x1000)])
      (.cpout h 1 0 (.s 10) (.s 4) (.s 11) (.s 6)) = true ∧
    retires (described { desc with growb := 16 }) (.cpgath h 1 0 (.s 9) (.s 4) (.s 5) (.s 6)) = true ∧
    retires (described { desc with growb := 16 }) (.cpgath h 1 0 (.q 1) (.s 4) (.s 5) (.s 6)) = true ∧
    [Instr.cpin h 1 0 (.s 4) (.s 5) (.s 7)].all (fun i => traps (described desc) i 0x02) = true ∧
    [{ desc with rows := 0 }, { desc with growb := 1 }, { desc with qmode := 1 }].all (fun d => traps (described d) (.cpin h 1 0 (.s 4) (.s 5) (.s 6)) 0x02) = true ∧
    retires (described desc) (.pub h 1 .zero) = true ∧
    traps (described desc) (.pub h 1 (.s 8)) 0x02 = true ∧
    retires base (.cpwp h 3 (.v 6)) = true ∧
    retires (running (rounds base) (.publish 0)) (.cpcan h 0) = true ∧
    retires (running base (.publish 0)) (.cpcan h 0) = true := by decide +kernel

def copyIn : CopyOp := { kind := .cpin, desc := desc, g := 0x10000, s := 0x100, dest := 0, peers := [], scale := 0, index := .list 0, set := 0, phase := 0,
                         reads := [], got := [], writes := [], written := 0, row := 0, asked := none, answer := none, cancelled := false }

theorem witness_CopyInMovesRowsAndPublishSwaps : (running base (.copy copyIn)).engineActs (engine (.copy copyIn)) = true ∧
    (running base (.copy copyIn)).headOfChannel 7 (engine (.copy copyIn)) = true ∧
    (base.owner? 0).any (fun o => (List.range 2).all fun i => (List.range 16).all fun b => match o.pageAt (0x10000 + 64 * i + b) with
      | some p => p.frame.isSome && p.remote.isNone && p.r && !(base.badGlobal (some 0) o (0x10000 + 64 * i + b) 1)
      | none => false) = true ∧
    (base.core 0).badSpad = [] ∧
    (base.team? 2).any (fun t => base.teamRuns t) = true ∧
    (running (described desc) (.publish 0)).engineActs (engine (.publish 0)) = true ∧
    ((described desc).owner? 0).any (fun o => (o.pages.filter fun p => p.set == some 0).length == 1) = true ∧
    (match exec (.pubSwap 7) (running (described desc) (.publish 0)) with
      | .next u => u.engines.isEmpty
      | _ => false) = true ∧
    (match exec (.pubSwap 9) { running (described desc) (.publish 0) with engines := [(7, engine (.copy { copyIn with kind := .cpsh })), (9, engine (.publish 0))] } with
      | .next u => u.engines.length == 2
      | _ => false) = true := by decide +kernel

/-- The team holds tiles 0 to 3 and the hurdle array. -/
def tiled : State := State.onTeam (State.with base [(4, 0x1000), (5, 0x1800), (6, 0x3F800000), (7, 31), (8, 32), (9, 2 ^ 28)])
  fun t => { t with tiles := [0, 1, 2, 3], hurdle := true, windowUnits := 16 }

/-- The same with zeros in its first accumulator tiles and a multiply under way on tile 1. -/
def multiply : EngineOp := .matrix (.mma .f32 true 0) [1] 1 [] [] [] []

theorem witness_MultipliesStart : [Instr.mma h .bf16 false (.acc 0) (.s 4) (.s 5) (.s 6), .mma h .f64 true (.acc 2) (.s 4) (.s 5) .zero,
      .mmax h false true false (.acc 1) (.s 4) (.s 5) (.s 6), .mmap h 7 true false true (.acc 0) (.s 4) (.s 5)].all (fun i =>
        meets (State.at' tiled i) i && !((State.at' tiled i).tileBusy 3 [0, 1, 2, 3])) = true ∧
    (handleOf 0x1000).isSome = true ∧
    (handleOf (2 ^ 28)).isNone = true ∧
    [Instr.mma h .bf16 false (.acc 0) (.s 9) (.s 5) (.s 6), .mmap h 0 true false true (.acc 0) (.s 4) (.s 9)].all (fun i => traps tiled i 0x02) = true := by decide +kernel

theorem witness_MultipliesComplete : ((running tiled multiply).team? 2).any (fun t => (running tiled multiply).teamRuns t) = true ∧
    ((running tiled multiply).wave? 3).isSome = true ∧
    [1].Nodup = true := by decide +kernel

theorem witness_AccumulatorsMove : [Instr.accz h true (.acc 2), .accwr h false (.acc 3) (.v 4) (.s 7), .accrd h false (.v 4) (.acc 0) (.s 7)].all (retires tiled) = true ∧
    [Instr.accwr h false (.acc 3) (.v 4) (.s 8), .accrd h false (.v 4) (.acc 0) (.s 8)].all (fun i => traps tiled i 0x02) = true ∧
    [Instr.accst h .f32 .zero (.acc 0) (.s 4) .zero, .accst h .f64 .zero (.acc 2) (.s 4) .zero, .accld h .s32 (.acc 0) (.s 4), .accst h .bf16 .zero (.acc 0) (.s 4) .zero, .accst h .e4m3 (.s 6) (.acc 0) (.s 4) (.s 5), .accld h .f16 (.acc 0) (.s 4)].all
      (fun i => meets (State.at' tiled i) i) = true ∧
    [Instr.accst h .f32 .zero (.acc 0) (.s 4) .zero, .accst h .e4m3 (.s 6) (.acc 0) (.s 4) (.s 5)].all (retires (rounds tiled)) = true ∧
    tensorScaleOk 0x3F800000 = true ∧
    tensorScaleOk 0 = false ∧
    traps tiled (.accst h .e4m3 (.s 10) (.acc 0) (.s 4) (.s 5)) 0x02 = true ∧
    [Instr.accst h .f32 .zero (.acc 0) .zero .zero, .accld h .s32 (.acc 0) (.s 6)].map (fun i => [0x12, 0x11].any fun c => traps tiled i c) = [true, true] ∧
    traps tiled (.accst h .f32 .zero (.acc 0) (.s 7) .zero) 0x10 = true := by decide +kernel

/-- The array of the team's core is configured for one feature. -/
def configured : State := tiled.updCore 0 fun c => { c with config := some 0 }

theorem witness_HurdleArrayLoadedAndGathered : retires tiled (.hcfg h (.s 10)) = true ∧
    traps (State.with tiled [(11, 0x400)]) (.hcfg h (.s 11)) 0x02 = true ∧
    waits (running tiled (.hrun 0 0 0 0)) (.hcfg h (.s 10)) .engines = true ∧
    [Instr.hcfg h (.s 10), .hld h .zero .zero (.imm 33), .hclr h .zero (.imm 33), .hrun h 2 .zero .zero .zero].all (fun i => traps base i 0x02) = true ∧
    retires (State.window tiled 0x1000 (leBytes 16 0)) (.hld h (.s 4) (.lit 4095) (.imm 33)) = true ∧
    traps (State.window tiled 0x1000 (leBytes 16 (2 ^ 44))) (.hld h (.s 4) (.lit 4095) (.imm 33)) 0x02 = true ∧
    [Instr.hld h (.s 4) (.lit 4095) (.imm 34), .hld h (.s 4) .zero .zero, .hclr h (.lit 4095) (.imm 34)].all (fun i => traps tiled i 0x02) = true ∧
    retires tiled (.hclr h (.lit 4095) (.imm 33)) = true ∧
    retires configured (.hrun h 2 .zero .zero (.s 4)) = true ∧
    traps tiled (.hrun h 2 .zero .zero (.s 4)) 0x02 = true ∧
    traps configured (.hrun h 2 .zero (.lit 0x100001) (.s 4)) 0x02 = true ∧
    traps tiled (.hgath h (.v 4) .zero (.s 4)) 0x02 = true ∧
    meets (State.at' configured (.hgath h (.v 4) .zero (.s 4))) (.hgath h (.v 4) .zero (.s 4)) = true ∧
    (List.range 64).all (fun c => decide (0x1000 + 256 * (c + treeCols 0 c 3) ≤ 4096 * 16)) = true ∧
    [Instr.hcfg h (.s 10), .hclr h (.lit 4095) (.imm 33)].all (buffers tiled) = true ∧
    buffers (State.window tiled 0x1000 (leBytes 16 0)) (.hld h (.s 4) (.lit 4095) (.imm 33)) = true ∧
    buffers configured (.hrun h 2 .zero .zero (.s 4)) = true ∧
    [0, 63].all (fun c => meets (State.at' tiled (.hexit h (.v 4) .zero (.lit c))) (.hexit h (.v 4) .zero (.lit c))) = true ∧
    traps tiled (.hexit h (.v 4) .zero (.lit 64)) 0x02 = true := by decide +kernel

def sweep : EngineOp := .hrun 0 4 0x1000 0xFFFFFFFF

theorem witness_HurdleRunWritesExits : (running configured sweep).engineActs (engine sweep) = true ∧
    ((running configured sweep).team? 2).any (fun t => (running configured sweep).teamRuns t &&
      (List.range 32).all fun l => !((running configured sweep).badWindow t (4 * l) 4)) = true ∧
    ((running configured sweep).core 0).config = some 0 ∧
    ((running configured sweep).core 0).spad = [] ∧
    ((running configured sweep).core 0).acc = [] ∧
    ((running configured sweep).core 0).badSpad = [] := by decide +kernel

end Sys2Proof.Machine.Tests
end

section
/-!
SUPPORT. The uniform branches, CALL, RET and DBNZ (R136, R280, R281, R283): what each comes to in its environment.
-/
namespace Sys2Proof.Machine

/-! ### Words that name no chain slot -/

/-- A prev operand may stand in a source's role alone (R122, R230). -/
theorem Role.eq_src_of_allows_prev {r : Role} {k : BitVec 2} (h : r.allows (.prev k) = true) : ∃ n, r = .src n := by
  cases r
  case src n => exact ⟨n, rfl⟩
  all_goals exact Bool.noConfusion h

/-- An instruction that executes and has no per-lane source is not chained. -/
theorem Executes.unchained {s : State} {i : Instr} {h : Head} {e : Env} (hx : Executes s i h e)
    (hno : ∀ x ∈ i.operands, ∀ n, x.1 ≠ .src n) : i.chainSlot = none := by
  have hroles := hx.roles
  simp only [Instr.rolesOk, Bool.and_eq_true, List.all_eq_true] at hroles
  rw [Instr.chainSlot, List.head?_eq_none_iff, Instr.prevs, List.filterMap_eq_nil_iff]
  rintro ⟨r, x⟩ hmem
  cases x
  case prev k =>
    obtain ⟨n, hn⟩ := Role.eq_src_of_allows_prev (hroles.1.1.1 _ hmem)
    exact absurd hn (hno _ hmem n)
  all_goals rfl

/-! ### Branches -/

/-- A uniform branch of an unchained word (R136): it retires where its guard holds in no active lane, jumps to a header where it holds
in all of them, and raises 0x05 where the lanes disagree. -/
theorem uniformBranch_rule {s : State} {i : Instr} {h : Head} {e : Env} (hx : Executes s i h e) (hc : i.chainSlot = none)
    {dest : State → Env → W64} (heq : exec i s = s.runWord i h fun s e => s.uniformBranch e (dest s e)) :
    (e.exec = 0 → OnlyRetires s i e) ∧
    (e.exec ≠ 0 → e.exec = e.active → HeaderAt s e (dest s e) → JumpsTo s i e (dest s e)) ∧
    (e.exec ≠ 0 → e.exec ≠ e.active → Raises s i e (e.trap 0x05)) := by
  refine ⟨fun hz => ?_, fun hz hall hdr => ?_, fun hz hsome => ?_⟩
  · have hb : s.uniformBranch e (dest s e) = .done s := by simp [State.uniformBranch, hz]
    exact done_same hx (hx.early_none hc hb rfl) hb heq
  · have hb : s.uniformBranch e (dest s e) = .jump s (dest s e) := by
      unfold State.uniformBranch
      rw [if_neg hz, if_neg (not_not_intro hall), transfer_ok hdr]; rfl
    exact jump_same hx (hx.early_none hc hb rfl) hb heq
  · have hb : s.uniformBranch e (dest s e) = .trap s (e.trap 0x05) := by
      unfold State.uniformBranch
      rw [if_neg hz, if_pos hsome]
    exact raises_rule hx hb rfl hc heq

/-- A word that is to jump to a header and change its own wave on the way does both. -/
theorem transfer_rule {s : State} {i : Instr} {h : Head} {e : Env} (hx : Executes s i h e) (hc : i.chainSlot = none) {dest : W64}
    {f : Wave → Wave} (hf : (f e.w).splits = e.w.splits) {body : State → Env → Res} (hdr : HeaderAt s e dest)
    (hb : body s e = s.transfer e dest fun s => s.updWave e.n f) (heq : exec i s = s.runWord i h body) :
    GoesTo s i e dest e.sp e.w.splits fun t w' => Beside s t e.n ∧ w'.idle = (f e.w).idle := by
  rw [transfer_ok hdr] at hb
  exact jump_upd hx rfl hf (hx.early_none hc hb rfl) hb heq

/-! ### CALL and RET -/

/-- CALL from a wave writes the address of the following header to its link register and jumps (R281). -/
theorem call_wave_rule {s : State} {h : Head} {e : Env} {off : BitVec 20} {d : Operand} (hx : Executes s (.call h off d) h e)
    (hrun : e.exec ≠ 0) (hd : e.w.drover = false) (hdr : HeaderAt s e (e.target off)) :
    GoesTo s (.call h off d) e (e.target off) e.sp e.w.splits fun t w' =>
      Beside s t e.n ∧ w'.idle = (e.w.writeS d e.sp.nextHeader).idle :=
  transfer_rule hx (hx.unchained (by simp [Instr.operands])) (f := fun w => w.writeS d e.sp.nextHeader) (by simp) hdr
    (by simp [runs_true hrun, hd]) rfl

/-- CALL from a drover whose stack has room pushes the address of the following header and jumps (R281). -/
theorem call_drover_rule {s : State} {h : Head} {e : Env} {off : BitVec 20} {d : Operand} (hx : Executes s (.call h off d) h e)
    (hrun : e.exec ≠ 0) (hd : e.w.drover = true) (hroom : e.w.rstack.length < 16) (hdr : HeaderAt s e (e.target off)) :
    GoesTo s (.call h off d) e (e.target off) e.sp e.w.splits fun t w' =>
      Beside s t e.n ∧ w'.idle = ({ e.w with rstack := e.sp.nextHeader :: e.w.rstack } : Wave).idle :=
  transfer_rule hx (hx.unchained (by simp [Instr.operands])) (f := fun w => { w with rstack := e.sp.nextHeader :: w.rstack }) rfl hdr
    (by simp [runs_true hrun, hd, Nat.not_le.mpr hroom]) rfl

/-- RET from a wave jumps to its operand (R281). -/
theorem ret_wave_rule {s : State} {h : Head} {e : Env} {a : Operand} (hx : Executes s (.ret h a) h e)
    (hrun : e.exec ≠ 0) (hd : e.w.drover = false) (hdr : HeaderAt s e (s.uni e a)) :
    JumpsTo s (.ret h a) e (s.uni e a) := by
  have hc : (Instr.ret h a).chainSlot = none := hx.unchained (by simp [Instr.operands])
  refine jump_same hx (hx.early_none hc (r := .jump s (s.uni e a)) ?_ rfl) ?_ rfl
  all_goals simp [runs_true hrun, hd, transfer_ok hdr]

/-- RET from a drover pops the address that it jumps to (R281). -/
theorem ret_drover_rule {s : State} {h : Head} {e : Env} {a : Operand} (hx : Executes s (.ret h a) h e)
    (hrun : e.exec ≠ 0) (hd : e.w.drover = true) {x : W64} {r : List W64} (hst : e.w.rstack = x :: r) (hdr : HeaderAt s e x) :
    GoesTo s (.ret h a) e x e.sp e.w.splits fun t w' => Beside s t e.n ∧ w'.idle = ({ e.w with rstack := r } : Wave).idle :=
  transfer_rule hx (hx.unchained (by simp [Instr.operands])) (f := fun w => { w with rstack := r }) rfl hdr
    (by simp [runs_true hrun, hd, hst]) rfl

/-! ### DBNZ -/

/-- One less than a value, modulo 2^64. -/
theorem sub_one_eq (x : W64) : x - 1 = BitVec.ofNat 64 (x.toNat + (2 ^ 64 - 1)) := by
  apply BitVec.eq_of_toNat_eq
  rw [BitVec.toNat_sub, BitVec.toNat_ofNat, show BitVec.toNat (1 : W64) = 1 from rfl]
  omega

/-- The one counter that DBNZ brings to 0 is 1. -/
theorem eq_one_of_sub_one {x : W64} (h : x - 1 = 0) : x = 1 :=
  calc x = x - 1 + 1 := (BitVec.sub_add_cancel x 1).symm
    _ = 0 + 1 := by rw [h]
    _ = 1 := rfl

/-- DBNZ retires where its guard does not hold in the lowest active lane (R283). -/
theorem dbnz_off_rule {s : State} {h : Head} {e : Env} {off : BitVec 20} {d : Operand} (hx : Executes s (.dbnz h off d) h e)
    (hrun : e.scalarRuns = false) : OnlyRetires s (.dbnz h off d) e := by
  have hc : (Instr.dbnz h off d).chainSlot = none := hx.unchained (by simp [Instr.operands])
  refine done_same hx (hx.early_none hc (r := .done s) ?_ rfl) ?_ rfl
  all_goals simp [hrun]

/-- DBNZ of a counter of 1 writes 0 and falls through (R283). -/
theorem dbnz_last_rule {s : State} {h : Head} {e : Env} {off : BitVec 20} {d : Operand} (hx : Executes s (.dbnz h off d) h e)
    (hrun : e.scalarRuns = true) (hone : s.uni e d = 1) :
    Completes s (.dbnz h off d) e fun t w' => Beside s t e.n ∧ w'.idle = (e.w.writeS d 0).idle := by
  have hc : (Instr.dbnz h off d).chainSlot = none := hx.unchained (by simp [Instr.operands])
  refine done_updWave hx (f := fun w => w.writeS d 0) (hx.early_none hc (r := .done (s.updWave e.n fun w => w.writeS d 0)) ?_ rfl)
    ?_ (by simp) rfl
  all_goals simp [hrun, hone]

/-- DBNZ of any other counter writes it less 1 and jumps (R283). -/
theorem dbnz_jump_rule {s : State} {h : Head} {e : Env} {off : BitVec 20} {d : Operand} (hx : Executes s (.dbnz h off d) h e)
    (hrun : e.scalarRuns = true) (hmore : s.uni e d - 1 ≠ 0) (hdr : HeaderAt s e (e.target off)) :
    GoesTo s (.dbnz h off d) e (e.target off) e.sp e.w.splits fun t w' =>
      Beside s t e.n ∧ w'.idle = (e.w.writeS d (s.uni e d - 1)).idle :=
  transfer_rule hx (hx.unchained (by simp [Instr.operands])) (f := fun w => w.writeS d (s.uni e d - 1)) (by simp) hdr
    (by simp only [hrun, Bool.not_true, Bool.false_eq_true, if_false, if_neg hmore]) rfl

/-- Settles O17: the guard's three cases are those of every uniform branch, and each transfer is to a header that the branch's checks
let pass. -/
theorem branchesTransfer : Obligations.BranchesTransfer := by
  intro s h e off a d target next jumps uniform
  have htarget : e.target off = target := target_eq ..
  have hnext : e.sp.nextHeader = next := next_eq e.sp
  refine ⟨fun hx => ?_, fun hx => ?_, fun hx hrun hdr => ?_, fun hx hrun => ?_, fun hx => ?_⟩
  · rw [← htarget]
    exact uniformBranch_rule hx (hx.unchained (by simp [Instr.operands])) (dest := fun _ e => e.target off) rfl
  · exact uniformBranch_rule hx (hx.unchained (by simp [Instr.operands])) (dest := fun s e => s.uni e a) rfl
  · rw [← htarget] at hdr ⊢
    rw [← hnext]
    exact ⟨fun hd => call_wave_rule hx hrun hd hdr, fun hd hroom => call_drover_rule hx hrun hd hroom hdr⟩
  · exact ⟨ret_wave_rule hx hrun, fun hd x r hst hdr => ret_drover_rule hx hrun hd hst hdr⟩
  · intro count
    refine ⟨dbnz_off_rule hx, fun hrun hone => dbnz_last_rule hx hrun (BitVec.eq_of_toNat_eq hone), fun hrun hmore hdr => ?_⟩
    have hne : s.uni e d - 1 ≠ 0 := fun h0 => hmore (by rw [eq_one_of_sub_one h0]; rfl)
    rw [← htarget] at hdr ⊢
    have hcount : s.uni e d - 1 = count := sub_one_eq _
    rw [← hcount]
    exact dbnz_jump_rule hx hrun hne hdr

end Sys2Proof.Machine
end

section
/-!
SUPPORT. Selection, saturation, moves, addresses and the byte dot product (R262–R267): each against exact integers.
-/
namespace Sys2Proof.Machine

/-! ### From a value instruction's function to what is claimed of it -/

/-- A value instruction of groups 0 and 1 computes every function whose values and flags are those of its own. -/
theorem computes_of_valueOp {s : State} {i : Instr} {h : Head} {e : Env} {d : Operand} {regs : Nat} {sx : Bool}
    {f : State → Env → Nat → W64 → W64 × Flags} {g : Nat → W64 → W64 × Flags} {rest : List (Role × Operand)}
    (hr : regs = 1 ∨ regs = 2) (ho : i.operands = (.dst regs, d) :: rest) (hg : i.group = some 0 ∨ i.group = some 1)
    (heq : exec i s = s.valueOp i h d regs sx f) (hval : ∀ l p, cut regs (f s e l p).1 = cut regs (g l p).1)
    (hflag : ∀ l p, (f s e l p).2 = (g l p).2) : Computes s i h e d regs sx g := fun hx =>
  (valueOp_rule hx hr ho hg heq).congr hval hflag

/-- An integer instruction of two sources computes the exact integers that its function is equal to modulo 2^w. -/
theorem computes_intOp2 {s : State} {i : Instr} {h : Head} {e : Env} {t : IntTy} {d a b : Operand} {f : W64 → W64 → W64}
    {z : Int → Int → Int} {rest : List (Role × Operand)} (ho : i.operands = (.dst t.regs, d) :: rest) (hg : i.group = some 0)
    (heq : exec i s = s.intOp2 i h t d a b f)
    (hz : ∀ x y, ((f x y).toNat : Int) % 2 ^ t.bits = z (t.value x) (t.value y) % 2 ^ t.bits) :
    Computes s i h e d t.regs (t == .s32) fun l p => (wrap t.bits (z (s.intAt e t a l p) (s.intAt e t b l p)), 0) :=
  computes_of_valueOp (IntTy.regs_cases t) ho (.inl hg) heq (fun _ _ => arith t (hz ..)) fun _ _ => rfl

/-- An integer instruction of three sources computes the exact integers that its function is equal to modulo 2^w. -/
theorem computes_intOp3 {s : State} {i : Instr} {h : Head} {e : Env} {t : IntTy} {d a b c : Operand} {f : W64 → W64 → W64 → W64}
    {z : Int → Int → Int → Int} {rest : List (Role × Operand)} (ho : i.operands = (.dst t.regs, d) :: rest) (hg : i.group = some 0)
    (heq : exec i s = s.intOp3 i h t d a b c f)
    (hz : ∀ x y v, ((f x y v).toNat : Int) % 2 ^ t.bits = z (t.value x) (t.value y) (t.value v) % 2 ^ t.bits) :
    Computes s i h e d t.regs (t == .s32) fun l p =>
      (wrap t.bits (z (s.intAt e t a l p) (s.intAt e t b l p) (s.intAt e t c l p)), 0) :=
  computes_of_valueOp (IntTy.regs_cases t) ho (.inl hg) heq (fun _ _ => arith t (hz ..)) fun _ _ => rfl

/-! ### The instructions as value instructions -/

section
variable (s : State) (h : Head) (d a b c : Operand)

theorem exec_mov (w64 : Bool) : exec (.mov h w64 false d a) s = s.valueOp (.mov h w64 false d a) h d (regsOf w64) false
    fun s e l p => (s.readInt e (regsOf w64) a l p, 0) := rfl

theorem exec_isel (w64 : Bool) : exec (.isel h w64 d a b c) s = s.valueOp (.isel h w64 d a b c) h d (regsOf w64) false
    fun s e l p => (if e.w.readPred c l then s.readInt e (regsOf w64) a l p else s.readInt e (regsOf w64) b l p, 0) := rfl

theorem exec_iadds (t : IntTy) : exec (.iadds h t d a b) s = s.valueOp (.iadds h t d a b) h d t.regs (t == .s32)
    fun s e l p => (wrap t.bits (t.saturate (s.intAt e t a l p + s.intAt e t b l p)).1,
      flagIf (t.saturate (s.intAt e t a l p + s.intAt e t b l p)).2 fIOV) := rfl

theorem exec_lea (sh : BitVec 3) (zx : Bool) : exec (.lea h sh zx d a b) s = s.valueOp (.lea h sh zx d a b) h d 2 false
    fun s e l p => (s.read64 e a l p +
      ((if zx then (s.read32 e b l p).setWidth 64 else (s.read32 e b l p).signExtend 64) <<< sh.toNat), 0) := rfl

theorem exec_idot4 (sa sb : Bool) : exec (.idot4 h sa sb d a b c) s = s.valueOp (.idot4 h sa sb d a b c) h d 1 false
    fun s e l p => (wrap 32 ((s.read32 e c l p).toNat + (List.range 4).foldl (fun (acc : Int) i =>
      acc + byteVal (s.read32 e a l p) i sa * byteVal (s.read32 e b l p) i sb) 0), 0) := rfl

end

/-! ### IADDS -/

/-- The flag of a saturated sum is raised where the exact sum lies outside the range (R265). -/
theorem saturate_flag (t : IntTy) (x : Int) (fl : Flags) :
    flagIf (t.saturate x).2 fl = if x < t.min ∨ t.max < x then fl else 0 := by
  unfold IntTy.saturate flagIf
  by_cases hlo : x < t.min
  · simp [hlo]
  · by_cases hhi : t.max < x <;> simp [hlo, hhi]

/-! ### MOV.first -/

/-- MOV.first writes the value of the lowest active lane to its S register where its guard holds there (R263). -/
theorem movFirst_rule {s : State} {h : Head} {e : Env} {w64 : Bool} {d a : Operand} (hx : Executes s (.mov h w64 true d a) h e) :
    Completes s (.mov h w64 true d a) e fun t w' => Beside s t e.n ∧
      w'.idle = (if e.exec.getLsbD e.first then e.w.writeS d (s.readInt e (regsOf w64) a e.first 0) else e.w).idle := by
  have hdry : e.dry.scalarRuns = e.scalarRuns := rfl
  change Completes _ _ _ fun t w' => _ ∧ w'.idle = (if e.scalarRuns then _ else _ : Wave).idle
  by_cases hrun : e.scalarRuns = true
  · simp only [hrun, if_true]
    exact done_updWave hx (f := fun w => w.writeS d (s.readInt e (regsOf w64) a e.first 0)) (by simp only [hdry, hrun, if_true]; rfl)
      (by simp only [hrun, if_true]) (by simp) rfl
  · simp only [hrun, if_false, Bool.false_eq_true]
    exact done_same hx (by simp only [hdry, hrun, if_false, Bool.false_eq_true]; rfl)
      (by simp only [hrun, if_false, Bool.false_eq_true]) rfl

/-! ### Wrapped integers and signed values -/

/-- An integer wrapped to a width is the word of that width, zero-extended. -/
theorem wrap_eq_ofInt (w : Nat) (z : Int) : wrap w z = (BitVec.ofInt w z).setWidth 64 := by
  apply BitVec.eq_of_toNat_eq
  simp [wrap]

theorem wrap_64 (z : Int) : wrap 64 z = BitVec.ofInt 64 z := by
  rw [wrap_eq_ofInt, BitVec.setWidth_eq]

/-- A source's signed value is that of its low `w` bits. -/
theorem value_signedTy (w64 : Bool) (x : W64) : (signedTy w64).value x = (x.setWidth (widthOf w64)).toInt := by
  have hsigned : (signedTy w64).signed = true := by cases w64 <;> rfl
  have hdouble : 2 ^ (widthOf w64 - 1) + 2 ^ (widthOf w64 - 1) = 2 ^ widthOf w64 := by cases w64 <;> rfl
  simp only [IntTy.value, signedTy_bits, hsigned, Bool.true_and, decide_eq_true_eq, BitVec.toInt_eq_toNat_cond, BitVec.toNat_setWidth]
  by_cases htop : x.toNat % 2 ^ widthOf w64 ≥ 2 ^ (widthOf w64 - 1)
  · rw [if_pos htop, if_neg (by omega)]
    norm_cast
  · rw [if_neg htop, if_pos (by omega)]

/-! ### LEA -/

theorem ofInt_shiftLeft (z : Int) (k : Nat) : BitVec.ofInt 64 z <<< k = BitVec.ofInt 64 (z * 2 ^ k) := by
  rw [BitVec.shiftLeft_eq_mul_twoPow, BitVec.ofInt_mul]
  congr 1
  apply BitVec.eq_of_toNat_eq
  rw [BitVec.toNat_twoPow, BitVec.toNat_ofInt]
  norm_cast

/-- The value of a 32-bit source of an unsigned type. -/
theorem value_u32 (x : W32) : IntTy.value .u32 (x.setWidth 64) = x.toNat := by
  have hlt : x.toNat < 2 ^ 32 := x.isLt
  simp only [IntTy.value, IntTy.bits, IntTy.signed, Bool.false_and, Bool.false_eq_true, if_false, BitVec.toNat_setWidth]
  omega

/-- The value of a 32-bit source of a signed type. -/
theorem value_s32 (x : W32) : IntTy.value .s32 (x.setWidth 64) = x.toInt := by
  rw [show IntTy.s32 = signedTy false from rfl, value_signedTy]
  exact congrArg BitVec.toInt (BitVec.setWidth_setWidth_of_le x (by decide))

/-- LEA's index, extended to 64 bits, is the exact value of its source (R264). -/
theorem lea_index (x : W32) (zx : Bool) : (if zx then x.setWidth 64 else x.signExtend 64 : W64) =
    BitVec.ofInt 64 (IntTy.value (if zx then .u32 else .s32) (x.setWidth 64)) := by
  cases zx with
  | true =>
    rw [if_pos rfl, if_pos rfl, value_u32]
    apply BitVec.eq_of_toNat_eq
    simp
  | false =>
    rw [if_neg Bool.false_ne_true, if_neg Bool.false_ne_true, value_s32]
    rfl

/-- LEA's sum is the exact one modulo 2^64 (R264). -/
theorem lea_value (x : W64) (y : W32) (sh : Nat) (zx : Bool) :
    x + ((if zx then y.setWidth 64 else y.signExtend 64) <<< sh) =
      wrap 64 (x.toNat + IntTy.value (if zx then .u32 else .s32) (y.setWidth 64) * 2 ^ sh) := by
  rw [lea_index, ofInt_shiftLeft, add_ofInt, wrap_64]

/-! ### IDOT4 -/

/-- Byte `i` of a number, read as signed or not (R267). -/
def byteOf (v i : Nat) (signed : Bool) : Int :=
  if signed ∧ 128 ≤ v / 256 ^ i % 256 then (v / 256 ^ i % 256 : Nat) - 256 else (v / 256 ^ i % 256 : Nat)

theorem extract_byte_toNat (x : W32) (i : Nat) : (x.extractLsb' (8 * i) 8).toNat = x.toNat / 256 ^ i % 256 := by
  rw [BitVec.extractLsb'_toNat, Nat.shiftRight_eq_div_pow, Nat.pow_mul]

/-- The model's bytes of a word are those of its value. -/
theorem byteVal_eq (x : W32) (i : Nat) (signed : Bool) : byteVal x i signed = byteOf x.toNat i signed := by
  have hb := extract_byte_toNat x i
  cases signed with
  | false => simp [byteVal, byteOf, hb]
  | true =>
    simp only [byteVal, byteOf, if_true, true_and, BitVec.toInt_eq_toNat_cond, hb]
    split <;> split <;> omega

/-- The dot product of four bytes, written out. -/
theorem idot4_sum (z : Int) (f : Nat → Int) :
    z + (List.range 4).foldl (fun acc i => acc + f i) 0 = z + f 0 + f 1 + f 2 + f 3 := by
  simp only [List.range_succ, List.range_zero, List.nil_append, List.cons_append, List.foldl_cons, List.foldl_nil,
    Int.zero_add, Int.add_assoc]

/-! ### The statement -/

/-- Settles O8: each value instruction's function is the exact integer modulo 2^w, and MOV.first writes one S register. -/
theorem integerSelectionAndAddressValues : Obligations.IntegerSelectionAndAddressValues := by
  constructor
  · intro s h e t w64 d a b c
    refine ⟨?_, ?_, ?_, ?_, ?_, movFirst_rule, ?_⟩
    · exact computes_intOp2 (f := minInt t) (z := fun x y => min x y) rfl rfl rfl (min_mod t)
    · exact computes_intOp2 (f := maxInt t) (z := fun x y => max x y) rfl rfl rfl (max_mod t)
    · exact computes_intOp3 (f := fun x lo hi => minInt t (maxInt t x lo) hi) (z := fun x lo hi => min (max x lo) hi) rfl rfl rfl
        (clamp_mod t)
    · refine computes_of_valueOp (IntTy.regs_cases t) rfl (.inl rfl) (exec_iadds ..) (fun l p => ?_) fun l p => saturate_flag ..
      rw [sat_eq]
    · exact computes_of_valueOp (regsOf_cases w64) rfl (.inl rfl) (exec_mov ..) (fun _ _ => rfl) fun _ _ => rfl
    · exact computes_of_valueOp (regsOf_cases w64) rfl (.inl rfl) (exec_isel ..) (fun _ _ => rfl) fun _ _ => rfl
  · intro s h e sh zx sa sb d a b c byte
    constructor
    · refine computes_of_valueOp (.inr rfl) rfl (.inl rfl) (exec_lea ..) (fun l p => ?_) fun _ _ => rfl
      have hval : s.intAt e (if zx then .u32 else .s32) b l p =
          IntTy.value (if zx then .u32 else .s32) ((s.read32 e b l p).setWidth 64) := by cases zx <;> rfl
      rw [lea_value, hval]
    · refine computes_of_valueOp (.inl rfl) rfl (.inl rfl) (exec_idot4 ..) (fun l p => ?_) fun _ _ => rfl
      have hbyte : ∀ sg x i, byteVal (s.read32 e x l p) i sg = byte sg x l p i := fun sg x i => byteVal_eq ..
      simp only [idot4_sum, hbyte, State.countAt]

end Sys2Proof.Machine
end

section
/-!
SUPPORT. Logic, shift, count, field and permute instructions (R268–R271), bit by bit.
-/
namespace Sys2Proof.Machine

/-! ### Bits of operands -/

theorem widthOf_le (w64 : Bool) : widthOf w64 ≤ 64 := by cases w64 <;> decide
theorem widthOf_pos (w64 : Bool) : 0 < widthOf w64 := by cases w64 <;> decide

/-- An operand of 32 or 64 bits, zero-extended, has exactly its own bits. -/
theorem getLsbD_readInt (s : State) (e : Env) (w64 : Bool) (x : Operand) (l : Nat) (p : W64) (i : Nat) :
    (s.readInt e (regsOf w64) x l p).getLsbD i = s.bitAt e w64 x l p i := by
  unfold State.bitAt
  by_cases hi : i < widthOf w64
  · simp [hi]
  · have hout : (s.readInt e (regsOf w64) x l p).getLsbD i = false := by
      cases w64 with
      | true => exact BitVec.getLsbD_of_ge _ _ (Nat.not_lt.mp hi)
      | false =>
        show ((s.read32 e x l p).setWidth 64).getLsbD i = false
        rw [BitVec.getLsbD_setWidth, BitVec.getLsbD_of_ge (s.read32 e x l p) i (Nat.not_lt.mp hi), Bool.and_false]
    simp [hi, hout]

theorem bitAt_of_le {s : State} {e : Env} {w64 : Bool} {x : Operand} {l : Nat} {p : W64} {i : Nat} (hi : widthOf w64 ≤ i) :
    s.bitAt e w64 x l p i = false := by
  rw [State.bitAt, decide_eq_false (Nat.not_lt.mpr hi), Bool.false_and]

theorem testBit_readInt (s : State) (e : Env) (w64 : Bool) (x : Operand) (l : Nat) (p : W64) (i : Nat) :
    (s.readInt e (regsOf w64) x l p).toNat.testBit i = s.bitAt e w64 x l p i := by
  rw [BitVec.testBit_toNat, getLsbD_readInt]

/-- A value of `w` bits holds nothing above them. -/
def BitsBelow (w : Nat) (x : W64) : Prop := ∀ i, w ≤ i → x.getLsbD i = false

theorem bitsBelow_readInt (s : State) (e : Env) (w64 : Bool) (x : Operand) (l : Nat) (p : W64) :
    BitsBelow (widthOf w64) (s.readInt e (regsOf w64) x l p) := fun i hi => by
  rw [getLsbD_readInt, bitAt_of_le hi]

/-! ### Shifts (R269) -/

/-- SHL brings in zeros, and gives 0 from a count of w on. -/
theorem shl_bits {w k j : Nat} (x : W64) (hw : w ≤ 64) (hj : j < w) :
    (if k ≥ w then 0 else x <<< k).getLsbD j = (decide (k ≤ j) && x.getLsbD (j - k)) := by
  by_cases hk : k ≥ w
  · have : ¬ k ≤ j := by omega
    simp [hk, this]
  · have hj64 : j < 64 := by omega
    rw [if_neg hk, BitVec.getLsbD_shiftLeft, decide_eq_true hj64, Bool.true_and, ← decide_not]
    simp only [Nat.not_lt]

/-- SHR brings in the zeros above a value of w bits. -/
theorem shr_bits {w k j : Nat} {x : W64} (hx : BitsBelow w x) :
    (if k ≥ w then 0 else x >>> k).getLsbD j = x.getLsbD (j + k) := by
  by_cases hk : k ≥ w
  · rw [if_pos hk, hx _ (by omega)]; simp
  · rw [if_neg hk, BitVec.getLsbD_ushiftRight, Nat.add_comm]

/-- SAR's exact quotient is an arithmetic shift: it brings in copies of bit w − 1. -/
theorem sar_bits {w64 : Bool} {k j : Nat} (x : W64) (hj : j < widthOf w64) :
    (wrap (widthOf w64) ((signedTy w64).value x / 2 ^ (min k (widthOf w64)))).getLsbD j =
      x.getLsbD (min (j + k) (widthOf w64 - 1)) := by
  have hj64 : j < 64 := Nat.lt_of_lt_of_le hj (widthOf_le w64)
  have hsh : BitVec.ofInt (widthOf w64) ((x.setWidth (widthOf w64)).toInt / 2 ^ (min k (widthOf w64))) =
      (x.setWidth (widthOf w64)).sshiftRight (min k (widthOf w64)) := by
    rw [BitVec.sshiftRight, Int.shiftRight_eq_div_pow]; norm_cast
  rw [wrap_eq_ofInt, value_signedTy, hsh]
  by_cases hlow : min k (widthOf w64) + j < widthOf w64
  · have hmin : min (j + k) (widthOf w64 - 1) = min k (widthOf w64) + j := by omega
    simp only [BitVec.getLsbD_setWidth, BitVec.getLsbD_sshiftRight, hlow, hmin, hj64, Nat.not_le.mpr hj, if_true, decide_true,
      decide_false, Bool.not_false, Bool.true_and]
  · have hmin : min (j + k) (widthOf w64 - 1) = widthOf w64 - 1 := by omega
    have hlast : widthOf w64 - 1 < widthOf w64 := by omega
    simp only [BitVec.getLsbD_setWidth, BitVec.getLsbD_sshiftRight, hlow, hmin, hj64, Nat.not_le.mpr hj, if_false, decide_true,
      decide_false, Bool.not_false, Bool.true_and, BitVec.msb_eq_getLsbD_last, hlast]

/-- ROL's two halves do not overlap: each bit comes from the one that its place selects. -/
theorem rol_bits {w r j : Nat} {x : W64} (hw : w ≤ 64) (hx : BitsBelow w x) (hr : r < w) (hj : j < w) :
    ((x <<< r) ||| (x >>> (w - r))).getLsbD j = x.getLsbD ((j + w - r) % w) := by
  have hj64 : j < 64 := by omega
  by_cases hlow : j < r
  · have hmod : (j + w - r) % w = w - r + j := by rw [Nat.mod_eq_of_lt (by omega)]; omega
    simp only [BitVec.getLsbD_or, BitVec.getLsbD_shiftLeft, BitVec.getLsbD_ushiftRight, hlow, hmod, decide_true, Bool.not_true,
      Bool.and_false, Bool.false_and, Bool.false_or]
  · have hmod : (j + w - r) % w = j - r := by
      rw [show j + w - r = j - r + w by omega, Nat.add_mod_right, Nat.mod_eq_of_lt (by omega)]
    have hout : x.getLsbD (w - r + j) = false := hx _ (by omega)
    simp only [BitVec.getLsbD_or, BitVec.getLsbD_shiftLeft, BitVec.getLsbD_ushiftRight, hj64, hlow, hmod, hout, decide_true,
      decide_false, Bool.not_false, Bool.and_true, Bool.true_and, Bool.or_false]

/-! ### Counts (R268) -/

theorem length_bitsOf (w v : Nat) : (bitsOf w v).length = w := by simp [bitsOf]

theorem getElem_bitsOf {w v i : Nat} (hi : i < (bitsOf w v).length) : (bitsOf w v)[i] = v.testBit i := by simp [bitsOf]

/-- The true elements of a value's bits are the places at which its bits are set. -/
theorem popc_count (w v : Nat) : ((bitsOf w v).filter id).length = countTrue w fun i => v.testBit i := by
  simp [bitsOf, countTrue, List.filter_map]

/-- How many elements of a list stand before the first true one. -/
def leadingFalse (bs : List Bool) : Nat := (bs.takeWhile (!·)).length

theorem leadingFalse_eq (bs : List Bool) : leadingFalse bs = bs.findIdx id := by
  have hnot : (fun b : Bool => !!b) = id := by funext b; simp
  rw [leadingFalse, List.takeWhile_eq_take_findIdx_not, List.length_take, hnot, Nat.min_eq_left List.findIdx_le_length]

/-- The elements before that place are false, and the one at it is true. -/
theorem leadingFalse_spec (bs : List Bool) : leadingFalse bs ≤ bs.length ∧
    (∀ i (hi : i < bs.length), i < leadingFalse bs → bs[i] = false) ∧
    (∀ h : leadingFalse bs < bs.length, bs[leadingFalse bs] = true) := by
  simp only [leadingFalse_eq]
  refine ⟨List.findIdx_le_length, fun i hi hlt => ?_, fun h => List.findIdx_getElem (w := h)⟩
  simpa using List.not_of_lt_findIdx hlt

theorem ctz_spec (w v : Nat) : let n := leadingFalse (bitsOf w v)
    n ≤ w ∧ (∀ i, i < n → v.testBit i = false) ∧ (n < w → v.testBit n = true) := by
  intro n
  obtain ⟨hle, hbelow, hat⟩ := leadingFalse_spec (bitsOf w v)
  simp only [length_bitsOf, getElem_bitsOf] at hle hbelow hat
  exact ⟨hle, fun i hi => hbelow i (by omega) hi, hat⟩

theorem clz_spec (w v : Nat) : let n := leadingFalse (bitsOf w v).reverse
    n ≤ w ∧ (∀ i, w - n ≤ i → i < w → v.testBit i = false) ∧ (n < w → v.testBit (w - 1 - n) = true) := by
  intro n
  obtain ⟨hle, hbelow, hat⟩ := leadingFalse_spec (bitsOf w v).reverse
  simp only [List.length_reverse, length_bitsOf, List.getElem_reverse, getElem_bitsOf] at hle hbelow hat
  refine ⟨hle, fun i hlo hi => ?_, hat⟩
  have := hbelow (w - 1 - i) (by omega) (by omega)
  rwa [show w - 1 - (w - 1 - i) = i by omega] at this

/-- A count of at most 64 stands in a register as it is. -/
theorem toNat_ofNat_count {n w : Nat} (hn : n ≤ w) (hw : w ≤ 64) : (BitVec.ofNat 64 n).toNat = n := by
  rw [BitVec.toNat_ofNat]; omega

/-! ### BREV (R268) -/

/-- Bits folded into a number from the most significant one. -/
theorem testBit_foldl_bits (bs : List Bool) (acc j : Nat) :
    (bs.foldl (fun acc b => 2 * acc + b.toNat) acc).testBit j =
      if h : j < bs.length then bs[bs.length - 1 - j] else acc.testBit (j - bs.length) := by
  induction bs generalizing acc with
  | nil => simp
  | cons b r ih =>
    rw [List.foldl_cons, ih]
    by_cases hj : j < r.length
    · have hidx : (b :: r).length - 1 - j = (r.length - 1 - j) + 1 := by rw [List.length_cons]; omega
      have hj' : j < (b :: r).length := Nat.lt_succ_of_lt hj
      simp only [hj, hj', dif_pos, hidx, List.getElem_cons_succ]
    · by_cases heq : j = r.length
      · subst heq
        cases b <;> simp [Nat.testBit_zero]
      · have hj' : ¬ j < (b :: r).length := by rw [List.length_cons]; omega
        have hsub : j - r.length = (j - (b :: r).length) + 1 := by rw [List.length_cons]; omega
        rw [dif_neg hj, dif_neg hj', hsub, Nat.testBit_succ]
        have hhalf : (2 * acc + b.toNat) / 2 = acc := by
          have := b.toNat_lt
          omega
        rw [hhalf]

theorem brev_bits {w v j : Nat} (hj : j < w) :
    ((bitsOf w v).foldl (fun acc (b : Bool) => 2 * acc + b.toNat) 0).testBit j = v.testBit (w - 1 - j) := by
  rw [testBit_foldl_bits, dif_pos (by rwa [length_bitsOf]), getElem_bitsOf, length_bitsOf]

/-! ### Fields (R270) -/

theorem position_eq (w : Nat) (p : W32) : position w p = (p.toNat % 128, min (p.toNat / 256 % 128) w) := by
  simp [position, BitVec.extractLsb'_toNat, Nat.shiftRight_eq_div_pow]

/-- BFX's value: a field of `n` bits from bit `off`, zeros beyond the width, with its sign under .sx. -/
def fieldOf (w off n : Nat) (sx : Bool) (x : Nat) : W64 :=
  let field := if off ≥ w then 0 else x / 2 ^ off % 2 ^ n
  if sx && n > 0 && field ≥ 2 ^ (n - 1) then wrap w ((field : Int) - 2 ^ n) else BitVec.ofNat 64 field

/-- Bit `i` of the field is bit `off + i` of the source. -/
theorem field_testBit {w off n i : Nat} {x : W64} (hx : BitsBelow w x) (hi : i < n) :
    (if off ≥ w then 0 else x.toNat / 2 ^ off % 2 ^ n).testBit i = x.getLsbD (off + i) := by
  by_cases hoff : off ≥ w
  · rw [if_pos hoff, hx _ (by omega), Nat.zero_testBit]
  · rw [if_neg hoff, Nat.testBit_mod_two_pow, Nat.testBit_div_two_pow, BitVec.testBit_toNat, Nat.add_comm]
    simp [hi]

/-- A number of `n` bits, with its sign under .sx, has its own bits and copies of its top bit above them. -/
theorem signedField_bits {w n j F : Nat} (hF : F < 2 ^ n) (hw : w ≤ 64) (hj : j < w) (sx : Bool) :
    (if sx && n > 0 && F ≥ 2 ^ (n - 1) then wrap w ((F : Int) - 2 ^ n) else BitVec.ofNat 64 F).getLsbD j =
      if j < n then F.testBit j else sx && decide (0 < n) && F.testBit (n - 1) := by
  have hj64 : j < 64 := by omega
  have hmsb : 0 < n → F.testBit (n - 1) = decide (2 ^ (n - 1) ≤ F) := fun hn => by
    have := BitVec.msb_eq_decide (BitVec.ofNat n F)
    rwa [BitVec.msb_eq_getLsbD_last, BitVec.getLsbD_ofNat, BitVec.toNat_ofNat, Nat.mod_eq_of_lt hF,
      decide_eq_true (by omega), Bool.true_and] at this
  by_cases hneg : (sx && n > 0 && F ≥ 2 ^ (n - 1)) = true
  · simp only [Bool.and_eq_true, decide_eq_true_eq] at hneg
    obtain ⟨⟨hsx, hpos⟩, htop⟩ := hneg
    have hint : (F : Int) - 2 ^ n = (BitVec.ofNat n F).toInt := by
      have hdouble : 2 ^ (n - 1) + 2 ^ (n - 1) = 2 ^ n := Nat.two_pow_pred_add_two_pow_pred hpos
      rw [BitVec.toInt_eq_toNat_cond, BitVec.toNat_ofNat, Nat.mod_eq_of_lt hF, if_neg (by omega)]
      norm_cast
    have hbit : (wrap w ((F : Int) - 2 ^ n)).getLsbD j = ((BitVec.ofNat n F).signExtend w).getLsbD j := by
      rw [wrap_eq_ofInt, hint, BitVec.getLsbD_setWidth, decide_eq_true hj64, Bool.true_and]; rfl
    have hsign : sx && n > 0 && F ≥ 2 ^ (n - 1) := by simp [hsx, hpos, htop]
    rw [if_pos hsign, hbit, BitVec.getLsbD_signExtend, BitVec.msb_eq_getLsbD_last, BitVec.getLsbD_ofNat, BitVec.getLsbD_ofNat]
    by_cases hjn : j < n
    · simp only [hjn, hj, if_true, decide_true, Bool.true_and]
    · have hn : 0 < n := hpos
      have hlast : n - 1 < n := Nat.sub_lt hn Nat.one_pos
      simp only [hjn, hj, hsx, hn, hlast, if_false, decide_true, Bool.true_and]
  · rw [if_neg hneg, BitVec.getLsbD_ofNat, decide_eq_true hj64, Bool.true_and]
    by_cases hjn : j < n
    · rw [if_pos hjn]
    · have hz : F.testBit j = false := Nat.testBit_lt_two_pow (Nat.lt_of_lt_of_le hF (Nat.pow_le_pow_right (by omega) (by omega)))
      rw [if_neg hjn, hz]
      by_cases hn : 0 < n
      · rw [hmsb hn]
        exact (Bool.eq_false_iff.mpr hneg).symm
      · simp [hn]

theorem bfx_bits {w off n j : Nat} {x : W64} (hx : BitsBelow w x) (hw : w ≤ 64) (hj : j < w) (sx : Bool) :
    (fieldOf w off n sx x.toNat).getLsbD j =
      if j < n then x.getLsbD (off + j) else sx && decide (0 < n) && x.getLsbD (off + (n - 1)) := by
  have hlt : (if off ≥ w then 0 else x.toNat / 2 ^ off % 2 ^ n) < 2 ^ n := by
    split
    · exact Nat.two_pow_pos n
    · exact Nat.mod_lt _ (Nat.two_pow_pos n)
  rw [fieldOf, signedField_bits hlt hw hj]
  by_cases hjn : j < n
  · rw [if_pos hjn, if_pos hjn, field_testBit hx hjn]
  · rw [if_neg hjn, if_neg hjn]
    by_cases hn : 0 < n
    · rw [field_testBit hx (by omega)]
    · simp [hn]

/-- BFI's mask has the bits of the field. -/
theorem fieldMask_bits {w off n j : Nat} (hw : w ≤ 64) (hj : j < w) :
    (BitVec.ofNat 64 ((2 ^ n - 1) * 2 ^ off % 2 ^ w)).getLsbD j = decide (off ≤ j ∧ j < off + n) := by
  have hj64 : j < 64 := by omega
  rw [BitVec.getLsbD_ofNat, Nat.testBit_mod_two_pow, ← Nat.shiftLeft_eq, Nat.testBit_shiftLeft, Nat.testBit_two_pow_sub_one]
  simp only [hj, hj64, decide_true, Bool.true_and, ← Bool.decide_and, decide_eq_decide]
  omega

/-- BFI's value: a field of `n` bits of `ins` replaces that of `base` from bit `off` on. -/
def insertField (w off n : Nat) (base ins : W64) : W64 :=
  let m : W64 := BitVec.ofNat 64 ((2 ^ n - 1) * 2 ^ off % 2 ^ w)
  (base &&& ~~~m) ||| ((ins <<< off) &&& m)

theorem bfi_bits {w off n j : Nat} (base ins : W64) (hw : w ≤ 64) (hj : j < w) :
    (insertField w off n base ins).getLsbD j = if off ≤ j ∧ j < off + n then ins.getLsbD (j - off) else base.getLsbD j := by
  have hm := fieldMask_bits (off := off) (n := n) hw hj
  unfold insertField
  generalize BitVec.ofNat 64 ((2 ^ n - 1) * 2 ^ off % 2 ^ w) = m at hm ⊢
  have hj64 : j < 64 := by omega
  by_cases hin : off ≤ j ∧ j < off + n
  · simp only [BitVec.getLsbD_or, BitVec.getLsbD_and, BitVec.getLsbD_not, BitVec.getLsbD_shiftLeft, hm, hin, hj64, Nat.not_lt.mpr hin.1,
      and_self, if_true, decide_true, decide_false, Bool.not_true, Bool.not_false, Bool.and_false, Bool.and_true, Bool.true_and,
      Bool.false_or]
  · simp only [BitVec.getLsbD_or, BitVec.getLsbD_and, BitVec.getLsbD_not, hm, hin, hj64, if_false, decide_true, decide_false,
      Bool.not_false, Bool.and_false, Bool.and_true, Bool.or_false]

/-! ### PRMB (R271) -/

theorem testBit_ofLe (bs : List Byte) (i : Nat) : (ofLe bs).testBit i = (bs.getD (i / 8) 0).getLsbD (i % 8) := by
  induction bs generalizing i with
  | nil => simp [ofLe]
  | cons b r ih =>
    rw [ofLe, show (256 : Nat) = 2 ^ 8 from rfl, Nat.add_comm, Nat.testBit_two_pow_mul_add _ b.isLt]
    by_cases hi : i < 8
    · rw [if_pos hi, Nat.div_eq_of_lt hi, Nat.mod_eq_of_lt hi, List.getD_cons_zero, BitVec.testBit_toNat]
    · have hdiv : i / 8 = (i - 8) / 8 + 1 := by omega
      have hmod : i % 8 = (i - 8) % 8 := by omega
      rw [if_neg hi, ih, hdiv, hmod, List.getD_cons_succ]

theorem getD_leBytes (n v j : Nat) : (leBytes n v).getD j 0 = if j < n then BitVec.ofNat 8 (v / 256 ^ j) else 0 := by
  induction n generalizing v j with
  | zero => simp [leBytes]
  | succ n ih =>
    cases j with
    | zero => simp [leBytes]
    | succ j =>
      rw [leBytes, List.getD_cons_succ, ih, Nat.div_div_eq_div_mul, ← Nat.pow_succ']
      simp

theorem length_leBytes (n v : Nat) : (leBytes n v).length = n := by
  induction n generalizing v with
  | zero => rfl
  | succ n ih => rw [leBytes, List.length_cons, ih]

/-- Bit `k` of byte `j` of two values of `n` bytes, one after the other. -/
theorem pool_bits {n lo hi j k : Nat} (hj : j < 2 * n) (hk : k < 8) :
    ((leBytes n lo ++ leBytes n hi).getD j 0).getLsbD k =
      if j < n then lo.testBit (8 * j + k) else hi.testBit (8 * j + k - 8 * n) := by
  have hbyte : ∀ v i, (BitVec.ofNat 8 (v / 256 ^ i)).getLsbD k = v.testBit (8 * i + k) := fun v i => by
    rw [BitVec.getLsbD_ofNat, show 256 ^ i = 2 ^ (8 * i) by rw [Nat.pow_mul], Nat.testBit_div_two_pow]
    simp [hk, Nat.add_comm]
  by_cases hlow : j < n
  · rw [List.getD_eq_getElem?_getD, List.getElem?_append_left (by rwa [length_leBytes]), ← List.getD_eq_getElem?_getD, getD_leBytes,
      if_pos hlow, if_pos hlow, hbyte]
  · have hplace : 8 * (j - n) + k = 8 * j + k - 8 * n := by omega
    rw [List.getD_eq_getElem?_getD, List.getElem?_append_right (by rw [length_leBytes]; omega), ← List.getD_eq_getElem?_getD,
      length_leBytes, getD_leBytes, if_pos (by omega), if_neg hlow, hbyte, hplace]

/-- Bit `k` of byte `j` of two operands of `w` bits, one after the other. -/
def poolBit (w : Nat) (lo hi : Nat → Bool) (j k : Nat) : Bool := if j < w / 8 then lo (8 * j + k) else hi (8 * j + k - w)

/-- Bit `j` of a number made of bytes. -/
theorem ofLe_map_bits {n j : Nat} (f : Nat → Byte) (hn : n ≤ 8) (hj : j < 8 * n) :
    (BitVec.ofNat 64 (ofLe ((List.range n).map f))).getLsbD j = (f (j / 8)).getLsbD (j % 8) := by
  have hidx : j / 8 < n := by omega
  rw [BitVec.getLsbD_ofNat, decide_eq_true (by omega : j < 64), Bool.true_and, testBit_ofLe]
  simp [List.getD, hidx]

theorem prmb64_bits (lo hi : W64) (sel : W32) {j : Nat} (hj : j < 64) : (prmb64 lo hi sel).getLsbD j =
    poolBit 64 lo.getLsbD hi.getLsbD (sel.toNat / 16 ^ (j / 8) % 16) (j % 8) := by
  rw [prmb64, ofLe_map_bits _ (Nat.le_refl 8) hj, pool_bits (Nat.mod_lt _ (by decide)) (Nat.mod_lt _ (by decide)), poolBit]
  simp only [BitVec.testBit_toNat]

theorem prmb32_bits (lo hi sel : W32) {j : Nat} (hj : j < 32) : (prmb32 lo hi sel).getLsbD j =
    let q := sel.toNat / 16 ^ (j / 8) % 16
    if 8 ≤ q then poolBit 32 lo.getLsbD hi.getLsbD (q - 8) 7 else poolBit 32 lo.getLsbD hi.getLsbD q (j % 8) := by
  rw [prmb32, ofLe_map_bits _ (by decide) hj]
  generalize hq : sel.toNat / 16 ^ (j / 8) % 16 = q
  have hq16 : q < 16 := hq ▸ Nat.mod_lt _ (by decide)
  have hbyte : ∀ i k, i < 8 → k < 8 → ((leBytes 4 lo.toNat ++ leBytes 4 hi.toNat).getD i 0).getLsbD k =
      poolBit 32 lo.getLsbD hi.getLsbD i k := fun i k hi hk => by
    rw [pool_bits (n := 4) hi hk, poolBit]; simp only [BitVec.testBit_toNat]
  by_cases h8 : 8 ≤ q
  · have hmod : q % 8 = q - 8 := by omega
    have hk : j % 8 < 8 := Nat.mod_lt _ (by decide)
    simp only [ge_iff_le, h8, if_true, hmod, ← hbyte (q - 8) 7 (by omega) (by decide)]
    split
    · next hset => rw [hset, show (0xFF : Byte) = BitVec.allOnes 8 from rfl, BitVec.getLsbD_allOnes, decide_eq_true hk]
    · next hclear => rw [Bool.eq_false_iff.mpr hclear]; exact BitVec.getLsbD_zero
  · simp only [ge_iff_le, h8, if_false, Nat.mod_eq_of_lt (Nat.not_le.mp h8)]
    exact hbyte q (j % 8) (Nat.not_le.mp h8) (Nat.mod_lt _ (by decide))

/-! ### From a value instruction's function to the bits of its values -/

section
variable {s : State} {i : Instr} {h : Head} {e : Env} {w64 : Bool} {d a b c : Operand} {rest : List (Role × Operand)}

/-- A value instruction of group 1 computes the bits of its function. -/
theorem computesBits_of_valueOp {v : State → Env → Nat → W64 → W64} {g : Nat → W64 → Nat → Bool}
    (ho : i.operands = (.dst (regsOf w64), d) :: rest) (hg : i.group = some 1)
    (heq : exec i s = s.valueOp i h d (regsOf w64) false fun s e l p => (v s e l p, 0))
    (hbits : ∀ l p j, j < widthOf w64 → (v s e l p).getLsbD j = g l p j) : ComputesBits s i h e d w64 g :=
  ⟨v s e, hbits, computes_of_valueOp (regsOf_cases w64) ho (.inr hg) heq (fun _ _ => rfl) fun _ _ => rfl⟩

/-- A bit instruction of two sources whose function treats every bit alike. -/
theorem computesBits_bitOp2 {f : W64 → W64 → W64} {g : Bool → Bool → Bool} (ho : i.operands = (.dst (regsOf w64), d) :: rest)
    (hg : i.group = some 1) (heq : exec i s = s.bitOp2 i h w64 d a b f)
    (hbit : ∀ x y j, j < 64 → (f x y).getLsbD j = g (x.getLsbD j) (y.getLsbD j)) :
    ComputesBits s i h e d w64 fun l p j => g (s.bitAt e w64 a l p j) (s.bitAt e w64 b l p j) :=
  computesBits_of_valueOp ho hg heq fun l p j hj => by
    rw [hbit _ _ _ (Nat.lt_of_lt_of_le hj (widthOf_le w64)), getLsbD_readInt, getLsbD_readInt]

/-- A shift whose function gives each bit from the bits of its source and the count. -/
theorem computesBits_shiftOp {f : W64 → Nat → W64} {g : (Nat → Bool) → Nat → Nat → Bool}
    (ho : i.operands = (.dst (regsOf w64), d) :: rest) (hg : i.group = some 1) (heq : exec i s = s.shiftOp i h w64 d a b f)
    (hbit : ∀ x k j, BitsBelow (widthOf w64) x → j < widthOf w64 → (f x k).getLsbD j = g x.getLsbD k j) :
    ComputesBits s i h e d w64 fun l p j => g (s.bitAt e w64 a l p) (s.countAt e b l p) j :=
  computesBits_of_valueOp ho hg heq fun l p j hj => by
    rw [hbit _ _ _ (bitsBelow_readInt s e w64 a l p) hj, funext (getLsbD_readInt s e w64 a l p)]; rfl

/-- A count of a source's bits is a value of 32 bits. -/
theorem computes_count {n : Nat → Nat} {P : Nat → (Nat → Bool) → Prop} (ho : i.operands = (.dst 1, d) :: rest) (hg : i.group = some 1)
    (heq : exec i s = s.valueOp i h d 1 false fun s e l p => (BitVec.ofNat 64 (n (s.readInt e (regsOf w64) a l p).toNat), 0))
    (hle : ∀ v, n v ≤ widthOf w64) (hP : ∀ v, P (n v) v.testBit) :
    ∃ f : Nat → W64 → W64, (∀ l p, P (f l p).toNat (s.bitAt e w64 a l p)) ∧ Computes s i h e d 1 false fun l p => (f l p, 0) := by
  refine ⟨fun l p => BitVec.ofNat 64 (n (s.readInt e (regsOf w64) a l p).toNat), fun l p => ?_,
    computes_of_valueOp (.inl rfl) ho (.inr hg) heq (fun _ _ => rfl) fun _ _ => rfl⟩
  rw [toNat_ofNat_count (hle _) (widthOf_le w64), ← funext (testBit_readInt s e w64 a l p)]
  exact hP _

end

/-! ### The instructions as value instructions -/

section
variable (s : State) (h : Head) (w64 : Bool) (d a b c : Operand)

theorem exec_lnot : exec (.lnot h w64 d a) s = s.valueOp (.lnot h w64 d a) h d (regsOf w64) false
    fun s e l p => (~~~(s.readInt e (regsOf w64) a l p), 0) := rfl

theorem exec_brev : exec (.brev h w64 d a) s = s.valueOp (.brev h w64 d a) h d (regsOf w64) false
    fun s e l p => (BitVec.ofNat 64 ((bitsOf (widthOf w64) (s.readInt e (regsOf w64) a l p).toNat).foldl
      (fun acc (b : Bool) => 2 * acc + b.toNat) 0), 0) := rfl

theorem exec_popc : exec (.popc h w64 d a) s = s.valueOp (.popc h w64 d a) h d 1 false fun s e l p =>
    (BitVec.ofNat 64 ((bitsOf (widthOf w64) (s.readInt e (regsOf w64) a l p).toNat).filter id).length, 0) := rfl

theorem exec_clz : exec (.clz h w64 d a) s = s.valueOp (.clz h w64 d a) h d 1 false fun s e l p =>
    (BitVec.ofNat 64 (leadingFalse (bitsOf (widthOf w64) (s.readInt e (regsOf w64) a l p).toNat).reverse), 0) := rfl

theorem exec_ctz : exec (.ctz h w64 d a) s = s.valueOp (.ctz h w64 d a) h d 1 false fun s e l p =>
    (BitVec.ofNat 64 (leadingFalse (bitsOf (widthOf w64) (s.readInt e (regsOf w64) a l p).toNat)), 0) := rfl

theorem exec_bfx (sx : Bool) : exec (.bfx h w64 sx d a c) s = s.valueOp (.bfx h w64 sx d a c) h d (regsOf w64) false
    fun s e l p => (fieldOf (widthOf w64) (position (widthOf w64) (s.read32 e c l p)).1
      (position (widthOf w64) (s.read32 e c l p)).2 sx (s.readInt e (regsOf w64) a l p).toNat, 0) := rfl

theorem exec_bfi : exec (.bfi h w64 d a b c) s = s.valueOp (.bfi h w64 d a b c) h d (regsOf w64) false
    fun s e l p => (insertField (widthOf w64) (position (widthOf w64) (s.read32 e c l p)).1
      (position (widthOf w64) (s.read32 e c l p)).2 (s.readInt e (regsOf w64) a l p) (s.readInt e (regsOf w64) b l p), 0) := rfl

theorem exec_prmb : exec (.prmb h w64 d a b c) s = s.valueOp (.prmb h w64 d a b c) h d (regsOf w64) false
    fun s e l p => (if w64 then prmb64 (s.read64 e a l p) (s.read64 e b l p) (s.read32 e c l p)
      else prmb32 (s.read32 e a l p) (s.read32 e b l p) (s.read32 e c l p), 0) := rfl

end

/-! ### The statement -/

theorem xor_eq_bne (x y : Bool) : (x ^^ y) = (x != y) := by cases x <;> cases y <;> rfl

/-- Logic instructions and BREV, bit by bit (R268). -/
theorem logic_rules (s : State) (h : Head) (e : Env) (w64 : Bool) (d a b : Operand) :
    ComputesBits s (.land h w64 d a b) h e d w64 (fun l p i => s.bitAt e w64 a l p i && s.bitAt e w64 b l p i) ∧
    ComputesBits s (.lor h w64 d a b) h e d w64 (fun l p i => s.bitAt e w64 a l p i || s.bitAt e w64 b l p i) ∧
    ComputesBits s (.lxor h w64 d a b) h e d w64 (fun l p i => s.bitAt e w64 a l p i != s.bitAt e w64 b l p i) ∧
    ComputesBits s (.andn h w64 d a b) h e d w64 (fun l p i => s.bitAt e w64 a l p i && !s.bitAt e w64 b l p i) ∧
    ComputesBits s (.lnot h w64 d a) h e d w64 (fun l p i => !s.bitAt e w64 a l p i) ∧
    ComputesBits s (.brev h w64 d a) h e d w64 (fun l p i => s.bitAt e w64 a l p (widthOf w64 - 1 - i)) := by
  refine ⟨?_, ?_, ?_, ?_, ?_, ?_⟩
  · exact computesBits_bitOp2 (f := fun x y => x &&& y) (g := (· && ·)) rfl rfl rfl fun x y j _ => BitVec.getLsbD_and
  · exact computesBits_bitOp2 (f := fun x y => x ||| y) (g := (· || ·)) rfl rfl rfl fun x y j _ => BitVec.getLsbD_or
  · exact computesBits_bitOp2 (f := fun x y => x ^^^ y) (g := (· != ·)) rfl rfl rfl fun x y j _ => by
      rw [BitVec.getLsbD_xor, xor_eq_bne]
  · exact computesBits_bitOp2 (f := fun x y => x &&& ~~~y) (g := (· && !·)) rfl rfl rfl fun x y j hj => by
      rw [BitVec.getLsbD_and, BitVec.getLsbD_not, decide_eq_true hj, Bool.true_and]
  · refine computesBits_of_valueOp rfl rfl (exec_lnot ..) fun l p j hj => ?_
    rw [BitVec.getLsbD_not, decide_eq_true (Nat.lt_of_lt_of_le hj (widthOf_le w64)), Bool.true_and, getLsbD_readInt]
  · refine computesBits_of_valueOp rfl rfl (exec_brev ..) fun l p j hj => ?_
    rw [BitVec.getLsbD_ofNat, decide_eq_true (Nat.lt_of_lt_of_le hj (widthOf_le w64)), Bool.true_and, brev_bits hj, testBit_readInt]

/-- Shifts, bit by bit (R269). -/
theorem shift_rules (s : State) (h : Head) (e : Env) (w64 : Bool) (d a b : Operand) :
    ComputesBits s (.shl h w64 d a b) h e d w64 (fun l p i =>
      decide (s.countAt e b l p ≤ i) && s.bitAt e w64 a l p (i - s.countAt e b l p)) ∧
    ComputesBits s (.shr h w64 d a b) h e d w64 (fun l p i => s.bitAt e w64 a l p (i + s.countAt e b l p)) ∧
    ComputesBits s (.sar h w64 d a b) h e d w64 (fun l p i =>
      s.bitAt e w64 a l p (min (i + s.countAt e b l p) (widthOf w64 - 1))) ∧
    ComputesBits s (.rol h w64 d a b) h e d w64 (fun l p i =>
      s.bitAt e w64 a l p ((i + widthOf w64 - s.countAt e b l p % widthOf w64) % widthOf w64)) := by
  refine ⟨?_, ?_, ?_, ?_⟩
  · exact computesBits_shiftOp (f := fun x k => if k ≥ widthOf w64 then 0 else x <<< k)
      (g := fun bit k j => decide (k ≤ j) && bit (j - k)) rfl rfl rfl fun x k j _ hj => shl_bits x (widthOf_le w64) hj
  · exact computesBits_shiftOp (f := fun x k => if k ≥ widthOf w64 then 0 else x >>> k)
      (g := fun bit k j => bit (j + k)) rfl rfl rfl fun x k j hx _ => shr_bits hx
  · exact computesBits_shiftOp (f := fun x k => wrap (widthOf w64) ((signedTy w64).value x / 2 ^ (min k (widthOf w64))))
      (g := fun bit k j => bit (min (j + k) (widthOf w64 - 1))) rfl rfl rfl fun x k j _ hj => sar_bits x hj
  · exact computesBits_shiftOp (f := fun x k => (x <<< (k % widthOf w64)) ||| (x >>> (widthOf w64 - k % widthOf w64)))
      (g := fun bit k j => bit ((j + widthOf w64 - k % widthOf w64) % widthOf w64)) rfl rfl rfl fun x k j hx hj =>
        rol_bits (widthOf_le w64) hx (Nat.mod_lt _ (widthOf_pos w64)) hj

/-- POPC, CLZ and CTZ count the bits of their source (R268). -/
theorem count_rules (s : State) (h : Head) (e : Env) (w64 : Bool) (d a : Operand) :
    (∃ f : Nat → W64 → W64, (∀ l p, (f l p).toNat = countTrue (widthOf w64) (s.bitAt e w64 a l p)) ∧
      Computes s (.popc h w64 d a) h e d 1 false (fun l p => (f l p, 0))) ∧
    (∃ f : Nat → W64 → W64,
      (∀ l p, (f l p).toNat ≤ widthOf w64 ∧
        (∀ i, widthOf w64 - (f l p).toNat ≤ i → i < widthOf w64 → s.bitAt e w64 a l p i = false) ∧
        ((f l p).toNat < widthOf w64 → s.bitAt e w64 a l p (widthOf w64 - 1 - (f l p).toNat) = true)) ∧
      Computes s (.clz h w64 d a) h e d 1 false (fun l p => (f l p, 0))) ∧
    (∃ f : Nat → W64 → W64,
      (∀ l p, (f l p).toNat ≤ widthOf w64 ∧ (∀ i, i < (f l p).toNat → s.bitAt e w64 a l p i = false) ∧
        ((f l p).toNat < widthOf w64 → s.bitAt e w64 a l p (f l p).toNat = true)) ∧
      Computes s (.ctz h w64 d a) h e d 1 false (fun l p => (f l p, 0))) := by
  refine ⟨?_, ?_, ?_⟩
  · exact computes_count (n := fun v => ((bitsOf (widthOf w64) v).filter id).length)
      (P := fun n bit => n = countTrue (widthOf w64) bit) rfl rfl (exec_popc ..)
      (fun v => Nat.le_trans (List.length_filter_le ..) (Nat.le_of_eq (length_bitsOf ..))) (popc_count _)
  · exact computes_count (n := fun v => leadingFalse (bitsOf (widthOf w64) v).reverse) (P := fun n bit => n ≤ widthOf w64 ∧ (∀ i, widthOf w64 - n ≤ i → i < widthOf w64 → bit i = false) ∧
      (n < widthOf w64 → bit (widthOf w64 - 1 - n) = true)) rfl rfl (exec_clz ..) (fun v => (clz_spec _ v).1) (clz_spec _)
  · exact computes_count (n := fun v => leadingFalse (bitsOf (widthOf w64) v)) (P := fun n bit => n ≤ widthOf w64 ∧ (∀ i, i < n → bit i = false) ∧ (n < widthOf w64 → bit n = true))
      rfl rfl (exec_ctz ..) (fun v => (ctz_spec _ v).1) (ctz_spec _)

/-- BFX takes a field of its source (R270). -/
theorem bfx_rule (s : State) (h : Head) (e : Env) (w64 sx : Bool) (d a c : Operand) :
    ComputesBits s (.bfx h w64 sx d a c) h e d w64 (fun l p i =>
      let off := s.countAt e c l p % 128
      let n := min (s.countAt e c l p / 256 % 128) (widthOf w64)
      if i < n then s.bitAt e w64 a l p (off + i) else sx && decide (0 < n) && s.bitAt e w64 a l p (off + (n - 1))) := by
  refine computesBits_of_valueOp rfl rfl (exec_bfx ..) fun l p j hj => ?_
  rw [position_eq, bfx_bits (bitsBelow_readInt s e w64 a l p) (widthOf_le w64) hj, getLsbD_readInt, getLsbD_readInt]
  rfl

/-- BFI replaces a field of its source (R270). -/
theorem bfi_rule (s : State) (h : Head) (e : Env) (w64 : Bool) (d a b c : Operand) :
    ComputesBits s (.bfi h w64 d a b c) h e d w64 (fun l p i =>
      let off := s.countAt e c l p % 128
      let n := min (s.countAt e c l p / 256 % 128) (widthOf w64)
      if off ≤ i ∧ i < off + n then s.bitAt e w64 b l p (i - off) else s.bitAt e w64 a l p i) := by
  refine computesBits_of_valueOp rfl rfl (exec_bfi ..) fun l p j hj => ?_
  rw [position_eq, bfi_bits _ _ (widthOf_le w64) hj, getLsbD_readInt, getLsbD_readInt]
  rfl

/-- The bits of a 32-bit operand. -/
theorem getLsbD_read32 (s : State) (e : Env) (x : Operand) (l : Nat) (p : W64) (i : Nat) :
    (s.read32 e x l p).getLsbD i = s.bitAt e false x l p i := by
  rw [← getLsbD_readInt]
  show _ = ((s.read32 e x l p).setWidth 64).getLsbD i
  by_cases hi : i < 64
  · rw [BitVec.getLsbD_setWidth, decide_eq_true hi, Bool.true_and]
  · rw [BitVec.getLsbD_of_ge _ _ (by omega), BitVec.getLsbD_of_ge _ _ (by omega)]

/-- PRMB selects bytes of its two sources (R271). -/
theorem prmb_rule (s : State) (h : Head) (e : Env) (w64 : Bool) (d a b c : Operand) :
    ComputesBits s (.prmb h w64 d a b c) h e d w64 (fun l p i =>
      let pool := poolBit (widthOf w64) (s.bitAt e w64 a l p) (s.bitAt e w64 b l p)
      let sel := s.countAt e c l p / 16 ^ (i / 8) % 16
      if w64 then pool sel (i % 8) else if 8 ≤ sel then pool (sel - 8) 7 else pool sel (i % 8)) := by
  refine computesBits_of_valueOp rfl rfl (exec_prmb ..) fun l p j hj => ?_
  cases w64 with
  | true =>
    rw [if_pos rfl, prmb64_bits _ _ _ hj, ← funext (getLsbD_readInt s e true a l p), ← funext (getLsbD_readInt s e true b l p)]
    rfl
  | false =>
    rw [if_neg Bool.false_ne_true, prmb32_bits _ _ _ hj, funext (getLsbD_read32 s e a l p), funext (getLsbD_read32 s e b l p)]
    rfl

/-- Settles O9: every bit of a result is the bit of an operand that its instruction selects. -/
theorem bitInstructionsByBit : Obligations.BitInstructionsByBit := by
  refine ⟨logic_rules, shift_rules, fun s h e w64 sx d a b c => ?_⟩
  obtain ⟨hpopc, hclz, hctz⟩ := count_rules s h e w64 d a
  exact ⟨hpopc, hclz, hctz, bfx_rule .., bfi_rule .., prmb_rule ..⟩

end Sys2Proof.Machine
end

section
/-!
SUPPORT. Float encodings as numbers (R189, R193, R194): what `Fmt.read` answers in terms of the encoding's fields, the two orders as orders
of exact values, and the instructions that select, change a sign, classify and compare (R291–R293).
-/
namespace Sys2Proof.Machine

/-! ### Reading an encoding -/

/-- The exponent of the smallest subnormal of a format. -/
def Fmt.least (f : Fmt) : Int := f.emin - f.fbits

/-- The magnitude in units that `Fmt.units` gives an infinity. -/
def Fmt.infUnits (f : Fmt) : Int := 2 ^ f.fbits * 2 ^ (2 ^ f.ebits - 1 - 1)

theorem int_two_pow_pos (k : Nat) : (0 : Int) < 2 ^ k := Int.pow_pos (by decide)

theorem magnitude_nonneg (m k : Nat) : 0 ≤ (m : Int) * 2 ^ k := Int.mul_nonneg (Int.natCast_nonneg m) (Int.le_of_lt (int_two_pow_pos k))

theorem magnitude_lt {m k a j b : Nat} (hm : (m : Int) < 2 ^ (a + j)) (hk : j + k ≤ b) : (m : Int) * 2 ^ k < 2 ^ a * 2 ^ b := by
  have hpow : 2 ^ (a + (j + k)) ≤ 2 ^ (a + b) := Nat.pow_le_pow_right (by decide) (Nat.add_le_add_left hk a)
  calc (m : Int) * 2 ^ k < 2 ^ (a + j) * 2 ^ k := Int.mul_lt_mul_of_pos_right hm (int_two_pow_pos k)
    _ = 2 ^ (a + j + k) := (Int.pow_add 2 (a + j) k).symm
    _ = 2 ^ (a + (j + k)) := by rw [Nat.add_assoc]
    _ ≤ 2 ^ (a + b) := by exact_mod_cast hpow
    _ = 2 ^ a * 2 ^ b := Int.pow_add 2 a b

theorem Fmt.infUnits_pos (f : Fmt) : 0 < f.infUnits := Int.mul_pos (int_two_pow_pos _) (int_two_pow_pos _)

theorem Fmt.bits_sub_one (f : Fmt) : f.bits - 1 = f.ebits + f.fbits := by
  unfold Fmt.bits
  omega

theorem Fmt.two_mul_signBit (f : Fmt) : 2 * 2 ^ (f.bits - 1) = 2 ^ f.bits := by
  rw [← Nat.pow_succ', Nat.succ_eq_add_one, Nat.sub_add_cancel (by unfold Fmt.bits; omega)]

theorem Fmt.signBit_eq (f : Fmt) (x : Nat) : (x / 2 ^ (f.ebits + f.fbits) % 2 == 1) = f.negCode x := by
  rw [Fmt.negCode, Fmt.bits_sub_one]
  rfl

theorem Fmt.topExp_expField_ne_zero {f : Fmt} (he : 0 < f.ebits) {x : Nat} (h : f.topExp x) : x / 2 ^ f.fbits % 2 ^ f.ebits ≠ 0 := by
  have htwo : 2 ^ 1 ≤ 2 ^ f.ebits := Nat.pow_le_pow_right (by decide) he
  rw [h]
  omega

section
variable {f : Fmt} {x : Nat} (hf : f.finiteTop = false)
include hf

theorem Fmt.read_of_nanCode (h : f.nanCode x) : f.read x = .nan (decide (x % 2 ^ f.fbits < 2 ^ (f.fbits - 1))) := by
  obtain ⟨htop, hfr⟩ := h
  unfold Fmt.topExp at htop
  simp [Fmt.read, hf, htop, hfr]

theorem Fmt.read_of_infinite (htop : f.topExp x) (hfr : x % 2 ^ f.fbits = 0) : f.read x = .inf (f.negCode x) := by
  unfold Fmt.topExp at htop
  simp only [Fmt.read, Fmt.signBit_eq]
  simp [hf, htop, hfr]

theorem Fmt.read_of_subnormal (htop : ¬ f.topExp x) (hef : x / 2 ^ f.fbits % 2 ^ f.ebits = 0) :
    f.read x = .fin (f.negCode x) (x % 2 ^ f.fbits) f.least := by
  unfold Fmt.topExp at htop
  simp only [Fmt.read, Fmt.signBit_eq, hf, Bool.false_and, Bool.false_eq_true, if_false, Bool.not_false, Bool.true_and, beq_iff_eq, htop,
    if_pos hef, Fmt.least]

theorem Fmt.read_of_normal (htop : ¬ f.topExp x) (hef : x / 2 ^ f.fbits % 2 ^ f.ebits ≠ 0) : f.read x =
    .fin (f.negCode x) (2 ^ f.fbits + x % 2 ^ f.fbits) (f.least + (x / 2 ^ f.fbits % 2 ^ f.ebits - 1 : Nat)) := by
  unfold Fmt.topExp at htop
  have hexp : ((x / 2 ^ f.fbits % 2 ^ f.ebits : Nat) : Int) - f.bias - f.fbits = f.least + (x / 2 ^ f.fbits % 2 ^ f.ebits - 1 : Nat) := by
    unfold Fmt.least Fmt.emin
    omega
  simp only [Fmt.read, Fmt.signBit_eq, hf, Bool.false_and, Bool.false_eq_true, if_false, Bool.not_false, Bool.true_and, beq_iff_eq, htop,
    if_neg hef, hexp]

theorem Fmt.isNan_read : (f.read x).isNan = true ↔ f.nanCode x := by
  by_cases hnan : f.nanCode x
  · simp [Fmt.read_of_nanCode hf hnan, Num.isNan, hnan]
  · simp only [hnan, iff_false]
    by_cases htop : f.topExp x
    · simp [Fmt.read_of_infinite hf htop (Classical.byContradiction fun hfr => hnan ⟨htop, hfr⟩), Num.isNan]
    · by_cases hef : x / 2 ^ f.fbits % 2 ^ f.ebits = 0
      · simp [Fmt.read_of_subnormal hf htop hef, Num.isNan]
      · simp [Fmt.read_of_normal hf htop hef, Num.isNan]

theorem Fmt.isSnan_read : (f.read x).isSnan = true ↔ f.snanCode x := by
  by_cases hnan : f.nanCode x
  · simp [Fmt.read_of_nanCode hf hnan, Num.isSnan, Fmt.snanCode, hnan]
  · have hread : (f.read x).isNan = false := Bool.eq_false_iff.mpr (mt (Fmt.isNan_read hf).mp hnan)
    have hsnan : ¬ f.snanCode x := fun h => hnan h.1
    simp only [hsnan, iff_false]
    cases hx : f.read x <;> simp_all [Num.isNan, Num.isSnan]

end

/-! ### Values in units of the smallest subnormal -/

/-- The value in units, with the sign taken apart. -/
theorem Fmt.units_eq (f : Fmt) (x : Nat) : f.units x =
    let u : Int := if x / 2 ^ f.fbits % 2 ^ f.ebits = 0 then (x % 2 ^ f.fbits : Nat)
      else (2 ^ f.fbits + (x % 2 ^ f.fbits : Nat)) * 2 ^ (x / 2 ^ f.fbits % 2 ^ f.ebits - 1)
    if f.negCode x then -u else u := by
  simp only [Fmt.units, Fmt.negCode, Fmt.bits_sub_one, decide_eq_true_eq]

theorem unitsOf_eq (neg : Bool) (m : Nat) (e q : Int) : unitsOf neg m e q =
    if neg then -((m : Int) * 2 ^ (e - q).toNat) else (m : Int) * 2 ^ (e - q).toNat := rfl

@[simp] theorem unitsOf_false (m : Nat) (e q : Int) : unitsOf false m e q = m * 2 ^ (e - q).toNat := rfl

@[simp] theorem unitsOf_true (m : Nat) (e q : Int) : unitsOf true m e q = -(m * 2 ^ (e - q).toNat) := rfl

@[simp] theorem unitsOf_zero (neg : Bool) (e q : Int) : unitsOf neg 0 e q = 0 := by
  cases neg <;> simp only [unitsOf_false, unitsOf_true, Int.natCast_zero, Int.zero_mul, Int.neg_zero]

theorem unitsOf_eq_zero (neg : Bool) (m : Nat) (e q : Int) : unitsOf neg m e q = 0 ↔ m = 0 := by
  have hpow := int_two_pow_pos (e - q).toNat
  have hmul : (m : Int) * 2 ^ (e - q).toNat = 0 ↔ m = 0 := by
    rw [Int.mul_eq_zero]
    omega
  cases neg
  · exact hmul
  · rw [unitsOf_true, Int.neg_eq_zero, hmul]

/-- A number that is read, in units of 2^q: an infinity counts as what `Fmt.units` makes of it. -/
inductive Fmt.ReadsAs (f : Fmt) (x : Nat) : Num → Prop
  | inf (h : f.units x = if f.negCode x then -f.infUnits else f.infUnits) : f.ReadsAs x (.inf (f.negCode x))
  | fin (m : Nat) (e : Int) (he : f.least ≤ e) (h : f.units x = unitsOf (f.negCode x) m e f.least)
      (hlt : (m : Int) * 2 ^ (e - f.least).toNat < f.infUnits) : f.ReadsAs x (.fin (f.negCode x) m e)

theorem Fmt.fraction_lt (f : Fmt) (x : Nat) : ((x % 2 ^ f.fbits : Nat) : Int) < 2 ^ f.fbits := by
  exact_mod_cast Nat.mod_lt x (Nat.two_pow_pos f.fbits)

theorem Fmt.readsAs {f : Fmt} (hf : f.finiteTop = false) (he : 0 < f.ebits) {x : Nat} (hnan : ¬ f.nanCode x) :
    f.ReadsAs x (f.read x) := by
  have hfrac := f.fraction_lt x
  have hval := f.units_eq x
  by_cases htop : f.topExp x
  · have hfr : x % 2 ^ f.fbits = 0 := Classical.byContradiction fun hfr => hnan ⟨htop, hfr⟩
    rw [Fmt.read_of_infinite hf htop hfr]
    refine .inf ?_
    have hef := Fmt.topExp_expField_ne_zero he htop
    unfold Fmt.topExp at htop
    rw [htop] at hval hef
    simpa [hef, hfr, Fmt.infUnits] using hval
  · by_cases hef : x / 2 ^ f.fbits % 2 ^ f.ebits = 0
    · rw [Fmt.read_of_subnormal hf htop hef]
      refine .fin _ _ (Int.le_refl _) ?_ ?_
      · rw [hval, if_pos hef, unitsOf_eq, Int.sub_self, Int.toNat_zero, Int.pow_zero, Int.mul_one]
      · rw [Int.sub_self, Int.toNat_zero]
        exact magnitude_lt (j := 0) hfrac (Nat.zero_le _)
    · rw [Fmt.read_of_normal hf htop hef]
      have hk (ef : Nat) : (f.least + (ef - 1 : Nat) - f.least).toNat = ef - 1 := by omega
      refine .fin _ _ (by omega) ?_ ?_
      · rw [hval, if_neg hef, unitsOf_eq, hk]
        rfl
      · unfold Fmt.topExp at htop
        have hfield : x / 2 ^ f.fbits % 2 ^ f.ebits < 2 ^ f.ebits := Nat.mod_lt _ (Nat.two_pow_pos _)
        generalize x / 2 ^ f.fbits % 2 ^ f.ebits = ef at *
        have hm : ((2 ^ f.fbits + x % 2 ^ f.fbits : Nat) : Int) < 2 ^ (f.fbits + 1) := by
          have hlow := Nat.mod_lt x (Nat.two_pow_pos f.fbits)
          have hcode : 2 ^ f.fbits + x % 2 ^ f.fbits < 2 ^ (f.fbits + 1) := by omega
          exact_mod_cast hcode
        rw [hk]
        exact magnitude_lt (j := 1) hm (by omega)

/-! ### The two orders -/

theorem unitsOf_bounds {m : Nat} {e q b : Int} (h : (m : Int) * 2 ^ (e - q).toNat < b) (neg : Bool) :
    -b < unitsOf neg m e q ∧ unitsOf neg m e q < b := by
  have hnonneg := magnitude_nonneg m (e - q).toNat
  cases neg
  · rw [unitsOf_false]
    omega
  · rw [unitsOf_true]
    omega

theorem unitsOf_finer (neg : Bool) (m : Nat) {e q p : Int} (hpq : p ≤ q) (hqe : q ≤ e) :
    unitsOf neg m e p = unitsOf neg m e q * 2 ^ (q - p).toNat := by
  have hexp : (e - p).toNat = (e - q).toNat + (q - p).toNat := by omega
  have hmul : (m : Int) * 2 ^ (e - p).toNat = m * 2 ^ (e - q).toNat * 2 ^ (q - p).toNat := by
    rw [hexp, Int.mul_assoc]
    exact congrArg _ (Int.pow_add 2 _ _)
  cases neg
  · exact hmul
  · rw [unitsOf_true, unitsOf_true, hmul, Int.neg_mul]

/-- Two numbers compare alike in any units that are fine enough. -/
theorem unitsOf_lt_iff (x y : Bool) (m n : Nat) {e g p : Int} (he : p ≤ e) (hg : p ≤ g) :
    unitsOf x m e (min e g) < unitsOf y n g (min e g) ↔ unitsOf x m e p < unitsOf y n g p := by
  rw [unitsOf_finer x m (p := p) (q := min e g) (by omega) (by omega), unitsOf_finer y n (p := p) (q := min e g) (by omega) (by omega)]
  exact (Int.mul_lt_mul_right (int_two_pow_pos _)).symm

/-- Zeros of opposite sign apart, the selection order is the numeric one (R194). -/
theorem selLess_eq (a b : Num) : selLess a b = (numLess a b || (a.isZero && b.isZero && a.neg && !b.neg)) := by
  cases a with
  | nan => cases b <;> simp [selLess, numLess, Num.isZero]
  | inf x => cases b <;> simp [selLess, numLess, Num.isZero]
  | fin x m e =>
    cases b with
    | nan => simp [selLess, numLess, Num.isZero]
    | inf y => simp [selLess, numLess, Num.isZero]
    | fin y n g =>
      have hzero : m = 0 → n = 0 → unitsOf x m e (min e g) = unitsOf y n g (min e g) := by
        rintro rfl rfl
        rw [unitsOf_zero, unitsOf_zero]
      rw [Bool.eq_iff_iff]
      simp only [selLess, numLess, Num.isZero, Num.neg, Bool.or_eq_true, Bool.and_eq_true, beq_iff_eq]
      exact or_congr_right ⟨fun ⟨⟨⟨⟨_, hm⟩, hn⟩, hx⟩, hy⟩ => ⟨⟨⟨hm, hn⟩, hx⟩, hy⟩,
        fun ⟨⟨⟨hm, hn⟩, hx⟩, hy⟩ => ⟨⟨⟨⟨hzero hm hn, hm⟩, hn⟩, hx⟩, hy⟩⟩

theorem Fmt.magnitude_field_nonneg (f : Fmt) (x : Nat) : 0 ≤ if x / 2 ^ f.fbits % 2 ^ f.ebits = 0 then ((x % 2 ^ f.fbits : Nat) : Int)
    else (2 ^ f.fbits + (x % 2 ^ f.fbits : Nat)) * 2 ^ (x / 2 ^ f.fbits % 2 ^ f.ebits - 1) := by
  have hfrac : 0 ≤ ((x % 2 ^ f.fbits : Nat) : Int) := Int.natCast_nonneg _
  split
  · exact hfrac
  · exact Int.mul_nonneg (Int.add_nonneg (Int.le_of_lt (int_two_pow_pos _)) hfrac) (Int.le_of_lt (int_two_pow_pos _))

theorem Fmt.units_nonpos {f : Fmt} {x : Nat} (h : f.negCode x = true) : f.units x ≤ 0 := by
  rw [Fmt.units_eq, h]
  exact Int.neg_nonpos_of_nonneg (f.magnitude_field_nonneg x)

theorem Fmt.units_nonneg {f : Fmt} {x : Nat} (h : f.negCode x = false) : 0 ≤ f.units x := by
  rw [Fmt.units_eq, h]
  exact f.magnitude_field_nonneg x

section
variable {f : Fmt} {x y : Nat} {a b : Num}

/-- The numeric order is that of the values (R194). -/
theorem Fmt.ReadsAs.numLess_iff (hx : f.ReadsAs x a) (hy : f.ReadsAs y b) : numLess a b = true ↔ f.units x < f.units y := by
  have hpos := f.infUnits_pos
  cases hx with
  | inf hx =>
    cases hy with
    | inf hy =>
      rw [hx, hy]
      cases f.negCode x <;> cases f.negCode y <;> simp [numLess] <;> omega
    | fin n g hg hy hlt =>
      have hb := unitsOf_bounds hlt (f.negCode y)
      rw [hx, hy]
      cases f.negCode x <;> simp [numLess] <;> omega
  | fin m e he hx hlt =>
    cases hy with
    | inf hy =>
      have hb := unitsOf_bounds hlt (f.negCode x)
      rw [hx, hy]
      cases f.negCode y <;> simp [numLess] <;> omega
    | fin n g hg hy hlt' =>
      rw [hx, hy, ← unitsOf_lt_iff _ _ m n he hg]
      simp [numLess]

theorem Fmt.ReadsAs.neg_eq (hx : f.ReadsAs x a) : a.neg = f.negCode x := by
  cases hx <;> rfl

theorem Fmt.ReadsAs.isZero_iff (hx : f.ReadsAs x a) : a.isZero = true ↔ f.units x = 0 := by
  have hpos := f.infUnits_pos
  cases hx with
  | inf hx =>
    rw [hx]
    cases f.negCode x <;> simp [Num.isZero] <;> omega
  | fin m e he hx hlt =>
    rw [hx]
    rw [unitsOf_eq_zero]
    exact beq_iff_eq

/-- The selection order is that of the values, and between equal ones −0 lies below +0 (R194). -/
theorem Fmt.ReadsAs.selLess_iff (hx : f.ReadsAs x a) (hy : f.ReadsAs y b) : selLess a b = true ↔
    f.units x < f.units y ∨ f.units x = f.units y ∧ f.negCode x = true ∧ f.negCode y = false := by
  have hopposite : f.negCode x = true → f.negCode y = false → (f.units x = 0 ∧ f.units y = 0 ↔ f.units x = f.units y) := by
    intro hnx hny
    have := Fmt.units_nonpos hnx
    have := Fmt.units_nonneg hny
    omega
  simp only [selLess_eq, Bool.or_eq_true, Bool.and_eq_true, Bool.not_eq_true', hx.numLess_iff hy, hx.isZero_iff, hy.isZero_iff, hx.neg_eq,
    hy.neg_eq]
  exact or_congr_right ⟨fun ⟨⟨hzero, hnx⟩, hny⟩ => ⟨(hopposite hnx hny).mp hzero, hnx, hny⟩,
    fun ⟨heq, hnx, hny⟩ => ⟨⟨(hopposite hnx hny).mpr heq, hnx⟩, hny⟩⟩

end

/-! ### Flags -/

theorem flagIf_cases {c : Bool} {p : Prop} (h : c = true ↔ p) (fl : Flags) : flagIf c fl = fl ∧ p ∨ flagIf c fl = 0 ∧ ¬ p := by
  cases c
  · exact .inr ⟨rfl, mt h.mpr Bool.false_ne_true⟩
  · exact .inl ⟨rfl, h.mp rfl⟩

/-! ### The operations on encodings (R291–R293) -/

/-- `x` is not below `y` in the selection order (R194). -/
def Fmt.NotBelow (f : Fmt) (x y : Nat) : Prop :=
  f.units y < f.units x ∨ (f.units y = f.units x ∧ x / 2 ^ (f.bits - 1) ≤ y / 2 ^ (f.bits - 1))

theorem Fmt.notBelow_refl (f : Fmt) (x : Nat) : f.NotBelow x x := .inr ⟨rfl, Nat.le_refl _⟩

/-- Of two encodings of a format, the first alone has its sign bit set where what lies above its low bits is the greater. -/
theorem Fmt.negCode_and_not_iff {f : Fmt} {x y : Nat} (hx : x < 2 ^ f.bits) (hy : y < 2 ^ f.bits) :
    f.negCode x = true ∧ f.negCode y = false ↔ y / 2 ^ (f.bits - 1) < x / 2 ^ (f.bits - 1) := by
  rw [← f.two_mul_signBit, Nat.mul_comm] at hx hy
  have hx2 := Nat.div_lt_of_lt_mul hx
  have hy2 := Nat.div_lt_of_lt_mul hy
  simp only [Fmt.negCode, decide_eq_true_eq, decide_eq_false_iff_not]
  generalize x / 2 ^ (f.bits - 1) = q at *
  generalize y / 2 ^ (f.bits - 1) = r at *
  omega

/-- Adding the sign bit inverts it. -/
theorem add_mod_two_mul (x : Nat) {top : Nat} (h : 0 < top) :
    (x + top) % (2 * top) = if x / top % 2 = 1 then x % top else top + x % top := by
  rw [Nat.mul_comm, Nat.mod_mul, Nat.add_mod_right, Nat.add_div_right x h]
  rcases Nat.mod_two_eq_zero_or_one (x / top) with hq | hq
  · have hnext : (x / top).succ % 2 = 1 := by omega
    rw [hnext, Nat.mul_one, if_neg (by omega), Nat.add_comm]
  · have hnext : (x / top).succ % 2 = 0 := by omega
    rw [hnext, Nat.mul_zero, if_pos hq, Nat.add_zero]

section
variable {f : Fmt} {x y : Nat} (hf : f.finiteTop = false)
include hf

theorem Fmt.isNan_or_read : ((f.read x).isNan || (f.read y).isNan) = true ↔ f.nanCode x ∨ f.nanCode y := by
  rw [Bool.or_eq_true, Fmt.isNan_read hf, Fmt.isNan_read hf]

theorem Fmt.isSnan_or_read : ((f.read x).isSnan || (f.read y).isSnan) = true ↔ f.snanCode x ∨ f.snanCode y := by
  rw [Bool.or_eq_true, Fmt.isSnan_read hf, Fmt.isSnan_read hf]

/-- A selection with a NaN gives the canonical NaN, and is invalid where one signals (R193). -/
theorem Fmt.select_nan (greater : Bool) (h : f.nanCode x ∨ f.nanCode y) : (f.select greater x y).1 = f.nan ∧
    ((f.select greater x y).2 = fNV ∧ (f.snanCode x ∨ f.snanCode y) ∨
      (f.select greater x y).2 = 0 ∧ ¬ f.snanCode x ∧ ¬ f.snanCode y) := by
  have hsel : f.select greater x y = (f.nan, flagIf ((f.read x).isSnan || (f.read y).isSnan) fNV) := by
    simp only [Fmt.select, if_pos ((Fmt.isNan_or_read hf).mpr h), snanFlag, List.any_cons, List.any_nil, Bool.or_false]
  rw [hsel, ← not_or]
  exact ⟨rfl, flagIf_cases (Fmt.isSnan_or_read hf) fNV⟩

theorem Fmt.selLess_read (he : 0 < f.ebits) (hx : x < 2 ^ f.bits) (hy : y < 2 ^ f.bits) (hnx : ¬ f.nanCode x) (hny : ¬ f.nanCode y) :
    selLess (f.read x) (f.read y) = true ↔ ¬ f.NotBelow x y := by
  rw [(Fmt.readsAs hf he hnx).selLess_iff (Fmt.readsAs hf he hny), Fmt.negCode_and_not_iff hx hy, Fmt.NotBelow]
  generalize x / 2 ^ (f.bits - 1) = q
  generalize y / 2 ^ (f.bits - 1) = r
  omega

/-- Of two numbers the one selected is not below either of them where the greater is asked for, else not above (R291). -/
theorem Fmt.select_number (he : 0 < f.ebits) (hx : x < 2 ^ f.bits) (hy : y < 2 ^ f.bits) (greater : Bool)
    (h : ¬ f.nanCode x ∧ ¬ f.nanCode y) :
    let r := f.select greater x y
    (r.1 = x ∨ r.1 = y) ∧ r.2 = 0 ∧ (if greater then f.NotBelow r.1 x else f.NotBelow x r.1) ∧
      if greater then f.NotBelow r.1 y else f.NotBelow y r.1 := by
  have hno : ¬ ((f.read x).isNan || (f.read y).isNan) = true := fun hn => ((Fmt.isNan_or_read hf).mp hn).elim h.1 h.2
  have hxy := Fmt.selLess_read hf he hx hy h.1 h.2
  have hyx := Fmt.selLess_read hf he hy hx h.2 h.1
  have htotal : f.NotBelow x y ∨ f.NotBelow y x := by
    unfold Fmt.NotBelow
    generalize x / 2 ^ (f.bits - 1) = q
    generalize y / 2 ^ (f.bits - 1) = r
    omega
  have hrx := f.notBelow_refl x
  have hry := f.notBelow_refl y
  cases greater with
  | true =>
    by_cases hb : f.NotBelow x y
    · simp [Fmt.select, hno, hxy, hb, hrx]
    · simp [Fmt.select, hno, hxy, hb, hry, htotal.resolve_left hb]
  | false =>
    by_cases hb : f.NotBelow y x
    · simp [Fmt.select, hno, hyx, hb, hrx]
    · simp [Fmt.select, hno, hyx, hb, hry, htotal.resolve_right hb]

theorem Fmt.abs_nan (h : f.nanCode x) : f.abs x = f.nan := if_pos ((Fmt.isNan_read hf).mpr h)

theorem Fmt.abs_number (h : ¬ f.nanCode x) : f.abs x = x % 2 ^ (f.bits - 1) := by
  rw [Fmt.bits_sub_one]
  exact if_neg (mt (Fmt.isNan_read hf).mp h)

theorem Fmt.negate_nan (h : f.nanCode x) : f.negate x = f.nan := if_pos ((Fmt.isNan_read hf).mpr h)

theorem Fmt.negate_number (he : 0 < f.ebits) (h : ¬ f.nanCode x) : f.negate x = (x + 2 ^ (f.bits - 1)) % (2 * 2 ^ (f.bits - 1)) := by
  rw [Fmt.negate, if_neg (mt (Fmt.isNan_read hf).mp h), (Fmt.readsAs hf he h).neg_eq, add_mod_two_mul x (Nat.two_pow_pos _), Fmt.negCode,
    Fmt.bits_sub_one, Fmt.signed]
  by_cases hneg : x / 2 ^ (f.ebits + f.fbits) % 2 = 1 <;> simp [hneg]

theorem Fmt.classify_snan (h : f.snanCode x) : f.classify x = 1 := by
  simp only [Fmt.classify, Fmt.read_of_nanCode hf h.1, decide_eq_true h.2, if_true]

theorem Fmt.classify_qnan (h : f.nanCode x) (hs : ¬ f.snanCode x) : f.classify x = 2 := by
  have hq : ¬ x % 2 ^ f.fbits < 2 ^ (f.fbits - 1) := fun hlt => hs ⟨h, hlt⟩
  simp only [Fmt.classify, Fmt.read_of_nanCode hf h, decide_eq_false hq, Bool.false_eq_true, if_false]

theorem Fmt.classify_infinite (htop : f.topExp x) (hfr : x % 2 ^ f.fbits = 0) :
    f.classify x = if x / 2 ^ (f.bits - 1) % 2 = 1 then 4 else 512 := by
  simp only [Fmt.classify, Fmt.read_of_infinite hf htop hfr, Fmt.negCode, decide_eq_true_eq, Nat.reducePow]

theorem Fmt.classify_normal (htop : ¬ f.topExp x) (hef : x / 2 ^ f.fbits % 2 ^ f.ebits ≠ 0) :
    f.classify x = if x / 2 ^ (f.bits - 1) % 2 = 1 then 8 else 256 := by
  simp [Fmt.classify, Fmt.read_of_normal hf htop hef, Fmt.negCode]

theorem Fmt.classify_subnormal (he : 0 < f.ebits) (hef : x / 2 ^ f.fbits % 2 ^ f.ebits = 0) (hfr : x % 2 ^ f.fbits ≠ 0) :
    f.classify x = if x / 2 ^ (f.bits - 1) % 2 = 1 then 16 else 128 := by
  have hsmall : ¬ 2 ^ f.fbits ≤ x % 2 ^ f.fbits := Nat.not_le.mpr (Nat.mod_lt x (Nat.two_pow_pos _))
  simp [Fmt.classify, Fmt.read_of_subnormal hf (fun htop => Fmt.topExp_expField_ne_zero he htop hef) hef, hfr, hsmall, Fmt.negCode]

theorem Fmt.classify_zero (he : 0 < f.ebits) (hef : x / 2 ^ f.fbits % 2 ^ f.ebits = 0) (hfr : x % 2 ^ f.fbits = 0) :
    f.classify x = if x / 2 ^ (f.bits - 1) % 2 = 1 then 32 else 64 := by
  simp [Fmt.classify, Fmt.read_of_subnormal hf (fun htop => Fmt.topExp_expField_ne_zero he htop hef) hef, hfr, Fmt.negCode]

/-- A comparison is true where its condition holds of the values (R194). -/
theorem Fmt.compare_truth (he : 0 < f.ebits) (c : FloatCond) : (f.compare c x y).1 = true ↔ f.truth c x y := by
  by_cases hnan : f.nanCode x ∨ f.nanCode y
  · have hn := (Fmt.isNan_or_read hf).mpr hnan
    have heq : numEq (f.read x) (f.read y) = false := by
      rw [numEq, ← Bool.not_or, hn]
      rfl
    cases c <;> simp [Fmt.compare, Fmt.truth, hn, heq, hnan]
  · have hn : ((f.read x).isNan || (f.read y).isNan) = false := Bool.eq_false_iff.mpr (mt (Fmt.isNan_or_read hf).mp hnan)
    obtain ⟨hx, hy⟩ := not_or.mp hnan
    have hxy := (Fmt.readsAs hf he hx).numLess_iff (Fmt.readsAs hf he hy)
    have hyx := (Fmt.readsAs hf he hy).numLess_iff (Fmt.readsAs hf he hx)
    have heq : numEq (f.read x) (f.read y) = true ↔ f.units x = f.units y := by
      rw [numEq, ← Bool.not_or, hn]
      simp only [Bool.not_false, Bool.true_and, Bool.and_eq_true, Bool.not_eq_true', Bool.eq_false_iff, ne_eq, hxy, hyx]
      omega
    cases c <;> simp [Fmt.compare, Fmt.truth, hn, hnan, heq, hxy, hyx, Bool.eq_false_iff]

/-- A comparison is invalid for a signalling NaN, and in an ordering condition for every NaN (R194). -/
theorem Fmt.compare_flags (c : FloatCond) :
    (f.compare c x y).2 = fNV ∧ (f.snanCode x ∨ f.snanCode y ∨ c.ordering = true ∧ (f.nanCode x ∨ f.nanCode y)) ∨
      (f.compare c x y).2 = 0 ∧ ¬ f.snanCode x ∧ ¬ f.snanCode y ∧ (c.ordering = true → ¬ f.nanCode x ∧ ¬ f.nanCode y) := by
  have hflag : (f.compare c x y).2 =
      flagIf (if c.ordering then (f.read x).isNan || (f.read y).isNan else (f.read x).isSnan || (f.read y).isSnan) fNV := by
    cases c <;> rfl
  have hsx : f.snanCode x → f.nanCode x := And.left
  have hsy : f.snanCode y → f.nanCode y := And.left
  rw [hflag]
  cases c.ordering with
  | true =>
    rcases flagIf_cases (Fmt.isNan_or_read (x := x) (y := y) hf) fNV with ⟨hfl, hn⟩ | ⟨hfl, hn⟩
    · exact .inl ⟨hfl, .inr (.inr ⟨rfl, hn⟩)⟩
    · obtain ⟨hx, hy⟩ := not_or.mp hn
      exact .inr ⟨hfl, mt hsx hx, mt hsy hy, fun _ => ⟨hx, hy⟩⟩
  | false =>
    rcases flagIf_cases (Fmt.isSnan_or_read (x := x) (y := y) hf) fNV with ⟨hfl, hs⟩ | ⟨hfl, hs⟩
    · exact .inl ⟨hfl, hs.elim .inl fun hy => .inr (.inl hy)⟩
    · obtain ⟨hx, hy⟩ := not_or.mp hs
      exact .inr ⟨hfl, hx, hy, fun hno => absurd hno Bool.false_ne_true⟩

end

/-! ### Operands are encodings of their format -/

theorem Fmt.signed_lt {f : Fmt} {n : Nat} (h : n < 2 ^ (f.ebits + f.fbits)) (neg : Bool) : f.signed neg n < 2 ^ f.bits := by
  have htwo : 2 ^ f.bits = 2 ^ (f.ebits + f.fbits) + 2 ^ (f.ebits + f.fbits) := by
    rw [← f.two_mul_signBit, f.bits_sub_one, Nat.two_mul]
  cases neg <;> simp only [Fmt.signed, Bool.false_eq_true, if_true, if_false] <;> omega

theorem Fmt.topExp_code_lt (f : Fmt) : (2 ^ f.ebits - 1) * 2 ^ f.fbits < 2 ^ (f.ebits + f.fbits) := by
  rw [Nat.pow_add]
  exact Nat.mul_lt_mul_of_pos_right (Nat.sub_lt (Nat.two_pow_pos _) Nat.one_pos) (Nat.two_pow_pos _)

theorem Fmt.maxCode_lt (f : Fmt) : f.maxCode < 2 ^ (f.ebits + f.fbits) := by
  have hpos : 0 < 2 ^ (f.ebits + f.fbits) := Nat.two_pow_pos _
  have htop := f.topExp_code_lt
  unfold Fmt.maxCode
  split <;> omega

theorem Fmt.overflow_lt (f : Fmt) (rm : Rounding) (neg : Bool) : f.overflow rm neg < 2 ^ f.bits := by
  have hmax (n : Bool) : f.signed n f.maxCode < 2 ^ f.bits := Fmt.signed_lt f.maxCode_lt n
  have hinf (n : Bool) : f.inf n < 2 ^ f.bits := Fmt.signed_lt f.topExp_code_lt n
  unfold Fmt.overflow
  split
  · exact hmax neg
  · split <;> simp only [hmax, hinf]

/-- What is rounded into a format is an encoding of it. -/
theorem Fmt.round_lt (f : Fmt) (rm : Rounding) (neg : Bool) (m : Nat) (e : Int) : (f.round rm neg m e).1 < 2 ^ f.bits := by
  unfold Fmt.round
  split
  · exact Fmt.signed_lt (Nat.two_pow_pos _) neg
  · dsimp only
    split <;> exact iteInduction (motive := fun r : Nat × Flags => r.1 < 2 ^ f.bits) (fun _ => f.overflow_lt rm neg) fun hmax =>
      Fmt.signed_lt (Nat.lt_of_le_of_lt (Nat.not_lt.mp hmax) f.maxCode_lt) neg

theorem FloatTy.finiteTop_fmt (t : FloatTy) : t.fmt.finiteTop = false := by cases t <;> rfl

theorem FloatTy.ebits_pos (t : FloatTy) : 0 < t.fmt.ebits := by cases t <;> decide

theorem FloatTy.nan_fmt (t : FloatTy) : t.fmt.nan = t.canonicalNan := by cases t <;> rfl

theorem FloatTy.regsOf_bits (t : FloatTy) : regsOf (t.fmt.bits == 64) = t.regs := by cases t <;> rfl

theorem FloatTy.regs_cases (t : FloatTy) : t.regs = 1 ∨ t.regs = 2 := by
  cases t
  case f64 => exact .inr rfl
  all_goals exact .inl rfl

/-- A float operand is an encoding of its format (R231). -/
theorem readFloat_lt (s : State) (e : Env) (f : Fmt) (x : Operand) (l : Nat) (p : W64) : s.readFloat e f x l p < 2 ^ f.bits := by
  unfold State.readFloat
  split
  · exact f.round_lt ..
  · split
    · next h64 =>
      rw [h64]
      exact BitVec.isLt _
    · exact Nat.mod_lt _ (Nat.two_pow_pos _)

/-! ### The instructions -/

/-- A float instruction of group 2 with a V or O destination computes what its function gives. -/
theorem computesFloat_of_laneOp {s : State} {i : Instr} {h : Head} {e : Env} {d : Operand} {regs : Nat}
    {f : State → Env → Nat → W64 → Nat × Flags} {P : Nat → W64 → Nat × Flags → Prop} {rest : List (Role × Operand)}
    (hr : regs = 1 ∨ regs = 2) (ho : i.operands = (.dstVO regs, d) :: rest) (hg : i.group = some 2)
    (heq : exec i s = s.runWord i h fun s e => s.laneOp e i d regs fun l p => bits64 (f s e l p)) (hP : ∀ l p, P l p (f s e l p)) :
    ComputesFloat s i h e d regs P :=
  ⟨f s e, hP, fun hx => floatOp_rule (f := fun s e l p => bits64 (f s e l p)) hx hr ho (.inl hg) heq⟩

section
variable {s : State} {i : Instr} {h : Head} {e : Env} {t : FloatTy} {d a b : Operand} {P : Nat → W64 → Nat × Flags → Prop}
  {rest : List (Role × Operand)}

/-- A float instruction of one source computes its function of the source's encoding. -/
theorem computesFloat_op1 (g : Nat → Nat × Flags) (ho : i.operands = (.dstVO t.regs, d) :: rest) (hg : i.group = some 2)
    (heq : exec i s = s.floatOp1 i h t.fmt d a g) (hP : ∀ l p, P l p (g (s.readFloat e t.fmt a l p))) :
    ComputesFloat s i h e d t.regs P := by
  refine computesFloat_of_laneOp (f := fun s e l p => g (s.readFloat e t.fmt a l p)) (FloatTy.regs_cases t) ho hg ?_ hP
  rw [heq, State.floatOp1, FloatTy.regsOf_bits]

/-- A float instruction of two sources computes its function of the sources' encodings. -/
theorem computesFloat_op2 (g : Nat → Nat → Nat × Flags) (ho : i.operands = (.dstVO t.regs, d) :: rest) (hg : i.group = some 2)
    (heq : exec i s = s.floatOp2 i h t.fmt d a b g)
    (hP : ∀ l p, P l p (g (s.readFloat e t.fmt a l p) (s.readFloat e t.fmt b l p))) : ComputesFloat s i h e d t.regs P := by
  refine computesFloat_of_laneOp (f := fun s e l p => g (s.readFloat e t.fmt a l p) (s.readFloat e t.fmt b l p))
    (FloatTy.regs_cases t) ho hg ?_ hP
  rw [heq, State.floatOp2, FloatTy.regsOf_bits]

end

/-- Settles O14: each instruction's function, on encodings as exact numbers, is what is claimed of its results and flags. -/
theorem floatSelectionAndClasses : Obligations.FloatSelectionAndClasses := by
  intro s h e t cond d a b f rd top above selects
  have hf : f.finiteTop = false := FloatTy.finiteTop_fmt t
  have he : 0 < f.ebits := FloatTy.ebits_pos t
  have hnan : f.nan = t.canonicalNan := FloatTy.nan_fmt t
  have hsel : ∀ greater l p, selects greater l p (f.select greater (rd a l p) (rd b l p)) := fun greater l p =>
    ⟨fun hn => hnan ▸ Fmt.select_nan hf greater hn, Fmt.select_number hf he (readFloat_lt ..) (readFloat_lt ..) greater⟩
  refine ⟨?_, ?_, ?_, ?_, ?_, fun hx => ?_⟩
  · exact computesFloat_op2 (f.select false) rfl rfl rfl (hsel false)
  · exact computesFloat_op2 (f.select true) rfl rfl rfl (hsel true)
  · exact computesFloat_op1 (fun x => (f.abs x, 0)) rfl rfl rfl fun l p =>
      ⟨rfl, fun hn => (Fmt.abs_nan hf hn).trans hnan, Fmt.abs_number hf⟩
  · exact computesFloat_op1 (fun x => (f.negate x, 0)) rfl rfl rfl fun l p =>
      ⟨rfl, fun hn => (Fmt.negate_nan hf hn).trans hnan, Fmt.negate_number hf he⟩
  · refine computesFloat_of_laneOp (f := fun s e l p => (f.classify (s.readFloat e f a l p), 0)) (.inl rfl) rfl rfl rfl fun l p => ?_
    intro x neg ef fr
    exact ⟨rfl, Fmt.classify_snan hf, fun ⟨hn, hs⟩ => Fmt.classify_qnan hf hn hs,
      fun ⟨htop, hfr⟩ => Fmt.classify_infinite hf htop hfr, fun ⟨htop, hef⟩ => Fmt.classify_normal hf htop hef,
      fun ⟨hef, hfr⟩ => Fmt.classify_subnormal hf he hef hfr, fun ⟨hef, hfr⟩ => Fmt.classify_zero hf he hef hfr⟩
  · exact ⟨fun l => f.compare cond (rd a l 0) (rd b l 0),
      lanePred_rule hx (f := fun s e l => t.fmt.compare cond (s.readFloat e t.fmt a l 0) (s.readFloat e t.fmt b l 0)) (fun _ => rfl) rfl,
      fun l => ⟨Fmt.compare_truth hf he cond, Fmt.compare_flags hf cond⟩⟩

end Sys2Proof.Machine
end
